-- ==== Sys2Proof/Word.lean ====
section
/-! DEFINITION. The words of the hub's formats (R191) and the four-fold product used for its four links and four tags. -/

namespace Sys2Proof

/-- One byte of a host frame or a link packet (R191). -/
abbrev Byte := BitVec 8

/-- A 2-byte number: a value, an epoch, a model code (R191). -/
abbrev Half := BitVec 16

/-- A 64-bit unique ID as a tile reports it (R2, table of 1.2). -/
abbrev Uid := BitVec 64

/-- A group set: bit n set when group n is present (R191). -/
abbrev GroupSet := BitVec 16

/-- A set of the 20 attention reasons, bit n for the n-th reason of the table of section 10.5 (R191). -/
abbrev Flags := BitVec 20

/-- One of the four tile links TL0 to TL3. -/
abbrev LinkId := Fin 4

/-- One of the four request tags 0 to 3 (R176). -/
abbrev Tag := Fin 4

/-- Four like things: one for each link, or one for each tag. -/
structure Quad (α : Type) where
  c0 : α
  c1 : α
  c2 : α
  c3 : α
  deriving DecidableEq, Repr

/-- The component at an index. -/
def Quad.get {α : Type} (q : Quad α) (i : Fin 4) : α :=
  if i = 0 then q.c0 else if i = 1 then q.c1 else if i = 2 then q.c2 else q.c3

/-- Replace the component at an index. -/
def Quad.put {α : Type} (q : Quad α) (i : Fin 4) (a : α) : Quad α :=
  if i = 0 then { q with c0 := a } else if i = 1 then { q with c1 := a }
  else if i = 2 then { q with c2 := a } else { q with c3 := a }

/-- Change the component at an index. -/
def Quad.modify {α : Type} (q : Quad α) (i : Fin 4) (f : α → α) : Quad α := q.put i (f (q.get i))

/-- Change every component. -/
def Quad.map {α β : Type} (q : Quad α) (f : α → β) : Quad β := ⟨f q.c0, f q.c1, f q.c2, f q.c3⟩

/-- The same thing four times. -/
def Quad.all {α : Type} (a : α) : Quad α := ⟨a, a, a, a⟩

/-- The four indices in ascending order. -/
def fours : List (Fin 4) := [0, 1, 2, 3]

end Sys2Proof
end

