-- ==== Sys2Proof/Config.lean ====
section
/-! DEFINITION. What the spec fixes for every ZL480 (capacities, times) and the model's one free value. -/

namespace Sys2Proof.Config

/-- Handles run from 1 to 80 (R1). -/
def maxHandle : Nat := 80

/-- A link has 16 hops (R100, R128). -/
def hopCount : Nat := 16

/-- The Setting Store holds at most 512 entries (R35). -/
def storeCapacity : Nat := 512

/-- The Staging List holds at most 64 changes (R49). -/
def stagingCapacity : Nat := 64

/-- A PREPARE packet carries up to 6 pairs (R71, R153). -/
def pairsPerPacket : Nat := 6

/-- A listing returns up to 8 items (R25, R40, R59, R183). -/
def listingLength : Nat := 8

/-- The model's clock counts units of 10 us, the resolution of R91: 100 of them are 1 ms. -/
def ticksPerMs : Nat := 100

/-- 1 s in units of 10 us. -/
def ticksPerSecond : Nat := 100000

/-- The no-lock timer: 100 ms (R106). -/
def noLockTicks : Nat := 100 * ticksPerMs

/-- The frame watch timer: 250 ms (R97). -/
def frameWatchTicks : Nat := 250 * ticksPerMs

/-- The spacing of boundary events: 1 ms (R91). -/
def boundarySpacing : Nat := ticksPerMs

/-- A catch-up job is restarted by its tile's replies three times before it is dropped (R158). -/
def maxRestarts : Nat := 3

/-- The fairness turn comes after 4 host transactions in a row (R120). -/
def hostRunLimit : Nat := 4

/-- Vendor code, part code and revision of IDENTIFY (R186). -/
def vendorCode : Half := 4187
def partCode : Half := 480
def revision : Byte := 1

/-- FREE VALUE. At a NO_REPLY that reaches the miss limit, whether the claim to STALE is taken before the
commit controller's handling of the NO_REPLY: the spec says "in either order" (R73, R80, R85, R116).
DESIGN CHOICE, safe, log 7. It is applied to a counter of State that each use advances. -/
opaque claimFirst : Nat → Bool

end Sys2Proof.Config
end

