-- ==== Sys2Proof/Syntax.lean ====
section
/-! DEFINITION. The commands of spec/opcode_table.json, one constructor per row. A request carries its tag and
its parameter fields at the widths R191 gives them, so a field can hold a value its encoding does not define. -/

namespace Sys2Proof

/-- A handle reference as a request carries it: handle, then generation (R191). -/
structure RefField where
  handle : Byte
  gen : Byte
  deriving DecidableEq, Repr

/-- A scope as a request carries it: the scope code and 2 bytes (R191). -/
structure ScopeField where
  code : Byte
  first : Byte
  second : Byte
  deriving DecidableEq, Repr

/-- The cursor of LIST_ENTRIES: the scope code, the group number or handle, the key number (R191). -/
structure CursorField where
  code : Byte
  place : Byte
  key : Byte
  deriving DecidableEq, Repr

/-- The selector of DISCARD (R58), every field at its full width (R191; log 12). -/
structure SelectorField where
  kind : Byte
  scope : ScopeField
  key : Byte
  ref : RefField
  deriving DecidableEq, Repr

/-- The direction of an edge on FRAME (R91), as its filter passes it: the new level has held 100 ns (R194). -/
inductive Edge where
  | rising
  | falling
  deriving DecidableEq, Repr

/-- The commands of the ZL480: every row of spec/opcode_table.json. -/
inductive Instr where
  /-- COLLECT, with the number of bytes clocked after the kind byte (R179). -/
  | collect (clocked : Nat)
  /-- STATUS, with the number of bytes clocked after the kind byte (R180). -/
  | status (clocked : Nat)
  /-- A void transaction (R174): the byte the host clocked in first, none when CS_N rises before it is complete, and the whole
  bytes behind it. -/
  | voidTransaction (first : Option Byte) (rest : List Byte)
  | lookupId (tag : Byte) (uid : Uid)
  | lookupPos (tag col row : Byte)
  | describe (tag : Byte) (ref : RefField)
  | list (tag filter cursor : Byte)
  | setGrace (tag seconds : Byte)
  | retire (tag : Byte) (ref : RefField) (force : Byte)
  | defineKey (tag key addr : Byte) (dflt min max : Half)
  | undefineKey (tag key : Byte)
  | describeKey (tag key : Byte)
  | readEntry (tag : Byte) (scope : ScopeField) (key : Byte)
  | listEntries (tag : Byte) (cursor : CursorField)
  | resolve (tag : Byte) (ref : RefField) (key : Byte)
  | stageSet (tag : Byte) (scope : ScopeField) (key : Byte) (value : Half)
  | stageClear (tag : Byte) (scope : ScopeField) (key : Byte)
  | stagePlace (tag : Byte) (ref : RefField) (col row displace : Byte)
  | stageUnplace (tag : Byte) (ref : RefField)
  | stageGroups (tag : Byte) (ref : RefField) (groups : List Byte)
  | discard (tag : Byte) (selector : SelectorField)
  | stagingList (tag cursor : Byte)
  | commit (tag policy : Byte)
  | abort (tag : Byte)
  | commitStatus (tag : Byte)
  | setFrame (tag polarity enable : Byte)
  | boundaryNow (tag : Byte)
  | linkEnable (tag link : Byte)
  | linkDisable (tag link : Byte)
  | linkStatus (tag link : Byte)
  | setTiming (tag link timeout retries missLimit interval : Byte)
  | setDeadlines (tag : Byte) (prepare arm apply : Half)
  | rescan (tag link : Byte)
  | tileRead (tag : Byte) (ref : RefField) (addr : Byte)
  | tileWrite (tag : Byte) (ref : RefField) (addr : Byte) (value : Half)
  | attention (tag : Byte)
  | setAttnMask (tag : Byte) (mask : BitVec 24)
  | identify (tag : Byte)
  /-- CLEAR with scope LINKS (R188). -/
  | clearLinks (tag : Byte)
  /-- CLEAR with scope ALL (R189). -/
  | clearAll (tag : Byte)
  | clearIntervalEnd
  | deviceReset
  | resetRelease
  | startupIntervalEnd
  /-- An edge on FRAME whose new level has held 100 ns (R91, R194; log 42). -/
  | frameEdge (edge : Edge)
  | frameWatchExpiry
  | boundaryNowDue
  | lockAchieved (link : LinkId)
  | lockLoss (link : LinkId)
  | noLockExpiry (link : LinkId)
  /-- The bytes of an upstream reply as they reach the hub (R113, R193). -/
  | linkReply (link : LinkId) (bytes : List Byte)
  | replyTimeout (link : LinkId)
  | broadcastSent (link : LinkId)
  | rollCallDue (link : LinkId)
  /-- The grace time of the record of this handle reaches the grace period (R14). -/
  | graceExpiry (handle : Nat)
  | prepareDeadlineExpiry
  | armDeadlineExpiry
  | applyDeadlineExpiry
  /-- A SUBMIT given as the raw bytes of its request frame, judged as R175 states. -/
  | submitRefused (frame : List Byte)
  deriving DecidableEq, Repr

end Sys2Proof
end

