-- ==== Sys2Proof/Machine/State.lean ====
section
/-! DEFINITION. The state of the ZL480 as plain data, block by block, its value after device reset, and the
reasons a step can stop. -/

namespace Sys2Proof.Machine

/-! ### Names shared by the blocks -/

/-- A handle together with a generation (R1, R2). -/
structure Ref where
  handle : Nat
  gen : Nat
  deriving DecidableEq, Repr

/-- A place on the chains: a link and a hop (R3). -/
structure Loc where
  link : LinkId
  hop : Nat
  deriving DecidableEq, Repr

/-- A cell of the wall (R7). -/
structure Cell where
  col : Nat
  row : Nat
  deriving DecidableEq, Repr

/-- A parameter address and a value (R28). -/
structure Pair where
  addr : Byte
  value : Half
  deriving DecidableEq, Repr

/-- The 36 request kinds, in the order of the request table of section 10.2 (R192). -/
inductive ReqKind where
  | lookupId | lookupPos | describe | list | setGrace | retire
  | defineKey | undefineKey | describeKey | readEntry | listEntries | resolve
  | stageSet | stageClear | stagePlace | stageUnplace | stageGroups | discard | stagingList
  | commit | abort | commitStatus | setFrame | boundaryNow
  | linkEnable | linkDisable | linkStatus | setTiming | setDeadlines | rescan
  | tileRead | tileWrite | attention | setAttnMask | identify | clear
  deriving DecidableEq, Repr

/-- The completion statuses, in the order of R178. ABORTED carries its reason, and TILE_REFUSED the tile's
status, in the completion's qualifier (R192). -/
inductive Status where
  | ok | empty | busy | tooLate | notActive | noSuchHandle | staleHandle | notReachable | noReply | tileRefused
  | inUse | occupied | full | overCapacity | outOfRange | keyUndefined | keyBound | badParameter | aborted | cleared
  deriving DecidableEq, Repr

/-! ### Host Port (chapter 10) -/

/-- The port state (R174). -/
inductive PortState where
  | ready | resetting
  deriving DecidableEq, Repr

/-- The last acceptance result, in the order of R192's status block. -/
inductive AcceptResult where
  | none | accepted | tagInUse | badFrame | unknownRequest | resetting
  deriving DecidableEq, Repr

/-- The scope of CLEAR (R187). -/
inductive ClearScope where
  | links | all
  deriving DecidableEq, Repr

/-- A request that holds its tag after acceptance (R177), with the fields its completion repeats. -/
inductive Running where
  | commit
  | boundaryNow
  | rescan (link : LinkId)
  | tileRead (ref : Ref) (addr : Byte)
  | tileWrite (ref : Ref) (addr : Byte) (value : Half)
  | clear
  deriving DecidableEq, Repr

/-- The condition of a tag (R176). -/
inductive TagState where
  | free
  | running (request : Running)
  | done
  deriving DecidableEq, Repr

/-- A completion (R178): its tag, request kind, status, qualifier and encoded result fields. -/
structure Completion where
  tag : Tag
  kind : ReqKind
  status : Status
  qualifier : Byte
  result : List Byte
  deriving DecidableEq, Repr

/-- The CLEAR in progress (R187) with the results its completion will carry (R188, R189). -/
structure RunningClear where
  tag : Tag
  scope : ClearScope
  links : Byte
  stale : Nat
  ended : Nat
  deriving DecidableEq, Repr

/-- One handle's entry of the attention set, with the generation its RETIRED flag carries (R181, R182). -/
structure HandleAttn where
  flags : Flags
  retiredGen : Option Nat
  deriving DecidableEq, Repr

/-- The attention set (R181): the device entry, four link entries and 80 handle entries. -/
structure AttnSet where
  device : Flags
  links : Quad Flags
  handles : List HandleAttn
  deriving DecidableEq, Repr

/-- The Host Port's state. `sdo` is the model's record of the bytes shifted out in the latest SPI transaction. -/
structure HostPort where
  state : PortState
  lastAccept : AcceptResult
  tags : Quad TagState
  completions : List Completion
  attn : AttnSet
  mask : Flags
  clear : Option RunningClear
  sdo : List Byte
  deriving DecidableEq, Repr

/-! ### Tile Directory (chapter 1) -/

/-- The record states, in the order of table 1.2. -/
inductive RecState where
  | joining | active | lagging | stale
  deriving DecidableEq, Repr

/-- The reasons of a claim to STALE, in the order of table 1.2. -/
inductive StaleReason where
  | linkDown | unreached | replaced | noReply | cleared
  deriving DecidableEq, Repr

/-- Stale since and stale reason, present exactly while the state is STALE (R3, R9). -/
structure StaleInfo where
  since : Nat
  reason : StaleReason
  deriving DecidableEq, Repr

/-- A tile record (table 1.2). Its catch-up job stands in its link's job queue. -/
structure Record where
  ref : Ref
  uid : Uid
  model : Half
  capacity : Nat
  state : RecState
  loc : Loc
  pos : Option Cell
  groups : GroupSet
  synced : Half
  miss : Nat
  stale : Option StaleInfo
  deriving DecidableEq, Repr

/-- What a mark of the unique-ID index stands for (R4). -/
inductive MarkKind where
  | assigningNew | assigningRebind
  deriving DecidableEq, Repr

/-- A mark of the unique-ID index (R4): the ID matched, the reference its ASSIGN carries, the answering hop. -/
structure Mark where
  uid : Uid
  kind : MarkKind
  ref : Ref
  loc : Loc
  deriving DecidableEq, Repr

/-- The Tile Directory. `gens` holds the generations of handles 1 to 80 in order; the position grid and the
index of the records' IDs are computed from the records (R4, R7). -/
structure Directory where
  gens : List Nat
  records : List Record
  freeList : List Nat
  staleList : List Nat
  marks : List Mark
  grace : Nat
  deriving DecidableEq, Repr

/-! ### Key Table and Setting Store (chapter 2) -/

/-- A key record (R29). -/
structure KeyRec where
  number : Nat
  addr : Byte
  dflt : Half
  min : Half
  max : Half
  introduced : Bool
  deriving DecidableEq, Repr

/-- The scope of an entry or a change (R35, R48). -/
inductive Scope where
  | wall
  | group (number : Nat)
  | tile (ref : Ref)
  deriving DecidableEq, Repr

/-- An entry of the Setting Store (R35). -/
structure Entry where
  scope : Scope
  key : Nat
  value : Half
  deriving DecidableEq, Repr

/-! ### Staging List (chapter 3) -/

/-- A staged change of one of the five kinds (R48). -/
inductive Change where
  | setVal (scope : Scope) (key : Nat) (value : Half)
  | clearVal (scope : Scope) (key : Nat)
  | place (ref : Ref) (cell : Cell) (displace : Bool)
  | unplace (ref : Ref)
  | groups (ref : Ref) (set : GroupSet)
  deriving DecidableEq, Repr

/-- What a staged change acts on (R48). -/
inductive Target where
  | entry (scope : Scope) (key : Nat)
  | position (handle : Nat)
  | groupSet (handle : Nat)
  deriving DecidableEq, Repr

/-! ### Commit Controller (chapter 4) -/

/-- The commit states (R64). -/
inductive CommitState where
  | idle | preparing | armed | applying | cancelling
  deriving DecidableEq, Repr

/-- The commit policies (R67). -/
inductive Policy where
  | strict | lenient
  deriving DecidableEq, Repr

/-- The cancel reasons (R64, R84). -/
inductive CancelReason where
  | host
  | prepareFailed (ref : Ref)
  | deadline
  | noBoundary
  | participantLost
  deriving DecidableEq, Repr

/-- The statuses of a participant (R65). -/
inductive PartStatus where
  | unprepared | prepared | excluded | unconfirmed | confirmed | lagging
  deriving DecidableEq, Repr

/-- A participant record (R65). Its packet count follows from its pairs (R71). -/
structure Participant where
  ref : Ref
  loc : Loc
  pairs : List Pair
  acked : Nat
  reached : Bool
  cancelSent : Bool
  status : PartStatus
  deriving DecidableEq, Repr

/-- A record's part of a view: its group set and position in that view (R41, R42). -/
structure ViewRec where
  ref : Ref
  groups : GroupSet
  pos : Option Cell
  deriving DecidableEq, Repr

/-- A view: the store entries and each record's part (R44). The keys are the Key Table's in every view. -/
structure View where
  entries : List Entry
  recs : List ViewRec
  deriving DecidableEq, Repr

/-- The deadline settings in milliseconds (R66, R124). -/
structure Deadlines where
  prepare : Nat
  arm : Nat
  apply : Nat
  deriving DecidableEq, Repr

/-- The Commit Controller (R64). A deadline is stopped (none) or running with its time of expiry. -/
structure CommitCtl where
  state : CommitState
  epoch : Half
  policy : Option Policy
  tag : Option Tag
  postView : Option View
  displaced : List Ref
  participants : List Participant
  prepareDl : Option Nat
  armDl : Option Nat
  applyDl : Option Nat
  reason : Option CancelReason
  applyCount : Option (BitVec 32)
  lengths : Deadlines
  deriving DecidableEq, Repr

/-! ### Boundary Unit (chapter 5) -/

/-- A BOUNDARY_NOW waiting for its event (R95). -/
structure PendingNow where
  tag : Tag
  due : Nat
  deriving DecidableEq, Repr

/-- The Boundary Unit (table at the head of chapter 5). The watch timer is stopped (none) or runs to a time. -/
structure BoundaryUnit where
  polarity : Edge
  enabled : Bool
  count : BitVec 32
  previous : Option Nat
  pendingNow : Option PendingNow
  present : Bool
  watch : Option Nat
  deriving DecidableEq, Repr

/-! ### Link Engines (chapters 6 and 7) -/

/-- The link states (R105). -/
inductive LinkState where
  | disabled | training | scanning | running
  deriving DecidableEq, Repr

/-- Why a hop is UNLISTED (R128); DUPLICATE_ID carries the reported ID. -/
inductive Unlisted where
  | badId
  | duplicateId (uid : Uid)
  | directoryFull
  | assignFailed
  | retired
  deriving DecidableEq, Repr

/-- An entry of the hop map (R128). -/
inductive HopEntry where
  | listed (ref : Ref)
  | unlisted (why : Unlisted)
  | empty
  deriving DecidableEq, Repr

/-- The form of a transaction (R111). -/
inductive Dest where
  | directed (hop : Nat)
  | broadcast
  | rollCall
  deriving DecidableEq, Repr

/-- The kind of a transaction with what its packet carries (R103, R111, R193). -/
inductive Body where
  | enumQuery
  | assign (ref : Ref)
  | prepare (epoch : Half) (first final : Bool) (pairs : List Pair)
  | apply (epoch : Half)
  | cancel (epoch : Half)
  | paramRead (addr : Byte)
  | paramWrite (addr : Byte) (value : Half)
  | rollCall
  deriving DecidableEq, Repr

/-- The traffic classes (R111). -/
inductive TxnClass where
  | commit | scan | host | catchUp | periodic
  deriving DecidableEq, Repr

/-- Where a transaction's outcome goes (R111): a participant, the commit controller for its broadcast APPLY and
verification roll call, a step of the full scan or of a hop scan, a tag, a catch-up job (suspended: the transaction was on the
wire when a commit was accepted, R161), the link engine itself;
or nowhere, once the purpose it was queued for has gone (R75, R118, R159). -/
inductive Requester where
  | participant (ref : Ref)
  | controller
  | scanStep (full : Bool)
  | tag (tag : Tag)
  | job (ref : Ref)
  | suspendedJob (ref : Ref)
  | engine
  | gone
  deriving DecidableEq, Repr

/-- A transaction (R111). -/
structure Txn where
  dest : Dest
  body : Body
  cls : TxnClass
  req : Requester
  deriving DecidableEq, Repr

/-- The phase of the transaction in flight (R111, R122). -/
inductive FlightPhase where
  | onWire | between
  deriving DecidableEq, Repr

/-- The transaction in flight (R111), with the expiry of its attempt's reply timer (R113). -/
structure Flight where
  txn : Txn
  seq : Nat
  attempt : Nat
  allowed : Nat
  phase : FlightPhase
  expires : Nat
  deriving DecidableEq, Repr

/-- An attempt whose reply timer has expired: the moment of the expiry, and the packet's body and sequence number, to which a reply
behind the expiry answers (R113; log 48). -/
structure Expiry where
  moment : Nat
  body : Body
  seq : Nat
  deriving DecidableEq, Repr

/-- A link's timing settings (R123). -/
structure Timing where
  timeout : Nat
  retries : Nat
  missLimit : Nat
  interval : Nat
  deriving DecidableEq, Repr

/-- What an OK reply to an ENUM_QUERY reports (R103). -/
structure EnumInfo where
  uid : Uid
  model : Half
  capacity : Nat
  held : Ref
  live : Half
  deriving DecidableEq, Repr

/-- The assignment in progress on a hop (R130): the reference its ASSIGN carries and the step's reply (R131). -/
structure Assignment where
  hop : Nat
  kind : MarkKind
  ref : Ref
  info : EnumInfo
  full : Bool
  deriving DecidableEq, Repr

/-- The progress of a full scan (R135), with the counts of the RESCAN completion (R138). -/
structure FullScan where
  hop : Nat
  created : Nat
  rebound : Nat
  claimed : Nat
  rescan : Option Tag
  deriving DecidableEq, Repr

/-- A link engine (table at the head of chapter 6). `caused` holds the hop scans caused in the present event,
which are queued at its end (R140; log 6); `sent` holds the bytes of the latest packet put on the wire; `rollMet` says that the
periodic roll call of the present interval has been due, so that its mark is not repeated (R121; log 28); `expired` holds the
attempt whose reply timer expired last, as long as its reply may still come behind the expiry (R113; log 48). -/
structure LinkEngine where
  state : LinkState
  reach : Nat
  hops : List HopEntry
  seqCounter : Nat
  lastSeq : List (Option Nat)
  flight : Option Flight
  overtaking : Option Flight
  commitQ : List Txn
  scanQ : List Txn
  hostQ : List Txn
  catchQ : List Txn
  hostRun : Nat
  rollDue : Bool
  rollMet : Bool
  lastRollEnd : Nat
  noLockTimer : Option Nat
  noLockMark : Bool
  timing : Timing
  scan : Option FullScan
  assigning : Option Assignment
  followUp : Bool
  caused : List Nat
  expired : Option Expiry
  sent : List Byte
  deriving DecidableEq, Repr

/-! ### Catch-up Unit (chapter 8) -/

/-- The phases of a catch-up job (R149). -/
inductive JobPhase where
  | preparing | awaitingBoundary | applying
  deriving DecidableEq, Repr

/-- A catch-up job (R149). -/
structure Job where
  ref : Ref
  link : LinkId
  list : List Pair
  round : Nat
  roundCount : Nat
  phase : JobPhase
  acked : Nat
  turn : Bool
  restarts : Nat
  reprepare : Bool
  deriving DecidableEq, Repr

/-! ### The hub -/

/-- Device reset: RESET_N low (or power-on under way), the start-up interval, or operation (R190). -/
inductive DevicePhase where
  | inReset | startup | operating
  deriving DecidableEq, Repr

/-- The state of the ZL480. `pending` is the queue of commands that are waiting; `now` is the model's clock in units of
10 us; `choices` is the counter the free value Config.claimFirst is applied to. -/
structure State where
  pending : List Instr
  now : Nat
  choices : Nat
  phase : DevicePhase
  port : HostPort
  dir : Directory
  keys : List KeyRec
  store : List Entry
  staging : List Change
  commit : CommitCtl
  boundary : BoundaryUnit
  links : Quad LinkEngine
  jobs : Quad (List Job)
  deriving DecidableEq, Repr

/-- The spec gives the hub no fault: no command of the hub stops it, so there is no constructor. -/
inductive Fault where
  deriving DecidableEq, Repr

/-- The reasons a command has no meaning. -/
inductive Refusal where
  /-- Raised by exec's arm of a command that has no meaning yet (none is left); safe. -/
  | notModelled (mnemonic : String)
  deriving DecidableEq, Repr

/-! ### Device reset -/

/-- The timing settings after device reset (R123, R127). -/
def Timing.reset : Timing := { timeout := 20, retries := 2, missLimit := 3, interval := 20 }

/-- A link engine after device reset (R127, R148). The time of the end of the last roll call: log 5. -/
def LinkEngine.reset : LinkEngine :=
  { state := .disabled, reach := 0, hops := List.replicate Config.hopCount .empty, seqCounter := 0,
    lastSeq := List.replicate Config.hopCount none, flight := none, overtaking := none,
    commitQ := [], scanQ := [], hostQ := [], catchQ := [], hostRun := 0, rollDue := false, rollMet := false,
    lastRollEnd := 0,
    noLockTimer := none, noLockMark := false, timing := Timing.reset, scan := none, assigning := none,
    followUp := false, caused := [], expired := none, sent := [] }

/-- An attention set with no flag raised (R181). -/
def AttnSet.empty : AttnSet :=
  { device := 0, links := Quad.all 0, handles := List.replicate Config.maxHandle ⟨0, none⟩ }

/-- The Host Port in the start-up interval (R190). -/
def HostPort.initial : HostPort :=
  { state := .resetting, lastAccept := .none, tags := Quad.all .free, completions := [], attn := AttnSet.empty,
    mask := BitVec.allOnes 20, clear := none, sdo := [] }

/-- The Tile Directory after device reset (R1, R5, R13, R14). -/
def Directory.reset : Directory :=
  { gens := List.replicate Config.maxHandle 0, records := [], freeList := List.range' 1 Config.maxHandle,
    staleList := [], marks := [], grace := 30 }

/-- The deadline settings after device reset (R66). -/
def Deadlines.reset : Deadlines := { prepare := 50, arm := 100, apply := 50 }

/-- The Commit Controller when IDLE, at an epoch and with deadline settings (R64). -/
def CommitCtl.idle (epoch : Half) (lengths : Deadlines) : CommitCtl :=
  { state := .idle, epoch := epoch, policy := none, tag := none, postView := none, displaced := [],
    participants := [], prepareDl := none, armDl := none, applyDl := none, reason := none, applyCount := none,
    lengths := lengths }

/-- The Boundary Unit after device reset (R98, R99). -/
def BoundaryUnit.reset : BoundaryUnit :=
  { polarity := .rising, enabled := true, count := 0, previous := none, pendingNow := none, present := false,
    watch := none }

/-- Every block at the initial value its chapter states, the port in its start-up interval (R190). -/
def State.initial : State :=
  { pending := [], now := 0, choices := 0, phase := .startup, port := HostPort.initial, dir := Directory.reset,
    keys := [], store := [], staging := [], commit := CommitCtl.idle 0 Deadlines.reset,
    boundary := BoundaryUnit.reset, links := Quad.all LinkEngine.reset, jobs := Quad.all [] }

/-- The hub after device reset, its start-up interval over: READY, RESET_DONE raised (R190; log 3). -/
def State.reset : State :=
  { State.initial with
    phase := .operating
    port := { HostPort.initial with state := .ready, attn := { AttnSet.empty with device := 1 } } }

end Sys2Proof.Machine
end

