-- ==== Sys2Proof/Machine/Bytes.lean ====
section
/-! DEFINITION. Byte layouts and checks (chapter 11): CRC-8, CRC-16, field encodings, the code of each named
value, completion frames, link packets and upstream replies. -/

namespace Sys2Proof.Machine

/-! ### Checks (R191) -/

/-- One bit step of a CRC register of width n with a polynomial. -/
def crcBit {n : Nat} (poly : BitVec n) (r : BitVec n) : BitVec n := if r.msb then (r <<< 1) ^^^ poly else r <<< 1

/-- Eight bit steps. -/
def crcByte {n : Nat} (poly r : BitVec n) : BitVec n :=
  crcBit poly (crcBit poly (crcBit poly (crcBit poly (crcBit poly (crcBit poly (crcBit poly (crcBit poly r)))))))

/-- The CRC-8 of host frames: polynomial 07h, register from 00h, no reflection, no inversion (R191). -/
def crc8 (bs : List Byte) : Byte := bs.foldl (fun r b => crcByte 0x07#8 (r ^^^ b)) 0x00#8

/-- The CRC-16 of link packets: polynomial 1021h, register from FFFFh, no reflection, no inversion (R191). -/
def crc16 (bs : List Byte) : Half :=
  bs.foldl (fun r b => crcByte 0x1021#16 (r ^^^ (b ++ 0x00#8))) 0xFFFF#16

/-! ### Numbers, most significant byte first (R191) -/

/-- A number in one byte. -/
def u8 (n : Nat) : Byte := BitVec.ofNat 8 n

/-- A 2-byte number. -/
def halfBytes (h : Half) : List Byte := [h.extractLsb' 8 8, h.extractLsb' 0 8]

/-- A 2-byte number from its bytes. -/
def halfOf (hi lo : Byte) : Half := hi ++ lo

/-- A count in 2 bytes. -/
def u16 (n : Nat) : List Byte := halfBytes (BitVec.ofNat 16 n)

/-- The boundary count in 4 bytes. -/
def wordBytes (w : BitVec 32) : List Byte :=
  [w.extractLsb' 24 8, w.extractLsb' 16 8, w.extractLsb' 8 8, w.extractLsb' 0 8]

/-- A unique ID in 8 bytes. -/
def uidBytes (u : Uid) : List Byte :=
  [u.extractLsb' 56 8, u.extractLsb' 48 8, u.extractLsb' 40 8, u.extractLsb' 32 8,
   u.extractLsb' 24 8, u.extractLsb' 16 8, u.extractLsb' 8 8, u.extractLsb' 0 8]

/-- A unique ID from its 8 bytes. -/
def uidOf (a b c d e f g h : Byte) : Uid := a ++ b ++ c ++ d ++ e ++ f ++ g ++ h

/-- Attention flags or an attention mask in 3 bytes, reason n in bit n (R191). -/
def flagBytes (f : Flags) : List Byte :=
  let w : BitVec 24 := f.setWidth 24
  [w.extractLsb' 16 8, w.extractLsb' 8 8, w.extractLsb' 0 8]

/-- A handle reference: handle, then generation (R191). -/
def refBytes (r : Ref) : List Byte := [u8 r.handle, u8 r.gen]

/-- A mark or an option: 00h clear, 01h set (R191). -/
def markByte (b : Bool) : Byte := if b then 0x01 else 0x00

/-- An absent field of width n is sent with every byte FFh (R191). -/
def absentBytes (n : Nat) : List Byte := List.replicate n 0xFF

/-- A scope (R191). -/
def scopeBytes : Scope → List Byte
  | .wall => [0x00, 0x00, 0x00]
  | .group g => [0x01, u8 g, 0x00]
  | .tile r => 0x02 :: refBytes r

/-! ### Codes of named values, in the order their rule names them (R191) -/

/-- Request kinds are numbered 01h to 24h (R192). -/
def ReqKind.code (k : ReqKind) : Byte := u8 (k.ctorIdx + 1)

/-- Completion statuses are numbered 00h to 13h (R192). -/
def Status.code (st : Status) : Byte := u8 st.ctorIdx

/-- The last acceptance result in the status block (R192). -/
def AcceptResult.code (a : AcceptResult) : Byte := u8 a.ctorIdx

/-- JOINING, ACTIVE, LAGGING, STALE (table 1.2). -/
def RecState.code (x : RecState) : Byte := u8 x.ctorIdx

/-- LINK_DOWN, UNREACHED, REPLACED, NO_REPLY, CLEARED (table 1.2). -/
def StaleReason.code (x : StaleReason) : Byte := u8 x.ctorIdx

/-- PREPARING, AWAITING_BOUNDARY, APPLYING (R149). -/
def JobPhase.code (x : JobPhase) : Byte := u8 x.ctorIdx

/-- SET, CLEAR, PLACE, UNPLACE, GROUPS (R48). -/
def Change.code (x : Change) : Byte := u8 x.ctorIdx

/-- STRICT, LENIENT (R67). -/
def Policy.code (x : Policy) : Byte := u8 x.ctorIdx

/-- IDLE, PREPARING, ARMED, APPLYING, CANCELLING (R192). -/
def CommitState.code (x : CommitState) : Byte := u8 x.ctorIdx

/-- DISABLED, TRAINING, SCANNING, RUNNING (R192). -/
def LinkState.code (x : LinkState) : Byte := u8 x.ctorIdx

/-- RISING, FALLING (R94). -/
def Edge.code : Edge → Byte
  | .rising => 0x00
  | .falling => 0x01

/-- LINKS, ALL (R187). -/
def ClearScope.code (x : ClearScope) : Byte := u8 x.ctorIdx

/-- BAD_ID, DUPLICATE_ID, DIRECTORY_FULL, ASSIGN_FAILED, RETIRED (R128, R191). -/
def Unlisted.code (x : Unlisted) : Byte := u8 x.ctorIdx

/-- The transaction kinds in the order of R111. -/
def Body.code (x : Body) : Byte := u8 x.ctorIdx

/-- The transaction classes in the order of R111. -/
def TxnClass.code (x : TxnClass) : Byte := u8 x.ctorIdx

/-- The reason of an ABORTED completion (R192): HOST 01h to PARTICIPANT_LOST 05h. -/
def CancelReason.code (x : CancelReason) : Byte := u8 (x.ctorIdx + 1)

/-- The handle reference a cancel reason carries (R64). -/
def CancelReason.ref? : CancelReason → Option Ref
  | .prepareFailed r => some r
  | _ => none

/-- A handle reference, or FFFFh when absent. -/
def optRefBytes : Option Ref → List Byte
  | some r => refBytes r
  | none => absentBytes 2

/-- A hop-map entry in 3 bytes (R191). -/
def HopEntry.bytes : HopEntry → List Byte
  | .listed r => 0x00 :: refBytes r
  | .unlisted w => [0x01, w.code, 0x00]
  | .empty => [0x02, 0x00, 0x00]

/-! ### Completion frames (R192) -/

/-- The completion frame: length, tag, kind, status, qualifier, results, CRC-8. -/
def Completion.frame (c : Completion) : List Byte :=
  let body := [u8 c.tag.val, c.kind.code, c.status.code, c.qualifier] ++ c.result
  let covered := u8 (body.length + 1) :: body
  covered ++ [crc8 covered]

/-- The filler byte of the host port (R192). -/
def filler : Byte := 0xFF

/-- The first n bytes the hub shifts out after the kind byte when it has the bytes bs to send and then filler. -/
def shiftOut (bs : List Byte) (n : Nat) : List Byte := bs.take n ++ List.replicate (n - bs.length) filler

/-! ### Link packets (R193) -/

/-- The packet kind nibble (R193). -/
def Body.nibble (b : Body) : Nat := b.ctorIdx + 1

/-- The hop field of a downstream packet (R100). -/
def Dest.hopField : Dest → Nat
  | .directed h => h
  | .broadcast => 31
  | .rollCall => 31

/-- The pairs of a PREPARE packet. -/
def pairBytes (ps : List Pair) : List Byte := ps.flatMap (fun p => p.addr :: halfBytes p.value)

/-- The downstream payload (R193). -/
def Body.payload : Body → List Byte
  | .enumQuery => []
  | .assign r => refBytes r
  | .prepare e first final ps =>
      halfBytes e ++ [u8 ((if first then 1 else 0) + (if final then 2 else 0)), u8 ps.length] ++ pairBytes ps
  | .apply e => halfBytes e
  | .cancel e => halfBytes e
  | .paramRead a => [a]
  | .paramWrite a v => a :: halfBytes v
  | .rollCall => [0x00]

/-- A downstream packet: header, payload, CRC-16 high byte first (R193). -/
def Txn.packet (t : Txn) (seq : Nat) : List Byte :=
  let covered := [u8 (16 * t.body.nibble + seq), u8 t.dest.hopField, u8 t.body.payload.length] ++ t.body.payload
  covered ++ halfBytes (crc16 covered)

/-- The status of an upstream reply (R103, R193). -/
inductive TileStatus where
  | ok | refused | full | badEpoch
  deriving DecidableEq, Repr

/-- The code of a tile status: OK 0, REFUSED 1, FULL 2, BAD_EPOCH 3 (R193). -/
def TileStatus.code (x : TileStatus) : Byte := u8 x.ctorIdx

/-- A tile status from its byte. -/
def TileStatus.ofByte (b : Byte) : Option TileStatus :=
  if b = 0 then some .ok else if b = 1 then some .refused
  else if b = 2 then some .full else if b = 3 then some .badEpoch else none

/-- What one tile appends to a roll call: the reference it holds and its live epoch (R103). -/
structure RollEntry where
  held : Ref
  live : Half
  deriving DecidableEq, Repr

/-- The contents of a reply (R193). -/
inductive ReplyBody where
  | nothing
  | enumInfo (info : EnumInfo)
  | epoch (live : Half)
  | value (v : Half)
  | roll (entries : List RollEntry)
  deriving DecidableEq, Repr

/-- The entries of a roll-call payload after its reach count: 4 bytes each. -/
def rollEntries : List Byte → Option (List RollEntry)
  | [] => some []
  | h :: g :: e1 :: e0 :: rest =>
      (rollEntries rest).map (fun es => ⟨⟨h.toNat, g.toNat⟩, halfOf e1 e0⟩ :: es)
  | _ => none

/-- The payload of a reply to a packet, when its length is the one R193 gives for the kind and the status. -/
def replyPayload (b : Body) (st : TileStatus) (payload : List Byte) : Option ReplyBody :=
  match b, st, payload with
  | .enumQuery, .ok, [u7, u6, u5, u4, u3, u2, u1, u0, m1, m0, c, h, g, e1, e0] =>
      some (.enumInfo ⟨uidOf u7 u6 u5 u4 u3 u2 u1 u0, halfOf m1 m0, c.toNat, ⟨h.toNat, g.toNat⟩, halfOf e1 e0⟩)
  | .enumQuery, .ok, _ => none
  | .apply _, .ok, [e1, e0] => some (.epoch (halfOf e1 e0))
  | .apply _, .ok, _ => none
  | .apply _, .badEpoch, [e1, e0] => some (.epoch (halfOf e1 e0))
  | .apply _, .badEpoch, _ => none
  | .paramRead _, .ok, [v1, v0] => some (.value (halfOf v1 v0))
  | .paramRead _, .ok, _ => none
  | .rollCall, _, count :: rest =>
      match rollEntries rest with
      | some es => if es.length = count.toNat ∧ count.toNat ≤ Config.hopCount then some (.roll es) else none
      | none => none
  | .rollCall, _, [] => none
  | _, _, [] => some .nothing
  | _, _, _ :: _ => none

/-- How the hub finds the bytes of an upstream reply against the packet sent (R113). -/
inductive ReplyJudgement where
  /-- Good check, well formed, the sequence number of the transaction. -/
  | good (st : TileStatus) (body : ReplyBody)
  /-- Good check, well formed, another sequence number. -/
  | otherSeq
  /-- Bad check, or not well formed. -/
  | bad
  deriving DecidableEq, Repr

/-- Judge the bytes of an upstream reply to a packet of this body and sequence number (R113, R193). -/
def judgeReply (b : Body) (seq : Nat) (bytes : List Byte) : ReplyJudgement :=
  let n := bytes.length
  let covered := bytes.take (n - 2)
  if n < 5 ∨ bytes.drop (n - 2) ≠ halfBytes (crc16 covered) then .bad
  else match covered with
    | b0 :: b1 :: len :: payload =>
        if b0.toNat / 16 = b.nibble ∧ len.toNat = payload.length then
          match TileStatus.ofByte b1 with
          | some st =>
              match replyPayload b st payload with
              | some body => if b0.toNat % 16 = seq then .good st body else .otherSeq
              | none => .bad
          | none => .bad
        else .bad
    | _ => .bad

end Sys2Proof.Machine
end

