-- ==== Sys2Proof/Decode.lean ====
section
/-! DEFINITION. Request frames as bytes (R175, R191, R192): their encoder and their decoder, total on any bytes. The opcode
table gives no row any bits, so no table word spells a command. -/

namespace Sys2Proof

open Sys2Proof.Machine

/-- The command a word spells by the table's bits. spec/opcode_table.json gives bits to no row, so no word spells one. -/
def decodeTableWord (_nbits _w : Nat) : Option Instr := none

/-! ### The kind byte of an SPI transaction (R174, R192) -/

/-- The three kinds of an SPI transaction (R174). -/
inductive SpiKind where
  | submit | collect | status
  deriving DecidableEq, Repr

/-- The kind that the first byte of a transaction names: 51h, C3h or 5Ah; any other byte names none (R192). -/
def spiKind (b : Byte) : Option SpiKind :=
  if b = 0x51 then some .submit else if b = 0xC3 then some .collect else if b = 0x5A then some .status else none

/-- The command that an SPI transaction is, from its first byte, if that is complete, and the whole bytes behind it (R174, R192):
a SUBMIT of the frame behind the kind byte, a COLLECT or a STATUS of as many bytes as follow it, or a void transaction. -/
def transactionOf (first : Option Byte) (rest : List Byte) : Instr :=
  match first with
  | none => .voidTransaction none []
  | some b =>
    match spiKind b with
    | some .submit => .submitRefused rest
    | some .collect => .collect rest.length
    | some .status => .status rest.length
    | none => .voidTransaction (some b) rest

/-! ### The encoder: kind, tag and parameter bytes of a request (R191, R192) -/

/-- The bytes of a reference field. -/
def RefField.bytes (f : RefField) : List Byte := [f.handle, f.gen]

/-- The bytes of a scope field. -/
def ScopeField.bytes (f : ScopeField) : List Byte := [f.code, f.first, f.second]

/-- The bytes of a LIST_ENTRIES cursor field. -/
def CursorField.bytes (f : CursorField) : List Byte := [f.code, f.place, f.key]

/-- The bytes of a DISCARD selector field. -/
def SelectorField.bytes (f : SelectorField) : List Byte := [f.kind] ++ f.scope.bytes ++ [f.key] ++ f.ref.bytes

/-- A request as its frame spells it: kind, tag, parameter bytes. -/
structure Request where
  kind : ReqKind
  tag : Byte
  params : List Byte
  deriving DecidableEq, Repr

/-- The request a command submits, its parameters in the order in which the request's rule lists them (R191); none for a
command that is not a SUBMIT of a request. -/
def requestOf : Instr → Option Request
  | .collect _ => none
  | .status _ => none
  | .voidTransaction _ _ => none
  | .lookupId t u => some ⟨.lookupId, t, uidBytes u⟩
  | .lookupPos t c r => some ⟨.lookupPos, t, [c, r]⟩
  | .describe t f => some ⟨.describe, t, f.bytes⟩
  | .list t f c => some ⟨.list, t, [f, c]⟩
  | .setGrace t n => some ⟨.setGrace, t, [n]⟩
  | .retire t f x => some ⟨.retire, t, f.bytes ++ [x]⟩
  | .defineKey t k a d lo hi => some ⟨.defineKey, t, [k, a] ++ halfBytes d ++ halfBytes lo ++ halfBytes hi⟩
  | .undefineKey t k => some ⟨.undefineKey, t, [k]⟩
  | .describeKey t k => some ⟨.describeKey, t, [k]⟩
  | .readEntry t sc k => some ⟨.readEntry, t, sc.bytes ++ [k]⟩
  | .listEntries t c => some ⟨.listEntries, t, c.bytes⟩
  | .resolve t f k => some ⟨.resolve, t, f.bytes ++ [k]⟩
  | .stageSet t sc k v => some ⟨.stageSet, t, sc.bytes ++ [k] ++ halfBytes v⟩
  | .stageClear t sc k => some ⟨.stageClear, t, sc.bytes ++ [k]⟩
  | .stagePlace t f c r d => some ⟨.stagePlace, t, f.bytes ++ [c, r, d]⟩
  | .stageUnplace t f => some ⟨.stageUnplace, t, f.bytes⟩
  | .stageGroups t f ns => some ⟨.stageGroups, t, f.bytes ++ [u8 ns.length] ++ ns⟩
  | .discard t f => some ⟨.discard, t, f.bytes⟩
  | .stagingList t c => some ⟨.stagingList, t, [c]⟩
  | .commit t p => some ⟨.commit, t, [p]⟩
  | .abort t => some ⟨.abort, t, []⟩
  | .commitStatus t => some ⟨.commitStatus, t, []⟩
  | .setFrame t p e => some ⟨.setFrame, t, [p, e]⟩
  | .boundaryNow t => some ⟨.boundaryNow, t, []⟩
  | .linkEnable t l => some ⟨.linkEnable, t, [l]⟩
  | .linkDisable t l => some ⟨.linkDisable, t, [l]⟩
  | .linkStatus t l => some ⟨.linkStatus, t, [l]⟩
  | .setTiming t l a b c d => some ⟨.setTiming, t, [l, a, b, c, d]⟩
  | .setDeadlines t p a b => some ⟨.setDeadlines, t, halfBytes p ++ halfBytes a ++ halfBytes b⟩
  | .rescan t l => some ⟨.rescan, t, [l]⟩
  | .tileRead t f a => some ⟨.tileRead, t, f.bytes ++ [a]⟩
  | .tileWrite t f a v => some ⟨.tileWrite, t, f.bytes ++ [a] ++ halfBytes v⟩
  | .attention t => some ⟨.attention, t, []⟩
  | .setAttnMask t m => some ⟨.setAttnMask, t, [m.extractLsb' 16 8, m.extractLsb' 8 8, m.extractLsb' 0 8]⟩
  | .identify t => some ⟨.identify, t, []⟩
  | .clearLinks t => some ⟨.clear, t, [0x00]⟩
  | .clearAll t => some ⟨.clear, t, [0x01]⟩
  | .clearIntervalEnd => none
  | .deviceReset => none
  | .resetRelease => none
  | .startupIntervalEnd => none
  | .frameEdge _ => none
  | .frameWatchExpiry => none
  | .boundaryNowDue => none
  | .lockAchieved _ => none
  | .lockLoss _ => none
  | .noLockExpiry _ => none
  | .linkReply _ _ => none
  | .replyTimeout _ => none
  | .broadcastSent _ => none
  | .rollCallDue _ => none
  | .graceExpiry _ => none
  | .prepareDeadlineExpiry => none
  | .armDeadlineExpiry => none
  | .applyDeadlineExpiry => none
  | .submitRefused _ => none

/-- The bytes of a request frame: kind, tag, parameters, CRC-8 (R192). -/
def Request.frame (r : Request) : List Byte :=
  let covered := r.kind.code :: r.tag :: r.params
  covered ++ [crc8 covered]

/-- The request frame of a command, empty for a command that is no request. -/
def encodeFrame (i : Instr) : List Byte :=
  match requestOf i with
  | some r => r.frame
  | none => []

/-! ### The decoder (R175, R192) -/

/-- The request kinds in the order of their numbers, from 01h. -/
def requestKinds : List ReqKind :=
  [.lookupId, .lookupPos, .describe, .list, .setGrace, .retire,
   .defineKey, .undefineKey, .describeKey, .readEntry, .listEntries, .resolve,
   .stageSet, .stageClear, .stagePlace, .stageUnplace, .stageGroups, .discard, .stagingList,
   .commit, .abort, .commitStatus, .setFrame, .boundaryNow,
   .linkEnable, .linkDisable, .linkStatus, .setTiming, .setDeadlines, .rescan,
   .tileRead, .tileWrite, .attention, .setAttnMask, .identify, .clear]

/-- The request kind a byte names (R192). -/
def kindOf (b : Byte) : Option ReqKind := if b = 0 then none else requestKinds[b.toNat - 1]?

/-- What a request frame stands for once its check is good and its kind is known. -/
inductive Decoded where
  | request (i : Instr)
  /-- A CLEAR whose scope byte names neither scope: it is accepted, and completes BAD_PARAMETER (R187, R191). -/
  | badClear (tag : Byte)
  deriving DecidableEq, Repr

/-- The request that a kind, a tag and parameter bytes spell; none when the number of parameter bytes is not the kind's. -/
def decodeParams (k : ReqKind) (t : Byte) (ps : List Byte) : Option Decoded :=
  match k with
  | .lookupId =>
    match ps with
    | [a, b, c, d, e, f, g, h] => some (.request (.lookupId t (uidOf a b c d e f g h)))
    | _ => none
  | .lookupPos =>
    match ps with
    | [c, r] => some (.request (.lookupPos t c r))
    | _ => none
  | .describe =>
    match ps with
    | [h, g] => some (.request (.describe t ⟨h, g⟩))
    | _ => none
  | .list =>
    match ps with
    | [f, c] => some (.request (.list t f c))
    | _ => none
  | .setGrace =>
    match ps with
    | [n] => some (.request (.setGrace t n))
    | _ => none
  | .retire =>
    match ps with
    | [h, g, x] => some (.request (.retire t ⟨h, g⟩ x))
    | _ => none
  | .defineKey =>
    match ps with
    | [k, a, d1, d0, l1, l0, h1, h0] => some (.request (.defineKey t k a (halfOf d1 d0) (halfOf l1 l0) (halfOf h1 h0)))
    | _ => none
  | .undefineKey =>
    match ps with
    | [k] => some (.request (.undefineKey t k))
    | _ => none
  | .describeKey =>
    match ps with
    | [k] => some (.request (.describeKey t k))
    | _ => none
  | .readEntry =>
    match ps with
    | [c, x, y, k] => some (.request (.readEntry t ⟨c, x, y⟩ k))
    | _ => none
  | .listEntries =>
    match ps with
    | [c, p, k] => some (.request (.listEntries t ⟨c, p, k⟩))
    | _ => none
  | .resolve =>
    match ps with
    | [h, g, k] => some (.request (.resolve t ⟨h, g⟩ k))
    | _ => none
  | .stageSet =>
    match ps with
    | [c, x, y, k, v1, v0] => some (.request (.stageSet t ⟨c, x, y⟩ k (halfOf v1 v0)))
    | _ => none
  | .stageClear =>
    match ps with
    | [c, x, y, k] => some (.request (.stageClear t ⟨c, x, y⟩ k))
    | _ => none
  | .stagePlace =>
    match ps with
    | [h, g, c, r, d] => some (.request (.stagePlace t ⟨h, g⟩ c r d))
    | _ => none
  | .stageUnplace =>
    match ps with
    | [h, g] => some (.request (.stageUnplace t ⟨h, g⟩))
    | _ => none
  | .stageGroups =>
    match ps with
    | h :: g :: n :: ns => if n.toNat ≤ 16 ∧ ns.length = n.toNat then some (.request (.stageGroups t ⟨h, g⟩ ns)) else none
    | _ => none
  | .discard =>
    match ps with
    | [k, c, x, y, n, h, g] => some (.request (.discard t ⟨k, ⟨c, x, y⟩, n, ⟨h, g⟩⟩))
    | _ => none
  | .stagingList =>
    match ps with
    | [c] => some (.request (.stagingList t c))
    | _ => none
  | .commit =>
    match ps with
    | [p] => some (.request (.commit t p))
    | _ => none
  | .abort =>
    match ps with
    | [] => some (.request (.abort t))
    | _ => none
  | .commitStatus =>
    match ps with
    | [] => some (.request (.commitStatus t))
    | _ => none
  | .setFrame =>
    match ps with
    | [p, e] => some (.request (.setFrame t p e))
    | _ => none
  | .boundaryNow =>
    match ps with
    | [] => some (.request (.boundaryNow t))
    | _ => none
  | .linkEnable =>
    match ps with
    | [l] => some (.request (.linkEnable t l))
    | _ => none
  | .linkDisable =>
    match ps with
    | [l] => some (.request (.linkDisable t l))
    | _ => none
  | .linkStatus =>
    match ps with
    | [l] => some (.request (.linkStatus t l))
    | _ => none
  | .setTiming =>
    match ps with
    | [l, a, b, c, d] => some (.request (.setTiming t l a b c d))
    | _ => none
  | .setDeadlines =>
    match ps with
    | [p1, p0, a1, a0, b1, b0] => some (.request (.setDeadlines t (halfOf p1 p0) (halfOf a1 a0) (halfOf b1 b0)))
    | _ => none
  | .rescan =>
    match ps with
    | [l] => some (.request (.rescan t l))
    | _ => none
  | .tileRead =>
    match ps with
    | [h, g, a] => some (.request (.tileRead t ⟨h, g⟩ a))
    | _ => none
  | .tileWrite =>
    match ps with
    | [h, g, a, v1, v0] => some (.request (.tileWrite t ⟨h, g⟩ a (halfOf v1 v0)))
    | _ => none
  | .attention =>
    match ps with
    | [] => some (.request (.attention t))
    | _ => none
  | .setAttnMask =>
    match ps with
    | [a, b, c] => some (.request (.setAttnMask t (a ++ b ++ c)))
    | _ => none
  | .identify =>
    match ps with
    | [] => some (.request (.identify t))
    | _ => none
  | .clear =>
    match ps with
    | [sc] => some (if sc = 0 then .request (.clearLinks t) else if sc = 1 then .request (.clearAll t) else .badClear t)
    | _ => none

/-- How the port finds a request frame before it looks at the tags (R175). -/
inductive FrameJudgement where
  | badFrame
  | unknownRequest
  | good (d : Decoded)
  deriving DecidableEq, Repr

/-- The port's checks of a frame between the port state and the tag's being FREE, in their order (R175). -/
def judgeFrame (bytes : List Byte) : FrameJudgement :=
  let covered := bytes.dropLast
  if bytes.length < 3 ∨ bytes.getLast? ≠ some (crc8 covered) then .badFrame
  else match covered with
    | k :: t :: ps =>
      match kindOf k with
      | none => .unknownRequest
      | some kind =>
        if t.toNat < 4 then
          match decodeParams kind t ps with
          | some d => .good d
          | none => .badFrame
        else .badFrame
    | _ => .badFrame

/-- The request a frame spells, if the port finds it good. -/
def decodeFrame (bytes : List Byte) : Option Instr :=
  match judgeFrame bytes with
  | .good (.request i) => some i
  | _ => none

end Sys2Proof
end

