-- ==== Sys2Proof/Machine/Operands.lean ====
section
/-! DEFINITION. The operand forms: what the parameter fields of a request stand for (R191). A field whose
encoding does not define its value reads as none, and the request then completes BAD_PARAMETER. -/

namespace Sys2Proof.Machine

/-- The reference two bytes name. -/
def refOf (f : RefField) : Ref := ⟨f.handle.toNat, f.gen.toNat⟩

/-- A flag byte: 00h clear, 01h set (R191). -/
def flagOf (b : Byte) : Option Bool := if b = 0 then some false else if b = 1 then some true else none

/-- A policy: 00h STRICT, 01h LENIENT (R67). -/
def policyOf (b : Byte) : Option Policy := if b = 0 then some .strict else if b = 1 then some .lenient else none

/-- A polarity: 00h RISING, 01h FALLING (R94). -/
def polarityOf (b : Byte) : Option Edge := if b = 0 then some .rising else if b = 1 then some .falling else none

/-- An enable: 00h ENABLED, 01h DISABLED (R94 names them in this order). -/
def enableOf (b : Byte) : Option Bool := if b = 0 then some true else if b = 1 then some false else none

/-- A link number 0..3. -/
def linkOf (b : Byte) : Option LinkId := if h : b.toNat < 4 then some ⟨b.toNat, h⟩ else none

/-- A scope field: 00h WALL with 0000h, 01h GROUP with a group number and 00h, 02h TILE with a reference (R191). -/
def scopeOf (f : ScopeField) : Option Scope :=
  if f.code = 0 then (if f.first = 0 ∧ f.second = 0 then some .wall else none)
  else if f.code = 1 then (if f.second = 0 then some (.group f.first.toNat) else none)
  else if f.code = 2 then some (.tile ⟨f.first.toNat, f.second.toNat⟩)
  else none

/-- A GROUP scope's group number is at most 15; other scopes carry none (R39, R50, R58). -/
def scopeGroupOk : Scope → Bool
  | .group g => decide (g ≤ 15)
  | _ => true

/-- The position of a scope in the listing order of R40. -/
def scopeRank : Scope → Nat
  | .wall => 0
  | .group g => 1 + g
  | .tile r => 16 + r.handle

/-- The position of a scope and key in the listing order of R40. -/
def placeRank (sc : Scope) (key : Nat) : Nat := 64 * scopeRank sc + key

/-- A LIST_ENTRIES cursor as a position in the listing order (R40). -/
def cursorRank (f : CursorField) : Option Nat :=
  if 63 < f.key.toNat then none
  else if f.code = 0 then (if f.place = 0 then some f.key.toNat else none)
  else if f.code = 1 then (if f.place.toNat ≤ 15 then some (64 * (1 + f.place.toNat) + f.key.toNat) else none)
  else if f.code = 2 then
    (if 1 ≤ f.place.toNat ∧ f.place.toNat ≤ Config.maxHandle then some (64 * (16 + f.place.toNat) + f.key.toNat) else none)
  else none

/-- The cursor of a position of the listing order (R40, R191). -/
def cursorBytes (rank : Nat) : List Byte :=
  let p := rank / 64
  if p = 0 then [0x00, 0x00, u8 (rank % 64)]
  else if p ≤ 16 then [0x01, u8 (p - 1), u8 (rank % 64)]
  else [0x02, u8 (p - 16), u8 (rank % 64)]

/-- The last position of the listing order: TILE handle 80, key 63 (R40). -/
def lastRank : Nat := 64 * (16 + Config.maxHandle) + 63

/-- The group set of the numbers given; a number given more than once counts once (R53). -/
def groupSetOf (ns : List Byte) : GroupSet := ns.foldl (fun g n => g ||| (1#16 <<< n.toNat)) 0

/-- The state filter of LIST: bit n for the n-th record state (R25, R191). -/
def filterHolds (f : Byte) (x : RecState) : Bool := f.getLsbD x.ctorIdx

/-- A selector of DISCARD (R58): ALL, or one target. -/
inductive Selector where
  | all
  | entry (scope : Scope) (key : Nat)
  | position (ref : Ref)
  | groupSet (ref : Ref)
  deriving DecidableEq, Repr

/-- A selector field: 00h ALL, 01h a scope and key, 02h a position, 03h a group set (R58, R191). -/
def selectorOf (f : SelectorField) : Option Selector :=
  if f.kind = 0 then some .all
  else if f.kind = 1 then (scopeOf f.scope).map (fun sc => .entry sc f.key.toNat)
  else if f.kind = 2 then some (.position (refOf f.ref))
  else if f.kind = 3 then some (.groupSet (refOf f.ref))
  else none

/-- An attention mask of 20 reasons; a bit that stands for no reason reads as none (R184). -/
def maskOf (m : BitVec 24) : Option Flags := if m.extractLsb' 20 4 = 0 then some (m.setWidth 20) else none

end Sys2Proof.Machine
end

