-- ==== Sys2Proof/Machine/Flags.lean ====
section
/-! DEFINITION. The attention set, the attention mask, the ATTN_N output and the status block
(sections 10.4 and 10.5). -/

namespace Sys2Proof.Machine

/-- The 20 attention reasons, in the order of the attention table. -/
inductive Reason where
  | resetDone | cleared | frameLost | frameRestored | stagingPruned
  | linkUp | scanDone | linkDown | noLock | unlistedFound
  | joined | rejoined | moved | active | lagging | stale | duplicate | lateApply | catchupFailed | retired
  deriving DecidableEq, Repr

/-- The flag of one reason: its bit of a flag set (R191). -/
def Reason.flag (r : Reason) : Flags := 1#20 <<< r.ctorIdx

/-- Raise a device reason (R181). -/
def AttnSet.raiseDevice (a : AttnSet) (r : Reason) : AttnSet := { a with device := a.device ||| r.flag }

/-- Raise a link reason (R181). -/
def AttnSet.raiseLink (a : AttnSet) (l : LinkId) (r : Reason) : AttnSet :=
  { a with links := a.links.modify l (fun f => f ||| r.flag) }

/-- Raise a handle reason (R181). -/
def AttnSet.raiseHandle (a : AttnSet) (h : Nat) (r : Reason) : AttnSet :=
  { a with handles := a.handles.modify (h - 1) (fun e => { e with flags := e.flags ||| r.flag }) }

/-- At retirement a handle's other flags are cleared and RETIRED is raised with the retired generation (R182). -/
def AttnSet.retireHandle (a : AttnSet) (h g : Nat) : AttnSet :=
  { a with handles := a.handles.modify (h - 1) (fun _ => ⟨Reason.retired.flag, some g⟩) }

/-- Attention pending: the set holds at least one flag (R180). -/
def AttnSet.pending (a : AttnSet) : Bool :=
  a.device ≠ 0 || fours.any (fun l => a.links.get l ≠ 0) || a.handles.any (fun e => e.flags ≠ 0)

/-- A raised flag of a reason the mask enables (R185). -/
def AttnSet.enabled (a : AttnSet) (mask : Flags) : Bool :=
  a.device &&& mask ≠ 0 || fours.any (fun l => a.links.get l &&& mask ≠ 0)
    || a.handles.any (fun e => e.flags &&& mask ≠ 0)

/-- Whether ATTN_N is asserted (R185): a completion waits, or an enabled reason is raised; released in device
reset and in the start-up interval. -/
def attnAsserted (s : State) : Bool :=
  s.phase = .operating && (s.port.completions ≠ [] || s.port.attn.enabled s.port.mask)

/-- A subject of the attention set, in the fixed order of R183. -/
inductive Subject where
  | device
  | link (l : LinkId)
  | handle (h : Nat)
  deriving DecidableEq, Repr

/-- The flags raised for a subject. -/
def AttnSet.flagsOf (a : AttnSet) : Subject → Flags
  | .device => a.device
  | .link l => a.links.get l
  | .handle h => (a.handles.getD (h - 1) ⟨0, none⟩).flags

/-- Clear every flag of a subject. -/
def AttnSet.clearSubject (a : AttnSet) : Subject → AttnSet
  | .device => { a with device := 0 }
  | .link l => { a with links := a.links.put l 0 }
  | .handle h => { a with handles := a.handles.set (h - 1) ⟨0, none⟩ }

/-- Every subject: the device, TL0 to TL3, handles 1 to 80 (R183). -/
def subjects : List Subject := .device :: (fours.map .link ++ (List.range' 1 Config.maxHandle).map .handle)

/-- The subjects that hold at least one raised flag, in the fixed order. -/
def AttnSet.raised (a : AttnSet) : List Subject := subjects.filter (fun x => a.flagsOf x ≠ 0)

/-- The reach of the free tags: bit n for tag n (R192). -/
def freeTags (p : HostPort) : Nat :=
  (if p.tags.get 0 = .free then 1 else 0) + (if p.tags.get 1 = .free then 2 else 0)
    + (if p.tags.get 2 = .free then 4 else 0) + (if p.tags.get 3 = .free then 8 else 0)

/-- The status block (R180, R192): 7 bytes, the last one the CRC-8 of the others. -/
def statusBlock (s : State) : List Byte :=
  let b0 := (if s.port.state = .resetting then 128 else 0) + (if s.port.attn.pending then 64 else 0)
    + (if s.boundary.present then 32 else 0) + freeTags s.port
  let b1 := 16 * s.port.completions.length + s.port.lastAccept.ctorIdx
  let b5 := (s.links.get 0).state.ctorIdx + 4 * (s.links.get 1).state.ctorIdx
    + 16 * (s.links.get 2).state.ctorIdx + 64 * (s.links.get 3).state.ctorIdx
  let covered := [u8 b0, u8 b1, s.commit.state.code] ++ halfBytes s.commit.epoch ++ [u8 b5]
  covered ++ [crc8 covered]

end Sys2Proof.Machine
end

