-- ==== Sys2Proof/Machine/Ops.lean ====
section
/-! DEFINITION. The shared operations: updates of one block, completions and tags, attention, records, hop-map
entries, hop-scan causes, and the removal of queued transactions. -/

namespace Sys2Proof.Machine

/-! ### Updates of one block -/

def modPort (f : HostPort → HostPort) (s : State) : State := { s with port := f s.port }
def modDir (f : Directory → Directory) (s : State) : State := { s with dir := f s.dir }
def modCommit (f : CommitCtl → CommitCtl) (s : State) : State := { s with commit := f s.commit }
def modBoundary (f : BoundaryUnit → BoundaryUnit) (s : State) : State := { s with boundary := f s.boundary }
def modLink (l : LinkId) (f : LinkEngine → LinkEngine) (s : State) : State := { s with links := s.links.modify l f }
def modJobs (l : LinkId) (f : List Job → List Job) (s : State) : State := { s with jobs := s.jobs.modify l f }
def setKeys (ks : List KeyRec) (s : State) : State := { s with keys := ks }
def setStore (es : List Entry) (s : State) : State := { s with store := es }
def setStaging (cs : List Change) (s : State) : State := { s with staging := cs }

/-- Change every link engine. -/
def modLinks (f : LinkEngine → LinkEngine) (s : State) : State := { s with links := s.links.map f }

/-- The clock moves on to a moment, if it is not there yet (log 2). -/
def advanceTo (t : Nat) (s : State) : State := { s with now := max s.now t }

/-- Do something for each of a list of things, in order. -/
def forEach {α : Type} (xs : List α) (f : α → State → State) (s : State) : State := xs.foldl (fun s x => f x s) s

/-! ### Sorted lists -/

/-- Insert a number into an ascending list. -/
def insertNat (n : Nat) : List Nat → List Nat
  | [] => [n]
  | x :: xs => if n ≤ x then n :: x :: xs else x :: insertNat n xs

/-- A list of numbers in ascending order. -/
def sortNat (ns : List Nat) : List Nat := ns.foldr insertNat []

/-- Insert a completion into a list in ascending tag order. -/
def insertByTag (c : Completion) : List Completion → List Completion
  | [] => [c]
  | x :: xs => if c.tag.val ≤ x.tag.val then c :: x :: xs else x :: insertByTag c xs

/-- Completions in ascending tag order. -/
def sortByTag (cs : List Completion) : List Completion := cs.foldr insertByTag []

/-! ### Completions and tags (R176, R178) -/

/-- Make a completion: it joins the tail of the completion list and its tag goes to DONE. -/
def complete (tag : Tag) (kind : ReqKind) (st : Status) (qual : Byte) (res : List Byte) : State → State :=
  modPort (fun p => { p with completions := p.completions ++ [⟨tag, kind, st, qual, res⟩], tags := p.tags.put tag .done })

/-- The completions made since the list had n of them stand in ascending tag order (R178). -/
def orderCompletions (n : Nat) : State → State :=
  modPort (fun p => { p with completions := p.completions.take n ++ sortByTag (p.completions.drop n) })

/-- A long request takes its tag (R177). -/
def holdTag (tag : Tag) (r : Running) : State → State := modPort (fun p => { p with tags := p.tags.put tag (.running r) })

/-- The request kind of a running request. -/
def Running.kind : Running → ReqKind
  | .commit => .commit
  | .boundaryNow => .boundaryNow
  | .rescan _ => .rescan
  | .tileRead _ _ => .tileRead
  | .tileWrite _ _ _ => .tileWrite
  | .clear => .clear

/-- The fields every completion of a TILE_READ or TILE_WRITE repeats (R169). -/
def Running.fields : Running → List Byte
  | .tileRead r a => refBytes r ++ [a]
  | .tileWrite r a v => refBytes r ++ [a] ++ halfBytes v
  | _ => []

/-- End a running request with a status and the fields it repeats, without a record mark: NOT_REACHABLE (R170, R172, R188). A
tag that runs nothing is left alone. -/
def endRunning (st : Status) (tag : Tag) (s : State) : State :=
  match s.port.tags.get tag with
  | .running r => complete tag r.kind st 0 r.fields s
  | _ => s

/-! ### Attention (R181) -/

def raiseDevice (r : Reason) : State → State := modPort (fun p => { p with attn := p.attn.raiseDevice r })
def raiseLink (l : LinkId) (r : Reason) : State → State := modPort (fun p => { p with attn := p.attn.raiseLink l r })
def raiseHandle (h : Nat) (r : Reason) : State → State := modPort (fun p => { p with attn := p.attn.raiseHandle h r })

/-! ### Records (R1, R2) -/

/-- Said of a record in state JOINING, ACTIVE or LAGGING. -/
def Record.reachable (r : Record) : Bool := r.state ≠ .stale

/-- The record that holds a handle. -/
def findRec (s : State) (h : Nat) : Option Record := s.dir.records.find? (fun r => r.ref.handle == h)

/-- The record a handle reference names. -/
def findRef (s : State) (ref : Ref) : Option Record := s.dir.records.find? (fun r => r.ref == ref)

/-- The record that holds a unique ID (R4). -/
def findUid (s : State) (u : Uid) : Option Record := s.dir.records.find? (fun r => r.uid == u)

/-- The current generation of a handle (R1). -/
def genOf (s : State) (h : Nat) : Nat := s.dir.gens.getD (h - 1) 0

/-- The result of the check of a handle reference (R2). -/
inductive RefCheck where
  | noSuchHandle
  | staleHandle
  | names (r : Record)
  deriving DecidableEq, Repr

/-- The check of a handle reference (R2). -/
def checkRef (s : State) (ref : Ref) : RefCheck :=
  match findRec s ref.handle with
  | none => .noSuchHandle
  | some r => if r.ref.gen = ref.gen then .names r else .staleHandle

/-- The status of a failing reference check, if it fails (R2). -/
def RefCheck.failure : RefCheck → Option Status
  | .noSuchHandle => some .noSuchHandle
  | .staleHandle => some .staleHandle
  | .names _ => none

/-- Change the record that holds a handle. -/
def updRec (h : Nat) (f : Record → Record) : State → State :=
  modDir (fun d => { d with records := d.records.map (fun r => if r.ref.handle = h then f r else r) })

/-- Insert a record in ascending handle order. -/
def insertRec (r : Record) : List Record → List Record
  | [] => [r]
  | x :: xs => if r.ref.handle < x.ref.handle then r :: x :: xs else x :: insertRec r xs

/-- The record holding a committed cell (R7). -/
def cellHolder (s : State) (c : Cell) : Option Record := s.dir.records.find? (fun r => r.pos == some c)

/-- The answers of the unique-ID index to a scanner at a location (R4). -/
inductive IndexAnswer where
  | unknown
  | record (r : Record)
  | markedElsewhere
  deriving DecidableEq, Repr

/-- Ask the unique-ID index about an ID (R4): a mark at another location answers first. -/
def askIndex (s : State) (u : Uid) (loc : Loc) : IndexAnswer :=
  if s.dir.marks.any (fun m => m.uid == u && m.loc != loc) then .markedElsewhere
  else match findUid s u with
    | some r => .record r
    | none => .unknown

/-- Remove the marks of a location (R4). -/
def removeMark (loc : Loc) : State → State := modDir (fun d => { d with marks := d.marks.filter (fun m => m.loc != loc) })

/-- A record's grace time has reached a grace period of n seconds (R14); 0 means that no record expires. The model compares
moments of its clock exactly, in units of 10 us; how the hub rounds at its resolution of 1 ms is left open (log 39). -/
def graceReached (now grace : Nat) (r : Record) : Bool :=
  match r.stale with
  | some i => decide (grace ≠ 0 ∧ i.since + grace * Config.ticksPerSecond ≤ now)
  | none => false

/-! ### The hop map and the causes of hop scans (R128 to R142) -/

/-- The entry of a hop. -/
def LinkEngine.entry (e : LinkEngine) (hop : Nat) : HopEntry := e.hops.getD hop .empty

/-- Set the entry of a hop. -/
def LinkEngine.setEntry (e : LinkEngine) (hop : Nat) (x : HopEntry) : LinkEngine := { e with hops := e.hops.set hop x }

/-- Two UNLISTED reasons are the same, whatever ID they carry (R129). -/
def sameReason (a b : Unlisted) : Bool := a.ctorIdx == b.ctorIdx

/-- Set the entry of a hop. -/
def setHop (l : LinkId) (hop : Nat) (x : HopEntry) : State → State := modLink l (fun e => e.setEntry hop x)

/-- A hop becomes UNLISTED with a reason; UNLISTED_FOUND is raised unless it was so with the same reason (R129). -/
def setUnlisted (l : LinkId) (hop : Nat) (why : Unlisted) (s : State) : State :=
  let same := match (s.links.get l).entry hop with
    | .unlisted w => sameReason w why
    | _ => false
  let s := setHop l hop (.unlisted why) s
  if same then s else raiseLink l .unlistedFound s

/-- The ENUM_QUERY of a scan step. -/
def enumTxn (full : Bool) (hop : Nat) : Txn := { dest := .directed hop, body := .enumQuery, cls := .scan, req := .scanStep full }

/-- An ASSIGN of handle 0, of a forced retire (R19, R21): its outcome is ignored. -/
def clearTxn (hop : Nat) : Txn := { dest := .directed hop, body := .assign ⟨0, 0⟩, cls := .scan, req := .engine }

/-- A roll call of a class. -/
def rollTxn (cls : TxnClass) (req : Requester) : Txn := { dest := .rollCall, body := .rollCall, cls := cls, req := req }

/-- A hop that already has a hop scan waiting, or its ENUM_QUERY on the wire, or an assignment in progress (R140). -/
def LinkEngine.hopBusy (e : LinkEngine) (hop : Nat) : Bool :=
  e.scanQ.any (fun t => t.body == .enumQuery && t.dest == .directed hop)
    || (match e.flight with
        | some f => f.txn.body == .enumQuery && f.txn.dest == .directed hop
        | none => false)
    || (match e.assigning with
        | some a => a.hop == hop
        | none => false)

/-- A cause of a hop scan (R140): kept until the end of the event, when the hop scans are queued (log 6). -/
def LinkEngine.cause (e : LinkEngine) (hop : Nat) : LinkEngine :=
  if e.hopBusy hop || e.caused.contains hop then e else { e with caused := e.caused ++ [hop] }

/-- Cause hop scans for the hops whose entry satisfies a test, on a RUNNING link; on a SCANNING link set the
follow-up mark (R134, R139, R142). -/
def LinkEngine.notice (test : HopEntry → Bool) (e : LinkEngine) : LinkEngine :=
  match e.state with
  | .running => ((List.range Config.hopCount).filter (fun h => test (e.entry h))).foldl LinkEngine.cause e
  | .scanning => { e with followUp := true }
  | _ => e

/-- A hop UNLISTED(DIRECTORY_FULL). -/
def isDirectoryFull (x : HopEntry) : Bool := x == .unlisted .directoryFull

/-- A hop UNLISTED(DUPLICATE_ID) with an ID. -/
def isDuplicateOf (u : Uid) (x : HopEntry) : Bool := x == .unlisted (.duplicateId u)

/-- The notice that a handle has become available, to all four link engines (R6, R142). -/
def noticeHandle : State → State := modLinks (LinkEngine.notice isDirectoryFull)

/-- The notice that an ID is released, to all four link engines (R134). -/
def noticeId (u : Uid) : State → State := modLinks (LinkEngine.notice (isDuplicateOf u))

/-- The hops whose hop scans an event has caused, in ascending order, but those that the same event has given an assignment, or
that have a hop scan under way for another reason (R130, R140; log 6). -/
def LinkEngine.scansCaused (e : LinkEngine) : List Nat := (sortNat e.caused).filter (fun hop => !e.hopBusy hop)

/-- At the end of an event its hop scans join the tail of the scan class in ascending hop order (R140). -/
def LinkEngine.queueCaused (e : LinkEngine) : LinkEngine :=
  { e with scanQ := e.scanQ ++ e.scansCaused.map (enumTxn false), caused := [] }

/-- Queue the hop scans caused in this event on every link. -/
def queueHopScans : State → State := modLinks LinkEngine.queueCaused

/-- Queue a forced roll call unless one is waiting (R116, R141, R146). -/
def LinkEngine.forceRollCall (e : LinkEngine) : LinkEngine :=
  if e.scanQ.any (fun t => t.body == .rollCall) then e else { e with scanQ := e.scanQ ++ [rollTxn .scan .engine] }

/-! ### Transactions whose purpose has gone (R75, R118) -/

/-- A transaction in flight of a requester runs to its end with no requester to hear of it. -/
def LinkEngine.dropFlight (test : Txn → Bool) (e : LinkEngine) : LinkEngine :=
  match e.flight with
  | some f => if test f.txn then { e with flight := some { f with txn := { f.txn with req := .gone } } } else e
  | none => e

/-- A handle freed without a record having come of it returns to the head of the free-handle list (R5). -/
def returnHandle (h : Nat) : State → State := modDir (fun d => { d with freeList := h :: d.freeList })

/-- An assignment in progress is abandoned or fails (R5, R133): the held handle of a new tile returns to the head
of the free-handle list with the notice of R6, the mark is removed and the ID is released (R134). -/
def dropAssignment (l : LinkId) (a : Assignment) (s : State) : State :=
  let s := modLink l (fun e => { e with assigning := none }) (removeMark ⟨l, a.hop⟩ s)
  let s := match a.kind with
    | .assigningNew => noticeHandle (returnHandle a.ref.handle s)
    | .assigningRebind => s
  noticeId a.info.uid s

end Sys2Proof.Machine
end

