-- ==== Sys2Proof/Machine/View.lean ====
section
/-! DEFINITION. The Setting Store, the staged changes, resolution, the post-view of a commit and its changed pairs
(chapters 2 and 3, R38, R41 to R45, R68, R69). -/

namespace Sys2Proof.Machine

/-! ### Keys and entries -/

/-- The record of a key number (R29). -/
def findKey (s : State) (n : Nat) : Option KeyRec := s.keys.find? (fun k => k.number == n)

/-- Insert a key record in ascending key number. -/
def insertKey (k : KeyRec) : List KeyRec → List KeyRec
  | [] => [k]
  | x :: xs => if k.number < x.number then k :: x :: xs else x :: insertKey k xs

/-- Two scopes are equal; two TILE scopes when they name the same handle (R48). -/
def sameScope : Scope → Scope → Bool
  | .wall, .wall => true
  | .group a, .group b => a == b
  | .tile a, .tile b => a.handle == b.handle
  | _, _ => false

/-- An entry stands at a scope and key. -/
def Entry.isAt (e : Entry) (sc : Scope) (key : Nat) : Bool := sameScope e.scope sc && e.key == key

/-- The entry for a scope and key (R35). -/
def findEntry (es : List Entry) (sc : Scope) (key : Nat) : Option Entry := es.find? (fun e => e.isAt sc key)

/-- The position of an entry in the listing order (R40). -/
def Entry.rank (e : Entry) : Nat := placeRank e.scope e.key

/-- Put an entry into the store, in listing order, in place of the one at its scope and key (R37). -/
def putEntry (n : Entry) : List Entry → List Entry
  | [] => [n]
  | e :: es =>
      if e.isAt n.scope n.key then n :: es
      else if n.rank < e.rank then n :: e :: es else e :: putEntry n es

/-- Remove the entry at a scope and key (R37). -/
def dropEntry (sc : Scope) (key : Nat) (es : List Entry) : List Entry := es.filter (fun e => !e.isAt sc key)

/-- An entry of TILE scope names a handle (R17). -/
def Entry.namesHandle (e : Entry) (h : Nat) : Bool := sameScope e.scope (.tile ⟨h, 0⟩)

/-! ### Staged changes (R48, R49) -/

/-- What a change acts on. -/
def Change.target : Change → Target
  | .setVal sc k _ => .entry sc k
  | .clearVal sc k => .entry sc k
  | .place r _ _ => .position r.handle
  | .unplace r => .position r.handle
  | .groups r _ => .groupSet r.handle

/-- Two targets are the same (R48). -/
def sameTarget : Target → Target → Bool
  | .entry a k, .entry b j => sameScope a b && k == j
  | .position a, .position b => a == b
  | .groupSet a, .groupSet b => a == b
  | _, _ => false

/-- A change names a handle (R17, R60). -/
def Change.namesHandle (h : Nat) : Change → Bool
  | .setVal sc _ _ => sameScope sc (.tile ⟨h, 0⟩)
  | .clearVal sc _ => sameScope sc (.tile ⟨h, 0⟩)
  | .place r _ _ => r.handle == h
  | .unplace r => r.handle == h
  | .groups r _ => r.handle == h

/-- A change of kind SET or CLEAR names a key (R32, R34). -/
def Change.namesKey (n : Nat) : Change → Bool
  | .setVal _ k _ => k == n
  | .clearVal _ k => k == n
  | _ => false

/-- The index of the staged change with a target. -/
def targetIndex (cs : List Change) (t : Target) : Option Nat := cs.findIdx? (fun c => sameTarget c.target t)

/-! ### Views (R41, R44) -/

/-- The committed view (R44). -/
def committedView (s : State) : View :=
  { entries := s.store, recs := s.dir.records.map (fun r => ⟨r.ref, r.groups, r.pos⟩) }

/-- The source of an effective value (R41). -/
inductive Source where
  | tile
  | group (number : Nat)
  | wall
  | dflt
  deriving DecidableEq, Repr

/-- A source in 2 bytes (R191). -/
def Source.bytes : Source → List Byte
  | .tile => [0x00, 0x00]
  | .group g => [0x01, u8 g]
  | .wall => [0x02, 0x00]
  | .dflt => [0x03, 0x00]

/-- The entry of the lowest-numbered group of a set that holds one for the key (R41, step 2). -/
def groupEntry (es : List Entry) (groups : GroupSet) (key : Nat) : Option (Nat × Half) :=
  (List.range 16).findSome? (fun g =>
    if groups.getLsbD g then (findEntry es (.group g) key).map (fun e => (g, e.value)) else none)

/-- The effective value of a key for a record in a view, and its source (R41). -/
def effective (v : View) (r : ViewRec) (k : KeyRec) : Half × Source :=
  match v.entries.find? (fun e => e.scope == .tile r.ref && e.key == k.number) with
  | some e => (e.value, .tile)
  | none =>
    match groupEntry v.entries r.groups k.number with
    | some (g, x) => (x, .group g)
    | none =>
      match findEntry v.entries .wall k.number with
      | some e => (e.value, .wall)
      | none => (k.dflt, .dflt)

/-- The value of the position parameter at 240: the column, or 65535 (R42). -/
def columnValue : Option Cell → Half
  | some c => BitVec.ofNat 16 c.col
  | none => 0xFFFF

/-- The value of the position parameter at 241: the row, or 65535 (R42). -/
def rowValue : Option Cell → Half
  | some c => BitVec.ofNat 16 c.row
  | none => 0xFFFF

/-- The parameter addresses of the position (R28). -/
def columnAddr : Byte := 240
def rowAddr : Byte := 241

/-! ### The post-view of a commit (R37, R68) -/

/-- What a staged SET or CLEAR does to the store (R37). -/
def applyEntryChange (es : List Entry) : Change → List Entry
  | .setVal sc k v => putEntry ⟨sc, k, v⟩ es
  | .clearVal sc k => dropEntry sc k es
  | _ => es

/-- The store with every staged change applied (R37). -/
def storeAfter (es : List Entry) (cs : List Change) : List Entry := cs.foldl applyEntryChange es

/-- The size of the store in the post-view (R38). -/
def postSize (es : List Entry) (cs : List Change) : Nat :=
  es.length + (cs.filter (fun c => match c with
      | .setVal sc k _ => (findEntry es sc k).isNone
      | _ => false)).length
    - (cs.filter (fun c => match c with
      | .clearVal sc k => (findEntry es sc k).isSome
      | _ => false)).length

/-- The position a staged change gives a handle: none when no change does. -/
def stagedPosition (cs : List Change) (h : Nat) : Option (Option Cell) :=
  cs.findSome? (fun c => match c with
    | .place r cell _ => if r.handle = h then some (some cell) else none
    | .unplace r => if r.handle = h then some none else none
    | _ => none)

/-- The group set a staged change gives a handle. -/
def stagedGroups (cs : List Change) (h : Nat) : Option GroupSet :=
  cs.findSome? (fun c => match c with
    | .groups r g => if r.handle = h then some g else none
    | _ => none)

/-- How a staged PLACE meets the other records that hold its cell in the post-view (R68). -/
inductive PlaceCheck where
  | stands
  | displaces (occupant : Ref)
  | collides (occupant : Ref)
  deriving DecidableEq, Repr

/-- Another staged PLACE that names the cell. -/
def otherPlace (cs : List Change) (ref : Ref) (cell : Cell) : Option Ref :=
  cs.findSome? (fun c => match c with
    | .place r c' _ => if r.handle ≠ ref.handle ∧ c' = cell then some r else none
    | _ => none)

/-- The check of one staged PLACE (R68). -/
def checkPlace (records : List Record) (cs : List Change) (ref : Ref) (cell : Cell) (displace : Bool) : PlaceCheck :=
  match otherPlace cs ref cell with
  | some r => .collides r
  | none =>
    match records.find? (fun r => r.pos == some cell && r.ref.handle != ref.handle
        && (stagedPosition cs r.ref.handle).isNone) with
    | some r => if r.state = .stale ∧ displace then .displaces r.ref else .collides r.ref
    | none => .stands

/-- What the check of every staged PLACE in staging order gives: the displaced set, or the first collision with
the PLACE's record, the cell and the occupant (R68). -/
inductive Placement where
  | ok (displaced : List Ref)
  | occupied (ref : Ref) (cell : Cell) (occupant : Ref)
  deriving DecidableEq, Repr

/-- The check of staged PLACEs, given those already displaced (R68). -/
def checkPlacesFrom (records : List Record) (cs : List Change) (displaced : List Ref) : List Change → Placement
  | [] => .ok displaced
  | .place ref cell d :: rest =>
      match checkPlace records cs ref cell d with
      | .stands => checkPlacesFrom records cs displaced rest
      | .displaces o => checkPlacesFrom records cs (displaced ++ [o]) rest
      | .collides o => .occupied ref cell o
  | _ :: rest => checkPlacesFrom records cs displaced rest

/-- The check of every staged PLACE (R68). -/
def checkPlaces (records : List Record) (cs : List Change) : Placement := checkPlacesFrom records cs [] cs

/-- The position of a record after every staged change and the displacements (R68, R77). -/
def positionAfter (cs : List Change) (displaced : List Ref) (r : Record) : Option Cell :=
  match stagedPosition cs r.ref.handle with
  | some p => p
  | none => if displaced.contains r.ref then none else r.pos

/-- The group set of a record after every staged change (R41, R77). -/
def groupsAfter (cs : List Change) (r : Record) : GroupSet := (stagedGroups cs r.ref.handle).getD r.groups

/-- The post-view: the committed view with every staged change applied and the displaced set unplaced (R68, R69). -/
def postView (s : State) (displaced : List Ref) : View :=
  { entries := storeAfter s.store s.staging
    recs := s.dir.records.map (fun r => ⟨r.ref, groupsAfter s.staging r, positionAfter s.staging displaced r⟩) }

/-! ### Changed pairs and change lists (R45, R69, R152) -/

/-- A record's part of a view, or an unplaced record of no group. -/
def View.part (v : View) (ref : Ref) : ViewRec := (v.recs.find? (fun r => r.ref == ref)).getD ⟨ref, 0, none⟩

/-- The key pair of one key between two views, if it is changed (R45). -/
def changedKeyPair (v w : View) (ref : Ref) (k : KeyRec) : Option Pair :=
  let new := (effective w (w.part ref) k).1
  if k.introduced ∨ (effective v (v.part ref) k).1 ≠ new then some ⟨k.addr, new⟩ else none

/-- The changed pairs of a record between two views, in the order of R69. -/
def changedPairs (keys : List KeyRec) (v w : View) (ref : Ref) : List Pair :=
  let p := (v.part ref).pos
  let q := (w.part ref).pos
  keys.filterMap (changedKeyPair v w ref)
    ++ (if columnValue p ≠ columnValue q then [⟨columnAddr, columnValue q⟩] else [])
    ++ (if rowValue p ≠ rowValue q then [⟨rowAddr, rowValue q⟩] else [])

/-- The change list of a catch-up job of a record in a view (R152). -/
def changeList (keys : List KeyRec) (v : View) (ref : Ref) : List Pair :=
  let r := v.part ref
  ⟨columnAddr, columnValue r.pos⟩ :: ⟨rowAddr, rowValue r.pos⟩
    :: (keys.filter (fun k => !k.introduced)).map (fun k => ⟨k.addr, (effective v r k).1⟩)

/-- The number of packets that carry n pairs (R71, R153). -/
def packetCount (n : Nat) : Nat := (n + (Config.pairsPerPacket - 1)) / Config.pairsPerPacket

/-- The pairs of packet i, counted from 0 (R71, R153). -/
def packetPairs (ps : List Pair) (i : Nat) : List Pair :=
  (ps.drop (Config.pairsPerPacket * i)).take Config.pairsPerPacket

/-- The PREPARE that carries packet i of a list of pairs under an epoch (R71, R153). -/
def preparePacket (epoch : Half) (ps : List Pair) (i : Nat) : Body :=
  .prepare epoch (i == 0) (i + 1 == packetCount ps.length) (packetPairs ps i)

end Sys2Proof.Machine
end

