-- ==== Sys2Proof/Machine/Jobs.lean ====
section
/-! DEFINITION. Catch-up jobs: their making, change lists and rounds, the preparing turn, restarts and removal
(chapter 8). -/

namespace Sys2Proof.Machine

/-- Every job, link by link in queue order. -/
def allJobs (s : State) : List Job := fours.flatMap (fun l => s.jobs.get l)

/-- The job of a record, if it has one (R149). -/
def findJob (s : State) (ref : Ref) : Option Job := (allJobs s).find? (fun j => j.ref == ref)

/-- The pending capacity a job's rounds are sized by (R153). -/
def capacityOf (s : State) (ref : Ref) : Nat :=
  match findRef s ref with
  | some r => max 1 r.capacity
  | none => 1

/-- The number of rounds that n pairs need at a capacity (R153). -/
def roundsFor (n capacity : Nat) : Nat := (n + (capacity - 1)) / capacity

/-- The pairs of a job's present round (R153). -/
def Job.roundPairs (s : State) (j : Job) : List Pair :=
  let c := capacityOf s j.ref
  (j.list.drop ((j.round - 1) * c)).take c

/-- Begin round 1 of a job: its change list is computed from the committed view as it stands (R152). -/
def Job.begin (s : State) (j : Job) : Job :=
  let ps := changeList s.keys (committedView s) j.ref
  { j with list := ps, round := 1, roundCount := roundsFor ps.length (capacityOf s j.ref), phase := .preparing, acked := 0,
           reprepare := false }

/-- A new job of a record (R150). -/
def newJob (s : State) (r : Record) : Job :=
  Job.begin s { ref := r.ref, link := r.loc.link, list := [], round := 1, roundCount := 1, phase := .preparing, acked := 0,
                turn := false, restarts := 0, reprepare := false }

/-- Give a record to the catch-up unit (R150): it makes a job, unless the record has one. -/
def makeJob (h : Nat) (s : State) : State :=
  match findRec s h with
  | some r =>
      if (r.state = .joining ∨ r.state = .lagging) ∧ (findJob s r.ref).isNone
      then modJobs r.loc.link (fun js => js ++ [newJob s r]) s else s
  | none => s

/-- A transaction of the catch-up job of a record, suspended or not. -/
def Txn.isJobOf (ref : Ref) (t : Txn) : Bool := t.req == .job ref || t.req == .suspendedJob ref

/-- The transactions of a job: those queued are removed from the catch-up class, and the result of one in flight is
discarded (R158, R159, R162). -/
def LinkEngine.dropJobTxns (ref : Ref) (e : LinkEngine) : LinkEngine :=
  LinkEngine.dropFlight (Txn.isJobOf ref) { e with catchQ := e.catchQ.filter (fun t => !t.isJobOf ref) }

/-- Remove the job of a record with its transactions (R159). -/
def removeJob (ref : Ref) (s : State) : State :=
  let s := forEach fours (fun l => modJobs l (fun js => js.filter (fun j => j.ref != ref))) s
  modLinks (LinkEngine.dropJobTxns ref) s

/-- Change the job of a record in its place in its queue. -/
def updJob (l : LinkId) (ref : Ref) (f : Job → Job) : State → State :=
  modJobs l (fun js => js.map (fun j => if j.ref = ref then f j else j))

/-- A job moves to the tail of its queue, changed (R151). -/
def jobToTail (l : LinkId) (ref : Ref) (f : Job → Job) : State → State :=
  modJobs l (fun js => js.filter (fun j => j.ref != ref) ++ (js.filter (fun j => j.ref == ref)).map f)

/-- Every job restarts in place, after an apply or UNDEFINE_KEY (R33, R162): round 1, its list computed anew, its
transactions dropped, the turn free. -/
def restartAllJobs (s : State) : State :=
  let s' := { s with jobs := s.jobs.map (fun js => js.map (fun j => { Job.begin s j with turn := false })) }
  forEach (allJobs s) (fun j => modLinks (LinkEngine.dropJobTxns j.ref)) s'

/-- The catch-up transaction that carries a PREPARE of a job. -/
def jobPrepareTxn (s : State) (hop : Nat) (j : Job) : Txn :=
  { dest := .directed hop, body := preparePacket s.commit.epoch (j.roundPairs s) j.acked, cls := .catchUp, req := .job j.ref }

/-- The catch-up transaction that carries the directed APPLY of a job (R156). -/
def jobApplyTxn (s : State) (hop : Nat) (ref : Ref) : Txn :=
  { dest := .directed hop, body := .apply s.commit.epoch, cls := .catchUp, req := .job ref }

/-- Queue a transaction at the tail of the catch-up class. -/
def queueCatchUp (l : LinkId) (t : Txn) : State → State := modLink l (fun e => { e with catchQ := e.catchQ ++ [t] })

/-- The hop of a record. -/
def hopOf (s : State) (ref : Ref) : Nat :=
  match findRef s ref with
  | some r => r.loc.hop
  | none => 0

/-- Queue the first PREPARE of a job's round that is not yet acknowledged (R154, R155). -/
def queueNextPacket (l : LinkId) (j : Job) (s : State) : State := queueCatchUp l (jobPrepareTxn s (hopOf s j.ref) j) s

/-- A job has a transaction waiting or in flight. -/
def LinkEngine.hasJobTxn (e : LinkEngine) (ref : Ref) : Bool :=
  e.catchQ.any (Txn.isJobOf ref)
    || (match e.flight with
        | some f => f.txn.isJobOf ref
        | none => false)

/-- At COMMIT acceptance a catch-up transaction on the wire is suspended: its result will be discarded (R161). -/
def LinkEngine.suspendFlight (e : LinkEngine) : LinkEngine :=
  match e.flight with
  | some f =>
      match f.txn.req with
      | .job ref => { e with flight := some { f with txn := { f.txn with req := .suspendedJob ref } } }
      | _ => e
  | none => e

/-- Give the turn to the first job in queue order whose phase is PREPARING, when no job holds it (R154). -/
def passTurn (js : List Job) : List Job :=
  if js.any (fun j => j.turn) then js
  else match js.find? (fun j => j.phase == .preparing) with
    | some j => js.map (fun i => if i.ref = j.ref then { i with turn := true } else i)
    | none => js

/-- A job marked for re-preparation prepares its round again from its first packet (R162); for round 1 the list is
computed anew (R152). -/
def Job.prepared (s : State) (j : Job) : Job :=
  if j.reprepare then
    (if j.round = 1 then { Job.begin s j with turn := j.turn } else { j with acked := 0, reprepare := false })
  else j

/-- Settle the preparing turn of a link (R154): while the controller is IDLE and the link is RUNNING, the turn is
given, and the job that holds it has one PREPARE packet in the catch-up class. -/
def settleTurn (l : LinkId) (s : State) : State :=
  if s.commit.state = .idle ∧ (s.links.get l).state = .running then
    let s := modJobs l passTurn s
    match (s.jobs.get l).find? (fun j => j.turn) with
    | some j =>
        if j.phase = .preparing ∧ !(s.links.get l).hasJobTxn j.ref then
          let j' := j.prepared s
          queueNextPacket l j' (updJob l j.ref (fun _ => j') s)
        else s
    | none => s
  else s

/-- Settle the preparing turn of every link. -/
def settleTurns (s : State) : State := forEach fours settleTurn s

/-- A boundary event reaches the jobs in AWAITING_BOUNDARY of every RUNNING link (R156): each queues its directed
APPLY in queue order and goes to APPLYING. -/
def jobsTakeBoundary (s : State) : State :=
  forEach fours (fun l s =>
    if (s.links.get l).state = .running then
      let waiting := (s.jobs.get l).filter (fun j => j.phase == .awaitingBoundary)
      let s := forEach waiting (fun j s => queueCatchUp l (jobApplyTxn s (hopOf s j.ref) j.ref) s) s
      modJobs l (fun js => js.map (fun j => if j.phase = .awaitingBoundary then { j with phase := .applying } else j)) s
    else s) s

end Sys2Proof.Machine
end

