-- ==== Sys2Proof/Machine/Claims.lean ====
section
/-! DEFINITION. The claims that change a record's state, retirement and eviction (chapter 1). What a claim to STALE
means for a running commit stands in Machine/Phases.lean. -/

namespace Sys2Proof.Machine

/-- The record a running request names (R168). -/
def Running.ref? : Running → Option Ref
  | .tileRead r _ => some r
  | .tileWrite r _ _ => some r
  | _ => none

/-- The tag a host transaction was queued for, when its request names a record. -/
def hostTagFor (s : State) (ref : Ref) (t : Txn) : Option Tag :=
  match t.req with
  | .tag n =>
      match s.port.tags.get n with
      | .running r => if r.ref? = some ref then some n else none
      | _ => none
  | _ => none

/-- Every host transaction of a record that waits on its link completes NOT_REACHABLE and is removed (R9, R170). -/
def dropHostWaiting (l : LinkId) (ref : Ref) (s : State) : State :=
  let tags := (s.links.get l).hostQ.filterMap (hostTagFor s ref)
  let s' := modLink l (fun e => { e with hostQ := e.hostQ.filter (fun t => (hostTagFor s ref t).isNone) }) s
  forEach tags (endRunning .notReachable) s'

/-- The hop entry at a location stops naming a reference (R128). -/
def unlistHop (loc : Loc) (ref : Ref) : State → State :=
  modLink loc.link (fun e => if e.entry loc.hop = .listed ref then e.setEntry loc.hop .empty else e)

/-- The directory's part of a claim to STALE (R9): on a reachable record, all its effects; on a STALE one, none. -/
def claimStaleDir (h : Nat) (reason : StaleReason) (s : State) : State :=
  match findRec s h with
  | some r =>
      if r.state = .stale then s else
      let s := updRec h (fun x => { x with state := .stale, stale := some ⟨s.now, reason⟩ }) s
      let s := modDir (fun d => { d with staleList := d.staleList ++ [h] }) s
      let s := removeJob r.ref s
      let s := dropHostWaiting r.loc.link r.ref s
      let s := unlistHop r.loc r.ref s
      noticeId r.uid (raiseHandle h .stale s)
  | none => s

/-- A claim to ACTIVE (R10); the job is removed in the same event. -/
def claimActive (h : Nat) (s : State) : State :=
  match findRec s h with
  | some r =>
      if r.state = .joining ∨ r.state = .lagging then
        let s := updRec h (fun x => { x with state := .active, synced := s.commit.epoch }) s
        removeJob r.ref (raiseHandle h .active s)
      else s
  | none => s

/-- A claim to LAGGING (R11): on an ACTIVE record; it is passed to the catch-up unit for a job. -/
def claimLagging (h : Nat) (s : State) : State :=
  match findRec s h with
  | some r =>
      if r.state = .active then
        makeJob h (raiseHandle h .lagging (updRec h (fun x => { x with state := .lagging }) s))
      else s
  | none => s

/-- The cascade that retires a record (R17, R60, R182). -/
def retire (h : Nat) (s : State) : State :=
  match findRec s h with
  | some r =>
      let pruned := s.staging.any (Change.namesHandle h)
      let s := setStore (s.store.filter (fun e => !e.namesHandle h)) s
      let s := setStaging (s.staging.filter (fun c => !c.namesHandle h)) s
      let s := if pruned then raiseDevice .stagingPruned s else s
      let s := removeJob r.ref s
      let s := dropHostWaiting r.loc.link r.ref s
      let s := modDir (fun d => { d with
        gens := d.gens.set (h - 1) ((r.ref.gen + 1) % 16)
        records := d.records.filter (fun x => x.ref.handle != h)
        freeList := d.freeList ++ [h]
        staleList := d.staleList.filter (fun x => x != h) }) s
      let s := modPort (fun p => { p with attn := p.attn.retireHandle h r.ref.gen }) s
      noticeId r.uid (noticeHandle s)
  | none => s

/-- The STALE records whose grace time has reached the grace period, in stale-list order (R14, R15). -/
def expiredHandles (s : State) : List Nat :=
  s.dir.staleList.filter (fun h => match findRec s h with
    | some r => graceReached s.now s.dir.grace r
    | none => false)

/-- Every expired record is retired, in stale-list order (R15, R16). -/
def expireAll (s : State) : State := forEach (expiredHandles s) retire s

/-- Take a handle for a new tile (R5, R20): the head of the free-handle list; with the list empty, the head of the
stale list is evicted when the commit controller is IDLE. None when no handle is available. -/
def takeHandle (s : State) : Option (Nat × State) :=
  match s.dir.freeList with
  | h :: rest => some (h, modDir (fun d => { d with freeList := rest }) s)
  | [] =>
    match s.commit.state, s.dir.staleList with
    | .idle, old :: _ =>
      let s := retire old s
      match s.dir.freeList with
      | h :: rest => some (h, modDir (fun d => { d with freeList := rest }) s)
      | [] => none
    | _, _ => none

/-- A record's group set, position, state and the rest after the ASSIGN of a new tile (R3). -/
def newRecord (ref : Ref) (info : EnumInfo) (loc : Loc) : Record :=
  { ref := ref, uid := info.uid, model := info.model, capacity := info.capacity, state := .joining, loc := loc,
    pos := none, groups := 0, synced := info.live, miss := 0, stale := none }

/-- A record is created (R3): JOINED is raised and the catch-up unit gives it a job. -/
def createRecord (ref : Ref) (info : EnumInfo) (loc : Loc) (s : State) : State :=
  let s := modDir (fun d => { d with records := insertRec (newRecord ref info loc) d.records }) s
  makeJob ref.handle (raiseHandle ref.handle .joined (setHop loc.link loc.hop (.listed ref) s))

/-- A STALE record is re-bound (R8): REJOINED is raised, MOVED if its location differs, and it is given a job. -/
def rebind (r : Record) (info : EnumInfo) (loc : Loc) (s : State) : State :=
  let s := updRec r.ref.handle (fun x => { x with
    state := .joining, stale := none, loc := loc, model := info.model, capacity := info.capacity, miss := 0 }) s
  let s := modDir (fun d => { d with staleList := d.staleList.filter (fun x => x != r.ref.handle) }) s
  let s := raiseHandle r.ref.handle .rejoined s
  let s := if r.loc = loc then s else raiseHandle r.ref.handle .moved s
  makeJob r.ref.handle (setHop loc.link loc.hop (.listed r.ref) s)

end Sys2Proof.Machine
end

