-- ==== Sys2Proof/Machine/Phases.lean ====
section
/-! DEFINITION. The two-phase commit (chapter 4): participants, exclusion, cancelling, the apply, verification, the
return to IDLE, and what claims to STALE mean for a running commit. -/

namespace Sys2Proof.Machine

/-! ### Transactions of the commit class -/

/-- A PREPARE. -/
def Txn.isPrepare (t : Txn) : Bool :=
  match t.body with
  | .prepare _ _ _ _ => true
  | _ => false

/-- A CANCEL. -/
def Txn.isCancel (t : Txn) : Bool :=
  match t.body with
  | .cancel _ => true
  | _ => false

/-- A transaction of the commit controller. -/
def Txn.isCommit (t : Txn) : Bool := t.cls == .commit

/-- A broadcast APPLY (R78). -/
def Txn.isBroadcast (t : Txn) : Bool := t.dest == .broadcast

/-- Remove the waiting commit transactions that satisfy a test. -/
def LinkEngine.dropCommit (test : Txn → Bool) (e : LinkEngine) : LinkEngine :=
  { e with commitQ := e.commitQ.filter (fun t => !test t) }

/-- Queue transactions at the tail of the commit class. -/
def LinkEngine.queueCommit (ts : List Txn) (e : LinkEngine) : LinkEngine := { e with commitQ := e.commitQ ++ ts }

/-- A directed transaction of the commit to a participant. -/
def partTxn (p : Participant) (b : Body) : Txn :=
  { dest := .directed p.loc.hop, body := b, cls := .commit, req := .participant p.ref }

/-- The PREPARE packets of a participant, first to last (R71). -/
def prepareTxns (epoch : Half) (p : Participant) : List Txn :=
  (List.range (packetCount p.pairs.length)).map (fun i => partTxn p (preparePacket epoch p.pairs i))

/-- The broadcast APPLY of the new committed epoch and the verification roll call behind it (R78). -/
def applyTxns (epoch : Half) : List Txn :=
  [{ dest := .broadcast, body := .apply epoch, cls := .commit, req := .controller }, rollTxn .commit .controller]

/-! ### Participants (R65) -/

/-- Change the participant of a reference. -/
def updPart (ref : Ref) (f : Participant → Participant) : State → State :=
  modCommit (fun c => { c with participants := c.participants.map (fun p => if p.ref = ref then f p else p) })

/-- Set the status of a participant. -/
def setStatus (ref : Ref) (st : PartStatus) : State → State := updPart ref (fun p => { p with status := st })

/-- The participant of a reference. -/
def findPart (s : State) (ref : Ref) : Option Participant := s.commit.participants.find? (fun p => p.ref == ref)

/-- A participant whose record is reachable, at the place the participant was taken from (log 16). -/
def partReachable (s : State) (p : Participant) : Bool :=
  match findRef s p.ref with
  | some r => r.reachable && r.loc == p.loc
  | none => false

/-- Some participant has a status. -/
def anyStatus (s : State) (st : PartStatus) : Bool := s.commit.participants.any (fun p => p.status == st)

/-- The number of participants with a status. -/
def countStatus (s : State) (st : PartStatus) : Nat := (s.commit.participants.filter (fun p => p.status == st)).length

/-- Every packet of the participant is acknowledged OK (R72). -/
def Participant.allAcked (p : Participant) : Bool := p.acked == packetCount p.pairs.length

/-- Queue a CANCEL of the commit's epoch to a participant and set its cancel-sent mark (R73, R84). -/
def queueCancel (p : Participant) (s : State) : State :=
  let s := modLink p.loc.link (LinkEngine.queueCommit [partTxn p (.cancel (s.commit.epoch + 1))]) s
  updPart p.ref (fun p => { p with cancelSent := true }) s

/-- A participant's PREPAREs still queued are removed, and the result of one on the wire is discarded (R73, R75). -/
def dropPrepares (p : Participant) : State → State :=
  modLink p.loc.link (fun e => LinkEngine.dropFlight (fun t => t.isPrepare && t.req == .participant p.ref)
    (e.dropCommit (fun t => t.isPrepare && t.req == .participant p.ref)))

/-- A participant is excluded in PREPARING under LENIENT (R73, R74). -/
def exclude (p : Participant) (s : State) : State :=
  let s := setStatus p.ref .excluded (dropPrepares p s)
  if partReachable s p then
    let s := claimLagging p.ref.handle s
    if p.reached then queueCancel p s else s
  else s

/-- The controller enters CANCELLING with a reason (R84). -/
def enterCancelling (reason : CancelReason) (s : State) : State :=
  let s := modCommit (fun c => { c with state := .cancelling, reason := some reason, prepareDl := none, armDl := none }) s
  let s := modLinks (fun e => LinkEngine.dropFlight (fun t => t.isPrepare && t.isCommit) (e.dropCommit Txn.isPrepare)) s
  forEach (s.commit.participants.filter (fun p => partReachable s p && p.reached && !p.cancelSent)) queueCancel s

/-- A participant that is UNPREPARED or PREPARED fails in PREPARING (R73). -/
def failParticipant (p : Participant) (s : State) : State :=
  if s.commit.policy = some .strict then enterCancelling (.prepareFailed p.ref) s else exclude p s

/-- The commit controller learns that a participant's record went STALE (R73, R76, R81, R85): its waiting commit
transactions are removed, and the phase and policy decide the rest. -/
def participantLost (ref : Ref) (s : State) : State :=
  match findPart s ref with
  | none => s
  | some p =>
      let s := modLink p.loc.link (LinkEngine.dropCommit (fun t => t.req == .participant ref)) s
      match s.commit.state with
      | .preparing => if p.status = .unprepared ∨ p.status = .prepared then failParticipant p s else s
      | .armed =>
          if p.status = .prepared then
            (if s.commit.policy = some .strict then enterCancelling .participantLost s else setStatus ref .excluded s)
          else s
      | .applying => if p.status = .unconfirmed then setStatus ref .excluded s else s
      | .cancelling => s
      | .idle => s

/-- Claims to STALE taken in one event (R9, R88, R89): the directory takes each in order, then the commit controller
meets each in the same order. Claims on records that are not reachable have no effect. -/
def claimStaleAll (claims : List (Nat × StaleReason)) (s : State) : State :=
  let refs := claims.filterMap (fun c => match findRec s c.1 with
    | some r => if r.reachable then some r.ref else none
    | none => none)
  forEach refs participantLost (forEach claims (fun c => claimStaleDir c.1 c.2) s)

/-- One claim to STALE. -/
def claimStale (h : Nat) (reason : StaleReason) : State → State := claimStaleAll [(h, reason)]

/-! ### The apply (R77, R78) -/

/-- A record after the apply: position, group set, and the synced epoch of an ACTIVE record that is no participant. -/
def recordAfter (s : State) (r : Record) : Record :=
  { r with
    pos := positionAfter s.staging s.commit.displaced r
    groups := groupsAfter s.staging r
    synced := if r.state = .active ∧ (findPart s r.ref).isNone then s.commit.epoch + 1 else r.synced }

/-- A participant at the apply: a PREPARED one becomes UNCONFIRMED. -/
def partAfter (p : Participant) : Participant := if p.status = .prepared then { p with status := .unconfirmed } else p

/-- The apply, in the boundary event taken in ARMED; the boundary count has already advanced (R77). The apply
deadline's moment is exact to the 10 us (log 45). -/
def applyCommit (s : State) : State :=
  let parts := s.commit.participants.map partAfter
  let waits := fun (l : LinkId) => parts.any (fun p => p.status == .unconfirmed && p.loc.link == l)
  let epoch := s.commit.epoch + 1
  let s' : State := { s with
    store := storeAfter s.store s.staging
    keys := s.keys.map (fun k => { k with introduced := false })
    staging := []
    dir := { s.dir with records := s.dir.records.map (recordAfter s) }
    commit := { s.commit with
      state := .applying
      epoch := epoch
      participants := parts
      armDl := none
      applyDl := if parts.any (fun p => p.status == .unconfirmed)
        then some (s.now + s.commit.lengths.apply * Config.ticksPerMs) else none
      applyCount := some s.boundary.count } }
  forEach fours (fun l s => if waits l then modLink l (fun e => { e with commitQ := applyTxns epoch ++ e.commitQ }) s else s) s'

/-! ### Verification (R79, R80) -/

/-- A participant is CONFIRMED: its record's synced epoch becomes the committed epoch (R79, R80). -/
def confirm (ref : Ref) (s : State) : State :=
  updRec ref.handle (fun r => { r with synced := s.commit.epoch, miss := 0 }) (setStatus ref .confirmed s)

/-- What a verification roll call means for one UNCONFIRMED participant (R79). -/
def examineOne (entries : List RollEntry) (p : Participant) (s : State) : State :=
  match entries[p.loc.hop]? with
  | some e =>
      if e.held = p.ref then
        (if e.live = s.commit.epoch then confirm p.ref s
         else modLink p.loc.link (LinkEngine.queueCommit [partTxn p (.apply s.commit.epoch)]) s)
      else setStatus p.ref .excluded s
  | none => setStatus p.ref .excluded s

/-- The controller examines each UNCONFIRMED participant of a link after its verification roll call (R79). -/
def examine (l : LinkId) (entries : List RollEntry) (s : State) : State :=
  forEach (s.commit.participants.filter (fun p => p.status == .unconfirmed && p.loc.link == l)) (examineOne entries) s

/-- A participant is made LAGGING in APPLYING (R80, R81). -/
def makeLagging (ref : Ref) (s : State) : State := claimLagging ref.handle (setStatus ref .lagging s)

/-- A commit transaction of a participant ends REPLIED (R72, R73, R80, R85). -/
def participantReplied (ref : Ref) (b : Body) (st : TileStatus) (reply : ReplyBody) (s : State) : State :=
  match findPart s ref with
  | none => s
  | some p =>
    match b with
    | .prepare _ _ _ _ =>
        if s.commit.state = .preparing ∧ p.status = .unprepared then
          (if st = .ok then
            updPart ref (fun p =>
              let q := { p with acked := p.acked + 1 }
              if q.allAcked then { q with status := .prepared } else q) s
           else failParticipant p s)
        else s
    | .apply _ =>
        if s.commit.state = .applying ∧ p.status = .unconfirmed then
          (if st = .ok ∧ reply = .epoch s.commit.epoch then raiseHandle ref.handle .lateApply (confirm ref s)
           else makeLagging ref s)
        else s
    | _ => s

/-- A commit transaction of a participant ends NO_REPLY (R73, R80, R85). When the same NO_REPLY reaches the miss
limit, the participant of a directed APPLY is left for the claim to STALE to exclude (R80). -/
def participantNoReply (ref : Ref) (b : Body) (limit : Bool) (s : State) : State :=
  match findPart s ref with
  | none => s
  | some p =>
    match b with
    | .prepare _ _ _ _ =>
        if s.commit.state = .preparing ∧ (p.status = .unprepared ∨ p.status = .prepared) then failParticipant p s else s
    | .apply _ =>
        if s.commit.state = .applying ∧ p.status = .unconfirmed then
          (if limit then claimLagging ref.handle s else makeLagging ref s)
        else s
    | .cancel _ =>
        match findRef s ref with
        | some r => if r.state = .active then claimLagging ref.handle s else s
        | none => s
    | _ => s

/-! ### The end of a commit (R82, R83, R85) -/

/-- The result of a COMMIT that completes OK (R82). -/
def commitResult (s : State) : List Byte :=
  halfBytes s.commit.epoch ++ wordBytes (s.commit.applyCount.getD 0)
    ++ [u8 (countStatus s .confirmed), u8 (countStatus s .lagging), u8 (countStatus s .excluded)]

/-- The result of a COMMIT that completes ABORTED (R85): the handle reference, FFFFh but for PREPARE_FAILED, and the
committed epoch. -/
def abortResult (s : State) (reason : CancelReason) : List Byte := optRefBytes reason.ref? ++ halfBytes s.commit.epoch

/-- The running COMMIT completes. -/
def completeCommit (st : Status) (qual : Byte) (res : List Byte) (s : State) : State :=
  match s.commit.tag with
  | some t => complete t .commit st qual res s
  | none => s

/-- Records in state JOINING or LAGGING, in ascending handle order. -/
def catchUpHandles (s : State) : List Nat :=
  (s.dir.records.filter (fun r => r.state == .joining || r.state == .lagging)).map (fun r => r.ref.handle)

/-- The return of the controller to IDLE, from APPLYING (applied) or CANCELLING (R83); the COMMIT has completed. The deferred
expiries are taken here, before the DIRECTORY_FULL hop scans they and the return cause: R15, R83 and R142 allow either order, and
this one is the model's choice (log 40). -/
def returnToIdle (applied : Bool) (s : State) : State :=
  let s := modCommit (fun c => CommitCtl.idle c.epoch c.lengths) s
  let s := modLinks (fun e => LinkEngine.dropFlight Txn.isCommit { e with commitQ := [] }) s
  let s := if applied then restartAllJobs s else s
  let s := forEach (catchUpHandles s) makeJob s
  noticeHandle (expireAll s)

/-- A CANCEL of the commit has not ended (R85). -/
def LinkEngine.cancelOutstanding (e : LinkEngine) : Bool :=
  e.commitQ.any Txn.isCancel
    || (match e.flight with
        | some f => f.txn.isCancel && f.txn.req != .gone
        | none => false)

/-- What the controller's own tests call for in an event (R72, R82, R85). A deadline is kept to the 10 us (R66; log 45). -/
def settleCommit (s : State) : State :=
  match s.commit.state with
  | .preparing =>
      if anyStatus s .unprepared then s
      else modCommit (fun c => { c with state := .armed, prepareDl := none, armDl := some (s.now + c.lengths.arm * Config.ticksPerMs) }) s
  | .applying =>
      if anyStatus s .unconfirmed then s
      else returnToIdle true (completeCommit .ok 0 (commitResult s) s)
  | .cancelling =>
      if fours.any (fun l => (s.links.get l).cancelOutstanding) then s
      else
        let reason := s.commit.reason.getD .host
        returnToIdle false (completeCommit .aborted reason.code (abortResult s reason) s)
  | _ => s

end Sys2Proof.Machine
end

