-- ==== Sys2Proof/Machine/Scan.lean ====
section
/-! DEFINITION. Chain scanning and roll call (chapter 7): matching, ASSIGN, the full scan, hop scans and the
processing of a roll call. -/

namespace Sys2Proof.Machine

/-! ### Matching (R131, R132) -/

/-- The ASSIGN of an assignment in progress (R130, R132). -/
def Assignment.txn (a : Assignment) : Txn :=
  { dest := .directed a.hop, body := .assign a.ref, cls := .scan, req := .scanStep a.full }

/-- The mark that an assignment in progress puts on the ID matched (R4). -/
def Assignment.mark (l : LinkId) (a : Assignment) : Mark := ⟨a.info.uid, a.kind, a.ref, ⟨l, a.hop⟩⟩

/-- An ASSIGN of a scan step is queued at the head of the scan class, its ID is marked and its hop has an assignment
in progress (R130, R132). -/
def startAssign (l : LinkId) (a : Assignment) (s : State) : State :=
  let s := modDir (fun d => { d with marks := d.marks ++ [a.mark l] }) s
  modLink l (fun e => { e with assigning := some a, scanQ := a.txn :: e.scanQ }) s

/-- A reported ID or capacity that no record may have (R131). -/
def badInfo (info : EnumInfo) : Bool := info.uid = 0 || info.uid = BitVec.allOnes 64 || info.capacity = 0

/-- Match the reply of an ENUM_QUERY against the unique-ID index (R131, R132). -/
def matchReply (l : LinkId) (hop : Nat) (full : Bool) (reply : Option EnumInfo) (s : State) : State :=
  match reply with
  | none => setUnlisted l hop .badId s
  | some info =>
    if badInfo info then setUnlisted l hop .badId s
    else match askIndex s info.uid ⟨l, hop⟩ with
      | .markedElsewhere => setUnlisted l hop (.duplicateId info.uid) s
      | .record r =>
          if r.reachable then
            (if r.loc = ⟨l, hop⟩ then s
             else raiseHandle r.ref.handle .duplicate (setUnlisted l hop (.duplicateId info.uid) s))
          else startAssign l { hop := hop, kind := .assigningRebind, ref := r.ref, info := info, full := full } s
      | .unknown =>
          match takeHandle s with
          | some (h, s') =>
              startAssign l { hop := hop, kind := .assigningNew, ref := ⟨h, genOf s' h⟩, info := info, full := full } s'
          | none => setUnlisted l hop .directoryFull s

/-! ### The full scan (R135 to R137) -/

/-- Count something in the full scan in progress (R138). -/
def countScan (l : LinkId) (f : FullScan → FullScan) : State → State := modLink l (fun e => { e with scan := e.scan.map f })

/-- Begin a full scan at hop 0 (R135). -/
def beginScan (l : LinkId) (tag : Option Tag) : State → State :=
  modLink l (fun e => { e with
    state := .scanning, scan := some { hop := 0, created := 0, rebound := 0, claimed := 0, rescan := tag },
    scanQ := e.scanQ ++ [enumTxn true 0] })

/-- The handles named by the entries of hops from a reach on, in ascending hop order. -/
def handlesFrom (e : LinkEngine) (r : Nat) : List Nat :=
  (e.hops.drop r).filterMap (fun x => match x with
    | .listed ref => some ref.handle
    | _ => none)

/-- The hop map with every entry from a hop on EMPTY. -/
def hopsBelow (hops : List HopEntry) (r : Nat) : List HopEntry :=
  hops.take r ++ List.replicate (Config.hopCount - r) .empty

/-- An ID that stands released: no reachable record holds it and no mark stands for it (R134, R137; log 17). -/
def idReleased (s : State) (u : Uid) : Bool :=
  (match findUid s u with
   | some r => !r.reachable
   | none => true) && !s.dir.marks.any (fun m => m.uid == u)

/-- A hop that the follow-up mark has scanned again (R137). -/
def followUpHop (s : State) : HopEntry → Bool
  | .unlisted .directoryFull => true
  | .unlisted (.duplicateId u) => idReleased s u
  | _ => false

/-- The number of hops of a kind. -/
def countHops (e : LinkEngine) (test : HopEntry → Bool) : Nat := (e.hops.filter test).length

/-- A hop entry that names a record. -/
def HopEntry.isListed : HopEntry → Bool
  | .listed _ => true
  | _ => false

/-- An UNLISTED hop entry. -/
def HopEntry.isUnlisted : HopEntry → Bool
  | .unlisted _ => true
  | _ => false

/-- The RESCAN that started a scan completes OK (R137, R138). -/
def completeRescan (l : LinkId) (sc : FullScan) (claimed : Nat) (s : State) : State :=
  match sc.rescan with
  | some t =>
      let e := s.links.get l
      complete t .rescan .ok 0
        [u8 l.val, u8 e.reach, u8 (countHops e HopEntry.isListed), u8 (countHops e HopEntry.isUnlisted),
         u8 sc.created, u8 sc.rebound, u8 claimed] s
  | none => s

/-- A full scan ends with a reach (R137). -/
def endScan (l : LinkId) (r : Nat) (s : State) : State :=
  match (s.links.get l).scan with
  | none => s
  | some sc =>
    let lost := handlesFrom (s.links.get l) r
    let s := claimStaleAll (lost.map (fun h => (h, .unreached))) s
    let followUp := (s.links.get l).followUp
    let s := modLink l (fun e => { e with
      reach := r, hops := hopsBelow e.hops r, state := .running, lastRollEnd := s.now, rollMet := false, scan := none,
      followUp := false }) s
    let s := raiseLink l .scanDone (raiseLink l .linkUp s)
    let s := if followUp then modLink l (LinkEngine.notice (followUpHop s)) s else s
    completeRescan l sc (sc.claimed + lost.length) s

/-- A step of the full scan has ended: the scan moves to the next hop, or ends after hop 15 with reach 16 (R136). -/
def nextStep (l : LinkId) (s : State) : State :=
  match (s.links.get l).scan with
  | none => s
  | some sc =>
      if sc.hop + 1 < Config.hopCount then
        modLink l (fun e => { e with scan := some { sc with hop := sc.hop + 1 }, scanQ := e.scanQ ++ [enumTxn true (sc.hop + 1)] }) s
      else endScan l Config.hopCount s

/-- The step's matching is over: a full scan goes on unless the step's ASSIGN is still to end (R136). -/
def stepMatched (l : LinkId) (full : Bool) (s : State) : State :=
  if full ∧ (s.links.get l).assigning.isNone then nextStep l s else s

/-! ### The end of an ENUM_QUERY (R136, R141) -/

/-- The enumeration an ENUM_QUERY's reply carries, when its status is OK. -/
def enumInfoOf (st : TileStatus) (reply : ReplyBody) : Option EnumInfo :=
  match st, reply with
  | .ok, .enumInfo info => some info
  | _, _ => none

/-- An ENUM_QUERY ends REPLIED (R136, R141): against the entry at the hop, then against the index. An OK reply with the ID of the
record listed there leaves the hop as it is even with a pending capacity of 0, for which R131 says BAD_ID and R136's row nothing:
the model's choice (log 41). The entry is the one at the reply, not the one at which the step began (log 46). -/
def enumReplied (l : LinkId) (hop : Nat) (full : Bool) (st : TileStatus) (reply : ReplyBody) (s : State) : State :=
  let info := enumInfoOf st reply
  match (s.links.get l).entry hop with
  | .listed ref =>
      match findRef s ref, info with
      | some r, some i =>
          if i.uid = r.uid then
            stepMatched l full (if i.held = ref then updRec ref.handle (fun x => { x with miss := 0 }) s else s)
          else
            let s := setHop l hop .empty (claimStale ref.handle .replaced s)
            let s := if full then countScan l (fun sc => { sc with claimed := sc.claimed + 1 }) s else s
            stepMatched l full (matchReply l hop full info s)
      | _, _ =>
          let s := setHop l hop .empty (claimStale ref.handle .replaced s)
          let s := if full then countScan l (fun sc => { sc with claimed := sc.claimed + 1 }) s else s
          stepMatched l full (matchReply l hop full info s)
  | _ => stepMatched l full (matchReply l hop full info s)

/-- An ENUM_QUERY ends NO_REPLY: a full scan ends there (R136); a hop scan empties an UNLISTED entry and queues a
forced roll call (R141). -/
def enumNoReply (l : LinkId) (hop : Nat) (full : Bool) (s : State) : State :=
  if full then endScan l hop s
  else modLink l (fun e =>
    (if (e.entry hop).isUnlisted then e.setEntry hop .empty else e).forceRollCall) s

/-! ### The end of an ASSIGN of a scan step (R133) -/

/-- The STALE record that a re-bind's ASSIGN was queued for, while it is still in the directory (R8, R21): it holds the reference
assigned and the ID matched, so that no later record of a wrapped generation is taken for it (R1; log 43). -/
def rebindRecord (s : State) (a : Assignment) : Option Record :=
  s.dir.records.find? (fun r => r.ref == a.ref && r.uid == a.info.uid)

/-- The ASSIGN of a scan step ends OK (R133, R21). A hop that was UNLISTED(RETIRED) already and becomes so for a record retired in
flight raises no UNLISTED_FOUND, as R129 has it of every entry given the same reason: the model's choice against R21 (log 47).
Only the ASSIGN of a step of the full scan counts in the RESCAN completion, not that of a hop scan that was on the wire at its
acceptance (log 49). -/
def assignOk (l : LinkId) (a : Assignment) (s : State) : State :=
  let s := removeMark ⟨l, a.hop⟩ s
  let s := modLink l (fun e => { e with assigning := none, scanQ := e.scanQ.filter (fun t => t != clearTxn a.hop) }) s
  match a.kind with
  | .assigningNew =>
      let s := createRecord a.ref a.info ⟨l, a.hop⟩ s
      if a.full then countScan l (fun sc => { sc with created := sc.created + 1 }) s else s
  | .assigningRebind =>
      match rebindRecord s a with
      | some r =>
          let s := rebind r a.info ⟨l, a.hop⟩ s
          if a.full then countScan l (fun sc => { sc with rebound := sc.rebound + 1 }) s else s
      | none => modLink l (fun e => { e with scanQ := e.scanQ ++ [clearTxn a.hop] }) (setUnlisted l a.hop .retired s)

/-- The ASSIGN of a scan step ends with another status or NO_REPLY (R133): the hop is UNLISTED(ASSIGN_FAILED) before the notices
of the handle and the ID go out, so that they cause no scan of it. -/
def assignFailed (l : LinkId) (a : Assignment) (s : State) : State :=
  dropAssignment l a (setUnlisted l a.hop .assignFailed s)

/-- The ASSIGN of a scan step ends. -/
def assignEnded (l : LinkId) (ok : Bool) (s : State) : State :=
  match (s.links.get l).assigning with
  | none => s
  | some a => stepMatched l a.full (if ok then assignOk l a s else assignFailed l a s)

/-! ### Roll call (R143 to R147) -/

/-- A hop with an assignment in progress is passed over (R144). -/
def LinkEngine.passedOver (e : LinkEngine) (hop : Nat) : Bool :=
  match e.assigning with
  | some a => a.hop == hop
  | none => false

/-- A record that a roll call does not find at its hop (R144): the claim to STALE, and the hop's entry EMPTY. -/
def loseHop (l : LinkId) (hop : Nat) (ref : Ref) (reason : StaleReason) (s : State) : State :=
  setHop l hop .empty (claimStale ref.handle reason s)

/-- A roll call on a RUNNING link causes a hop scan of a hop (R140); one that ends during SCANNING causes none (R138, R144). -/
def rollScan (l : LinkId) (hop : Nat) : State → State :=
  modLink l (fun e => if e.state = .running then e.cause hop else e)

/-- What a roll call means for one hop: a row of the table of R144. A hop with an assignment in progress is passed over. -/
def rollHop (l : LinkId) (entries : List RollEntry) (hop : Nat) (s : State) : State :=
  if (s.links.get l).passedOver hop then s
  else match (s.links.get l).entry hop, entries[hop]? with
    | .listed ref, some x =>
        if x.held = ref then updRec ref.handle (fun r => { r with miss := 0 }) s
        else rollScan l hop (loseHop l hop ref .replaced s)
    | .listed ref, none => loseHop l hop ref .unreached s
    | .empty, some _ => rollScan l hop s
    | .empty, none => s
    | .unlisted _, some _ => s
    | .unlisted _, none => setHop l hop .empty s

/-- The processing of a roll call (R144), given the entries of the tiles below the reach in hop order: the reach, then each hop
0 to 15 in ascending order. -/
def processRollCall (l : LinkId) (entries : List RollEntry) (s : State) : State :=
  forEach (List.range Config.hopCount) (rollHop l entries) (modLink l (fun e => { e with reach := entries.length }) s)

end Sys2Proof.Machine
end

