-- ==== Sys2Proof/Machine/Wire.lean ====
section
/-! DEFINITION. Transactions on the wire (chapter 6): the arbiter, attempts and their ends, the outcomes given to the
requesters, the taking down of a link, and the end of an event. -/

namespace Sys2Proof.Machine

/-! ### Sequence numbers and starts (R112, R113) -/

/-- The sequence number of the next transaction (R112): the one after the counter's, and for a directed transaction
the one after that when it is the last of its hop. -/
def LinkEngine.nextSeq (e : LinkEngine) (d : Dest) : Nat :=
  let n := (e.seqCounter + 1) % 16
  match d with
  | .directed h => if e.lastSeq.getD h none = some n then (n + 1) % 16 else n
  | _ => n

/-- The attempts a transaction is allowed: retries + 1, one for a broadcast (R111, R114). -/
def LinkEngine.allowed (e : LinkEngine) (t : Txn) : Nat := if t.isBroadcast then 1 else e.timing.retries + 1

/-- The first attempt of a transaction, as the flight that starts now (R111 to R114). -/
def LinkEngine.newFlight (e : LinkEngine) (now : Nat) (t : Txn) : Flight :=
  { txn := t, seq := e.nextSeq t.dest, attempt := 1, allowed := e.allowed t, phase := .onWire,
    expires := now + e.timing.timeout }

/-- The moment at which the periodic roll call becomes due (R121). -/
def LinkEngine.rollMoment (e : LinkEngine) : Nat := e.lastRollEnd + e.timing.interval * Config.ticksPerMs

/-- The sequence number of a start is kept: the counter's, and the last of the hop (R112). A roll call clears the due mark, and one
that starts behind the moment of the interval serves the mark that was due at that moment (R121; log 28). -/
def LinkEngine.started (e : LinkEngine) (now : Nat) (f : Flight) : LinkEngine :=
  { e with
    seqCounter := f.seq
    lastSeq := match f.txn.dest with
      | .directed h => e.lastSeq.set h (some f.seq)
      | _ => e.lastSeq
    rollDue := if f.txn.body = .rollCall then false else e.rollDue
    rollMet := e.rollMet || (f.txn.body == .rollCall && decide (e.rollMoment < now))
    sent := f.txn.packet f.seq }

/-- A participant whose PREPARE goes onto the wire is reached (R65, R72). -/
def markReached (t : Txn) (s : State) : State :=
  match t.req with
  | .participant ref => if t.isPrepare then updPart ref (fun p => { p with reached := true }) s else s
  | _ => s

/-- The arbiter starts a transaction (R117). -/
def startTxn (l : LinkId) (t : Txn) (s : State) : State :=
  markReached t (modLink l (fun e =>
    let f := e.newFlight s.now t
    { e.started s.now f with flight := some f }) s)

/-! ### The arbiter (R117 to R120) -/

/-- A transaction of the full scan in progress (R135). -/
def Txn.isFullScan (t : Txn) : Bool := t.req == .scanStep true

/-- The arbiter's choice among the host class, the catch-up class and the periodic roll call (R119, R120): the
transaction and the engine without it, its host run count changed. -/
def chooseLow (idle : Bool) (e : LinkEngine) : Option (Txn × LinkEngine) :=
  match e.hostQ, e.catchQ with
  | t :: q, c :: cs =>
      if idle then
        (if Config.hostRunLimit ≤ e.hostRun then some (c, { e with catchQ := cs, hostRun := 0 })
         else some (t, { e with hostQ := q, hostRun := e.hostRun + 1 }))
      else some (t, { e with hostQ := q, hostRun := 0 })
  | t :: q, [] => some (t, { e with hostQ := q, hostRun := 0 })
  | [], c :: cs =>
      if idle then some (c, { e with catchQ := cs, hostRun := 0 })
      else if e.rollDue then some (rollTxn .periodic .engine, e) else none
  | [], [] => if e.rollDue then some (rollTxn .periodic .engine, e) else none

/-- The arbiter's choice (R119): in RUNNING the commit class, the scan class, then the rest; in SCANNING the
transactions of the full scan in progress (R135); otherwise none. -/
def choose (idle : Bool) (e : LinkEngine) : Option (Txn × LinkEngine) :=
  match e.state with
  | .running =>
      match e.commitQ with
      | t :: q => some (t, { e with commitQ := q })
      | [] =>
        match e.scanQ with
        | t :: q => some (t, { e with scanQ := q })
        | [] => chooseLow idle e
  | .scanning =>
      match e.scanQ.find? Txn.isFullScan with
      | some t => some (t, { e with scanQ := e.scanQ.eraseP Txn.isFullScan })
      | none => none
  | _ => none

/-- The arbiter of a link hands a free wire to one waiting transaction (R117). -/
def arbitrate (l : LinkId) (s : State) : State :=
  let e := s.links.get l
  if e.flight.isSome ∨ e.overtaking.isSome then s
  else match choose (s.commit.state = .idle) e with
    | some (t, e') => startTxn l t (modLink l (fun _ => e') s)
    | none => s

/-- The arbiters of all four links. -/
def arbitrateAll (s : State) : State := forEach fours arbitrate s

/-! ### The end of an event -/

/-- What an event that touches the links ends with: its hop scans are queued, the preparing turns settled, free wires
handed out, and the completions it made ordered by tag. `n` is the length the completion list had before. -/
def finishLinks (n : Nat) (s : State) : State := orderCompletions n (arbitrateAll (settleTurns (queueHopScans s)))

/-- The end of an event that can move the commit: the controller's own tests come first. -/
def finishEvent (n : Nat) (s : State) : State := finishLinks n (settleCommit s)

/-! ### Host transactions (R169) -/

/-- The record mark (R169): REACHABLE 00h when the record named is reachable at its location, GONE 01h otherwise. -/
def recordMark (s : State) (l : LinkId) (hop : Nat) (r : Running) : Byte :=
  match r.ref? with
  | some ref =>
      match findRef s ref with
      | some rec => if rec.reachable ∧ rec.loc = ⟨l, hop⟩ then 0x00 else 0x01
      | none => 0x01
  | none => 0x01

/-- A PARAM_READ or PARAM_WRITE ends REPLIED and its outcome becomes the completion (R169). -/
def hostReplied (l : LinkId) (hop : Nat) (tag : Tag) (st : TileStatus) (reply : ReplyBody) (s : State) : State :=
  match s.port.tags.get tag with
  | .running r =>
      let mark := [recordMark s l hop r]
      match st, reply with
      | .ok, .value v => complete tag r.kind .ok 0 (halfBytes v ++ r.fields ++ mark) s
      | .ok, _ => complete tag r.kind .ok 0 (r.fields ++ mark) s
      | _, _ => complete tag r.kind .tileRefused st.code (r.fields ++ mark) s
  | _ => s

/-- A PARAM_READ or PARAM_WRITE ends NO_REPLY (R169). -/
def hostNoReply (l : LinkId) (hop : Nat) (tag : Tag) (s : State) : State :=
  match s.port.tags.get tag with
  | .running r => complete tag r.kind .noReply 0 (r.fields ++ [recordMark s l hop r]) s
  | _ => s

/-! ### Catch-up transactions (R155 to R158, R161) -/

/-- The result of a transaction that a commit suspended is discarded, and its job is marked for re-preparation
(R161). -/
def discardJobResult (l : LinkId) (ref : Ref) : State → State :=
  updJob l ref (fun j => { j with
    acked := 0, reprepare := true, phase := if j.phase = .applying then .preparing else j.phase })

/-- A refusal by the tile (R158). -/
def jobRefused (l : LinkId) (j : Job) (s : State) : State :=
  if j.restarts < Config.maxRestarts then
    let s := modLink l (LinkEngine.dropJobTxns j.ref) s
    jobToTail l j.ref (fun j => { Job.begin s j with turn := false, restarts := j.restarts + 1 }) s
  else raiseHandle j.ref.handle .catchupFailed (removeJob j.ref s)

/-- A catch-up PREPARE is answered OK (R155). -/
def jobPrepareOk (l : LinkId) (j : Job) (s : State) : State :=
  if packetCount (j.roundPairs s).length ≤ j.acked + 1 then
    updJob l j.ref (fun j => { j with acked := j.acked + 1, phase := .awaitingBoundary, turn := false }) s
  else
    queueNextPacket l { j with acked := j.acked + 1 } (updJob l j.ref (fun j => { j with acked := j.acked + 1 }) s)

/-- A catch-up directed APPLY has switched a round (R156). -/
def jobRoundDone (l : LinkId) (j : Job) (s : State) : State :=
  if j.round < j.roundCount then
    jobToTail l j.ref (fun j => { j with round := j.round + 1, acked := 0, phase := .preparing, turn := false }) s
  else claimActive j.ref.handle s

/-- A catch-up transaction ends REPLIED (R155, R156, R158). -/
def jobReplied (l : LinkId) (ref : Ref) (b : Body) (st : TileStatus) (reply : ReplyBody) (s : State) : State :=
  match (s.jobs.get l).find? (fun j => j.ref == ref) with
  | none => s
  | some j =>
      match b with
        | .prepare _ _ _ _ => if st = .ok then jobPrepareOk l j s else jobRefused l j s
        | .apply _ => if st = .ok ∧ reply = .epoch s.commit.epoch then jobRoundDone l j s else jobRefused l j s
        | _ => s

/-- A catch-up transaction ends NO_REPLY: the same packet is queued again (R157). -/
def jobNoReply (l : LinkId) (ref : Ref) (t : Txn) (s : State) : State :=
  match (s.jobs.get l).find? (fun j => j.ref == ref) with
  | none => s
  | some _ => queueCatchUp l t s

/-! ### Miss counts (R115, R116) -/

/-- The kinds whose outcomes change a miss count (R115). -/
def Body.countsMisses : Body → Bool
  | .enumQuery => false
  | .assign _ => false
  | .prepare _ _ _ _ => true
  | .apply _ => true
  | .cancel _ => true
  | .paramRead _ => true
  | .paramWrite _ _ => true
  | .rollCall => false

/-- The reachable record named by the entry of a hop (R115). -/
def hopRecord (s : State) (l : LinkId) (hop : Nat) : Option Record :=
  match (s.links.get l).entry hop with
  | .listed ref =>
      match findRef s ref with
      | some r => if r.reachable then some r else none
      | none => none
  | _ => none

/-- Set the miss count of the record at a hop (R115). -/
def setMiss (l : LinkId) (hop n : Nat) (s : State) : State :=
  match hopRecord s l hop with
  | some r => updRec r.ref.handle (fun x => { x with miss := n }) s
  | none => s

/-- A record's miss count has reached the miss limit: the claim to STALE, the EMPTY entry and the forced roll call (R116). -/
def claimAtLimit (l : LinkId) (hop h : Nat) (s : State) : State :=
  modLink l LinkEngine.forceRollCall (setHop l hop .empty (claimStale h .noReply s))

/-! ### Outcomes (R111, R114) -/

/-- The end of a roll call of any class: the interval restarts, the due mark clears, and it is processed (R121, R143). -/
def rollEnded (l : LinkId) (t : Txn) (entries : List RollEntry) (s : State) : State :=
  let s := modLink l (fun e => { e with lastRollEnd := s.now, rollDue := false, rollMet := false }) s
  let s := processRollCall l entries s
  if t.req = .controller then examine l entries s else s

/-- The requester of a directed transaction takes its reply (R114). -/
def requesterReplied (l : LinkId) (hop : Nat) (t : Txn) (st : TileStatus) (reply : ReplyBody) (s : State) : State :=
  match t.req with
  | .participant ref => participantReplied ref t.body st reply s
  | .scanStep full => if t.body = .enumQuery then enumReplied l hop full st reply s else assignEnded l (st = .ok) s
  | .tag n => hostReplied l hop n st reply s
  | .job ref => jobReplied l ref t.body st reply s
  | .suspendedJob ref => discardJobResult l ref s
  | .controller => s
  | .engine => s
  | .gone => s

/-- The requester of a directed transaction takes its NO_REPLY; `limit` says that it reached the miss limit (R116). -/
def requesterNoReply (l : LinkId) (hop : Nat) (t : Txn) (limit : Bool) (s : State) : State :=
  match t.req with
  | .participant ref => participantNoReply ref t.body limit s
  | .scanStep full => if t.body = .enumQuery then enumNoReply l hop full s else assignEnded l false s
  | .tag n => hostNoReply l hop n s
  | .job ref => jobNoReply l ref t s
  | .suspendedJob ref => discardJobResult l ref s
  | .controller => s
  | .engine => s
  | .gone => s

/-- The wire becomes free. -/
def freeWire (l : LinkId) : State → State := modLink l (fun e => { e with flight := none })

/-- A transaction ends REPLIED (R111, R113, R115). -/
def endReplied (l : LinkId) (t : Txn) (st : TileStatus) (reply : ReplyBody) (s : State) : State :=
  let s := freeWire l s
  match t.dest with
  | .directed hop =>
      requesterReplied l hop t st reply (if t.body.countsMisses then setMiss l hop 0 s else s)
  | .rollCall =>
      match reply with
      | .roll entries => rollEnded l t entries s
      | _ => s
  | .broadcast => s

/-- A NO_REPLY raises the miss count of the record at the hop; at the miss limit the claim to STALE and the requester's
handling are taken in either order: for the commit controller a free value decides (R116; log 7), for the others the
outcome is the same in both. -/
def missNoReply (l : LinkId) (hop : Nat) (t : Txn) (s : State) : State :=
  match hopRecord s l hop with
  | none => requesterNoReply l hop t false s
  | some r =>
      let s := setMiss l hop (r.miss + 1) s
      if r.miss + 1 < (s.links.get l).timing.missLimit then requesterNoReply l hop t false s
      else match t.req with
        | .participant _ =>
            let first := Config.claimFirst s.choices
            let s := { s with choices := s.choices + 1 }
            if first then requesterNoReply l hop t true (claimAtLimit l hop r.ref.handle s)
            else claimAtLimit l hop r.ref.handle (requesterNoReply l hop t true s)
        | _ => requesterNoReply l hop t true (claimAtLimit l hop r.ref.handle s)

/-- A transaction ends NO_REPLY (R114). -/
def endNoReply (l : LinkId) (t : Txn) (s : State) : State :=
  let s := freeWire l s
  match t.dest with
  | .directed hop => if t.body.countsMisses then missNoReply l hop t s else requesterNoReply l hop t false s
  | .rollCall => rollEnded l t [] s
  | .broadcast => s

/-! ### Attempts (R113, R114, R122) -/

/-- The next attempt of the transaction in flight starts, with the same sequence number (R114). -/
def retryAttempt (l : LinkId) (f : Flight) (s : State) : State :=
  modLink l (fun e => { e with
    flight := some { f with attempt := f.attempt + 1, phase := .onWire, expires := s.now + e.timing.timeout }
    sent := f.txn.packet f.seq }) s

/-- A broadcast APPLY at the head of the commit class takes the wire between two attempts (R122). -/
def overtake (l : LinkId) (f : Flight) (t : Txn) (rest : List Txn) (s : State) : State :=
  modLink l (fun e =>
    let g := e.newFlight s.now t
    { e.started s.now g with commitQ := rest, overtaking := some g, flight := some { f with phase := .between } }) s

/-- The attempt of the transaction in flight fails (R114, R122). -/
def attemptFailed (l : LinkId) (f : Flight) (s : State) : State :=
  if f.attempt < f.allowed then
    match (s.links.get l).state, (s.links.get l).commitQ with
    | .running, t :: rest => if t.isBroadcast then overtake l f t rest s else retryAttempt l f s
    | _, _ => retryAttempt l f s
  else endNoReply l f.txn s

/-- The attempt that waits for a reply, if one does (R113). -/
def waitingFlight (s : State) (l : LinkId) : Option Flight :=
  match (s.links.get l).flight with
  | some f => if f.phase = .onWire ∧ !f.txn.isBroadcast then some f else none
  | none => none

/-- A broadcast packet is being sent on a link. -/
def sendsBroadcast (s : State) (l : LinkId) : Bool :=
  (s.links.get l).overtaking.isSome
    || (match (s.links.get l).flight with
        | some f => f.txn.isBroadcast
        | none => false)

/-- A broadcast packet has left the hub (R111, R122): an interrupted transaction starts its next attempt at once;
otherwise the broadcast transaction ends SENT and the wire is free. -/
def broadcastDone (l : LinkId) (s : State) : State :=
  match (s.links.get l).overtaking, (s.links.get l).flight with
  | some _, some f => retryAttempt l f (modLink l (fun e => { e with overtaking := none }) s)
  | some _, none => modLink l (fun e => { e with overtaking := none }) s
  | none, _ => freeWire l s

/-! ### The taking down of a link (R106, R107, R108, R126) -/

/-- A link engine taken down to a state: nothing in flight or waiting, the hop map EMPTY, the reach 0, no last sequence;
the sequence counter and the timing settings are kept. Entering TRAINING starts a new no-lock timer (R106). -/
def LinkEngine.down (target : LinkState) (now : Nat) (e : LinkEngine) : LinkEngine :=
  { e with
    state := target, reach := 0, hops := List.replicate Config.hopCount .empty,
    lastSeq := List.replicate Config.hopCount none, flight := none, overtaking := none,
    commitQ := [], scanQ := [], hostQ := [], catchQ := [], hostRun := 0, rollDue := false, rollMet := false,
    noLockTimer := if target = .training then some (now + Config.noLockTicks) else none, noLockMark := false,
    scan := none, assigning := none, followUp := false, caused := [] }

/-- A link that is up: SCANNING or RUNNING. -/
def LinkEngine.isUp (e : LinkEngine) : Bool := e.state == .scanning || e.state == .running

/-- The tags whose host transactions wait or are in flight on a link (R172). -/
def hostTags (e : LinkEngine) : List Tag :=
  let txns := e.hostQ ++ (match e.flight with
    | some f => [f.txn]
    | none => [])
  txns.filterMap (fun t => match t.req with
    | .tag n => some n
    | _ => none)

/-- The tag of the RESCAN whose scan runs on a link (R138). -/
def rescanTag (e : LinkEngine) : List Tag :=
  match e.scan with
  | some sc => sc.rescan.toList
  | none => []

/-- Take down a link that is up: its traffic ends (R107, R108), its assignment is abandoned, LINK_DOWN is raised. The
claims on its records follow. -/
def takeDownEngine (l : LinkId) (target : LinkState) (s : State) : State :=
  let e := s.links.get l
  let s := modLink l (LinkEngine.down target s.now) s
  let s := forEach (hostTags e ++ rescanTag e) (endRunning .notReachable) s
  let s := match e.assigning with
    | some a => dropAssignment l a s
    | none => s
  raiseLink l .linkDown s

/-- The reachable records whose location is on a link that satisfies a test, in ascending handle order. -/
def recordsOn (s : State) (test : LinkId → Bool) : List Nat :=
  (s.dir.records.filter (fun r => r.reachable && test r.loc.link)).map (fun r => r.ref.handle)

/-- Lock loss or LINK_DISABLE of a link that is up (R107). -/
def takeDown (l : LinkId) (target : LinkState) (s : State) : State :=
  claimStaleAll ((recordsOn s (fun x => x == l)).map (fun h => (h, .linkDown))) (takeDownEngine l target s)

end Sys2Proof.Machine
end

