-- ==== Sys2Proof/Machine/Port.lean ====
section
/-! DEFINITION. The host port (chapter 10): acceptance of a request, COLLECT, STATUS, void transactions, ATTENTION,
SET_ATTN_MASK and IDENTIFY. -/

namespace Sys2Proof.Machine

/-- The outcome of a command of the hub: no command stops it. -/
abbrev Result := Host.Outcome State Fault Refusal

/-! ### Acceptance (R174 to R177) -/

/-- What the hub shifts out in an SPI transaction: filler during the kind byte, then the bytes given (R192). -/
def shiftedOut (bs : List Byte) : State → State := modPort (fun p => { p with sdo := filler :: bs })

/-- The last acceptance result is replaced (R175). -/
def setAccept (a : AcceptResult) : State → State := modPort (fun p => { p with lastAccept := a })

/-- A tag number 0..3 (R175). -/
def tagOf (b : Byte) : Option Tag := if h : b.toNat < 4 then some ⟨b.toNat, h⟩ else none

/-- The result of the port's judgement of a frame that is well formed and of a known kind (R175), with the tag it is
accepted under. -/
def judgeTag (s : State) (tag : Byte) : AcceptResult × Option Tag :=
  if s.port.state = .resetting then (.resetting, none)
  else match tagOf tag with
    | none => (.badFrame, none)
    | some t => if s.port.tags.get t = .free then (.accepted, some t) else (.tagInUse, none)

/-- A SUBMIT of a well-formed request frame with n parameter bytes, at CS_N rising (R175, R177): the port judges it and,
on ACCEPTED, the owning block takes the request in the same event. In device reset the port ignores the bus. -/
def submit (n : Nat) (tag : Byte) (request : Tag → State → State) (s : State) : State :=
  if s.phase = .inReset then s
  else
    let verdict := judgeTag s tag
    let s := setAccept verdict.1 (shiftedOut (List.replicate (n + 3) filler) s)
    match verdict.2 with
    | some t => request t s
    | none => s

/-- An event of the hub other than an SPI transaction, outside device reset and its start-up interval (R190; log 20). -/
def whenOperating (event : State → State) (s : State) : State := if s.phase = .operating then event s else s

/-- A request completes with a status and no result field. -/
def answer (kind : ReqKind) (st : Status) (tag : Tag) : State → State := complete tag kind st 0 []

/-- A request completes OK with its result fields. -/
def answerOk (kind : ReqKind) (res : List Byte) (tag : Tag) : State → State := complete tag kind .ok 0 res

/-! ### COLLECT, STATUS and what a void transaction does (R174, R179, R180) -/

/-- The removal of the completion at the head of the list, whose tag becomes FREE (R179). -/
def takeCompletion (c : Completion) (rest : List Completion) : State → State :=
  modPort (fun p => { p with completions := rest, tags := p.tags.put c.tag .free })

/-- COLLECT with n bytes clocked after the kind byte (R179). -/
def collect (n : Nat) (s : State) : State :=
  match s.port.completions with
  | [] => shiftedOut (shiftOut [0x00] n) s
  | c :: rest =>
      let s := shiftedOut (shiftOut c.frame n) s
      if c.frame.length ≤ n then takeCompletion c rest s else s

/-- STATUS with n bytes clocked after the kind byte (R180). -/
def status (n : Nat) (s : State) : State := shiftedOut (shiftOut (statusBlock s) n) s

/-- A void transaction of as many whole bytes (R174): filler is shifted out for each of them, and no state changes. -/
def voided (n : Nat) : State → State := modPort (fun p => { p with sdo := List.replicate n filler })

/-- An SPI transaction while RESET_N is not low; the port ignores the bus while it is (R174, R190). -/
def onBus (transaction : State → State) (s : State) : State := if s.phase = .inReset then s else transaction s

/-- COLLECT (R179). -/
def execCollect (n : Nat) (s : State) : Result := .next (onBus (collect n) s)

/-- STATUS (R180). -/
def execStatus (n : Nat) (s : State) : Result := .next (onBus (status n) s)

/-! ### ATTENTION (R183) -/

/-- The generation of a handle's record while the handle is listed, FFh otherwise (R182, R191). -/
def generationByte (s : State) (h : Nat) : Byte :=
  match findRec s h with
  | some r => u8 r.ref.gen
  | none => filler

/-- The generation the RETIRED flag of a handle carries, FFh while RETIRED is clear (R182, R191). -/
def retiredByte (a : AttnSet) (h : Nat) : Byte :=
  match (a.handles.getD (h - 1) ⟨0, none⟩).retiredGen with
  | some g => u8 g
  | none => filler

/-- An attention entry in 7 bytes (R183, R191). -/
def attentionEntry (s : State) (x : Subject) : List Byte :=
  let flags := flagBytes (s.port.attn.flagsOf x)
  match x with
  | .device => [0x00, 0x00] ++ flags ++ [filler, filler]
  | .link l => [0x01, u8 l.val] ++ flags ++ [filler, filler]
  | .handle h => [0x02, u8 h] ++ flags ++ [generationByte s h, retiredByte s.port.attn h]

/-- The subjects an ATTENTION returns: the first 8 that hold a raised flag (R183). -/
def returnedSubjects (s : State) : List Subject := s.port.attn.raised.take Config.listingLength

/-- The attention set after an ATTENTION: every flag returned is cleared (R183). -/
def attentionCleared (s : State) : AttnSet := (returnedSubjects s).foldl AttnSet.clearSubject s.port.attn

/-- The result of an ATTENTION: the entries, their number and the more mark (R183). -/
def attentionResult (s : State) : List Byte :=
  (returnedSubjects s).flatMap (attentionEntry s)
    ++ [u8 (returnedSubjects s).length, markByte (attentionCleared s).pending]

/-- ATTENTION once accepted (R183). -/
def attention (tag : Tag) (s : State) : State :=
  answerOk .attention (attentionResult s) tag (modPort (fun p => { p with attn := attentionCleared s }) s)

/-- ATTENTION (R183). -/
def execAttention (tag : Byte) (s : State) : Result := .next (submit 0 tag attention s)

/-! ### SET_ATTN_MASK and IDENTIFY (R184, R186) -/

/-- SET_ATTN_MASK once accepted (R184). -/
def setAttnMask (mask : BitVec 24) (tag : Tag) (s : State) : State :=
  match maskOf mask with
  | none => answer .setAttnMask .badParameter tag s
  | some m => answerOk .setAttnMask (flagBytes m) tag (modPort (fun p => { p with mask := m }) s)

/-- SET_ATTN_MASK (R184). -/
def execSetAttnMask (tag : Byte) (mask : BitVec 24) (s : State) : Result := .next (submit 3 tag (setAttnMask mask) s)

/-- The result of IDENTIFY: vendor code, part code, revision (R186). -/
def identity : List Byte := halfBytes Config.vendorCode ++ halfBytes Config.partCode ++ [Config.revision]

/-- IDENTIFY (R186). -/
def execIdentify (tag : Byte) (s : State) : Result := .next (submit 0 tag (answerOk .identify identity) s)

end Sys2Proof.Machine
end

