-- ==== Sys2Proof/Machine/Boundaries.lean ====
section
/-! DEFINITION. The Boundary Unit (chapter 5): boundary events, SET_FRAME, BOUNDARY_NOW and the frame watch. -/

namespace Sys2Proof.Machine

/-! ### Boundary events (R91 to R93) -/

/-- The source of a boundary event, in the order R95 names them. -/
inductive BoundarySource where
  | host | frame
  deriving DecidableEq, Repr

/-- The code of a boundary source (R191; log 14). -/
def BoundarySource.code (x : BoundarySource) : Byte := u8 x.ctorIdx

/-- The previous boundary event was made 1 ms or more ago, or none has been made (R91, R95). -/
def spacingHolds (s : State) : Bool :=
  match s.boundary.previous with
  | some t => decide (t + Config.boundarySpacing ≤ s.now)
  | none => true

/-- The boundary count advances and the moment is kept (R92). -/
def countBoundary (s : State) : State :=
  modBoundary (fun b => { b with count := b.count + 1, previous := some s.now }) s

/-- A boundary event, taken by the commit controller in ARMED, by the catch-up jobs in IDLE, by none otherwise (R92,
R93). -/
def boundaryEvent (s : State) : State :=
  match s.commit.state with
  | .armed => applyCommit (countBoundary s)
  | .idle => jobsTakeBoundary (countBoundary s)
  | _ => countBoundary s

/-- The result of a BOUNDARY_NOW: the count, the source, whether it was made after a wait, the commit state in which the
event was taken (R95). -/
def boundaryResult (count : BitVec 32) (src : BoundarySource) (waited : Bool) (seen : CommitState) : List Byte :=
  wordBytes count ++ [src.code, markByte waited, seen.code]

/-- A BOUNDARY_NOW completes OK by the boundary event just made (R95). -/
def completeNow (tag : Tag) (src : BoundarySource) (waited : Bool) (seen : CommitState) (s : State) : State :=
  answerOk .boundaryNow (boundaryResult s.boundary.count src waited seen) tag s

/-- A boundary event completes the pending BOUNDARY_NOW, which becomes absent (R95, R96). -/
def completePending (src : BoundarySource) (seen : CommitState) (s : State) : State :=
  match s.boundary.pendingNow with
  | some p => completeNow p.tag src true seen (modBoundary (fun b => { b with pendingNow := none }) s)
  | none => s

/-! ### SET_FRAME (R94) -/

/-- The settings of a SET_FRAME; a change of polarity restarts a running watch timer with its full 250 ms (R94). -/
def frameSettings (now : Nat) (p : Edge) (e : Bool) (b : BoundaryUnit) : BoundaryUnit :=
  { b with
    polarity := p, enabled := e
    watch := if p = b.polarity then b.watch else b.watch.map (fun _ => now + Config.frameWatchTicks) }

/-- SET_FRAME once accepted (R94). -/
def setFrame (polarity enable : Byte) (tag : Tag) (s : State) : State :=
  match polarityOf polarity, enableOf enable with
  | some p, some e => answerOk .setFrame [polarity, enable] tag (modBoundary (frameSettings s.now p e) s)
  | _, _ => answer .setFrame .badParameter tag s

/-- SET_FRAME (R94). -/
def execSetFrame (tag polarity enable : Byte) (s : State) : Result := .next (submit 2 tag (setFrame polarity enable) s)

/-! ### BOUNDARY_NOW (R95, R96) -/

/-- BOUNDARY_NOW becomes pending, due 1 ms after the previous boundary event (R95). -/
def boundaryPends (tag : Tag) (previous : Nat) (s : State) : State :=
  modBoundary (fun b => { b with pendingNow := some { tag := tag, due := previous + Config.boundarySpacing } })
    (holdTag tag .boundaryNow s)

/-- BOUNDARY_NOW once accepted (R95). -/
def boundaryNow (tag : Tag) (s : State) : State :=
  if s.boundary.pendingNow.isSome then answer .boundaryNow .busy tag s
  else if spacingHolds s then
    finishEvent s.port.completions.length (completeNow tag .host false s.commit.state (boundaryEvent s))
  else match s.boundary.previous with
    | some t => boundaryPends tag t s
    | none => s

/-- BOUNDARY_NOW (R95). -/
def execBoundaryNow (tag : Byte) (s : State) : Result := .next (submit 0 tag boundaryNow s)

/-- The due moment of a pending BOUNDARY_NOW (R95, R96). -/
def boundaryDue (s : State) : State :=
  match s.boundary.pendingNow with
  | some p =>
      let s := advanceTo p.due s
      finishEvent s.port.completions.length (completePending .host s.commit.state (boundaryEvent s))
  | none => s

/-- BOUNDARY_NOW_DUE (R96). -/
def execBoundaryNowDue (s : State) : Result := .next (whenOperating boundaryDue s)

/-! ### FRAME edges and the frame watch (R91, R97) -/

/-- A counted edge restarts the frame watch; FRAME_RESTORED is raised if frame-present was false (R97). -/
def watchEdge (s : State) : State :=
  let s' := modBoundary (fun b => { b with present := true, watch := some (s.now + Config.frameWatchTicks) }) s
  if s.boundary.present then s' else raiseDevice .frameRestored s'

/-- An edge on FRAME, as its filter passes it (R194; log 42): of the other polarity it is ignored; otherwise it counts for the
watch, and makes a boundary event when FRAME is enabled and the spacing holds (R91, R97). -/
def frameEdge (edge : Edge) (s : State) : State :=
  if edge ≠ s.boundary.polarity then s
  else
    let s := watchEdge s
    if s.boundary.enabled ∧ spacingHolds s then
      finishEvent s.port.completions.length (completePending .frame s.commit.state (boundaryEvent s))
    else s

/-- FRAME_EDGE (R91). -/
def execFrameEdge (edge : Edge) (s : State) : Result := .next (whenOperating (frameEdge edge) s)

/-- The frame watch timer expires (R97). -/
def watchExpiry (s : State) : State :=
  match s.boundary.watch with
  | some t => raiseDevice .frameLost (modBoundary (fun b => { b with present := false, watch := none }) (advanceTo t s))
  | none => s

/-- FRAME_WATCH_EXPIRY (R97). -/
def execFrameWatchExpiry (s : State) : Result := .next (whenOperating watchExpiry s)

end Sys2Proof.Machine
end

