-- ==== Sys2Proof/Machine/Clears.lean ====
section
/-! DEFINITION. CLEAR LINKS, CLEAR ALL and the clear interval (R26, R27, R126, R187 to R189), device reset and the
start-up interval (R190). -/

namespace Sys2Proof.Machine

/-! ### CLEAR (R187) -/

/-- The port enters the clear interval and the CLEAR's tag is RUNNING (R187). -/
def beginClear (tag : Tag) (s : State) : State :=
  modPort (fun p => { p with state := .resetting }) (holdTag tag .clear s)

/-- The running CLEAR with the results its completion will carry (R187 to R189). -/
def recordClear (c : RunningClear) : State → State := modPort (fun p => { p with clear := some c })

/-- A link that is enabled: TRAINING, SCANNING or RUNNING (R126). -/
def isEnabled (s : State) (l : LinkId) : Bool := (s.links.get l).state != .disabled

/-- The set of enabled links, bit n for link n (R188, R191). -/
def enabledSet (s : State) : Byte :=
  u8 ((if isEnabled s 0 then 1 else 0) + (if isEnabled s 1 then 2 else 0)
    + (if isEnabled s 2 then 4 else 0) + (if isEnabled s 3 then 8 else 0))

/-! ### CLEAR LINKS (R188) -/

/-- CLEAR LINKS on one link (R126): taken down to TRAINING, or TRAINING anew; a DISABLED link is left as it is. -/
def clearLink (l : LinkId) (s : State) : State :=
  match (s.links.get l).state with
  | .disabled => s
  | .training => modLink l (LinkEngine.down .training s.now) s
  | .scanning => takeDownEngine l .training s
  | .running => takeDownEngine l .training s

/-- The number of requests completed NOT_REACHABLE since the completion list had n entries (R188). -/
def unreachableSince (n : Nat) (s : State) : Nat :=
  ((s.port.completions.drop n).filter (fun c => c.status == .notReachable)).length

/-- The handles of the reachable records on enabled links, in ascending order (R26). -/
def clearedHandles (s : State) : List Nat := recordsOn s (isEnabled s)

/-- CLEAR LINKS once accepted (R188). The links are taken in descending order, so that the handle held on the lowest-numbered
one stands at the head of the free-handle list (R26). A COMMIT that this ends returns the controller to IDLE in the same event, and the
deferred expiries are then taken: they prune staged changes and remove the retired records' tile-scope entries from the Setting Store,
which R47 and R62 have CLEAR LINKS keep and R83, R15 and R17 have the expiries take, the model's choice (log 44). -/
def clearLinks (tag : Tag) (s : State) : State :=
  let n := s.port.completions.length
  let lost := clearedHandles s
  let links := enabledSet s
  let s := forEach fours.reverse clearLink (beginClear tag s)
  let s := claimStaleAll (lost.map (fun h => (h, .cleared))) s
  let s := recordClear { tag := tag, scope := .links, links := links, stale := lost.length, ended := unreachableSince n s } s
  finishEvent n s

/-- CLEAR_LINKS (R188). -/
def execClearLinks (tag : Byte) (s : State) : Result := .next (submit 1 tag clearLinks s)

/-! ### CLEAR ALL (R189) -/

/-- The tags that run a request, in ascending order (R189). -/
def runningTags (s : State) : List Tag :=
  fours.filter (fun t => match s.port.tags.get t with
    | .running _ => true
    | _ => false)

/-- The generations after CLEAR ALL: advanced by 1 modulo 16 for every handle that held a record (R27). -/
def generationsCleared (d : Directory) : List Nat :=
  (List.range' 1 Config.maxHandle).map (fun h =>
    let g := d.gens.getD (h - 1) 0
    if d.records.any (fun r => r.ref.handle == h) then (g + 1) % 16 else g)

/-- The Tile Directory after CLEAR ALL (R27). -/
def Directory.cleared (d : Directory) : Directory := { Directory.reset with gens := generationsCleared d, grace := d.grace }

/-- A link engine after CLEAR ALL (R126). -/
def LinkEngine.cleared (now : Nat) (e : LinkEngine) : LinkEngine :=
  if e.state = .disabled then e else LinkEngine.down .training now e

/-- Every block after CLEAR ALL but the host port (R27, R47, R62, R90, R99, R126, R164). -/
def clearBlocks (s : State) : State :=
  { s with
    dir := s.dir.cleared
    keys := [], store := [], staging := []
    commit := CommitCtl.idle 0 s.commit.lengths
    boundary := { s.boundary with count := 0, pendingNow := none }
    links := s.links.map (LinkEngine.cleared s.now)
    jobs := Quad.all [] }

/-- The fields with which a running request completes CLEARED: those it repeats (R172), and for a COMMIT the committed epoch
(R63; log 13). -/
def Running.clearedFields (epoch : Half) : Running → List Byte
  | .commit => halfBytes epoch
  | r => r.fields

/-- A running request completes CLEARED (R189), in the hub as the clear leaves it. -/
def endCleared (tag : Tag) (s : State) : State :=
  match s.port.tags.get tag with
  | .running r => complete tag r.kind .cleared 0 (r.clearedFields s.commit.epoch) s
  | _ => s

/-- CLEAR ALL once accepted (R189). -/
def clearAll (tag : Tag) (s : State) : State :=
  let ended := runningTags s
  let s := beginClear tag (forEach ended endCleared (clearBlocks s))
  let s := modPort (fun p => { p with attn := { AttnSet.empty with device := Reason.cleared.flag } }) s
  recordClear { tag := tag, scope := .all, links := 0, stale := 0, ended := ended.length } s

/-- CLEAR_ALL (R189). -/
def execClearAll (tag : Byte) (s : State) : Result := .next (submit 1 tag clearAll s)

/-! ### The end of the clear interval (R187) -/

/-- The result of a CLEAR (R188, R189). -/
def RunningClear.result (c : RunningClear) : List Byte :=
  match c.scope with
  | .links => [c.scope.code, c.links, u8 c.stale, u8 c.ended]
  | .all => [c.scope.code, u8 c.ended]

/-- The end of the clear interval: the port becomes READY and the CLEAR completes OK (R187). -/
def clearIntervalEnd (s : State) : State :=
  match s.port.clear with
  | some c => answerOk .clear c.result c.tag (modPort (fun p => { p with state := .ready, clear := none }) s)
  | none => s

/-- CLEAR_INTERVAL_END (R187). -/
def execClearIntervalEnd (s : State) : Result := .next (whenOperating clearIntervalEnd s)

/-! ### Device reset (R190) -/

/-- Every block at its initial value, in a phase of the reset; the model's own queue, clock and counter go on. -/
def initialIn (phase : DevicePhase) (s : State) : State :=
  { State.initial with pending := s.pending, now := s.now, choices := s.choices, phase := phase }

/-- DEVICE_RESET (R190): RESET_N low, or power-on. -/
def execDeviceReset (s : State) : Result := .next (initialIn .inReset s)

/-- RESET_RELEASE (R190): RESET_N rises, or power-on ends. -/
def execResetRelease (s : State) : Result := .next (initialIn .startup s)

/-- The end of the start-up interval: the port becomes READY and RESET_DONE is raised (R190). -/
def startupEnd (s : State) : State :=
  if s.phase = .startup then
    raiseDevice .resetDone (modPort (fun p => { p with state := .ready }) { s with phase := .operating })
  else s

/-- STARTUP_INTERVAL_END (R190). -/
def execStartupIntervalEnd (s : State) : Result := .next (startupEnd s)

end Sys2Proof.Machine
end

