-- ==== Sys2Proof/Machine/Commits.lean ====
section
/-! DEFINITION. COMMIT, ABORT, COMMIT_STATUS and the expiries of the three commit deadlines (chapter 4). -/

namespace Sys2Proof.Machine

/-! ### COMMIT (R67 to R72) -/

/-- The participant of an ACTIVE record with changed pairs between the committed view and a post-view (R65, R69). -/
def participantOf (s : State) (post : View) (r : Record) : Option Participant :=
  let ps := changedPairs s.keys (committedView s) post r.ref
  if r.state = .active ∧ ps ≠ [] then
    some { ref := r.ref, loc := r.loc, pairs := ps, acked := 0, reached := false, cancelSent := false, status := .unprepared }
  else none

/-- The participants of a commit, in ascending handle order (R69). -/
def participantsOf (s : State) (post : View) : List Participant := s.dir.records.filterMap (participantOf s post)

/-- The pending capacity of a participant's record. -/
def pendingCapacity (s : State) (p : Participant) : Nat :=
  match findRef s p.ref with
  | some r => r.capacity
  | none => 0

/-- The first participant whose changed-pair count exceeds its pending capacity (R69). -/
def overCapacity (s : State) (ps : List Participant) : Option Participant :=
  ps.find? (fun p => decide (pendingCapacity s p < p.pairs.length))

/-- The PREPARE packets of the participants on a link, in the order they are queued (R72). -/
def linkPrepares (epoch : Half) (ps : List Participant) (l : LinkId) : List Txn :=
  (ps.filter (fun p => p.loc.link == l)).flatMap (prepareTxns epoch)

/-- The commit controller once a COMMIT has passed every check (R70): PREPARING with its deadline, or ARMED with its own
when there is no participant. The deadline's moment is exact to the 10 us (log 45). -/
def acceptedCommit (s : State) (p : Policy) (tag : Tag) (post : View) (displaced : List Ref) (ps : List Participant) :
    CommitCtl :=
  { s.commit with
    state := if ps = [] then .armed else .preparing
    policy := some p, tag := some tag, postView := some post, displaced := displaced, participants := ps
    prepareDl := if ps = [] then none else some (s.now + s.commit.lengths.prepare * Config.ticksPerMs)
    armDl := if ps = [] then some (s.now + s.commit.lengths.arm * Config.ticksPerMs) else none
    applyDl := none, reason := none, applyCount := none }

/-- The event that accepts a COMMIT which has passed every check (R70, R72, R161). -/
def acceptCommit (p : Policy) (tag : Tag) (post : View) (displaced : List Ref) (ps : List Participant) (s : State) : State :=
  let epoch := s.commit.epoch + 1
  let s' := modCommit (fun _ => acceptedCommit s p tag post displaced ps) (holdTag tag .commit s)
  forEach fours (fun l => modLink l (fun e => LinkEngine.queueCommit (linkPrepares epoch ps l) e.suspendFlight)) s'

/-- A COMMIT completes at acceptance with the fields its check names (R67) and, as every COMMIT does, the committed epoch (R63;
log 13). -/
def refuseCommit (st : Status) (fields : List Byte) (tag : Tag) (s : State) : State :=
  complete tag .commit st 0 (fields ++ halfBytes s.commit.epoch) s

/-- The checks of COMMIT from the store's size on (R67, checks 4 to 6), and its acceptance. -/
def validateCommit (p : Policy) (tag : Tag) (s : State) : State :=
  let size := postSize s.store s.staging
  if Config.storeCapacity < size then refuseCommit .full (u16 size) tag s
  else match checkPlaces s.dir.records s.staging with
    | .occupied ref cell occupant =>
        refuseCommit .occupied (refBytes ref ++ [u8 cell.col, u8 cell.row] ++ refBytes occupant) tag s
    | .ok displaced =>
      let post := postView s displaced
      let ps := participantsOf s post
      match overCapacity s ps with
      | some q =>
          refuseCommit .overCapacity (refBytes q.ref ++ [u8 q.pairs.length, u8 (pendingCapacity s q)]) tag s
      | none => finishLinks s.port.completions.length (acceptCommit p tag post displaced ps s)

/-- COMMIT once accepted at the port (R67). -/
def commitRequest (policy : Byte) (tag : Tag) (s : State) : State :=
  match policyOf policy with
  | none => refuseCommit .badParameter [] tag s
  | some p =>
      if s.commit.state ≠ .idle then refuseCommit .busy [] tag s
      else if s.staging = [] ∧ s.keys.all (fun k => !k.introduced) then refuseCommit .empty [] tag s
      else validateCommit p tag s

/-- COMMIT (R67). -/
def execCommit (tag policy : Byte) (s : State) : Result := .next (submit 1 tag (commitRequest policy) s)

/-! ### ABORT (R86) -/

/-- ABORT once accepted (R86). -/
def abort (tag : Tag) (s : State) : State :=
  let n := s.port.completions.length
  match s.commit.state with
  | .idle => answer .abort .notActive tag s
  | .preparing => finishEvent n (answerOk .abort [] tag (enterCancelling .host s))
  | .armed => finishEvent n (answerOk .abort [] tag (enterCancelling .host s))
  | .cancelling => answerOk .abort [] tag s
  | .applying => answer .abort .tooLate tag s

/-- ABORT (R86). -/
def execAbort (tag : Byte) (s : State) : Result := .next (submit 0 tag abort s)

/-! ### COMMIT_STATUS (R87) -/

/-- The number of participants PREPARED: in PREPARING those now PREPARED, from ARMED on those that reached PREPARED. -/
def preparedCount (s : State) : Nat :=
  match s.commit.state with
  | .idle => 0
  | .preparing => countStatus s .prepared
  | _ => (s.commit.participants.filter Participant.allAcked).length

/-- The policy, or FFh when absent. -/
def policyByte : Option Policy → Byte
  | some p => p.code
  | none => filler

/-- The cancel reason and its handle reference, FFh where absent (R87, R191). -/
def reasonBytes : Option CancelReason → List Byte
  | some r => r.code :: optRefBytes r.ref?
  | none => absentBytes 3

/-- The result of a COMMIT_STATUS (R87). -/
def commitStatusResult (s : State) : List Byte :=
  [s.commit.state.code, policyByte s.commit.policy] ++ halfBytes s.commit.epoch
    ++ [u8 s.commit.participants.length, u8 (preparedCount s), u8 (countStatus s .confirmed)] ++ reasonBytes s.commit.reason

/-- COMMIT_STATUS once accepted (R87). -/
def commitStatus (tag : Tag) (s : State) : State := answerOk .commitStatus (commitStatusResult s) tag s

/-- COMMIT_STATUS (R87). -/
def execCommitStatus (tag : Byte) (s : State) : Result := .next (submit 0 tag commitStatus s)

/-! ### The deadlines (R66, R74, R76, R81) -/

/-- Every UNPREPARED participant is excluded, in ascending handle order (R74). -/
def excludeUnprepared (s : State) : State :=
  forEach (s.commit.participants.filter (fun p => p.status == .unprepared)) exclude s

/-- The prepare deadline expires in PREPARING (R74). -/
def prepareDeadline (s : State) : State :=
  match s.commit.state, s.commit.prepareDl with
  | .preparing, some t =>
      let s := advanceTo t s
      finishEvent s.port.completions.length
        (if s.commit.policy = some .strict then enterCancelling .deadline s else excludeUnprepared s)
  | _, _ => s

/-- PREPARE_DEADLINE_EXPIRY (R74). -/
def execPrepareDeadlineExpiry (s : State) : Result := .next (whenOperating prepareDeadline s)

/-- The arm deadline expires in ARMED (R76). -/
def armDeadline (s : State) : State :=
  match s.commit.state, s.commit.armDl with
  | .armed, some t =>
      let s := advanceTo t s
      finishEvent s.port.completions.length (enterCancelling .noBoundary s)
  | _, _ => s

/-- ARM_DEADLINE_EXPIRY (R76). -/
def execArmDeadlineExpiry (s : State) : Result := .next (whenOperating armDeadline s)

/-- The references of the UNCONFIRMED participants, in ascending handle order. -/
def unconfirmedRefs (s : State) : List Ref :=
  (s.commit.participants.filter (fun p => p.status == .unconfirmed)).map (fun p => p.ref)

/-- The apply deadline expires in APPLYING (R81): every UNCONFIRMED participant becomes LAGGING. The controller then
returns to IDLE in the same event, which removes the commit's queued transactions and drops those on the wire (R83). -/
def applyDeadline (s : State) : State :=
  match s.commit.state, s.commit.applyDl with
  | .applying, some t =>
      let s := advanceTo t s
      finishEvent s.port.completions.length (forEach (unconfirmedRefs s) makeLagging s)
  | _, _ => s

/-- APPLY_DEADLINE_EXPIRY (R81). -/
def execApplyDeadlineExpiry (s : State) : Result := .next (whenOperating applyDeadline s)

end Sys2Proof.Machine
end

