-- ==== Sys2Proof/Machine/Links.lean ====
section
/-! DEFINITION. The link requests (R109, R110, R123 to R125), RESCAN (R138) and the events of a link: lock, loss of lock,
replies, timers. -/

namespace Sys2Proof.Machine

/-! ### LINK_ENABLE and LINK_DISABLE (R109, R110) -/

/-- A DISABLED link enters TRAINING; another link is left alone (R106, R109). -/
def enableLink (l : LinkId) (s : State) : State :=
  if (s.links.get l).state = .disabled then modLink l (LinkEngine.down .training s.now) s else s

/-- LINK_ENABLE once accepted (R109). -/
def linkEnable (link : Byte) (tag : Tag) (s : State) : State :=
  match linkOf link with
  | none => answer .linkEnable .badParameter tag s
  | some l => answerOk .linkEnable [] tag (enableLink l s)

/-- LINK_ENABLE (R109). -/
def execLinkEnable (tag link : Byte) (s : State) : Result := .next (submit 1 tag (linkEnable link) s)

/-- LINK_DISABLE once accepted (R110). -/
def linkDisable (link : Byte) (tag : Tag) (s : State) : State :=
  match linkOf link with
  | none => answer .linkDisable .badParameter tag s
  | some l =>
    match (s.links.get l).state with
    | .disabled => answerOk .linkDisable [] tag s
    | .training => answerOk .linkDisable [] tag (modLink l (LinkEngine.down .disabled s.now) s)
    | .scanning => finishEvent s.port.completions.length (answerOk .linkDisable [] tag (takeDown l .disabled s))
    | .running => finishEvent s.port.completions.length (answerOk .linkDisable [] tag (takeDown l .disabled s))

/-- LINK_DISABLE (R110). -/
def execLinkDisable (tag link : Byte) (s : State) : Result := .next (submit 1 tag (linkDisable link) s)

/-! ### LINK_STATUS (R125) -/

/-- The kind and class of the transaction in flight, or FFh FFh when none is (R125). -/
def flightBytes : Option Flight → List Byte
  | some f => [f.txn.body.code, f.txn.cls.code]
  | none => absentBytes 2

/-- The four timing settings in the order of R123. -/
def Timing.bytes (t : Timing) : List Byte := [u8 t.timeout, u8 t.retries, u8 t.missLimit, u8 t.interval]

/-- The result of a LINK_STATUS (R125). -/
def linkStatusResult (e : LinkEngine) : List Byte :=
  [e.state.code, u8 e.reach] ++ e.hops.flatMap HopEntry.bytes ++ e.timing.bytes ++ [markByte e.noLockMark]
    ++ flightBytes e.flight
    ++ [u8 e.commitQ.length, u8 e.scanQ.length, u8 e.hostQ.length, u8 e.catchQ.length, markByte e.rollDue]

/-- LINK_STATUS once accepted (R125). -/
def linkStatus (link : Byte) (tag : Tag) (s : State) : State :=
  match linkOf link with
  | none => answer .linkStatus .badParameter tag s
  | some l => answerOk .linkStatus (linkStatusResult (s.links.get l)) tag s

/-- LINK_STATUS (R125). -/
def execLinkStatus (tag link : Byte) (s : State) : Result := .next (submit 1 tag (linkStatus link) s)

/-! ### SET_TIMING and SET_DEADLINES (R123, R124) -/

/-- A link whose periodic roll call is still to become due in the present interval: RUNNING, and not due in it before, since the
due mark is not repeated (R121; log 28). A roll call in flight that began before the moment does not keep it from becoming due. -/
def LinkEngine.awaitsRoll (e : LinkEngine) : Bool := e.state == .running && !e.rollDue && !e.rollMet

/-- The periodic roll call becomes due (R121). -/
def LinkEngine.rollFalls (e : LinkEngine) : LinkEngine := { e with rollDue := true, rollMet := true }

/-- A new miss limit acts on the records of the link (R123). -/
def missUnder (l : LinkId) (limit : Nat) (r : Record) : Record :=
  if r.loc.link = l then
    (if r.reachable then (if limit ≤ r.miss then { r with miss := limit - 1 } else r)
     else (if limit < r.miss then { r with miss := limit } else r))
  else r

/-- The timing settings of a link take new values (R123): the miss counts follow the miss limit, and the roll call is due
at once if its new interval has passed. -/
def newTiming (l : LinkId) (t : Timing) (s : State) : State :=
  let s := modDir (fun d => { d with records := d.records.map (missUnder l t.missLimit) }) s
  modLink l (fun e =>
    let e' := { e with timing := t }
    if e.awaitsRoll ∧ e'.rollMoment ≤ s.now then e'.rollFalls else e') s

/-- The settings a SET_TIMING may give (R123). -/
def timingOk (t : Timing) : Bool :=
  decide (1 ≤ t.timeout) && decide (t.retries ≤ 7) && decide (1 ≤ t.missLimit ∧ t.missLimit ≤ 15) && decide (1 ≤ t.interval)

/-- SET_TIMING once accepted (R123). -/
def setTiming (link timeout retries missLimit interval : Byte) (tag : Tag) (s : State) : State :=
  match linkOf link with
  | none => answer .setTiming .badParameter tag s
  | some l =>
      let t : Timing := ⟨timeout.toNat, retries.toNat, missLimit.toNat, interval.toNat⟩
      if timingOk t then arbitrate l (answerOk .setTiming [] tag (newTiming l t s))
      else answer .setTiming .outOfRange tag s

/-- SET_TIMING (R123). -/
def execSetTiming (tag link timeout retries missLimit interval : Byte) (s : State) : Result :=
  .next (submit 5 tag (setTiming link timeout retries missLimit interval) s)

/-- A deadline of 1..1000 ms (R124). -/
def deadlineOk (h : Half) : Bool := decide (1 ≤ h.toNat ∧ h.toNat ≤ 1000)

/-- SET_DEADLINES once accepted (R124). -/
def setDeadlines (prepare arm apply : Half) (tag : Tag) (s : State) : State :=
  if deadlineOk prepare && deadlineOk arm && deadlineOk apply then
    answerOk .setDeadlines [] tag
      (modCommit (fun c => { c with lengths := ⟨prepare.toNat, arm.toNat, apply.toNat⟩ }) s)
  else answer .setDeadlines .outOfRange tag s

/-- SET_DEADLINES (R124). -/
def execSetDeadlines (tag : Byte) (prepare arm apply : Half) (s : State) : Result :=
  .next (submit 6 tag (setDeadlines prepare arm apply) s)

/-! ### RESCAN (R138) -/

/-- The ASSIGN of an assignment in progress still waits in the scan class. -/
def LinkEngine.assignWaits (e : LinkEngine) (a : Assignment) : Bool :=
  e.scanQ.any (fun t => t.req == .scanStep false && t.body == .assign a.ref)

/-- The link goes to SCANNING: no roll call due, the scan class emptied, the result of a hop-scan ENUM_QUERY on the wire
discarded (R138). -/
def LinkEngine.enterRescan (e : LinkEngine) : LinkEngine :=
  LinkEngine.dropFlight (fun t => t.req == .scanStep false && t.body == .enumQuery)
    { e with state := .scanning, rollDue := false, rollMet := false, scanQ := [] }

/-- A RESCAN of a RUNNING link is accepted (R138): a waiting scan-step ASSIGN is abandoned and the full scan begins. -/
def acceptRescan (l : LinkId) (tag : Tag) (s : State) : State :=
  let e := s.links.get l
  let s := modLink l LinkEngine.enterRescan (holdTag tag (.rescan l) s)
  let s := match e.assigning with
    | some a => if e.assignWaits a then dropAssignment l a s else s
    | none => s
  beginScan l (some tag) s

/-- RESCAN once accepted at the port (R138). -/
def rescan (link : Byte) (tag : Tag) (s : State) : State :=
  match linkOf link with
  | none => answer .rescan .badParameter tag s
  | some l =>
    match (s.links.get l).state with
    | .disabled => answer .rescan .notReachable tag s
    | .training => answer .rescan .notReachable tag s
    | .scanning => answer .rescan .busy tag s
    | .running => finishLinks s.port.completions.length (acceptRescan l tag s)

/-- RESCAN (R138). -/
def execRescan (tag link : Byte) (s : State) : Result := .next (submit 1 tag (rescan link) s)

/-! ### Lock (R106, R107) -/

/-- The upstream receiver locks in TRAINING (R106): the no-lock timer stops and the full scan begins. -/
def lockAchieved (l : LinkId) (s : State) : State :=
  if (s.links.get l).state = .training then
    arbitrate l (beginScan l none (modLink l (fun e => { e with noLockTimer := none, noLockMark := false }) s))
  else s

/-- LOCK_ACHIEVED (R106). -/
def execLockAchieved (l : LinkId) (s : State) : Result := .next (whenOperating (lockAchieved l) s)

/-- Lock is lost in SCANNING or RUNNING (R107). -/
def lockLoss (l : LinkId) (s : State) : State :=
  if (s.links.get l).isUp then finishEvent s.port.completions.length (takeDown l .training s) else s

/-- LOCK_LOSS (R107). -/
def execLockLoss (l : LinkId) (s : State) : Result := .next (whenOperating (lockLoss l) s)

/-- The no-lock timer expires in TRAINING (R106). -/
def noLockExpiry (l : LinkId) (s : State) : State :=
  match (s.links.get l).state, (s.links.get l).noLockTimer with
  | .training, some t =>
      raiseLink l .noLock (modLink l (fun e => { e with noLockTimer := none, noLockMark := true }) (advanceTo t s))
  | _, _ => s

/-- NO_LOCK_EXPIRY (R106). -/
def execNoLockExpiry (l : LinkId) (s : State) : Result := .next (whenOperating (noLockExpiry l) s)

/-! ### Replies, timeouts and broadcasts (R111, R113, R114, R122) -/

/-- The reply of an attempt whose timer has expired, behind the expiry at the same moment: a good answer to that attempt's packet. The
attempt has failed, and the next one's packet has not left the hub (R113; log 48). -/
def lateReply (s : State) (l : LinkId) (bytes : List Byte) : Bool :=
  match (s.links.get l).expired with
  | some x =>
    x.moment == s.now && (match judgeReply x.body x.seq bytes with
      | .good _ _ => true
      | _ => false)
  | none => false

/-- No reply of an expired attempt is to come any more (R113; log 48). -/
def forgetExpiry (l : LinkId) : State → State := modLink l (fun e => { e with expired := none })

/-- An upstream reply arrives (R101, R113): with no attempt waiting, as when it comes behind the expiry of its attempt's timer, or
with another sequence number, it is discarded. -/
def linkReply (l : LinkId) (bytes : List Byte) (s : State) : State :=
  match waitingFlight s l with
  | none => s
  | some f =>
    if lateReply s l bytes then forgetExpiry l s
    else match judgeReply f.txn.body f.seq bytes with
      | .good st reply => finishEvent s.port.completions.length (endReplied l f.txn st reply s)
      | .otherSeq => s
      | .bad => finishEvent s.port.completions.length (attemptFailed l f (forgetExpiry l s))

/-- LINK_REPLY (R113). -/
def execLinkReply (l : LinkId) (bytes : List Byte) (s : State) : Result := .next (whenOperating (linkReply l bytes) s)

/-- The reply timer of an attempt expires now (R113). -/
def timerExpired (l : LinkId) (f : Flight) (s : State) : State :=
  modLink l (fun e => { e with expired := some ⟨s.now, f.txn.body, f.seq⟩ }) s

/-- The reply timer of the waiting attempt expires (R113, R114). -/
def replyTimeout (l : LinkId) (s : State) : State :=
  match waitingFlight s l with
  | none => s
  | some f => finishEvent s.port.completions.length (attemptFailed l f (timerExpired l f (advanceTo f.expires s)))

/-- REPLY_TIMEOUT (R114). -/
def execReplyTimeout (l : LinkId) (s : State) : Result := .next (whenOperating (replyTimeout l) s)

/-- A broadcast packet has left the hub (R111, R122). A reply that comes now is no longer that of an attempt that expired before the
packet went out (log 48). -/
def broadcastSent (l : LinkId) (s : State) : State :=
  if sendsBroadcast s l then finishEvent s.port.completions.length (broadcastDone l (forgetExpiry l s)) else s

/-- BROADCAST_SENT (R111). -/
def execBroadcastSent (l : LinkId) (s : State) : Result := .next (whenOperating (broadcastSent l) s)

/-! ### The periodic roll call (R121) -/

/-- The roll-call interval passes on a RUNNING link (R121). -/
def rollCallDue (l : LinkId) (s : State) : State :=
  if (s.links.get l).awaitsRoll then
    arbitrate l (modLink l LinkEngine.rollFalls (advanceTo (s.links.get l).rollMoment s))
  else s

/-- ROLL_CALL_DUE (R121). -/
def execRollCallDue (l : LinkId) (s : State) : Result := .next (whenOperating (rollCallDue l) s)

end Sys2Proof.Machine
end

