-- ==== Sys2Proof/Machine/Lookups.lean ====
section
/-! DEFINITION. The requests of the Tile Directory and the grace timer (chapter 1): LOOKUP_ID, LOOKUP_POS, DESCRIBE,
LIST, SET_GRACE, RETIRE and GRACE_EXPIRY. -/

namespace Sys2Proof.Machine

/-! ### LOOKUP_ID and LOOKUP_POS (R22, R23) -/

/-- A handle reference and a record state, as the lookups return them. -/
def Record.refState (r : Record) : List Byte := refBytes r.ref ++ [r.state.code]

/-- LOOKUP_ID once accepted (R22). -/
def lookupId (uid : Uid) (tag : Tag) (s : State) : State :=
  match findUid s uid with
  | some r => answerOk .lookupId r.refState tag s
  | none => answer .lookupId .noSuchHandle tag s

/-- LOOKUP_ID (R22). -/
def execLookupId (tag : Byte) (uid : Uid) (s : State) : Result := .next (submit 8 tag (lookupId uid) s)

/-- LOOKUP_POS once accepted (R23). -/
def lookupPos (col row : Byte) (tag : Tag) (s : State) : State :=
  if 31 < col.toNat ∨ 31 < row.toNat then answer .lookupPos .outOfRange tag s
  else match cellHolder s ⟨col.toNat, row.toNat⟩ with
    | some r => answerOk .lookupPos r.refState tag s
    | none => answer .lookupPos .noSuchHandle tag s

/-- LOOKUP_POS (R23). -/
def execLookupPos (tag col row : Byte) (s : State) : Result := .next (submit 2 tag (lookupPos col row) s)

/-! ### DESCRIBE (R24) -/

/-- A position in 2 bytes, FFh FFh when absent (R191). -/
def optCellBytes : Option Cell → List Byte
  | some c => [u8 c.col, u8 c.row]
  | none => absentBytes 2

/-- The stale reason, or FFh. -/
def staleReasonByte (i : Option StaleInfo) : Byte :=
  match i with
  | some i => i.reason.code
  | none => filler

/-- The grace time of a STALE record in whole seconds, held at 65535, or FFFFh (R24). -/
def graceBytes (now : Nat) (i : Option StaleInfo) : List Byte :=
  match i with
  | some i => u16 (min ((now - i.since) / Config.ticksPerSecond) 65535)
  | none => absentBytes 2

/-- The round number and the phase of a catch-up job, or FFh FFh (R24). -/
def optJobBytes : Option Job → List Byte
  | some j => [u8 j.round, j.phase.code]
  | none => absentBytes 2

/-- The expiry of a STALE record is deferred (R24). -/
def expiryDeferred (s : State) (r : Record) : Bool := s.commit.state ≠ .idle && graceReached s.now s.dir.grace r

/-- Every field of a record, in the order of R24. -/
def describeResult (s : State) (r : Record) : List Byte :=
  refBytes r.ref ++ uidBytes r.uid ++ halfBytes r.model ++ [u8 r.capacity, r.state.code]
    ++ [u8 r.loc.link.val, u8 r.loc.hop, markByte (r.state = .stale)]
    ++ optCellBytes r.pos
    ++ halfBytes r.groups ++ halfBytes r.synced ++ [u8 r.miss]
    ++ [staleReasonByte r.stale] ++ graceBytes s.now r.stale
    ++ optJobBytes (findJob s r.ref)
    ++ [markByte (expiryDeferred s r)]

/-- DESCRIBE once accepted (R24). -/
def describe (ref : Ref) (tag : Tag) (s : State) : State :=
  match checkRef s ref with
  | .noSuchHandle => answer .describe .noSuchHandle tag s
  | .staleHandle => answer .describe .staleHandle tag s
  | .names r => answerOk .describe (describeResult s r) tag s

/-- DESCRIBE (R24). -/
def execDescribe (tag : Byte) (ref : RefField) (s : State) : Result := .next (submit 2 tag (describe (refOf ref)) s)

/-! ### LIST (R25) -/

/-- The references a LIST returns: those of the records in a filtered state, from the cursor upwards, up to 8 (R25). -/
def listed (s : State) (filter : Byte) (cursor : Nat) : List Ref :=
  ((s.dir.records.filter (fun r => filterHolds filter r.state && decide (cursor ≤ r.ref.handle))).map Record.ref).take
    Config.listingLength

/-- The next cursor of LIST (R25). -/
def nextHandle (refs : List Ref) : Nat :=
  match refs.getLast? with
  | some r => if refs.length = Config.listingLength ∧ r.handle < Config.maxHandle then r.handle + 1 else 0
  | none => 0

/-- LIST once accepted (R25). A filter bit that stands for no state, an empty filter, and a cursor outside 1..80
complete BAD_PARAMETER. -/
def list (filter cursor : Byte) (tag : Tag) (s : State) : State :=
  if 15 < filter.toNat ∨ filter = 0 ∨ cursor = 0 ∨ Config.maxHandle < cursor.toNat then answer .list .badParameter tag s
  else
    let refs := listed s filter cursor.toNat
    answerOk .list (refs.flatMap refBytes ++ [u8 (nextHandle refs)]) tag s

/-- LIST (R25). -/
def execList (tag filter cursor : Byte) (s : State) : Result := .next (submit 2 tag (list filter cursor) s)

/-! ### SET_GRACE and the grace timer (R14 to R16) -/

/-- SET_GRACE once accepted (R16): with the commit controller IDLE the records already past a non-zero period expire. -/
def setGrace (seconds : Byte) (tag : Tag) (s : State) : State :=
  let n := s.port.completions.length
  let s := modDir (fun d => { d with grace := seconds.toNat }) s
  let s := answerOk .setGrace [] tag s
  if s.commit.state = .idle then finishLinks n (expireAll s) else s

/-- SET_GRACE (R16). -/
def execSetGrace (tag seconds : Byte) (s : State) : Result := .next (submit 1 tag (setGrace seconds) s)

/-- The moment at which the record of a handle expires: a STALE record, a grace period other than 0 (R14). -/
def expiryTime (s : State) (h : Nat) : Option Nat :=
  match findRec s h with
  | some r =>
      match r.stale with
      | some i => if s.dir.grace = 0 then none else some (i.since + s.dir.grace * Config.ticksPerSecond)
      | none => none
  | none => none

/-- The records up to and including a handle in a list of handles. -/
def upTo (h : Nat) : List Nat → List Nat
  | [] => []
  | x :: xs => if x = h then [x] else x :: upTo h xs

/-- The grace time of a record reaches the grace period (R14): with the commit controller IDLE the expired records up to
it in stale-list order are retired; otherwise its expiry is deferred (R15). -/
def graceExpiry (h : Nat) (s : State) : State :=
  match expiryTime s h with
  | none => s
  | some t =>
      let s := advanceTo t s
      if s.commit.state = .idle then
        finishLinks s.port.completions.length (forEach (upTo h (expiredHandles s)) retire s)
      else s

/-- GRACE_EXPIRY (R14, R15). -/
def execGraceExpiry (h : Nat) (s : State) : Result := .next (whenOperating (graceExpiry h) s)

/-! ### RETIRE (R18, R19) -/

/-- A handle is named by a staged change or stands in the commit's participant set (R18). -/
def heldByCommit (s : State) (r : Record) : Bool :=
  s.commit.state ≠ .idle && (s.staging.any (Change.namesHandle r.ref.handle) || s.commit.participants.any (fun p => p.ref == r.ref))

/-- The two further steps of a forced retire of a reachable record on its link (R19). -/
def retireHop (loc : Loc) (s : State) : State :=
  modLink loc.link (fun e => { e with scanQ := e.scanQ ++ [clearTxn loc.hop] }) (setUnlisted loc.link loc.hop .retired s)

/-- The retirement a RETIRE carries out (R17, R19). -/
def retireRecord (r : Record) (s : State) : State :=
  let s' := retire r.ref.handle s
  if r.reachable then retireHop r.loc s' else s'

/-- RETIRE once accepted (R18). -/
def retireRequest (ref : Ref) (force : Byte) (tag : Tag) (s : State) : State :=
  match flagOf force with
  | none => answer .retire .badParameter tag s
  | some f =>
    match checkRef s ref with
    | .noSuchHandle => answer .retire .noSuchHandle tag s
    | .staleHandle => answer .retire .staleHandle tag s
    | .names r =>
        if r.reachable ∧ !f then answer .retire .inUse tag s
        else if heldByCommit s r then answer .retire .busy tag s
        else finishLinks s.port.completions.length (answerOk .retire (refBytes r.ref) tag (retireRecord r s))

/-- RETIRE (R18). -/
def execRetire (tag : Byte) (ref : RefField) (force : Byte) (s : State) : Result :=
  .next (submit 3 tag (retireRequest (refOf ref) force) s)

end Sys2Proof.Machine
end

