-- ==== Sys2Proof/Machine/Settings.lean ====
section
/-! DEFINITION. The requests of the Key Table and the Setting Store (chapter 2): DEFINE_KEY, UNDEFINE_KEY,
DESCRIBE_KEY, READ_ENTRY, LIST_ENTRIES and RESOLVE. -/

namespace Sys2Proof.Machine

/-- Key numbers run to 63 (R29). -/
def badKeyNumber (key : Byte) : Bool := decide (63 < key.toNat)

/-! ### DEFINE_KEY and UNDEFINE_KEY (R30, R32, R33) -/

/-- The key record a DEFINE_KEY creates (R30). -/
def newKey (key addr : Byte) (dflt min max : Half) : KeyRec :=
  { number := key.toNat, addr := addr, dflt := dflt, min := min, max := max, introduced := true }

/-- DEFINE_KEY once accepted (R30). -/
def defineKey (key addr : Byte) (dflt min max : Half) (tag : Tag) (s : State) : State :=
  if badKeyNumber key then answer .defineKey .badParameter tag s
  else if s.commit.state ≠ .idle then answer .defineKey .busy tag s
  else if s.keys.any (fun k => k.number == key.toNat || k.addr == addr) then answer .defineKey .inUse tag s
  else if 240 ≤ addr.toNat ∨ dflt < min ∨ max < dflt then answer .defineKey .outOfRange tag s
  else answerOk .defineKey [key] tag (setKeys (insertKey (newKey key addr dflt min max) s.keys) s)

/-- DEFINE_KEY (R30). -/
def execDefineKey (tag key addr : Byte) (dflt min max : Half) (s : State) : Result :=
  .next (submit 8 tag (defineKey key addr dflt min max) s)

/-- A key leaves the Key Table (R32, R33): if it was not introduced the committed view has changed and every catch-up job
restarts. -/
def removeKey (k : KeyRec) (s : State) : State :=
  let s := setKeys (s.keys.filter (fun x => x.number != k.number)) s
  if k.introduced then s else restartAllJobs s

/-- UNDEFINE_KEY once accepted (R32). -/
def undefineKey (key : Byte) (tag : Tag) (s : State) : State :=
  if badKeyNumber key then answer .undefineKey .badParameter tag s
  else if s.commit.state ≠ .idle then answer .undefineKey .busy tag s
  else match findKey s key.toNat with
    | none => answer .undefineKey .keyUndefined tag s
    | some k =>
        if s.store.any (fun e => e.key == k.number) ∨ s.staging.any (Change.namesKey k.number) then
          answer .undefineKey .inUse tag s
        else finishLinks s.port.completions.length (answerOk .undefineKey [key] tag (removeKey k s))

/-- UNDEFINE_KEY (R32). -/
def execUndefineKey (tag key : Byte) (s : State) : Result := .next (submit 1 tag (undefineKey key) s)

/-! ### DESCRIBE_KEY (R34) -/

/-- The number of store entries naming a key (R34). -/
def entryCount (s : State) (n : Nat) : Nat := (s.store.filter (fun e => e.key == n)).length

/-- The number of staged SET and CLEAR changes naming a key (R34). -/
def stagedCount (s : State) (n : Nat) : Nat := (s.staging.filter (Change.namesKey n)).length

/-- The key record and its two counts (R34). -/
def describeKeyResult (s : State) (k : KeyRec) : List Byte :=
  [u8 k.number, k.addr] ++ halfBytes k.dflt ++ halfBytes k.min ++ halfBytes k.max ++ [markByte k.introduced]
    ++ u16 (entryCount s k.number) ++ [u8 (stagedCount s k.number)]

/-- DESCRIBE_KEY once accepted (R34). -/
def describeKey (key : Byte) (tag : Tag) (s : State) : State :=
  if badKeyNumber key then answer .describeKey .badParameter tag s
  else match findKey s key.toNat with
    | none => answer .describeKey .keyUndefined tag s
    | some k => answerOk .describeKey (describeKeyResult s k) tag s

/-- DESCRIBE_KEY (R34). -/
def execDescribeKey (tag key : Byte) (s : State) : Result := .next (submit 1 tag (describeKey key) s)

/-! ### READ_ENTRY (R39) -/

/-- The check of the handle reference of a TILE scope; a scope of another kind passes (R39, R50, R58). -/
def scopeFailure (s : State) : Scope → Option Status
  | .tile r => (checkRef s r).failure
  | _ => none

/-- READ_ENTRY once accepted (R39). -/
def readEntry (scope : ScopeField) (key : Byte) (tag : Tag) (s : State) : State :=
  match scopeOf scope with
  | none => answer .readEntry .badParameter tag s
  | some sc =>
      if badKeyNumber key ∨ !scopeGroupOk sc then answer .readEntry .badParameter tag s
      else match scopeFailure s sc with
        | some st => answer .readEntry st tag s
        | none =>
            if (findKey s key.toNat).isNone then answer .readEntry .keyUndefined tag s
            else match findEntry s.store sc key.toNat with
              | some e => answerOk .readEntry (halfBytes e.value) tag s
              | none => answer .readEntry .empty tag s

/-- READ_ENTRY (R39). -/
def execReadEntry (tag : Byte) (scope : ScopeField) (key : Byte) (s : State) : Result :=
  .next (submit 4 tag (readEntry scope key) s)

/-! ### LIST_ENTRIES (R40) -/

/-- An entry as LIST_ENTRIES returns it (R40). -/
def Entry.bytes (e : Entry) : List Byte := scopeBytes e.scope ++ [u8 e.key] ++ halfBytes e.value

/-- The entries a LIST_ENTRIES returns: those at or after a place of the listing order, up to 8 (R40). -/
def entriesFrom (s : State) (rank : Nat) : List Entry :=
  (s.store.filter (fun e => decide (rank ≤ e.rank))).take Config.listingLength

/-- The next cursor of LIST_ENTRIES: the place just after the eighth entry, or the end marker (R40). -/
def nextPlace (es : List Entry) : List Byte :=
  match es.getLast? with
  | some e => if es.length = Config.listingLength ∧ e.rank < lastRank then cursorBytes (e.rank + 1) else absentBytes 3
  | none => absentBytes 3

/-- LIST_ENTRIES once accepted (R40). -/
def listEntries (cursor : CursorField) (tag : Tag) (s : State) : State :=
  match cursorRank cursor with
  | none => answer .listEntries .badParameter tag s
  | some rank =>
      let es := entriesFrom s rank
      answerOk .listEntries (es.flatMap Entry.bytes ++ nextPlace es ++ u16 s.store.length) tag s

/-- LIST_ENTRIES (R40). -/
def execListEntries (tag : Byte) (cursor : CursorField) (s : State) : Result :=
  .next (submit 3 tag (listEntries cursor) s)

/-! ### RESOLVE (R43) -/

/-- The result of a RESOLVE: the effective value in the committed view, its source, the pending-introduction mark. -/
def resolveResult (s : State) (r : Record) (k : KeyRec) : List Byte :=
  let x := effective (committedView s) ⟨r.ref, r.groups, r.pos⟩ k
  halfBytes x.1 ++ x.2.bytes ++ [markByte k.introduced]

/-- RESOLVE once accepted (R43). -/
def resolve (ref : Ref) (key : Byte) (tag : Tag) (s : State) : State :=
  if badKeyNumber key then answer .resolve .badParameter tag s
  else match checkRef s ref with
    | .noSuchHandle => answer .resolve .noSuchHandle tag s
    | .staleHandle => answer .resolve .staleHandle tag s
    | .names r =>
      match findKey s key.toNat with
      | none => answer .resolve .keyUndefined tag s
      | some k => answerOk .resolve (resolveResult s r k) tag s

/-- RESOLVE (R43). -/
def execResolve (tag : Byte) (ref : RefField) (key : Byte) (s : State) : Result :=
  .next (submit 3 tag (resolve (refOf ref) key) s)

end Sys2Proof.Machine
end

