-- ==== Sys2Proof/Machine/Staging.lean ====
section
/-! DEFINITION. The requests of the Staging List (chapter 3): STAGE_SET, STAGE_CLEAR, STAGE_PLACE, STAGE_UNPLACE,
STAGE_GROUPS, DISCARD and STAGING_LIST. -/

namespace Sys2Proof.Machine

/-! ### Staging a change (R50 to R54) -/

/-- The completion of a stage request that passed every check (R54): the kind of the change, ADDED 00h or REPLACED 01h,
its index, and the count after the request. -/
def stagedResult (c : Change) (replaced : Bool) (index count : Nat) : List Byte :=
  [c.code, markByte replaced, u8 index, u8 count]

/-- A change that passed its own checks takes its place in the list (R50 check 6, R54). -/
def stageChange (kind : ReqKind) (c : Change) (tag : Tag) (s : State) : State :=
  match targetIndex s.staging c.target with
  | some i => answerOk kind (stagedResult c true i s.staging.length) tag (setStaging (s.staging.set i c) s)
  | none =>
      if Config.stagingCapacity ≤ s.staging.length then answer kind .full tag s
      else answerOk kind (stagedResult c false s.staging.length (s.staging.length + 1)) tag (setStaging (s.staging ++ [c]) s)

/-- The checks of R50 that STAGE_SET and STAGE_CLEAR share: the fields, the commit state, the reference and the key. -/
def stageEntryCheck (scope : ScopeField) (key : Byte) (s : State) : Except Status (Scope × KeyRec) :=
  match scopeOf scope with
  | none => .error .badParameter
  | some sc =>
      if badKeyNumber key ∨ !scopeGroupOk sc then .error .badParameter
      else if s.commit.state ≠ .idle then .error .busy
      else match scopeFailure s sc with
        | some st => .error st
        | none =>
          match findKey s key.toNat with
          | none => .error .keyUndefined
          | some k => .ok (sc, k)

/-- The checks of R50 that every stage request of a record makes: the commit state and the reference. -/
def stageRefCheck (ref : Ref) (s : State) : Option Status :=
  if s.commit.state ≠ .idle then some .busy else (checkRef s ref).failure

/-- STAGE_SET once accepted (R50, R51). -/
def stageSet (scope : ScopeField) (key : Byte) (value : Half) (tag : Tag) (s : State) : State :=
  match stageEntryCheck scope key s with
  | .error st => answer .stageSet st tag s
  | .ok (sc, k) =>
      if value < k.min ∨ k.max < value then answer .stageSet .outOfRange tag s
      else stageChange .stageSet (.setVal sc k.number value) tag s

/-- STAGE_SET (R51). -/
def execStageSet (tag : Byte) (scope : ScopeField) (key : Byte) (value : Half) (s : State) : Result :=
  .next (submit 6 tag (stageSet scope key value) s)

/-- STAGE_CLEAR once accepted (R50, R51). -/
def stageClear (scope : ScopeField) (key : Byte) (tag : Tag) (s : State) : State :=
  match stageEntryCheck scope key s with
  | .error st => answer .stageClear st tag s
  | .ok (sc, k) => stageChange .stageClear (.clearVal sc k.number) tag s

/-- STAGE_CLEAR (R51). -/
def execStageClear (tag : Byte) (scope : ScopeField) (key : Byte) (s : State) : Result :=
  .next (submit 4 tag (stageClear scope key) s)

/-- STAGE_PLACE once accepted (R50, R52). -/
def stagePlace (ref : Ref) (col row displace : Byte) (tag : Tag) (s : State) : State :=
  match flagOf displace with
  | none => answer .stagePlace .badParameter tag s
  | some d =>
    match stageRefCheck ref s with
    | some st => answer .stagePlace st tag s
    | none =>
        if 31 < col.toNat ∨ 31 < row.toNat then answer .stagePlace .outOfRange tag s
        else stageChange .stagePlace (.place ref ⟨col.toNat, row.toNat⟩ d) tag s

/-- STAGE_PLACE (R52). -/
def execStagePlace (tag : Byte) (ref : RefField) (col row displace : Byte) (s : State) : Result :=
  .next (submit 5 tag (stagePlace (refOf ref) col row displace) s)

/-- STAGE_UNPLACE once accepted (R50, R52). -/
def stageUnplace (ref : Ref) (tag : Tag) (s : State) : State :=
  match stageRefCheck ref s with
  | some st => answer .stageUnplace st tag s
  | none => stageChange .stageUnplace (.unplace ref) tag s

/-- STAGE_UNPLACE (R52). -/
def execStageUnplace (tag : Byte) (ref : RefField) (s : State) : Result :=
  .next (submit 2 tag (stageUnplace (refOf ref)) s)

/-- STAGE_GROUPS once accepted (R50, R53). -/
def stageGroups (ref : Ref) (numbers : List Byte) (tag : Tag) (s : State) : State :=
  if numbers.any (fun n => decide (15 < n.toNat)) then answer .stageGroups .badParameter tag s
  else match stageRefCheck ref s with
    | some st => answer .stageGroups st tag s
    | none => stageChange .stageGroups (.groups ref (groupSetOf numbers)) tag s

/-- A STAGE_GROUPS frame with a group count above 16 and that many numbers is refused BAD_FRAME, unless the port is
RESETTING (R175, R191). -/
def refuseCount (count : Nat) (s : State) : State :=
  if s.phase = .inReset then s
  else setAccept (if s.port.state = .resetting then .resetting else .badFrame)
    (shiftedOut (List.replicate (count + 6) filler) s)

/-- STAGE_GROUPS (R53, R191): the parameters are the reference, a count and one byte per group number. -/
def execStageGroups (tag : Byte) (ref : RefField) (numbers : List Byte) (s : State) : Result :=
  .next (if numbers.length ≤ 16 then submit (3 + numbers.length) tag (stageGroups (refOf ref) numbers) s
    else refuseCount numbers.length s)

/-! ### DISCARD (R58) -/

/-- The number removed and the count after a DISCARD (R58). -/
def discardResult (removed count : Nat) : List Byte := [u8 removed, u8 count]

/-- Remove the staged change with a target (R58). -/
def discardTarget (t : Target) (tag : Tag) (s : State) : State :=
  match targetIndex s.staging t with
  | some i => answerOk .discard (discardResult 1 (s.staging.length - 1)) tag (setStaging (s.staging.eraseIdx i) s)
  | none => answer .discard .empty tag s

/-- The numbers in a selector outside their ranges (R58, check 1). -/
def Selector.bad : Selector → Bool
  | .entry sc k => decide (63 < k) || !scopeGroupOk sc
  | _ => false

/-- The check of a selector's handle reference (R58, check 3). -/
def Selector.failure (s : State) : Selector → Option Status
  | .all => none
  | .entry sc _ => scopeFailure s sc
  | .position r => (checkRef s r).failure
  | .groupSet r => (checkRef s r).failure

/-- The target of a selector other than ALL. -/
def Selector.target : Selector → Option Target
  | .all => none
  | .entry sc k => some (.entry sc k)
  | .position r => some (.position r.handle)
  | .groupSet r => some (.groupSet r.handle)

/-- DISCARD once accepted (R58). -/
def discard (f : SelectorField) (tag : Tag) (s : State) : State :=
  match selectorOf f with
  | none => answer .discard .badParameter tag s
  | some sel =>
      if sel.bad then answer .discard .badParameter tag s
      else if s.commit.state ≠ .idle then answer .discard .busy tag s
      else match sel.failure s with
        | some st => answer .discard st tag s
        | none =>
          match sel.target with
          | none => answerOk .discard (discardResult s.staging.length 0) tag (setStaging [] s)
          | some t => discardTarget t tag s

/-- DISCARD (R58). -/
def execDiscard (tag : Byte) (f : SelectorField) (s : State) : Result := .next (submit 7 tag (discard f) s)

/-! ### STAGING_LIST (R59) -/

/-- The fields of a change in the order of R48. -/
def Change.fields : Change → List Byte
  | .setVal sc k v => scopeBytes sc ++ [u8 k] ++ halfBytes v
  | .clearVal sc k => scopeBytes sc ++ [u8 k]
  | .place r c d => refBytes r ++ [u8 c.col, u8 c.row, markByte d]
  | .unplace r => refBytes r
  | .groups r g => refBytes r ++ halfBytes g

/-- A change as STAGING_LIST returns it: its index, its kind and all its fields (R59). -/
def changeBytes (x : Nat × Change) : List Byte := u8 x.1 :: x.2.code :: x.2.fields

/-- The changes a STAGING_LIST returns with their indices: up to 8 from the cursor upwards (R59). -/
def changesFrom (cs : List Change) (cursor : Nat) : List (Nat × Change) :=
  (((List.range cs.length).zip cs).drop cursor).take Config.listingLength

/-- The next cursor of STAGING_LIST: the index after the last change returned when changes stand beyond it, or the end
marker (R59). -/
def nextIndex (cs : List Change) (cursor : Nat) : Byte :=
  if cursor + Config.listingLength < cs.length then u8 (cursor + Config.listingLength) else filler

/-- STAGING_LIST once accepted (R59). -/
def stagingList (cursor : Byte) (tag : Tag) (s : State) : State :=
  if 63 < cursor.toNat then answer .stagingList .badParameter tag s
  else answerOk .stagingList
    ([u8 s.staging.length] ++ (changesFrom s.staging cursor.toNat).flatMap changeBytes ++ [nextIndex s.staging cursor.toNat])
    tag s

/-- STAGING_LIST (R59). -/
def execStagingList (tag cursor : Byte) (s : State) : Result := .next (submit 1 tag (stagingList cursor) s)

end Sys2Proof.Machine
end

