-- ==== Sys2Proof/Machine/Tiles.lean ====
section
/-! DEFINITION. TILE_READ and TILE_WRITE (chapter 9). -/

namespace Sys2Proof.Machine

/-- An address bound to the hub (R166, R167): one a defined key names, or a position parameter's. -/
def addressBound (s : State) (addr : Byte) : Bool :=
  s.keys.any (fun k => k.addr == addr) || addr == columnAddr || addr == rowAddr

/-- A refusal at acceptance; the completion repeats the request's fields (R169). -/
def refuseDirect (r : Running) (st : Status) (tag : Tag) : State → State := complete tag r.kind st 0 r.fields

/-- The transaction of a direct access (R168). -/
def directTxn (hop : Nat) (body : Body) (tag : Tag) : Txn :=
  { dest := .directed hop, body := body, cls := .host, req := .tag tag }

/-- A direct access that passed its checks joins the tail of the host class of its record's link (R168). -/
def queueDirect (r : Running) (loc : Loc) (body : Body) (tag : Tag) (s : State) : State :=
  modLink loc.link (fun e => { e with hostQ := e.hostQ ++ [directTxn loc.hop body tag] }) (holdTag tag r s)

/-- The checks that both requests share (R166, checks 1 and 2). -/
def directCheck (s : State) (ref : Ref) : Except Status Record :=
  match checkRef s ref with
  | .noSuchHandle => .error .noSuchHandle
  | .staleHandle => .error .staleHandle
  | .names r => if r.reachable then .ok r else .error .notReachable

/-- TILE_READ once accepted (R166, R168). -/
def tileRead (ref : Ref) (addr : Byte) (tag : Tag) (s : State) : State :=
  match directCheck s ref with
  | .error st => refuseDirect (.tileRead ref addr) st tag s
  | .ok r => arbitrate r.loc.link (queueDirect (.tileRead ref addr) r.loc (.paramRead addr) tag s)

/-- TILE_READ (R166). -/
def execTileRead (tag : Byte) (ref : RefField) (addr : Byte) (s : State) : Result :=
  .next (submit 3 tag (tileRead (refOf ref) addr) s)

/-- TILE_WRITE once accepted (R166 to R168). -/
def tileWrite (ref : Ref) (addr : Byte) (value : Half) (tag : Tag) (s : State) : State :=
  match directCheck s ref with
  | .error st => refuseDirect (.tileWrite ref addr value) st tag s
  | .ok r =>
      if addressBound s addr then refuseDirect (.tileWrite ref addr value) .keyBound tag s
      else arbitrate r.loc.link (queueDirect (.tileWrite ref addr value) r.loc (.paramWrite addr value) tag s)

/-- TILE_WRITE (R166). -/
def execTileWrite (tag : Byte) (ref : RefField) (addr : Byte) (value : Half) (s : State) : Result :=
  .next (submit 5 tag (tileWrite (refOf ref) addr value) s)

end Sys2Proof.Machine
end

