-- ==== Sys2Proof/Machine/Submit.lean ====
section
/-! DEFINITION. A SUBMIT given as the raw bytes of its frame (R175), an SPI transaction given as its raw bytes (R174, R192), and
what an idle hub does. -/

namespace Sys2Proof.Machine

/-- A request of a good frame runs as the command it spells; a command that is no request changes nothing. -/
def runRequest (i : Instr) (s : State) : Result :=
  match i with
  | .lookupId t u => execLookupId t u s
  | .lookupPos t c r => execLookupPos t c r s
  | .describe t f => execDescribe t f s
  | .list t f c => execList t f c s
  | .setGrace t n => execSetGrace t n s
  | .retire t f x => execRetire t f x s
  | .defineKey t k a d lo hi => execDefineKey t k a d lo hi s
  | .undefineKey t k => execUndefineKey t k s
  | .describeKey t k => execDescribeKey t k s
  | .readEntry t sc k => execReadEntry t sc k s
  | .listEntries t c => execListEntries t c s
  | .resolve t f k => execResolve t f k s
  | .stageSet t sc k v => execStageSet t sc k v s
  | .stageClear t sc k => execStageClear t sc k s
  | .stagePlace t f c r d => execStagePlace t f c r d s
  | .stageUnplace t f => execStageUnplace t f s
  | .stageGroups t f ns => execStageGroups t f ns s
  | .discard t f => execDiscard t f s
  | .stagingList t c => execStagingList t c s
  | .commit t p => execCommit t p s
  | .abort t => execAbort t s
  | .commitStatus t => execCommitStatus t s
  | .setFrame t p e => execSetFrame t p e s
  | .boundaryNow t => execBoundaryNow t s
  | .linkEnable t l => execLinkEnable t l s
  | .linkDisable t l => execLinkDisable t l s
  | .linkStatus t l => execLinkStatus t l s
  | .setTiming t l a b c d => execSetTiming t l a b c d s
  | .setDeadlines t p a b => execSetDeadlines t p a b s
  | .rescan t l => execRescan t l s
  | .tileRead t f a => execTileRead t f a s
  | .tileWrite t f a v => execTileWrite t f a v s
  | .attention t => execAttention t s
  | .setAttnMask t m => execSetAttnMask t m s
  | .identify t => execIdentify t s
  | .clearLinks t => execClearLinks t s
  | .clearAll t => execClearAll t s
  | _ => .next s

/-- A SUBMIT refused with a result (R175): the last acceptance result is replaced, and nothing else of the hub changes. -/
def refuseSubmit (a : AcceptResult) (frame : List Byte) (s : State) : State :=
  setAccept a (shiftedOut (List.replicate frame.length filler) s)

/-- A SUBMIT whose frame the port judges at CS_N rising (R175): refused RESETTING, BAD_FRAME, UNKNOWN_REQUEST or TAG_IN_USE.
Bytes that form an acceptable frame are accepted, and their request runs (log 22). -/
def submitFrame (frame : List Byte) (s : State) : Result :=
  if s.phase = .inReset then .next s
  else if s.port.state = .resetting then .next (refuseSubmit .resetting frame s)
  else match judgeFrame frame with
    | .badFrame => .next (refuseSubmit .badFrame frame s)
    | .unknownRequest => .next (refuseSubmit .unknownRequest frame s)
    | .good (.request i) => runRequest i s
    | .good (.badClear t) => .next (submit 1 t (answer .clear .badParameter) s)

/-- SUBMIT_REFUSED (R175). -/
def execSubmitRefused (frame : List Byte) (s : State) : Result := submitFrame frame s

/-- VOID_TRANSACTION (R174, R192), given as the bytes of an SPI transaction: with a first byte that names no kind it is void, and
filler is shifted out for each byte; with none complete nothing is. Bytes whose first names a kind are a transaction of that kind
(log 22). -/
def execVoidTransaction (first : Option Byte) (rest : List Byte) (s : State) : Result :=
  match transactionOf first rest with
  | .submitRefused frame => submitFrame frame s
  | .collect n => .next (onBus (collect n) s)
  | .status n => .next (onBus (status n) s)
  | .voidTransaction (some _) bytes => .next (onBus (voided (bytes.length + 1)) s)
  | _ => .next (onBus (voided 0) s)

/-- What the hub does with no command waiting: 10 us pass (log 2). -/
def tick (s : State) : State := { s with now := s.now + 1 }

end Sys2Proof.Machine
end

