-- ==== Sys2Proof/Machine/Dispatch.lean ====
section
/-! DEFINITION. The meaning of every command: one arm per row of spec/opcode_table.json. -/

namespace Sys2Proof.Machine

/-- The effect of a command on everything but the queue. -/
def exec (i : Instr) (s : State) : Host.Outcome State Fault Refusal :=
  match i with
  | .collect n => Sys2Proof.Machine.execCollect n s
  | .status n => Sys2Proof.Machine.execStatus n s
  | .voidTransaction first n => Sys2Proof.Machine.execVoidTransaction first n s
  | .lookupId t u => Sys2Proof.Machine.execLookupId t u s
  | .lookupPos t c r => Sys2Proof.Machine.execLookupPos t c r s
  | .describe t f => Sys2Proof.Machine.execDescribe t f s
  | .list t f c => Sys2Proof.Machine.execList t f c s
  | .setGrace t n => Sys2Proof.Machine.execSetGrace t n s
  | .retire t f x => Sys2Proof.Machine.execRetire t f x s
  | .defineKey t k a d lo hi => Sys2Proof.Machine.execDefineKey t k a d lo hi s
  | .undefineKey t k => Sys2Proof.Machine.execUndefineKey t k s
  | .describeKey t k => Sys2Proof.Machine.execDescribeKey t k s
  | .readEntry t sc k => Sys2Proof.Machine.execReadEntry t sc k s
  | .listEntries t c => Sys2Proof.Machine.execListEntries t c s
  | .resolve t f k => Sys2Proof.Machine.execResolve t f k s
  | .stageSet t sc k v => Sys2Proof.Machine.execStageSet t sc k v s
  | .stageClear t sc k => Sys2Proof.Machine.execStageClear t sc k s
  | .stagePlace t f c r d => Sys2Proof.Machine.execStagePlace t f c r d s
  | .stageUnplace t f => Sys2Proof.Machine.execStageUnplace t f s
  | .stageGroups t f ns => Sys2Proof.Machine.execStageGroups t f ns s
  | .discard t f => Sys2Proof.Machine.execDiscard t f s
  | .stagingList t c => Sys2Proof.Machine.execStagingList t c s
  | .commit t p => Sys2Proof.Machine.execCommit t p s
  | .abort t => Sys2Proof.Machine.execAbort t s
  | .commitStatus t => Sys2Proof.Machine.execCommitStatus t s
  | .setFrame t p e => Sys2Proof.Machine.execSetFrame t p e s
  | .boundaryNow t => Sys2Proof.Machine.execBoundaryNow t s
  | .linkEnable t l => Sys2Proof.Machine.execLinkEnable t l s
  | .linkDisable t l => Sys2Proof.Machine.execLinkDisable t l s
  | .linkStatus t l => Sys2Proof.Machine.execLinkStatus t l s
  | .setTiming t l a b c d => Sys2Proof.Machine.execSetTiming t l a b c d s
  | .setDeadlines t p a b => Sys2Proof.Machine.execSetDeadlines t p a b s
  | .rescan t l => Sys2Proof.Machine.execRescan t l s
  | .tileRead t f a => Sys2Proof.Machine.execTileRead t f a s
  | .tileWrite t f a v => Sys2Proof.Machine.execTileWrite t f a v s
  | .attention t => Sys2Proof.Machine.execAttention t s
  | .setAttnMask t m => Sys2Proof.Machine.execSetAttnMask t m s
  | .identify t => Sys2Proof.Machine.execIdentify t s
  | .clearLinks t => Sys2Proof.Machine.execClearLinks t s
  | .clearAll t => Sys2Proof.Machine.execClearAll t s
  | .clearIntervalEnd => Sys2Proof.Machine.execClearIntervalEnd s
  | .deviceReset => Sys2Proof.Machine.execDeviceReset s
  | .resetRelease => Sys2Proof.Machine.execResetRelease s
  | .startupIntervalEnd => Sys2Proof.Machine.execStartupIntervalEnd s
  | .frameEdge e => Sys2Proof.Machine.execFrameEdge e s
  | .frameWatchExpiry => Sys2Proof.Machine.execFrameWatchExpiry s
  | .boundaryNowDue => Sys2Proof.Machine.execBoundaryNowDue s
  | .lockAchieved l => Sys2Proof.Machine.execLockAchieved l s
  | .lockLoss l => Sys2Proof.Machine.execLockLoss l s
  | .noLockExpiry l => Sys2Proof.Machine.execNoLockExpiry l s
  | .linkReply l bs => Sys2Proof.Machine.execLinkReply l bs s
  | .replyTimeout l => Sys2Proof.Machine.execReplyTimeout l s
  | .broadcastSent l => Sys2Proof.Machine.execBroadcastSent l s
  | .rollCallDue l => Sys2Proof.Machine.execRollCallDue l s
  | .graceExpiry h => Sys2Proof.Machine.execGraceExpiry h s
  | .prepareDeadlineExpiry => Sys2Proof.Machine.execPrepareDeadlineExpiry s
  | .armDeadlineExpiry => Sys2Proof.Machine.execArmDeadlineExpiry s
  | .applyDeadlineExpiry => Sys2Proof.Machine.execApplyDeadlineExpiry s
  | .submitRefused bs => Sys2Proof.Machine.execSubmitRefused bs s

end Sys2Proof.Machine
end

