-- ==== Sys2Proof/WellFormed.lean ====
section
/-! DEFINITION. When a command is well formed: its numbers lie where the spec's frames and events can put them. The model
gives every command a meaning, well formed or not. -/

namespace Sys2Proof

/-- A tag of a well-formed request frame (R175, R192). -/
def tagOk (t : Byte) : Bool := decide (t.toNat < 4)

/-- A void transaction's first byte, if it is complete, names no kind of transaction; nothing follows one that is not (R174,
R192). -/
def voidOk (first : Option Byte) (rest : List Byte) : Bool := transactionOf first rest == .voidTransaction first rest

/-- The check of a command. -/
def Instr.wellFormed (i : Instr) : Bool :=
  match i with
  | .voidTransaction first rest => voidOk first rest
  | .stageGroups t _ ns => tagOk t && decide (ns.length ≤ 16)
  | .graceExpiry h => decide (1 ≤ h ∧ h ≤ Config.maxHandle)
  | i =>
    match requestOf i with
    | some r => tagOk r.tag
    | none => true

/-- A command is well formed. -/
abbrev Instr.WellFormed (i : Instr) : Prop := i.wellFormed = true

end Sys2Proof
end

