-- ==== Sys2Proof/Safety.lean ====
section
/-! DEFINITION. The terms the statements use: when the port accepts a request, the state a quick request leaves, the sole
member of a list with a property, and the well-formedness of the hub's state. -/

namespace Sys2Proof.Machine

/-! ### Requests at the port -/

/-- What the port needs to accept a well-formed SUBMIT with tag byte b as tag t (R174 to R176): RESET_N not low, the port
READY, a tag of 0..3 that is FREE. -/
structure Accepts (s : State) (b : Byte) (t : Tag) : Prop where
  outOfReset : s.phase ≠ .inReset
  ready : s.port.state = .ready
  tagByte : b.toNat = t.val
  tagFree : s.port.tags.get t = .free

/-- The state in which the owning block takes an accepted request with n parameter bytes: the last acceptance result is
ACCEPTED, and filler has been shifted out during the kind byte, the n + 3 bytes of the frame, and nothing else has changed. -/
def received (n : Nat) (s : State) : State :=
  { s with port := { s.port with lastAccept := .accepted, sdo := List.replicate (n + 4) filler } }

/-- The state after a request that completes at acceptance and has no other effect than those `s` already shows: its
completion joins the tail of the list and its tag is DONE (R176, R178). -/
def answered (s : State) (n : Nat) (t : Tag) (kind : ReqKind) (st : Status) (res : List Byte) : State :=
  { s with port := { s.port with
      lastAccept := .accepted
      sdo := List.replicate (n + 4) filler
      tags := s.port.tags.put t .done
      completions := s.port.completions ++ [⟨t, kind, st, 0, res⟩] } }

/-- A completion has been made between two states: its tag is DONE, it stands in the list, and the completions that waited
before stand ahead of it in their order (R176, R178). -/
structure Completed (s s' : State) (c : Completion) : Prop where
  waits : ∃ new, s'.port.completions = s.port.completions ++ new ∧ c ∈ new
  tagDone : s'.port.tags.get c.tag = .done

/-! ### Members of lists -/

/-- x is the one member of xs with a property. -/
structure Sole {α : Type} (p : α → Prop) (xs : List α) (x : α) : Prop where
  mem : x ∈ xs
  holds : p x
  only : ∀ y ∈ xs, p y → y = x

/-- The record a reference names is the one with its handle, and has its generation (R1, R2). -/
def Names (s : State) (ref : Ref) (r : Record) : Prop :=
  Sole (fun x => x.ref.handle = ref.handle) s.dir.records r ∧ r.ref.gen = ref.gen

/-- How a handle reference fails its check (R2): no record holds the handle, or its record has another generation. -/
def FailsWith (s : State) (ref : Ref) (st : Status) : Prop :=
  (st = .noSuchHandle ∧ ∀ r ∈ s.dir.records, r.ref.handle ≠ ref.handle)
    ∨ (st = .staleHandle ∧ ∃ r, Sole (fun x => x.ref.handle = ref.handle) s.dir.records r ∧ r.ref.gen ≠ ref.gen)

/-! ### What an event leaves alone -/

/-- The part of the state that only requests of the host, SPI transactions, timers and resets change: the queue, the
clock, the port's own registers, the grace period, the deadline lengths, the timing settings and the expired attempts. -/
def steady (s : State) :=
  (s.pending, s.now, s.phase, (s.port.state, s.port.lastAccept, s.port.mask, s.port.clear, s.port.sdo), s.dir.grace,
    s.commit.lengths, s.links.map (fun e => (e.timing, e.expired)))

/-- A commit controller but for its participants' reached marks, which a start of a PREPARE on the wire sets (R72). -/
def settledCtl (c : CommitCtl) : CommitCtl := { c with participants := c.participants.map (fun p => { p with reached := false }) }

/-- The part of the state that the traffic of the links leaves alone: everything but the queues, the transactions in flight and
the sequence numbers of the links, the contents of the catch-up jobs, and the reached marks. Which records have jobs, in which
queues and order, is in it. -/
def offWire (s : State) :=
  (s.pending, s.now, s.choices, s.phase, s.port, s.dir, s.keys, s.store, s.staging, settledCtl s.commit, s.boundary,
    s.links.map (fun e => (e.state, e.reach, e.hops, e.timing)), s.jobs.map (fun js => js.map Job.ref))

/-! ### Request frames (R175, R191) -/

/-- The hub after a SUBMIT refused with a result: the last acceptance result is set, and filler has been shifted out during
the kind byte and every byte of the frame. -/
def refusedWith (a : AcceptResult) (frame : List Byte) (s : State) : State :=
  { s with port := { s.port with lastAccept := a, sdo := List.replicate (frame.length + 1) filler } }

/-- A frame that holds at least the kind, the tag and the check, with a good check (R175). -/
def goodCheck (frame : List Byte) : Prop := ∃ k t ps c, frame = k :: t :: (ps ++ [c]) ∧ c = crc8 (k :: t :: ps)

/-- The number of parameter bytes of each request kind 01h to 24h, from the widths of R191; STAGE_GROUPS (11h) carries 3 and
one for each of up to 16 group numbers. -/
def parameterCounts : List Nat :=
  [8, 2, 2, 2, 1, 3, 8, 1, 1, 4, 3, 3, 6, 4, 5, 2, 3, 7, 1, 1, 0, 0, 2, 0, 1, 1, 1, 5, 6, 1, 3, 5, 0, 3, 0, 1]

/-- The parameter bytes are as many as the request kind carries (R175, R191). -/
def carriesCount (k : Byte) (ps : List Byte) : Prop :=
  if k = 0x11 then ∃ h g n ns, ps = h :: g :: n :: ns ∧ n.toNat ≤ 16 ∧ ns.length = n.toNat
  else parameterCounts[k.toNat - 1]? = some ps.length

/-! ### The directory -/

/-- No two records hold one handle, and the stale list holds the handle of every record with a stale since (R1, R13). -/
def StaleListed (s : State) : Prop :=
  s.dir.records.Pairwise (fun a b => a.ref.handle ≠ b.ref.handle)
    ∧ ∀ r ∈ s.dir.records, r.stale ≠ none → r.ref.handle ∈ s.dir.staleList

/-! ### Invariants of the hub -/

/-- A link engine of the right shape: 16 hop entries and 16 last sequences (R112, R128), a sequence counter of 0..15 (R112), a
host run count of at most 4 (R120), timing settings in their ranges (R123), and no scan still to be queued between events (R140). -/
structure LinkShaped (e : LinkEngine) : Prop where
  hops : e.hops.length = 16
  lastSeq : e.lastSeq.length = 16
  seqCounter : e.seqCounter < 16
  hostRun : e.hostRun ≤ 4
  caused : e.caused = []
  timing : 1 ≤ e.timing.timeout ∧ e.timing.timeout ≤ 255 ∧ e.timing.retries ≤ 7 ∧ 1 ≤ e.timing.missLimit
    ∧ e.timing.missLimit ≤ 15 ∧ 1 ≤ e.timing.interval ∧ e.timing.interval ≤ 255

/-- A key record within the ranges of R29. -/
def KeyInRange (k : KeyRec) : Prop := k.number ≤ 63 ∧ k.addr.toNat < 240 ∧ k.min.toNat ≤ k.dflt.toNat ∧ k.dflt.toNat ≤ k.max.toNat

/-- The shape of the hub's state: 80 generations of 0..15 and a grace period of a byte (R1, R14), 80 handle entries of attention
(R181), records by handle and entries by place in ascending order (R1, R40), the Key Table of R29, at most 64 staged changes of
distinct targets (R49), deadline settings of 1..1000 ms (R66), and four links of the right shape. The rest of what holds between
events: HubSound, TagsSound and CommitSound. -/
structure WellShaped (s : State) : Prop where
  gens : s.dir.gens.length = 80 ∧ ∀ g ∈ s.dir.gens, g < 16
  grace : s.dir.grace ≤ 255
  attention : s.port.attn.handles.length = 80
  recordOrder : s.dir.records.Pairwise (fun a b => a.ref.handle ≤ b.ref.handle)
  entryOrder : s.store.Pairwise (fun a b => a.rank ≤ b.rank)
  keys : ∀ k ∈ s.keys, KeyInRange k
  keyOrder : s.keys.Pairwise (fun a b => a.number < b.number ∧ a.addr ≠ b.addr)
  staged : s.staging.length ≤ 64
  targets : s.staging.Pairwise (fun a b => sameTarget a.target b.target = false)
  prepare : 1 ≤ s.commit.lengths.prepare ∧ s.commit.lengths.prepare ≤ 1000
  arm : 1 ≤ s.commit.lengths.arm ∧ s.commit.lengths.arm ≤ 1000
  apply : 1 ≤ s.commit.lengths.apply ∧ s.commit.lengths.apply ≤ 1000
  links : ∀ l, LinkShaped (s.links.get l)

/-! ### Commands -/

/-- The command that a command's bytes spell: the request of an acceptable frame given as a SUBMIT, whether as SUBMIT_REFUSED or as the
bytes of a whole transaction (log 22); any other command is itself. -/
def spoken (c : Instr) : Instr :=
  let ofFrame := fun f => (decodeFrame f).getD c
  match c with
  | .submitRefused f => ofFrame f
  | .voidTransaction first rest => match transactionOf first rest with
    | .submitRefused f => ofFrame f
    | i => i
  | i => i

/-! ### Invariants of the links, the directory, the tags and the settings -/

/-- A transaction of a scan step (R130, R135). -/
def Txn.isStep (t : Txn) : Bool :=
  match t.req with
  | .scanStep _ => true
  | _ => false

/-- The scan-step transactions of a link: the one in flight, then those that wait. -/
def LinkEngine.stepTraffic (e : LinkEngine) : List Txn := (e.flight.toList.map Flight.txn ++ e.scanQ).filter Txn.isStep

/-- What holds of a link engine between events. A link that is not up has nothing in flight or in its scan and host classes and
nothing listed (R105 to R108); the full scan, the follow-up mark, the due mark, which is set only once in an interval, and the no-lock timer stand in the states they
belong to (R106, R121, R135, R139). The scan steps are the ASSIGN in progress, then ENUM_QUERYs: one full step, of the hop the full
scan is at, while SCANNING and none otherwise (R135, R136); of the hop scans at most one to a hop and none to the hop of the
assignment (R130, R140), and in SCANNING none at all (R138). A transaction stands between its attempts exactly while a broadcast has
overtaken it (R122). -/
structure LinkSound (e : LinkEngine) : Prop where
  down : e.isUp = false → e.flight = none ∧ e.overtaking = none ∧ e.scanQ = [] ∧ e.hostQ = [] ∧ e.assigning = none
    ∧ e.reach = 0 ∧ e.hops = List.replicate 16 .empty
  reach : e.reach ≤ 16
  scanning : e.scan.isSome = true ↔ e.state = .scanning
  followUp : e.followUp = true → e.state = .scanning
  rollDue : e.rollDue = true → e.state = .running
  rollMet : (e.rollDue = true → e.rollMet = true) ∧ (e.rollMet = true → e.state = .running)
  noLock : e.noLockTimer ≠ none ∨ e.noLockMark = true → e.state = .training
  steps : ∃ qs : List (Bool × Nat), e.stepTraffic = e.assigning.toList.map Assignment.txn ++ qs.map (fun q => enumTxn q.1 q.2)
    ∧ (∀ q ∈ qs, q.2 < 16) ∧ (e.assigning.toList.map Assignment.hop ++ (qs.filter (fun q => !q.1)).map Prod.snd).Nodup
  fullStep : e.state ≠ .scanning → ∀ t ∈ e.stepTraffic, t.isFullScan = false
  oneFullStep : ∀ sc, e.scan = some sc → sc.hop < 16
    ∧ ∃ t, e.stepTraffic.filter Txn.isFullScan = [t] ∧ t.dest = .directed sc.hop
  noHopScan : e.state = .scanning → (∀ t ∈ e.scanQ, t.req ≠ .scanStep false)
    ∧ ∀ f, e.flight = some f → f.txn.req = .scanStep false → f.txn.body ≠ .enumQuery
  assigned : ∀ a, e.assigning = some a → a.hop < 16 ∧ ∀ ref, e.entry a.hop ≠ .listed ref
  oneRollCall : (e.scanQ.filter (fun t => t.body == .rollCall)).length ≤ 1
  host : ∀ t ∈ e.hostQ, ∃ hop body tag, t = directTxn hop body tag
  others : ∀ t ∈ e.commitQ ++ e.catchQ ++ e.overtaking.toList.map Flight.txn, t.isStep = false ∧ ∀ n, t.req ≠ .tag n
  scanClass : ∀ t ∈ e.scanQ, t.isStep = true ∨ (∃ hop, t = clearTxn hop) ∨ t = rollTxn .scan .engine
  between : e.overtaking ≠ none ↔ ∃ f, e.flight = some f ∧ f.phase = .between

/-- The handles that assignments in progress hold for new tiles (R5). -/
def heldHandles (s : State) : List Nat := (s.dir.marks.filter (fun m => m.kind == .assigningNew)).map (fun m => m.ref.handle)

/-- What holds of the Tile Directory between events. Records stand in ascending handle order with IDs of their own (R1, R4); every
handle 1..80 is free, held for a new tile, or a record's, once (R5), with its current generation (R1, R2); the stale list holds the
handles of the STALE records, each once (R9, R13); the marks are those of the assignments in progress, each of its own ID, New of
an ID no record holds and Rebind of one only the STALE record to re-bind may hold (R4, R131); and the hop maps list exactly the
reachable records, each at its location (R128). -/
structure DirectorySound (s : State) : Prop where
  order : s.dir.records.Pairwise (fun a b => a.ref.handle < b.ref.handle)
  ids : s.dir.records.Pairwise (fun a b => a.uid ≠ b.uid)
  handles : (s.dir.freeList ++ heldHandles s ++ s.dir.records.map (fun r => r.ref.handle)).Perm (List.range' 1 80)
  gens : (∀ r ∈ s.dir.records, r.ref.gen = genOf s r.ref.handle)
    ∧ ∀ m ∈ s.dir.marks, m.kind = .assigningNew → m.ref.gen = genOf s m.ref.handle
  stale : s.dir.staleList.Perm ((s.dir.records.filter (fun r => r.state == .stale)).map (fun r => r.ref.handle))
  staleInfo : ∀ r ∈ s.dir.records, r.stale ≠ none ↔ r.state = .stale
  marks : s.dir.marks.Perm (fours.filterMap (fun l => (s.links.get l).assigning.map (Assignment.mark l)))
  markIds : s.dir.marks.Pairwise (fun a b => a.uid ≠ b.uid)
  newIds : ∀ m ∈ s.dir.marks, m.kind = .assigningNew → ∀ r ∈ s.dir.records, r.uid ≠ m.uid
  rebindIds : ∀ m ∈ s.dir.marks, m.kind = .assigningRebind → ∀ r ∈ s.dir.records, r.uid = m.uid → r.ref = m.ref ∧ r.state = .stale
  hops : ∀ l hop ref, (s.links.get l).entry hop = .listed ref ↔
    ∃ r ∈ s.dir.records, r.ref = ref ∧ r.state ≠ .stale ∧ r.loc = ⟨l, hop⟩
  locations : ∀ r ∈ s.dir.records, r.loc.hop < 16

/-- The links and the directory are sound. -/
structure HubSound (s : State) : Prop where
  links : ∀ l, LinkSound (s.links.get l)
  directory : DirectorySound s

/-- A request that runs under a tag is held by its block (R70, R95, R138, R168, R187). -/
def HeldBy (s : State) (t : Tag) : Running → Prop
  | .commit => s.commit.tag = some t
  | .boundaryNow => ∃ p, s.boundary.pendingNow = some p ∧ p.tag = t
  | .rescan l => ∃ sc, (s.links.get l).scan = some sc ∧ sc.rescan = some t
  | .tileRead _ _ => ∃ l, t ∈ hostTags (s.links.get l)
  | .tileWrite _ _ _ => ∃ l, t ∈ hostTags (s.links.get l)
  | .clear => ∃ c, s.port.clear = some c ∧ c.tag = t

/-- What holds of the tags between events: at most four completions wait, of different tags, and their tags are the DONE ones
(R176, R178); a request runs under a tag exactly while its block holds it, a direct access once (R177). -/
structure TagsSound (s : State) : Prop where
  four : s.port.completions.length ≤ 4
  once : (s.port.completions.map Completion.tag).Nodup
  done : ∀ t, s.port.tags.get t = .done ↔ ∃ c ∈ s.port.completions, c.tag = t
  held : ∀ t x, s.port.tags.get t = .running x → HeldBy s t x
  commit : ∀ t, s.commit.tag = some t → s.port.tags.get t = .running .commit
  commitIdle : s.commit.tag = none ↔ s.commit.state = .idle
  boundary : ∀ p, s.boundary.pendingNow = some p → s.port.tags.get p.tag = .running .boundaryNow
  rescan : ∀ l sc t, (s.links.get l).scan = some sc → sc.rescan = some t → s.port.tags.get t = .running (.rescan l)
  host : ∀ l, ∀ t ∈ hostTags (s.links.get l), ∃ x, s.port.tags.get t = .running x ∧ x.ref? ≠ none
  hostOnce : (fours.flatMap (fun l => hostTags (s.links.get l))).Nodup
  clear : ∀ c, s.port.clear = some c → s.port.tags.get c.tag = .running .clear

/-- A scope of an entry or a staged change is in range, and a TILE one names a record (R35, R50). -/
def ScopeSound (s : State) : Scope → Prop
  | .wall => True
  | .group g => g ≤ 15
  | .tile ref => ∃ r ∈ s.dir.records, r.ref = ref

/-- A staged change is in range and names a record and a defined key (R32, R50, R60). -/
def ChangeSound (s : State) : Change → Prop
  | .setVal sc n _ => ScopeSound s sc ∧ n ≤ 63 ∧ ∃ k ∈ s.keys, k.number = n
  | .clearVal sc n => ScopeSound s sc ∧ n ≤ 63 ∧ ∃ k ∈ s.keys, k.number = n
  | .place ref c _ => (∃ r ∈ s.dir.records, r.ref = ref) ∧ c.col ≤ 31 ∧ c.row ≤ 31
  | .unplace ref => ∃ r ∈ s.dir.records, r.ref = ref
  | .groups ref _ => ∃ r ∈ s.dir.records, r.ref = ref

/-- The participants' statuses fit a commit state, and one is still waited for in PREPARING and APPLYING (R65, R72, R77, R82). -/
def StatusesFit (c : CommitCtl) : Prop :=
  match c.state with
  | .preparing => (∀ p ∈ c.participants, p.status = .unprepared ∨ p.status = .prepared ∨ p.status = .excluded)
      ∧ ∃ p ∈ c.participants, p.status = .unprepared
  | .armed => ∀ p ∈ c.participants, p.status = .prepared ∨ p.status = .excluded
  | .applying => (∀ p ∈ c.participants, p.status ≠ .unprepared ∧ p.status ≠ .prepared)
      ∧ ∃ p ∈ c.participants, p.status = .unconfirmed
  | .idle => c = CommitCtl.idle c.epoch c.lengths
  | .cancelling => True

/-- The one deadline that runs is that of the commit state (R66). -/
def DeadlinesFit (c : CommitCtl) : Prop :=
  (c.prepareDl ≠ none ↔ c.state = .preparing) ∧ (c.armDl ≠ none ↔ c.state = .armed) ∧ (c.applyDl ≠ none ↔ c.state = .applying)

/-- What holds of the settings and the commit between events: no two records at one committed cell (R7); a store of at most 512
entries in listing order, its entries and the staged changes in range and naming records and defined keys (R32, R35, R40, R50,
R60); in PREPARING and ARMED the post-view fits the store and gives no cell twice (R38, R68); participants of different references
that have records, and while a participant counts its record is reachable at its place (R65, R73, R76; log 16); the statuses and the
deadline of the commit state. -/
structure CommitSound (s : State) : Prop where
  positions : s.dir.records.Pairwise (fun a b => a.pos ≠ none → a.pos ≠ b.pos)
  storeOrder : s.store.Pairwise (fun a b => a.rank < b.rank)
  storeSize : s.store.length ≤ 512
  entries : ∀ e ∈ s.store, ScopeSound s e.scope ∧ e.key ≤ 63 ∧ ∃ k ∈ s.keys, k.number = e.key
  staged : ∀ c ∈ s.staging, ChangeSound s c
  post : s.commit.state = .preparing ∨ s.commit.state = .armed →
    (storeAfter s.store s.staging).length ≤ 512
    ∧ s.dir.records.Pairwise (fun a b => positionAfter s.staging s.commit.displaced a ≠ none →
        positionAfter s.staging s.commit.displaced a ≠ positionAfter s.staging s.commit.displaced b)
  participants : (s.commit.participants.map Participant.ref).Nodup
  participantRecords : ∀ p ∈ s.commit.participants, ∃ r ∈ s.dir.records, r.ref = p.ref
  counted : s.commit.state ≠ .cancelling → ∀ p ∈ s.commit.participants,
    p.status = .unprepared ∨ p.status = .prepared ∨ p.status = .unconfirmed → partReachable s p = true
  statuses : StatusesFit s.commit
  deadlines : DeadlinesFit s.commit

/-! ### Staging (R54) -/

/-- A stage request with n parameter bytes that passed its checks takes a change: in place of the staged change with its
target (REPLACED), or at the tail (ADDED) unless the list holds 64 changes (FULL); it returns the kind of the change, ADDED 00h
or REPLACED 01h, its index and the count after the request (R50 check 6, R54). -/
def TakesChange (s : State) (n : Nat) (t : Tag) (kind : ReqKind) (c : Change) (out : Host.Outcome State Fault Refusal) : Prop :=
  (∀ before old after, s.staging = before ++ old :: after → sameTarget old.target c.target = true →
    (∀ x ∈ before, sameTarget x.target c.target = false) →
    out = .next (answered { s with staging := before ++ c :: after } n t kind .ok
      [c.code, 1, u8 before.length, u8 s.staging.length]))
  ∧ ((∀ x ∈ s.staging, sameTarget x.target c.target = false) →
      (s.staging.length < 64 → out = .next (answered { s with staging := s.staging ++ [c] } n t kind .ok
        [c.code, 0, u8 s.staging.length, u8 (s.staging.length + 1)]))
      ∧ (64 ≤ s.staging.length → out = .next (answered s n t kind .full [])))

/-- The fields of a scope and key a request carries lie in their ranges (R39, R50, R58). -/
def EntryInRange (sc : Scope) (k : Byte) : Prop := k.toNat ≤ 63 ∧ ∀ g, sc = .group g → g ≤ 15

/-- A TILE scope's reference names a record (R2); a scope of another kind carries none. -/
def ScopeNames (s : State) (sc : Scope) : Prop := ∀ ref, sc = .tile ref → ∃ r, Names s ref r

/-! ### Commits (chapter 4) -/

/-- Another staged PLACE names the cell (R68). -/
def PlacedByAnother (s : State) (ref : Ref) (cell : Cell) : Prop :=
  ∃ r d, Change.place r cell d ∈ s.staging ∧ r.handle ≠ ref.handle

/-- A record that holds the cell in the committed view, is not the one named, and has no staged PLACE or UNPLACE of its own
(R68). -/
def HoldsCell (s : State) (ref : Ref) (cell : Cell) (x : Record) : Prop :=
  x.pos = some cell ∧ x.ref.handle ≠ ref.handle
    ∧ ∀ c ∈ s.staging, sameTarget c.target (.position x.ref.handle) = false

/-- A staged PLACE passes its check: no other staged PLACE names its cell, and whatever record holds the cell is STALE and the
PLACE has the displace option (R68). -/
def PlaceStands (s : State) (ref : Ref) (cell : Cell) (displace : Bool) : Prop :=
  ¬ PlacedByAnother s ref cell ∧ ∀ x ∈ s.dir.records, HoldsCell s ref cell x → x.state = .stale ∧ displace = true

/-- A staged PLACE fails its check, meeting an occupant: the record of the one other staged PLACE of its cell, or the one record
that holds the cell when it is not STALE or the PLACE has not the displace option (R68). -/
def PlaceMeets (s : State) (ref : Ref) (cell : Cell) (displace : Bool) (occupant : Ref) : Prop :=
  (∃ d, Sole (fun c => ∃ r d', c = Change.place r cell d' ∧ r.handle ≠ ref.handle) s.staging (.place occupant cell d))
    ∨ (¬ PlacedByAnother s ref cell
        ∧ ∃ x, Sole (HoldsCell s ref cell) s.dir.records x ∧ x.ref = occupant ∧ (x.state ≠ .stale ∨ displace = false))

/-- A participant to which entry to CANCELLING sends a CANCEL (R84): reachable, reached, not yet sent one. -/
def OwedCancel (s : State) (p : Participant) : Prop :=
  p ∈ s.commit.participants ∧ partReachable s p = true ∧ p.reached = true ∧ p.cancelSent = false

/-- A transaction waits in the commit class of a link, or is in flight on it. -/
def CommitTraffic (s : State) (l : LinkId) (x : Txn) : Prop :=
  x ∈ (s.links.get l).commitQ ∨ ∃ f, (s.links.get l).flight = some f ∧ f.txn = x

/-- The event in which the controller enters CANCELLING with a reason (R84), from s to s'. While a CANCEL is owed or under way it
stays in CANCELLING: the deadlines stopped, no PREPARE waiting, a CANCEL on its way to each participant owed one, the directory
and the settings untouched. Otherwise it returns to IDLE in the same event and the COMMIT completes ABORTED with the reason, the
reference it carries or FFFFh, and the committed epoch (R85). -/
def EntersCancelling (s s' : State) (reason : CancelReason) : Prop :=
  let busy := (∃ p, OwedCancel s p) ∨ ∃ l, (s.links.get l).cancelOutstanding = true
  (busy →
    s'.commit.state = .cancelling ∧ s'.commit.reason = some reason ∧ s'.commit.prepareDl = none ∧ s'.commit.armDl = none
    ∧ s'.commit.tag = s.commit.tag ∧ s'.commit.policy = s.commit.policy ∧ s'.commit.epoch = s.commit.epoch
    ∧ (∀ l, ∀ x ∈ (s'.links.get l).commitQ, x.isPrepare = false)
    ∧ (∀ p, OwedCancel s p → CommitTraffic s' p.loc.link (partTxn p (.cancel (s.commit.epoch + 1))))
    ∧ s'.dir = s.dir ∧ s'.keys = s.keys ∧ s'.store = s.store ∧ s'.staging = s.staging ∧ s'.boundary = s.boundary)
  ∧ (¬ busy →
    s'.commit = CommitCtl.idle s.commit.epoch s.commit.lengths
    ∧ (∀ l, (s'.links.get l).commitQ = [])
    ∧ (∀ t, s.commit.tag = some t → Completed s s' ⟨t, .commit, .aborted, reason.code,
        (reason.ref?.elim [0xFF, 0xFF] refBytes) ++ halfBytes s.commit.epoch⟩)
    ∧ s'.keys = s.keys ∧ s'.boundary = s.boundary)

/-- What the apply makes of the directory (R68, R77): positions, group sets and synced epochs, record by record. -/
def RecordApplied (s : State) (r r' : Record) : Prop :=
  r' = { r with pos := r'.pos, groups := r'.groups, synced := r'.synced }
  ∧ (∀ ref c d, Change.place ref c d ∈ s.staging → ref.handle = r.ref.handle → r'.pos = some c)
  ∧ (∀ ref, Change.unplace ref ∈ s.staging → ref.handle = r.ref.handle → r'.pos = none)
  ∧ ((∀ c ∈ s.staging, sameTarget c.target (.position r.ref.handle) = false) →
      r'.pos = if r.ref ∈ s.commit.displaced then none else r.pos)
  ∧ (∀ ref g, Change.groups ref g ∈ s.staging → ref.handle = r.ref.handle → r'.groups = g)
  ∧ ((∀ c ∈ s.staging, sameTarget c.target (.groupSet r.ref.handle) = false) → r'.groups = r.groups)
  ∧ r'.synced = if r.state = .active ∧ ∀ p ∈ s.commit.participants, p.ref ≠ r.ref then s.commit.epoch + 1 else r.synced

/-- What the apply makes of the store (R37), when no two staged changes have one target. -/
def StoreApplied (s s' : State) : Prop :=
  (∀ sc k v, Change.setVal sc k v ∈ s.staging → findEntry s'.store sc k = some ⟨sc, k, v⟩)
  ∧ (∀ sc k, Change.clearVal sc k ∈ s.staging → findEntry s'.store sc k = none)
  ∧ (∀ sc k, (∀ c ∈ s.staging, sameTarget c.target (.entry sc k) = false) →
      findEntry s'.store sc k = findEntry s.store sc k)

/-- The apply, with some participant PREPARED, from a state s (its clock at the moment of the boundary event) to s' (R77,
R78). -/
def Applies (s s' : State) : Prop :=
  s'.staging = [] ∧ s'.keys = s.keys.map (fun k => { k with introduced := false })
  ∧ StoreApplied s s'
  ∧ (∃ f : Record → Record, s'.dir = { s.dir with records := s.dir.records.map f }
      ∧ ∀ r ∈ s.dir.records, RecordApplied s r (f r))
  ∧ s'.commit.state = .applying ∧ s'.commit.epoch = s.commit.epoch + 1
  ∧ s'.commit.participants.map (fun p => (p.ref, p.status))
      = s.commit.participants.map (fun p => (p.ref, if p.status = .prepared then .unconfirmed else p.status))
  ∧ s'.commit.armDl = none ∧ s'.commit.applyDl = some (s.now + s.commit.lengths.apply * 100)
  ∧ s'.commit.applyCount = some s'.boundary.count ∧ s'.boundary.count = s.boundary.count + 1
  ∧ s'.boundary.previous = some s.now
  ∧ (∀ l, (∃ p ∈ s.commit.participants, p.status = .prepared ∧ p.loc.link = l) →
      (s'.links.get l).commitQ = applyTxns (s.commit.epoch + 1) ++ (s.links.get l).commitQ
      ∨ ∃ f, (s'.links.get l).flight = some f ∧ f.txn :: (s'.links.get l).commitQ
          = applyTxns (s.commit.epoch + 1) ++ (s.links.get l).commitQ)

/-! ### Boundary events (chapter 5) -/

/-- The commit controller is IDLE, or in PREPARING, APPLYING or CANCELLING with something still to wait for (R72, R82, R85). -/
def Waits (s : State) : Prop :=
  s.commit.state = .idle
    ∨ (s.commit.state = .preparing ∧ ∃ p ∈ s.commit.participants, p.status = .unprepared)
    ∨ (s.commit.state = .applying ∧ ∃ p ∈ s.commit.participants, p.status = .unconfirmed)
    ∨ (s.commit.state = .cancelling ∧ ∃ l, (s.links.get l).cancelOutstanding = true)

/-- The tests of the commit controller call for nothing: it is ARMED, IDLE, or still waits for something (R72, R82, R85). -/
def Rests (s : State) : Prop := s.commit.state = .armed ∨ Waits s

/-- The jobs of every RUNNING link that awaited a boundary go on to APPLYING, each with its directed APPLY of the committed epoch
queued in queue order behind what waits in the catch-up class, of which the first may have gone to the wire (R156). The queue of jobs
keeps its order; a job that is not PREPARING is otherwise as it was, and a PREPARING one stays so, the turn and a due re-preparation
aside, for which at most one PREPARE comes behind the APPLYs (R154, R162). A link that is not RUNNING keeps its jobs and its catch-up
class. -/
def JobsApply (s s' : State) : Prop :=
  ∀ l, if (s.links.get l).state = .running then
      let preparing := fun (ref : Ref) => ∃ i ∈ s.jobs.get l, i.phase = .preparing ∧ i.ref = ref
      (s'.jobs.get l).map Job.ref = (s.jobs.get l).map Job.ref
      ∧ (∀ j ∈ s.jobs.get l, ¬ preparing j.ref →
          (if j.phase = .awaitingBoundary then { j with phase := .applying } else j) ∈ s'.jobs.get l)
      ∧ (∀ j ∈ s.jobs.get l, j.phase = .preparing → (∀ i ∈ s.jobs.get l, i.ref = j.ref → i = j) →
          ∃ j' ∈ s'.jobs.get l, j'.ref = j.ref ∧ j'.phase = .preparing
            ∧ (j.reprepare = false → { j' with turn := j.turn } = j))
      ∧ ∃ sent prepares : List Txn,
        (s.links.get l).catchQ ++ ((s.jobs.get l).filter (fun j => j.phase == .awaitingBoundary)).map (fun j =>
            { dest := .directed ((findRef s j.ref).elim 0 fun r => r.loc.hop), body := .apply s.commit.epoch,
              cls := .catchUp, req := .job j.ref }) ++ prepares
          = sent ++ (s'.links.get l).catchQ
        ∧ (sent = [] ∨ ∃ f, (s'.links.get l).flight = some f ∧ sent = [f.txn])
        ∧ prepares.length ≤ 1
        ∧ ∀ t ∈ prepares, ∃ ref first final ps, preparing ref ∧ t.req = .job ref ∧ t.body = .prepare s.commit.epoch first final ps
    else s'.jobs.get l = s.jobs.get l ∧ (s'.links.get l).catchQ = (s.links.get l).catchQ

/-- A boundary event taken in ARMED with no PREPARED participant carries out the apply and ends the commit, all in that event (R37,
R77, R82, R83): nothing is staged, every key is introduced no more, the wall and group entries are those of the post-view, each record
that the deferred expiries leave has its place, groups and synced epoch, and the COMMIT completes OK. -/
def AppliesAndEnds (s s' : State) : Prop :=
  s'.staging = [] ∧ s'.keys = s.keys.map (fun k => { k with introduced := false })
  ∧ s'.commit = CommitCtl.idle (s.commit.epoch + 1) s.commit.lengths
  ∧ (s.staging.Pairwise (fun a b => sameTarget a.target b.target = false) →
      (∀ sc k, (∀ ref, sc ≠ .tile ref) →
        (∀ v, Change.setVal sc k v ∈ s.staging → findEntry s'.store sc k = some ⟨sc, k, v⟩)
        ∧ (Change.clearVal sc k ∈ s.staging → findEntry s'.store sc k = none)
        ∧ ((∀ c ∈ s.staging, sameTarget c.target (.entry sc k) = false) → findEntry s'.store sc k = findEntry s.store sc k))
      ∧ ∀ r r', Names s r.ref r → r' ∈ s'.dir.records → r'.ref = r.ref → RecordApplied s r r')
  ∧ ∀ c, s.commit.tag = some c → Completed s s' ⟨c, .commit, .ok, 0, halfBytes (s.commit.epoch + 1)
      ++ wordBytes (s.boundary.count + 1)
      ++ [u8 (s.commit.participants.countP (fun p => p.status == .confirmed)),
          u8 (s.commit.participants.countP (fun p => p.status == .lagging)),
          u8 (s.commit.participants.countP (fun p => p.status == .excluded))]⟩

/-! ### Links (chapters 6 and 7) -/

/-- A record as lock loss or LINK_DISABLE of a link leaves it (R9, R107): STALE since now for LINK_DOWN if it was reachable and
its location is on the link. -/
def downRecord (l : LinkId) (now : Nat) (r : Record) : Record :=
  if r.state ≠ .stale ∧ r.loc.link = l then { r with state := .stale, stale := some ⟨now, .linkDown⟩ } else r

/-- The requests whose host transactions wait or are in flight on a link, and the RESCAN whose scan runs there (R107, R108,
R138). -/
def EndsWithLink (e : LinkEngine) (t : Tag) : Prop :=
  (∃ x ∈ e.hostQ, x.req = .tag t) ∨ (∃ f, e.flight = some f ∧ f.txn.req = .tag t) ∨ (∃ sc, e.scan = some sc ∧ sc.rescan = some t)

/-- The next attempt of the transaction in flight has started with its sequence number and its packet again (R114). -/
def Retried (s s' : State) (l : LinkId) (f : Flight) : Prop :=
  (s'.links.get l).flight = some { f with
      attempt := f.attempt + 1, phase := .onWire, expires := s'.now + (s.links.get l).timing.timeout }
  ∧ (s'.links.get l).sent = f.txn.packet f.seq

/-- The record a hop's entry names, sole holder of its reference and handle, and reachable (R115). -/
def ListedAt (s : State) (l : LinkId) (hop : Nat) (r : Record) : Prop :=
  (s.links.get l).entry hop = .listed r.ref ∧ Names s r.ref r ∧ r.state ≠ .stale

/-! ### Packets and replies (section 11.3) -/

/-- The packet kinds by their numbers (R193). -/
def kindNumber : Body → Nat
  | .enumQuery => 1
  | .assign _ => 2
  | .prepare _ _ _ _ => 3
  | .apply _ => 4
  | .cancel _ => 5
  | .paramRead _ => 6
  | .paramWrite _ _ => 7
  | .rollCall => 8

/-- The downstream payload of each kind (R193): in the flags byte of a PREPARE FIRST is bit 0 and FINAL bit 1. -/
def payloadBytes : Body → List Byte
  | .enumQuery => []
  | .assign ref => [u8 ref.handle, u8 ref.gen]
  | .prepare e first final ps => halfBytes e ++ [(BitVec.ofBool final ++ BitVec.ofBool first).setWidth 8, u8 ps.length]
      ++ ps.flatMap (fun p => [p.addr] ++ halfBytes p.value)
  | .apply e => halfBytes e
  | .cancel e => halfBytes e
  | .paramRead a => [a]
  | .paramWrite a v => [a] ++ halfBytes v
  | .rollCall => [0]

/-- What the payload of a reply carries, by the kind of the packet answered and the status (R193). -/
def ReplyCarries (b : Body) (st : TileStatus) (payload : List Byte) (body : ReplyBody) : Prop :=
  match b, st with
  | .enumQuery, .ok => ∃ (u : Uid) (model live : Half) (cap h g : Byte),
      payload = uidBytes u ++ halfBytes model ++ [cap, h, g] ++ halfBytes live
      ∧ body = .enumInfo ⟨u, model, cap.toNat, ⟨h.toNat, g.toNat⟩, live⟩
  | .apply _, .ok => ∃ e, payload = halfBytes e ∧ body = .epoch e
  | .apply _, .badEpoch => ∃ e, payload = halfBytes e ∧ body = .epoch e
  | .paramRead _, .ok => ∃ v, payload = halfBytes v ∧ body = .value v
  | .rollCall, _ => ∃ xs : List RollEntry, xs.length ≤ 16 ∧ (∀ x ∈ xs, x.held.handle < 256 ∧ x.held.gen < 256)
      ∧ payload = u8 xs.length :: xs.flatMap (fun x => [u8 x.held.handle, u8 x.held.gen] ++ halfBytes x.live)
      ∧ body = .roll xs
  | _, _ => payload = [] ∧ body = .nothing

/-- The bytes of a well-formed reply to a packet kind under a sequence number, with its status and what it carries: the header, the
payload, and the check over both, high byte first (R113, R193). -/
def WellFormedReply (b : Body) (seq : Nat) (st : TileStatus) (body : ReplyBody) (bytes : List Byte) : Prop :=
  ∃ (k c n : Byte) (payload : List Byte),
    bytes = [k, c, n] ++ payload ++ halfBytes (crc16 ([k, c, n] ++ payload))
    ∧ seq < 16 ∧ k.toNat = 16 * kindNumber b + seq ∧ c.toNat = st.ctorIdx ∧ n.toNat = payload.length ∧ ReplyCarries b st payload body

/-! ### Ends of transactions (chapters 6 to 8) -/

/-- A reply that comes behind the expiry of its attempt's timer, at the same moment: a good answer to the expired packet (R113; log
48). -/
def Late (s : State) (l : LinkId) (bytes : List Byte) : Prop :=
  ∃ x st body, (s.links.get l).expired = some x ∧ x.moment = s.now ∧ judgeReply x.body x.seq bytes = .good st body

/-- The hub with no reply of an expired attempt to come on a link. -/
def unexpired (s : State) (l : LinkId) : State := { s with links := s.links.put l { s.links.get l with expired := none } }

/-- A command ends the transaction in flight on a link: a good reply, with its status and body; or, at the last attempt, NO_REPLY
by a bad reply or by the reply timer, which brings the clock to its expiry (R113, R114; log 2). A late reply ends
nothing (log 48). -/
def Ends (s : State) (l : LinkId) (f : Flight) (c : Instr) (out : Option (TileStatus × ReplyBody)) (now : Nat) : Prop :=
  s.phase = .operating ∧ waitingFlight s l = some f
  ∧ (∀ bytes, c = .linkReply l bytes → ¬ Late s l bytes)
  ∧ ((∃ bytes st body, c = .linkReply l bytes ∧ judgeReply f.txn.body f.seq bytes = .good st body ∧ out = some (st, body)
        ∧ now = s.now)
    ∨ (¬ f.attempt < f.allowed ∧ out = none
        ∧ ((∃ bytes, c = .linkReply l bytes ∧ judgeReply f.txn.body f.seq bytes = .bad ∧ now = s.now)
          ∨ (c = .replyTimeout l ∧ now = max s.now f.expires))))

/-- The hub with nothing in flight on a link. -/
def freed (s : State) (l : LinkId) : State := { s with links := s.links.put l { s.links.get l with flight := none } }

/-- A flag of the attention set is raised. -/
def Raised (s : State) (x : Subject) (r : Reason) : Prop := s.port.attn.flagsOf x &&& r.flag ≠ 0

/-- A link that was SCANNING or RUNNING has been taken down to a state (R107, R108): nothing is listed, in flight or remembered
of the hops, no assignment and no follow-up is left, LINK_DOWN is raised, its requests complete NOT_REACHABLE. In a sound hub its
four queues are empty and STALE is raised for every record claimed. With the commit controller IDLE and no handle held twice, the
directory changes by exactly the claims and the abandoned assignment, and nothing else off the links changes. -/
def TakenDown (s s' : State) (l : LinkId) (target : LinkState) : Prop :=
  (s'.links.get l).state = target ∧ (s'.links.get l).reach = 0 ∧ (s'.links.get l).hops = List.replicate 16 .empty
  ∧ (s'.links.get l).flight = none ∧ (s'.links.get l).overtaking = none ∧ (s'.links.get l).assigning = none
  ∧ (s'.links.get l).followUp = false ∧ (s'.links.get l).lastSeq = List.replicate 16 none
  ∧ (s'.links.get l).rollDue = false ∧ (s'.links.get l).rollMet = false ∧ (s'.links.get l).hostRun = 0 ∧ (s'.links.get l).scan = none
  ∧ (s'.links.get l).noLockTimer = (if target = .training then some (s.now + 10000) else none)
  ∧ (s'.links.get l).noLockMark = false
  ∧ (s'.links.get l).seqCounter = (s.links.get l).seqCounter ∧ (s'.links.get l).timing = (s.links.get l).timing
  ∧ s'.port.attn.links.get l = s.port.attn.links.get l ||| Reason.linkDown.flag
  ∧ (∀ t x, EndsWithLink (s.links.get l) t → s.port.tags.get t = .running x →
      Completed s s' ⟨t, x.kind, .notReachable, 0, x.fields⟩)
  ∧ s'.keys = s.keys ∧ s'.boundary = s.boundary ∧ s'.commit.epoch = s.commit.epoch ∧ s'.now = s.now
  ∧ (WellShaped s → HubSound s →
      (s'.links.get l).commitQ = [] ∧ (s'.links.get l).scanQ = [] ∧ (s'.links.get l).hostQ = []
      ∧ (s'.links.get l).catchQ = []
      ∧ ∀ r ∈ s.dir.records, r.state ≠ .stale → r.loc.link = l → Raised s' (.handle r.ref.handle) .stale)
  ∧ (s.commit.state = .idle → s.dir.records.Pairwise (fun a b => a.ref.handle ≠ b.ref.handle) →
      s'.dir = { s.dir with
        records := s.dir.records.map (downRecord l s.now)
        staleList := s.dir.staleList
          ++ (s.dir.records.filter (fun r => decide (r.state ≠ .stale ∧ r.loc.link = l))).map (fun r => r.ref.handle)
        freeList := (match (s.links.get l).assigning with
          | some a => if a.kind = .assigningNew then a.ref.handle :: s.dir.freeList else s.dir.freeList
          | none => s.dir.freeList)
        marks := (match (s.links.get l).assigning with
          | some a => s.dir.marks.filter (fun m => m.loc != ⟨l, a.hop⟩)
          | none => s.dir.marks) }
      ∧ s'.store = s.store ∧ s'.staging = s.staging ∧ s'.commit.state = .idle
      ∧ (∀ r ∈ s.dir.records, r.state ≠ .stale → r.loc.link = l → ∀ j ∈ allJobs s', j.ref ≠ r.ref)
      ∧ ∀ m, m ≠ l → (s'.links.get m).state = (s.links.get m).state ∧ (s'.links.get m).hops = (s.links.get m).hops)

/-- A transaction is in flight on a link, or waits in the queue of its class. -/
def ToCome (e : LinkEngine) (t : Txn) : Prop :=
  (∃ g, e.flight = some g ∧ g.txn = t) ∨ t ∈ e.commitQ ++ e.scanQ ++ e.hostQ ++ e.catchQ

/-- The matching of an answer has made the hop UNLISTED for a reason (R129, R131), and the directory is as it was: UNLISTED_FOUND is
raised unless the hop was UNLISTED for that reason. -/
def FoundUnlisted (s s' : State) (l : LinkId) (hop : Nat) (why : Unlisted) : Prop :=
  (s'.links.get l).entry hop = .unlisted why ∧ s'.dir = s.dir ∧ (s'.links.get l).assigning = none
  ∧ (Raised s' (.link l) .unlistedFound ↔ Raised s (.link l) .unlistedFound
      ∨ ∀ w, (s.links.get l).entry hop = .unlisted w → sameReason w why = false)

/-- The matching of an answer has put an assignment in progress on the hop, and its ID is marked (R4, R130, R132): the ASSIGN is in
flight or at the head of the scan class, and no ENUM_QUERY of the hop waits. -/
def Assigns (s' : State) (l : LinkId) (a : Assignment) : Prop :=
  (s'.links.get l).assigning = some a
  ∧ ((∃ g, (s'.links.get l).flight = some g ∧ g.txn = a.txn) ∨ (s'.links.get l).scanQ.head? = some a.txn)
  ∧ ∀ t ∈ (s'.links.get l).scanQ, t.body = .enumQuery → t.dest ≠ .directed a.hop

/-- A record as a claim to STALE for a reason leaves it (R9). -/
def Record.lost (r : Record) (now : Nat) (why : StaleReason) : Record := { r with state := .stale, stale := some ⟨now, why⟩ }

/-- A full scan of a link has ended with a reach (R137, R138), in which the records from that hop on were claimed UNREACHED: LINK_UP
and SCAN_DONE are raised, and a RESCAN completes with the counts of the scan. -/
def ScanEnded (s s' : State) (l : LinkId) (reach claimed : Nat) (sc : FullScan) : Prop :=
  let e' := s'.links.get l
  e'.state = .running ∧ e'.reach = reach ∧ e'.scan = none ∧ e'.followUp = false ∧ e'.lastRollEnd = s'.now
  ∧ Raised s' (.link l) .linkUp ∧ Raised s' (.link l) .scanDone
  ∧ ∀ t, sc.rescan = some t → Completed s s' ⟨t, .rescan, .ok, 0,
      [u8 l.val, u8 reach, u8 (e'.hops.countP HopEntry.isListed), u8 (e'.hops.countP HopEntry.isUnlisted), u8 sc.created,
        u8 sc.rebound, u8 claimed]⟩

/-- What a roll call of a link says of a hop: it is passed over while an assignment is in progress there, otherwise its tile's
entry, or none at or beyond the reach (R144). -/
def rollSays (s : State) (l : LinkId) (entries : List RollEntry) (hop : Nat) : Option (Option RollEntry) :=
  if (s.links.get l).passedOver hop then none else some entries[hop]?

/-- A reachable record of a link as a roll call leaves it (R144). -/
def rolledRecord (s : State) (l : LinkId) (entries : List RollEntry) (now : Nat) (r : Record) : Record :=
  if r.state = .stale ∨ r.loc.link ≠ l then r
  else match rollSays s l entries r.loc.hop with
    | none => r
    | some none => r.lost now .unreached
    | some (some x) => if x.held = r.ref then { r with miss := 0 } else r.lost now .replaced

/-- A hop entry as a roll call leaves it (R144). -/
def rolledEntry (s : State) (l : LinkId) (entries : List RollEntry) (hop : Nat) : HopEntry :=
  match (s.links.get l).entry hop, rollSays s l entries hop with
  | x, none => x
  | _, some none => .empty
  | .listed ref, some (some x) => if x.held = ref then .listed ref else .empty
  | x, some (some _) => x

/-- A roll call calls for a hop scan: an EMPTY hop below the reach, or a listed one whose tile holds another reference (R140,
R144). -/
def rollCauses (s : State) (l : LinkId) (entries : List RollEntry) (hop : Nat) : Prop :=
  ∃ x, rollSays s l entries hop = some (some x)
    ∧ ((s.links.get l).entry hop = .empty ∨ ∃ ref, (s.links.get l).entry hop = .listed ref ∧ x.held ≠ ref)

/-! ### Catch-up jobs (chapter 8) -/

/-- A job but for the preparing turn, which the end of the event may give it (R154). -/
def Job.still (j : Job) : Job := { j with turn := false }

/-- The jobs of a link, the one of a reference moved to the tail and changed (R151), with the turns left aside. -/
def MovedToTail (s s' : State) (l : LinkId) (ref : Ref) (j' : Job) : Prop :=
  (s'.jobs.get l).map Job.ref = ((s.jobs.get l).filter (fun j => j.ref != ref)).map Job.ref ++ [ref]
  ∧ ∃ j ∈ s'.jobs.get l, j.still = j'.still

/-! ### The course of a commit (chapter 4) -/

/-- The references and statuses of the participants. -/
def statusesOf (s : State) : List (Ref × PartStatus) := s.commit.participants.map (fun p => (p.ref, p.status))

/-- The participants' statuses in APPLYING after an event (R82, R83): while one is UNCONFIRMED the controller stays in APPLYING;
otherwise it returns to IDLE and the COMMIT completes OK with the epoch, the apply boundary count and the three counts. -/
def AppliesOn (s s' : State) (after : List (Ref × PartStatus)) : Prop :=
  ((∃ x ∈ after, x.2 = .unconfirmed) →
    s'.commit.state = .applying ∧ statusesOf s' = after ∧ s'.commit.applyDl = s.commit.applyDl)
  ∧ ((∀ x ∈ after, x.2 ≠ .unconfirmed) →
      s'.commit = CommitCtl.idle s.commit.epoch s.commit.lengths
      ∧ ∀ t n, s.commit.tag = some t → s.commit.applyCount = some n → Completed s s' ⟨t, .commit, .ok, 0,
          halfBytes s.commit.epoch ++ wordBytes n ++ [u8 (after.countP (fun x => x.2 == .confirmed)),
            u8 (after.countP (fun x => x.2 == .lagging)), u8 (after.countP (fun x => x.2 == .excluded))]⟩)

/-- The controller has gone to CANCELLING for a reason, or through it to IDLE, the COMMIT completing ABORTED (R84, R85). -/
def Aborts (s s' : State) (reason : CancelReason) : Prop :=
  (s'.commit.state = .cancelling ∧ s'.commit.reason = some reason ∧ s'.commit.tag = s.commit.tag
    ∧ s'.commit.prepareDl = none ∧ s'.commit.armDl = none ∧ ∀ l, ∀ x ∈ (s'.links.get l).commitQ, x.isPrepare = false)
  ∨ (s'.commit = CommitCtl.idle s.commit.epoch s.commit.lengths
    ∧ ∀ t, s.commit.tag = some t → Completed s s' ⟨t, .commit, .aborted, reason.code,
        (reason.ref?.elim [0xFF, 0xFF] refBytes) ++ halfBytes s.commit.epoch⟩)

/-- What it means for a running commit that the records of participants are claimed STALE in one event, at a moment, in the order of
their places (R73, R76, R81, R88, R89). Those of them that are UNPREPARED, PREPARED or UNCONFIRMED fail. With none of these, PREPARING
and ARMED stay as they are. Under LENIENT, and in APPLYING, they are EXCLUDED, and the controller goes on as the others allow; under
STRICT it cancels, in PREPARING with PREPARE_FAILED for the first of them, in ARMED with PARTICIPANT_LOST. -/
def CommitMeets (s s' : State) (now : Nat) (lost : Participant → Bool) (place : Participant → Nat) : Prop :=
  let counts := fun (p : Participant) =>
    lost p = true ∧ (p.status = .unprepared ∨ p.status = .prepared ∨ p.status = .unconfirmed)
  let after := s.commit.participants.map (fun p =>
    (p.ref, if lost p = true ∧ (p.status = .unprepared ∨ p.status = .prepared ∨ p.status = .unconfirmed)
      then PartStatus.excluded else p.status))
  ((∀ p ∈ s.commit.participants, ¬ counts p) → s.commit.state = .preparing ∨ s.commit.state = .armed →
    settledCtl s'.commit = settledCtl s.commit)
  ∧ (s.commit.policy = some .lenient → s.commit.state = .preparing → statusesOf s' = after
      ∧ ((∃ x ∈ after, x.2 = .unprepared) → s'.commit.state = .preparing ∧ s'.commit.prepareDl = s.commit.prepareDl)
      ∧ ((∀ x ∈ after, x.2 ≠ .unprepared) → s'.commit.state = .armed
          ∧ s'.commit.armDl = some (now + s.commit.lengths.arm * 100)))
  ∧ (s.commit.policy = some .lenient → s.commit.state = .armed →
      statusesOf s' = after ∧ s'.commit.state = .armed ∧ s'.commit.armDl = s.commit.armDl)
  ∧ (s.commit.policy = some .strict → s.commit.state = .armed → (∃ p ∈ s.commit.participants, counts p) →
      Aborts s s' .participantLost)
  ∧ (s.commit.policy = some .strict → s.commit.state = .preparing →
      ∀ p ∈ s.commit.participants, counts p →
        (∀ q ∈ s.commit.participants, counts q → place p ≤ place q) → Aborts s s' (.prepareFailed p.ref))
  ∧ (s.commit.state = .applying → AppliesOn s s' after)

/-- The controller is IDLE, or none of its participants is among the records with a property (R88). -/
def NoneLost (s : State) (gone : Record → Prop) : Prop :=
  s.commit.state = .idle ∨ ∀ r ∈ s.dir.records, gone r → ∀ p ∈ s.commit.participants, p.ref ≠ r.ref

/-- A command takes links down and their records with them (R107, R110, R126): lock loss or an accepted LINK_DISABLE of a link that
is up, or an accepted CLEAR LINKS, which takes every enabled one. The tag of a CLEAR serves nothing else. -/
def TakesDown (s : State) (c : Instr) (gone : LinkId → Bool) : Prop :=
  (∃ l, c = .lockLoss l ∧ s.phase = .operating ∧ (s.links.get l).isUp = true ∧ gone = fun k => k == l)
  ∨ (∃ (b n : Byte) (t : Tag) (l : LinkId), c = .linkDisable b n ∧ Accepts s b t ∧ n.toNat = l.val ∧ (s.links.get l).isUp = true ∧ gone = fun k => k == l)
  ∨ (∃ b t, c = .clearLinks b ∧ Accepts s b t ∧ s.commit.tag ≠ some t ∧ gone = fun k => (s.links.get k).state != .disabled)

end Sys2Proof.Machine
end

