-- ==== Sys2Proof/Certificates/Slice0/Obligations.lean ====
section
/-! DEFINITION. The statements about the ZL480 for the provers. A docstring names the rules of spec/ a statement
draws on, and says where it rests on the model's own choice. -/

section Statements

open Sys2Proof Sys2Proof.Machine

/-! ### The queue of commands -/

/-- A step takes the command at the front of the queue and runs it on the rest of the queue (log 1). With no command waiting the
hub idles: 10 us pass and nothing else changes, which is the model's choice (log 2). -/
def Obligations.StepRunsTheFrontCommand : Prop :=
  (∀ (s : State) (c : Instr) (rest : List Instr), s.pending = c :: rest → step s = exec c { s with pending := rest })
  ∧ ∀ s : State, s.pending = [] → step s = .next { s with now := s.now + 1 }

/-! ### SPI transactions (chapter 10) -/

/-- COLLECT (R179): the head completion, then filler; it leaves the list, and its tag becomes FREE, exactly when it was
clocked whole; an empty list gives the "none" marker and changes no state. -/
def Obligations.CollectTakesTheHeadWhole : Prop :=
  ∀ (s : State) (n : Nat), s.phase ≠ .inReset →
    (∀ c rest, s.port.completions = c :: rest →
      (c.frame.length ≤ n → exec (.collect n) s = .next { s with port := { s.port with
          completions := rest, tags := s.port.tags.put c.tag .free
          sdo := filler :: (c.frame ++ List.replicate (n - c.frame.length) filler) } })
      ∧ (n < c.frame.length →
          exec (.collect n) s = .next { s with port := { s.port with sdo := filler :: c.frame.take n } }))
    ∧ (s.port.completions = [] → exec (.collect n) s = .next { s with port := { s.port with
          sdo := filler :: ((0x00#8 :: List.replicate n filler).take n) } })

/-- STATUS, void transactions and the bus in device reset (R174, R180, R190, R192). The bits and bytes of the status block for a
state whose completion list holds at most four. The first byte of an SPI transaction says what it is: 51h SUBMIT, C3h COLLECT,
5Ah STATUS; with another, or with none complete, it is void, shifts out filler and changes no state of the hub but the model's record of
the bytes shifted out (log 4; bytes that name a kind run as that kind: log 22). While RESET_N is low the port ignores the bus. -/
def Obligations.StatusAndVoidTransactions : Prop :=
  ∀ (s : State),
    (s.phase ≠ .inReset →
      (∀ n, s.port.completions.length ≤ 4 →
        ∃ b0 b1 b2 b3 b4 b5 b6 : Byte,
          exec (.status n) s = .next { s with port := { s.port with
            sdo := filler :: (([b0, b1, b2, b3, b4, b5, b6] ++ List.replicate n filler).take n) } }
          ∧ (b0.getLsbD 7 = true ↔ s.port.state = .resetting)
          ∧ (b0.getLsbD 6 = true ↔ s.port.attn.device ≠ 0 ∨ (∃ l, s.port.attn.links.get l ≠ 0)
              ∨ ∃ e ∈ s.port.attn.handles, e.flags ≠ 0)
          ∧ b0.getLsbD 5 = s.boundary.present ∧ b0.getLsbD 4 = false
          ∧ (∀ t : Tag, b0.getLsbD t.val = true ↔ s.port.tags.get t = .free)
          ∧ b1.toNat = 16 * s.port.completions.length + s.port.lastAccept.ctorIdx
          ∧ b2.toNat = s.commit.state.ctorIdx
          ∧ b3 ++ b4 = s.commit.epoch
          ∧ (∀ l : LinkId, b5.toNat / 4 ^ l.val % 4 = (s.links.get l).state.ctorIdx)
          ∧ b6 = crc8 [b0, b1, b2, b3, b4, b5])
      ∧ (∀ (b : Byte) (bs : List Byte), b ≠ 0x51 → b ≠ 0xC3 → b ≠ 0x5A → exec (.voidTransaction (some b) bs) s
          = .next { s with port := { s.port with sdo := List.replicate (bs.length + 1) filler } })
      ∧ ∀ bs, exec (.voidTransaction none bs) s = .next { s with port := { s.port with sdo := [] } })
    ∧ (∀ bs : List Byte, exec (.voidTransaction (some 0x51) bs) s = exec (.submitRefused bs) s
        ∧ exec (.voidTransaction (some 0xC3) bs) s = exec (.collect bs.length) s
        ∧ exec (.voidTransaction (some 0x5A) bs) s = exec (.status bs.length) s)
    ∧ (s.phase = .inReset →
        (∀ n, exec (.collect n) s = .next s) ∧ (∀ n, exec (.status n) s = .next s)
        ∧ (∀ b bs, exec (.voidTransaction b bs) s = .next s) ∧ (∀ f, exec (.submitRefused f) s = .next s)
        ∧ (∀ i, requestOf i ≠ none → exec i s = .next s))

/-- A SUBMIT that fails a check of R175 changes the last acceptance result and nothing else, and the first check that fails
gives the result. The length of DISCARD's parameters, 7 bytes, is the model's choice (log 12). -/
def Obligations.SubmitRefusedByTheFirstFailingCheck : Prop :=
  ∀ (s : State) (f : List Byte), s.phase ≠ .inReset →
    (s.port.state = .resetting → exec (.submitRefused f) s = .next (refusedWith .resetting f s))
    ∧ (s.port.state = .ready →
        (¬ goodCheck f → exec (.submitRefused f) s = .next (refusedWith .badFrame f s))
        ∧ (∀ (k t : Byte) (ps : List Byte) (c : Byte), f = k :: t :: (ps ++ [c]) → goodCheck f →
            (¬ (1 ≤ k.toNat ∧ k.toNat ≤ 36) → exec (.submitRefused f) s = .next (refusedWith .unknownRequest f s))
            ∧ ((1 ≤ k.toNat ∧ k.toNat ≤ 36) → (¬ (t.toNat ≤ 3 ∧ carriesCount k ps)) →
                exec (.submitRefused f) s = .next (refusedWith .badFrame f s))
            ∧ ((1 ≤ k.toNat ∧ k.toNat ≤ 36) → carriesCount k ps →
                ∀ tag : Tag, t.toNat = tag.val → s.port.tags.get tag ≠ .free →
                  exec (.submitRefused f) s = .next (refusedWith .tagInUse f s))))

/-- The bytes that spell a well-formed request have, as a SUBMIT, the effect of that request's own command, in every state of
the port. The model's choice, log 22: the row SUBMIT_REFUSED may be given a frame that is accepted. A CLEAR whose scope is neither
LINKS nor ALL, which no command stands for (log 36), completes BAD_PARAMETER and changes nothing (R187). -/
def Obligations.FrameOfARequestRunsTheRequest : Prop :=
  (∀ (i : Instr) (s : State), i.WellFormed → requestOf i ≠ none →
    exec (.submitRefused (encodeFrame i)) s = exec i s)
  ∧ ∀ (s : State) (b scope : Byte) (t : Tag), Accepts s b t → 1 < scope.toNat →
    exec (.submitRefused [0x24, b, scope, crc8 [0x24, b, scope]]) s = .next (answered s 1 t .clear .badParameter [])

/-- Every well-formed request's frame is read back as that request, with every field at every value; and a frame the port reads as
a request is that request's frame, byte for byte, so that no two frames spell one request (R175, R191, R192). DISCARD's layout in
them is the model's choice (log 12). -/
def Obligations.FramesAndRequestsCorrespond : Prop :=
  (∀ i : Instr, i.WellFormed → requestOf i ≠ none → decodeFrame (encodeFrame i) = some i)
  ∧ ∀ (f : List Byte) (i : Instr), decodeFrame f = some i → encodeFrame i = f ∧ i.WellFormed

/-! ### Attention, the mask, IDENTIFY (sections 10.5 and 10.6) -/

/-- ATTENTION (R183): the first eight subjects of the fixed order that hold a raised flag are returned and cleared, the RETIRED
generation of a returned handle with them (R182); every other entry is kept with its flags and its RETIRED generation, and the more
mark says whether a raised flag is left. The layout of the result is log 10. SET_ATTN_MASK (R184): a mask of the 20 reasons is taken
and returned; a mask with a bit beyond them changes nothing. IDENTIFY (R186): vendor code 4187, part code 480, revision 1, and no
other effect. -/
def Obligations.AttentionMaskAndIdentify : Prop :=
  ∀ (s : State) (b : Byte) (t : Tag), Accepts s b t →
    (s.port.attn.handles.length = Config.maxHandle → ∃ (attn : AttnSet) (xs : List Subject),
      exec (.attention b) s = .next (answered { s with port := { s.port with attn := attn } } 0 t .attention .ok
        (xs.flatMap (attentionEntry s) ++ [u8 xs.length, markByte (decide (∃ x ∈ subjects, attn.flagsOf x ≠ 0))]))
      ∧ xs = (subjects.filter (fun x => s.port.attn.flagsOf x ≠ 0)).take 8
      ∧ (∀ x ∈ subjects, attn.flagsOf x = if x ∈ xs then 0 else s.port.attn.flagsOf x)
      ∧ attn.handles.length = 80
      ∧ ∀ h, 1 ≤ h → h ≤ 80 →
          attn.handles[h - 1]? = if Subject.handle h ∈ xs then some ⟨0, none⟩ else s.port.attn.handles[h - 1]?)
    ∧ (∀ m : Flags, exec (.setAttnMask b (m.setWidth 24)) s
      = .next (answered { s with port := { s.port with mask := m } } 3 t .setAttnMask .ok (flagBytes m)))
    ∧ (∀ m : BitVec 24, (∃ i, 20 ≤ i ∧ m.getLsbD i = true) →
        exec (.setAttnMask b m) s = .next (answered s 3 t .setAttnMask .badParameter []))
    ∧ ∃ v1 v0 p1 p0 r : Byte,
        exec (.identify b) s = .next (answered s 0 t .identify .ok [v1, v0, p1, p0, r])
        ∧ (v1 ++ v0).toNat = 4187 ∧ (p1 ++ p0).toNat = 480 ∧ r.toNat = 1

/-- ATTN_N (R185): asserted while a completion waits or a raised flag is of a reason the mask enables, released otherwise, in
device reset and in the start-up interval. -/
def Obligations.AttnFollowsCompletionsAndFlags : Prop :=
  ∀ s : State, attnAsserted s = true ↔
    s.phase = .operating ∧ (s.port.completions ≠ [] ∨ ∃ i < 20, s.port.mask.getLsbD i = true
      ∧ (s.port.attn.device.getLsbD i = true ∨ (∃ l, (s.port.attn.links.get l).getLsbD i = true)
          ∨ ∃ e ∈ s.port.attn.handles, e.flags.getLsbD i = true))

/-! ### The Tile Directory (chapter 1) -/

/-- LOOKUP_ID (R22): the reference and state of the record that holds the ID, whatever its state; NO_SUCH_HANDLE when no record
holds it. LOOKUP_POS (R23): OUT_OF_RANGE beyond column or row 31, otherwise the record whose committed position is the cell, or
NO_SUCH_HANDLE. DESCRIBE (R24): every field of the record the reference names, in the order of the rule. No state changes. Whether a
STALE record's grace time has reached the period, for the mark of a deferred expiry, and its whole seconds are computed from the
exact time in units of 10 us, which is the model's choice (log 39). -/
def Obligations.LookupsAndDescribeReadTheDirectory : Prop :=
  ∀ (s : State) (b : Byte) (t : Tag), Accepts s b t →
    (∀ u : Uid,
      (∀ r, Sole (fun x => x.uid = u) s.dir.records r →
        exec (.lookupId b u) s
          = .next (answered s 8 t .lookupId .ok [u8 r.ref.handle, u8 r.ref.gen, u8 r.state.ctorIdx]))
      ∧ ((∀ r ∈ s.dir.records, r.uid ≠ u) →
          exec (.lookupId b u) s = .next (answered s 8 t .lookupId .noSuchHandle [])))
    ∧ (∀ c r : Byte,
        ((31 < c.toNat ∨ 31 < r.toNat) → exec (.lookupPos b c r) s = .next (answered s 2 t .lookupPos .outOfRange []))
        ∧ (c.toNat ≤ 31 → r.toNat ≤ 31 →
            (∀ x, Sole (fun x => x.pos = some ⟨c.toNat, r.toNat⟩) s.dir.records x →
              exec (.lookupPos b c r) s
                = .next (answered s 2 t .lookupPos .ok [u8 x.ref.handle, u8 x.ref.gen, u8 x.state.ctorIdx]))
            ∧ ((∀ x ∈ s.dir.records, x.pos ≠ some ⟨c.toNat, r.toNat⟩) →
                exec (.lookupPos b c r) s = .next (answered s 2 t .lookupPos .noSuchHandle []))))
    ∧ ∀ (h g : Byte) (r : Record) (job : Option Job), Names s ⟨h.toNat, g.toNat⟩ r →
        (∀ j, job = some j → Sole (fun x => x.ref = r.ref) (allJobs s) j) → (job = none → ∀ j ∈ allJobs s, j.ref ≠ r.ref) →
        exec (.describe b ⟨h, g⟩) s = .next (answered s 2 t .describe .ok
          ([h, g] ++ uidBytes r.uid ++ halfBytes r.model ++ [u8 r.capacity, u8 r.state.ctorIdx]
            ++ [u8 r.loc.link.val, u8 r.loc.hop, if r.state = .stale then 1 else 0]
            ++ (r.pos.elim [0xFF, 0xFF] fun c => [u8 c.col, u8 c.row])
            ++ halfBytes r.groups ++ halfBytes r.synced ++ [u8 r.miss]
            ++ (r.stale.elim [0xFF, 0xFF, 0xFF] fun i =>
                  u8 i.reason.ctorIdx :: halfBytes (BitVec.ofNat 16 (min ((s.now - i.since) / 100000) 65535)))
            ++ (job.elim [0xFF, 0xFF] fun j => [u8 j.round, u8 j.phase.ctorIdx])
            ++ [if s.commit.state ≠ .idle ∧ s.dir.grace ≠ 0
                  ∧ (∃ i, r.stale = some i ∧ i.since + s.dir.grace * 100000 ≤ s.now) then 1 else 0]))

/-- A handle reference that fails its check completes NO_SUCH_HANDLE or STALE_HANDLE, and nothing else changes (R2), in
DESCRIBE, RETIRE, RESOLVE (its key number in range), TILE_READ and TILE_WRITE, which repeat the request's fields (R169; the
fields at acceptance: log 11). -/
def Obligations.FailingReferenceIsRefused : Prop :=
  ∀ (s : State) (b : Byte) (t : Tag) (h g : Byte) (st : Status), Accepts s b t →
    FailsWith s ⟨h.toNat, g.toNat⟩ st →
    exec (.describe b ⟨h, g⟩) s = .next (answered s 2 t .describe st [])
    ∧ (∀ f : Byte, f.toNat ≤ 1 → exec (.retire b ⟨h, g⟩ f) s = .next (answered s 3 t .retire st []))
    ∧ (∀ k : Byte, k.toNat ≤ 63 → exec (.resolve b ⟨h, g⟩ k) s = .next (answered s 3 t .resolve st []))
    ∧ (∀ a : Byte, exec (.tileRead b ⟨h, g⟩ a) s = .next (answered s 3 t .tileRead st [h, g, a]))
    ∧ (∀ (a v1 v0 : Byte), exec (.tileWrite b ⟨h, g⟩ a (v1 ++ v0)) s
        = .next (answered s 5 t .tileWrite st [h, g, a, v1, v0]))

/-- LIST (R25): BAD_PARAMETER for an empty filter, one with a bit beyond the four states, or a cursor outside 1..80;
otherwise the first eight of the records in a filtered state from the cursor upwards, and the next cursor. With the records in
ascending handle order, which every step keeps (EveryStepKeepsTheHubSound), the references are in that order. The result holds no
entry beyond those returned: log 10. -/
def Obligations.ListGivesEightInHandleOrder : Prop :=
  ∀ (s : State) (b f c : Byte) (t : Tag), Accepts s b t →
    ((f = 0 ∨ 15 < f.toNat ∨ c.toNat = 0 ∨ 80 < c.toNat) →
      exec (.list b f c) s = .next (answered s 2 t .list .badParameter []))
    ∧ (f ≠ 0 → f.toNat ≤ 15 → 1 ≤ c.toNat → c.toNat ≤ 80 →
        s.dir.records.Pairwise (fun x y => x.ref.handle < y.ref.handle) →
        ∃ xs : List Record,
          (∀ r, r ∈ xs ↔ r ∈ s.dir.records ∧ f.getLsbD r.state.ctorIdx = true ∧ c.toNat ≤ r.ref.handle)
          ∧ xs.Pairwise (fun x y => x.ref.handle < y.ref.handle)
          ∧ exec (.list b f c) s = .next (answered s 2 t .list .ok
              ((xs.take 8).flatMap (fun r => [u8 r.ref.handle, u8 r.ref.gen])
                ++ [match xs[7]? with
                    | some r => if r.ref.handle < 80 then u8 (r.ref.handle + 1) else 0
                    | none => 0])))

/-- SET_GRACE completes OK and sets the grace period (R16). With the commit controller not IDLE that is its whole effect; with
it IDLE the records whose grace time has reached a non-zero new period leave the directory, and the others stay. In a sound hub they
are retired in stale-list order (R17): their handles join the tail of the free-handle list with their generations advanced, RETIRED
is raised alone with the old generation, and no entry or staged change of theirs is left. Grace time is compared in units of 10 us
(log 39). -/
def Obligations.SetGraceExpiresWhatHasRun : Prop :=
  ∀ (s : State) (b n : Byte) (t : Tag), Accepts s b t →
    (s.commit.state ≠ .idle → exec (.setGrace b n) s
      = .next (answered { s with dir := { s.dir with grace := n.toNat } } 1 t .setGrace .ok []))
    ∧ (s.commit.state = .idle → StaleListed s →
        ∃ s', exec (.setGrace b n) s = .next s' ∧ Completed s s' ⟨t, .setGrace, .ok, 0, []⟩
          ∧ s'.dir.grace = n.toNat
          ∧ s'.dir.records = s.dir.records.filter (fun r => !graceReached s.now n.toNat r)
          ∧ s'.keys = s.keys ∧ s'.boundary = s.boundary ∧ s'.commit.state = .idle ∧ s'.commit.epoch = s.commit.epoch
          ∧ s'.now = s.now ∧ s'.port.mask = s.port.mask
          ∧ (WellShaped s → HubSound s → ∀ expired,
              expired = s.dir.staleList.filter (fun h =>
                s.dir.records.any (fun r => r.ref.handle == h && graceReached s.now n.toNat r)) →
              s'.dir.freeList = s.dir.freeList ++ expired
              ∧ s'.dir.staleList = s.dir.staleList.filter (fun h => !expired.contains h)
              ∧ s'.dir.marks = s.dir.marks
              ∧ (∀ h, 1 ≤ h → h ≤ 80 → genOf s' h = if h ∈ expired then (genOf s h + 1) % 16 else genOf s h)
              ∧ (∀ h ∈ expired, s'.port.attn.handles[h - 1]? = some ⟨Reason.retired.flag, some (genOf s h)⟩)
              ∧ s'.store = s.store.filter (fun e => !expired.any e.namesHandle)
              ∧ s'.staging = s.staging.filter (fun c => !expired.any (fun h => c.namesHandle h))))

/-- RETIRE that passes its checks runs the cascade on the directory, the store, the staging list, the jobs and the attention set (R17,
R60, R182), and on a reachable record the two steps on its link (R19). It is refused IN_USE for a reachable record without FORCE, then
BUSY while a commit holds the record, and a FORCE byte other than 00h and 01h completes BAD_PARAMETER; nothing else changes then
(R18, R191). -/
def Obligations.RetireRunsTheCascadeOrIsRefused : Prop :=
  (∀ (s : State) (b h g f : Byte) (t : Tag) (r : Record), Accepts s b t → Names s ⟨h.toNat, g.toNat⟩ r →
      1 ≤ h.toNat → h.toNat ≤ 80 → s.dir.gens.length = 80 → s.port.attn.handles.length = 80 →
      (f = 1 ∨ (f = 0 ∧ r.state = .stale)) →
      (s.commit.state = .idle ∨ ((∀ c ∈ s.staging, c.namesHandle h.toNat = false)
        ∧ ∀ p ∈ s.commit.participants, p.ref ≠ r.ref)) →
      ∃ s', exec (.retire b ⟨h, g⟩ f) s = .next s' ∧ Completed s s' ⟨t, .retire, .ok, 0, [h, g]⟩
        ∧ s'.store = s.store.filter (fun e => !e.namesHandle h.toNat)
        ∧ s'.staging = s.staging.filter (fun c => !c.namesHandle h.toNat)
        ∧ s'.dir = { s.dir with
            gens := s.dir.gens.set (h.toNat - 1) ((g.toNat + 1) % 16)
            records := s.dir.records.filter (fun x => x.ref.handle != h.toNat)
            freeList := s.dir.freeList ++ [h.toNat]
            staleList := s.dir.staleList.filter (fun x => x != h.toNat) }
        ∧ (∀ j ∈ allJobs s', j.ref ≠ r.ref)
        ∧ s'.port.attn.handles[h.toNat - 1]? = some ⟨Reason.retired.flag, some g.toNat⟩
        ∧ (s'.port.attn.device = if (∃ c ∈ s.staging, c.namesHandle h.toNat = true)
            then s.port.attn.device ||| Reason.stagingPruned.flag else s.port.attn.device)
        ∧ (r.state ≠ .stale → r.loc.hop < 16 → (s.links.get r.loc.link).hops.length = 16 →
            (s'.links.get r.loc.link).hops[r.loc.hop]? = some (.unlisted .retired)
            ∧ (clearTxn r.loc.hop ∈ (s'.links.get r.loc.link).scanQ
                ∨ (∃ fl, (s'.links.get r.loc.link).flight = some fl ∧ fl.txn = clearTxn r.loc.hop)))
        ∧ (∀ (n : Tag) (x : Running) (q : Txn), q ∈ (s.links.get r.loc.link).hostQ → q.req = .tag n →
            s.port.tags.get n = .running x → x.ref? = some r.ref → Completed s s' ⟨n, x.kind, .notReachable, 0, x.fields⟩)
        ∧ s'.keys = s.keys ∧ s'.boundary = s.boundary ∧ s'.commit.state = s.commit.state
        ∧ s'.commit.epoch = s.commit.epoch ∧ steady s' = steady (received 3 s))
  ∧ ∀ (s : State) (b h g : Byte) (t : Tag) (r : Record), Accepts s b t →
      (∀ f : Byte, 1 < f.toNat → exec (.retire b ⟨h, g⟩ f) s = .next (answered s 3 t .retire .badParameter []))
      ∧ (Names s ⟨h.toNat, g.toNat⟩ r →
          (r.state ≠ .stale → exec (.retire b ⟨h, g⟩ 0) s = .next (answered s 3 t .retire .inUse []))
          ∧ (∀ f : Byte, (f = 1 ∨ (f = 0 ∧ r.state = .stale)) → s.commit.state ≠ .idle →
              ((∃ c ∈ s.staging, c.namesHandle h.toNat = true) ∨ ∃ p ∈ s.commit.participants, p.ref = r.ref) →
              exec (.retire b ⟨h, g⟩ f) s = .next (answered s 3 t .retire .busy [])))

/-- GRACE_EXPIRY of the head of the stale list: the clock comes to the moment its grace time reaches the period; with the
commit controller IDLE the record is retired, otherwise its expiry is deferred and it stays (R14, R15). That moment is the stale since plus the
period exact to the 10 us, which is the model's choice (log 39); the clock is log 2. -/
def Obligations.GraceExpiryRetiresOrDefers : Prop :=
  ∀ (s : State) (h : Nat) (r : Record) (i : StaleInfo) (rest : List Nat), s.phase = .operating →
    Names s r.ref r → r.ref.handle = h → r.stale = some i → s.dir.grace ≠ 0 → s.dir.staleList = h :: rest →
    (s.commit.state = .idle →
      ∃ s', exec (.graceExpiry h) s = .next s'
        ∧ s'.dir.records = s.dir.records.filter (fun x => x.ref.handle != h)
        ∧ s'.dir.freeList = s.dir.freeList ++ [h]
        ∧ s'.dir.staleList = (h :: rest).filter (fun x => x != h)
        ∧ s'.store = s.store.filter (fun e => !e.namesHandle h)
        ∧ s'.staging = s.staging.filter (fun c => !c.namesHandle h)
        ∧ s'.dir.grace = s.dir.grace ∧ s'.keys = s.keys ∧ s'.boundary = s.boundary
        ∧ s'.commit.epoch = s.commit.epoch
        ∧ s'.now = max s.now (i.since + s.dir.grace * 100000))
    ∧ (s.commit.state ≠ .idle →
        exec (.graceExpiry h) s = .next { s with now := max s.now (i.since + s.dir.grace * 100000) })

/-! ### The Key Table and the Setting Store (chapter 2) -/

/-- DEFINE_KEY (R30): the checks in their order, and a key record with introduced set that joins the table, which stays in
ascending key numbers. UNDEFINE_KEY (R32, R33): the checks in their order; then the key leaves the table, every other thing off the
wire stays, and if the key was not introduced every catch-up job starts again from round 1 in phase PREPARING with a new change
list (R152, R162). A refusal changes nothing. That the table stands in ascending key numbers is the model's form of it. -/
def Obligations.KeysAreDefinedAndUndefined : Prop :=
  ∀ (s : State) (b k : Byte) (t : Tag), Accepts s b t →
    (∀ (a : Byte) (d lo hi : Half),
      (63 < k.toNat → exec (.defineKey b k a d lo hi) s = .next (answered s 8 t .defineKey .badParameter []))
      ∧ (k.toNat ≤ 63 → s.commit.state ≠ .idle →
          exec (.defineKey b k a d lo hi) s = .next (answered s 8 t .defineKey .busy []))
      ∧ (k.toNat ≤ 63 → s.commit.state = .idle →
          ((∃ x ∈ s.keys, x.number = k.toNat ∨ x.addr = a) →
            exec (.defineKey b k a d lo hi) s = .next (answered s 8 t .defineKey .inUse []))
          ∧ ((∀ x ∈ s.keys, x.number ≠ k.toNat ∧ x.addr ≠ a) →
              ((240 ≤ a.toNat ∨ d.toNat < lo.toNat ∨ hi.toNat < d.toNat) →
                exec (.defineKey b k a d lo hi) s = .next (answered s 8 t .defineKey .outOfRange []))
              ∧ (a.toNat < 240 → lo.toNat ≤ d.toNat → d.toNat ≤ hi.toNat →
                  ∃ before after, s.keys = before ++ after
                    ∧ exec (.defineKey b k a d lo hi) s = .next (answered
                        { s with keys := before ++ ⟨k.toNat, a, d, lo, hi, true⟩ :: after } 8 t .defineKey .ok [k])
                    ∧ (s.keys.Pairwise (fun x y => x.number < y.number) →
                        (before ++ (⟨k.toNat, a, d, lo, hi, true⟩ : KeyRec) :: after).Pairwise (fun x y => x.number < y.number))))))
    ∧ (63 < k.toNat → exec (.undefineKey b k) s = .next (answered s 1 t .undefineKey .badParameter []))
    ∧ (k.toNat ≤ 63 → s.commit.state ≠ .idle → exec (.undefineKey b k) s = .next (answered s 1 t .undefineKey .busy []))
    ∧ (k.toNat ≤ 63 → s.commit.state = .idle → (∀ x ∈ s.keys, x.number ≠ k.toNat) →
        exec (.undefineKey b k) s = .next (answered s 1 t .undefineKey .keyUndefined []))
    ∧ (k.toNat ≤ 63 → s.commit.state = .idle → ∀ x, Sole (fun y => y.number = k.toNat) s.keys x →
        (((∃ e ∈ s.store, e.key = k.toNat) ∨ ∃ c ∈ s.staging, c.namesKey k.toNat = true) →
          exec (.undefineKey b k) s = .next (answered s 1 t .undefineKey .inUse []))
        ∧ ((∀ e ∈ s.store, e.key ≠ k.toNat) → (∀ c ∈ s.staging, c.namesKey k.toNat = false) →
            ∃ s', exec (.undefineKey b k) s = .next s'
              ∧ offWire s' = offWire (answered { s with keys := s.keys.filter (fun y => y.number != k.toNat) }
                  1 t .undefineKey .ok [k])
              ∧ (x.introduced = false → ∀ j ∈ allJobs s', j.round = 1 ∧ j.acked = 0 ∧ j.phase = .preparing
                  ∧ j.list = changeList s'.keys (committedView s) j.ref)))

/-- DESCRIBE_KEY (R34): the key record, the number of store entries and the number of staged SET and CLEAR changes that name the
key. READ_ENTRY (R39): BAD_PARAMETER for a key number above 63, a group number above 15 or a scope
that R191 does not define, then the check of a TILE scope's
reference, then KEY_UNDEFINED, then the value of the entry at the scope and key, or EMPTY. No state changes. -/
def Obligations.KeysAndEntriesAreRead : Prop :=
  ∀ (s : State) (b k : Byte) (t : Tag), Accepts s b t →
    ((63 < k.toNat → exec (.describeKey b k) s = .next (answered s 1 t .describeKey .badParameter []))
      ∧ (k.toNat ≤ 63 → (∀ x ∈ s.keys, x.number ≠ k.toNat) →
          exec (.describeKey b k) s = .next (answered s 1 t .describeKey .keyUndefined []))
      ∧ (k.toNat ≤ 63 → ∀ x, Sole (fun y => y.number = k.toNat) s.keys x →
          exec (.describeKey b k) s = .next (answered s 1 t .describeKey .ok
            ([k, x.addr] ++ halfBytes x.dflt ++ halfBytes x.min ++ halfBytes x.max ++ [if x.introduced then 1 else 0]
              ++ halfBytes (BitVec.ofNat 16 (s.store.filter (fun e => e.key == k.toNat)).length)
              ++ [u8 (s.staging.filter (Change.namesKey k.toNat)).length]))))
    ∧ (∀ f, scopeOf f = none → exec (.readEntry b f k) s = .next (answered s 4 t .readEntry .badParameter []))
    ∧ (∀ (f : ScopeField) (sc : Scope), scopeOf f = some sc →
        (¬ EntryInRange sc k → exec (.readEntry b f k) s = .next (answered s 4 t .readEntry .badParameter []))
        ∧ (EntryInRange sc k →
            (∀ ref st, sc = .tile ref → FailsWith s ref st →
              exec (.readEntry b f k) s = .next (answered s 4 t .readEntry st []))
            ∧ (ScopeNames s sc →
                ((∀ x ∈ s.keys, x.number ≠ k.toNat) →
                  exec (.readEntry b f k) s = .next (answered s 4 t .readEntry .keyUndefined []))
                ∧ ((∃ x ∈ s.keys, x.number = k.toNat) →
                    (∀ e, Sole (fun e => e.isAt sc k.toNat) s.store e →
                      exec (.readEntry b f k) s = .next (answered s 4 t .readEntry .ok (halfBytes e.value)))
                    ∧ ((∀ e ∈ s.store, e.isAt sc k.toNat = false) →
                        exec (.readEntry b f k) s = .next (answered s 4 t .readEntry .empty []))))))

/-- LIST_ENTRIES (R40): BAD_PARAMETER for a cursor that names no place; otherwise the first eight entries at or after the place in
listing order, the place after the eighth or the end marker FFFFFFh, and the number of entries. With the store in listing order,
which every step keeps (EveryStepKeepsTheCommitSound), the entries returned are in that order. The result holds no entry beyond those
returned: log 10. No state changes. -/
def Obligations.ListEntriesGivesEightInListingOrder : Prop :=
  ∀ (s : State) (b c p k : Byte) (t : Tag), Accepts s b t →
    ((63 < k.toNat ∨ 2 < c.toNat ∨ (c = 0 ∧ p ≠ 0) ∨ (c = 1 ∧ 15 < p.toNat) ∨ (c = 2 ∧ (p = 0 ∨ 80 < p.toNat))) →
      exec (.listEntries b ⟨c, p, k⟩) s = .next (answered s 3 t .listEntries .badParameter []))
    ∧ (∀ rank, k.toNat ≤ 63 →
        ((c = 0 ∧ p = 0 ∧ rank = k.toNat) ∨ (c = 1 ∧ p.toNat ≤ 15 ∧ rank = 64 * (1 + p.toNat) + k.toNat)
          ∨ (c = 2 ∧ 1 ≤ p.toNat ∧ p.toNat ≤ 80 ∧ rank = 64 * (16 + p.toNat) + k.toNat)) →
        s.store.Pairwise (fun x y => x.rank < y.rank) →
        ∃ es : List Entry,
          (∀ e, e ∈ es ↔ e ∈ s.store ∧ rank ≤ placeRank e.scope e.key)
          ∧ es.Pairwise (fun x y => placeRank x.scope x.key < placeRank y.scope y.key)
          ∧ exec (.listEntries b ⟨c, p, k⟩) s = .next (answered s 3 t .listEntries .ok
              ((es.take 8).flatMap (fun e => scopeBytes e.scope ++ [u8 e.key] ++ halfBytes e.value)
                ++ (match es[7]? with
                    | some e => if placeRank e.scope e.key < 64 * (16 + 80) + 63
                        then cursorBytes (placeRank e.scope e.key + 1) else [0xFF, 0xFF, 0xFF]
                    | none => [0xFF, 0xFF, 0xFF])
                ++ halfBytes (BitVec.ofNat 16 s.store.length))))

/-- RESOLVE (R43, R41): BAD_PARAMETER, then the reference's check (FailingReferenceIsRefused), then KEY_UNDEFINED; otherwise
the effective value in the committed view with its source: the record's TILE entry, else the entry of the lowest-numbered of
its groups that has one, else the WALL entry, else the key's default. No state changes. -/
def Obligations.ResolveGivesTheFirstSource : Prop :=
  ∀ (s : State) (b h g k : Byte) (t : Tag) (r : Record), Accepts s b t →
    (63 < k.toNat → exec (.resolve b ⟨h, g⟩ k) s = .next (answered s 3 t .resolve .badParameter []))
    ∧ (k.toNat ≤ 63 → Names s ⟨h.toNat, g.toNat⟩ r →
        ((∀ x ∈ s.keys, x.number ≠ k.toNat) →
          exec (.resolve b ⟨h, g⟩ k) s = .next (answered s 3 t .resolve .keyUndefined []))
        ∧ (∀ x, Sole (fun y => y.number = k.toNat) s.keys x →
            ∀ (v : Half) (src : List Byte),
              ((∃ e, Sole (fun e => e.scope = .tile r.ref ∧ e.key = k.toNat) s.store e ∧ v = e.value ∧ src = [0, 0])
                ∨ ((∀ e ∈ s.store, ¬ (e.scope = .tile r.ref ∧ e.key = k.toNat))
                    ∧ ((∃ (n : Nat) (e : Entry), n < 16 ∧ r.groups.getLsbD n = true
                          ∧ Sole (fun e => e.scope = .group n ∧ e.key = k.toNat) s.store e
                          ∧ (∀ m < n, r.groups.getLsbD m = true → ∀ e ∈ s.store, ¬ (e.scope = .group m ∧ e.key = k.toNat))
                          ∧ v = e.value ∧ src = [1, u8 n])
                      ∨ ((∀ m < 16, r.groups.getLsbD m = true → ∀ e ∈ s.store, ¬ (e.scope = .group m ∧ e.key = k.toNat))
                          ∧ ((∃ e, Sole (fun e => e.scope = .wall ∧ e.key = k.toNat) s.store e ∧ v = e.value ∧ src = [2, 0])
                            ∨ ((∀ e ∈ s.store, ¬ (e.scope = .wall ∧ e.key = k.toNat)) ∧ v = x.dflt ∧ src = [3, 0])))))) →
              exec (.resolve b ⟨h, g⟩ k) s = .next (answered s 3 t .resolve .ok
                (halfBytes v ++ src ++ [if x.introduced then 1 else 0]))))

/-! ### The Staging List (chapter 3) -/

/-- The stage requests whose checks pass stage their change, the commit controller IDLE (R51, R52, R53, R54). STAGE_SET and
STAGE_CLEAR: the scope and key are in range, a TILE scope names a record, the key is defined and a SET's value is within its
range. STAGE_PLACE, STAGE_UNPLACE and STAGE_GROUPS: the reference names a record, in whatever state; a PLACE's column and row are
at most 31; a group set is given as up to 16 numbers of 0..15, in any order and with repetitions. -/
def Obligations.StageRequestsTakeTheirChange : Prop :=
  ∀ (s : State) (b : Byte) (t : Tag), Accepts s b t → s.commit.state = .idle →
    (∀ (k : Byte) (f : ScopeField) (sc : Scope) (x : KeyRec), scopeOf f = some sc → EntryInRange sc k → ScopeNames s sc →
      Sole (fun y => y.number = k.toNat) s.keys x →
      (∀ v : Half, x.min.toNat ≤ v.toNat → v.toNat ≤ x.max.toNat →
        TakesChange s 6 t .stageSet (.setVal sc k.toNat v) (exec (.stageSet b f k v) s))
      ∧ TakesChange s 4 t .stageClear (.clearVal sc k.toNat) (exec (.stageClear b f k) s))
    ∧ ∀ h g : Byte, (∃ r, Names s ⟨h.toNat, g.toNat⟩ r) →
      (∀ c r d : Byte, c.toNat ≤ 31 → r.toNat ≤ 31 → d.toNat ≤ 1 →
        TakesChange s 5 t .stagePlace (.place ⟨h.toNat, g.toNat⟩ ⟨c.toNat, r.toNat⟩ (d = 1)) (exec (.stagePlace b ⟨h, g⟩ c r d) s))
      ∧ TakesChange s 2 t .stageUnplace (.unplace ⟨h.toNat, g.toNat⟩) (exec (.stageUnplace b ⟨h, g⟩) s)
      ∧ (∀ (ns : List Byte) (set : GroupSet), ns.length ≤ 16 → (∀ n ∈ ns, n.toNat ≤ 15) →
          (∀ i < 16, set.getLsbD i = true ↔ ∃ n ∈ ns, n.toNat = i) →
          TakesChange s (3 + ns.length) t .stageGroups (.groups ⟨h.toNat, g.toNat⟩ set) (exec (.stageGroups b ⟨h, g⟩ ns) s))

/-- The refusals of the stage requests in the order of R50, checks 1 to 5: BAD_PARAMETER, BUSY while the commit controller is not
IDLE (R55), a failing reference, KEY_UNDEFINED, OUT_OF_RANGE. A refusal changes nothing else. -/
def Obligations.StageRequestsRefuseInOrder : Prop :=
  ∀ (s : State) (b : Byte) (t : Tag), Accepts s b t →
    (∀ (f : ScopeField) (k : Byte) (v : Half), scopeOf f = none →
      exec (.stageSet b f k v) s = .next (answered s 6 t .stageSet .badParameter [])
      ∧ exec (.stageClear b f k) s = .next (answered s 4 t .stageClear .badParameter []))
    ∧ (∀ (f : ScopeField) (sc : Scope) (k : Byte) (v : Half), scopeOf f = some sc →
      let both := fun st => exec (.stageSet b f k v) s = .next (answered s 6 t .stageSet st [])
        ∧ exec (.stageClear b f k) s = .next (answered s 4 t .stageClear st [])
      (¬ EntryInRange sc k → both .badParameter)
      ∧ (EntryInRange sc k → s.commit.state ≠ .idle → both .busy)
      ∧ (EntryInRange sc k → s.commit.state = .idle → ∀ ref st, sc = .tile ref → FailsWith s ref st → both st)
      ∧ (EntryInRange sc k → s.commit.state = .idle → ScopeNames s sc →
          ((∀ x ∈ s.keys, x.number ≠ k.toNat) → both .keyUndefined)
          ∧ (∀ x, Sole (fun y => y.number = k.toNat) s.keys x → (v.toNat < x.min.toNat ∨ x.max.toNat < v.toNat) →
              exec (.stageSet b f k v) s = .next (answered s 6 t .stageSet .outOfRange []))))
    ∧ (∀ (h g c r d : Byte) (ns : List Byte), ns.length ≤ 16 →
        let all := fun st => exec (.stagePlace b ⟨h, g⟩ c r d) s = .next (answered s 5 t .stagePlace st [])
          ∧ exec (.stageUnplace b ⟨h, g⟩) s = .next (answered s 2 t .stageUnplace st [])
          ∧ exec (.stageGroups b ⟨h, g⟩ ns) s = .next (answered s (3 + ns.length) t .stageGroups st [])
        (1 < d.toNat → exec (.stagePlace b ⟨h, g⟩ c r d) s = .next (answered s 5 t .stagePlace .badParameter []))
        ∧ ((∃ n ∈ ns, 15 < n.toNat) →
            exec (.stageGroups b ⟨h, g⟩ ns) s = .next (answered s (3 + ns.length) t .stageGroups .badParameter []))
        ∧ (d.toNat ≤ 1 → (∀ n ∈ ns, n.toNat ≤ 15) →
            (s.commit.state ≠ .idle → all .busy)
            ∧ (s.commit.state = .idle → (∀ st, FailsWith s ⟨h.toNat, g.toNat⟩ st → all st)
                ∧ ((∃ x, Names s ⟨h.toNat, g.toNat⟩ x) → (31 < c.toNat ∨ 31 < r.toNat) →
                    exec (.stagePlace b ⟨h, g⟩ c r d) s = .next (answered s 5 t .stagePlace .outOfRange [])))))

/-- DISCARD (R58): the checks in their order; ALL empties the list; a target takes the change that has it out of the list, the
changes behind it moving forward, or completes EMPTY. The layout of DISCARD's parameters is log 12. STAGING_LIST (R59), in every
commit state: the count, up to eight changes from the cursor upwards with their indices, and the index after the last of them when
changes stand beyond it, else the end marker FFh, no change beyond those returned (log 10); no state changes. -/
def Obligations.DiscardAndStagingList : Prop :=
  ∀ (s : State) (b : Byte) (t : Tag), Accepts s b t →
    (∀ c : Byte,
      (63 < c.toNat → exec (.stagingList b c) s = .next (answered s 1 t .stagingList .badParameter []))
      ∧ (c.toNat ≤ 63 → exec (.stagingList b c) s = .next (answered s 1 t .stagingList .ok
          (u8 s.staging.length
            :: ((s.staging.zipIdx.drop c.toNat).take 8).flatMap (fun x => u8 x.2 :: x.1.code :: x.1.fields)
            ++ [if c.toNat + 8 < s.staging.length then u8 (c.toNat + 8) else 0xFF]))))
    ∧ ∀ f : SelectorField,
      (selectorOf f = none → exec (.discard b f) s = .next (answered s 7 t .discard .badParameter []))
      ∧ ∀ sel, selectorOf f = some sel →
      ((∃ sc k, sel = .entry sc k ∧ (63 < k ∨ ∃ g, sc = .group g ∧ 15 < g)) →
        exec (.discard b f) s = .next (answered s 7 t .discard .badParameter []))
      ∧ ((∀ sc k, sel = .entry sc k → k ≤ 63 ∧ ∀ g, sc = .group g → g ≤ 15) →
          (s.commit.state ≠ .idle → exec (.discard b f) s = .next (answered s 7 t .discard .busy []))
          ∧ (s.commit.state = .idle →
              (sel = .all → exec (.discard b f) s = .next (answered { s with staging := [] } 7 t .discard .ok
                [u8 s.staging.length, 0]))
              ∧ (∀ ref st, ((∃ k, sel = .entry (.tile ref) k) ∨ sel = .position ref ∨ sel = .groupSet ref) →
                  FailsWith s ref st → exec (.discard b f) s = .next (answered s 7 t .discard st []))
              ∧ (∀ target, sel.target = some target →
                  (∀ ref, ((∃ k, sel = .entry (.tile ref) k) ∨ sel = .position ref ∨ sel = .groupSet ref) →
                    ∃ r, Names s ref r) →
                  (∀ before old after, s.staging = before ++ old :: after → sameTarget old.target target = true →
                    (∀ x ∈ before, sameTarget x.target target = false) →
                    exec (.discard b f) s = .next (answered { s with staging := before ++ after } 7 t .discard .ok
                      [1, u8 (before ++ after).length]))
                  ∧ ((∀ x ∈ s.staging, sameTarget x.target target = false) →
                      exec (.discard b f) s = .next (answered s 7 t .discard .empty [])))))

/-! ### The Commit Controller (chapter 4) -/

/-- COMMIT refused (R67, R68, R69): the six checks in their order, each with the fields its completion carries and the
committed epoch after them (R63; in these completions: log 13). What postSize, postView and participantsOf are is said by
CommitComputesItsPackets. A refusal changes nothing else. -/
def Obligations.CommitRefusedInOrder : Prop :=
  ∀ (s : State) (b p : Byte) (t : Tag), Accepts s b t →
    let refused := fun st res => exec (.commit b p) s = .next (answered s 1 t .commit st res)
    let epoch := halfBytes s.commit.epoch
    (1 < p.toNat → refused .badParameter epoch)
    ∧ (p.toNat ≤ 1 → s.commit.state ≠ .idle → refused .busy epoch)
    ∧ (p.toNat ≤ 1 → s.commit.state = .idle →
        (s.staging = [] → (∀ k ∈ s.keys, k.introduced = false) → refused .empty epoch)
        ∧ ((s.staging ≠ [] ∨ ∃ k ∈ s.keys, k.introduced = true) →
            (512 < postSize s.store s.staging →
              refused .full (halfBytes (BitVec.ofNat 16 (postSize s.store s.staging)) ++ epoch))
            ∧ (postSize s.store s.staging ≤ 512 →
                (∀ before ref cell d after occupant, s.staging = before ++ .place ref cell d :: after →
                  (∀ r c x, Change.place r c x ∈ before → PlaceStands s r c x) → PlaceMeets s ref cell d occupant →
                  refused .occupied (refBytes ref ++ [u8 cell.col, u8 cell.row] ++ refBytes occupant ++ epoch))
                ∧ (∀ displaced before q after, checkPlaces s.dir.records s.staging = .ok displaced →
                    participantsOf s (postView s displaced) = before ++ q :: after →
                    (∀ x ∈ before, x.pairs.length ≤ pendingCapacity s x) → pendingCapacity s q < q.pairs.length →
                    refused .overCapacity (refBytes q.ref ++ [u8 q.pairs.length, u8 (pendingCapacity s q)] ++ epoch)))))

/-- COMMIT accepted (R70, R72, R161): the COMMIT holds its tag; with a participant the controller is PREPARING with its deadline
running and the PREPARE packets queued behind what waits in the commit class of each link, with none it is ARMED; a catch-up
transaction on the wire is marked so that its job will not advance on it; nothing else off the wire changes. Deadlines are kept to the
10 us (log 45). -/
def Obligations.CommitAcceptedPreparesOrArms : Prop :=
  ∀ (s : State) (b p : Byte) (policy : Policy) (t : Tag) (displaced : List Ref) (post : View) (ps : List Participant),
    Accepts s b t → policyOf p = some policy → s.commit.state = .idle →
    (s.staging ≠ [] ∨ ∃ k ∈ s.keys, k.introduced = true) → postSize s.store s.staging ≤ 512 →
    checkPlaces s.dir.records s.staging = .ok displaced → post = postView s displaced → ps = participantsOf s post →
    (∀ q ∈ ps, q.pairs.length ≤ pendingCapacity s q) →
    ∃ s', exec (.commit b p) s = .next s'
      ∧ offWire s' = offWire { received 1 s with
          port := { (received 1 s).port with tags := s.port.tags.put t (.running .commit) }
          commit := { s.commit with
            state := if ps = [] then .armed else .preparing
            policy := some policy, tag := some t, postView := some post, displaced := displaced, participants := ps
            prepareDl := if ps = [] then none else some (s.now + s.commit.lengths.prepare * 100)
            armDl := if ps = [] then some (s.now + s.commit.lengths.arm * 100) else none
            applyDl := none, reason := none, applyCount := none } }
      ∧ (∀ q ∈ ps, q.status = .unprepared ∧ q.acked = 0 ∧ q.cancelSent = false)
      ∧ (∀ l, ∃ sent, (s.links.get l).commitQ ++ linkPrepares (s.commit.epoch + 1) ps l = sent ++ (s'.links.get l).commitQ
          ∧ (sent = [] ∨ ∃ f, (s'.links.get l).flight = some f ∧ sent = [f.txn]))
      ∧ (∀ l f ref, (s.links.get l).flight = some f → f.txn.req = .job ref →
          (s'.links.get l).flight = some { f with txn := { f.txn with req := .suspendedJob ref } })

/-- ABORT (R86) by the commit state: NOT_ACTIVE when IDLE, TOO_LATE in APPLYING, OK in CANCELLING with no effect, OK in PREPARING
and ARMED with entry to CANCELLING, reason HOST, a CANCEL going to the participants whose record is reachable at its place (log 16).
COMMIT_STATUS (R87) in every commit state: the state, the policy, the epoch, the counts and the cancel reason with its reference; no
state changes. -/
def Obligations.AbortAndCommitStatus : Prop :=
  ∀ (s : State) (b : Byte) (t : Tag), Accepts s b t →
    ((s.commit.state = .idle → exec (.abort b) s = .next (answered s 0 t .abort .notActive []))
      ∧ (s.commit.state = .applying → exec (.abort b) s = .next (answered s 0 t .abort .tooLate []))
      ∧ (s.commit.state = .cancelling → exec (.abort b) s = .next (answered s 0 t .abort .ok []))
      ∧ ((s.commit.state = .preparing ∨ s.commit.state = .armed) →
          ∃ s', exec (.abort b) s = .next s' ∧ Completed s s' ⟨t, .abort, .ok, 0, []⟩ ∧ EntersCancelling s s' .host))
    ∧ ∀ (prepared confirmed : Nat),
      (prepared = match s.commit.state with
        | .idle => 0
        | .preparing => s.commit.participants.countP (fun p => p.status == .prepared)
        | _ => s.commit.participants.countP (fun p => p.acked == (p.pairs.length + 5) / 6)) →
      confirmed = s.commit.participants.countP (fun p => p.status == .confirmed) →
      exec (.commitStatus b) s = .next (answered s 0 t .commitStatus .ok
        ([u8 s.commit.state.ctorIdx, s.commit.policy.elim 0xFF (fun p => u8 p.ctorIdx)] ++ halfBytes s.commit.epoch
          ++ [u8 s.commit.participants.length, u8 prepared, u8 confirmed]
          ++ (s.commit.reason.elim [0xFF, 0xFF, 0xFF] fun r => u8 (r.ctorIdx + 1) :: r.ref?.elim [0xFF, 0xFF] refBytes)))

/-- The prepare deadline (R74) and the arm deadline (R76): CANCELLING with reason DEADLINE under STRICT, and with reason
NO_BOUNDARY from ARMED under either policy; under LENIENT every UNPREPARED participant is EXCLUDED, its reachable ACTIVE record
becomes LAGGING, and the controller is ARMED with the arm deadline running. A CANCEL goes to the participants whose
record is reachable at its place (log 16). The clock comes to the deadline (log 2), which is kept to the 10 us (log 45). A deadline that is not running does nothing (log 31). -/
def Obligations.DeadlinesBeforeTheApply : Prop :=
  ∀ (s : State) (d : Nat), s.phase = .operating →
    ((s.commit.state ≠ .preparing ∨ s.commit.prepareDl = none) → exec .prepareDeadlineExpiry s = .next s)
    ∧ ((s.commit.state ≠ .armed ∨ s.commit.armDl = none) → exec .armDeadlineExpiry s = .next s)
    ∧ (s.commit.state = .armed → s.commit.armDl = some d →
        ∃ s', exec .armDeadlineExpiry s = .next s' ∧ s'.now = max s.now d ∧ EntersCancelling s s' .noBoundary)
    ∧ (s.commit.state = .preparing → s.commit.prepareDl = some d →
        (s.commit.policy = some .strict →
          ∃ s', exec .prepareDeadlineExpiry s = .next s' ∧ s'.now = max s.now d ∧ EntersCancelling s s' .deadline)
        ∧ (s.commit.policy = some .lenient → (s.commit.participants.map Participant.ref).Nodup →
            ∃ s', exec .prepareDeadlineExpiry s = .next s' ∧ s'.now = max s.now d
              ∧ s'.commit.state = .armed ∧ s'.commit.prepareDl = none
              ∧ s'.commit.armDl = some (max s.now d + s.commit.lengths.arm * 100)
              ∧ s'.commit.participants.map (fun p => (p.ref, p.status))
                = s.commit.participants.map (fun p => (p.ref, if p.status = .unprepared then .excluded else p.status))
              ∧ (∀ p ∈ s.commit.participants, p.status = .unprepared → ∀ r, Names s p.ref r → r.loc = p.loc →
                  r.state = .active → ∃ r' ∈ s'.dir.records, r'.ref = r.ref ∧ r'.state = .lagging)
              ∧ s'.commit.epoch = s.commit.epoch ∧ s'.staging = s.staging ∧ s'.store = s.store ∧ s'.keys = s.keys
              ∧ s'.boundary = s.boundary ∧ s'.port.completions = s.port.completions))

/-- The apply deadline (R81, R82, R83): every UNCONFIRMED participant becomes LAGGING, the controller returns to IDLE, and the
COMMIT completes OK with the epoch, the apply boundary count and the three counts. The clock comes to the deadline (log 2), which
is kept to the 10 us (log 45). A deadline that is not running does nothing (log 31). -/
def Obligations.ApplyDeadlineEndsTheCommit : Prop :=
  ∀ (s : State) (d : Nat), s.phase = .operating →
    ((s.commit.state ≠ .applying ∨ s.commit.applyDl = none) → exec .applyDeadlineExpiry s = .next s)
    ∧ (s.commit.state = .applying → s.commit.applyDl = some d → (s.commit.participants.map Participant.ref).Nodup →
        ∃ s', exec .applyDeadlineExpiry s = .next s' ∧ s'.now = max s.now d
          ∧ s'.commit = CommitCtl.idle s.commit.epoch s.commit.lengths
          ∧ (∀ l, (s'.links.get l).commitQ = [])
          ∧ (∀ (t : Tag) (n : BitVec 32), s.commit.tag = some t → s.commit.applyCount = some n →
              Completed s s' ⟨t, .commit, .ok, 0, halfBytes s.commit.epoch ++ wordBytes n
                ++ [u8 (s.commit.participants.countP (fun p => p.status == .confirmed)),
                    u8 (s.commit.participants.countP (fun p => p.status == .lagging || p.status == .unconfirmed)),
                    u8 (s.commit.participants.countP (fun p => p.status == .excluded))]⟩)
          ∧ (∀ p ∈ s.commit.participants, p.status = .unconfirmed → ∀ r, Names s p.ref r → r.state = .active →
              r.stale = none → ∃ r' ∈ s'.dir.records, r'.ref = r.ref ∧ r'.state = .lagging)
          ∧ s'.keys = s.keys ∧ s'.boundary = s.boundary)

/-- The boundary event taken in ARMED with a PREPARED participant carries out the apply in that event (R37, R77, R78), whether
BOUNDARY_NOW makes it at acceptance, at its due moment, to which the clock comes (log 2), or a FRAME edge does. No two staged changes
have one target (R49). The apply deadline is kept to the 10 us (log 45). -/
def Obligations.BoundaryInArmedApplies : Prop :=
  ∀ (s : State), s.commit.state = .armed → (∃ p ∈ s.commit.participants, p.status = .prepared) →
    s.staging.Pairwise (fun a b => sameTarget a.target b.target = false) →
    (∀ (b : Byte) (t : Tag), Accepts s b t → s.boundary.pendingNow = none →
      (∀ m, s.boundary.previous = some m → m + 100 ≤ s.now) →
      ∃ s', exec (.boundaryNow b) s = .next s' ∧ Applies s s'
        ∧ Completed s s' ⟨t, .boundaryNow, .ok, 0, wordBytes (s.boundary.count + 1) ++ [0, 0, 2]⟩)
    ∧ (∀ p, s.phase = .operating → s.boundary.pendingNow = some p →
        ∃ s', exec .boundaryNowDue s = .next s' ∧ Applies { s with now := max s.now p.due } s'
          ∧ s'.boundary.pendingNow = none
          ∧ Completed s s' ⟨p.tag, .boundaryNow, .ok, 0, wordBytes (s.boundary.count + 1) ++ [0, 1, 2]⟩)
    ∧ (s.phase = .operating → s.boundary.enabled = true → (∀ m, s.boundary.previous = some m → m + 100 ≤ s.now) →
        ∃ s', exec (.frameEdge s.boundary.polarity) s = .next s' ∧ Applies s s' ∧ s'.boundary.present = true
          ∧ s'.boundary.pendingNow = none
          ∧ ∀ p, s.boundary.pendingNow = some p →
              Completed s s' ⟨p.tag, .boundaryNow, .ok, 0, wordBytes (s.boundary.count + 1) ++ [1, 1, 2]⟩)

/-- The course of the apply (R79, R80, R82, R83) in APPLYING. After a verification roll call each UNCONFIRMED participant of its
link is CONFIRMED if its tile holds its reference and has the committed epoch live, the record then synced; EXCLUDED if another tile
or none answers for its hop; otherwise a directed APPLY comes for it. That APPLY confirms it, with LATE_APPLY, when answered OK with
the epoch; another answer or NO_REPLY makes it LAGGING, NO_REPLY at the miss limit EXCLUDED with its record STALE. With none
UNCONFIRMED left the COMMIT completes. The clock of a reply timer's end: log 2. -/
def Obligations.VerificationSettlesTheParticipants : Prop :=
  ∀ (s : State) (l : LinkId) (f : Flight) (c : Instr) (out : Option (TileStatus × ReplyBody)) (now : Nat),
    WellShaped s → HubSound s → CommitSound s → s.commit.state = .applying → Ends s l f c out now →
    (∀ (entries : List RollEntry), f.txn = rollTxn .commit .controller →
      ((out = none ∧ entries = []) ∨ ∃ st, out = some (st, .roll entries)) →
      let verified := fun (p : Participant) => match entries[p.loc.hop]? with
        | some x => if x.held = p.ref then (if x.live = s.commit.epoch then PartStatus.confirmed else .unconfirmed) else .excluded
        | none => .excluded
      ∃ s', exec c s = .next s' ∧ s'.now = now
        ∧ AppliesOn s s' (s.commit.participants.map (fun p =>
            (p.ref, if p.status = .unconfirmed ∧ p.loc.link = l then verified p else p.status)))
        ∧ ∀ p ∈ s.commit.participants, p.status = .unconfirmed → p.loc.link = l →
            (verified p = .confirmed → ∃ r ∈ s'.dir.records, r.ref = p.ref ∧ r.synced = s.commit.epoch ∧ r.miss = 0)
            ∧ (verified p = .unconfirmed → ToCome (s'.links.get l) (partTxn p (.apply s.commit.epoch))))
    ∧ (∀ (p : Participant) (e : Half) (r : Record), p ∈ s.commit.participants → p.status = .unconfirmed → p.loc.link = l →
      f.txn = partTxn p (.apply e) → r ∈ s.dir.records → r.ref = p.ref →
      let confirms := out = some (.ok, .epoch s.commit.epoch)
      let dies := out = none ∧ (s.links.get l).timing.missLimit ≤ r.miss + 1
      ∃ s', exec c s = .next s' ∧ s'.now = now
        ∧ (confirms → AppliesOn s s' ((statusesOf s).map (fun x => if x.1 = p.ref then (x.1, .confirmed) else x))
            ∧ (∃ y ∈ s'.dir.records, y = { r with synced := s.commit.epoch, miss := 0 })
            ∧ Raised s' (.handle r.ref.handle) .lateApply)
        ∧ (dies → AppliesOn s s' ((statusesOf s).map (fun x => if x.1 = p.ref then (x.1, .excluded) else x))
            ∧ ∀ y ∈ s'.dir.records, y.ref = r.ref → y = { r with miss := r.miss + 1 }.lost now .noReply)
        ∧ (¬ confirms → ¬ dies → AppliesOn s s' ((statusesOf s).map (fun x => if x.1 = p.ref then (x.1, .lagging) else x))
            ∧ ∃ y ∈ s'.dir.records, y = { r with
                miss := if out = none then r.miss + 1 else 0
                state := if r.state = .active then .lagging else r.state }))

/-- Participants lost to the commit, and the end of a CANCEL (R73, R76, R81, R84, R85, R88, R89). Lock loss, LINK_DISABLE and CLEAR
LINKS make the reachable records of the links they take down STALE; in PREPARING, ARMED and APPLYING the participants there that are
UNPREPARED, PREPARED or UNCONFIRMED fail (CommitMeets): under LENIENT and in APPLYING they are EXCLUDED, and the controller goes on as
the others allow; under STRICT it cancels, in PREPARING with PREPARE_FAILED for the first of them by handle, in ARMED with
PARTICIPANT_LOST. In CANCELLING
the end of the last CANCEL completes the COMMIT ABORTED with its reason; while another is outstanding the controller stays. The arm
deadline is kept to the 10 us (log 45); a reply timer's end brings the clock to its expiry (log 2). -/
def Obligations.LostParticipantsAndCancelsEnd : Prop :=
  ∀ s : State, WellShaped s → HubSound s → CommitSound s →
    (∀ (c : Instr) (gone : LinkId → Bool), TakesDown s c gone →
      ∃ s', exec c s = .next s' ∧ CommitMeets s s' s.now (fun p => gone p.loc.link) (fun p => p.ref.handle))
    ∧ ∀ (l : LinkId) (f : Flight) (c : Instr) (out : Option (TileStatus × ReplyBody)) (now : Nat) (p : Participant) (r : Record)
        (reason : CancelReason),
      s.commit.state = .cancelling → s.commit.reason = some reason → Ends s l f c out now →
      p ∈ s.commit.participants → f.txn = partTxn p (.cancel (s.commit.epoch + 1)) → r ∈ s.dir.records → r.ref = p.ref →
      r.state ≠ .stale → r.loc = ⟨l, p.loc.hop⟩ → (out = none → r.miss + 1 < (s.links.get l).timing.missLimit) →
      let others := (s.links.get l).commitQ.any Txn.isCancel = true ∨ ∃ k, k ≠ l ∧ (s.links.get k).cancelOutstanding = true
      ∃ s', exec c s = .next s' ∧ s'.now = now
        ∧ (others → s'.commit.state = .cancelling ∧ s'.commit.reason = some reason ∧ s'.commit.tag = s.commit.tag)
        ∧ (¬ others → s'.commit = CommitCtl.idle s.commit.epoch s.commit.lengths
            ∧ ∀ t, s.commit.tag = some t → Completed s s' ⟨t, .commit, .aborted, reason.code,
                (reason.ref?.elim [0xFF, 0xFF] refBytes) ++ halfBytes s.commit.epoch⟩)
        ∧ ∃ y ∈ s'.dir.records, y = { r with
            miss := if out = none then r.miss + 1 else 0
            state := if out = none ∧ r.state = .active then .lagging else r.state }

/-- What a COMMIT computes from the staged changes (R37, R38, R41, R45, R65, R68, R69, R71), with a store in listing order and staged
changes of different targets: the size and entries of the post-view, each record's groups and position in it, the participants with
their changed pairs in order, and the PREPARE packets of a participant. What a catch-up job computes from the committed view (R44,
R152): the store's entries and each record's groups and position, and the change list, which is the column pair, the row pair, and
the pair of every key that is not introduced, with its effective value. -/
def Obligations.CommitComputesItsPackets : Prop :=
  (∀ (s : State) (displaced : List Ref), s.store.Pairwise (fun a b => a.rank < b.rank) →
    s.staging.Pairwise (fun a b => sameTarget a.target b.target = false) →
    let post := postView s displaced
    postSize s.store s.staging = post.entries.length
    ∧ (∀ sc k v, Change.setVal sc k v ∈ s.staging → findEntry post.entries sc k = some ⟨sc, k, v⟩)
    ∧ (∀ sc k, Change.clearVal sc k ∈ s.staging → findEntry post.entries sc k = none)
    ∧ (∀ sc k, (∀ c ∈ s.staging, sameTarget c.target (.entry sc k) = false) →
        findEntry post.entries sc k = findEntry s.store sc k)
    ∧ ∀ r, Sole (fun x => x.ref = r.ref) s.dir.records r →
        (∀ ref g, Change.groups ref g ∈ s.staging → ref.handle = r.ref.handle → (post.part r.ref).groups = g)
        ∧ ((∀ c ∈ s.staging, sameTarget c.target (.groupSet r.ref.handle) = false) → (post.part r.ref).groups = r.groups)
        ∧ (∀ ref cell d, Change.place ref cell d ∈ s.staging → ref.handle = r.ref.handle → (post.part r.ref).pos = some cell)
        ∧ (∀ ref, Change.unplace ref ∈ s.staging → ref.handle = r.ref.handle → (post.part r.ref).pos = none)
        ∧ ((∀ c ∈ s.staging, sameTarget c.target (.position r.ref.handle) = false) →
            (post.part r.ref).pos = if r.ref ∈ displaced then none else r.pos))
  ∧ (∀ (s : State) (post : View),
      ((participantsOf s post).map Participant.ref).Sublist (s.dir.records.map Record.ref)
      ∧ ∀ p, p ∈ participantsOf s post ↔ ∃ r ∈ s.dir.records, r.state = .active ∧ p.pairs ≠ []
          ∧ p = { ref := r.ref, loc := r.loc, acked := 0, reached := false, cancelSent := false, status := .unprepared
                  pairs := changedPairs s.keys (committedView s) post r.ref })
  ∧ (∀ (keys : List KeyRec) (v w : View) (ref : Ref),
      let new := fun k => (effective w (w.part ref) k).1
      let column := fun (x : View) => (x.part ref).pos.elim (0xFFFF : Half) (fun c => BitVec.ofNat 16 c.col)
      let row := fun (x : View) => (x.part ref).pos.elim (0xFFFF : Half) (fun c => BitVec.ofNat 16 c.row)
      changedPairs keys v w ref
        = (keys.filter (fun k => k.introduced || decide ((effective v (v.part ref) k).1 ≠ new k))).map (fun k => ⟨k.addr, new k⟩)
          ++ (if column v = column w then [] else [⟨240, column w⟩]) ++ (if row v = row w then [] else [⟨241, row w⟩]))
  ∧ (∀ s : State, (committedView s).entries = s.store
      ∧ ∀ r, Sole (fun x => x.ref = r.ref) s.dir.records r → (committedView s).part r.ref = ⟨r.ref, r.groups, r.pos⟩)
  ∧ (∀ (keys : List KeyRec) (v : View) (ref : Ref), changeList keys v ref
      = [⟨240, (v.part ref).pos.elim (0xFFFF : Half) (fun c => BitVec.ofNat 16 c.col)⟩,
         ⟨241, (v.part ref).pos.elim (0xFFFF : Half) (fun c => BitVec.ofNat 16 c.row)⟩]
        ++ (keys.filter (fun k => k.introduced == false)).map (fun k => ⟨k.addr, (effective v (v.part ref) k).1⟩))
  ∧ ∀ (epoch : Half) (p : Participant),
      (prepareTxns epoch p).length = (p.pairs.length + 5) / 6
      ∧ ((prepareTxns epoch p).flatMap (fun t => match t.body with
          | .prepare _ _ _ ps => ps
          | _ => [])) = p.pairs
      ∧ ∀ i < (p.pairs.length + 5) / 6, (prepareTxns epoch p)[i]? = some
          { dest := .directed p.loc.hop, cls := .commit, req := .participant p.ref
            body := .prepare epoch (i == 0) (i + 1 == (p.pairs.length + 5) / 6) ((p.pairs.drop (6 * i)).take 6) }

/-! ### The Boundary Unit (chapter 5) -/

/-- BOUNDARY_NOW (R92, R93, R95, R96): BUSY while one is pending; pending with its tag held when the previous boundary event is
less than 1 ms back; otherwise, and at the due moment of a pending one, its boundary event is made and it completes OK with the
count, the source HOST, the wait and the commit state; the clock comes to the due moment (log 2). Outside ARMED the event changes
nothing else off the wire (ARMED with a PREPARED participant: BoundaryInArmedApplies); a PREPARING, APPLYING or CANCELLING commit is still waiting for
something. In ARMED with no PREPARED participant the apply and the end of the commit come in the event. With none pending the due
moment changes nothing (log 31). -/
def Obligations.BoundaryNowMakesOneBoundary : Prop :=
  ∀ (s : State),
    (∀ (b : Byte) (t : Tag), Accepts s b t →
      (s.boundary.pendingNow ≠ none → exec (.boundaryNow b) s = .next (answered s 0 t .boundaryNow .busy []))
      ∧ (s.boundary.pendingNow = none →
          (∀ m, s.boundary.previous = some m → s.now < m + 100 →
            exec (.boundaryNow b) s = .next { received 0 s with
              port := { (received 0 s).port with tags := s.port.tags.put t (.running .boundaryNow) }
              boundary := { s.boundary with pendingNow := some ⟨t, m + 100⟩ } })
          ∧ ((∀ m, s.boundary.previous = some m → m + 100 ≤ s.now) → Waits s →
              ∃ s', exec (.boundaryNow b) s = .next s'
                ∧ offWire s' = offWire (answered { s with boundary := { s.boundary with
                    count := s.boundary.count + 1, previous := some s.now } } 0 t .boundaryNow .ok
                    (wordBytes (s.boundary.count + 1) ++ [0, 0, u8 s.commit.state.ctorIdx])))
          ∧ ((∀ m, s.boundary.previous = some m → m + 100 ≤ s.now) → s.commit.state = .armed →
              (∀ p ∈ s.commit.participants, p.status ≠ .prepared ∧ p.status ≠ .unconfirmed) →
              ∃ s', exec (.boundaryNow b) s = .next s' ∧ AppliesAndEnds s s'
                ∧ s'.boundary = { s.boundary with count := s.boundary.count + 1, previous := some s.now }
                ∧ Completed s s' ⟨t, .boundaryNow, .ok, 0, wordBytes (s.boundary.count + 1) ++ [0, 0, 2]⟩)))
    ∧ (s.phase = .operating →
        (s.boundary.pendingNow = none → exec .boundaryNowDue s = .next s)
        ∧ (∀ p, s.boundary.pendingNow = some p → Waits s →
            ∃ s', exec .boundaryNowDue s = .next s'
              ∧ offWire s' = offWire { s with
                  now := max s.now p.due
                  boundary := { s.boundary with
                    count := s.boundary.count + 1, previous := some (max s.now p.due), pendingNow := none }
                  port := { s.port with
                    tags := s.port.tags.put p.tag .done
                    completions := s.port.completions ++ [⟨p.tag, .boundaryNow, .ok, 0,
                      wordBytes (s.boundary.count + 1) ++ [0, 1, u8 s.commit.state.ctorIdx]⟩] } })
        ∧ (∀ p, s.boundary.pendingNow = some p → s.commit.state = .armed →
            (∀ q ∈ s.commit.participants, q.status ≠ .prepared ∧ q.status ≠ .unconfirmed) →
            ∃ s', exec .boundaryNowDue s = .next s' ∧ s'.now = max s.now p.due ∧ AppliesAndEnds s s'
              ∧ s'.boundary = { s.boundary with
                  count := s.boundary.count + 1, previous := some (max s.now p.due), pendingNow := none }
              ∧ Completed s s' ⟨p.tag, .boundaryNow, .ok, 0, wordBytes (s.boundary.count + 1) ++ [0, 1, 2]⟩))

/-- A boundary event taken in IDLE (R93, R156), whether BOUNDARY_NOW makes it at acceptance, at its due moment, to which the clock
comes (log 2), or a FRAME edge does: every job in AWAITING_BOUNDARY of a RUNNING link goes to APPLYING with its directed APPLY queued
in queue order, whatever phases the other jobs are in; a job of a link that is not RUNNING waits on. -/
def Obligations.BoundaryInIdleSendsTheAppliesOfJobs : Prop :=
  ∀ s : State, s.commit.state = .idle →
    (∀ (b : Byte) (t : Tag), Accepts s b t → s.boundary.pendingNow = none →
      (∀ m, s.boundary.previous = some m → m + 100 ≤ s.now) →
      ∃ s', exec (.boundaryNow b) s = .next s' ∧ JobsApply s s')
    ∧ (∀ p, s.phase = .operating → s.boundary.pendingNow = some p →
        ∃ s', exec .boundaryNowDue s = .next s' ∧ s'.now = max s.now p.due ∧ JobsApply s s')
    ∧ (s.phase = .operating → s.boundary.enabled = true → (∀ m, s.boundary.previous = some m → m + 100 ≤ s.now) →
        ∃ s', exec (.frameEdge s.boundary.polarity) s = .next s' ∧ JobsApply s s')

/-- The FRAME input (R91, R94, R97). SET_FRAME, in every commit state: both settings take the values given and are returned; a
change of polarity restarts a running watch timer with 250 ms; another value completes BAD_PARAMETER. An edge of the other
polarity is ignored; one of the configured polarity restarts the watch, raising FRAME_RESTORED if frame-present was false; it makes a
boundary event when FRAME is enabled and the previous one is 1 ms or more back, which completes a pending BOUNDARY_NOW with source
FRAME (R96) and outside ARMED changes nothing else off the wire; a PREPARING, APPLYING or CANCELLING commit is still waiting for
something. In ARMED with no PREPARED participant it carries out the apply and ends the commit (with one: BoundaryInArmedApplies). When the watch timer expires frame-present becomes false and FRAME_LOST is raised; the clock
comes to the expiry (log 2), which with the timer stopped changes nothing (log 31). The command is an edge the filter has let through (log 42). -/
def Obligations.FrameSettingsEdgesAndWatch : Prop :=
  (∀ (s : State) (b p e : Byte) (t : Tag), Accepts s b t →
    ((1 < p.toNat ∨ 1 < e.toNat) → exec (.setFrame b p e) s = .next (answered s 2 t .setFrame .badParameter []))
    ∧ (∀ polarity : Edge, ((p = 0 ∧ polarity = .rising) ∨ (p = 1 ∧ polarity = .falling)) → e.toNat ≤ 1 →
        exec (.setFrame b p e) s = .next (answered { s with boundary := { s.boundary with
          polarity := polarity
          enabled := decide (e = 0)
          watch := if polarity ≠ s.boundary.polarity ∧ s.boundary.watch ≠ none then some (s.now + 25000)
            else s.boundary.watch } } 2 t .setFrame .ok [p, e])))
  ∧ ∀ (s : State) (e : Edge), s.phase = .operating →
    let attn := if s.boundary.present then s.port.attn
      else { s.port.attn with device := s.port.attn.device ||| Reason.frameRestored.flag }
    (e ≠ s.boundary.polarity → exec (.frameEdge e) s = .next s)
    ∧ (e = s.boundary.polarity →
        (s.boundary.enabled = false ∨ ∃ m, s.boundary.previous = some m ∧ s.now < m + 100) →
          exec (.frameEdge e) s = .next { s with
            port := { s.port with attn := attn }
            boundary := { s.boundary with present := true, watch := some (s.now + 25000) } })
    ∧ (e = s.boundary.polarity → s.boundary.enabled = true → (∀ m, s.boundary.previous = some m → m + 100 ≤ s.now) →
        Waits s →
          ∃ s', exec (.frameEdge e) s = .next s'
            ∧ offWire s' = offWire { s with
                port := { s.port with
                  attn := attn
                  tags := s.boundary.pendingNow.elim s.port.tags fun p => s.port.tags.put p.tag .done
                  completions := s.port.completions ++ (s.boundary.pendingNow.elim [] fun p =>
                    [⟨p.tag, .boundaryNow, .ok, 0, wordBytes (s.boundary.count + 1) ++ [1, 1, u8 s.commit.state.ctorIdx]⟩]) }
                boundary := { s.boundary with
                  present := true, watch := some (s.now + 25000), count := s.boundary.count + 1,
                  previous := some s.now, pendingNow := none } })
    ∧ (e = s.boundary.polarity → s.boundary.enabled = true → (∀ m, s.boundary.previous = some m → m + 100 ≤ s.now) →
        s.commit.state = .armed → (∀ q ∈ s.commit.participants, q.status ≠ .prepared ∧ q.status ≠ .unconfirmed) →
          ∃ s', exec (.frameEdge e) s = .next s' ∧ s'.now = s.now ∧ AppliesAndEnds s s'
            ∧ s'.boundary = { s.boundary with
                present := true, watch := some (s.now + 25000), count := s.boundary.count + 1,
                previous := some s.now, pendingNow := none }
            ∧ (s.boundary.present = false → Raised s' .device .frameRestored)
            ∧ ∀ p, s.boundary.pendingNow = some p →
                Completed s s' ⟨p.tag, .boundaryNow, .ok, 0, wordBytes (s.boundary.count + 1) ++ [1, 1, 2]⟩)
    ∧ (s.boundary.watch = none → exec .frameWatchExpiry s = .next s)
    ∧ (∀ d, s.boundary.watch = some d → exec .frameWatchExpiry s = .next { s with
        now := max s.now d
        port := { s.port with attn := { s.port.attn with device := s.port.attn.device ||| Reason.frameLost.flag } }
        boundary := { s.boundary with present := false, watch := none } })

/-! ### Tile links (chapters 6 and 7) -/

/-- LINK_ENABLE (R109) takes a DISABLED link to TRAINING with a no-lock timer of 100 ms and leaves another link alone. In TRAINING
the no-lock timer's expiry raises NO_LOCK once and sets the mark (R106); the lock stops the timer and puts the first ENUM_QUERY of
the full scan on the wire, whose reply timer the model runs from the start of the attempt (log 15). The clock comes to the expiry (log
2). In another state, or with the timer
stopped, these events change nothing (log 31). -/
def Obligations.EnabledLinkTrainsAndThenScans : Prop :=
  ∀ (s : State) (l : LinkId),
    (∀ (b n : Byte) (t : Tag), Accepts s b t →
      (3 < n.toNat → exec (.linkEnable b n) s = .next (answered s 1 t .linkEnable .badParameter []))
      ∧ (n.toNat = l.val →
          ((s.links.get l).state ≠ .disabled → exec (.linkEnable b n) s = .next (answered s 1 t .linkEnable .ok []))
          ∧ ((s.links.get l).state = .disabled → ∃ e', exec (.linkEnable b n) s
                = .next (answered { s with links := s.links.put l e' } 1 t .linkEnable .ok [])
              ∧ e'.state = .training ∧ e'.noLockTimer = some (s.now + 10000) ∧ e'.noLockMark = false
              ∧ e'.lastSeq = List.replicate 16 none ∧ e'.seqCounter = (s.links.get l).seqCounter
              ∧ e'.timing = (s.links.get l).timing)))
    ∧ (s.phase = .operating →
        ((s.links.get l).state ≠ .training →
          exec (.lockAchieved l) s = .next s ∧ exec (.noLockExpiry l) s = .next s)
        ∧ ((s.links.get l).state = .training →
            (∀ d, (s.links.get l).noLockTimer = some d → exec (.noLockExpiry l) s = .next { s with
              now := max s.now d
              port := { s.port with attn := { s.port.attn with
                links := s.port.attn.links.put l (s.port.attn.links.get l ||| Reason.noLock.flag) } }
              links := s.links.put l { s.links.get l with noLockTimer := none, noLockMark := true } })
            ∧ ((s.links.get l).noLockTimer = none → exec (.noLockExpiry l) s = .next s)
            ∧ ((s.links.get l).flight = none → (s.links.get l).overtaking = none → (s.links.get l).scanQ = [] →
                ∃ e' f, exec (.lockAchieved l) s = .next { s with links := s.links.put l e' }
                  ∧ e'.state = .scanning ∧ e'.noLockTimer = none ∧ e'.noLockMark = false ∧ e'.reach = (s.links.get l).reach
                  ∧ e'.scan = some { hop := 0, created := 0, rebound := 0, claimed := 0, rescan := none }
                  ∧ e'.flight = some f ∧ f.txn = enumTxn true 0 ∧ f.attempt = 1
                  ∧ f.allowed = (s.links.get l).timing.retries + 1 ∧ f.expires = s.now + (s.links.get l).timing.timeout
                  ∧ e'.seqCounter = f.seq ∧ e'.sent = f.txn.packet f.seq ∧ e'.timing = (s.links.get l).timing)))

/-- Lock loss of a link that is SCANNING or RUNNING takes it down to TRAINING, LINK_DISABLE takes it down to DISABLED, with every
effect of R107 (TakenDown; R108, R110). LINK_DISABLE stops a TRAINING link without LINK_DOWN and leaves a DISABLED link alone; lock loss of a link that is not up
changes nothing (log 31). -/
def Obligations.LostOrDisabledLinkIsTakenDown : Prop :=
  ∀ (s : State) (l : LinkId),
    (s.phase = .operating →
      (((s.links.get l).state = .scanning ∨ (s.links.get l).state = .running) →
        ∃ s', exec (.lockLoss l) s = .next s' ∧ TakenDown s s' l .training)
      ∧ (((s.links.get l).state = .disabled ∨ (s.links.get l).state = .training) → exec (.lockLoss l) s = .next s))
    ∧ (∀ (b n : Byte) (t : Tag), Accepts s b t →
        (3 < n.toNat → exec (.linkDisable b n) s = .next (answered s 1 t .linkDisable .badParameter []))
        ∧ (n.toNat = l.val →
            ((s.links.get l).state = .disabled → exec (.linkDisable b n) s = .next (answered s 1 t .linkDisable .ok []))
            ∧ ((s.links.get l).state = .training → ∃ e', exec (.linkDisable b n) s
                  = .next (answered { s with links := s.links.put l e' } 1 t .linkDisable .ok [])
                ∧ e'.state = .disabled ∧ e'.noLockTimer = none ∧ e'.noLockMark = false
                ∧ e'.seqCounter = (s.links.get l).seqCounter ∧ e'.timing = (s.links.get l).timing)
            ∧ (((s.links.get l).state = .scanning ∨ (s.links.get l).state = .running) →
                ∃ s', exec (.linkDisable b n) s = .next s' ∧ TakenDown s s' l .disabled
                  ∧ Completed s s' ⟨t, .linkDisable, .ok, 0, []⟩)))

/-- LINK_STATUS (R125): every field of the link engine the rule names, in its order. No state changes. -/
def Obligations.LinkStatusShowsTheEngine : Prop :=
  ∀ (s : State) (b n : Byte) (t : Tag), Accepts s b t →
    (3 < n.toNat → exec (.linkStatus b n) s = .next (answered s 1 t .linkStatus .badParameter []))
    ∧ (∀ (l : LinkId) (e : LinkEngine), n.toNat = l.val → e = s.links.get l →
        exec (.linkStatus b n) s = .next (answered s 1 t .linkStatus .ok
          ([u8 e.state.ctorIdx, u8 e.reach]
            ++ e.hops.flatMap (fun x => match x with
              | .listed r => [0, u8 r.handle, u8 r.gen]
              | .unlisted why => [1, u8 why.ctorIdx, 0]
              | .empty => [2, 0, 0])
            ++ [u8 e.timing.timeout, u8 e.timing.retries, u8 e.timing.missLimit, u8 e.timing.interval]
            ++ [if e.noLockMark then 1 else 0]
            ++ (e.flight.elim [0xFF, 0xFF] fun f => [u8 f.txn.body.ctorIdx, u8 f.txn.cls.ctorIdx])
            ++ [u8 e.commitQ.length, u8 e.scanQ.length, u8 e.hostQ.length, u8 e.catchQ.length]
            ++ [if e.rollDue then 1 else 0])))

/-- SET_TIMING (R123): BAD_PARAMETER, then OUT_OF_RANGE, each changing nothing; otherwise the four settings, the miss counts of the
link's records under the new limit, and a roll call due at once, or started, when the new interval has passed and none was
due in it before (log 28). Nothing else off the wire changes. SET_DEADLINES (R124, R66): each of the three 1..1000 ms, or OUT_OF_RANGE; the running deadlines keep their expiry,
and nothing else changes. -/
def Obligations.TimingAndDeadlinesAreSet : Prop :=
  (∀ (s : State) (b n a r m i : Byte) (t : Tag), Accepts s b t →
    (3 < n.toNat → exec (.setTiming b n a r m i) s = .next (answered s 5 t .setTiming .badParameter []))
    ∧ (n.toNat ≤ 3 → (a = 0 ∨ 7 < r.toNat ∨ m = 0 ∨ 15 < m.toNat ∨ i = 0) →
        exec (.setTiming b n a r m i) s = .next (answered s 5 t .setTiming .outOfRange []))
    ∧ (∀ l : LinkId, n.toNat = l.val → a ≠ 0 → r.toNat ≤ 7 → m ≠ 0 → m.toNat ≤ 15 → i ≠ 0 →
        ∃ s', exec (.setTiming b n a r m i) s = .next s'
          ∧ offWire s' = offWire (answered { s with
              dir := { s.dir with records := s.dir.records.map (fun x =>
                if x.loc.link ≠ l then x
                else if x.state ≠ .stale then (if m.toNat ≤ x.miss then { x with miss := m.toNat - 1 } else x)
                else (if m.toNat < x.miss then { x with miss := m.toNat } else x)) }
              links := s.links.put l { s.links.get l with timing := ⟨a.toNat, r.toNat, m.toNat, i.toNat⟩ } } 5 t .setTiming .ok [])
          ∧ s'.jobs = s.jobs
          ∧ ((s.links.get l).state = .running → ((s.links.get l).rollMet = false ∨ (s.links.get l).rollDue = true) →
              (s.links.get l).lastRollEnd + i.toNat * 100 ≤ s.now →
              (s'.links.get l).rollDue = true ∨ ∃ f, (s'.links.get l).flight = some f ∧ f.txn.body = .rollCall)))
  ∧ ∀ (s : State) (b : Byte) (p a d : Half) (t : Tag), Accepts s b t →
    ((1 ≤ p.toNat ∧ p.toNat ≤ 1000 ∧ 1 ≤ a.toNat ∧ a.toNat ≤ 1000 ∧ 1 ≤ d.toNat ∧ d.toNat ≤ 1000) →
      exec (.setDeadlines b p a d) s = .next (answered { s with commit := { s.commit with
        lengths := { prepare := p.toNat, arm := a.toNat, apply := d.toNat } } } 6 t .setDeadlines .ok []))
    ∧ (¬ (1 ≤ p.toNat ∧ p.toNat ≤ 1000 ∧ 1 ≤ a.toNat ∧ a.toNat ≤ 1000 ∧ 1 ≤ d.toNat ∧ d.toNat ≤ 1000) →
        exec (.setDeadlines b p a d) s = .next (answered s 6 t .setDeadlines .outOfRange []))

/-- RESCAN (R138) by the link state: NOT_REACHABLE, BUSY, or accepted: the tag is held with no completion, the link is SCANNING
at hop 0 with no roll call due and its map kept, the first ENUM_QUERY is on the wire if it is free. A waiting scan-step ASSIGN is
abandoned; with none, the directory is untouched. -/
def Obligations.RescanStartsAFullScan : Prop :=
  ∀ (s : State) (b n : Byte) (t : Tag), Accepts s b t →
    (3 < n.toNat → exec (.rescan b n) s = .next (answered s 1 t .rescan .badParameter []))
    ∧ (∀ l : LinkId, n.toNat = l.val →
        (((s.links.get l).state = .disabled ∨ (s.links.get l).state = .training) →
          exec (.rescan b n) s = .next (answered s 1 t .rescan .notReachable []))
        ∧ ((s.links.get l).state = .scanning → exec (.rescan b n) s = .next (answered s 1 t .rescan .busy []))
        ∧ ((s.links.get l).state = .running → (s.links.get l).caused = [] → ∃ s', exec (.rescan b n) s = .next s'
            ∧ s'.port = { (received 1 s).port with tags := s.port.tags.put t (.running (.rescan l)) }
            ∧ (s'.links.get l).state = .scanning ∧ (s'.links.get l).rollDue = false
            ∧ (s'.links.get l).scan = some { hop := 0, created := 0, rebound := 0, claimed := 0, rescan := some t }
            ∧ (s'.links.get l).hops = (s.links.get l).hops ∧ (s'.links.get l).reach = (s.links.get l).reach
            ∧ ((s.links.get l).flight = none → (s.links.get l).overtaking = none →
                (s'.links.get l).scanQ = [] ∧ ∃ f, (s'.links.get l).flight = some f ∧ f.txn = enumTxn true 0)
            ∧ ((s.links.get l).flight ≠ none → (s'.links.get l).scanQ = [enumTxn true 0])
            ∧ ((∀ a, (s.links.get l).assigning = some a → (s.links.get l).assignWaits a = false) → s'.dir = s.dir)
            ∧ (∀ a, (s.links.get l).assigning = some a → (s.links.get l).assignWaits a = true →
                (s'.links.get l).assigning = none
                ∧ s'.dir.marks = s.dir.marks.filter (fun m => m.loc != ⟨l, a.hop⟩)
                ∧ s'.dir.freeList = if a.kind = .assigningNew then a.ref.handle :: s.dir.freeList else s.dir.freeList)
            ∧ s'.keys = s.keys ∧ s'.store = s.store ∧ s'.staging = s.staging ∧ s'.boundary = s.boundary
            ∧ s'.dir.records = s.dir.records ∧ settledCtl s'.commit = settledCtl s.commit))

/-- A reply, in every commit state whose own tests call for nothing (Rests; R113, R114, R115, R169). With no attempt waiting, or with another sequence number, it is
discarded, and so is the late one, which comes behind the expiry of its attempt's timer (log 48). A bad one ends the attempt, and with attempts left and no broadcast APPLY at the head of the commit class the next one
starts, its reply timer with it (log 15). A good one ends a TILE_READ or TILE_WRITE transaction with the tile's status, the value read
and the record mark, in the order of log 11, and the miss count of the record listed at the hop becomes 0; a commit that runs goes on
as it was. Which bytes are good, of another sequence number or bad: PacketsAndRepliesAreLaidOut. The other requesters' replies:
EnumReplyIsMatched, AssignCreatesOrRebinds, RollCallIsProcessedHopByHop, CatchUpTransactionsEnd, PrepareAnswersSettleTheParticipant,
VerificationSettlesTheParticipants. -/
def Obligations.ReplyEndsTheAttemptOrTheAccess : Prop :=
  ∀ (s : State) (l : LinkId) (bytes : List Byte), s.phase = .operating →
    (waitingFlight s l = none → exec (.linkReply l bytes) s = .next s)
    ∧ (waitingFlight s l ≠ none → Late s l bytes → exec (.linkReply l bytes) s = .next (unexpired s l))
    ∧ (∀ f, waitingFlight s l = some f → ¬ Late s l bytes →
        (judgeReply f.txn.body f.seq bytes = .otherSeq → exec (.linkReply l bytes) s = .next s)
        ∧ (judgeReply f.txn.body f.seq bytes = .bad → f.attempt < f.allowed → Rests s →
            (∀ x rest, (s.links.get l).commitQ = x :: rest → x.dest ≠ .broadcast) → (s.links.get l).overtaking = none →
            ∃ s', exec (.linkReply l bytes) s = .next s' ∧ Retried s s' l f ∧ s'.now = s.now ∧ s'.port = s.port
              ∧ s'.dir = s.dir)
        ∧ (∀ (hop : Nat) (t : Tag) (x : Running) (st : TileStatus) (body : ReplyBody) (r : Record),
            judgeReply f.txn.body f.seq bytes = .good st body → f.txn.dest = .directed hop → f.txn.req = .tag t →
            f.txn.body.countsMisses = true → s.port.tags.get t = .running x → x.ref? = some r.ref →
            ListedAt s l hop r → r.loc = ⟨l, hop⟩ → Rests (freed s l) →
            ∃ s', exec (.linkReply l bytes) s = .next s'
              ∧ (∀ v, st = .ok → body = .value v → Completed s s' ⟨t, x.kind, .ok, 0, halfBytes v ++ x.fields ++ [0]⟩)
              ∧ (st = .ok → (∀ v, body ≠ .value v) → Completed s s' ⟨t, x.kind, .ok, 0, x.fields ++ [0]⟩)
              ∧ (st ≠ .ok → Completed s s' ⟨t, x.kind, .tileRefused, st.code, x.fields ++ [0]⟩)
              ∧ s'.dir = { s.dir with records := s.dir.records.map (fun y =>
                  if y.ref.handle = r.ref.handle then { y with miss := 0 } else y) }
              ∧ settledCtl s'.commit = settledCtl s.commit
              ∧ s'.keys = s.keys ∧ s'.store = s.store ∧ s'.staging = s.staging ∧ s'.boundary = s.boundary))

/-- How a PREPARE of a participant ends in PREPARING. Answered OK (R72): the acknowledged count rises by 1; with the packet count reached
the participant is PREPARED, and with no participant UNPREPARED the controller is ARMED with the arm deadline running. Refused, or
NO_REPLY below the miss limit (R73): under STRICT the controller enters CANCELLING for PREPARE_FAILED; under LENIENT the participant is
EXCLUDED, its record LAGGING if ACTIVE, no PREPARE of it waits, and a CANCEL comes for it. The entry to CANCELLING sends to the
participants whose record is reachable at its place (log 16); what is said of the reply timer's clock is log 2, and of the arm deadline log 45. -/
def Obligations.PrepareAnswersSettleTheParticipant : Prop :=
  (∀ (s : State) (l : LinkId) (bytes : List Byte) (f : Flight) (hop : Nat) (p : Participant) (e : Half) (first final : Bool)
      (ps : List Pair) (body : ReplyBody), s.phase = .operating →
      waitingFlight s l = some f → ¬ Late s l bytes →
      judgeReply f.txn.body f.seq bytes = .good .ok body → f.txn.dest = .directed hop →
      f.txn.body = .prepare e first final ps → f.txn.req = .participant p.ref →
      s.commit.state = .preparing → Sole (fun q => q.ref = p.ref) s.commit.participants p → p.status = .unprepared →
      ∃ s', exec (.linkReply l bytes) s = .next s'
        ∧ s'.commit.participants.map (fun q => (q.ref, q.acked, q.status))
          = s.commit.participants.map (fun q => if q.ref = p.ref
              then (q.ref, q.acked + 1, if q.acked + 1 = (q.pairs.length + 5) / 6 then .prepared else q.status)
              else (q.ref, q.acked, q.status))
        ∧ (((∃ q ∈ s.commit.participants, q.ref ≠ p.ref ∧ q.status = .unprepared) ∨ p.acked + 1 ≠ (p.pairs.length + 5) / 6) →
            s'.commit.state = .preparing ∧ s'.commit.prepareDl = s.commit.prepareDl)
        ∧ ((∀ q ∈ s.commit.participants, q.ref ≠ p.ref → q.status ≠ .unprepared) → p.acked + 1 = (p.pairs.length + 5) / 6 →
            s'.commit.state = .armed ∧ s'.commit.prepareDl = none
            ∧ s'.commit.armDl = some (s.now + s.commit.lengths.arm * 100))
        ∧ s'.commit.epoch = s.commit.epoch ∧ s'.staging = s.staging ∧ s'.store = s.store ∧ s'.keys = s.keys
        ∧ s'.port = s.port ∧ s'.boundary = s.boundary)
  ∧ ∀ (s : State) (l : LinkId) (f : Flight) (c : Instr) (out : Option (TileStatus × ReplyBody)) (now : Nat) (p : Participant)
      (e : Half) (first final : Bool) (ps : List Pair) (r : Record),
    WellShaped s → HubSound s → CommitSound s → s.commit.state = .preparing → Ends s l f c out now →
    p ∈ s.commit.participants → p.status = .unprepared → p.loc.link = l → f.txn = partTxn p (.prepare e first final ps) →
    r ∈ s.dir.records → r.ref = p.ref → (∀ body, out ≠ some (.ok, body)) →
    (out = none → r.miss + 1 < (s.links.get l).timing.missLimit) →
    ∃ s', exec c s = .next s' ∧ s'.now = now
      ∧ (s.commit.policy = some .strict → ∀ s₀, s₀ = { s with
            now := now
            links := s.links.put l { s.links.get l with flight := none }
            dir := { s.dir with records := s.dir.records.map (fun y => if y.ref = r.ref
              then { y with miss := if out = none then r.miss + 1 else 0 } else y) } } →
          EntersCancelling s₀ s' (.prepareFailed p.ref))
      ∧ (s.commit.policy = some .lenient →
          statusesOf s' = (statusesOf s).map (fun x => if x.1 = p.ref then (x.1, .excluded) else x)
          ∧ ((∃ q ∈ s.commit.participants, q.ref ≠ p.ref ∧ q.status = .unprepared) →
              s'.commit.state = .preparing ∧ s'.commit.prepareDl = s.commit.prepareDl)
          ∧ ((∀ q ∈ s.commit.participants, q.ref ≠ p.ref → q.status ≠ .unprepared) →
              s'.commit.state = .armed ∧ s'.commit.armDl = some (now + s.commit.lengths.arm * 100))
          ∧ (∃ y ∈ s'.dir.records, y = { r with
              miss := if out = none then r.miss + 1 else 0
              state := if r.state = .active then .lagging else r.state })
          ∧ (∀ t ∈ (s'.links.get l).commitQ, t.req = .participant p.ref → t.isPrepare = false)
          ∧ (p.reached = true → ToCome (s'.links.get l) (partTxn p (.cancel (s.commit.epoch + 1)))))

/-- The reply timer of the waiting attempt expires (R113 to R116, R169), in every commit state whose own tests call for nothing (Rests):
the clock comes to the expiry; with attempts left and no broadcast APPLY at the head of the commit class the next attempt starts with
a reply timer of its own (log 15). The last attempt of a TILE_READ or TILE_WRITE, by its timer or by a bad reply, ends it NO_REPLY with
the record mark behind the fields (log 11), and the record listed at the hop takes the miss: below the limit its count rises by 1; at
the limit it is STALE for NO_REPLY and the hop EMPTY, and a commit in which it is a participant meets that claim (CommitMeets), every
other goes on as it was. A good reply that comes behind the expiry, at its moment, is discarded (R113; log 48). An expiry with no attempt
waiting changes nothing, not the clock either (log 31). -/
def Obligations.TimeoutRetriesOrEndsInNoReply : Prop :=
  ∀ (s : State) (l : LinkId), s.phase = .operating →
    (waitingFlight s l = none → exec (.replyTimeout l) s = .next s)
    ∧ (∀ f, waitingFlight s l = some f →
        (f.attempt < f.allowed → Rests s → (∀ x rest, (s.links.get l).commitQ = x :: rest → x.dest ≠ .broadcast) →
          (s.links.get l).overtaking = none →
          ∃ s', exec (.replyTimeout l) s = .next s' ∧ Retried s s' l f ∧ s'.now = max s.now f.expires ∧ s'.port = s.port
            ∧ s'.dir = s.dir
            ∧ ∀ bytes st body, judgeReply f.txn.body f.seq bytes = .good st body →
                exec (.linkReply l bytes) s' = .next (unexpired s' l))
        ∧ (∀ (c : Instr) (now hop : Nat) (t : Tag) (x : Running) (r : Record),
            Ends s l f c none now → Rests (freed s l) → f.txn.dest = .directed hop → f.txn.req = .tag t →
            f.txn.body.countsMisses = true → s.port.tags.get t = .running x → x.ref? = some r.ref → ListedAt s l hop r →
            r.loc = ⟨l, hop⟩ → (∀ y ∈ (s.links.get l).hostQ, y.req ≠ .tag t) →
            ∃ s', exec c s = .next s' ∧ s'.now = now
              ∧ (c = .replyTimeout l → ∀ bytes st body, judgeReply f.txn.body f.seq bytes = .good st body →
                  exec (.linkReply l bytes) s' = .next s' ∨ exec (.linkReply l bytes) s' = .next (unexpired s' l))
              ∧ (r.miss + 1 < (s.links.get l).timing.missLimit →
                  Completed s s' ⟨t, x.kind, .noReply, 0, x.fields ++ [0]⟩
                  ∧ s'.dir = { s.dir with records := s.dir.records.map (fun y =>
                      if y.ref.handle = r.ref.handle then { y with miss := r.miss + 1 } else y) })
              ∧ ((s.links.get l).timing.missLimit ≤ r.miss + 1 →
                  Completed s s' ⟨t, x.kind, .noReply, 0, x.fields ++ [1]⟩ ∧ (s'.links.get l).entry hop = .empty
                  ∧ (∀ y ∈ s'.dir.records, y.ref = r.ref → y = { r with miss := r.miss + 1 }.lost now .noReply)
                  ∧ (NoneLost s (fun y => y.ref = r.ref) → s'.dir = { s.dir with
                      records := s.dir.records.map (fun y => if y.ref.handle = r.ref.handle
                        then { y with miss := r.miss + 1, state := .stale, stale := some ⟨now, .noReply⟩ } else y)
                      staleList := s.dir.staleList ++ [r.ref.handle] })
                  ∧ (WellShaped s → HubSound s → CommitSound s →
                      CommitMeets s s' now (fun p => p.ref == r.ref) (fun p => p.ref.handle)))
              ∧ (r.miss + 1 < (s.links.get l).timing.missLimit ∨ NoneLost s (fun y => y.ref = r.ref) →
                  settledCtl s'.commit = settledCtl s.commit
                  ∧ s'.keys = s.keys ∧ s'.store = s.store ∧ s'.staging = s.staging ∧ s'.boundary = s.boundary)))

/-- BROADCAST_SENT and ROLL_CALL_DUE (R111, R121, R122), in every commit state whose own tests call for nothing (Rests). A broadcast that overtook a transaction between its attempts ends and the
transaction's next attempt starts at once, its reply timer with it (log 15), and a reply is no late one any more (log 48); a broadcast in flight ends and the wire goes to the head of the commit class (with that class empty: TheWireGoesByClassOrder). The periodic roll call of a RUNNING link
becomes due when its interval has passed, whatever is in flight, and starts when nothing else waits; the clock comes to that moment
(log 2). It is due once in an interval (log 28). Otherwise neither changes anything (log 31). -/
def Obligations.BroadcastEndsAndRollCallFallsDue : Prop :=
  ∀ (s : State) (l : LinkId), s.phase = .operating →
    ((s.links.get l).overtaking = none → (∀ f, (s.links.get l).flight = some f → f.txn.dest ≠ .broadcast) →
      exec (.broadcastSent l) s = .next s)
    ∧ (∀ g f, (s.links.get l).overtaking = some g → (s.links.get l).flight = some f → Rests s →
        ∃ s', exec (.broadcastSent l) s = .next s' ∧ Retried s s' l f ∧ (s'.links.get l).overtaking = none
          ∧ (∀ bytes, ¬ Late s' l bytes)
          ∧ s'.now = s.now ∧ s'.dir = s.dir ∧ s'.port = s.port)
    ∧ (∀ f x rest, (s.links.get l).overtaking = none → (s.links.get l).flight = some f → f.txn.dest = .broadcast →
        (s.links.get l).state = .running → (s.links.get l).commitQ = x :: rest →
        Rests (freed s l) →
        ∃ s' g, exec (.broadcastSent l) s = .next s' ∧ (∀ bytes, ¬ Late s' l bytes) ∧ (s'.links.get l).flight = some g ∧ g.txn = x ∧ g.attempt = 1
          ∧ (s'.links.get l).commitQ = rest ∧ s'.dir = s.dir ∧ s'.port = s.port)
    ∧ (((s.links.get l).state ≠ .running ∨ (s.links.get l).rollDue = true ∨ (s.links.get l).rollMet = true) →
        exec (.rollCallDue l) s = .next s)
    ∧ (∀ m, (s.links.get l).state = .running → (s.links.get l).rollDue = false → (s.links.get l).rollMet = false →
        m = (s.links.get l).lastRollEnd + (s.links.get l).timing.interval * 100 →
        ((s.links.get l).flight ≠ none → exec (.rollCallDue l) s = .next { s with
          now := max s.now m, links := s.links.put l { s.links.get l with rollDue := true, rollMet := true } })
        ∧ ((s.links.get l).flight = none → (s.links.get l).overtaking = none → (s.links.get l).commitQ = [] →
            (s.links.get l).scanQ = [] → (s.links.get l).hostQ = [] → (s.links.get l).catchQ = [] →
            ∃ e' f, exec (.rollCallDue l) s = .next { s with now := max s.now m, links := s.links.put l e' }
              ∧ e'.flight = some f ∧ f.txn = rollTxn .periodic .engine ∧ f.attempt = 1 ∧ e'.rollDue = false ∧ e'.rollMet = true
              ∧ e'.hops = (s.links.get l).hops ∧ e'.timing = (s.links.get l).timing))

/-- Link packets and replies byte for byte (R100, R113, R191, R193). A downstream packet is its header (kind and sequence number, hop
field, payload length), the payload of its kind and the CRC-16 over both. A reply is good when it is well formed, of the packet's kind
and sequence number, and carries what R193 gives the kind and the status; of another sequence number when it is well formed but for
that; bad when it is no well-formed reply. The two checks are taken bit by bit, most significant first, from FFFFh with 1021h and from
00h with 07h. -/
def Obligations.PacketsAndRepliesAreLaidOut : Prop :=
  (crc16 [] = 0xFFFF ∧ crc8 [] = 0
    ∧ ∀ (bs : List Byte) (b : Byte),
      crc16 (bs ++ [b]) = [7, 6, 5, 4, 3, 2, 1, 0].foldl
        (fun (r : Half) i => if r.msb = b.getLsbD i then r <<< 1 else (r <<< 1) ^^^ 0x1021) (crc16 bs)
      ∧ crc8 (bs ++ [b]) = [7, 6, 5, 4, 3, 2, 1, 0].foldl
        (fun (r : Byte) i => if r.msb = b.getLsbD i then r <<< 1 else (r <<< 1) ^^^ 0x07) (crc8 bs))
  ∧ (∀ (t : Txn) (seq : Nat), seq < 16 → (∀ h, t.dest = .directed h → h < 16) →
      (∀ e first final ps, t.body = .prepare e first final ps → ps.length ≤ 6) →
      ∃ k h n : Byte,
        t.packet seq = [k, h, n] ++ payloadBytes t.body ++ halfBytes (crc16 ([k, h, n] ++ payloadBytes t.body))
        ∧ k.toNat = 16 * kindNumber t.body + seq
        ∧ h.toNat = (match t.dest with
          | .directed hop => hop
          | _ => 31)
        ∧ n.toNat = (payloadBytes t.body).length)
  ∧ ∀ (b : Body) (seq : Nat) (bytes : List Byte), seq < 16 →
      (∀ st body, judgeReply b seq bytes = .good st body ↔ WellFormedReply b seq st body bytes)
      ∧ (judgeReply b seq bytes = .otherSeq ↔ ∃ n st body, n ≠ seq ∧ WellFormedReply b n st body bytes)
      ∧ (judgeReply b seq bytes = .bad ↔ ∀ n st body, ¬ WellFormedReply b n st body bytes)

/-- To which transaction a wire goes (R112, R117, R119, R120, R122), shown where a broadcast leaves it, in every commit state whose own
tests call for nothing (Rests): in RUNNING to the head of the
commit class, else of the scan class, else of the host class or, the commit controller IDLE and the catch-up class waiting after
four host transactions in a row, of the catch-up class, else to a due roll call; in SCANNING to the full scan's transaction
alone. It takes the next sequence number, or the one after that when the next is the last its hop was given, and its reply timer starts with
the attempt (log 15). A reply timer that expires with attempts left and a broadcast APPLY at the head of the commit class lets that
overtake, in APPLYING with a participant UNCONFIRMED (its clock: log 2). A roll call that starts clears the due mark, for the whole interval if its moment has passed (R121,
log 28). -/
def Obligations.TheWireGoesByClassOrder : Prop :=
  ∀ (s : State) (l : LinkId), s.phase = .operating →
    let e := s.links.get l
    let idle := s.commit.state = .idle
    (∀ f, e.overtaking = none → e.flight = some f → f.txn.dest = .broadcast → e.caused = [] →
      Rests (freed s l) →
      (∀ j ∈ s.jobs.get l, j.phase ≠ .preparing) →
      ∃ s', exec (.broadcastSent l) s = .next s' ∧ s'.dir = s.dir ∧ s'.port = s.port ∧ s'.now = s.now
        ∧ let e' := s'.links.get l
          let starts := fun (t : Txn) => ∃ g, e'.flight = some g ∧ g.txn = t ∧ g.attempt = 1 ∧ g.phase = .onWire
            ∧ g.allowed = (if t.dest = .broadcast then 1 else e.timing.retries + 1)
            ∧ g.expires = s.now + e.timing.timeout
            ∧ (g.seq = (e.seqCounter + 1) % 16 ∨ g.seq = ((e.seqCounter + 1) % 16 + 1) % 16)
            ∧ (g.seq = (e.seqCounter + 1) % 16 ↔ ∀ h, t.dest = .directed h → e.lastSeq.getD h none ≠ some ((e.seqCounter + 1) % 16))
            ∧ e'.seqCounter = g.seq ∧ e'.sent = t.packet g.seq
            ∧ (∀ h, t.dest = .directed h → e'.lastSeq = e.lastSeq.set h (some g.seq))
            ∧ ((∀ h, t.dest ≠ .directed h) → e'.lastSeq = e.lastSeq)
          (e.state = .running →
            (∀ t q, e.commitQ = t :: q → starts t ∧ e'.commitQ = q)
            ∧ (e.commitQ = [] → ∀ t q, e.scanQ = t :: q → starts t ∧ e'.scanQ = q
                ∧ (t.body = .rollCall → e'.rollDue = false
                    ∧ (e.lastRollEnd + e.timing.interval * 100 < s.now → e'.rollMet = true)))
            ∧ (e.commitQ = [] → e.scanQ = [] →
                (∀ t q, e.hostQ = t :: q →
                  ((e.catchQ = [] ∨ ¬ idle) → starts t ∧ e'.hostQ = q ∧ e'.hostRun = 0)
                  ∧ (∀ x xs, e.catchQ = x :: xs → idle →
                      (e.hostRun < 4 → starts t ∧ e'.hostQ = q ∧ e'.catchQ = e.catchQ ∧ e'.hostRun = e.hostRun + 1)
                      ∧ (4 ≤ e.hostRun → starts x ∧ e'.catchQ = xs ∧ e'.hostQ = e.hostQ ∧ e'.hostRun = 0)))
                ∧ (e.hostQ = [] →
                    (∀ x xs, e.catchQ = x :: xs → idle → starts x ∧ e'.catchQ = xs ∧ e'.hostRun = 0)
                    ∧ ((e.catchQ = [] ∨ ¬ idle) →
                        (e.rollDue = true → starts (rollTxn .periodic .engine) ∧ e'.rollDue = false)
                        ∧ (e.rollDue = false → e'.flight = none)))))
          ∧ (e.state = .scanning →
              (∀ before t after, e.scanQ = before ++ t :: after → t.req = .scanStep true →
                (∀ x ∈ before, x.req ≠ .scanStep true) → starts t ∧ e'.scanQ = before ++ after)
              ∧ ((∀ x ∈ e.scanQ, x.req ≠ .scanStep true) → e'.flight = none)))
    ∧ ∀ f t rest, waitingFlight s l = some f → f.attempt < f.allowed → e.state = .running → e.commitQ = t :: rest →
        t.dest = .broadcast → s.commit.state = .applying → (∃ p ∈ s.commit.participants, p.status = .unconfirmed) →
        ∃ s' g, exec (.replyTimeout l) s = .next s' ∧ s'.now = max s.now f.expires
          ∧ (s'.links.get l).overtaking = some g ∧ g.txn = t ∧ g.attempt = 1
          ∧ (s'.links.get l).flight = some { f with phase := .between } ∧ (s'.links.get l).commitQ = rest
          ∧ g.seq = (e.seqCounter + 1) % 16 ∧ (s'.links.get l).sent = t.packet g.seq ∧ s'.dir = s.dir ∧ s'.port = s.port

/-! ### Chain scanning and roll call (chapter 7) -/

/-- The end of an ENUM_QUERY with a reply (R131, R132, R136, R141), in every commit state whose own tests call for nothing (Rests). At a
hop that lists no record the answer is matched: BAD_ID for a status other than OK or an ID or capacity no record may have;
DUPLICATE_ID for an ID marked or held by a reachable record, for which DUPLICATE is raised; an ASSIGN of the STALE record that holds
the ID, or of the free handle at the head of the list, or, that list empty and the controller IDLE, of the head of the stale list,
which is evicted (R20); else the hop is DIRECTORY_FULL. At a listed hop the record's own ID leaves it as it is, its miss count 0 if the
tile holds its reference (a capacity of 0: log 41); any other answer claims the record STALE as REPLACED, which a commit in which it is
a participant meets (CommitMeets). The entry and the index are those at the reply (log 46). -/
def Obligations.EnumReplyIsMatched : Prop :=
  ∀ (s : State) (l : LinkId) (f : Flight) (c : Instr) (st : TileStatus) (reply : ReplyBody) (full : Bool) (hop : Nat),
    WellShaped s → HubSound s → Rests s → Ends s l f c (some (st, reply)) s.now → f.txn = enumTxn full hop →
    ∃ s', exec c s = .next s'
      ∧ ((∀ ref, (s.links.get l).entry hop ≠ .listed ref) → settledCtl s'.commit = settledCtl s.commit ∧
          (st ≠ .ok → FoundUnlisted s s' l hop .badId)
          ∧ ∀ info, st = .ok → reply = .enumInfo info →
            ((info.uid = 0 ∨ info.uid = BitVec.allOnes 64 ∨ info.capacity = 0) → FoundUnlisted s s' l hop .badId)
            ∧ (info.uid ≠ 0 → info.uid ≠ BitVec.allOnes 64 → info.capacity ≠ 0 →
                ((∃ m ∈ s.dir.marks, m.uid = info.uid) → FoundUnlisted s s' l hop (.duplicateId info.uid))
                ∧ ((∀ m ∈ s.dir.marks, m.uid ≠ info.uid) →
                    (∀ r ∈ s.dir.records, r.uid = info.uid →
                      (r.state ≠ .stale →
                        FoundUnlisted s s' l hop (.duplicateId info.uid) ∧ Raised s' (.handle r.ref.handle) .duplicate)
                      ∧ (r.state = .stale → Assigns s' l ⟨hop, .assigningRebind, r.ref, info, full⟩
                          ∧ s'.dir = { s.dir with
                              marks := s.dir.marks ++ [⟨info.uid, .assigningRebind, r.ref, ⟨l, hop⟩⟩] }))
                    ∧ ((∀ r ∈ s.dir.records, r.uid ≠ info.uid) →
                        (∀ h rest, s.dir.freeList = h :: rest →
                          Assigns s' l ⟨hop, .assigningNew, ⟨h, genOf s h⟩, info, full⟩
                          ∧ s'.dir = { s.dir with
                              freeList := rest
                              marks := s.dir.marks ++ [⟨info.uid, .assigningNew, ⟨h, genOf s h⟩, ⟨l, hop⟩⟩] })
                        ∧ (s.dir.freeList = [] → s.commit.state ≠ .idle ∨ s.dir.staleList = [] →
                            FoundUnlisted s s' l hop .directoryFull)
                        ∧ (∀ h rest, s.dir.freeList = [] → s.commit.state = .idle → s.dir.staleList = h :: rest →
                            Assigns s' l ⟨hop, .assigningNew, ⟨h, (genOf s h + 1) % 16⟩, info, full⟩
                            ∧ s'.port.attn.handles[h - 1]? = some ⟨Reason.retired.flag, some (genOf s h)⟩
                            ∧ s'.store = s.store.filter (fun e => !e.namesHandle h)
                            ∧ s'.dir = { s.dir with
                                gens := s.dir.gens.set (h - 1) ((genOf s h + 1) % 16)
                                records := s.dir.records.filter (fun r => r.ref.handle != h)
                                staleList := rest
                                marks := s.dir.marks
                                  ++ [⟨info.uid, .assigningNew, ⟨h, (genOf s h + 1) % 16⟩, ⟨l, hop⟩⟩] })))))
      ∧ ∀ r ∈ s.dir.records, (s.links.get l).entry hop = .listed r.ref →
          (∀ info, st = .ok → reply = .enumInfo info → info.uid = r.uid →
            (s'.links.get l).entry hop = .listed r.ref ∧ settledCtl s'.commit = settledCtl s.commit
            ∧ s'.dir = { s.dir with records := s.dir.records.map (fun y =>
                if y.ref = r.ref ∧ info.held = r.ref then { y with miss := 0 } else y) })
          ∧ ((∀ info, st = .ok → reply = .enumInfo info → info.uid ≠ r.uid) →
              (s'.links.get l).entry hop ≠ .listed r.ref
              ∧ (∀ y ∈ s'.dir.records, y.ref = r.ref → y = r.lost s.now .replaced)
              ∧ (CommitSound s → CommitMeets s s' s.now (fun p => p.ref == r.ref) (fun p => p.ref.handle)))

/-- How scan steps end (R136, R137, R138, R141), in every commit state whose own tests call for nothing (Rests). An answered step of the full scan that starts no ASSIGN
is followed by the ENUM_QUERY of the next hop, after hop 15 by the end of the scan with reach 16. NO_REPLY ends the full scan with
its hop as the reach: the entries from there on are EMPTY, and their records STALE as UNREACHED, in hop order, which a commit meets for
the participants among them (CommitMeets). NO_REPLY to a hop scan makes an UNLISTED hop EMPTY and forces a roll call. A reply timer's end brings the clock to its expiry (log 2). -/
def Obligations.ScanStepsGoOnOrEnd : Prop :=
  ∀ (s : State) (l : LinkId) (f : Flight) (c : Instr) (out : Option (TileStatus × ReplyBody)) (now hop : Nat),
    WellShaped s → HubSound s → Rests s → Ends s l f c out now →
    (∀ sc, f.txn = enumTxn true hop → (s.links.get l).scan = some sc →
      ∃ s', exec c s = .next s' ∧ s'.now = now
        ∧ (out ≠ none → (∀ ref, (s.links.get l).entry hop ≠ .listed ref) → (s'.links.get l).assigning = none →
            (hop < 15 → (s'.links.get l).state = .scanning ∧ (s'.links.get l).scan = some { sc with hop := hop + 1 }
              ∧ ∃ g, (s'.links.get l).flight = some g ∧ g.txn = enumTxn true (hop + 1))
            ∧ (hop = 15 → ScanEnded s s' l 16 sc.claimed sc)
            ∧ settledCtl s'.commit = settledCtl s.commit)
        ∧ (out = none →
            let lost := (List.range 16).filterMap (fun h => match (s.links.get l).entry h with
              | .listed ref => if hop ≤ h then some ref.handle else none
              | _ => none)
            let gone := fun (r : Record) => r.state ≠ .stale ∧ r.loc.link = l ∧ hop ≤ r.loc.hop
            ScanEnded s s' l hop (sc.claimed + lost.length) sc
            ∧ (s'.links.get l).hops = (s.links.get l).hops.take hop ++ List.replicate (16 - hop) .empty
            ∧ (∀ r ∈ s.dir.records, gone r → ∀ y ∈ s'.dir.records, y.ref = r.ref → y = r.lost now .unreached)
            ∧ (NoneLost s gone → settledCtl s'.commit = settledCtl s.commit ∧ s'.dir = { s.dir with
                records := s.dir.records.map (fun r =>
                  if r.state ≠ .stale ∧ r.loc.link = l ∧ hop ≤ r.loc.hop then r.lost now .unreached else r)
                staleList := s.dir.staleList ++ lost })
            ∧ (CommitSound s →
                CommitMeets s s' now (fun p => p.loc.link == l && decide (hop ≤ p.loc.hop)) (fun p => p.loc.hop))))
    ∧ (f.txn = enumTxn false hop → out = none →
        ∃ s', exec c s = .next s' ∧ s'.now = now ∧ s'.dir = s.dir ∧ settledCtl s'.commit = settledCtl s.commit
          ∧ (s'.links.get l).entry hop = (if ((s.links.get l).entry hop).isUnlisted then .empty else (s.links.get l).entry hop)
          ∧ ∃ t, t.body = .rollCall ∧ ToCome (s'.links.get l) t)

/-- The end of the ASSIGN of a scan step (R3, R8, R21, R133), in every commit state whose own tests call for nothing (Rests): a commit
that runs goes on as it was. OK creates the record of a new tile,
JOINING at the hop with a catch-up job, or re-binds the STALE record, which keeps its position, groups and synced epoch; a record
retired meanwhile, as its reference and ID tell (log 43), leaves the hop UNLISTED as RETIRED with an ASSIGN of handle 0 to come. Any other end leaves it UNLISTED as
ASSIGN_FAILED, without a scan of it caused, a new tile's handle returning to the head of the free-handle list. The mark goes, and a
full scan goes on with the next hop or ends after hop 15. The clock of a reply timer's end: log 2. -/
def Obligations.AssignCreatesOrRebinds : Prop :=
  ∀ (s : State) (l : LinkId) (f : Flight) (c : Instr) (out : Option (TileStatus × ReplyBody)) (now : Nat) (a : Assignment),
    WellShaped s → HubSound s → Rests s → Ends s l f c out now → (s.links.get l).assigning = some a →
    f.txn = a.txn →
    let marks := s.dir.marks.filter (fun m => m.loc != ⟨l, a.hop⟩)
    ∃ s', exec c s = .next s' ∧ s'.now = now ∧ (s'.links.get l).assigning = none ∧ settledCtl s'.commit = settledCtl s.commit
      ∧ ((∃ body, out = some (.ok, body)) →
          (a.kind = .assigningNew →
            ∃ before after, s.dir.records = before ++ after
              ∧ s'.dir = { s.dir with
                  marks := marks
                  records := before ++ { ref := a.ref, uid := a.info.uid, model := a.info.model, capacity := a.info.capacity,
                                         state := .joining, loc := ⟨l, a.hop⟩, pos := none, groups := 0, synced := a.info.live,
                                         miss := 0, stale := none } :: after }
              ∧ s'.dir.records.Pairwise (fun x y => x.ref.handle < y.ref.handle)
              ∧ (s'.links.get l).entry a.hop = .listed a.ref ∧ Raised s' (.handle a.ref.handle) .joined
              ∧ ∃ j ∈ allJobs s', j.ref = a.ref)
          ∧ (a.kind = .assigningRebind →
              (∀ r ∈ s.dir.records, r.ref = a.ref → r.uid = a.info.uid →
                s'.dir = { s.dir with
                  marks := marks
                  staleList := s.dir.staleList.filter (fun h => h != a.ref.handle)
                  records := s.dir.records.map (fun y => if y.ref = a.ref
                    then { y with state := .joining, stale := none, loc := ⟨l, a.hop⟩, model := a.info.model,
                                  capacity := a.info.capacity, miss := 0 } else y) }
                ∧ (s'.links.get l).entry a.hop = .listed a.ref ∧ Raised s' (.handle a.ref.handle) .rejoined
                ∧ (Raised s' (.handle a.ref.handle) .moved ↔
                    Raised s (.handle a.ref.handle) .moved ∨ r.loc ≠ ⟨l, a.hop⟩)
                ∧ ∃ j ∈ allJobs s', j.ref = a.ref)
              ∧ ((∀ r ∈ s.dir.records, r.ref = a.ref → r.uid ≠ a.info.uid) →
                  s'.dir = { s.dir with marks := marks } ∧ (s'.links.get l).entry a.hop = .unlisted .retired
                  ∧ ToCome (s'.links.get l) (clearTxn a.hop))))
      ∧ ((∀ body, out ≠ some (.ok, body)) →
          s'.dir = { s.dir with
            marks := marks
            freeList := if a.kind = .assigningNew then a.ref.handle :: s.dir.freeList else s.dir.freeList }
          ∧ (s'.links.get l).entry a.hop = .unlisted .assignFailed
          ∧ ¬ ToCome (s'.links.get l) (enumTxn false a.hop))
      ∧ (a.full = true → a.hop < 15 → (∃ sc, (s'.links.get l).scan = some sc ∧ sc.hop = a.hop + 1)
          ∧ ∃ g, (s'.links.get l).flight = some g ∧ g.txn = enumTxn true (a.hop + 1))
      ∧ (a.full = true → a.hop = 15 → (s'.links.get l).state = .running ∧ (s'.links.get l).reach = 16)

/-- The processing of a roll call that the commit controller did not ask for (R121, R143, R144), in every commit state whose own tests
call for nothing (Rests). The reach is the number of entries, none with NO_REPLY; the interval restarts. Each hop 0 to 15 but that of an assignment in progress takes its
row of the table: a record that is not found is STALE as UNREACHED or REPLACED, in hop order, its hop EMPTY; one found has miss
count 0; an UNLISTED hop beyond the reach is EMPTY; and on a RUNNING link a hop scan comes for each tile that is not the listed one.
Nothing else of the directory changes, and a commit meets the claims on its participants (CommitMeets). The clock of a reply timer's end: log 2. -/
def Obligations.RollCallIsProcessedHopByHop : Prop :=
  ∀ (s : State) (l : LinkId) (f : Flight) (c : Instr) (out : Option (TileStatus × ReplyBody)) (now : Nat)
    (entries : List RollEntry),
    WellShaped s → HubSound s → Rests (freed s l) → Ends s l f c out now → f.txn.dest = .rollCall →
    f.txn.req ≠ .controller → ((out = none ∧ entries = []) ∨ ∃ st, out = some (st, .roll entries)) →
    ∃ s', exec c s = .next s' ∧ s'.now = now
      ∧ (s'.links.get l).reach = entries.length ∧ (s'.links.get l).lastRollEnd = now ∧ (s'.links.get l).rollDue = false
      ∧ (s'.links.get l).rollMet = false
      ∧ (∀ hop < 16, (s'.links.get l).entry hop = rolledEntry s l entries hop)
      ∧ (∀ r ∈ s.dir.records, ∀ y ∈ s'.dir.records, y.ref = r.ref → y = rolledRecord s l entries now r)
      ∧ (NoneLost s (fun r => (rolledRecord s l entries now r).state ≠ r.state) →
          settledCtl s'.commit = settledCtl s.commit ∧ s'.dir = { s.dir with
            records := s.dir.records.map (rolledRecord s l entries now)
            staleList := s.dir.staleList ++ (List.range 16).filterMap (fun hop =>
              match (s.links.get l).entry hop with
              | .listed ref => if rolledEntry s l entries hop = .empty then some ref.handle else none
              | _ => none) })
      ∧ (CommitSound s → CommitMeets s s' now
          (fun p => p.loc.link == l && rolledEntry s l entries p.loc.hop == .empty) (fun p => p.loc.hop))
      ∧ ((s.links.get l).state = .running → ∀ hop < 16, rollCauses s l entries hop →
          ToCome (s'.links.get l) (enumTxn false hop))
      ∧ ((s.links.get l).state = .scanning → ∀ hop, ¬ ToCome (s'.links.get l) (enumTxn false hop))

/-! ### Catch-up (chapter 8) -/

/-- How a catch-up transaction ends (R10, R155 to R158, R161), for the one job of a record listed at the hop. The commit controller IDLE:
a PREPARE answered OK is counted; the next packet of the round comes, or after the last the job awaits a boundary and its turn is
free. An APPLY that switched the round sends the job to the tail for its next round, or after the last makes the record ACTIVE, its
synced epoch the committed one. A refusal restarts the job at the tail, a fourth one removes it with CATCHUP_FAILED. NO_REPLY
below the miss limit queues the packet again; at the limit the record is STALE and the job is gone. On a SCANNING link too the next or
repeated packet is queued, to wait for the scan's end (R163; log 24). The result of a transaction that was on the wire at a COMMIT's
acceptance is discarded, in every commit state whose own tests call for nothing and in IDLE again (log 23): the miss count takes it,
at the limit the record is STALE; otherwise the job is marked for re-preparation with no packet acknowledged, one in APPLYING is
PREPARING again, and in IDLE the job that holds the turn prepares its round again from its first packet (R162). The clock of a reply
timer's end: log 2. -/
def Obligations.CatchUpTransactionsEnd : Prop :=
  ∀ (s : State) (l : LinkId) (f : Flight) (c : Instr) (out : Option (TileStatus × ReplyBody)) (now hop : Nat) (j : Job)
    (r : Record), WellShaped s → HubSound s → Rests (freed s l) → Ends s l f c out now → f.txn.dest = .directed hop →
    Sole (fun x => x.ref = j.ref) (allJobs s) j → j ∈ s.jobs.get l → 1 ≤ j.round → r ∈ s.dir.records → r.ref = j.ref →
    (r.state = .joining ∨ r.state = .lagging) → (s.links.get l).entry hop = .listed r.ref →
    let cap := max 1 r.capacity
    let round := (j.list.drop ((j.round - 1) * cap)).take cap
    let packets := (round.length + 5) / 6
    let heard := fun (g : Record → Record) => { s.dir with records := s.dir.records.map (fun y => if y.ref = r.ref then g y else y) }
    let refused := fun (s' : State) =>
      s'.dir = heard (fun y => { y with miss := 0 })
      ∧ (j.restarts < 3 → ∃ list, list = changeList s.keys (committedView s) j.ref
          ∧ MovedToTail s s' l j.ref { j with list := list, round := 1, roundCount := (list.length + (cap - 1)) / cap,
                                              phase := .preparing, acked := 0, restarts := j.restarts + 1, reprepare := false })
      ∧ (3 ≤ j.restarts → (∀ x ∈ allJobs s', x.ref ≠ j.ref) ∧ Raised s' (.handle r.ref.handle) .catchupFailed)
    (s.commit.state = .idle → f.txn.req = .job j.ref →
      (∀ e first final ps, f.txn.body = .prepare e first final ps → j.phase = .preparing →
        (∀ body, out = some (.ok, body) → ∃ s', exec c s = .next s' ∧ s'.now = now
          ∧ s'.dir = heard (fun y => { y with miss := 0 })
          ∧ (packets ≤ j.acked + 1 →
              { j with acked := j.acked + 1, phase := .awaitingBoundary, turn := false } ∈ s'.jobs.get l)
          ∧ (j.acked + 1 < packets →
              (∃ j' ∈ s'.jobs.get l, j'.still = { j.still with acked := j.acked + 1 })
              ∧ ToCome (s'.links.get l) { dest := .directed r.loc.hop, cls := .catchUp, req := .job j.ref
                                          body := .prepare s.commit.epoch false (j.acked + 2 == packets)
                                            ((round.drop (6 * (j.acked + 1))).take 6) }))
        ∧ (∀ st body, out = some (st, body) → st ≠ .ok → ∃ s', exec c s = .next s' ∧ s'.now = now ∧ refused s'))
      ∧ (∀ e, f.txn.body = .apply e → j.phase = .applying →
        (∀ st body, out = some (st, body) → (st, body) ≠ (.ok, .epoch s.commit.epoch) →
          ∃ s', exec c s = .next s' ∧ s'.now = now ∧ refused s')
        ∧ (out = some (.ok, .epoch s.commit.epoch) → ∃ s', exec c s = .next s' ∧ s'.now = now
          ∧ (j.round < j.roundCount → s'.dir = heard (fun y => { y with miss := 0 })
              ∧ ∃ b, MovedToTail s s' l j.ref { j with round := j.round + 1, acked := 0, phase := .preparing, reprepare := b })
          ∧ (j.roundCount ≤ j.round →
              s'.dir = heard (fun y => { y with miss := 0, state := .active, synced := s.commit.epoch })
              ∧ (∀ x ∈ allJobs s', x.ref ≠ j.ref) ∧ Raised s' (.handle r.ref.handle) .active)))
      ∧ (out = none → f.txn.body.countsMisses = true → ∃ s', exec c s = .next s' ∧ s'.now = now
          ∧ (r.miss + 1 < (s.links.get l).timing.missLimit →
              s'.dir = heard (fun y => { y with miss := r.miss + 1 })
              ∧ (∃ j' ∈ s'.jobs.get l, j'.still = j.still) ∧ ToCome (s'.links.get l) f.txn)
          ∧ ((s.links.get l).timing.missLimit ≤ r.miss + 1 →
              (∀ x ∈ allJobs s', x.ref ≠ j.ref) ∧ (s'.links.get l).entry hop = .empty
              ∧ ∃ y ∈ s'.dir.records, y = { r with miss := r.miss + 1 }.lost now .noReply)))
    ∧ (f.txn.req = .suspendedJob j.ref → f.txn.body.countsMisses = true → ∃ s', exec c s = .next s' ∧ s'.now = now
      ∧ (out = none → (s.links.get l).timing.missLimit ≤ r.miss + 1 →
          (∀ x ∈ allJobs s', x.ref ≠ j.ref) ∧ (s'.links.get l).entry hop = .empty
          ∧ ∃ y ∈ s'.dir.records, y = { r with miss := r.miss + 1 }.lost now .noReply)
      ∧ ((out = none → r.miss + 1 < (s.links.get l).timing.missLimit) →
          s'.dir = heard (fun y => { y with miss := if out = none then r.miss + 1 else 0 })
          ∧ settledCtl s'.commit = settledCtl s.commit
          ∧ (s.commit.state ≠ .idle → { j with
                acked := 0, reprepare := true, phase := if j.phase = .applying then .preparing else j.phase } ∈ s'.jobs.get l)
          ∧ (s.commit.state = .idle →
              (∃ j' ∈ s'.jobs.get l, j'.ref = j.ref ∧ j'.round = j.round ∧ j'.acked = 0 ∧ j'.restarts = j.restarts
                ∧ j'.phase = if j.phase = .applying then .preparing else j.phase)
              ∧ ((s.links.get l).state = .running → j.turn = true → (∀ x ∈ s.jobs.get l, x.turn = true → x = j) →
                  j.phase ≠ .awaitingBoundary → (∀ t ∈ (s.links.get l).catchQ, t.isJobOf j.ref = false) →
                  let pairs := if j.round = 1 then (changeList s.keys (committedView s) j.ref).take cap else round
                  ToCome (s'.links.get l) { dest := .directed r.loc.hop, cls := .catchUp, req := .job j.ref
                                            body := .prepare s.commit.epoch true ((pairs.length + 5) / 6 == 1) (pairs.take 6) }))))

/-! ### Direct tile access (chapter 9) -/

/-- TILE_READ and TILE_WRITE of a record (R166, R167, R168): NOT_REACHABLE for a STALE record, KEY_BOUND for a write to an address
that a defined key names or a position parameter's; otherwise the tag is held, and the transaction is the last to come in the host
class of the record's link, or on its wire already. The fields of a refusal: log 11. Nothing else off the wire changes. -/
def Obligations.TileAccessIsQueuedOrRefused : Prop :=
  ∀ (s : State) (b h g a v1 v0 : Byte) (t : Tag) (r : Record), Accepts s b t → Names s ⟨h.toNat, g.toNat⟩ r →
    let l := r.loc.link
    let held := fun n x => { received n s with port := { (received n s).port with tags := s.port.tags.put t (.running x) } }
    let queued := fun (n : Nat) (x : Running) (body : Body) (s' : State) => offWire s' = offWire (held n x) ∧ s'.jobs = s.jobs
      ∧ ∃ sent, (s.links.get l).hostQ ++ [(⟨.directed r.loc.hop, body, .host, .tag t⟩ : Txn)] = sent ++ (s'.links.get l).hostQ
        ∧ (sent = [] ∨ ∃ f, (s'.links.get l).flight = some f ∧ sent = [f.txn])
    let bound := (∃ k ∈ s.keys, k.addr = a) ∨ a = 240 ∨ a = 241
    (r.state = .stale →
      exec (.tileRead b ⟨h, g⟩ a) s = .next (answered s 3 t .tileRead .notReachable [h, g, a])
      ∧ exec (.tileWrite b ⟨h, g⟩ a (v1 ++ v0)) s = .next (answered s 5 t .tileWrite .notReachable [h, g, a, v1, v0]))
    ∧ (r.state ≠ .stale →
        (∃ s', exec (.tileRead b ⟨h, g⟩ a) s = .next s' ∧ queued 3 (.tileRead r.ref a) (.paramRead a) s')
        ∧ (bound → exec (.tileWrite b ⟨h, g⟩ a (v1 ++ v0)) s
            = .next (answered s 5 t .tileWrite .keyBound [h, g, a, v1, v0]))
        ∧ (¬ bound → ∃ s', exec (.tileWrite b ⟨h, g⟩ a (v1 ++ v0)) s = .next s'
            ∧ queued 5 (.tileWrite r.ref a (v1 ++ v0)) (.paramWrite a (v1 ++ v0)) s'))

/-! ### Clears and device reset (sections 10.7 and 10.8) -/

/-- CLEAR LINKS (R26, R126, R187, R188): the port is RESETTING with the CLEAR's tag RUNNING and its results recorded; every
enabled link is TRAINING with a new no-lock timer and nothing listed, a DISABLED one stays; the requests of a link taken down
complete NOT_REACHABLE; with the commit controller IDLE (else LostParticipantsAndCancelsEnd) the reachable records of the enabled
links become STALE for CLEARED and join the stale list, and the keys, the store, the staging list and the epoch stay. In a sound hub
no assignment is left in progress: no ID is marked, and the handles held for new tiles return to the head of the free-handle list,
that of the lowest-numbered link first. The tag t serves nothing else. -/
def Obligations.ClearLinksTrainsEveryEnabledLink : Prop :=
  ∀ (s : State) (b : Byte) (t : Tag), Accepts s b t → (∀ l, ¬ EndsWithLink (s.links.get l) t) → s.commit.state = .idle →
    s.dir.records.Pairwise (fun x y => x.ref.handle ≠ y.ref.handle) →
    let lost := s.dir.records.filter (fun r => decide (r.state ≠ .stale ∧ (s.links.get r.loc.link).state ≠ .disabled))
    ∃ (s' : State) (new : List Completion) (set : Byte),
      exec (.clearLinks b) s = .next s' ∧ s'.port.state = .resetting ∧ s'.port.tags.get t = .running .clear
      ∧ s'.port.completions = s.port.completions ++ new
      ∧ s'.port.clear = some { tag := t, scope := .links, links := set, stale := lost.length
                               ended := (new.filter (fun c => c.status == .notReachable)).length }
      ∧ (∀ l : LinkId, set.getLsbD l.val = true ↔ (s.links.get l).state ≠ .disabled) ∧ set.toNat < 16
      ∧ (∀ l n x, (s.links.get l).isUp = true → EndsWithLink (s.links.get l) n → s.port.tags.get n = .running x →
          Completed s s' ⟨n, x.kind, .notReachable, 0, x.fields⟩)
      ∧ (∀ l, if (s.links.get l).state = .disabled then (s'.links.get l).state = .disabled
          else (s'.links.get l).state = .training ∧ (s'.links.get l).noLockTimer = some (s.now + 10000)
            ∧ (s'.links.get l).hops = List.replicate 16 .empty ∧ (s'.links.get l).reach = 0
            ∧ (s'.links.get l).flight = none ∧ (s'.links.get l).timing = (s.links.get l).timing
            ∧ (s'.links.get l).seqCounter = (s.links.get l).seqCounter
            ∧ s'.port.attn.links.get l = if (s.links.get l).isUp then s.port.attn.links.get l ||| Reason.linkDown.flag
                else s.port.attn.links.get l)
      ∧ s'.dir.records = s.dir.records.map (fun r => if r.state ≠ .stale ∧ (s.links.get r.loc.link).state ≠ .disabled
          then { r with state := .stale, stale := some ⟨s.now, .cleared⟩ } else r)
      ∧ s'.dir.staleList = s.dir.staleList ++ lost.map (fun r => r.ref.handle)
      ∧ (HubSound s → s'.dir.marks = []
          ∧ s'.dir.freeList = ([0, 1, 2, 3] : List LinkId).filterMap (fun l => match (s.links.get l).assigning with
              | some a => if a.kind = .assigningNew then some a.ref.handle else none
              | none => none) ++ s.dir.freeList)
      ∧ s'.dir.gens = s.dir.gens ∧ s'.dir.grace = s.dir.grace
      ∧ s'.port.attn.device = s.port.attn.device ∧ s'.port.mask = s.port.mask
      ∧ s'.keys = s.keys ∧ s'.store = s.store ∧ s'.staging = s.staging ∧ s'.boundary = s.boundary
      ∧ s'.commit.state = .idle ∧ s'.commit.epoch = s.commit.epoch

/-- CLEAR ALL (R27, R47, R62, R90, R99, R126, R189): every other running request completes CLEARED in ascending tag order, a
COMMIT with the committed epoch, 0 by then (R63; log 13), the attention set is CLEARED alone, every block is emptied as its chapter states, the generations of the handles that held records
advance, and what the rules keep is kept. -/
def Obligations.ClearAllEmptiesEveryBlock : Prop :=
  ∀ (s : State) (b : Byte) (t : Tag), Accepts s b t → s.dir.gens.length = 80 →
    ∃ (s' : State) (ended : List Completion),
      exec (.clearAll b) s = .next s'
      ∧ ended = ([0, 1, 2, 3] : List Tag).filterMap (fun n => match s.port.tags.get n with
          | .running x => some ⟨n, x.kind, .cleared, 0, if x = .commit then halfBytes 0 else x.fields⟩
          | _ => none)
      ∧ s'.port.completions = s.port.completions ++ ended
      ∧ (∀ n, s'.port.tags.get n = if n = t then .running .clear
          else match s.port.tags.get n with
            | .running _ => .done
            | x => x)
      ∧ s'.port.state = .resetting ∧ s'.port.mask = s.port.mask
      ∧ s'.port.attn = { device := Reason.cleared.flag, links := Quad.all 0, handles := List.replicate 80 ⟨0, none⟩ }
      ∧ s'.port.clear = some { tag := t, scope := .all, links := 0, stale := 0, ended := ended.length }
      ∧ s'.dir.records = [] ∧ s'.dir.freeList = List.range' 1 80 ∧ s'.dir.staleList = [] ∧ s'.dir.marks = []
      ∧ s'.dir.grace = s.dir.grace ∧ s'.dir.gens.length = 80
      ∧ (∀ i < 80, s'.dir.gens[i]? = (s.dir.gens[i]?).map (fun g =>
          if s.dir.records.any (fun r => r.ref.handle == i + 1) then (g + 1) % 16 else g))
      ∧ s'.keys = [] ∧ s'.store = [] ∧ s'.staging = [] ∧ s'.jobs = Quad.all []
      ∧ s'.commit = CommitCtl.idle 0 s.commit.lengths
      ∧ s'.boundary = { s.boundary with count := 0, pendingNow := none }
      ∧ (∀ l, if (s.links.get l).state = .disabled then s'.links.get l = s.links.get l
          else (s'.links.get l).state = .training ∧ (s'.links.get l).noLockTimer = some (s.now + 10000)
            ∧ (s'.links.get l).hops = List.replicate 16 .empty ∧ (s'.links.get l).reach = 0
            ∧ (s'.links.get l).flight = none ∧ (s'.links.get l).commitQ = [] ∧ (s'.links.get l).scanQ = []
            ∧ (s'.links.get l).hostQ = [] ∧ (s'.links.get l).catchQ = []
            ∧ (s'.links.get l).timing = (s.links.get l).timing ∧ (s'.links.get l).seqCounter = (s.links.get l).seqCounter)
      ∧ s'.now = s.now ∧ s'.phase = s.phase

/-- The end of the clear interval (R187): the port is READY, the running CLEAR is absent, and the CLEAR completes OK with its
scope, for LINKS the set of links and the number of records, and the number of requests it ended. With no CLEAR running nothing
happens (log 31). Device reset (R190) from any state: with RESET_N low and then high every block takes the initial value its chapter
states (R47, R62, R64, R66, R98, R99, R123, R127), the port is RESETTING and empty in the start-up interval; its end makes the port
READY and raises RESET_DONE alone, and elsewhere the command changes nothing (log 26). The model's queue, clock and choice counter go
on (logs 2, 3, 7), its records of what was shifted out and sent are empty (log 4); the values the spec does not state are the model's
(log 5). -/
def Obligations.ClearIntervalAndDeviceReset : Prop :=
  (∀ s : State, s.phase = .operating →
    (s.port.clear = none → exec .clearIntervalEnd s = .next s)
    ∧ (∀ c, s.port.clear = some c → exec .clearIntervalEnd s = .next { s with port := { s.port with
        state := .ready
        clear := none
        tags := s.port.tags.put c.tag .done
        completions := s.port.completions ++ [⟨c.tag, .clear, .ok, 0,
          if c.scope = .links then [0, c.links, u8 c.stale, u8 c.ended] else [1, u8 c.ended]⟩] } }))
  ∧ ∀ s : State, ∃ (s1 s2 : State) (e : LinkEngine),
    exec .deviceReset s = .next s1 ∧ s1.phase = .inReset ∧ exec .resetRelease s1 = .next s2
    ∧ e = { state := .disabled, reach := 0, hops := List.replicate 16 .empty, seqCounter := 0,
            lastSeq := List.replicate 16 none, flight := none, overtaking := none, commitQ := [], scanQ := [], hostQ := [],
            catchQ := [], hostRun := 0, rollDue := false, rollMet := false, lastRollEnd := 0, noLockTimer := none, noLockMark := false,
            timing := { timeout := 20, retries := 2, missLimit := 3, interval := 20 }, scan := none, assigning := none,
            followUp := false, caused := [], expired := none, sent := [] }
    ∧ s2 = { pending := s.pending, now := s.now, choices := s.choices, phase := .startup
             port := { state := .resetting, lastAccept := .none, tags := Quad.all .free, completions := []
                       attn := { device := 0, links := Quad.all 0, handles := List.replicate 80 ⟨0, none⟩ }
                       mask := BitVec.allOnes 20, clear := none, sdo := [] }
             dir := { gens := List.replicate 80 0, records := [], freeList := List.range' 1 80, staleList := [], marks := [],
                      grace := 30 }
             keys := [], store := [], staging := []
             commit := { state := .idle, epoch := 0, policy := none, tag := none, postView := none, displaced := [],
                         participants := [], prepareDl := none, armDl := none, applyDl := none, reason := none,
                         applyCount := none, lengths := { prepare := 50, arm := 100, apply := 50 } }
             boundary := { polarity := .rising, enabled := true, count := 0, previous := none, pendingNow := none,
                           present := false, watch := none }
             links := Quad.all e, jobs := Quad.all [] }
    ∧ exec .startupIntervalEnd s2 = .next { s2 with
        phase := .operating
        port := { s2.port with state := .ready, attn := { s2.port.attn with device := 1 } } }
    ∧ (∀ u : State, u.phase ≠ .startup → exec .startupIntervalEnd u = .next u)

/-! ### The whole hub -/

/-- Every step of the hub keeps its shape (R1, R14, R29, R35, R49, R66, R112, R120, R123, R128, R181), from every state that has
it. -/
def Obligations.EveryStepKeepsTheShape : Prop :=
  ∀ s s' : State, WellShaped s → step s = .next s' → WellShaped s'

/-- Every step keeps the links and the directory sound (LinkSound, DirectorySound): what is in progress on a link fits its state,
handles, IDs, marks and the stale list are accounted for, and the hop maps name exactly the reachable records (R1, R4, R5, R13, R128,
R130, R135, R138, R140). -/
def Obligations.EveryStepKeepsTheHubSound : Prop :=
  ∀ s s' : State, WellShaped s → HubSound s → step s = .next s' → HubSound s'

/-- Every step keeps the tags accounted for: at most four completions wait, their tags are the DONE ones, and each running request
is held by its block (R176 to R178). -/
def Obligations.EveryStepKeepsTheTagsSound : Prop :=
  ∀ s s' : State, WellShaped s → HubSound s → TagsSound s → step s = .next s' → TagsSound s'

/-- Every step keeps the settings and the commit sound: committed cells, the store in listing order and within 512 entries, staged
changes that name records and keys, and participants, statuses and deadlines that fit the commit state (R7, R35, R38, R65, R66,
R68). -/
def Obligations.EveryStepKeepsTheCommitSound : Prop :=
  ∀ s s' : State, WellShaped s → HubSound s → CommitSound s → step s = .next s' → CommitSound s'

/-- The hub is well shaped and sound after device reset. -/
def Obligations.ResetIsShapedAndSound : Prop :=
  WellShaped State.reset ∧ HubSound State.reset ∧ TagsSound State.reset ∧ CommitSound State.reset

/-- While the commit controller is not IDLE before and after a command, the Staging List stays unchanged, unless the command
carries out the apply, which empties it (R55, R57). -/
def Obligations.StagingIsFrozenDuringACommit : Prop :=
  ∀ (c : Instr) (s s' : State), exec c s = .next s' → s.commit.state ≠ .idle → s'.commit.state ≠ .idle →
    s'.staging = s.staging ∨ (s.commit.state = .armed ∧ s'.commit.state = .applying ∧ s'.staging = [])

/-- The committed epoch changes only at an apply, out of ARMED, by 1 with the wrap of 16 bits, which a boundary event carries out
(BOUNDARY_NOW at acceptance or at its due moment, or a FRAME edge), and at a CLEAR ALL or device reset, to 0 with an empty directory
(R63). The command is the one that an SPI transaction's bytes spell (log 22). -/
def Obligations.EpochChangesOnlyAtAnApplyOrClear : Prop :=
  ∀ (c : Instr) (s s' : State), exec c s = .next s' →
    s'.commit.epoch = s.commit.epoch
      ∨ (((∃ t, spoken c = .boundaryNow t) ∨ c = .boundaryNowDue ∨ ∃ e, c = .frameEdge e)
          ∧ s.commit.state = .armed ∧ s'.commit.epoch = s.commit.epoch + 1 ∧ s'.staging = [])
      ∨ (((∃ t, spoken c = .clearAll t) ∨ c = .deviceReset ∨ c = .resetRelease)
          ∧ s'.commit.epoch = 0 ∧ s'.commit.state = .idle ∧ s'.dir.records = [] ∧ s'.store = [] ∧ s'.keys = [])

end Statements
end

