-- ==== Sys2Proof/Laws/Bytes.lean ====
section
/-! SUPPORT. The byte encodings read back, and the port's judgement of a frame cut into its fields. -/

namespace Sys2Proof

open Sys2Proof.Machine

namespace Machine

/-! ### Numbers and their bytes -/

/-- The leading bits of an append. -/
theorem extract_append_hi {n m : Nat} (x : BitVec n) (y : BitVec m) : (x ++ y).extractLsb' m n = x := by
  apply BitVec.eq_of_getLsbD_eq
  intro i hi
  simp [BitVec.getLsbD_append, hi]

/-- Bits of an append that lie in its trailing part. -/
theorem extract_append_lo {n m k j : Nat} (x : BitVec n) (y : BitVec m) (h : k + j ≤ m) :
    (x ++ y).extractLsb' k j = y.extractLsb' k j := by
  apply BitVec.eq_of_getLsbD_eq
  intro i hi
  simp [BitVec.getLsbD_append, hi, show k + i < m by omega]

/-- The bytes of a 2-byte number give the number. -/
theorem halfOf_bytes (h : Half) : halfOf (h.extractLsb' 8 8) (h.extractLsb' 0 8) = h := by
  unfold halfOf
  simp only [BitVec.extractLsb'_append_extractLsb'_eq_extractLsb']
  simp

/-- A 2-byte number made of two bytes has those bytes. -/
theorem halfBytes_halfOf (a b : Byte) : halfBytes (halfOf a b) = [a, b] := by
  have h1 : (halfOf a b).extractLsb' 8 8 = a := extract_append_hi a b
  have h2 : (halfOf a b).extractLsb' 0 8 = b := (extract_append_lo a b (by decide)).trans (by simp)
  rw [halfBytes, h1, h2]

/-- The bytes of a unique ID give the ID. -/
theorem uidOf_bytes (u : Uid) :
    uidOf (u.extractLsb' 56 8) (u.extractLsb' 48 8) (u.extractLsb' 40 8) (u.extractLsb' 32 8)
      (u.extractLsb' 24 8) (u.extractLsb' 16 8) (u.extractLsb' 8 8) (u.extractLsb' 0 8) = u := by
  unfold uidOf
  simp only [BitVec.extractLsb'_append_extractLsb'_eq_extractLsb']
  simp

/-- The three bytes of a mask give the mask. -/
theorem maskOf_bytes (m : BitVec 24) : (m.extractLsb' 16 8 ++ m.extractLsb' 8 8 ++ m.extractLsb' 0 8 : BitVec 24) = m := by
  simp only [BitVec.extractLsb'_append_extractLsb'_eq_extractLsb']
  simp

end Machine

/-! ### Frames -/

/-- The number of a request kind names it. -/
theorem kindOf_code (k : ReqKind) : kindOf k.code = some k := by cases k <;> decide

/-- A byte that names a request kind is its number. -/
theorem code_of_kindOf {b : Byte} {k : ReqKind} (h : kindOf b = some k) : k.code = b := by
  have all : ∀ b : Byte, (kindOf b).all (fun k => decide (k.code = b)) = true := by decide +kernel
  have := all b
  rw [h] at this
  simpa using this

/-- The judgement of a frame of at least three bytes, by its kind, tag, parameters and check (R175). -/
theorem judgeFrame_fields (k t : Byte) (ps : List Byte) (c : Byte) :
    judgeFrame (k :: t :: (ps ++ [c])) =
      if c ≠ crc8 (k :: t :: ps) then .badFrame else
      match kindOf k with
      | none => .unknownRequest
      | some kind =>
        if t.toNat < 4 then
          match decodeParams kind t ps with
          | some d => .good d
          | none => .badFrame
        else .badFrame := by
  have h1 : (k :: t :: (ps ++ [c])).dropLast = k :: t :: ps := by
    rw [show k :: t :: (ps ++ [c]) = (k :: t :: ps) ++ [c] from rfl, List.dropLast_concat]
  have h2 : (k :: t :: (ps ++ [c])).getLast? = some c := by
    rw [show k :: t :: (ps ++ [c]) = (k :: t :: ps) ++ [c] from rfl, List.getLast?_concat]
  have h3 : ¬ (k :: t :: (ps ++ [c])).length < 3 := by simp
  unfold judgeFrame
  simp only [h1, h2, h3, false_or, ne_eq, Option.some.injEq] <;> rfl

/-- A frame of fewer than three bytes is bad (R175). -/
theorem judgeFrame_short {f : List Byte} (h : f.length < 3) : judgeFrame f = .badFrame := by
  unfold judgeFrame
  rw [if_pos (.inl h)]

end Sys2Proof
end

