-- ==== Sys2Proof/Laws/State.lean ====
section
/-! SUPPORT. One lemma per field of State for each update of a block, and the laws of Quad. -/

namespace Sys2Proof

/-! ### Quad -/

@[simp] theorem Quad.get_put_self {α : Type} (q : Quad α) (i : Fin 4) (a : α) : (q.put i a).get i = a := by
  rcases q with ⟨a0, a1, a2, a3⟩; fin_cases i <;> rfl

theorem Quad.get_put_ne {α : Type} (q : Quad α) {i j : Fin 4} (a : α) (h : j ≠ i) : (q.put i a).get j = q.get j := by
  rcases q with ⟨a0, a1, a2, a3⟩; fin_cases i <;> fin_cases j <;> first | rfl | exact absurd rfl h

theorem Quad.get_put {α : Type} (q : Quad α) (i j : Fin 4) (a : α) : (q.put i a).get j = if j = i then a else q.get j := by
  by_cases h : j = i
  · subst h; simp
  · simp [h, Quad.get_put_ne]

@[simp] theorem Quad.get_modify_self {α : Type} (q : Quad α) (i : Fin 4) (f : α → α) : (q.modify i f).get i = f (q.get i) :=
  Quad.get_put_self ..

theorem Quad.get_modify_ne {α : Type} (q : Quad α) {i j : Fin 4} (f : α → α) (h : j ≠ i) : (q.modify i f).get j = q.get j :=
  Quad.get_put_ne _ _ h

theorem Quad.get_modify {α : Type} (q : Quad α) (i j : Fin 4) (f : α → α) :
    (q.modify i f).get j = if j = i then f (q.get j) else q.get j := by
  by_cases h : j = i
  · subst h; simp
  · simp [h, Quad.get_modify_ne]

@[simp] theorem Quad.get_map {α β : Type} (q : Quad α) (f : α → β) (i : Fin 4) : (q.map f).get i = f (q.get i) := by
  rcases q with ⟨a0, a1, a2, a3⟩; fin_cases i <;> rfl

@[simp] theorem Quad.get_all {α : Type} (a : α) (i : Fin 4) : (Quad.all a).get i = a := by fin_cases i <;> rfl

/-- Two quads with the same components are equal. -/
theorem Quad.ext_get {α : Type} {p q : Quad α} (h : ∀ i, p.get i = q.get i) : p = q := by
  rcases p with ⟨p0, p1, p2, p3⟩; rcases q with ⟨q0, q1, q2, q3⟩
  obtain rfl : p0 = q0 := h 0
  obtain rfl : p1 = q1 := h 1
  obtain rfl : p2 = q2 := h 2
  obtain rfl : p3 = q3 := h 3
  rfl

namespace Machine

/-! ### modPort -/

@[simp] theorem modPort_pending (f : HostPort → HostPort) (s : State) : (modPort f s).pending = s.pending := rfl
@[simp] theorem modPort_now (f : HostPort → HostPort) (s : State) : (modPort f s).now = s.now := rfl
@[simp] theorem modPort_choices (f : HostPort → HostPort) (s : State) : (modPort f s).choices = s.choices := rfl
@[simp] theorem modPort_phase (f : HostPort → HostPort) (s : State) : (modPort f s).phase = s.phase := rfl
@[simp] theorem modPort_port (f : HostPort → HostPort) (s : State) : (modPort f s).port = f s.port := rfl
@[simp] theorem modPort_dir (f : HostPort → HostPort) (s : State) : (modPort f s).dir = s.dir := rfl
@[simp] theorem modPort_keys (f : HostPort → HostPort) (s : State) : (modPort f s).keys = s.keys := rfl
@[simp] theorem modPort_store (f : HostPort → HostPort) (s : State) : (modPort f s).store = s.store := rfl
@[simp] theorem modPort_staging (f : HostPort → HostPort) (s : State) : (modPort f s).staging = s.staging := rfl
@[simp] theorem modPort_commit (f : HostPort → HostPort) (s : State) : (modPort f s).commit = s.commit := rfl
@[simp] theorem modPort_boundary (f : HostPort → HostPort) (s : State) : (modPort f s).boundary = s.boundary := rfl
@[simp] theorem modPort_links (f : HostPort → HostPort) (s : State) : (modPort f s).links = s.links := rfl
@[simp] theorem modPort_jobs (f : HostPort → HostPort) (s : State) : (modPort f s).jobs = s.jobs := rfl

/-! ### modDir -/

@[simp] theorem modDir_pending (f : Directory → Directory) (s : State) : (modDir f s).pending = s.pending := rfl
@[simp] theorem modDir_now (f : Directory → Directory) (s : State) : (modDir f s).now = s.now := rfl
@[simp] theorem modDir_choices (f : Directory → Directory) (s : State) : (modDir f s).choices = s.choices := rfl
@[simp] theorem modDir_phase (f : Directory → Directory) (s : State) : (modDir f s).phase = s.phase := rfl
@[simp] theorem modDir_port (f : Directory → Directory) (s : State) : (modDir f s).port = s.port := rfl
@[simp] theorem modDir_dir (f : Directory → Directory) (s : State) : (modDir f s).dir = f s.dir := rfl
@[simp] theorem modDir_keys (f : Directory → Directory) (s : State) : (modDir f s).keys = s.keys := rfl
@[simp] theorem modDir_store (f : Directory → Directory) (s : State) : (modDir f s).store = s.store := rfl
@[simp] theorem modDir_staging (f : Directory → Directory) (s : State) : (modDir f s).staging = s.staging := rfl
@[simp] theorem modDir_commit (f : Directory → Directory) (s : State) : (modDir f s).commit = s.commit := rfl
@[simp] theorem modDir_boundary (f : Directory → Directory) (s : State) : (modDir f s).boundary = s.boundary := rfl
@[simp] theorem modDir_links (f : Directory → Directory) (s : State) : (modDir f s).links = s.links := rfl
@[simp] theorem modDir_jobs (f : Directory → Directory) (s : State) : (modDir f s).jobs = s.jobs := rfl

/-! ### modCommit -/

@[simp] theorem modCommit_pending (f : CommitCtl → CommitCtl) (s : State) : (modCommit f s).pending = s.pending := rfl
@[simp] theorem modCommit_now (f : CommitCtl → CommitCtl) (s : State) : (modCommit f s).now = s.now := rfl
@[simp] theorem modCommit_choices (f : CommitCtl → CommitCtl) (s : State) : (modCommit f s).choices = s.choices := rfl
@[simp] theorem modCommit_phase (f : CommitCtl → CommitCtl) (s : State) : (modCommit f s).phase = s.phase := rfl
@[simp] theorem modCommit_port (f : CommitCtl → CommitCtl) (s : State) : (modCommit f s).port = s.port := rfl
@[simp] theorem modCommit_dir (f : CommitCtl → CommitCtl) (s : State) : (modCommit f s).dir = s.dir := rfl
@[simp] theorem modCommit_keys (f : CommitCtl → CommitCtl) (s : State) : (modCommit f s).keys = s.keys := rfl
@[simp] theorem modCommit_store (f : CommitCtl → CommitCtl) (s : State) : (modCommit f s).store = s.store := rfl
@[simp] theorem modCommit_staging (f : CommitCtl → CommitCtl) (s : State) : (modCommit f s).staging = s.staging := rfl
@[simp] theorem modCommit_commit (f : CommitCtl → CommitCtl) (s : State) : (modCommit f s).commit = f s.commit := rfl
@[simp] theorem modCommit_boundary (f : CommitCtl → CommitCtl) (s : State) : (modCommit f s).boundary = s.boundary := rfl
@[simp] theorem modCommit_links (f : CommitCtl → CommitCtl) (s : State) : (modCommit f s).links = s.links := rfl
@[simp] theorem modCommit_jobs (f : CommitCtl → CommitCtl) (s : State) : (modCommit f s).jobs = s.jobs := rfl

/-! ### modBoundary -/

@[simp] theorem modBoundary_pending (f : BoundaryUnit → BoundaryUnit) (s : State) : (modBoundary f s).pending = s.pending := rfl
@[simp] theorem modBoundary_now (f : BoundaryUnit → BoundaryUnit) (s : State) : (modBoundary f s).now = s.now := rfl
@[simp] theorem modBoundary_choices (f : BoundaryUnit → BoundaryUnit) (s : State) : (modBoundary f s).choices = s.choices := rfl
@[simp] theorem modBoundary_phase (f : BoundaryUnit → BoundaryUnit) (s : State) : (modBoundary f s).phase = s.phase := rfl
@[simp] theorem modBoundary_port (f : BoundaryUnit → BoundaryUnit) (s : State) : (modBoundary f s).port = s.port := rfl
@[simp] theorem modBoundary_dir (f : BoundaryUnit → BoundaryUnit) (s : State) : (modBoundary f s).dir = s.dir := rfl
@[simp] theorem modBoundary_keys (f : BoundaryUnit → BoundaryUnit) (s : State) : (modBoundary f s).keys = s.keys := rfl
@[simp] theorem modBoundary_store (f : BoundaryUnit → BoundaryUnit) (s : State) : (modBoundary f s).store = s.store := rfl
@[simp] theorem modBoundary_staging (f : BoundaryUnit → BoundaryUnit) (s : State) : (modBoundary f s).staging = s.staging := rfl
@[simp] theorem modBoundary_commit (f : BoundaryUnit → BoundaryUnit) (s : State) : (modBoundary f s).commit = s.commit := rfl
@[simp] theorem modBoundary_boundary (f : BoundaryUnit → BoundaryUnit) (s : State) : (modBoundary f s).boundary = f s.boundary := rfl
@[simp] theorem modBoundary_links (f : BoundaryUnit → BoundaryUnit) (s : State) : (modBoundary f s).links = s.links := rfl
@[simp] theorem modBoundary_jobs (f : BoundaryUnit → BoundaryUnit) (s : State) : (modBoundary f s).jobs = s.jobs := rfl

/-! ### modLink -/

@[simp] theorem modLink_pending (l : LinkId) (f : LinkEngine → LinkEngine) (s : State) : (modLink l f s).pending = s.pending := rfl
@[simp] theorem modLink_now (l : LinkId) (f : LinkEngine → LinkEngine) (s : State) : (modLink l f s).now = s.now := rfl
@[simp] theorem modLink_choices (l : LinkId) (f : LinkEngine → LinkEngine) (s : State) : (modLink l f s).choices = s.choices := rfl
@[simp] theorem modLink_phase (l : LinkId) (f : LinkEngine → LinkEngine) (s : State) : (modLink l f s).phase = s.phase := rfl
@[simp] theorem modLink_port (l : LinkId) (f : LinkEngine → LinkEngine) (s : State) : (modLink l f s).port = s.port := rfl
@[simp] theorem modLink_dir (l : LinkId) (f : LinkEngine → LinkEngine) (s : State) : (modLink l f s).dir = s.dir := rfl
@[simp] theorem modLink_keys (l : LinkId) (f : LinkEngine → LinkEngine) (s : State) : (modLink l f s).keys = s.keys := rfl
@[simp] theorem modLink_store (l : LinkId) (f : LinkEngine → LinkEngine) (s : State) : (modLink l f s).store = s.store := rfl
@[simp] theorem modLink_staging (l : LinkId) (f : LinkEngine → LinkEngine) (s : State) : (modLink l f s).staging = s.staging := rfl
@[simp] theorem modLink_commit (l : LinkId) (f : LinkEngine → LinkEngine) (s : State) : (modLink l f s).commit = s.commit := rfl
@[simp] theorem modLink_boundary (l : LinkId) (f : LinkEngine → LinkEngine) (s : State) : (modLink l f s).boundary = s.boundary := rfl
@[simp] theorem modLink_links (l : LinkId) (f : LinkEngine → LinkEngine) (s : State) : (modLink l f s).links = s.links.modify l f := rfl
@[simp] theorem modLink_jobs (l : LinkId) (f : LinkEngine → LinkEngine) (s : State) : (modLink l f s).jobs = s.jobs := rfl

/-! ### modJobs -/

@[simp] theorem modJobs_pending (l : LinkId) (f : List Job → List Job) (s : State) : (modJobs l f s).pending = s.pending := rfl
@[simp] theorem modJobs_now (l : LinkId) (f : List Job → List Job) (s : State) : (modJobs l f s).now = s.now := rfl
@[simp] theorem modJobs_choices (l : LinkId) (f : List Job → List Job) (s : State) : (modJobs l f s).choices = s.choices := rfl
@[simp] theorem modJobs_phase (l : LinkId) (f : List Job → List Job) (s : State) : (modJobs l f s).phase = s.phase := rfl
@[simp] theorem modJobs_port (l : LinkId) (f : List Job → List Job) (s : State) : (modJobs l f s).port = s.port := rfl
@[simp] theorem modJobs_dir (l : LinkId) (f : List Job → List Job) (s : State) : (modJobs l f s).dir = s.dir := rfl
@[simp] theorem modJobs_keys (l : LinkId) (f : List Job → List Job) (s : State) : (modJobs l f s).keys = s.keys := rfl
@[simp] theorem modJobs_store (l : LinkId) (f : List Job → List Job) (s : State) : (modJobs l f s).store = s.store := rfl
@[simp] theorem modJobs_staging (l : LinkId) (f : List Job → List Job) (s : State) : (modJobs l f s).staging = s.staging := rfl
@[simp] theorem modJobs_commit (l : LinkId) (f : List Job → List Job) (s : State) : (modJobs l f s).commit = s.commit := rfl
@[simp] theorem modJobs_boundary (l : LinkId) (f : List Job → List Job) (s : State) : (modJobs l f s).boundary = s.boundary := rfl
@[simp] theorem modJobs_links (l : LinkId) (f : List Job → List Job) (s : State) : (modJobs l f s).links = s.links := rfl
@[simp] theorem modJobs_jobs (l : LinkId) (f : List Job → List Job) (s : State) : (modJobs l f s).jobs = s.jobs.modify l f := rfl

/-! ### setKeys -/

@[simp] theorem setKeys_pending (ks : List KeyRec) (s : State) : (setKeys ks s).pending = s.pending := rfl
@[simp] theorem setKeys_now (ks : List KeyRec) (s : State) : (setKeys ks s).now = s.now := rfl
@[simp] theorem setKeys_choices (ks : List KeyRec) (s : State) : (setKeys ks s).choices = s.choices := rfl
@[simp] theorem setKeys_phase (ks : List KeyRec) (s : State) : (setKeys ks s).phase = s.phase := rfl
@[simp] theorem setKeys_port (ks : List KeyRec) (s : State) : (setKeys ks s).port = s.port := rfl
@[simp] theorem setKeys_dir (ks : List KeyRec) (s : State) : (setKeys ks s).dir = s.dir := rfl
@[simp] theorem setKeys_keys (ks : List KeyRec) (s : State) : (setKeys ks s).keys = ks := rfl
@[simp] theorem setKeys_store (ks : List KeyRec) (s : State) : (setKeys ks s).store = s.store := rfl
@[simp] theorem setKeys_staging (ks : List KeyRec) (s : State) : (setKeys ks s).staging = s.staging := rfl
@[simp] theorem setKeys_commit (ks : List KeyRec) (s : State) : (setKeys ks s).commit = s.commit := rfl
@[simp] theorem setKeys_boundary (ks : List KeyRec) (s : State) : (setKeys ks s).boundary = s.boundary := rfl
@[simp] theorem setKeys_links (ks : List KeyRec) (s : State) : (setKeys ks s).links = s.links := rfl
@[simp] theorem setKeys_jobs (ks : List KeyRec) (s : State) : (setKeys ks s).jobs = s.jobs := rfl

/-! ### setStore -/

@[simp] theorem setStore_pending (es : List Entry) (s : State) : (setStore es s).pending = s.pending := rfl
@[simp] theorem setStore_now (es : List Entry) (s : State) : (setStore es s).now = s.now := rfl
@[simp] theorem setStore_choices (es : List Entry) (s : State) : (setStore es s).choices = s.choices := rfl
@[simp] theorem setStore_phase (es : List Entry) (s : State) : (setStore es s).phase = s.phase := rfl
@[simp] theorem setStore_port (es : List Entry) (s : State) : (setStore es s).port = s.port := rfl
@[simp] theorem setStore_dir (es : List Entry) (s : State) : (setStore es s).dir = s.dir := rfl
@[simp] theorem setStore_keys (es : List Entry) (s : State) : (setStore es s).keys = s.keys := rfl
@[simp] theorem setStore_store (es : List Entry) (s : State) : (setStore es s).store = es := rfl
@[simp] theorem setStore_staging (es : List Entry) (s : State) : (setStore es s).staging = s.staging := rfl
@[simp] theorem setStore_commit (es : List Entry) (s : State) : (setStore es s).commit = s.commit := rfl
@[simp] theorem setStore_boundary (es : List Entry) (s : State) : (setStore es s).boundary = s.boundary := rfl
@[simp] theorem setStore_links (es : List Entry) (s : State) : (setStore es s).links = s.links := rfl
@[simp] theorem setStore_jobs (es : List Entry) (s : State) : (setStore es s).jobs = s.jobs := rfl

/-! ### setStaging -/

@[simp] theorem setStaging_pending (cs : List Change) (s : State) : (setStaging cs s).pending = s.pending := rfl
@[simp] theorem setStaging_now (cs : List Change) (s : State) : (setStaging cs s).now = s.now := rfl
@[simp] theorem setStaging_choices (cs : List Change) (s : State) : (setStaging cs s).choices = s.choices := rfl
@[simp] theorem setStaging_phase (cs : List Change) (s : State) : (setStaging cs s).phase = s.phase := rfl
@[simp] theorem setStaging_port (cs : List Change) (s : State) : (setStaging cs s).port = s.port := rfl
@[simp] theorem setStaging_dir (cs : List Change) (s : State) : (setStaging cs s).dir = s.dir := rfl
@[simp] theorem setStaging_keys (cs : List Change) (s : State) : (setStaging cs s).keys = s.keys := rfl
@[simp] theorem setStaging_store (cs : List Change) (s : State) : (setStaging cs s).store = s.store := rfl
@[simp] theorem setStaging_staging (cs : List Change) (s : State) : (setStaging cs s).staging = cs := rfl
@[simp] theorem setStaging_commit (cs : List Change) (s : State) : (setStaging cs s).commit = s.commit := rfl
@[simp] theorem setStaging_boundary (cs : List Change) (s : State) : (setStaging cs s).boundary = s.boundary := rfl
@[simp] theorem setStaging_links (cs : List Change) (s : State) : (setStaging cs s).links = s.links := rfl
@[simp] theorem setStaging_jobs (cs : List Change) (s : State) : (setStaging cs s).jobs = s.jobs := rfl

/-! ### modLinks -/

@[simp] theorem modLinks_pending (f : LinkEngine → LinkEngine) (s : State) : (modLinks f s).pending = s.pending := rfl
@[simp] theorem modLinks_now (f : LinkEngine → LinkEngine) (s : State) : (modLinks f s).now = s.now := rfl
@[simp] theorem modLinks_choices (f : LinkEngine → LinkEngine) (s : State) : (modLinks f s).choices = s.choices := rfl
@[simp] theorem modLinks_phase (f : LinkEngine → LinkEngine) (s : State) : (modLinks f s).phase = s.phase := rfl
@[simp] theorem modLinks_port (f : LinkEngine → LinkEngine) (s : State) : (modLinks f s).port = s.port := rfl
@[simp] theorem modLinks_dir (f : LinkEngine → LinkEngine) (s : State) : (modLinks f s).dir = s.dir := rfl
@[simp] theorem modLinks_keys (f : LinkEngine → LinkEngine) (s : State) : (modLinks f s).keys = s.keys := rfl
@[simp] theorem modLinks_store (f : LinkEngine → LinkEngine) (s : State) : (modLinks f s).store = s.store := rfl
@[simp] theorem modLinks_staging (f : LinkEngine → LinkEngine) (s : State) : (modLinks f s).staging = s.staging := rfl
@[simp] theorem modLinks_commit (f : LinkEngine → LinkEngine) (s : State) : (modLinks f s).commit = s.commit := rfl
@[simp] theorem modLinks_boundary (f : LinkEngine → LinkEngine) (s : State) : (modLinks f s).boundary = s.boundary := rfl
@[simp] theorem modLinks_links (f : LinkEngine → LinkEngine) (s : State) : (modLinks f s).links = s.links.map f := rfl
@[simp] theorem modLinks_jobs (f : LinkEngine → LinkEngine) (s : State) : (modLinks f s).jobs = s.jobs := rfl

/-! ### advanceTo -/

@[simp] theorem advanceTo_pending (t : Nat) (s : State) : (advanceTo t s).pending = s.pending := rfl
@[simp] theorem advanceTo_now (t : Nat) (s : State) : (advanceTo t s).now = max s.now t := rfl
@[simp] theorem advanceTo_choices (t : Nat) (s : State) : (advanceTo t s).choices = s.choices := rfl
@[simp] theorem advanceTo_phase (t : Nat) (s : State) : (advanceTo t s).phase = s.phase := rfl
@[simp] theorem advanceTo_port (t : Nat) (s : State) : (advanceTo t s).port = s.port := rfl
@[simp] theorem advanceTo_dir (t : Nat) (s : State) : (advanceTo t s).dir = s.dir := rfl
@[simp] theorem advanceTo_keys (t : Nat) (s : State) : (advanceTo t s).keys = s.keys := rfl
@[simp] theorem advanceTo_store (t : Nat) (s : State) : (advanceTo t s).store = s.store := rfl
@[simp] theorem advanceTo_staging (t : Nat) (s : State) : (advanceTo t s).staging = s.staging := rfl
@[simp] theorem advanceTo_commit (t : Nat) (s : State) : (advanceTo t s).commit = s.commit := rfl
@[simp] theorem advanceTo_boundary (t : Nat) (s : State) : (advanceTo t s).boundary = s.boundary := rfl
@[simp] theorem advanceTo_links (t : Nat) (s : State) : (advanceTo t s).links = s.links := rfl
@[simp] theorem advanceTo_jobs (t : Nat) (s : State) : (advanceTo t s).jobs = s.jobs := rfl

end Machine

end Sys2Proof
end

