-- ==== Sys2Proof/Laws/Frames.lean ====
section
/-! SUPPORT. What the events inside the hub leave alone: the settings and the port's own registers (`steady`). One lemma per shared operation. -/

namespace Sys2Proof.Machine

/-- A change of the port that keeps its own registers. -/
@[simp] theorem steady_modPort {f : HostPort → HostPort} {s : State}
    (h : ∀ p, ((f p).state, (f p).lastAccept, (f p).mask, (f p).clear, (f p).sdo)
      = (p.state, p.lastAccept, p.mask, p.clear, p.sdo)) : steady (modPort f s) = steady s := by
  have := h s.port
  simp only [Prod.mk.injEq] at this
  simp [steady, this]

/-- A change of the directory that keeps the grace period. -/
@[simp] theorem steady_modDir {f : Directory → Directory} {s : State} (h : ∀ d, (f d).grace = d.grace) :
    steady (modDir f s) = steady s := by simp [steady, h]

/-- A change of the commit controller that keeps the deadline lengths. -/
@[simp] theorem steady_modCommit {f : CommitCtl → CommitCtl} {s : State} (h : ∀ c, (f c).lengths = c.lengths) :
    steady (modCommit f s) = steady s := by simp [steady, h]

/-- A change of a link engine that keeps its timing settings and the expired attempt. -/
@[simp] theorem steady_modLink {l : LinkId} {f : LinkEngine → LinkEngine} {s : State}
    (h : ∀ e, ((f e).timing, (f e).expired) = (e.timing, e.expired)) : steady (modLink l f s) = steady s := by
  have : (s.links.modify l f).map (fun e => (e.timing, e.expired)) = s.links.map (fun e => (e.timing, e.expired)) := by
    apply Quad.ext_get
    intro i
    by_cases hi : i = l
    · subst hi; simpa using h _
    · simp [Quad.get_modify_ne _ _ hi]
  simp [steady, this]

@[simp] theorem steady_modLinks {f : LinkEngine → LinkEngine} {s : State}
    (h : ∀ e, ((f e).timing, (f e).expired) = (e.timing, e.expired)) : steady (modLinks f s) = steady s := by
  have : (s.links.map f).map (fun e => (e.timing, e.expired)) = s.links.map (fun e => (e.timing, e.expired)) := by
    apply Quad.ext_get; intro i; simpa using h _
  simp [steady, this]

@[simp] theorem steady_modBoundary (f : BoundaryUnit → BoundaryUnit) (s : State) : steady (modBoundary f s) = steady s := rfl
@[simp] theorem steady_modJobs (l : LinkId) (f : List Job → List Job) (s : State) : steady (modJobs l f s) = steady s := rfl
@[simp] theorem steady_setKeys (ks : List KeyRec) (s : State) : steady (setKeys ks s) = steady s := rfl
@[simp] theorem steady_setStore (es : List Entry) (s : State) : steady (setStore es s) = steady s := rfl
@[simp] theorem steady_setStaging (cs : List Change) (s : State) : steady (setStaging cs s) = steady s := rfl

/-- What every step of a sequence keeps, the sequence keeps. -/
theorem forEach_keeps {α β : Type} (g : State → β) {xs : List α} {f : α → State → State} {s : State}
    (h : ∀ x s, g (f x s) = g s) : g (forEach xs f s) = g s := by
  unfold forEach
  induction xs generalizing s with
  | nil => rfl
  | cons x xs ih => rw [List.foldl_cons, ih, h]

theorem foldl_keeps {α β γ : Type} (g : γ → β) {xs : List α} {f : γ → α → γ} {e : γ}
    (h : ∀ x e, g (f e x) = g e) : g (xs.foldl f e) = g e := by
  induction xs generalizing e with
  | nil => rfl
  | cons x xs ih => rw [List.foldl_cons, ih, h]

@[simp] theorem LinkEngine.setEntry_timing (hop : Nat) (x : HopEntry) (e : LinkEngine) : (e.setEntry hop x).timing = e.timing := by
  rfl
@[simp] theorem LinkEngine.cause_timing (hop : Nat) (e : LinkEngine) : (e.cause hop).timing = e.timing := by
  unfold LinkEngine.cause; split <;> rfl
@[simp] theorem LinkEngine.notice_timing (test : HopEntry → Bool) (e : LinkEngine) : (LinkEngine.notice test e).timing = e.timing := by
  unfold LinkEngine.notice
  split
  · exact foldl_keeps LinkEngine.timing (fun h e => LinkEngine.cause_timing h e)
  · rfl
  · rfl
@[simp] theorem LinkEngine.queueCaused_timing (e : LinkEngine) : (LinkEngine.queueCaused e).timing = e.timing := by
  rfl
@[simp] theorem LinkEngine.forceRollCall_timing (e : LinkEngine) : (LinkEngine.forceRollCall e).timing = e.timing := by
  unfold LinkEngine.forceRollCall; split <;> rfl
@[simp] theorem LinkEngine.dropFlight_timing (test : Txn → Bool) (e : LinkEngine) : (LinkEngine.dropFlight test e).timing = e.timing := by
  unfold LinkEngine.dropFlight; (repeat' split) <;> simp
@[simp] theorem LinkEngine.dropJobTxns_timing (ref : Ref) (e : LinkEngine) : (LinkEngine.dropJobTxns ref e).timing = e.timing := by
  simp [LinkEngine.dropJobTxns]
@[simp] theorem LinkEngine.suspendFlight_timing (e : LinkEngine) : (LinkEngine.suspendFlight e).timing = e.timing := by
  unfold LinkEngine.suspendFlight; (repeat' split) <;> simp
@[simp] theorem LinkEngine.dropCommit_timing (test : Txn → Bool) (e : LinkEngine) : (LinkEngine.dropCommit test e).timing = e.timing := by
  rfl
@[simp] theorem LinkEngine.queueCommit_timing (ts : List Txn) (e : LinkEngine) : (LinkEngine.queueCommit ts e).timing = e.timing := by
  rfl
@[simp] theorem LinkEngine.started_timing (now : Nat) (f : Flight) (e : LinkEngine) : (e.started now f).timing = e.timing := by
  rfl
@[simp] theorem LinkEngine.down_timing (target : LinkState) (now : Nat) (e : LinkEngine) : (LinkEngine.down target now e).timing = e.timing := by
  rfl
@[simp] theorem LinkEngine.enterRescan_timing (e : LinkEngine) : (LinkEngine.enterRescan e).timing = e.timing := by
  simp [LinkEngine.enterRescan]
@[simp] theorem LinkEngine.cleared_timing (now : Nat) (e : LinkEngine) : (LinkEngine.cleared now e).timing = e.timing := by
  unfold LinkEngine.cleared; split <;> rfl
@[simp] theorem LinkEngine.setEntry_expired (hop : Nat) (x : HopEntry) (e : LinkEngine) : (e.setEntry hop x).expired = e.expired := by
  rfl
@[simp] theorem LinkEngine.cause_expired (hop : Nat) (e : LinkEngine) : (e.cause hop).expired = e.expired := by
  unfold LinkEngine.cause; split <;> rfl
@[simp] theorem LinkEngine.notice_expired (test : HopEntry → Bool) (e : LinkEngine) : (LinkEngine.notice test e).expired = e.expired := by
  unfold LinkEngine.notice
  split
  · exact foldl_keeps LinkEngine.expired (fun h e => LinkEngine.cause_expired h e)
  · rfl
  · rfl
@[simp] theorem LinkEngine.queueCaused_expired (e : LinkEngine) : (LinkEngine.queueCaused e).expired = e.expired := by
  rfl
@[simp] theorem LinkEngine.forceRollCall_expired (e : LinkEngine) : (LinkEngine.forceRollCall e).expired = e.expired := by
  unfold LinkEngine.forceRollCall; split <;> rfl
@[simp] theorem LinkEngine.dropFlight_expired (test : Txn → Bool) (e : LinkEngine) : (LinkEngine.dropFlight test e).expired = e.expired := by
  unfold LinkEngine.dropFlight; (repeat' split) <;> simp
@[simp] theorem LinkEngine.dropJobTxns_expired (ref : Ref) (e : LinkEngine) : (LinkEngine.dropJobTxns ref e).expired = e.expired := by
  simp [LinkEngine.dropJobTxns]
@[simp] theorem LinkEngine.suspendFlight_expired (e : LinkEngine) : (LinkEngine.suspendFlight e).expired = e.expired := by
  unfold LinkEngine.suspendFlight; (repeat' split) <;> simp
@[simp] theorem LinkEngine.dropCommit_expired (test : Txn → Bool) (e : LinkEngine) : (LinkEngine.dropCommit test e).expired = e.expired := by
  rfl
@[simp] theorem LinkEngine.queueCommit_expired (ts : List Txn) (e : LinkEngine) : (LinkEngine.queueCommit ts e).expired = e.expired := by
  rfl
@[simp] theorem LinkEngine.started_expired (now : Nat) (f : Flight) (e : LinkEngine) : (e.started now f).expired = e.expired := by
  rfl
@[simp] theorem LinkEngine.down_expired (target : LinkState) (now : Nat) (e : LinkEngine) : (LinkEngine.down target now e).expired = e.expired := by
  rfl
@[simp] theorem LinkEngine.enterRescan_expired (e : LinkEngine) : (LinkEngine.enterRescan e).expired = e.expired := by
  simp [LinkEngine.enterRescan]
@[simp] theorem LinkEngine.cleared_expired (now : Nat) (e : LinkEngine) : (LinkEngine.cleared now e).expired = e.expired := by
  unfold LinkEngine.cleared; split <;> rfl

@[simp] theorem complete_steady (tag : Tag) (kind : ReqKind) (st : Status) (qual : Byte) (res : List Byte) (s : State) : steady (complete tag kind st qual res s) = steady s := by
  simp [complete]
@[simp] theorem orderCompletions_steady (n : Nat) (s : State) : steady (orderCompletions n s) = steady s := by
  simp [orderCompletions]
@[simp] theorem holdTag_steady (tag : Tag) (r : Running) (s : State) : steady (holdTag tag r s) = steady s := by
  simp [holdTag]
@[simp] theorem endRunning_steady (st : Status) (tag : Tag) (s : State) : steady (endRunning st tag s) = steady s := by
  unfold endRunning; (repeat' split) <;> simp
@[simp] theorem raiseDevice_steady (r : Reason) (s : State) : steady (raiseDevice r s) = steady s := by
  simp [raiseDevice]
@[simp] theorem raiseLink_steady (l : LinkId) (r : Reason) (s : State) : steady (raiseLink l r s) = steady s := by
  simp [raiseLink]
@[simp] theorem raiseHandle_steady (h : Nat) (r : Reason) (s : State) : steady (raiseHandle h r s) = steady s := by
  simp [raiseHandle]
@[simp] theorem updRec_steady (h : Nat) (f : Record → Record) (s : State) : steady (updRec h f s) = steady s := by
  simp [updRec]
@[simp] theorem removeMark_steady (loc : Loc) (s : State) : steady (removeMark loc s) = steady s := by
  simp [removeMark]
@[simp] theorem setHop_steady (l : LinkId) (hop : Nat) (x : HopEntry) (s : State) : steady (setHop l hop x s) = steady s := by
  simp [setHop]
@[simp] theorem setUnlisted_steady (l : LinkId) (hop : Nat) (why : Unlisted) (s : State) : steady (setUnlisted l hop why s) = steady s := by
  unfold setUnlisted; dsimp only; (repeat' split) <;> simp
@[simp] theorem noticeHandle_steady (s : State) : steady (noticeHandle s) = steady s := by
  simp [noticeHandle]
@[simp] theorem noticeId_steady (u : Uid) (s : State) : steady (noticeId u s) = steady s := by
  simp [noticeId]
@[simp] theorem queueHopScans_steady (s : State) : steady (queueHopScans s) = steady s := by
  simp [queueHopScans]
@[simp] theorem returnHandle_steady (h : Nat) (s : State) : steady (returnHandle h s) = steady s := by
  simp [returnHandle]
@[simp] theorem dropAssignment_steady (l : LinkId) (a : Assignment) (s : State) : steady (dropAssignment l a s) = steady s := by
  unfold dropAssignment; (repeat' split) <;> simp
@[simp] theorem makeJob_steady (h : Nat) (s : State) : steady (makeJob h s) = steady s := by
  unfold makeJob; (repeat' split) <;> simp
@[simp] theorem removeJob_steady (ref : Ref) (s : State) : steady (removeJob ref s) = steady s := by
  unfold removeJob
  simp
  exact forEach_keeps steady fun l s => by simp
@[simp] theorem updJob_steady (l : LinkId) (ref : Ref) (f : Job → Job) (s : State) : steady (updJob l ref f s) = steady s := by
  simp [updJob]
@[simp] theorem jobToTail_steady (l : LinkId) (ref : Ref) (f : Job → Job) (s : State) : steady (jobToTail l ref f s) = steady s := by
  simp [jobToTail]
@[simp] theorem restartAllJobs_steady (s : State) : steady (restartAllJobs s) = steady s := by
  unfold restartAllJobs
  exact (forEach_keeps steady (fun j s => by simp)).trans rfl
@[simp] theorem queueCatchUp_steady (l : LinkId) (t : Txn) (s : State) : steady (queueCatchUp l t s) = steady s := by
  simp [queueCatchUp]
@[simp] theorem queueNextPacket_steady (l : LinkId) (j : Job) (s : State) : steady (queueNextPacket l j s) = steady s := by
  simp [queueNextPacket]
@[simp] theorem settleTurn_steady (l : LinkId) (s : State) : steady (settleTurn l s) = steady s := by
  unfold settleTurn; dsimp only; (repeat' split) <;> simp
@[simp] theorem settleTurns_steady (s : State) : steady (settleTurns s) = steady s := by
  unfold settleTurns; simp [forEach_keeps steady]
@[simp] theorem jobsTakeBoundary_steady (s : State) : steady (jobsTakeBoundary s) = steady s := by
  simp [jobsTakeBoundary, forEach_keeps steady, apply_ite steady]
@[simp] theorem dropHostWaiting_steady (l : LinkId) (ref : Ref) (s : State) : steady (dropHostWaiting l ref s) = steady s := by
  unfold dropHostWaiting; simp [forEach_keeps steady]
@[simp] theorem unlistHop_steady (loc : Loc) (ref : Ref) (s : State) : steady (unlistHop loc ref s) = steady s := by
  unfold unlistHop
  apply steady_modLink
  intro e
  split <;> simp
@[simp] theorem claimStaleDir_steady (h : Nat) (reason : StaleReason) (s : State) : steady (claimStaleDir h reason s) = steady s := by
  unfold claimStaleDir; (repeat' split) <;> simp
@[simp] theorem claimActive_steady (h : Nat) (s : State) : steady (claimActive h s) = steady s := by
  unfold claimActive; (repeat' split) <;> simp
@[simp] theorem claimLagging_steady (h : Nat) (s : State) : steady (claimLagging h s) = steady s := by
  unfold claimLagging; (repeat' split) <;> simp
@[simp] theorem retire_steady (h : Nat) (s : State) : steady (retire h s) = steady s := by
  unfold retire; dsimp only; (repeat' split) <;> simp
theorem takeHandle_steady {s s' : State} {h : Nat} (hs : takeHandle s = some (h, s')) : steady s' = steady s := by
  unfold takeHandle at hs
  split at hs
  · simp only [Option.some.injEq, Prod.mk.injEq] at hs
    obtain ⟨-, rfl⟩ := hs
    exact steady_modDir fun _ => rfl
  · split at hs
    · dsimp only at hs
      split at hs
      · simp only [Option.some.injEq, Prod.mk.injEq] at hs
        obtain ⟨-, rfl⟩ := hs
        exact (steady_modDir fun _ => rfl).trans (retire_steady _ _)
      · cases hs
    · cases hs
@[simp] theorem expireAll_steady (s : State) : steady (expireAll s) = steady s := by
  unfold expireAll; simp [forEach_keeps steady]
@[simp] theorem createRecord_steady (ref : Ref) (info : EnumInfo) (loc : Loc) (s : State) : steady (createRecord ref info loc s) = steady s := by
  simp [createRecord]
@[simp] theorem rebind_steady (r : Record) (info : EnumInfo) (loc : Loc) (s : State) : steady (rebind r info loc s) = steady s := by
  unfold rebind; (repeat' split) <;> simp
@[simp] theorem updPart_steady (ref : Ref) (f : Participant → Participant) (s : State) : steady (updPart ref f s) = steady s := by
  simp [updPart]
@[simp] theorem setStatus_steady (ref : Ref) (st : PartStatus) (s : State) : steady (setStatus ref st s) = steady s := by
  simp [setStatus]
@[simp] theorem queueCancel_steady (p : Participant) (s : State) : steady (queueCancel p s) = steady s := by
  simp [queueCancel]
@[simp] theorem dropPrepares_steady (p : Participant) (s : State) : steady (dropPrepares p s) = steady s := by
  simp [dropPrepares]
@[simp] theorem exclude_steady (p : Participant) (s : State) : steady (exclude p s) = steady s := by
  unfold exclude; dsimp only; (repeat' split) <;> simp
@[simp] theorem enterCancelling_steady (reason : CancelReason) (s : State) : steady (enterCancelling reason s) = steady s := by
  unfold enterCancelling; simp [forEach_keeps steady]
@[simp] theorem failParticipant_steady (p : Participant) (s : State) : steady (failParticipant p s) = steady s := by
  unfold failParticipant; (repeat' split) <;> simp
@[simp] theorem participantLost_steady (ref : Ref) (s : State) : steady (participantLost ref s) = steady s := by
  unfold participantLost; dsimp only; (repeat' split) <;> simp
@[simp] theorem claimStaleAll_steady (claims : List (Nat × StaleReason)) (s : State) : steady (claimStaleAll claims s) = steady s := by
  unfold claimStaleAll; simp [forEach_keeps steady]
@[simp] theorem claimStale_steady (h : Nat) (reason : StaleReason) (s : State) : steady (claimStale h reason s) = steady s := by
  simp [claimStale]
@[simp] theorem applyCommit_steady (s : State) : steady (applyCommit s) = steady s := by
  unfold applyCommit
  refine (forEach_keeps steady fun l s => ?_).trans rfl
  dsimp only
  split
  · exact steady_modLink fun _ => rfl
  · rfl
@[simp] theorem confirm_steady (ref : Ref) (s : State) : steady (confirm ref s) = steady s := by
  simp [confirm]
@[simp] theorem examineOne_steady (entries : List RollEntry) (p : Participant) (s : State) : steady (examineOne entries p s) = steady s := by
  unfold examineOne; (repeat' split) <;> simp
@[simp] theorem examine_steady (l : LinkId) (entries : List RollEntry) (s : State) : steady (examine l entries s) = steady s := by
  unfold examine; simp [forEach_keeps steady]
@[simp] theorem makeLagging_steady (ref : Ref) (s : State) : steady (makeLagging ref s) = steady s := by
  simp [makeLagging]
@[simp] theorem participantReplied_steady (ref : Ref) (b : Body) (st : TileStatus) (reply : ReplyBody) (s : State) : steady (participantReplied ref b st reply s) = steady s := by
  unfold participantReplied; (repeat' split) <;> simp
@[simp] theorem participantNoReply_steady (ref : Ref) (b : Body) (limit : Bool) (s : State) : steady (participantNoReply ref b limit s) = steady s := by
  unfold participantNoReply; (repeat' split) <;> simp
@[simp] theorem completeCommit_steady (st : Status) (qual : Byte) (res : List Byte) (s : State) : steady (completeCommit st qual res s) = steady s := by
  unfold completeCommit; (repeat' split) <;> simp
@[simp] theorem returnToIdle_steady (applied : Bool) (s : State) : steady (returnToIdle applied s) = steady s := by
  have h0 : steady (modCommit (fun c => CommitCtl.idle c.epoch c.lengths) s) = steady s := steady_modCommit fun _ => rfl
  have h1 : ∀ s, steady (modLinks (fun e => LinkEngine.dropFlight Txn.isCommit { e with commitQ := [] }) s) = steady s :=
    fun s => steady_modLinks fun e => by simp
  have h2 : ∀ s, steady (if applied then restartAllJobs s else s) = steady s := fun s => by split <;> simp
  unfold returnToIdle
  simp only [noticeHandle_steady, expireAll_steady, forEach_keeps steady (fun x s => makeJob_steady x s), h2, h1, h0]
@[simp] theorem settleCommit_steady (s : State) : steady (settleCommit s) = steady s := by
  unfold settleCommit; (repeat' split) <;> simp
@[simp] theorem startAssign_steady (l : LinkId) (a : Assignment) (s : State) : steady (startAssign l a s) = steady s := by
  simp [startAssign]
@[simp] theorem matchReply_steady (l : LinkId) (hop : Nat) (full : Bool) (reply : Option EnumInfo) (s : State) : steady (matchReply l hop full reply s) = steady s := by
  unfold matchReply
  split
  · simp
  · split
    · simp
    · split
      · simp
      · (repeat' split) <;> simp
      · split
        · rename_i hs
          rw [startAssign_steady, takeHandle_steady hs]
        · simp
@[simp] theorem countScan_steady (l : LinkId) (f : FullScan → FullScan) (s : State) : steady (countScan l f s) = steady s := by
  simp [countScan]
@[simp] theorem beginScan_steady (l : LinkId) (tag : Option Tag) (s : State) : steady (beginScan l tag s) = steady s := by
  simp [beginScan]
@[simp] theorem completeRescan_steady (l : LinkId) (sc : FullScan) (claimed : Nat) (s : State) : steady (completeRescan l sc claimed s) = steady s := by
  unfold completeRescan; (repeat' split) <;> simp
@[simp] theorem endScan_steady (l : LinkId) (r : Nat) (s : State) : steady (endScan l r s) = steady s := by
  unfold endScan; dsimp only; (repeat' split) <;> simp
@[simp] theorem nextStep_steady (l : LinkId) (s : State) : steady (nextStep l s) = steady s := by
  unfold nextStep; (repeat' split) <;> simp
@[simp] theorem stepMatched_steady (l : LinkId) (full : Bool) (s : State) : steady (stepMatched l full s) = steady s := by
  unfold stepMatched; (repeat' split) <;> simp
@[simp] theorem enumReplied_steady (l : LinkId) (hop : Nat) (full : Bool) (st : TileStatus) (reply : ReplyBody) (s : State) : steady (enumReplied l hop full st reply s) = steady s := by
  unfold enumReplied; dsimp only; (repeat' split) <;> simp
@[simp] theorem enumNoReply_steady (l : LinkId) (hop : Nat) (full : Bool) (s : State) : steady (enumNoReply l hop full s) = steady s := by
  unfold enumNoReply
  split
  · simp
  · apply steady_modLink
    intro e
    rw [LinkEngine.forceRollCall_timing]
    split <;> simp
@[simp] theorem assignOk_steady (l : LinkId) (a : Assignment) (s : State) : steady (assignOk l a s) = steady s := by
  unfold assignOk; dsimp only; (repeat' split) <;> simp
@[simp] theorem assignFailed_steady (l : LinkId) (a : Assignment) (s : State) : steady (assignFailed l a s) = steady s := by
  simp [assignFailed]
@[simp] theorem assignEnded_steady (l : LinkId) (ok : Bool) (s : State) : steady (assignEnded l ok s) = steady s := by
  unfold assignEnded; (repeat' split) <;> simp
@[simp] theorem loseHop_steady (l : LinkId) (hop : Nat) (ref : Ref) (reason : StaleReason) (s : State) :
    steady (loseHop l hop ref reason s) = steady s := by
  simp [loseHop]
@[simp] theorem rollScan_steady (l : LinkId) (hop : Nat) (s : State) : steady (rollScan l hop s) = steady s := by
  unfold rollScan
  apply steady_modLink
  intro e
  split <;> simp
@[simp] theorem rollHop_steady (l : LinkId) (entries : List RollEntry) (hop : Nat) (s : State) :
    steady (rollHop l entries hop s) = steady s := by
  unfold rollHop; (repeat' split) <;> simp
@[simp] theorem processRollCall_steady (l : LinkId) (entries : List RollEntry) (s : State) : steady (processRollCall l entries s) = steady s := by
  unfold processRollCall
  exact (forEach_keeps steady fun hop s => rollHop_steady l entries hop s).trans (steady_modLink fun _ => rfl)
@[simp] theorem markReached_steady (t : Txn) (s : State) : steady (markReached t s) = steady s := by
  unfold markReached; (repeat' split) <;> simp
@[simp] theorem startTxn_steady (l : LinkId) (t : Txn) (s : State) : steady (startTxn l t s) = steady s := by
  simp [startTxn]
theorem chooseLow_keeps {idle : Bool} {e e' : LinkEngine} {t : Txn} (h : chooseLow idle e = some (t, e')) :
    (e'.timing, e'.expired) = (e.timing, e.expired) := by
  unfold chooseLow at h
  (repeat' split at h) <;> cases h <;> rfl

/-- The arbiter's choice changes no timing setting and no expired attempt. -/
theorem choose_keeps {idle : Bool} {e e' : LinkEngine} {t : Txn} (h : choose idle e = some (t, e')) :
    (e'.timing, e'.expired) = (e.timing, e.expired) := by
  unfold choose at h
  split at h
  · split at h
    · cases h; rfl
    · split at h
      · cases h; rfl
      · exact chooseLow_keeps h
  · split at h <;> cases h; rfl
  · cases h

@[simp] theorem arbitrate_steady (l : LinkId) (s : State) : steady (arbitrate l s) = steady s := by
  unfold arbitrate
  dsimp only
  split
  · rfl
  · split
    · rename_i t e' h
      rw [startTxn_steady]
      have ht := choose_keeps h
      simp only [Prod.mk.injEq] at ht
      have : s.links.modify l (fun _ => e') = s.links.modify l (fun e => { e' with timing := e.timing, expired := e.expired }) := by
        apply Quad.ext_get
        intro i
        by_cases hi : i = l
        · subst hi; simp [← ht.1, ← ht.2]
        · simp [Quad.get_modify_ne _ _ hi]
      have h2 : modLink l (fun _ => e') s = modLink l (fun e => { e' with timing := e.timing, expired := e.expired }) s := by
        simp [modLink, this]
      rw [h2]
      exact steady_modLink fun _ => rfl
    · rfl
@[simp] theorem arbitrateAll_steady (s : State) : steady (arbitrateAll s) = steady s := by
  unfold arbitrateAll; simp [forEach_keeps steady]
@[simp] theorem finishLinks_steady (n : Nat) (s : State) : steady (finishLinks n s) = steady s := by
  simp [finishLinks]
@[simp] theorem finishEvent_steady (n : Nat) (s : State) : steady (finishEvent n s) = steady s := by
  simp [finishEvent]
@[simp] theorem hostReplied_steady (l : LinkId) (hop : Nat) (tag : Tag) (st : TileStatus) (reply : ReplyBody) (s : State) : steady (hostReplied l hop tag st reply s) = steady s := by
  unfold hostReplied; (repeat' split) <;> simp
@[simp] theorem hostNoReply_steady (l : LinkId) (hop : Nat) (tag : Tag) (s : State) : steady (hostNoReply l hop tag s) = steady s := by
  unfold hostNoReply; (repeat' split) <;> simp
@[simp] theorem discardJobResult_steady (l : LinkId) (ref : Ref) (s : State) : steady (discardJobResult l ref s) = steady s := by
  simp [discardJobResult]
@[simp] theorem jobRefused_steady (l : LinkId) (j : Job) (s : State) : steady (jobRefused l j s) = steady s := by
  unfold jobRefused; (repeat' split) <;> simp
@[simp] theorem jobPrepareOk_steady (l : LinkId) (j : Job) (s : State) : steady (jobPrepareOk l j s) = steady s := by
  unfold jobPrepareOk; (repeat' split) <;> simp
@[simp] theorem jobRoundDone_steady (l : LinkId) (j : Job) (s : State) : steady (jobRoundDone l j s) = steady s := by
  unfold jobRoundDone; (repeat' split) <;> simp
@[simp] theorem jobReplied_steady (l : LinkId) (ref : Ref) (b : Body) (st : TileStatus) (reply : ReplyBody) (s : State) : steady (jobReplied l ref b st reply s) = steady s := by
  unfold jobReplied; (repeat' split) <;> simp
@[simp] theorem jobNoReply_steady (l : LinkId) (ref : Ref) (t : Txn) (s : State) : steady (jobNoReply l ref t s) = steady s := by
  unfold jobNoReply; (repeat' split) <;> simp
@[simp] theorem setMiss_steady (l : LinkId) (hop n : Nat) (s : State) : steady (setMiss l hop n s) = steady s := by
  unfold setMiss; (repeat' split) <;> simp
@[simp] theorem claimAtLimit_steady (l : LinkId) (hop h : Nat) (s : State) : steady (claimAtLimit l hop h s) = steady s := by
  simp [claimAtLimit]
@[simp] theorem rollEnded_steady (l : LinkId) (t : Txn) (entries : List RollEntry) (s : State) : steady (rollEnded l t entries s) = steady s := by
  unfold rollEnded; (repeat' split) <;> simp
@[simp] theorem requesterReplied_steady (l : LinkId) (hop : Nat) (t : Txn) (st : TileStatus) (reply : ReplyBody) (s : State) : steady (requesterReplied l hop t st reply s) = steady s := by
  unfold requesterReplied; (repeat' split) <;> simp
@[simp] theorem requesterNoReply_steady (l : LinkId) (hop : Nat) (t : Txn) (limit : Bool) (s : State) : steady (requesterNoReply l hop t limit s) = steady s := by
  unfold requesterNoReply; (repeat' split) <;> simp
@[simp] theorem freeWire_steady (l : LinkId) (s : State) : steady (freeWire l s) = steady s := by
  simp [freeWire]
@[simp] theorem endReplied_steady (l : LinkId) (t : Txn) (st : TileStatus) (reply : ReplyBody) (s : State) : steady (endReplied l t st reply s) = steady s := by
  unfold endReplied; (repeat' split) <;> simp
@[simp] theorem missNoReply_steady (l : LinkId) (hop : Nat) (t : Txn) (s : State) : steady (missNoReply l hop t s) = steady s := by
  have h : ∀ (b : Bool) (s : State) (n hop h : Nat), steady (if b then requesterNoReply l hop t true (claimAtLimit l hop h { s with choices := n })
      else claimAtLimit l hop h (requesterNoReply l hop t true { s with choices := n })) = steady s := by
    intro b s n hop h
    cases b <;> simp <;> rfl
  unfold missNoReply
  split
  · simp
  · dsimp only
    split
    · simp
    · split
      · rw [h]; simp
      · simp
@[simp] theorem endNoReply_steady (l : LinkId) (t : Txn) (s : State) : steady (endNoReply l t s) = steady s := by
  unfold endNoReply; (repeat' split) <;> simp
@[simp] theorem retryAttempt_steady (l : LinkId) (f : Flight) (s : State) : steady (retryAttempt l f s) = steady s := by
  simp [retryAttempt]
@[simp] theorem overtake_steady (l : LinkId) (f : Flight) (t : Txn) (rest : List Txn) (s : State) : steady (overtake l f t rest s) = steady s := by
  simp [overtake]
@[simp] theorem attemptFailed_steady (l : LinkId) (f : Flight) (s : State) : steady (attemptFailed l f s) = steady s := by
  unfold attemptFailed; (repeat' split) <;> simp
@[simp] theorem broadcastDone_steady (l : LinkId) (s : State) : steady (broadcastDone l s) = steady s := by
  unfold broadcastDone; (repeat' split) <;> simp
@[simp] theorem takeDownEngine_steady (l : LinkId) (target : LinkState) (s : State) : steady (takeDownEngine l target s) = steady s := by
  unfold takeDownEngine; dsimp only; (repeat' split) <;> simp [forEach_keeps steady]
@[simp] theorem takeDown_steady (l : LinkId) (target : LinkState) (s : State) : steady (takeDown l target s) = steady s := by
  simp [takeDown]
@[simp] theorem answer_steady (kind : ReqKind) (st : Status) (tag : Tag) (s : State) : steady (answer kind st tag s) = steady s := by
  simp [answer]
@[simp] theorem answerOk_steady (kind : ReqKind) (res : List Byte) (tag : Tag) (s : State) : steady (answerOk kind res tag s) = steady s := by
  simp [answerOk]

/-- The late replies are the good answers to the attempt that has expired at this moment (R113). -/
theorem lateReply_iff (s : State) (l : LinkId) (bytes : List Byte) : lateReply s l bytes = true ↔ Late s l bytes := by
  unfold lateReply Late
  cases (s.links.get l).expired with
  | none => simp
  | some x => cases h : judgeReply x.body x.seq bytes <;> simp [h]

/-- What an expiry leaves of the steady part: the clock at the expiry, and the expired attempt kept for its link (R113). -/
theorem replyTimeout_steady {s : State} {l : LinkId} {f : Flight} (h : waitingFlight s l = some f) :
    steady (replyTimeout l s) = steady (timerExpired l f (advanceTo f.expires s)) := by simp [replyTimeout, h]

end Sys2Proof.Machine
end

