-- ==== Sys2Proof/Laws/Port.lean ====
section
/-! SUPPORT. What the port does with a SUBMIT, said once: acceptance, answers and completions. -/

namespace Sys2Proof.Machine

theorem Accepts.tagOf {s : State} {b : Byte} {t : Tag} (h : Accepts s b t) : tagOf b = some t := by
  have hb := h.tagByte
  simp [Machine.tagOf, hb]

/-- An accepted SUBMIT is given to the block that owns the request, in the state that shows its acceptance. -/
theorem submit_accepts {s : State} {b : Byte} {t : Tag} (h : Accepts s b t) (n : Nat) (f : Tag → State → State) :
    submit n b f s = f t (received n s) := by
  have hv : judgeTag s b = (.accepted, some t) := by simp [judgeTag, h.ready, h.tagOf, h.tagFree]
  simp [submit, h.outOfReset, hv, received, setAccept, shiftedOut, modPort, List.replicate_succ]

@[simp] theorem received_pending (n : Nat) (s : State) : (received n s).pending = s.pending := rfl
@[simp] theorem received_now (n : Nat) (s : State) : (received n s).now = s.now := rfl
@[simp] theorem received_choices (n : Nat) (s : State) : (received n s).choices = s.choices := rfl
@[simp] theorem received_phase (n : Nat) (s : State) : (received n s).phase = s.phase := rfl
@[simp] theorem received_dir (n : Nat) (s : State) : (received n s).dir = s.dir := rfl
@[simp] theorem received_keys (n : Nat) (s : State) : (received n s).keys = s.keys := rfl
@[simp] theorem received_store (n : Nat) (s : State) : (received n s).store = s.store := rfl
@[simp] theorem received_staging (n : Nat) (s : State) : (received n s).staging = s.staging := rfl
@[simp] theorem received_commit (n : Nat) (s : State) : (received n s).commit = s.commit := rfl
@[simp] theorem received_boundary (n : Nat) (s : State) : (received n s).boundary = s.boundary := rfl
@[simp] theorem received_links (n : Nat) (s : State) : (received n s).links = s.links := rfl
@[simp] theorem received_jobs (n : Nat) (s : State) : (received n s).jobs = s.jobs := rfl
@[simp] theorem received_attn (n : Nat) (s : State) : (received n s).port.attn = s.port.attn := rfl
@[simp] theorem received_tags (n : Nat) (s : State) : (received n s).port.tags = s.port.tags := rfl
@[simp] theorem received_completions (n : Nat) (s : State) : (received n s).port.completions = s.port.completions := rfl
@[simp] theorem received_mask (n : Nat) (s : State) : (received n s).port.mask = s.port.mask := rfl
@[simp] theorem received_clear (n : Nat) (s : State) : (received n s).port.clear = s.port.clear := rfl
@[simp] theorem received_state (n : Nat) (s : State) : (received n s).port.state = s.port.state := rfl

/-- A completion made at once, without a qualifier, leaves the answered state. -/
theorem complete_received (n : Nat) (t : Tag) (kind : ReqKind) (st : Status) (res : List Byte) (s : State) :
    complete t kind st 0 res (received n s) = answered s n t kind st res := rfl

@[simp] theorem answer_received (n : Nat) (t : Tag) (kind : ReqKind) (st : Status) (s : State) :
    answer kind st t (received n s) = answered s n t kind st [] := rfl

@[simp] theorem answerOk_received (n : Nat) (t : Tag) (kind : ReqKind) (res : List Byte) (s : State) :
    answerOk kind res t (received n s) = answered s n t kind .ok res := rfl

/-- The state after acceptance depends on the directory, the settings and the rest as the state before it does. -/
@[simp] theorem findRec_received (n h : Nat) (s : State) : findRec (received n s) h = findRec s h := rfl
@[simp] theorem findRef_received (n : Nat) (r : Ref) (s : State) : findRef (received n s) r = findRef s r := rfl
@[simp] theorem findUid_received (n : Nat) (u : Uid) (s : State) : findUid (received n s) u = findUid s u := rfl
@[simp] theorem checkRef_received (n : Nat) (r : Ref) (s : State) : checkRef (received n s) r = checkRef s r := rfl
@[simp] theorem findKey_received (n k : Nat) (s : State) : findKey (received n s) k = findKey s k := rfl

/-! ### Finding the sole member -/

/-- A search for the sole member with a property finds it. -/
theorem Sole.find {α : Type} {p : α → Bool} {xs : List α} {x : α} (h : Sole (fun y => p y = true) xs x) :
    xs.find? p = some x := by
  have hx : (xs.find? p).isSome := List.find?_isSome.mpr ⟨x, h.mem, h.holds⟩
  obtain ⟨y, hy⟩ := Option.isSome_iff_exists.mp hx
  rw [hy, h.only y (List.mem_of_find?_eq_some hy) (List.find?_some hy)]

/-- A search finds nothing when no member has the property. -/
theorem find_none {α : Type} {p : α → Bool} {xs : List α} (h : ∀ x ∈ xs, p x = false) : xs.find? p = none := by
  simpa [List.find?_eq_none] using h

/-- A search for the sole member, whose property the test decides. -/
theorem Sole.find_of {α : Type} {q : α → Prop} {p : α → Bool} {xs : List α} {x : α} (h : Sole q xs x)
    (hp : ∀ y, p y = true ↔ q y) : xs.find? p = some x :=
  Sole.find ⟨h.mem, (hp x).mpr h.holds, fun y hy hq => h.only y hy ((hp y).mp hq)⟩

theorem Names.findRec {s : State} {ref : Ref} {r : Record} (h : Names s ref r) : Machine.findRec s ref.handle = some r :=
  h.1.find_of (by simp)

/-- A reference that names a record passes its check (R2). -/
theorem Names.checkRef {s : State} {ref : Ref} {r : Record} (h : Names s ref r) : Machine.checkRef s ref = .names r := by
  simp [Machine.checkRef, h.findRec, h.2]

/-- A reference that fails its check (R2). -/
theorem FailsWith.failure {s : State} {ref : Ref} {st : Status} (h : FailsWith s ref st) :
    (checkRef s ref = .noSuchHandle ∧ st = .noSuchHandle) ∨ (checkRef s ref = .staleHandle ∧ st = .staleHandle) := by
  rcases h with ⟨rfl, h⟩ | ⟨rfl, r, hr, hg⟩
  · left
    have : Machine.findRec s ref.handle = none := find_none fun x hx => by simpa using h x hx
    simp [checkRef, this]
  · right
    have : Machine.findRec s ref.handle = some r :=
      hr.find_of (by simp)
    simp [checkRef, this, hg]

end Sys2Proof.Machine
end

