-- ==== Sys2Proof/Laws/Finish.lean ====
section
/-! SUPPORT. What the end of an event (`finishLinks`) can do, said once: it queues hop scans, settles turns, starts
transactions and orders the completions made; everything named here it leaves alone. -/

namespace Sys2Proof.Machine

theorem map_keeps {β : Type} {g : LinkEngine → β} {f : LinkEngine → LinkEngine} (q : Quad LinkEngine) (h : ∀ e, g (f e) = g e) :
    (q.map f).map g = q.map g := by
  apply Quad.ext_get; intro i; simp [h]

theorem modify_keeps {β : Type} {g : LinkEngine → β} {f : LinkEngine → LinkEngine} (q : Quad LinkEngine) (l : LinkId)
    (h : g (f (q.get l)) = g (q.get l)) : (q.modify l f).map g = q.map g := by
  apply Quad.ext_get; intro i
  by_cases hi : i = l
  · subst hi; simp [h]
  · simp [Quad.get_modify_ne _ _ hi]

theorem modLink_offWire {l : LinkId} {f : LinkEngine → LinkEngine} {s : State}
    (h : ((f (s.links.get l)).state, (f (s.links.get l)).reach, (f (s.links.get l)).hops, (f (s.links.get l)).timing)
      = ((s.links.get l).state, (s.links.get l).reach, (s.links.get l).hops, (s.links.get l).timing)) :
    offWire (modLink l f s) = offWire s := by
  simp only [offWire, modLink_pending, modLink_now, modLink_choices, modLink_phase, modLink_port, modLink_dir, modLink_keys,
    modLink_store, modLink_staging, modLink_commit, modLink_boundary, modLink_links,
    modLink_jobs]
  rw [modify_keeps (g := fun e => (e.state, e.reach, e.hops, e.timing)) s.links l h]

theorem modLinks_offWire {f : LinkEngine → LinkEngine} {s : State}
    (h : ∀ e : LinkEngine, ((f e).state, (f e).reach, (f e).hops, (f e).timing) = (e.state, e.reach, e.hops, e.timing)) :
    offWire (modLinks f s) = offWire s := by
  simp only [offWire, modLinks_pending, modLinks_now, modLinks_choices, modLinks_phase, modLinks_port, modLinks_dir, modLinks_keys,
    modLinks_store, modLinks_staging, modLinks_commit, modLinks_boundary,
    modLinks_links, modLinks_jobs]
  rw [map_keeps (g := fun e => (e.state, e.reach, e.hops, e.timing)) s.links h]

theorem modJobs_offWire {l : LinkId} {f : List Job → List Job} {s : State}
    (h : (f (s.jobs.get l)).map Job.ref = (s.jobs.get l).map Job.ref) : offWire (modJobs l f s) = offWire s := by
  have : (s.jobs.modify l f).map (fun js => js.map Job.ref) = s.jobs.map (fun js => js.map Job.ref) := by
    apply Quad.ext_get; intro i
    by_cases hi : i = l
    · subst hi; simp [h]
    · simp [Quad.get_modify_ne _ _ hi]
  simp [offWire, this]

theorem passTurn_refs (js : List Job) : (passTurn js).map Job.ref = js.map Job.ref := by
  unfold passTurn
  split
  · rfl
  · split
    · rw [List.map_map]
      apply List.map_congr_left
      intro j _
      simp only [Function.comp]
      split <;> rfl
    · rfl

theorem updJob_offWire {l : LinkId} {ref : Ref} {f : Job → Job} {s : State} (h : ∀ j, j.ref = ref → (f j).ref = ref) :
    offWire (updJob l ref f s) = offWire s := by
  refine modJobs_offWire ?_
  rw [List.map_map]
  apply List.map_congr_left
  intro j _
  simp only [Function.comp]
  split
  · rename_i hj; rw [h j hj, hj]
  · rfl

theorem Job.prepared_ref (s : State) (j : Job) : (j.prepared s).ref = j.ref := by
  unfold Job.prepared; (repeat' split) <;> rfl

theorem chooseLow_map {idle : Bool} {e e' : LinkEngine} {t : Txn} (h : chooseLow idle e = some (t, e')) :
    (e'.state, e'.reach, e'.hops, e'.timing) = (e.state, e.reach, e.hops, e.timing) := by
  unfold chooseLow at h
  (repeat' split at h) <;> cases h <;> rfl

theorem choose_map {idle : Bool} {e e' : LinkEngine} {t : Txn} (h : choose idle e = some (t, e')) :
    (e'.state, e'.reach, e'.hops, e'.timing) = (e.state, e.reach, e.hops, e.timing) := by
  unfold choose at h
  split at h
  · split at h
    · cases h; rfl
    · split at h
      · cases h; rfl
      · exact chooseLow_map h
  · split at h <;> cases h
    rfl
  · cases h

theorem settledCtl_reached (c : CommitCtl) (ref : Ref) :
    settledCtl { c with participants := c.participants.map (fun p => if p.ref = ref then { p with reached := true } else p) }
      = settledCtl c := by
  simp only [settledCtl, List.map_map, CommitCtl.mk.injEq, true_and, and_true]
  apply List.map_congr_left
  intro p _
  simp only [Function.comp]
  split <;> rfl

@[simp] theorem markReached_offWire (t : Txn) (s : State) : offWire (markReached t s) = offWire s := by
  unfold markReached
  split
  · split
    · simp only [offWire, updPart, modCommit, settledCtl_reached]
    · rfl
  · rfl

@[simp] theorem startTxn_offWire (l : LinkId) (t : Txn) (s : State) : offWire (startTxn l t s) = offWire s := by
  rw [startTxn, markReached_offWire]
  exact modLink_offWire rfl

@[simp] theorem arbitrate_offWire (l : LinkId) (s : State) : offWire (arbitrate l s) = offWire s := by
  unfold arbitrate
  dsimp only
  split
  · rfl
  · split
    · rename_i t e' h
      rw [startTxn_offWire]
      exact modLink_offWire (choose_map h)
    · rfl

@[simp] theorem arbitrateAll_offWire (s : State) : offWire (arbitrateAll s) = offWire s :=
  forEach_keeps offWire fun l s => arbitrate_offWire l s

@[simp] theorem queueNextPacket_offWire (l : LinkId) (j : Job) (s : State) : offWire (queueNextPacket l j s) = offWire s :=
  modLink_offWire rfl

@[simp] theorem settleTurn_offWire (l : LinkId) (s : State) : offWire (settleTurn l s) = offWire s := by
  unfold settleTurn
  split
  · dsimp only
    split
    · split
      · rw [queueNextPacket_offWire, updJob_offWire (fun _ _ => Job.prepared_ref _ _), modJobs_offWire (passTurn_refs _)]
      · exact modJobs_offWire (passTurn_refs _)
    · exact modJobs_offWire (passTurn_refs _)
  · rfl

@[simp] theorem settleTurns_offWire (s : State) : offWire (settleTurns s) = offWire s :=
  forEach_keeps offWire fun l s => settleTurn_offWire l s

@[simp] theorem queueHopScans_offWire (s : State) : offWire (queueHopScans s) = offWire s := modLinks_offWire fun _ => rfl

/-- The end of an event before its completions are ordered. -/
def settleLinks (s : State) : State := arbitrateAll (settleTurns (queueHopScans s))

theorem finishLinks_eq (n : Nat) (s : State) : finishLinks n s = orderCompletions n (settleLinks s) := rfl

/-- What the end of an event leaves alone. -/
theorem settleLinks_offWire (s : State) : offWire (settleLinks s) = offWire s := by simp [settleLinks]


@[simp] theorem settleLinks_pending (s : State) : (settleLinks s).pending = s.pending := congrArg (fun x => x.1) (settleLinks_offWire s)
@[simp] theorem settleLinks_now (s : State) : (settleLinks s).now = s.now := congrArg (fun x => x.2.1) (settleLinks_offWire s)
@[simp] theorem settleLinks_choices (s : State) : (settleLinks s).choices = s.choices := congrArg (fun x => x.2.2.1) (settleLinks_offWire s)
@[simp] theorem settleLinks_phase (s : State) : (settleLinks s).phase = s.phase := congrArg (fun x => x.2.2.2.1) (settleLinks_offWire s)
@[simp] theorem settleLinks_port (s : State) : (settleLinks s).port = s.port := congrArg (fun x => x.2.2.2.2.1) (settleLinks_offWire s)
@[simp] theorem settleLinks_dir (s : State) : (settleLinks s).dir = s.dir := congrArg (fun x => x.2.2.2.2.2.1) (settleLinks_offWire s)
@[simp] theorem settleLinks_keys (s : State) : (settleLinks s).keys = s.keys := congrArg (fun x => x.2.2.2.2.2.2.1) (settleLinks_offWire s)
@[simp] theorem settleLinks_store (s : State) : (settleLinks s).store = s.store := congrArg (fun x => x.2.2.2.2.2.2.2.1) (settleLinks_offWire s)
@[simp] theorem settleLinks_staging (s : State) : (settleLinks s).staging = s.staging := congrArg (fun x => x.2.2.2.2.2.2.2.2.1) (settleLinks_offWire s)
theorem settleLinks_ctl (s : State) : settledCtl (settleLinks s).commit = settledCtl s.commit :=
  congrArg (fun x => x.2.2.2.2.2.2.2.2.2.1) (settleLinks_offWire s)
@[simp] theorem settleLinks_boundary (s : State) : (settleLinks s).boundary = s.boundary := congrArg (fun x => x.2.2.2.2.2.2.2.2.2.2.1) (settleLinks_offWire s)
theorem settleLinks_map (s : State) (l : LinkId) :
    (fun e : LinkEngine => (e.state, e.reach, e.hops, e.timing)) ((settleLinks s).links.get l)
      = (fun e : LinkEngine => (e.state, e.reach, e.hops, e.timing)) (s.links.get l) := by
  have := congrArg (fun x => Quad.get x.2.2.2.2.2.2.2.2.2.2.2.1 l) (settleLinks_offWire s)
  simpa [offWire] using this

@[simp] theorem finishLinks_pending (n : Nat) (s : State) : (finishLinks n s).pending = s.pending := settleLinks_pending s
@[simp] theorem finishLinks_now (n : Nat) (s : State) : (finishLinks n s).now = s.now := settleLinks_now s
@[simp] theorem finishLinks_choices (n : Nat) (s : State) : (finishLinks n s).choices = s.choices := settleLinks_choices s
@[simp] theorem finishLinks_phase (n : Nat) (s : State) : (finishLinks n s).phase = s.phase := settleLinks_phase s
@[simp] theorem finishLinks_dir (n : Nat) (s : State) : (finishLinks n s).dir = s.dir := settleLinks_dir s
@[simp] theorem finishLinks_keys (n : Nat) (s : State) : (finishLinks n s).keys = s.keys := settleLinks_keys s
@[simp] theorem finishLinks_store (n : Nat) (s : State) : (finishLinks n s).store = s.store := settleLinks_store s
@[simp] theorem finishLinks_staging (n : Nat) (s : State) : (finishLinks n s).staging = s.staging := settleLinks_staging s
@[simp] theorem finishLinks_boundary (n : Nat) (s : State) : (finishLinks n s).boundary = s.boundary := settleLinks_boundary s

/-- At the port the end of an event only orders the completions made. -/
theorem finishLinks_port (n : Nat) (s : State) :
    (finishLinks n s).port = { s.port with completions := s.port.completions.take n ++ sortByTag (s.port.completions.drop n) } := by
  rw [finishLinks_eq, orderCompletions, modPort_port, settleLinks_port]

@[simp] theorem finishLinks_state (n : Nat) (s : State) : (finishLinks n s).port.state = s.port.state := by rw [finishLinks_port]
@[simp] theorem finishLinks_lastAccept (n : Nat) (s : State) : (finishLinks n s).port.lastAccept = s.port.lastAccept := by rw [finishLinks_port]
@[simp] theorem finishLinks_tags (n : Nat) (s : State) : (finishLinks n s).port.tags = s.port.tags := by rw [finishLinks_port]
@[simp] theorem finishLinks_attn (n : Nat) (s : State) : (finishLinks n s).port.attn = s.port.attn := by rw [finishLinks_port]
@[simp] theorem finishLinks_mask (n : Nat) (s : State) : (finishLinks n s).port.mask = s.port.mask := by rw [finishLinks_port]
@[simp] theorem finishLinks_clear (n : Nat) (s : State) : (finishLinks n s).port.clear = s.port.clear := by rw [finishLinks_port]
@[simp] theorem finishLinks_sdo (n : Nat) (s : State) : (finishLinks n s).port.sdo = s.port.sdo := by rw [finishLinks_port]

/-- The commit controller changes only in its participants' reached marks. -/
theorem finishLinks_ctl (n : Nat) (s : State) : settledCtl (finishLinks n s).commit = settledCtl s.commit := settleLinks_ctl s

@[simp] theorem finishLinks_commit_state (n : Nat) (s : State) : (finishLinks n s).commit.state = s.commit.state := by
  have := congrArg CommitCtl.state (finishLinks_ctl n s); exact this
@[simp] theorem finishLinks_commit_epoch (n : Nat) (s : State) : (finishLinks n s).commit.epoch = s.commit.epoch := by
  have := congrArg CommitCtl.epoch (finishLinks_ctl n s); exact this
@[simp] theorem finishLinks_commit_policy (n : Nat) (s : State) : (finishLinks n s).commit.policy = s.commit.policy := by
  have := congrArg CommitCtl.policy (finishLinks_ctl n s); exact this
@[simp] theorem finishLinks_commit_tag (n : Nat) (s : State) : (finishLinks n s).commit.tag = s.commit.tag := by
  have := congrArg CommitCtl.tag (finishLinks_ctl n s); exact this
@[simp] theorem finishLinks_commit_postView (n : Nat) (s : State) : (finishLinks n s).commit.postView = s.commit.postView := by
  have := congrArg CommitCtl.postView (finishLinks_ctl n s); exact this
@[simp] theorem finishLinks_commit_displaced (n : Nat) (s : State) : (finishLinks n s).commit.displaced = s.commit.displaced := by
  have := congrArg CommitCtl.displaced (finishLinks_ctl n s); exact this
@[simp] theorem finishLinks_commit_prepareDl (n : Nat) (s : State) : (finishLinks n s).commit.prepareDl = s.commit.prepareDl := by
  have := congrArg CommitCtl.prepareDl (finishLinks_ctl n s); exact this
@[simp] theorem finishLinks_commit_armDl (n : Nat) (s : State) : (finishLinks n s).commit.armDl = s.commit.armDl := by
  have := congrArg CommitCtl.armDl (finishLinks_ctl n s); exact this
@[simp] theorem finishLinks_commit_applyDl (n : Nat) (s : State) : (finishLinks n s).commit.applyDl = s.commit.applyDl := by
  have := congrArg CommitCtl.applyDl (finishLinks_ctl n s); exact this
@[simp] theorem finishLinks_commit_reason (n : Nat) (s : State) : (finishLinks n s).commit.reason = s.commit.reason := by
  have := congrArg CommitCtl.reason (finishLinks_ctl n s); exact this
@[simp] theorem finishLinks_commit_applyCount (n : Nat) (s : State) : (finishLinks n s).commit.applyCount = s.commit.applyCount := by
  have := congrArg CommitCtl.applyCount (finishLinks_ctl n s); exact this
@[simp] theorem finishLinks_commit_lengths (n : Nat) (s : State) : (finishLinks n s).commit.lengths = s.commit.lengths := by
  have := congrArg CommitCtl.lengths (finishLinks_ctl n s); exact this

@[simp] theorem finishLinks_link_state (n : Nat) (s : State) (l : LinkId) :
    ((finishLinks n s).links.get l).state = (s.links.get l).state := congrArg (fun x => x.1) (settleLinks_map s l)
@[simp] theorem finishLinks_link_reach (n : Nat) (s : State) (l : LinkId) :
    ((finishLinks n s).links.get l).reach = (s.links.get l).reach := congrArg (fun x => x.2.1) (settleLinks_map s l)
@[simp] theorem finishLinks_link_hops (n : Nat) (s : State) (l : LinkId) :
    ((finishLinks n s).links.get l).hops = (s.links.get l).hops := congrArg (fun x => x.2.2.1) (settleLinks_map s l)
@[simp] theorem finishLinks_link_timing (n : Nat) (s : State) (l : LinkId) :
    ((finishLinks n s).links.get l).timing = (s.links.get l).timing := congrArg (fun x => x.2.2.2) (settleLinks_map s l)

/-- The end of an event that has made at most one completion leaves alone all that lies off the wire. -/
theorem finishLinks_offWire {n : Nat} {s : State} (h : s.port.completions.length ≤ n + 1) :
    offWire (finishLinks n s) = offWire s := by
  have hs : s.port.completions.take n ++ sortByTag (s.port.completions.drop n) = s.port.completions := by
    have hd : (s.port.completions.drop n).length ≤ 1 := by simp; omega
    have : sortByTag (s.port.completions.drop n) = s.port.completions.drop n := by
      match hx : s.port.completions.drop n with
      | [] => rfl
      | [c] => rfl
      | a :: b :: l => rw [hx] at hd; simp at hd
    rw [this, List.take_append_drop]
  have he : finishLinks n s = settleLinks s := by
    rw [finishLinks_eq, orderCompletions, modPort]
    have : (settleLinks s).port = { (settleLinks s).port with
        completions := (settleLinks s).port.completions.take n ++ sortByTag ((settleLinks s).port.completions.drop n) } := by
      rw [settleLinks_port, hs]
    rw [← this]
  rw [he, settleLinks_offWire]

/-- Ordering completions keeps which they are. -/
theorem mem_insertByTag (c d : Completion) (cs : List Completion) : d ∈ insertByTag c cs ↔ d = c ∨ d ∈ cs := by
  induction cs with
  | nil => simp [insertByTag]
  | cons x xs ih =>
    unfold insertByTag
    split
    · simp
    · simp [ih]; tauto

@[simp] theorem mem_sortByTag (d : Completion) (cs : List Completion) : d ∈ sortByTag cs ↔ d ∈ cs := by
  induction cs with
  | nil => simp [sortByTag]
  | cons x xs ih =>
    have : sortByTag (x :: xs) = insertByTag x (sortByTag xs) := rfl
    rw [this, mem_insertByTag, ih]; simp

/-- A completion made in an event waits after the event, whatever order the event's completions take. -/
theorem Completed.finish {s s' : State} {c : Completion} (h : Completed s s' c) :
    Completed s (finishLinks s.port.completions.length s') c := by
  obtain ⟨⟨new, hn, hc⟩, ht⟩ := h
  refine ⟨⟨sortByTag new, ?_, (mem_sortByTag c new).mpr hc⟩, by simpa using ht⟩
  simp [finishLinks_port, hn]

end Sys2Proof.Machine
end

