-- ==== Sys2Proof/Laws/Sound.lean ====
section
/-! SUPPORT. What is decidable of the soundness of a concrete hub, and that it is enough: the checks behind LinkSound,
DirectorySound, TagsSound and CommitSound with every quantifier over a list, and one lemma for each. -/

namespace Sys2Proof.Machine

/-! ### Links -/

/-- The part of LinkSound that ties a link's registers to its state. -/
abbrev LinkStateCheck (e : LinkEngine) : Prop :=
  (e.isUp = false → e.flight = none ∧ e.overtaking = none ∧ e.scanQ = [] ∧ e.hostQ = [] ∧ e.assigning = none
    ∧ e.reach = 0 ∧ e.hops = List.replicate 16 .empty)
  ∧ e.reach ≤ 16 ∧ (e.scan.isSome = true ↔ e.state = .scanning) ∧ (e.followUp = true → e.state = .scanning)
  ∧ (e.rollDue = true → e.state = .running)
  ∧ ((e.rollDue = true → e.rollMet = true) ∧ (e.rollMet = true → e.state = .running))
  ∧ (e.noLockTimer ≠ none ∨ e.noLockMark = true → e.state = .training)

/-- The part of LinkSound about the scan steps, which behind the ASSIGN in progress are those given as pairs (full, hop). -/
abbrev LinkStepsCheck (e : LinkEngine) (qs : List (Bool × Nat)) : Prop :=
  e.stepTraffic = e.assigning.toList.map Assignment.txn ++ qs.map (fun q => enumTxn q.1 q.2)
  ∧ (∀ q ∈ qs, q.2 < 16) ∧ (e.assigning.toList.map Assignment.hop ++ (qs.filter (fun q => !q.1)).map Prod.snd).Nodup
  ∧ (e.state ≠ .scanning → ∀ t ∈ e.stepTraffic, t.isFullScan = false)
  ∧ (∀ sc ∈ e.scan.toList, sc.hop < 16 ∧ (e.stepTraffic.filter Txn.isFullScan).map Txn.dest = [.directed sc.hop])
  ∧ (e.state = .scanning → (∀ t ∈ e.scanQ, t.req ≠ .scanStep false)
      ∧ ∀ f ∈ e.flight.toList, f.txn.req = .scanStep false → f.txn.body ≠ .enumQuery)

/-- The part of LinkSound about the other traffic of an engine in whose host class nothing waits. -/
abbrev LinkTrafficCheck (e : LinkEngine) : Prop :=
  (∀ a ∈ e.assigning.toList, a.hop < 16 ∧ (e.entry a.hop).isListed = false)
  ∧ (e.scanQ.filter (fun t => t.body == .rollCall)).length ≤ 1
  ∧ e.hostQ = []
  ∧ (∀ t ∈ e.commitQ ++ e.catchQ ++ e.overtaking.toList.map Flight.txn, t.isStep = false ∧ ∀ n, t.req ≠ .tag n)
  ∧ (∀ t ∈ e.scanQ, t.isStep = true ∨ t = rollTxn .scan .engine)
  ∧ (e.overtaking ≠ none ↔ ∃ f ∈ e.flight.toList, f.phase = .between)

theorem linkSound_of {e : LinkEngine} (qs : List (Bool × Nat)) (a : LinkStateCheck e) (b : LinkStepsCheck e qs)
    (c : LinkTrafficCheck e) : LinkSound e := by
  obtain ⟨h1, h2, h3, h4, h5, h5', h6⟩ := a
  obtain ⟨h7, h8, h9, h10, h11, h12⟩ := b
  obtain ⟨h13, h14, h15, h16, h17, h18⟩ := c
  refine ⟨h1, h2, h3, h4, h5, h5', h6, ⟨qs, h7, h8, h9⟩, h10, ?_, ?_, ?_, h14, ?_, h16, ?_, ?_⟩
  · intro sc hs
    obtain ⟨ha, hb⟩ := h11 sc (by simp [hs])
    refine ⟨ha, ?_⟩
    match hf : e.stepTraffic.filter Txn.isFullScan, hb with
    | [t], hb => exact ⟨t, rfl, by simpa using hb⟩
    | [], hb => simp at hb
    | _ :: _ :: _, hb => simp at hb
  · exact fun hs => ⟨(h12 hs).1, fun f hf => (h12 hs).2 f (by simp [hf])⟩
  · intro a ha
    obtain ⟨hb, hc⟩ := h13 a (by simp [ha])
    exact ⟨hb, fun ref hr => by rw [hr] at hc; cases hc⟩
  · intro t ht; rw [h15] at ht; cases ht
  · exact fun t ht => (h17 t ht).elim .inl (fun x => .inr (.inr x))
  · rw [h18]
    constructor
    · rintro ⟨f, hf, hp⟩; exact ⟨f, by simpa using hf, hp⟩
    · rintro ⟨f, hf, hp⟩; exact ⟨f, by simp [hf], hp⟩

/-! ### The directory -/

/-- DirectorySound with its quantifiers over lists, the hop maps having 16 entries. -/
abbrev DirectoryCheck (s : State) : Prop :=
  (s.dir.records.Pairwise (fun a b => a.ref.handle < b.ref.handle) ∧ s.dir.records.Pairwise (fun a b => a.uid ≠ b.uid)
  ∧ (s.dir.freeList ++ heldHandles s ++ s.dir.records.map (fun r => r.ref.handle)).Perm (List.range' 1 80)
  ∧ (∀ r ∈ s.dir.records, r.ref.gen = genOf s r.ref.handle)
  ∧ (∀ m ∈ s.dir.marks, m.kind = .assigningNew → m.ref.gen = genOf s m.ref.handle)
  ∧ s.dir.staleList.Perm ((s.dir.records.filter (fun r => r.state == .stale)).map (fun r => r.ref.handle))
  ∧ (∀ r ∈ s.dir.records, r.stale ≠ none ↔ r.state = .stale))
  ∧ (s.dir.marks.Perm (fours.filterMap (fun l => (s.links.get l).assigning.map (Assignment.mark l)))
  ∧ s.dir.marks.Pairwise (fun a b => a.uid ≠ b.uid)
  ∧ (∀ m ∈ s.dir.marks, m.kind = .assigningNew → ∀ r ∈ s.dir.records, r.uid ≠ m.uid)
  ∧ (∀ m ∈ s.dir.marks, m.kind = .assigningRebind → ∀ r ∈ s.dir.records, r.uid = m.uid → r.ref = m.ref ∧ r.state = .stale)
  ∧ (∀ r ∈ s.dir.records, r.loc.hop < 16 ∧ (r.state ≠ .stale → (s.links.get r.loc.link).entry r.loc.hop = .listed r.ref))
  ∧ ∀ l, (s.links.get l).hops.length = 16
    ∧ ∀ hop < 16, (s.links.get l).entry hop ∈ (s.dir.records.filter (fun r => decide (r.state ≠ .stale ∧ r.loc = ⟨l, hop⟩))).map
        (fun r => HopEntry.listed r.ref) ∨ ((s.links.get l).entry hop).isListed = false)

theorem directorySound_of {s : State} (h : DirectoryCheck s) : DirectorySound s := by
  obtain ⟨⟨h1, h2, h3, h4, h5, h6, h7⟩, h8, h9, h10, h11, h12, h13⟩ := h
  refine ⟨h1, h2, h3, ⟨h4, h5⟩, h6, h7, h8, h9, h10, h11, ?_, fun r hr => (h12 r hr).1⟩
  intro l hop ref
  constructor
  · intro he
    by_cases hh : hop < 16
    · rcases (h13 l).2 hop hh with hm | hn
      · rw [he] at hm
        obtain ⟨r, hr, hx⟩ := List.mem_map.mp hm
        obtain ⟨hr, hd⟩ := List.mem_filter.mp hr
        injection hx with hx
        exact ⟨r, hr, hx, (of_decide_eq_true hd).1, (of_decide_eq_true hd).2⟩
      · rw [he] at hn; cases hn
    · have hl := (h13 l).1
      rw [LinkEngine.entry, List.getD_eq_default _ _ (by omega)] at he
      cases he
  · rintro ⟨r, hr, rfl, hs, hl⟩
    have := (h12 r hr).2 hs
    rw [hl] at this
    exact this

/-- A sound hub, from the checks of its links and its directory. -/
theorem hubSound_of {s : State} (qs : LinkId → List (Bool × Nat)) (a : ∀ l, LinkStateCheck (s.links.get l))
    (b : ∀ l, LinkStepsCheck (s.links.get l) (qs l)) (c : ∀ l, LinkTrafficCheck (s.links.get l)) (d : DirectoryCheck s) :
    HubSound s := ⟨fun l => linkSound_of (qs l) (a l) (b l) (c l), directorySound_of d⟩

/-! ### The tags -/

/-- HeldBy with its quantifiers over lists. -/
def heldCheck (s : State) (t : Tag) : TagState → Bool
  | .running .commit => s.commit.tag == some t
  | .running .boundaryNow => s.boundary.pendingNow.any (fun p => p.tag == t)
  | .running (.rescan l) => (s.links.get l).scan.any (fun sc => sc.rescan == some t)
  | .running (.tileRead _ _) => fours.any (fun l => (hostTags (s.links.get l)).contains t)
  | .running (.tileWrite _ _ _) => fours.any (fun l => (hostTags (s.links.get l)).contains t)
  | .running .clear => s.port.clear.any (fun c => c.tag == t)
  | _ => true

/-- The tag holds a direct access. -/
def accessCheck : TagState → Bool
  | .running x => x.ref?.isSome
  | _ => false

/-- TagsSound with its quantifiers over lists. -/
abbrev TagsCheck (s : State) : Prop :=
  (s.port.completions.length ≤ 4 ∧ (s.port.completions.map Completion.tag).Nodup
  ∧ (∀ t, s.port.tags.get t = .done ↔ ∃ c ∈ s.port.completions, c.tag = t)
  ∧ (∀ t, heldCheck s t (s.port.tags.get t) = true)
  ∧ (∀ t ∈ s.commit.tag.toList, s.port.tags.get t = .running .commit)
  ∧ (s.commit.tag = none ↔ s.commit.state = .idle))
  ∧ ((∀ p ∈ s.boundary.pendingNow.toList, s.port.tags.get p.tag = .running .boundaryNow)
  ∧ (∀ l, ∀ sc ∈ (s.links.get l).scan.toList, ∀ t ∈ sc.rescan.toList, s.port.tags.get t = .running (.rescan l))
  ∧ (∀ l, ∀ t ∈ hostTags (s.links.get l), accessCheck (s.port.tags.get t) = true)
  ∧ (fours.flatMap (fun l => hostTags (s.links.get l))).Nodup
  ∧ ∀ c ∈ s.port.clear.toList, s.port.tags.get c.tag = .running .clear)

theorem tagsSound_of {s : State} (h : TagsCheck s) : TagsSound s := by
  obtain ⟨⟨h1, h2, h3, h4, h5, h6⟩, h7, h8, h9, h10, h11⟩ := h
  refine ⟨h1, h2, h3, ?_, fun t ht => h5 t (by simp [ht]), h6, fun p hp => h7 p (by simp [hp]),
    fun l sc t hs ht => h8 l sc (by simp [hs]) t (by simp [ht]), ?_, h10, fun c hc => h11 c (by simp [hc])⟩
  · intro t x hx
    have h := h4 t
    rw [hx] at h
    cases x with
    | commit => exact beq_iff_eq.mp h
    | boundaryNow =>
      cases hp : s.boundary.pendingNow with
      | none => simp [heldCheck, hp] at h
      | some p => exact ⟨p, hp, by simpa [heldCheck, hp] using h⟩
    | rescan l =>
      cases hp : (s.links.get l).scan with
      | none => simp [heldCheck, hp] at h
      | some sc => exact ⟨sc, hp, by simpa [heldCheck, hp] using h⟩
    | tileRead r a =>
      obtain ⟨l, -, hl⟩ := List.any_eq_true.mp h
      exact ⟨l, by simpa using hl⟩
    | tileWrite r a v =>
      obtain ⟨l, -, hl⟩ := List.any_eq_true.mp h
      exact ⟨l, by simpa using hl⟩
    | clear =>
      cases hp : s.port.clear with
      | none => simp [heldCheck, hp] at h
      | some c => exact ⟨c, hp, by simpa [heldCheck, hp] using h⟩
  · intro l t ht
    have h := h9 l t ht
    cases hx : s.port.tags.get t with
    | running x =>
      rw [hx] at h
      exact ⟨x, rfl, fun hn => by simp [accessCheck, hn] at h⟩
    | free => rw [hx] at h; cases h
    | done => rw [hx] at h; cases h

/-! ### The settings and the commit -/

/-- ScopeSound, decided. -/
def scopeCheck (s : State) : Scope → Bool
  | .wall => true
  | .group g => decide (g ≤ 15)
  | .tile ref => s.dir.records.any (fun r => r.ref == ref)

/-- ChangeSound, decided. -/
def changeCheck (s : State) : Change → Bool
  | .setVal sc n _ => scopeCheck s sc && decide (n ≤ 63) && s.keys.any (fun k => k.number == n)
  | .clearVal sc n => scopeCheck s sc && decide (n ≤ 63) && s.keys.any (fun k => k.number == n)
  | .place ref c _ => s.dir.records.any (fun r => r.ref == ref) && decide (c.col ≤ 31 ∧ c.row ≤ 31)
  | .unplace ref => s.dir.records.any (fun r => r.ref == ref)
  | .groups ref _ => s.dir.records.any (fun r => r.ref == ref)

theorem scopeSound_of {s : State} {sc : Scope} (h : scopeCheck s sc = true) : ScopeSound s sc := by
  cases sc with
  | wall => trivial
  | group g =>
    have : g ≤ 15 := by simpa [scopeCheck] using h
    exact this
  | tile ref =>
    obtain ⟨r, hr, he⟩ := List.any_eq_true.mp h
    exact ⟨r, hr, beq_iff_eq.mp he⟩

theorem changeSound_of {s : State} {c : Change} (h : changeCheck s c = true) : ChangeSound s c := by
  have named : ∀ {ref : Ref}, s.dir.records.any (fun r => r.ref == ref) = true → ∃ r ∈ s.dir.records, r.ref = ref := by
    intro ref h
    obtain ⟨r, hr, he⟩ := List.any_eq_true.mp h
    exact ⟨r, hr, beq_iff_eq.mp he⟩
  have defined : ∀ {n : Nat}, s.keys.any (fun k => k.number == n) = true → ∃ k ∈ s.keys, k.number = n := by
    intro n h
    obtain ⟨r, hr, he⟩ := List.any_eq_true.mp h
    exact ⟨r, hr, beq_iff_eq.mp he⟩
  cases c <;> simp only [changeCheck, Bool.and_eq_true, decide_eq_true_eq] at h
  · exact ⟨scopeSound_of h.1.1, h.1.2, defined h.2⟩
  · exact ⟨scopeSound_of h.1.1, h.1.2, defined h.2⟩
  · exact ⟨named h.1, h.2.1, h.2.2⟩
  · exact named h
  · exact named h

/-- StatusesFit, its cases side by side. -/
abbrev StatusesCheck (c : CommitCtl) : Prop :=
  (c.state = .preparing → (∀ p ∈ c.participants, p.status = .unprepared ∨ p.status = .prepared ∨ p.status = .excluded)
      ∧ ∃ p ∈ c.participants, p.status = .unprepared)
  ∧ (c.state = .armed → ∀ p ∈ c.participants, p.status = .prepared ∨ p.status = .excluded)
  ∧ (c.state = .applying → (∀ p ∈ c.participants, p.status ≠ .unprepared ∧ p.status ≠ .prepared)
      ∧ ∃ p ∈ c.participants, p.status = .unconfirmed)
  ∧ (c.state = .idle → c = CommitCtl.idle c.epoch c.lengths)

theorem statusesFit_of {c : CommitCtl} (h : StatusesCheck c) : StatusesFit c := by
  obtain ⟨h1, h2, h3, h4⟩ := h
  unfold StatusesFit
  split
  · exact h1 ‹_›
  · exact h2 ‹_›
  · exact h3 ‹_›
  · exact h4 ‹_›
  · trivial

/-- The part of CommitSound about cells, the store and the staged changes. -/
abbrev SettingsCheck (s : State) : Prop :=
  s.dir.records.Pairwise (fun a b => a.pos ≠ none → a.pos ≠ b.pos) ∧ s.store.Pairwise (fun a b => a.rank < b.rank)
  ∧ s.store.length ≤ 512
  ∧ (∀ e ∈ s.store, scopeCheck s e.scope = true ∧ e.key ≤ 63 ∧ ∃ k ∈ s.keys, k.number = e.key)
  ∧ (∀ c ∈ s.staging, changeCheck s c = true)
  ∧ (s.commit.state = .preparing ∨ s.commit.state = .armed → (storeAfter s.store s.staging).length ≤ 512
    ∧ s.dir.records.Pairwise (fun a b => positionAfter s.staging s.commit.displaced a ≠ none →
        positionAfter s.staging s.commit.displaced a ≠ positionAfter s.staging s.commit.displaced b))

/-- The part of CommitSound about the participants and the deadlines. -/
abbrev ParticipantsCheck (s : State) : Prop :=
  (s.commit.participants.map Participant.ref).Nodup
  ∧ (∀ p ∈ s.commit.participants, ∃ r ∈ s.dir.records, r.ref = p.ref)
  ∧ (s.commit.state ≠ .cancelling → ∀ p ∈ s.commit.participants,
    p.status = .unprepared ∨ p.status = .prepared ∨ p.status = .unconfirmed → partReachable s p = true)
  ∧ (s.commit.prepareDl ≠ none ↔ s.commit.state = .preparing) ∧ (s.commit.armDl ≠ none ↔ s.commit.state = .armed)
  ∧ (s.commit.applyDl ≠ none ↔ s.commit.state = .applying)

theorem commitSound_of {s : State} (a : SettingsCheck s) (b : ParticipantsCheck s) (c : StatusesCheck s.commit) : CommitSound s := by
  obtain ⟨h1, h2, h3, h4, h5, h6⟩ := a
  obtain ⟨h7, h8, h9, h10⟩ := b
  exact ⟨h1, h2, h3, fun e he => ⟨scopeSound_of (h4 e he).1, (h4 e he).2⟩, fun c hc => changeSound_of (h5 c hc), h6, h7, h8, h9,
    statusesFit_of c, h10⟩

/-! ### The shape -/

/-- LinkShaped, as a conjunction. -/
abbrev LinkShapeCheck (e : LinkEngine) : Prop :=
  e.hops.length = 16 ∧ e.lastSeq.length = 16 ∧ e.seqCounter < 16 ∧ e.hostRun ≤ 4 ∧ e.caused = []
  ∧ 1 ≤ e.timing.timeout ∧ e.timing.timeout ≤ 255 ∧ e.timing.retries ≤ 7 ∧ 1 ≤ e.timing.missLimit
  ∧ e.timing.missLimit ≤ 15 ∧ 1 ≤ e.timing.interval ∧ e.timing.interval ≤ 255

/-- WellShaped, as a conjunction. -/
abbrev ShapeCheck (s : State) : Prop :=
  (s.dir.gens.length = 80 ∧ (∀ g ∈ s.dir.gens, g < 16) ∧ s.dir.grace ≤ 255 ∧ s.port.attn.handles.length = 80
  ∧ s.dir.records.Pairwise (fun a b => a.ref.handle ≤ b.ref.handle) ∧ s.store.Pairwise (fun a b => a.rank ≤ b.rank)
  ∧ ∀ k ∈ s.keys, k.number ≤ 63 ∧ k.addr.toNat < 240 ∧ k.min.toNat ≤ k.dflt.toNat ∧ k.dflt.toNat ≤ k.max.toNat)
  ∧ (s.keys.Pairwise (fun a b => a.number < b.number ∧ a.addr ≠ b.addr) ∧ s.staging.length ≤ 64
  ∧ s.staging.Pairwise (fun a b => sameTarget a.target b.target = false)
  ∧ (1 ≤ s.commit.lengths.prepare ∧ s.commit.lengths.prepare ≤ 1000)
  ∧ (1 ≤ s.commit.lengths.arm ∧ s.commit.lengths.arm ≤ 1000) ∧ (1 ≤ s.commit.lengths.apply ∧ s.commit.lengths.apply ≤ 1000)
  ∧ ∀ l, LinkShapeCheck (s.links.get l))

theorem wellShaped_of {s : State} (h : ShapeCheck s) : WellShaped s := by
  obtain ⟨⟨h1, h2, h3, h4, h5, h6, h7⟩, h8, h9, h10, h11, h12, h13, h14⟩ := h
  refine ⟨⟨h1, h2⟩, h3, h4, h5, h6, h7, h8, h9, h10, h11, h12, h13, fun l => ?_⟩
  obtain ⟨a1, a2, a3, a4, a5, a6⟩ := h14 l
  exact ⟨a1, a2, a3, a4, a5, a6⟩

end Sys2Proof.Machine
end

