-- ==== Sys2Proof/Laws/Traffic.lean ====
section
/-! SUPPORT. What completions, jobs and the notices to the link engines leave alone (`offTraffic`), and what a completion
does to the port. -/

namespace Sys2Proof.Machine

/-- The parts of the state that completions, catch-up jobs, queued transactions and notices do not touch. -/
def offTraffic (s : State) :=
  (s.pending, s.now, s.choices, s.phase,
    (s.port.state, s.port.lastAccept, s.port.attn, s.port.mask, s.port.clear, s.port.sdo),
    s.dir, s.keys, s.store, s.staging, s.commit, s.boundary, s.links.map (fun e => (e.state, e.reach, e.hops, e.timing, e.scan)))

theorem modPort_offTraffic {f : HostPort → HostPort} {s : State}
    (h : ∀ p, ((f p).state, (f p).lastAccept, (f p).attn, (f p).mask, (f p).clear, (f p).sdo)
      = (p.state, p.lastAccept, p.attn, p.mask, p.clear, p.sdo)) : offTraffic (modPort f s) = offTraffic s := by
  have := h s.port
  simp only [Prod.mk.injEq] at this
  simp [offTraffic, this]

theorem modLink_offTraffic {l : LinkId} {f : LinkEngine → LinkEngine} {s : State}
    (h : ∀ e : LinkEngine, ((f e).state, (f e).reach, (f e).hops, (f e).timing, (f e).scan) = (e.state, e.reach, e.hops, e.timing, e.scan)) :
    offTraffic (modLink l f s) = offTraffic s := by
  simp only [offTraffic, modLink_pending, modLink_now, modLink_choices, modLink_phase, modLink_port, modLink_dir, modLink_keys,
    modLink_store, modLink_staging, modLink_commit, modLink_boundary, modLink_links]
  rw [modify_keeps (g := fun e => (e.state, e.reach, e.hops, e.timing, e.scan)) s.links l (h _)]

theorem modLinks_offTraffic {f : LinkEngine → LinkEngine} {s : State}
    (h : ∀ e : LinkEngine, ((f e).state, (f e).reach, (f e).hops, (f e).timing, (f e).scan) = (e.state, e.reach, e.hops, e.timing, e.scan)) :
    offTraffic (modLinks f s) = offTraffic s := by
  simp only [offTraffic, modLinks_pending, modLinks_now, modLinks_choices, modLinks_phase, modLinks_port, modLinks_dir, modLinks_keys,
    modLinks_store, modLinks_staging, modLinks_commit, modLinks_boundary, modLinks_links]
  rw [map_keeps (g := fun e => (e.state, e.reach, e.hops, e.timing, e.scan)) s.links h]

@[simp] theorem modJobs_offTraffic (l : LinkId) (f : List Job → List Job) (s : State) : offTraffic (modJobs l f s) = offTraffic s := rfl

@[simp] theorem complete_offTraffic (tag : Tag) (kind : ReqKind) (st : Status) (qual : Byte) (res : List Byte) (s : State) :
    offTraffic (complete tag kind st qual res s) = offTraffic s := modPort_offTraffic fun _ => rfl

@[simp] theorem answer_offTraffic (kind : ReqKind) (st : Status) (tag : Tag) (s : State) :
    offTraffic (answer kind st tag s) = offTraffic s := complete_offTraffic ..

@[simp] theorem answerOk_offTraffic (kind : ReqKind) (res : List Byte) (tag : Tag) (s : State) :
    offTraffic (answerOk kind res tag s) = offTraffic s := complete_offTraffic ..

@[simp] theorem holdTag_offTraffic (tag : Tag) (r : Running) (s : State) : offTraffic (holdTag tag r s) = offTraffic s :=
  modPort_offTraffic fun _ => rfl

@[simp] theorem endRunning_offTraffic (st : Status) (tag : Tag) (s : State) : offTraffic (endRunning st tag s) = offTraffic s := by
  unfold endRunning; split
  · exact complete_offTraffic ..
  · rfl

theorem dropFlight_keeps (test : Txn → Bool) (e : LinkEngine) :
    ((LinkEngine.dropFlight test e).state, (LinkEngine.dropFlight test e).reach, (LinkEngine.dropFlight test e).hops,
      (LinkEngine.dropFlight test e).timing, (LinkEngine.dropFlight test e).scan) = (e.state, e.reach, e.hops, e.timing, e.scan) := by
  unfold LinkEngine.dropFlight; (repeat' split) <;> rfl

theorem cause_keeps (hop : Nat) (e : LinkEngine) :
    ((e.cause hop).state, (e.cause hop).reach, (e.cause hop).hops, (e.cause hop).timing, (e.cause hop).scan)
      = (e.state, e.reach, e.hops, e.timing, e.scan) := by
  unfold LinkEngine.cause; split <;> rfl

theorem notice_keeps (test : HopEntry → Bool) (e : LinkEngine) :
    ((e.notice test).state, (e.notice test).reach, (e.notice test).hops, (e.notice test).timing, (e.notice test).scan)
      = (e.state, e.reach, e.hops, e.timing, e.scan) := by
  unfold LinkEngine.notice
  split
  · exact foldl_keeps (fun e : LinkEngine => (e.state, e.reach, e.hops, e.timing, e.scan)) fun h e => cause_keeps h e
  · rfl
  · rfl

@[simp] theorem removeJob_offTraffic (ref : Ref) (s : State) : offTraffic (removeJob ref s) = offTraffic s := by
  unfold removeJob
  refine (modLinks_offTraffic fun e => ?_).trans (forEach_keeps offTraffic fun l s => modJobs_offTraffic ..)
  exact dropFlight_keeps _ _

@[simp] theorem makeJob_offTraffic (h : Nat) (s : State) : offTraffic (makeJob h s) = offTraffic s := by
  unfold makeJob; split
  · split
    · rfl
    · rfl
  · rfl

@[simp] theorem dropHostWaiting_offTraffic (l : LinkId) (ref : Ref) (s : State) : offTraffic (dropHostWaiting l ref s) = offTraffic s := by
  unfold dropHostWaiting
  exact (forEach_keeps offTraffic fun t s => endRunning_offTraffic ..).trans (modLink_offTraffic fun _ => rfl)

@[simp] theorem noticeHandle_offTraffic (s : State) : offTraffic (noticeHandle s) = offTraffic s :=
  modLinks_offTraffic fun e => notice_keeps _ e

@[simp] theorem noticeId_offTraffic (u : Uid) (s : State) : offTraffic (noticeId u s) = offTraffic s :=
  modLinks_offTraffic fun e => notice_keeps _ e

/-! ### Field by field -/

@[simp] theorem removeJob_now (ref : Ref) (s : State) : (removeJob ref s).now = s.now := congrArg (fun x => x.2.1) (removeJob_offTraffic ref s)
@[simp] theorem removeJob_dir (ref : Ref) (s : State) : (removeJob ref s).dir = s.dir := congrArg (fun x => x.2.2.2.2.2.1) (removeJob_offTraffic ref s)
@[simp] theorem removeJob_keys (ref : Ref) (s : State) : (removeJob ref s).keys = s.keys := congrArg (fun x => x.2.2.2.2.2.2.1) (removeJob_offTraffic ref s)
@[simp] theorem removeJob_store (ref : Ref) (s : State) : (removeJob ref s).store = s.store := congrArg (fun x => x.2.2.2.2.2.2.2.1) (removeJob_offTraffic ref s)
@[simp] theorem removeJob_staging (ref : Ref) (s : State) : (removeJob ref s).staging = s.staging := congrArg (fun x => x.2.2.2.2.2.2.2.2.1) (removeJob_offTraffic ref s)
@[simp] theorem removeJob_commit (ref : Ref) (s : State) : (removeJob ref s).commit = s.commit := congrArg (fun x => x.2.2.2.2.2.2.2.2.2.1) (removeJob_offTraffic ref s)
@[simp] theorem removeJob_boundary (ref : Ref) (s : State) : (removeJob ref s).boundary = s.boundary := congrArg (fun x => x.2.2.2.2.2.2.2.2.2.2.1) (removeJob_offTraffic ref s)
@[simp] theorem removeJob_phase (ref : Ref) (s : State) : (removeJob ref s).phase = s.phase := congrArg (fun x => x.2.2.2.1) (removeJob_offTraffic ref s)
@[simp] theorem removeJob_attn (ref : Ref) (s : State) : (removeJob ref s).port.attn = s.port.attn := congrArg (fun x => x.2.2.2.2.1.2.2.1) (removeJob_offTraffic ref s)

@[simp] theorem makeJob_now (h : Nat) (s : State) : (makeJob h s).now = s.now := congrArg (fun x => x.2.1) (makeJob_offTraffic h s)
@[simp] theorem makeJob_dir (h : Nat) (s : State) : (makeJob h s).dir = s.dir := congrArg (fun x => x.2.2.2.2.2.1) (makeJob_offTraffic h s)
@[simp] theorem makeJob_keys (h : Nat) (s : State) : (makeJob h s).keys = s.keys := congrArg (fun x => x.2.2.2.2.2.2.1) (makeJob_offTraffic h s)
@[simp] theorem makeJob_store (h : Nat) (s : State) : (makeJob h s).store = s.store := congrArg (fun x => x.2.2.2.2.2.2.2.1) (makeJob_offTraffic h s)
@[simp] theorem makeJob_staging (h : Nat) (s : State) : (makeJob h s).staging = s.staging := congrArg (fun x => x.2.2.2.2.2.2.2.2.1) (makeJob_offTraffic h s)
@[simp] theorem makeJob_commit (h : Nat) (s : State) : (makeJob h s).commit = s.commit := congrArg (fun x => x.2.2.2.2.2.2.2.2.2.1) (makeJob_offTraffic h s)
@[simp] theorem makeJob_boundary (h : Nat) (s : State) : (makeJob h s).boundary = s.boundary := congrArg (fun x => x.2.2.2.2.2.2.2.2.2.2.1) (makeJob_offTraffic h s)
@[simp] theorem makeJob_phase (h : Nat) (s : State) : (makeJob h s).phase = s.phase := congrArg (fun x => x.2.2.2.1) (makeJob_offTraffic h s)
@[simp] theorem makeJob_attn (h : Nat) (s : State) : (makeJob h s).port.attn = s.port.attn := congrArg (fun x => x.2.2.2.2.1.2.2.1) (makeJob_offTraffic h s)

@[simp] theorem dropHostWaiting_now (l : LinkId) (ref : Ref) (s : State) : (dropHostWaiting l ref s).now = s.now := congrArg (fun x => x.2.1) (dropHostWaiting_offTraffic l ref s)
@[simp] theorem dropHostWaiting_dir (l : LinkId) (ref : Ref) (s : State) : (dropHostWaiting l ref s).dir = s.dir := congrArg (fun x => x.2.2.2.2.2.1) (dropHostWaiting_offTraffic l ref s)
@[simp] theorem dropHostWaiting_keys (l : LinkId) (ref : Ref) (s : State) : (dropHostWaiting l ref s).keys = s.keys := congrArg (fun x => x.2.2.2.2.2.2.1) (dropHostWaiting_offTraffic l ref s)
@[simp] theorem dropHostWaiting_store (l : LinkId) (ref : Ref) (s : State) : (dropHostWaiting l ref s).store = s.store := congrArg (fun x => x.2.2.2.2.2.2.2.1) (dropHostWaiting_offTraffic l ref s)
@[simp] theorem dropHostWaiting_staging (l : LinkId) (ref : Ref) (s : State) : (dropHostWaiting l ref s).staging = s.staging := congrArg (fun x => x.2.2.2.2.2.2.2.2.1) (dropHostWaiting_offTraffic l ref s)
@[simp] theorem dropHostWaiting_commit (l : LinkId) (ref : Ref) (s : State) : (dropHostWaiting l ref s).commit = s.commit := congrArg (fun x => x.2.2.2.2.2.2.2.2.2.1) (dropHostWaiting_offTraffic l ref s)
@[simp] theorem dropHostWaiting_boundary (l : LinkId) (ref : Ref) (s : State) : (dropHostWaiting l ref s).boundary = s.boundary := congrArg (fun x => x.2.2.2.2.2.2.2.2.2.2.1) (dropHostWaiting_offTraffic l ref s)
@[simp] theorem dropHostWaiting_phase (l : LinkId) (ref : Ref) (s : State) : (dropHostWaiting l ref s).phase = s.phase := congrArg (fun x => x.2.2.2.1) (dropHostWaiting_offTraffic l ref s)
@[simp] theorem dropHostWaiting_attn (l : LinkId) (ref : Ref) (s : State) : (dropHostWaiting l ref s).port.attn = s.port.attn := congrArg (fun x => x.2.2.2.2.1.2.2.1) (dropHostWaiting_offTraffic l ref s)

@[simp] theorem noticeHandle_now (s : State) : (noticeHandle s).now = s.now := congrArg (fun x => x.2.1) (noticeHandle_offTraffic s)
@[simp] theorem noticeHandle_dir (s : State) : (noticeHandle s).dir = s.dir := congrArg (fun x => x.2.2.2.2.2.1) (noticeHandle_offTraffic s)
@[simp] theorem noticeHandle_keys (s : State) : (noticeHandle s).keys = s.keys := congrArg (fun x => x.2.2.2.2.2.2.1) (noticeHandle_offTraffic s)
@[simp] theorem noticeHandle_store (s : State) : (noticeHandle s).store = s.store := congrArg (fun x => x.2.2.2.2.2.2.2.1) (noticeHandle_offTraffic s)
@[simp] theorem noticeHandle_staging (s : State) : (noticeHandle s).staging = s.staging := congrArg (fun x => x.2.2.2.2.2.2.2.2.1) (noticeHandle_offTraffic s)
@[simp] theorem noticeHandle_commit (s : State) : (noticeHandle s).commit = s.commit := congrArg (fun x => x.2.2.2.2.2.2.2.2.2.1) (noticeHandle_offTraffic s)
@[simp] theorem noticeHandle_boundary (s : State) : (noticeHandle s).boundary = s.boundary := congrArg (fun x => x.2.2.2.2.2.2.2.2.2.2.1) (noticeHandle_offTraffic s)
@[simp] theorem noticeHandle_phase (s : State) : (noticeHandle s).phase = s.phase := congrArg (fun x => x.2.2.2.1) (noticeHandle_offTraffic s)
@[simp] theorem noticeHandle_attn (s : State) : (noticeHandle s).port.attn = s.port.attn := congrArg (fun x => x.2.2.2.2.1.2.2.1) (noticeHandle_offTraffic s)

@[simp] theorem noticeId_now (u : Uid) (s : State) : (noticeId u s).now = s.now := congrArg (fun x => x.2.1) (noticeId_offTraffic u s)
@[simp] theorem noticeId_dir (u : Uid) (s : State) : (noticeId u s).dir = s.dir := congrArg (fun x => x.2.2.2.2.2.1) (noticeId_offTraffic u s)
@[simp] theorem noticeId_keys (u : Uid) (s : State) : (noticeId u s).keys = s.keys := congrArg (fun x => x.2.2.2.2.2.2.1) (noticeId_offTraffic u s)
@[simp] theorem noticeId_store (u : Uid) (s : State) : (noticeId u s).store = s.store := congrArg (fun x => x.2.2.2.2.2.2.2.1) (noticeId_offTraffic u s)
@[simp] theorem noticeId_staging (u : Uid) (s : State) : (noticeId u s).staging = s.staging := congrArg (fun x => x.2.2.2.2.2.2.2.2.1) (noticeId_offTraffic u s)
@[simp] theorem noticeId_commit (u : Uid) (s : State) : (noticeId u s).commit = s.commit := congrArg (fun x => x.2.2.2.2.2.2.2.2.2.1) (noticeId_offTraffic u s)
@[simp] theorem noticeId_boundary (u : Uid) (s : State) : (noticeId u s).boundary = s.boundary := congrArg (fun x => x.2.2.2.2.2.2.2.2.2.2.1) (noticeId_offTraffic u s)
@[simp] theorem noticeId_phase (u : Uid) (s : State) : (noticeId u s).phase = s.phase := congrArg (fun x => x.2.2.2.1) (noticeId_offTraffic u s)
@[simp] theorem noticeId_attn (u : Uid) (s : State) : (noticeId u s).port.attn = s.port.attn := congrArg (fun x => x.2.2.2.2.1.2.2.1) (noticeId_offTraffic u s)

@[simp] theorem endRunning_now (st : Status) (tag : Tag) (s : State) : (endRunning st tag s).now = s.now := congrArg (fun x => x.2.1) (endRunning_offTraffic st tag s)
@[simp] theorem endRunning_dir (st : Status) (tag : Tag) (s : State) : (endRunning st tag s).dir = s.dir := congrArg (fun x => x.2.2.2.2.2.1) (endRunning_offTraffic st tag s)
@[simp] theorem endRunning_keys (st : Status) (tag : Tag) (s : State) : (endRunning st tag s).keys = s.keys := congrArg (fun x => x.2.2.2.2.2.2.1) (endRunning_offTraffic st tag s)
@[simp] theorem endRunning_store (st : Status) (tag : Tag) (s : State) : (endRunning st tag s).store = s.store := congrArg (fun x => x.2.2.2.2.2.2.2.1) (endRunning_offTraffic st tag s)
@[simp] theorem endRunning_staging (st : Status) (tag : Tag) (s : State) : (endRunning st tag s).staging = s.staging := congrArg (fun x => x.2.2.2.2.2.2.2.2.1) (endRunning_offTraffic st tag s)
@[simp] theorem endRunning_commit (st : Status) (tag : Tag) (s : State) : (endRunning st tag s).commit = s.commit := congrArg (fun x => x.2.2.2.2.2.2.2.2.2.1) (endRunning_offTraffic st tag s)
@[simp] theorem endRunning_boundary (st : Status) (tag : Tag) (s : State) : (endRunning st tag s).boundary = s.boundary := congrArg (fun x => x.2.2.2.2.2.2.2.2.2.2.1) (endRunning_offTraffic st tag s)
@[simp] theorem endRunning_phase (st : Status) (tag : Tag) (s : State) : (endRunning st tag s).phase = s.phase := congrArg (fun x => x.2.2.2.1) (endRunning_offTraffic st tag s)
@[simp] theorem endRunning_attn (st : Status) (tag : Tag) (s : State) : (endRunning st tag s).port.attn = s.port.attn := congrArg (fun x => x.2.2.2.2.1.2.2.1) (endRunning_offTraffic st tag s)

/-! ### Completions join the tail -/

/-- Between two states completions have only joined the tail of the list, and no tag that was DONE has left it. -/
structure Extends (s s' : State) : Prop where
  joined : ∃ new, s'.port.completions = s.port.completions ++ new
  keepsDone : ∀ t, s.port.tags.get t = .done → s'.port.tags.get t = .done

theorem Extends.refl (s : State) : Extends s s := ⟨⟨[], by simp⟩, fun _ h => h⟩

theorem Extends.trans {a b c : State} (h : Extends a b) (k : Extends b c) : Extends a c := by
  obtain ⟨x, hx⟩ := h.joined
  obtain ⟨y, hy⟩ := k.joined
  exact ⟨⟨x ++ y, by rw [hy, hx, List.append_assoc]⟩, fun t ht => k.keepsDone t (h.keepsDone t ht)⟩

/-- A change that leaves the completion list and the tags alone. -/
theorem Extends.of_eq {s s' : State} (hc : s'.port.completions = s.port.completions) (ht : s'.port.tags = s.port.tags) :
    Extends s s' := ⟨⟨[], by simp [hc]⟩, fun t h => by rw [ht]; exact h⟩

theorem Extends.forEach {α : Type} {xs : List α} {f : α → State → State} (h : ∀ x s, Extends s (f x s)) (s : State) :
    Extends s (forEach xs f s) := by
  unfold Machine.forEach
  induction xs generalizing s with
  | nil => exact .refl s
  | cons x xs ih => exact (h x s).trans (ih _)

theorem complete_extends (tag : Tag) (kind : ReqKind) (st : Status) (qual : Byte) (res : List Byte) (s : State) :
    Extends s (complete tag kind st qual res s) := by
  refine ⟨⟨[⟨tag, kind, st, qual, res⟩], rfl⟩, fun t ht => ?_⟩
  show (s.port.tags.put tag .done).get t = .done
  rw [Quad.get_put]
  split
  · rfl
  · exact ht

theorem complete_completed (tag : Tag) (kind : ReqKind) (st : Status) (qual : Byte) (res : List Byte) (s : State) :
    Completed s (complete tag kind st qual res s) ⟨tag, kind, st, qual, res⟩ :=
  ⟨⟨[⟨tag, kind, st, qual, res⟩], rfl, by simp⟩, by simp [complete]⟩

theorem endRunning_extends (st : Status) (tag : Tag) (s : State) : Extends s (endRunning st tag s) := by
  unfold endRunning; split
  · exact complete_extends ..
  · exact .refl s

/-- A completion made stays made while completions only join the tail. -/
theorem Completed.trans {a b c : State} {x : Completion} (h : Completed a b x) (k : Extends b c) : Completed a c x := by
  obtain ⟨⟨n, hn, hx⟩, ht⟩ := h
  obtain ⟨m, hm⟩ := k.joined
  exact ⟨⟨n ++ m, by rw [hm, hn, List.append_assoc], by simp [hx]⟩, k.keepsDone _ ht⟩

/-- A completion made later counts from the earlier state. -/
theorem Extends.completed {a b c : State} {x : Completion} (h : Extends a b) (k : Completed b c x) : Completed a c x := by
  obtain ⟨m, hm⟩ := h.joined
  obtain ⟨⟨n, hn, hx⟩, ht⟩ := k
  exact ⟨⟨m ++ n, by rw [hn, hm, List.append_assoc], by simp [hx]⟩, ht⟩

/-- Ending a tag that runs a request makes its completion. -/
theorem endRunning_completed {st : Status} {tag : Tag} {r : Running} {s : State} (h : s.port.tags.get tag = .running r) :
    Completed s (endRunning st tag s) ⟨tag, r.kind, st, 0, r.fields⟩ := by
  unfold endRunning; rw [h]; exact complete_completed ..

/-- Ending other tags leaves a running request running. -/
theorem endRunning_other {st : Status} {tag t : Tag} (s : State) (h : t ≠ tag) :
    (endRunning st tag s).port.tags.get t = s.port.tags.get t := by
  unfold endRunning; split
  · exact Quad.get_put_ne _ _ h
  · rfl

/-- Ending a list of tags completes each of them that runs a request. -/
theorem forEach_endRunning_completed {st : Status} {tags : List Tag} {t : Tag} {r : Running} {s : State} (hm : t ∈ tags)
    (h : s.port.tags.get t = .running r) : Completed s (forEach tags (endRunning st) s) ⟨t, r.kind, st, 0, r.fields⟩ := by
  unfold forEach
  induction tags generalizing s with
  | nil => cases hm
  | cons x xs ih =>
    by_cases hx : t = x
    · subst hx
      exact (endRunning_completed h).trans (Extends.forEach (fun y s => endRunning_extends st y s) _)
    · refine (endRunning_extends st x s).completed (ih ?_ ?_)
      · simpa [hx] using hm
      · rw [endRunning_other s hx, h]

end Sys2Proof.Machine
end

