-- ==== Sys2Proof/Tests/Slice0.lean ====
section
/-! SUPPORT. Tests: the well-formedness smoke tests, the worked examples of the spec, and for every statement with hypotheses a
concrete state and operands that meet them. -/

namespace Sys2Proof.Tests

open Sys2Proof Sys2Proof.Machine

set_option Elab.async false

/-- The state an outcome gives. -/
def after (o : Host.Outcome State Fault Refusal) : State :=
  match o with
  | .next s => s
  | _ => State.reset

/-! ### Ill-formed commands are refused by the check -/

theorem test_wf_tag_above_3 : ¬ (Instr.identify 4).WellFormed := by decide
theorem test_wf_void_collect_kind : ¬ (Instr.voidTransaction (some 0xC3) []).WellFormed := by decide
theorem test_wf_void_submit_kind : ¬ (Instr.voidTransaction (some 0x51) [0x23]).WellFormed := by decide
theorem test_wf_void_status_kind : ¬ (Instr.voidTransaction (some 0x5A) []).WellFormed := by decide
theorem test_wf_void_without_a_byte : ¬ (Instr.voidTransaction none [0]).WellFormed := by decide
theorem test_wf_seventeen_groups : ¬ (Instr.stageGroups 0 ⟨1, 0⟩ (List.replicate 17 0)).WellFormed := by decide +kernel
theorem test_wf_grace_of_handle_0 : ¬ (Instr.graceExpiry 0).WellFormed := by decide
theorem test_wf_grace_of_handle_81 : ¬ (Instr.graceExpiry 81).WellFormed := by decide
theorem test_wf_identify : (Instr.identify 3).WellFormed := by decide

/-! ### The worked examples of chapter 11 and the checks of R191 and R192 -/

/-- The frame of IDENTIFY under tag 0: 23h 00h 91h (section 11.2). -/
theorem test_identify_frame : encodeFrame (.identify 0) = [0x23, 0x00, 0x91] := by decide +kernel
/-- The CRC-8 register holds E9h after 23h and 91h after 00h (section 11.2). -/
theorem test_crc8_steps : crc8 [0x23] = 0xE9 ∧ crc8 [0x23, 0x00] = 0x91 := by decide
/-- The bytes a COLLECT of the IDENTIFY completion shifts out (section 11.2), but for the check. -/
theorem test_identify_completion :
    (Completion.frame ⟨0, .identify, .ok, 0, identity⟩).take 10 = [0x0A, 0x00, 0x23, 0x00, 0x00, 0x10, 0x5B, 0x01, 0xE0, 0x01] := by
  decide
/-- The status block after device reset: attention pending and four free tags in byte 0, the rest 0 (R190, R192). -/
theorem test_status_after_reset : (statusBlock State.reset).take 6 = [0x4F, 0, 0, 0, 0, 0] := by decide
/-- The start-up interval of a hub just initialised ends in the state after device reset (R190). -/
theorem test_startup_end : startupEnd State.initial = State.reset := by decide
/-- An idle step lets time pass (log 2). -/
theorem test_idle_step : step State.reset = .next { State.reset with now := 1 } := rfl
/-- A request frame with a corrupted check is refused BAD_FRAME (R175). -/
theorem test_bad_check :
    (after (exec (.submitRefused [0x23, 0x00, 0x90]) State.reset)).port.lastAccept = .badFrame := by decide +kernel
/-- The first byte of a transaction says its kind: 51h SUBMIT, C3h COLLECT, 5Ah STATUS (R192). -/
theorem test_kinds_of_transactions :
    transactionOf (some 0x51) [0x23, 0x00, 0x91] = .submitRefused [0x23, 0x00, 0x91] ∧ transactionOf (some 0xC3) [0] = .collect 1
    ∧ transactionOf (some 0x5A) [0, 0] = .status 2 ∧ transactionOf (some 0x52) [] = .voidTransaction (some 0x52) [] := by decide
/-- Kind 25h is unknown whatever its length (R175). -/
theorem test_unknown_kind : judgeFrame [0x25, 0x00, crc8 [0x25, 0x00]] = .unknownRequest := by decide +kernel

/-! ### A small wall -/

/-- Handle 1, generation 0, ACTIVE at TL0 hop 0, at column 0, row 0, in group 0. -/
def tileA : Record :=
  { ref := ⟨1, 0⟩, uid := 0x11, model := 7, capacity := 24, state := .active, loc := ⟨0, 0⟩, pos := some ⟨0, 0⟩, groups := 1,
    synced := 0, miss := 2, stale := none }

/-- Handle 80, generation 15, STALE since time 0, last at TL3 hop 15, at column 31, row 31, in group 15. -/
def tileB : Record :=
  { ref := ⟨80, 15⟩, uid := 0x22, model := 7, capacity := 1, state := .stale, loc := ⟨3, 15⟩, pos := some ⟨31, 31⟩,
    groups := 0x8000, synced := 0, miss := 0, stale := some ⟨0, .unreached⟩ }

/-- Key 63 at address 239. -/
def keyA : KeyRec := { number := 63, addr := 239, dflt := 5, min := 0, max := 10, introduced := false }

/-- A catch-up job of handle 1 that awaits a boundary. -/
def jobA : Job :=
  { ref := ⟨1, 0⟩, link := 0, list := [], round := 1, roundCount := 1, phase := .awaitingBoundary, acked := 0, turn := false,
    restarts := 0, reprepare := false }

/-- A RUNNING link that lists a reference at hop 0. -/
def runningLink (r : Ref) : LinkEngine :=
  { LinkEngine.reset with state := .running, reach := 1, hops := .listed r :: List.replicate 15 .empty }

/-- A READY hub at 40 s with two records, one key, three entries and three staged changes; TL0 is RUNNING. -/
def hub : State :=
  { State.reset with
    now := 4000000
    dir := { Directory.reset with
      gens := Directory.reset.gens.set 79 15, records := [tileA, tileB], freeList := List.range' 2 78, staleList := [80] }
    keys := [keyA]
    store := [⟨.wall, 63, 6⟩, ⟨.group 0, 63, 7⟩, ⟨.tile ⟨1, 0⟩, 63, 8⟩]
    staging := [.setVal .wall 63 10, .place ⟨1, 0⟩ ⟨31, 31⟩ true, .groups ⟨1, 0⟩ 3]
    links := State.reset.links.put 0 (runningLink ⟨1, 0⟩) }

/-- The hub with another list of store entries. -/
def hubStore (es : List Entry) : State := { hub with store := es }

/-- The hub with nothing staged. -/
def hubUnstaged : State := { hub with staging := [] }

/-- A participant: handle 1 with one pair. -/
def partA (st : PartStatus) : Participant :=
  { ref := ⟨1, 0⟩, loc := ⟨0, 0⟩, pairs := [⟨239, 10⟩], acked := 0, reached := true, cancelSent := false, status := st }

/-- The hub in a commit state under tag 1, with one participant and the deadline of the state running. -/
def committing (cs : CommitState) (p : Policy) (st : PartStatus) : State :=
  { hub with
    commit := { hub.commit with
      state := cs, policy := some p, tag := some 1, displaced := [⟨80, 15⟩], participants := [partA st]
      prepareDl := if cs = .preparing then some 4005000 else none, armDl := if cs = .armed then some 4010000 else none
      applyDl := if cs = .applying then some 4005000 else none, applyCount := some 7
      reason := if cs = .cancelling then some .host else none }
    port := { hub.port with tags := hub.port.tags.put 1 (.running .commit) } }

/-- The hub with another engine of TL0. -/
def hubLink (e : LinkEngine) : State := { hub with links := hub.links.put 0 e }

/-- The hub with another boundary unit. -/
def hubFrame (b : BoundaryUnit) : State := { hub with boundary := b }

/-- The PARAM_READ of address 16 for a TILE_READ under tag 1 in its n-th attempt of 3. -/
def readFlight (n : Nat) : Flight :=
  { txn := directTxn 0 (.paramRead 16) 1, seq := 3, attempt := n, allowed := 3, phase := .onWire, expires := 4000020 }

/-- The hub with that PARAM_READ on the wire of TL0, and a record with a miss count. -/
def reading (n miss : Nat) : State :=
  { hubLink { runningLink ⟨1, 0⟩ with flight := some (readFlight n), seqCounter := 3 } with
    dir := { hub.dir with records := [{ tileA with miss := miss }, tileB] }
    port := { hub.port with tags := hub.port.tags.put 1 (.running (.tileRead ⟨1, 0⟩ 16)) } }

/-- A broadcast APPLY as a flight. -/
def applyFlight : Flight :=
  { txn := { dest := .broadcast, body := .apply 1, cls := .commit, req := .controller }, seq := 4, attempt := 1, allowed := 1,
    phase := .onWire, expires := 4000020 }

/-- A committing hub with another engine of TL0. -/
def applyingLink (e : LinkEngine) : State :=
  { committing .applying .strict .unconfirmed with links := hub.links.put 0 e }

/-! ### How hypotheses are met -/

theorem accepts_of {s : State} {b : Byte} {t : Tag}
    (h : s.phase ≠ .inReset ∧ s.port.state = .ready ∧ b.toNat = t.val ∧ s.port.tags.get t = .free) : Accepts s b t :=
  ⟨h.1, h.2.1, h.2.2.1, h.2.2.2⟩

theorem rests_of {s : State}
    (h : s.commit.state = .armed ∨ s.commit.state = .idle
      ∨ (s.commit.state = .preparing ∧ ∃ p ∈ s.commit.participants, p.status = .unprepared)
      ∨ (s.commit.state = .applying ∧ ∃ p ∈ s.commit.participants, p.status = .unconfirmed)
      ∨ (s.commit.state = .cancelling ∧ ∃ l, (s.links.get l).cancelOutstanding = true)) : Rests s := h

/-- A hub with a commit under tag 2, whose one participant is handle 1. -/
def during (cs : CommitState) (p : Policy) (st : PartStatus) (s : State) : State :=
  { s with
    commit := { (committing cs p st).commit with tag := some 2 }
    port := { s.port with tags := s.port.tags.put 2 (.running .commit) } }

/-- A hub with an ARMED commit under tag 2 that has no participant. -/
def armed (s : State) : State :=
  { s with
    commit := { s.commit with state := .armed, policy := some .strict, tag := some 2, armDl := some 4010000 }
    port := { s.port with tags := s.port.tags.put 2 (.running .commit) } }

/-- The commit states with something to wait for, and a status of their participant. -/
def phases : List (CommitState × PartStatus) := [(.preparing, .unprepared), (.armed, .prepared), (.applying, .unconfirmed)]

theorem forall_phases {P : CommitState × PartStatus → Prop} (a : P (.preparing, .unprepared)) (b : P (.armed, .prepared))
    (c : P (.applying, .unconfirmed)) : ∀ x ∈ phases, P x := by
  intro x h
  have : x = (.preparing, .unprepared) ∨ x = (.armed, .prepared) ∨ x = (.applying, .unconfirmed) := by simpa [phases] using h
  rcases this with rfl | rfl | rfl <;> assumption

theorem noneLost_armed {s : State} {gone : Record → Prop} (h : (armed s).commit.participants = []) : NoneLost (armed s) gone :=
  .inr fun _ _ _ p hp => by rw [h] at hp; cases hp

theorem sole_of {α : Type} {p : α → Prop} {xs : List α} {x : α} (h : x ∈ xs ∧ p x ∧ ∀ y ∈ xs, p y → y = x) : Sole p xs x :=
  ⟨h.1, h.2.1, h.2.2⟩

theorem names_of {s : State} {ref : Ref} {r : Record}
    (h : (r ∈ s.dir.records ∧ r.ref.handle = ref.handle ∧ ∀ y ∈ s.dir.records, y.ref.handle = ref.handle → y = r)
      ∧ r.ref.gen = ref.gen) : Names s ref r := ⟨sole_of h.1, h.2⟩

theorem not_late {s : State} {l : LinkId} {bytes : List Byte} (h : (s.links.get l).expired = none) : ¬ Late s l bytes :=
  fun ⟨_, _, _, hx, _⟩ => by rw [h] at hx; cases hx

theorem ends_reply {s : State} {l : LinkId} {f : Flight} {bytes : List Byte} {st : TileStatus} {body : ReplyBody}
    (h : s.phase = .operating ∧ waitingFlight s l = some f ∧ (s.links.get l).expired = none
      ∧ judgeReply f.txn.body f.seq bytes = .good st body) :
    Ends s l f (.linkReply l bytes) (some (st, body)) s.now :=
  ⟨h.1, h.2.1, fun _ _ => not_late h.2.2.1, .inl ⟨bytes, st, body, rfl, h.2.2.2, rfl, rfl⟩⟩

theorem ends_timeout {s : State} {l : LinkId} {f : Flight}
    (h : s.phase = .operating ∧ waitingFlight s l = some f ∧ ¬ f.attempt < f.allowed) :
    Ends s l f (.replyTimeout l) none (max s.now f.expires) := ⟨h.1, h.2.1, fun _ h => (by cases h), .inr ⟨h.2.2, rfl, .inr ⟨rfl, rfl⟩⟩⟩

/-- The hub is well shaped and its links and directory are sound. -/
def Sound (s : State) : Prop := WellShaped s ∧ HubSound s

theorem sound_of {s : State} (qs : LinkId → List (Bool × Nat)) (h : ShapeCheck s) (a : ∀ l, LinkStateCheck (s.links.get l))
    (b : ∀ l, LinkStepsCheck (s.links.get l) (qs l)) (c : ∀ l, LinkTrafficCheck (s.links.get l)) (d : DirectoryCheck s) :
    Sound s := ⟨wellShaped_of h, hubSound_of qs a b c d⟩

/-- The scan steps of TL0, with none on the other links. -/
def onTL0 (xs : List (Bool × Nat)) (l : LinkId) : List (Bool × Nat) := if l = 0 then xs else []

/-- The hub is sound with its commit. -/
def CSound (s : State) : Prop := Sound s ∧ CommitSound s

theorem csound_of {s : State} (h : Sound s) (a : SettingsCheck s) (b : ParticipantsCheck s) (c : StatusesCheck s.commit) : CSound s :=
  ⟨h, commitSound_of a b c⟩

theorem sound_hub : Sound hub :=
  sound_of (onTL0 []) (by decide +kernel) (by decide +kernel) (by decide +kernel) (by decide +kernel) (by decide +kernel)

/-! ### Witnesses: the queue and the port -/

theorem witness_StepRunsTheFrontCommand :
    ({ hub with pending := [.identify 0] } : State).pending = Instr.identify 0 :: [] ∧ hub.pending = [] := by decide +kernel

/-- The hub with four completions waiting. -/
def hubDone : State :=
  { hub with port := { hub.port with completions := List.replicate 4 ⟨1, .identify, .ok, 0, identity⟩ } }

theorem witness_CollectTakesTheHeadWhole :
    hubDone.phase ≠ .inReset ∧ (∃ c rest, hubDone.port.completions = c :: rest ∧ c.frame.length ≤ 11 ∧ 10 < c.frame.length)
    ∧ hub.phase ≠ .inReset ∧ hub.port.completions = [] :=
  ⟨by decide +kernel, ⟨_, _, rfl, by decide +kernel, by decide +kernel⟩, by decide +kernel, rfl⟩



theorem witness_StatusAndVoidTransactions :
    (hubDone.phase ≠ .inReset ∧ hubDone.port.completions.length ≤ 4)
    ∧ (hub.phase ≠ .inReset ∧ (initialIn .inReset hub).phase = .inReset ∧ requestOf (.identify 0) ≠ none) :=
  ⟨(by decide +kernel), (by decide +kernel)⟩

/-- A frame and its check. -/
def checked (bs : List Byte) : List Byte := bs ++ [crc8 bs]

theorem witness_SubmitRefusedByTheFirstFailingCheck :
    (initialIn .startup hub).phase ≠ .inReset ∧ (initialIn .startup hub).port.state = .resetting
    ∧ (hub.phase ≠ .inReset ∧ hub.port.state = .ready)
    ∧ ¬ goodCheck [0x23, 0x00]
    ∧ (checked [0x25, 0x00] = 0x25 :: 0x00 :: ([] ++ [crc8 [0x25, 0x00]]) ∧ goodCheck (checked [0x25, 0x00])
        ∧ ¬ (1 ≤ (0x25 : Byte).toNat ∧ (0x25 : Byte).toNat ≤ 36))
    ∧ (goodCheck (checked [0x24, 0x04, 0x00]) ∧ (1 ≤ (0x24 : Byte).toNat ∧ (0x24 : Byte).toNat ≤ 36)
        ∧ ¬ ((0x04 : Byte).toNat ≤ 3 ∧ carriesCount 0x24 [0x00]))
    ∧ (goodCheck (checked [0x01, 0x03, 0, 0, 0, 0, 0, 0, 0, 0]) ∧ carriesCount 0x01 [0, 0, 0, 0, 0, 0, 0, 0]
        ∧ (0x03 : Byte).toNat = (3 : Tag).val
        ∧ ({ hub with port := { hub.port with tags := hub.port.tags.put 3 .done } } : State).port.tags.get 3 ≠ .free) := by
  refine ⟨by decide +kernel, by decide +kernel, by decide +kernel, ?_, ⟨by decide +kernel, ⟨_, _, [], _, rfl, rfl⟩, by decide +kernel⟩,
    ⟨⟨_, _, [0x00], _, rfl, rfl⟩, by decide +kernel, fun h => absurd h.1 (by decide)⟩,
    ⟨⟨_, _, [0, 0, 0, 0, 0, 0, 0, 0], _, rfl, rfl⟩, ?_, by decide +kernel, by decide +kernel⟩⟩
  · rintro ⟨k, t, ps, c, h, -⟩
    have := congrArg List.length h
    simp at this
  · simp [carriesCount, parameterCounts]

theorem witness_FramesAndRequestsCorrespond :
    ((Instr.identify 3).WellFormed ∧ requestOf (.identify 3) ≠ none)
    ∧ (decodeFrame [0x23, 0x00, 0x91] = some (.identify 0)) :=
  ⟨(by decide +kernel), (by decide +kernel)⟩

theorem accepts_hub : Accepts hub 3 3 := accepts_of (by decide +kernel)

theorem witness_FrameOfARequestRunsTheRequest :
    ((Instr.stageGroups 3 ⟨80, 15⟩ (List.replicate 16 15)).WellFormed
      ∧ requestOf (Instr.stageGroups 3 ⟨80, 15⟩ (List.replicate 16 15)) ≠ none)
    ∧ (Accepts hub 3 3 ∧ 1 < (2 : Byte).toNat) := ⟨by decide +kernel, accepts_hub, by decide⟩

/-- A CLEAR of the scope 02h completes BAD_PARAMETER and the port stays READY (R187). -/
theorem test_clear_of_another_scope :
    let s := after (exec (.submitRefused (checked [0x24, 0x03, 0x02])) hub)
    s.port.completions = [⟨3, .clear, .badParameter, 0, []⟩] ∧ s.port.state = .ready := by decide +kernel

theorem witness_AttentionMaskAndIdentify :
    Accepts hub 3 3 ∧ hub.port.attn.handles.length = Config.maxHandle ∧ ∃ i, 20 ≤ i ∧ (0x100000 : BitVec 24).getLsbD i = true :=
  ⟨accepts_hub, by decide +kernel, 20, by decide +kernel⟩

/-! ### Witnesses: the Tile Directory -/

theorem names_tileA : Names hub ⟨(1 : Byte).toNat, (0 : Byte).toNat⟩ tileA := names_of (by decide +kernel)
theorem names_tileB : Names hub ⟨(80 : Byte).toNat, (15 : Byte).toNat⟩ tileB := names_of (by decide +kernel)



theorem fails_free : FailsWith hub ⟨(2 : Byte).toNat, (0 : Byte).toNat⟩ .noSuchHandle := .inl ⟨rfl, by decide +kernel⟩
theorem fails_old : FailsWith hub ⟨(80 : Byte).toNat, (14 : Byte).toNat⟩ .staleHandle :=
  .inr ⟨rfl, tileB, sole_of (by decide +kernel), by decide +kernel⟩

theorem witness_FailingReferenceIsRefused :
    Accepts hub 3 3 ∧ FailsWith hub ⟨(2 : Byte).toNat, (0 : Byte).toNat⟩ .noSuchHandle
    ∧ FailsWith hub ⟨(80 : Byte).toNat, (14 : Byte).toNat⟩ .staleHandle ∧ (1 : Byte).toNat ≤ 1 ∧ (63 : Byte).toNat ≤ 63 :=
  ⟨accepts_hub, fails_free, fails_old, by decide, by decide⟩

/-- The hub with a catch-up job of handle 1. -/
def hubJob : State := { hub with jobs := hub.jobs.put 0 [jobA] }

theorem witness_LookupsAndDescribeReadTheDirectory :
    (Accepts hub 3 3 ∧ Sole (fun x => x.uid = 0x22) hub.dir.records tileB ∧ (∀ r ∈ hub.dir.records, r.uid ≠ 0x33)
    ∧ 31 < (32 : Byte).toNat ∧ (31 : Byte).toNat ≤ 31
    ∧ Sole (fun x => x.pos = some ⟨(31 : Byte).toNat, (31 : Byte).toNat⟩) hub.dir.records tileB
    ∧ ∀ x ∈ hub.dir.records, x.pos ≠ some ⟨(31 : Byte).toNat, (0 : Byte).toNat⟩)
    ∧ ((Accepts hubJob 3 3 ∧ Names hubJob ⟨(1 : Byte).toNat, (0 : Byte).toNat⟩ tileA
      ∧ Sole (fun x => x.ref = tileA.ref) (allJobs hubJob) jobA)
    ∧ (Accepts hub 3 3 ∧ Names hub ⟨(80 : Byte).toNat, (15 : Byte).toNat⟩ tileB ∧ ∀ j ∈ allJobs hub, j.ref ≠ tileB.ref)) :=
  ⟨⟨accepts_hub, sole_of (by decide +kernel), by decide +kernel, by decide +kernel, by decide +kernel, sole_of (by decide +kernel),
    by decide +kernel⟩, ⟨⟨accepts_of (by decide +kernel), names_of (by decide +kernel), sole_of (by decide +kernel)⟩,
    accepts_hub, names_tileB, by decide +kernel⟩⟩

theorem witness_ListGivesEightInHandleOrder :
    Accepts hub 3 3 ∧ 15 < (16 : Byte).toNat ∧ 80 < (81 : Byte).toNat ∧ ((15 : Byte) ≠ 0 ∧ (15 : Byte).toNat ≤ 15)
    ∧ 1 ≤ (80 : Byte).toNat ∧ (80 : Byte).toNat ≤ 80 ∧ hub.dir.records.Pairwise (fun x y => x.ref.handle < y.ref.handle) :=
  ⟨accepts_hub, by decide +kernel⟩

theorem witness_SetGraceExpiresWhatHasRun :
    (Accepts (committing .armed .strict .prepared) 3 3 ∧ (committing .armed .strict .prepared).commit.state ≠ .idle)
    ∧ (Accepts hub 3 3 ∧ hub.commit.state = .idle ∧ StaleListed hub) ∧ Sound hub
    ∧ graceReached hub.now 40 tileB = true ∧ graceReached hub.now 41 tileB = false :=
  ⟨⟨accepts_of (by decide +kernel), by decide +kernel⟩, ⟨accepts_hub, by decide +kernel, by
    refine ⟨by decide +kernel, ?_⟩
    intro r hr _
    have : r = tileA ∨ r = tileB := by simpa [hub] using hr
    rcases this with rfl | rfl
    · rename_i h; exact absurd rfl h
    · decide +kernel⟩, sound_hub, by decide +kernel⟩

/-- The hub with a TILE_READ of handle 1 waiting on TL0 under tag 1. -/
def waitingRead : State :=
  { hubLink { runningLink ⟨1, 0⟩ with hostQ := [directTxn 0 (.paramRead 16) 1], flight := some applyFlight } with
    port := { hub.port with tags := hub.port.tags.put 1 (.running (.tileRead ⟨1, 0⟩ 16)) } }



theorem witness_RetireRunsTheCascadeOrIsRefused :
    ((Accepts hub 3 3 ∧ Names hub ⟨(80 : Byte).toNat, (15 : Byte).toNat⟩ tileB ∧ (80 : Byte).toNat ≤ 80
      ∧ hub.dir.gens.length = 80 ∧ hub.port.attn.handles.length = 80 ∧ (0 : Byte) = 0 ∧ tileB.state = .stale
      ∧ hub.commit.state = .idle)
    ∧ (Accepts waitingRead 3 3 ∧ Names waitingRead ⟨(1 : Byte).toNat, (0 : Byte).toNat⟩ tileA ∧ 1 ≤ (1 : Byte).toNat
      ∧ waitingRead.dir.gens.length = 80 ∧ waitingRead.port.attn.handles.length = 80 ∧ waitingRead.commit.state = .idle
      ∧ tileA.state ≠ .stale ∧ tileA.loc.hop < 16 ∧ (waitingRead.links.get tileA.loc.link).hops.length = 16
      ∧ directTxn 0 (.paramRead 16) 1 ∈ (waitingRead.links.get tileA.loc.link).hostQ
      ∧ waitingRead.port.tags.get 1 = .running (.tileRead ⟨1, 0⟩ 16)
      ∧ (Running.tileRead ⟨1, 0⟩ 16).ref? = some tileA.ref)
    ∧ ((committing .armed .strict .prepared).commit.state ≠ .idle
      ∧ (∀ c ∈ (committing .armed .strict .prepared).staging, c.namesHandle 80 = false)
      ∧ ∀ p ∈ (committing .armed .strict .prepared).commit.participants, p.ref ≠ tileB.ref))
    ∧ ((Accepts hub 3 3 ∧ 1 < (2 : Byte).toNat ∧ Names hub ⟨(1 : Byte).toNat, (0 : Byte).toNat⟩ tileA ∧ tileA.state ≠ .stale)
    ∧ (Accepts (committing .armed .strict .prepared) 3 3
      ∧ Names (committing .armed .strict .prepared) ⟨(1 : Byte).toNat, (0 : Byte).toNat⟩ tileA
      ∧ (committing .armed .strict .prepared).commit.state ≠ .idle
      ∧ ∃ c ∈ (committing .armed .strict .prepared).staging, c.namesHandle (1 : Byte).toNat = true)) :=
  ⟨⟨⟨accepts_hub, names_tileB, by decide +kernel⟩,
    ⟨accepts_of (by decide +kernel), names_of (by decide +kernel), by decide +kernel⟩, by decide +kernel⟩, ⟨⟨accepts_hub, by decide, names_tileA, by decide⟩,
    accepts_of (by decide +kernel), names_of (by decide +kernel), by decide +kernel, by decide +kernel⟩⟩

theorem witness_GraceExpiryRetiresOrDefers :
    (hub.phase = .operating ∧ Names hub tileB.ref tileB ∧ tileB.ref.handle = 80 ∧ tileB.stale = some ⟨0, .unreached⟩
      ∧ hub.dir.grace ≠ 0 ∧ hub.dir.staleList = 80 :: [] ∧ hub.commit.state = .idle)
    ∧ (Names (committing .armed .strict .prepared) tileB.ref tileB
      ∧ (committing .armed .strict .prepared).dir.staleList = 80 :: []
      ∧ (committing .armed .strict .prepared).commit.state ≠ .idle) :=
  ⟨⟨by decide +kernel, names_of (by decide +kernel), by decide +kernel⟩, names_of (by decide +kernel), by decide +kernel⟩

/-! ### Witnesses: keys, entries, staging -/

theorem sole_keyA : Sole (fun y => y.number = (63 : Byte).toNat) hub.keys keyA := sole_of (by decide +kernel)

theorem inRange_wall (k : Byte) (h : k.toNat ≤ 63) : EntryInRange .wall k := ⟨h, fun _ h => by cases h⟩
theorem names_wall (s : State) : ScopeNames s .wall := fun _ h => by cases h



theorem witness_KeysAreDefinedAndUndefined :
    (Accepts hub 3 3 ∧ 63 < (64 : Byte).toNat ∧ (committing .armed .strict .prepared).commit.state ≠ .idle
    ∧ hub.commit.state = .idle ∧ (∃ x ∈ hub.keys, x.number = (63 : Byte).toNat ∨ x.addr = 239)
    ∧ (∀ x ∈ hub.keys, x.number ≠ (62 : Byte).toNat ∧ x.addr ≠ 238) ∧ (238 : Byte).toNat < 240
    ∧ (∀ x ∈ hub.keys, x.number ≠ (0 : Byte).toNat ∧ x.addr ≠ 240) ∧ 240 ≤ (240 : Byte).toNat)
    ∧ ((Accepts hub 3 3 ∧ 63 < (64 : Byte).toNat ∧ hub.commit.state = .idle ∧ (∀ x ∈ hub.keys, x.number ≠ (62 : Byte).toNat)
      ∧ Sole (fun y => y.number = (63 : Byte).toNat) hub.keys keyA ∧ ∃ e ∈ hub.store, e.key = (63 : Byte).toNat)
    ∧ (Accepts { hubUnstaged with store := [] } 3 3
      ∧ Sole (fun y => y.number = (63 : Byte).toNat) ({ hubUnstaged with store := [] } : State).keys keyA
      ∧ keyA.introduced = false ∧ (∀ e ∈ ({ hubUnstaged with store := [] } : State).store, e.key ≠ (63 : Byte).toNat)
      ∧ ∀ c ∈ ({ hubUnstaged with store := [] } : State).staging, c.namesKey (63 : Byte).toNat = false)) :=
  ⟨⟨accepts_hub, by decide +kernel⟩, ⟨⟨accepts_hub, by decide, by decide +kernel, by decide +kernel, sole_keyA, by decide +kernel⟩,
    accepts_of (by decide +kernel), sole_of (by decide +kernel), by decide +kernel⟩⟩

theorem witness_KeysAndEntriesAreRead :
    Accepts hub 3 3 ∧ 63 < (64 : Byte).toNat ∧ (∀ x ∈ hub.keys, x.number ≠ (62 : Byte).toNat)
    ∧ Sole (fun y => y.number = (63 : Byte).toNat) hub.keys keyA
    ∧ scopeOf ⟨0, 1, 0⟩ = none ∧ scopeOf ⟨1, 16, 0⟩ = some (.group 16) ∧ ¬ EntryInRange (.group 16) 0
    ∧ scopeOf ⟨0, 0, 0⟩ = some .wall ∧ EntryInRange .wall 63 ∧ ScopeNames hub .wall
    ∧ Sole (fun e => e.isAt .wall (63 : Byte).toNat) hub.store ⟨.wall, 63, 6⟩
    ∧ (∀ e ∈ (hubStore []).store, e.isAt .wall (63 : Byte).toNat = false)
    ∧ scopeOf ⟨2, 80, 14⟩ = some (.tile ⟨80, 14⟩) ∧ FailsWith hub ⟨80, 14⟩ .staleHandle :=
  ⟨accepts_hub, by decide, by decide +kernel, sole_keyA, by decide +kernel, by decide +kernel,
    fun h => absurd (h.2 16 rfl) (by decide), by decide +kernel, inRange_wall 63 (by decide), names_wall hub,
    sole_of (by decide +kernel), by decide +kernel, by decide +kernel, fails_old⟩

theorem witness_ListEntriesGivesEightInListingOrder :
    Accepts hub 3 3 ∧ 63 < (64 : Byte).toNat ∧ 2 < (3 : Byte).toNat ∧ 15 < (16 : Byte).toNat ∧ 80 < (81 : Byte).toNat
    ∧ (63 : Byte).toNat ≤ 63 ∧ (15 : Byte).toNat ≤ 15 ∧ (80 : Byte).toNat ≤ 80
    ∧ hub.store.Pairwise (fun x y => x.rank < y.rank) := ⟨accepts_hub, by decide +kernel⟩

theorem witness_ResolveGivesTheFirstSource :
    Accepts hub 3 3 ∧ 63 < (64 : Byte).toNat ∧ Names hub ⟨(1 : Byte).toNat, (0 : Byte).toNat⟩ tileA
    ∧ (∀ x ∈ hub.keys, x.number ≠ (62 : Byte).toNat) ∧ Sole (fun y => y.number = (63 : Byte).toNat) hub.keys keyA
    ∧ Sole (fun e => e.scope = .tile tileA.ref ∧ e.key = 63) hub.store ⟨.tile ⟨1, 0⟩, 63, 8⟩
    ∧ ((∀ e ∈ (hubStore [⟨.group 0, 63, 7⟩]).store, ¬ (e.scope = .tile tileA.ref ∧ e.key = 63))
      ∧ tileA.groups.getLsbD 0 = true
      ∧ Sole (fun e => e.scope = .group 0 ∧ e.key = 63) (hubStore [⟨.group 0, 63, 7⟩]).store ⟨.group 0, 63, 7⟩)
    ∧ ((∀ m < 16, tileA.groups.getLsbD m = true →
          ∀ e ∈ (hubStore [⟨.wall, 63, 6⟩]).store, ¬ (e.scope = .group m ∧ e.key = 63))
      ∧ Sole (fun e => e.scope = .wall ∧ e.key = 63) (hubStore [⟨.wall, 63, 6⟩]).store ⟨.wall, 63, 6⟩)
    ∧ ∀ e ∈ (hubStore []).store, ¬ (e.scope = .wall ∧ e.key = 63) :=
  ⟨accepts_hub, by decide, names_tileA, by decide +kernel, sole_keyA, sole_of (by decide +kernel),
    ⟨by decide +kernel, by decide +kernel, sole_of (by decide +kernel)⟩, ⟨by decide +kernel, sole_of (by decide +kernel)⟩,
    by decide +kernel⟩



theorem witness_StageRequestsTakeTheirChange :
    (Accepts hub 3 3 ∧ scopeOf ⟨0, 0, 0⟩ = some .wall ∧ EntryInRange .wall 63 ∧ hub.commit.state = .idle ∧ ScopeNames hub .wall
    ∧ Sole (fun y => y.number = (63 : Byte).toNat) hub.keys keyA ∧ keyA.min.toNat ≤ (10 : Half).toNat
    ∧ (10 : Half).toNat ≤ keyA.max.toNat
    ∧ (∃ before old after, hub.staging = before ++ old :: after ∧ sameTarget old.target (.entry .wall 63) = true
        ∧ ∀ x ∈ before, sameTarget x.target (.entry .wall 63) = false)
    ∧ (∀ x ∈ hubUnstaged.staging, sameTarget x.target (.entry .wall 63) = false) ∧ hubUnstaged.staging.length < 64
    ∧ ∀ x ∈ ({ hub with staging := (List.range 64).map (fun n => .unplace ⟨n, 0⟩) } : State).staging,
        sameTarget x.target (.entry .wall 63) = false)
    ∧ (Accepts hub 3 3 ∧ hub.commit.state = .idle ∧ (∃ r, Names hub ⟨(1 : Byte).toNat, (0 : Byte).toNat⟩ r)
    ∧ (31 : Byte).toNat ≤ 31 ∧ (1 : Byte).toNat ≤ 1
    ∧ (List.replicate 16 (15 : Byte)).length ≤ 16 ∧ (∀ n ∈ List.replicate 16 (15 : Byte), n.toNat ≤ 15)
    ∧ ∀ i < 16, (0x8000 : GroupSet).getLsbD i = true ↔ ∃ n ∈ List.replicate 16 (15 : Byte), n.toNat = i) :=
  ⟨⟨accepts_hub, by decide +kernel, inRange_wall 63 (by decide), by decide +kernel, names_wall hub, sole_keyA, by decide +kernel,
    by decide +kernel, ⟨[], _, _, rfl, by decide +kernel, by decide +kernel⟩, by decide +kernel⟩, ⟨accepts_hub, by decide +kernel, ⟨tileA, names_tileA⟩, by decide, by decide, by decide +kernel, by decide +kernel,
    by decide +kernel⟩⟩

theorem witness_StageRequestsRefuseInOrder :
    Accepts hub 3 3 ∧ scopeOf ⟨0, 1, 0⟩ = none ∧ scopeOf ⟨0, 0, 0⟩ = some .wall ∧ ¬ EntryInRange .wall 64 ∧ EntryInRange .wall 63
    ∧ (committing .armed .strict .prepared).commit.state ≠ .idle ∧ hub.commit.state = .idle ∧ ScopeNames hub .wall
    ∧ (∀ x ∈ hub.keys, x.number ≠ (62 : Byte).toNat) ∧ Sole (fun y => y.number = (63 : Byte).toNat) hub.keys keyA
    ∧ keyA.max.toNat < (11 : Half).toNat ∧ scopeOf ⟨2, 80, 14⟩ = some (.tile ⟨80, 14⟩) ∧ EntryInRange (.tile ⟨80, 14⟩) 63
    ∧ FailsWith hub ⟨80, 14⟩ .staleHandle ∧ 1 < (2 : Byte).toNat ∧ 15 < (16 : Byte).toNat
    ∧ FailsWith hub ⟨(2 : Byte).toNat, (0 : Byte).toNat⟩ .noSuchHandle ∧ 31 < (32 : Byte).toNat
    ∧ Names hub ⟨(1 : Byte).toNat, (0 : Byte).toNat⟩ tileA ∧ ([] : List Byte).length ≤ 16 :=
  ⟨accepts_hub, by decide, by decide, fun h => absurd h.1 (by decide), inRange_wall 63 (by decide), by decide +kernel,
    by decide +kernel, names_wall hub, by decide +kernel, sole_keyA, by decide +kernel, by decide,
    ⟨by decide, fun _ h => by cases h⟩, fails_old, by decide, by decide, fails_free, by decide, names_tileA, by decide⟩

/-- The selector of a position. -/
def positionOf (h g : Byte) : SelectorField := { kind := 2, scope := ⟨0, 0, 0⟩, key := 0, ref := ⟨h, g⟩ }



theorem witness_DiscardAndStagingList :
    (Accepts hub 3 3 ∧ selectorOf { positionOf 1 0 with kind := 4 } = none
    ∧ selectorOf { positionOf 1 0 with kind := 1, key := 64 } = some (.entry .wall 64) ∧ 63 < 64
    ∧ selectorOf { positionOf 1 0 with kind := 0 } = some .all ∧ selectorOf (positionOf 1 0) = some (.position ⟨1, 0⟩)
    ∧ (committing .armed .strict .prepared).commit.state ≠ .idle ∧ hub.commit.state = .idle
    ∧ selectorOf (positionOf 80 14) = some (.position ⟨80, 14⟩) ∧ FailsWith hub ⟨80, 14⟩ .staleHandle
    ∧ (Selector.position ⟨1, 0⟩).target = some (.position 1) ∧ (∃ r, Names hub ⟨1, 0⟩ r)
    ∧ (∃ before old after, hub.staging = before ++ old :: after ∧ sameTarget old.target (.position 1) = true
        ∧ ∀ x ∈ before, sameTarget x.target (.position 1) = false)
    ∧ ∀ x ∈ hubUnstaged.staging, sameTarget x.target (.position 1) = false)
    ∧ (Accepts hub 3 3 ∧ 63 < (64 : Byte).toNat ∧ (63 : Byte).toNat ≤ 63) :=
  ⟨⟨accepts_hub, by decide, by decide, by decide, by decide, by decide, by decide +kernel, by decide +kernel, by decide, fails_old,
    by decide, ⟨tileA, names_tileA⟩, ⟨[.setVal .wall 63 10], _, _, rfl, by decide +kernel, by decide +kernel⟩, by decide +kernel⟩, ⟨accepts_hub, by decide⟩⟩

/-! ### Witnesses: commits and boundaries -/

/-- The hub with a key introduced and other staged changes. -/
def staged (cs : List Change) : State := { hub with staging := cs }

/-- The hub with 512 entries for other groups' places. -/
def fullStore : State :=
  { hub with store := (List.range 512).map (fun n => ⟨.tile ⟨n, 0⟩, 0, 0⟩), staging := [.setVal .wall 63 10] }

theorem witness_CommitRefusedInOrder :
    (Accepts hub 3 3 ∧ 1 < (2 : Byte).toNat ∧ (1 : Byte).toNat ≤ 1 ∧ hub.commit.state = .idle
      ∧ (committing .armed .strict .prepared).commit.state ≠ .idle)
    ∧ (hubUnstaged.staging = [] ∧ ∀ k ∈ hubUnstaged.keys, k.introduced = false)
    ∧ (fullStore.staging ≠ [] ∧ 512 < postSize fullStore.store fullStore.staging)
    ∧ (Accepts (staged [.place ⟨1, 0⟩ ⟨31, 31⟩ false]) 3 3 ∧ postSize (staged [.place ⟨1, 0⟩ ⟨31, 31⟩ false]).store
          (staged [.place ⟨1, 0⟩ ⟨31, 31⟩ false]).staging ≤ 512
      ∧ PlaceMeets (staged [.place ⟨1, 0⟩ ⟨31, 31⟩ false]) ⟨1, 0⟩ ⟨31, 31⟩ false ⟨80, 15⟩)
    ∧ (∃ q, participantsOf { hub with dir := { hub.dir with records := [{ tileA with capacity := 0 }, tileB] } }
          (postView { hub with dir := { hub.dir with records := [{ tileA with capacity := 0 }, tileB] } } [⟨80, 15⟩]) = [] ++ q :: []
        ∧ pendingCapacity { hub with dir := { hub.dir with records := [{ tileA with capacity := 0 }, tileB] } } q < q.pairs.length
        ∧ checkPlaces [{ tileA with capacity := 0 }, tileB] hub.staging = .ok [⟨80, 15⟩]) := by
  refine ⟨⟨accepts_hub, by decide +kernel⟩, by decide +kernel, by decide +kernel,
    ⟨accepts_of (by decide +kernel), by decide +kernel, ?_⟩, ⟨_, rfl, by decide +kernel, by decide +kernel⟩⟩
  refine .inr ⟨?_, tileB, ⟨by decide +kernel, ⟨by decide +kernel, by decide +kernel, by decide +kernel⟩, ?_⟩, by decide +kernel, .inr rfl⟩
  · rintro ⟨r, d, h, hr⟩
    have : r = ⟨1, 0⟩ := by simp [staged] at h; exact h.1
    exact hr (by rw [this])
  · intro y hy h
    have : y = tileA ∨ y = tileB := by simpa [staged, hub] using hy
    rcases this with rfl | rfl
    · exact absurd h.2.1 (by decide)
    · rfl

theorem witness_CommitAcceptedPreparesOrArms :
    Accepts hub 3 3 ∧ policyOf 1 = some .lenient ∧ hub.commit.state = .idle ∧ hub.staging ≠ []
    ∧ postSize hub.store hub.staging ≤ 512 ∧ checkPlaces hub.dir.records hub.staging = .ok [⟨80, 15⟩]
    ∧ (participantsOf hub (postView hub [⟨80, 15⟩])).length = 1
    ∧ ∀ q ∈ participantsOf hub (postView hub [⟨80, 15⟩]), q.pairs.length ≤ pendingCapacity hub q :=
  ⟨accepts_hub, by decide +kernel⟩



theorem witness_AbortAndCommitStatus :
    (Accepts hub 3 3 ∧ hub.commit.state = .idle
    ∧ (Accepts (committing .applying .strict .unconfirmed) 3 3 ∧ (committing .applying .strict .unconfirmed).commit.state = .applying)
    ∧ (Accepts (committing .cancelling .strict .prepared) 3 3
      ∧ (committing .cancelling .strict .prepared).commit.state = .cancelling)
    ∧ (Accepts (committing .armed .strict .prepared) 3 3 ∧ (committing .armed .strict .prepared).commit.state = .armed
      ∧ OwedCancel (committing .armed .strict .prepared) (partA .prepared)))
    ∧ (Accepts (committing .preparing .strict .prepared) 3 3) :=
  ⟨⟨accepts_hub, by decide +kernel, ⟨accepts_of (by decide +kernel), by decide +kernel⟩,
    ⟨accepts_of (by decide +kernel), by decide +kernel⟩, accepts_of (by decide +kernel), by decide +kernel,
    ⟨by decide +kernel, by decide +kernel, by decide +kernel, by decide +kernel⟩⟩, accepts_of (by decide +kernel)⟩

theorem witness_DeadlinesBeforeTheApply :
    (hub.phase = .operating ∧ hub.commit.state ≠ .preparing ∧ hub.commit.state ≠ .armed)
    ∧ ((committing .armed .lenient .prepared).phase = .operating ∧ (committing .armed .lenient .prepared).commit.state = .armed
      ∧ (committing .armed .lenient .prepared).commit.armDl = some 4010000)
    ∧ ((committing .preparing .strict .unprepared).commit.state = .preparing
      ∧ (committing .preparing .strict .unprepared).commit.prepareDl = some 4005000
      ∧ (committing .preparing .strict .unprepared).commit.policy = some .strict)
    ∧ ((committing .preparing .lenient .unprepared).phase = .operating
      ∧ (committing .preparing .lenient .unprepared).commit.policy = some .lenient
      ∧ ((committing .preparing .lenient .unprepared).commit.participants.map Participant.ref).Nodup
      ∧ partA .unprepared ∈ (committing .preparing .lenient .unprepared).commit.participants
      ∧ Names (committing .preparing .lenient .unprepared) (partA .unprepared).ref tileA
      ∧ tileA.loc = (partA .unprepared).loc ∧ tileA.state = .active) :=
  ⟨by decide +kernel, by decide +kernel, by decide +kernel, by decide +kernel, by decide +kernel, by decide +kernel, by decide +kernel,
    names_of (by decide +kernel), by decide +kernel⟩

theorem witness_ApplyDeadlineEndsTheCommit :
    (hub.phase = .operating ∧ hub.commit.state ≠ .applying)
    ∧ (committing .applying .strict .unconfirmed).phase = .operating
    ∧ (committing .applying .strict .unconfirmed).commit.state = .applying
    ∧ (committing .applying .strict .unconfirmed).commit.applyDl = some 4005000
    ∧ ((committing .applying .strict .unconfirmed).commit.participants.map Participant.ref).Nodup
    ∧ (committing .applying .strict .unconfirmed).commit.tag = some 1
    ∧ (committing .applying .strict .unconfirmed).commit.applyCount = some 7
    ∧ partA .unconfirmed ∈ (committing .applying .strict .unconfirmed).commit.participants
    ∧ Names (committing .applying .strict .unconfirmed) (partA .unconfirmed).ref tileA ∧ tileA.stale = none :=
  ⟨by decide +kernel, by decide +kernel, by decide +kernel, by decide +kernel, by decide +kernel, by decide +kernel, by decide +kernel,
    by decide +kernel, names_of (by decide +kernel), by decide +kernel⟩

/-- The hub ARMED with a previous boundary event and a BOUNDARY_NOW pending or not. -/
def armedHub (previous : Option Nat) (now : Option PendingNow) : State :=
  { committing .armed .strict .prepared with boundary := { hub.boundary with previous := previous, pendingNow := now } }

theorem witness_BoundaryInArmedApplies :
    ((armedHub (some 3999900) none).commit.state = .armed
      ∧ (∃ p ∈ (armedHub (some 3999900) none).commit.participants, p.status = .prepared)
      ∧ (armedHub (some 3999900) none).staging.Pairwise (fun a b => sameTarget a.target b.target = false)
      ∧ Accepts (armedHub (some 3999900) none) 3 3 ∧ (armedHub (some 3999900) none).boundary.pendingNow = none
      ∧ ∀ m, (armedHub (some 3999900) none).boundary.previous = some m → m + 100 ≤ (armedHub (some 3999900) none).now)
    ∧ ((armedHub (some 3999950) (some ⟨2, 4000050⟩)).phase = .operating
      ∧ (armedHub (some 3999950) (some ⟨2, 4000050⟩)).boundary.pendingNow = some ⟨2, 4000050⟩)
    ∧ (armedHub none none).boundary.enabled = true ∧ ∀ m, (armedHub none none).boundary.previous ≠ some m := by
  refine ⟨⟨by decide +kernel, by decide +kernel, by decide +kernel, accepts_of (by decide +kernel), by decide +kernel, ?_⟩,
    by decide +kernel, by decide +kernel, ?_⟩
  · intro m h; cases h; decide +kernel
  · intro m h; cases h



/-- The hub ARMED with its participant EXCLUDED, and a BOUNDARY_NOW pending under tag 2. -/
def excludedDue : State :=
  { committing .armed .lenient .excluded with
    boundary := { hub.boundary with previous := some 3999950, pendingNow := some ⟨2, 4000050⟩ } }

theorem witness_BoundaryNowMakesOneBoundary :
    (Accepts (hubFrame { hub.boundary with pendingNow := some ⟨1, 4000001⟩ }) 3 3
      ∧ (hubFrame { hub.boundary with pendingNow := some ⟨1, 4000001⟩ }).boundary.pendingNow = some ⟨1, 4000001⟩
      ∧ (hubFrame { hub.boundary with pendingNow := some ⟨1, 4000001⟩ }).phase = .operating)
    ∧ (Accepts (hubFrame { hub.boundary with previous := some 3999901 }) 3 3
      ∧ (hubFrame { hub.boundary with previous := some 3999901 }).boundary.previous = some 3999901
      ∧ (hubFrame { hub.boundary with previous := some 3999901 }).now < 3999901 + 100)
    ∧ (Accepts hub 3 3 ∧ hub.boundary.previous = none ∧ hub.commit.state = .idle)
    ∧ (Accepts (committing .preparing .strict .unprepared) 3 3 ∧ (committing .preparing .strict .unprepared).commit.state = .preparing
      ∧ ∃ p ∈ (committing .preparing .strict .unprepared).commit.participants, p.status = .unprepared)
    ∧ (Accepts (committing .armed .lenient .excluded) 3 3 ∧ (committing .armed .lenient .excluded).commit.state = .armed
      ∧ ∀ p ∈ (committing .armed .lenient .excluded).commit.participants, p.status ≠ .prepared ∧ p.status ≠ .unconfirmed)
    ∧ (excludedDue.phase = .operating ∧ excludedDue.commit.state = .armed ∧ excludedDue.boundary.pendingNow = some ⟨2, 4000050⟩
      ∧ (∀ q ∈ excludedDue.commit.participants, q.status ≠ .prepared ∧ q.status ≠ .unconfirmed)
      ∧ excludedDue.staging.Pairwise (fun a b => sameTarget a.target b.target = false)
      ∧ Names excludedDue tileA.ref tileA) :=
  ⟨⟨accepts_of (by decide +kernel), by decide +kernel⟩, ⟨accepts_of (by decide +kernel), by decide +kernel⟩,
    ⟨accepts_hub, by decide +kernel⟩, ⟨accepts_of (by decide +kernel), by decide +kernel⟩,
    ⟨accepts_of (by decide +kernel), by decide +kernel⟩, by decide +kernel, by decide +kernel, by decide +kernel, by decide +kernel,
    by decide +kernel, names_of (by decide +kernel)⟩

/-- At that due moment the apply is carried out and the commit ends (R77, R82, R83). -/
theorem test_due_ends_the_commit :
    let s := after (exec .boundaryNowDue excludedDue)
    s.commit.state = .idle ∧ s.commit.epoch = 1 ∧ s.staging = [] ∧ s.port.completions.length = 2 := by decide +kernel

/-- A catch-up job of handle 2 that prepares its only round. -/
def jobB : Job := { jobA with ref := ⟨2, 0⟩, phase := .preparing }

/-- The hub whose TL0 has a job in AWAITING_BOUNDARY beside one in PREPARING, and a BOUNDARY_NOW pending. -/
def dueJob : State :=
  { hub with
    jobs := hub.jobs.put 0 [jobB, jobA], boundary := { hub.boundary with previous := some 3999950, pendingNow := some ⟨2, 4000050⟩ } }

theorem witness_BoundaryInIdleSendsTheAppliesOfJobs :
    (Accepts hubJob 3 3 ∧ hubJob.commit.state = .idle ∧ hubJob.boundary.pendingNow = none ∧ hubJob.boundary.previous = none
      ∧ jobA ∈ hubJob.jobs.get 0 ∧ (hubJob.links.get 0).state = .running
      ∧ hubJob.phase = .operating ∧ hubJob.boundary.enabled = true)
    ∧ (dueJob.commit.state = .idle ∧ jobA ∈ dueJob.jobs.get 0 ∧ jobB ∈ dueJob.jobs.get 0 ∧ dueJob.phase = .operating
      ∧ dueJob.boundary.pendingNow = some ⟨2, 4000050⟩) := ⟨⟨accepts_of (by decide +kernel), by decide +kernel⟩, by decide +kernel⟩

/-- The job that awaits goes to APPLYING and its APPLY to the wire; the other is given the turn, and its PREPARE waits (R154, R156). -/
theorem test_boundary_beside_preparing :
    let s := after (exec .boundaryNowDue dueJob)
    (s.jobs.get 0).map Job.phase = [.preparing, .applying] ∧ (s.links.get 0).flight.isSome = true
    ∧ (s.links.get 0).catchQ.map Txn.isPrepare = [true] := by decide +kernel

theorem witness_FrameSettingsEdgesAndWatch :
    (Accepts hub 3 3 ∧ 1 < (2 : Byte).toNat ∧ (1 : Byte) = 1 ∧ (1 : Byte).toNat ≤ 1)
    ∧ ((hub.phase = .operating ∧ Edge.falling ≠ hub.boundary.polarity ∧ Edge.rising = hub.boundary.polarity
      ∧ hub.boundary.enabled = true ∧ hub.boundary.previous = none ∧ Waits hub ∧ hub.boundary.watch = none)
    ∧ ((hubFrame { hub.boundary with previous := some 3999901 }).boundary.previous = some 3999901
      ∧ (hubFrame { hub.boundary with previous := some 3999901 }).now < 3999901 + 100)
    ∧ (hubFrame { hub.boundary with watch := some 4000000, present := true }).boundary.watch = some 4000000)
    ∧ (let s := committing .armed .lenient .excluded
      s.phase = .operating ∧ s.boundary.enabled = true ∧ s.boundary.previous = none ∧ s.commit.state = .armed
        ∧ ∀ q ∈ s.commit.participants, q.status ≠ .prepared ∧ q.status ≠ .unconfirmed) :=
  ⟨⟨accepts_hub, by decide⟩, ⟨⟨by decide +kernel, by decide +kernel, by decide +kernel, by decide +kernel, by decide +kernel,
    .inl (by decide +kernel), by decide +kernel⟩, by decide +kernel⟩, by decide +kernel⟩

/-! ### Witnesses: links -/

/-- A link in TRAINING. -/
def trainingLink : LinkEngine := { LinkEngine.reset with state := .training, noLockTimer := some 4010000 }

theorem witness_EnabledLinkTrainsAndThenScans :
    (Accepts hub 3 3 ∧ 3 < (4 : Byte).toNat ∧ (3 : Byte).toNat = (3 : LinkId).val ∧ (hub.links.get 3).state = .disabled
      ∧ (0 : Byte).toNat = (0 : LinkId).val ∧ (hub.links.get 0).state ≠ .disabled ∧ hub.phase = .operating
      ∧ (hub.links.get 0).state ≠ .training)
    ∧ ((hubLink trainingLink).phase = .operating ∧ ((hubLink trainingLink).links.get 0).state = .training
      ∧ ((hubLink trainingLink).links.get 0).noLockTimer = some 4010000 ∧ ((hubLink trainingLink).links.get 0).flight = none
      ∧ ((hubLink trainingLink).links.get 0).overtaking = none ∧ ((hubLink trainingLink).links.get 0).scanQ = [])
    ∧ ((hubLink { trainingLink with noLockTimer := none }).links.get 0).noLockTimer = none :=
  ⟨⟨accepts_hub, by decide +kernel⟩, by decide +kernel⟩

/-- An ASSIGN of a new tile in progress on TL0 hop 1. -/
def assigningA : Assignment :=
  { hop := 1, kind := .assigningNew, ref := ⟨79, 0⟩, info := ⟨0x33, 7, 24, ⟨0, 0⟩, 0⟩, full := false }

/-- The hub with a TILE_READ on the wire of TL0 and an ASSIGN in progress there. -/
def lossy : State :=
  { reading 1 0 with
    dir := { (reading 1 0).dir with freeList := List.range' 2 77, marks := [assigningA.mark 0] }
    links := (reading 1 0).links.modify 0 (fun e => { e with assigning := some assigningA, scanQ := [assigningA.txn] }) }

theorem sound_lossy : Sound lossy :=
  sound_of (onTL0 []) (by decide +kernel) (by decide +kernel) (by decide +kernel) (by decide +kernel) (by decide +kernel)

theorem witness_LostOrDisabledLinkIsTakenDown :
    (Sound lossy ∧ lossy.phase = .operating ∧ (lossy.links.get 0).state = .running ∧ Accepts lossy 3 3 ∧ lossy.commit.state = .idle
      ∧ EndsWithLink (lossy.links.get 0) 1 ∧ lossy.port.tags.get 1 = .running (.tileRead ⟨1, 0⟩ 16)
      ∧ lossy.dir.records.Pairwise (fun a b => a.ref.handle ≠ b.ref.handle))
    ∧ (Accepts hub 3 3 ∧ (hub.links.get 3).state = .disabled ∧ (3 : Byte).toNat = (3 : LinkId).val ∧ 3 < (4 : Byte).toNat)
    ∧ (Accepts (hubLink trainingLink) 3 3 ∧ ((hubLink trainingLink).links.get 0).state = .training)
    ∧ (Accepts (hubLink { runningLink ⟨1, 0⟩ with state := .scanning }) 3 3
      ∧ ((hubLink { runningLink ⟨1, 0⟩ with state := .scanning }).links.get 0).state = .scanning) :=
  ⟨⟨sound_lossy, by decide +kernel, by decide +kernel, accepts_of (by decide +kernel), by decide +kernel, .inr (.inl ⟨_, rfl, by decide +kernel⟩),
      by decide +kernel, by decide +kernel⟩,
    ⟨accepts_hub, by decide +kernel⟩, ⟨accepts_of (by decide +kernel), by decide +kernel⟩,
    accepts_of (by decide +kernel), by decide +kernel⟩

theorem witness_LinkStatusShowsTheEngine :
    Accepts hub 3 3 ∧ 3 < (4 : Byte).toNat ∧ (0 : Byte).toNat = (0 : LinkId).val ∧ (3 : Byte).toNat = (3 : LinkId).val :=
  ⟨accepts_hub, by decide⟩



theorem witness_TimingAndDeadlinesAreSet :
    (Accepts hub 3 3 ∧ 3 < (4 : Byte).toNat ∧ 7 < (8 : Byte).toNat ∧ 15 < (16 : Byte).toNat
    ∧ (0 : Byte).toNat = (0 : LinkId).val ∧ (255 : Byte) ≠ 0 ∧ (7 : Byte).toNat ≤ 7 ∧ (15 : Byte) ≠ 0 ∧ (15 : Byte).toNat ≤ 15
    ∧ (hub.links.get 0).state = .running ∧ (hub.links.get 0).flight = none ∧ (hub.links.get 0).rollMet = false
    ∧ (hub.links.get 0).lastRollEnd + (255 : Byte).toNat * 100 ≤ hub.now)
    ∧ (Accepts hub 3 3 ∧ (1 ≤ (1 : Half).toNat ∧ (1000 : Half).toNat ≤ 1000)
    ∧ ¬ (1 ≤ (1001 : Half).toNat ∧ (1001 : Half).toNat ≤ 1000)) :=
  ⟨⟨accepts_hub, by decide +kernel⟩, ⟨accepts_hub, by decide⟩⟩

/-- The hub with a waiting ASSIGN of a hop scan. -/
def assignWaiting : State :=
  hubLink { runningLink ⟨1, 0⟩ with
    assigning := some assigningA, flight := some (readFlight 1)
    scanQ := [{ dest := .directed 1, body := .assign ⟨79, 0⟩, cls := .scan, req := .scanStep false }] }

theorem witness_RescanStartsAFullScan :
    (Accepts hub 3 3 ∧ 3 < (4 : Byte).toNat ∧ (0 : Byte).toNat = (0 : LinkId).val ∧ (hub.links.get 0).state = .running
      ∧ (hub.links.get 0).caused = [] ∧ (hub.links.get 0).flight = none ∧ (hub.links.get 0).overtaking = none
      ∧ (hub.links.get 0).assigning = none ∧ (hub.links.get 1).state = .disabled)
    ∧ ((hubLink { runningLink ⟨1, 0⟩ with state := .scanning }).links.get 0).state = .scanning
    ∧ (Accepts assignWaiting 3 3 ∧ (assignWaiting.links.get 0).state = .running ∧ (assignWaiting.links.get 0).caused = []
      ∧ (assignWaiting.links.get 0).flight ≠ none ∧ (assignWaiting.links.get 0).assigning = some assigningA
      ∧ (assignWaiting.links.get 0).assignWaits assigningA = true) :=
  ⟨⟨accepts_hub, by decide +kernel⟩, by decide +kernel, accepts_of (by decide +kernel), by decide +kernel⟩

/-- An OK reply to the PARAM_READ of sequence number 3 with the value 640 (R193, section 10.10). -/
def readReply : List Byte := [0x63, 0x00, 0x02, 0x02, 0x80, 0x7F, 0x88]

/-- Handle 1 as it stands while it is read. -/
def tileAt (miss : Nat) : Record := { tileA with miss := miss }

theorem listed_reading (n miss : Nat) : ListedAt (reading n miss) 0 0 (tileAt miss) := by
  refine ⟨rfl, ⟨⟨List.mem_cons_self, rfl, ?_⟩, rfl⟩, fun h => by cases h⟩
  intro y hy h
  have : y = tileAt miss ∨ y = tileB := by simpa [reading, tileAt] using hy
  rcases this with rfl | rfl
  · rfl
  · exact absurd (show (80 : Nat) = 1 from h) (by decide)

/-- The hub behind the expiry of the PARAM_READ's first attempt, its second attempt on the wire. -/
def expiredHub : State := after (exec (.replyTimeout 0) (reading 1 0))

/-- A good reply behind the expiry of its attempt is discarded although the next attempt is on the wire; the next one is taken (R113). -/
theorem test_late_reply :
    let s := after (exec (.linkReply 0 readReply) expiredHub)
    (s.links.get 0).flight ≠ none ∧ ((after (exec (.linkReply 0 readReply) s)).links.get 0).flight = none := by decide +kernel
/-- The order of section 6.5's worked sequence: expiry, broadcast sent, reply (R113, R122). -/
theorem test_reply_behind_broadcast :
    let s := applyingLink { runningLink ⟨1, 0⟩ with flight := some (readFlight 1), commitQ := [applyFlight.txn], seqCounter := 3 }
    let s := after (exec (.broadcastSent 0) (after (exec (.replyTimeout 0) s)))
    waitingFlight s 0 ≠ none ∧ ((after (exec (.linkReply 0 readReply) s)).links.get 0).flight = none := by decide +kernel

theorem witness_ReplyEndsTheAttemptOrTheAccess :
    (hub.phase = .operating ∧ waitingFlight hub 0 = none ∧ expiredHub.phase = .operating
      ∧ waitingFlight expiredHub 0 ≠ none)
    ∧ Late expiredHub 0 readReply ∧ (∀ bytes, ¬ Late (reading 1 2) 0 bytes)
    ∧ ((reading 1 2).phase = .operating ∧ waitingFlight (reading 1 2) 0 = some (readFlight 1)
      ∧ judgeReply (readFlight 1).txn.body (readFlight 1).seq [] = .bad ∧ (readFlight 1).attempt < (readFlight 1).allowed
      ∧ ((reading 1 2).links.get 0).commitQ = [] ∧ ((reading 1 2).links.get 0).overtaking = none)
    ∧ judgeReply (readFlight 1).txn.body 4 readReply = .otherSeq
    ∧ (judgeReply (readFlight 1).txn.body (readFlight 1).seq readReply = .good .ok (.value 640)
      ∧ (readFlight 1).txn.dest = .directed 0 ∧ (readFlight 1).txn.req = .tag 1 ∧ (readFlight 1).txn.body.countsMisses = true
      ∧ (reading 1 2).port.tags.get 1 = .running (.tileRead ⟨1, 0⟩ 16)
      ∧ (Running.tileRead ⟨1, 0⟩ 16).ref? = some (tileAt 2).ref ∧ ListedAt (reading 1 2) 0 0 (tileAt 2)
      ∧ (tileAt 2).loc = ⟨0, 0⟩)
    ∧ Rests (reading 1 2) ∧ Rests (freed (reading 1 2) 0)
    ∧ ∀ x ∈ phases, Rests (during x.1 .strict x.2 (reading 1 2)) ∧ Rests (freed (during x.1 .strict x.2 (reading 1 2)) 0)
      ∧ waitingFlight (during x.1 .strict x.2 (reading 1 2)) 0 = some (readFlight 1) :=
  ⟨by decide +kernel, ⟨⟨4000020, .paramRead 16, 3⟩, .ok, .value 640, by decide +kernel⟩, fun _ => not_late (by decide +kernel),
    by decide +kernel, by decide +kernel, ⟨by decide +kernel, by decide +kernel, by decide +kernel, by decide +kernel, by decide +kernel, by decide +kernel, listed_reading 1 2, by decide +kernel⟩, rests_of (by decide +kernel), rests_of (by decide +kernel),
    forall_phases ⟨rests_of (by decide +kernel), rests_of (by decide +kernel), by decide +kernel⟩ ⟨rests_of (by decide +kernel), rests_of (by decide +kernel), by decide +kernel⟩ ⟨rests_of (by decide +kernel), rests_of (by decide +kernel), by decide +kernel⟩⟩

/-- The PREPARE of handle 1 on the wire of TL0 in PREPARING. -/
def preparingHub : State :=
  { committing .preparing .strict .unprepared with
    links := hub.links.put 0 { runningLink ⟨1, 0⟩ with
      flight := some { readFlight 1 with txn := partTxn (partA .unprepared) (.prepare 1 true true [⟨239, 10⟩]) } } }

theorem ends_reading (miss : Nat) : Ends (reading 3 miss) 0 (readFlight 3) (.replyTimeout 0) none 4000020 :=
  ends_timeout ⟨rfl, rfl, by decide +kernel⟩

/-- A commit meets the loss of the tile that a TILE_READ does not reach (R76, R116): under STRICT an ARMED one is
cancelled, and with no CANCEL to send it ends in that event (R85). -/
theorem test_read_cancels :
    let s := after (exec (.replyTimeout 0) (during .armed .strict .prepared (reading 3 2)))
    s.port.completions.map Completion.status = [.noReply, .aborted] ∧ s.commit.state = .idle := by decide +kernel

theorem witness_TimeoutRetriesOrEndsInNoReply :
    (hub.phase = .operating ∧ waitingFlight hub 0 = none)
    ∧ ((reading 2 0).phase = .operating ∧ waitingFlight (reading 2 0) 0 = some (readFlight 2) ∧ Rests (reading 2 0)
      ∧ (readFlight 2).attempt < (readFlight 2).allowed ∧ ((reading 2 0).links.get 0).commitQ = []
      ∧ ((reading 2 0).links.get 0).overtaking = none)
    ∧ (waitingFlight (reading 3 1) 0 = some (readFlight 3) ∧ Ends (reading 3 1) 0 (readFlight 3) (.replyTimeout 0) none 4000020
      ∧ Ends (reading 3 1) 0 (readFlight 3) (.linkReply 0 []) none 4000000
      ∧ ListedAt (reading 3 1) 0 0 (tileAt 1) ∧ ((reading 3 1).links.get 0).hostQ = []
      ∧ (tileAt 1).miss + 1 < ((reading 3 1).links.get 0).timing.missLimit
      ∧ (reading 3 1).port.tags.get 1 = .running (.tileRead ⟨1, 0⟩ 16) ∧ Rests (freed (reading 3 1) 0))
    ∧ (ListedAt (reading 3 2) 0 0 (tileAt 2) ∧ ((reading 3 2).links.get 0).timing.missLimit ≤ (tileAt 2).miss + 1
      ∧ NoneLost (reading 3 2) (fun y => y.ref = tileA.ref))
    ∧ (Rests (freed (armed (reading 3 2)) 0) ∧ NoneLost (armed (reading 3 2)) (fun y => y.ref = tileA.ref)
      ∧ ListedAt (armed (reading 3 2)) 0 0 (tileAt 2))
    ∧ ∀ x ∈ phases, let s := during x.1 .lenient x.2 (reading 3 2)
      CSound s ∧ Rests s ∧ Rests (freed s 0) ∧ Ends s 0 (readFlight 3) (.replyTimeout 0) none 4000020 :=
  ⟨by decide +kernel, ⟨by decide +kernel, by decide +kernel, rests_of (by decide +kernel), by decide +kernel⟩,
    ⟨by decide +kernel, ends_reading 1, ⟨rfl, rfl, fun _ _ => not_late rfl, .inr ⟨by decide +kernel, rfl, .inl ⟨[], rfl, by decide +kernel, rfl⟩⟩⟩, listed_reading 3 1, by decide +kernel, by decide +kernel, by decide +kernel,
      rests_of (by decide +kernel)⟩,
    ⟨listed_reading 3 2, by decide +kernel, .inl rfl⟩, ⟨rests_of (by decide +kernel), noneLost_armed rfl, listed_reading 3 2⟩,
    forall_phases
      ⟨csound_of (sound_of (onTL0 []) (by decide +kernel) (by decide +kernel) (by decide +kernel) (by decide +kernel) (by decide +kernel)) (by decide +kernel) (by decide +kernel) (by decide +kernel), rests_of (by decide +kernel), rests_of (by decide +kernel), ends_timeout (by decide +kernel)⟩
      ⟨csound_of (sound_of (onTL0 []) (by decide +kernel) (by decide +kernel) (by decide +kernel) (by decide +kernel) (by decide +kernel)) (by decide +kernel) (by decide +kernel) (by decide +kernel), rests_of (by decide +kernel), rests_of (by decide +kernel), ends_timeout (by decide +kernel)⟩
      ⟨csound_of (sound_of (onTL0 []) (by decide +kernel) (by decide +kernel) (by decide +kernel) (by decide +kernel) (by decide +kernel)) (by decide +kernel) (by decide +kernel) (by decide +kernel), rests_of (by decide +kernel), rests_of (by decide +kernel), ends_timeout (by decide +kernel)⟩⟩

/-- The hub with a forced roll call on the wire of TL0, the periodic one of the interval having been due or not. -/
def rolling (met : Bool) : State :=
  hubLink { runningLink ⟨1, 0⟩ with flight := some { readFlight 1 with txn := rollTxn .scan .engine }, rollMet := met }

/-- A roll call in flight that began before the moment of the interval does not keep the due mark from being set (R121). -/
theorem test_due_during_roll_call : ((after (exec (.rollCallDue 0) (rolling false))).links.get 0).rollDue = true := by decide +kernel
/-- The due mark is not repeated (R121). -/
theorem test_due_once : ((after (exec (.rollCallDue 0) (rolling true))).links.get 0).rollDue = false := by decide +kernel

theorem witness_BroadcastEndsAndRollCallFallsDue :
    (hub.phase = .operating ∧ (hub.links.get 0).overtaking = none ∧ (hub.links.get 0).flight = none)
    ∧ (((applyingLink { runningLink ⟨1, 0⟩ with overtaking := some applyFlight, flight := some (readFlight 1) }).links.get 0).overtaking
          = some applyFlight
      ∧ (applyingLink { runningLink ⟨1, 0⟩ with overtaking := some applyFlight, flight := some (readFlight 1) }).commit.state = .applying
      ∧ ∃ p ∈ (applyingLink { runningLink ⟨1, 0⟩ with overtaking := some applyFlight, flight := some (readFlight 1) }).commit.participants,
          p.status = .unconfirmed)
    ∧ (((applyingLink { runningLink ⟨1, 0⟩ with flight := some applyFlight, commitQ := [rollTxn .commit .controller] }).links.get 0).flight
          = some applyFlight
      ∧ applyFlight.txn.dest = .broadcast)
    ∧ ((hub.links.get 3).state ≠ .running ∧ (hub.links.get 0).state = .running ∧ (hub.links.get 0).rollDue = false
      ∧ (hub.links.get 0).rollMet = false
      ∧ (hub.links.get 0).commitQ = [] ∧ (hub.links.get 0).scanQ = [] ∧ (hub.links.get 0).hostQ = []
      ∧ (hub.links.get 0).catchQ = [])
    ∧ (((reading 1 0).links.get 0).flight = some (readFlight 1) ∧ (readFlight 1).txn.body ≠ .rollCall
      ∧ ((reading 1 0).links.get 0).rollDue = false ∧ ((reading 1 0).links.get 0).rollMet = false)
    ∧ (((rolling true).links.get 0).rollMet = true ∧ ((rolling false).links.get 0).rollMet = false)
    ∧ (Rests (applyingLink { runningLink ⟨1, 0⟩ with overtaking := some applyFlight, flight := some (readFlight 1) })
      ∧ Rests (freed (applyingLink { runningLink ⟨1, 0⟩ with flight := some applyFlight, commitQ := [rollTxn .commit .controller] }) 0)
      ∧ Rests (armed (hubLink { runningLink ⟨1, 0⟩ with flight := some applyFlight, commitQ := [rollTxn .commit .controller] }))) :=
  ⟨by decide +kernel, by decide +kernel, by decide +kernel, by decide +kernel, by decide +kernel, by decide +kernel, rests_of (by decide +kernel), rests_of (by decide +kernel), rests_of (by decide +kernel)⟩

/-! ### Replies and the hub with one transaction on the wire of TL0 -/

/-- A transaction in the last of 3 attempts, with sequence number 3. -/
def lastFlight (t : Txn) : Flight := { readFlight 3 with txn := t }

/-- The bytes of a reply to a packet of sequence number 3. -/
def reply (b : Body) (status : Byte) (payload : List Byte) : List Byte :=
  let covered := u8 (16 * b.nibble + 3) :: status :: u8 payload.length :: payload
  covered ++ halfBytes (crc16 covered)

/-- The payload of an OK reply to an ENUM_QUERY: an ID, model 7, a pending capacity, the reference held of generation 0, epoch 0. -/
def enumPayload (u : Uid) (cap h : Byte) : List Byte := uidBytes u ++ [0, 7, cap, h, 0, 0, 0]

/-- What that payload says. -/
def infoOf (u : Uid) (cap h : Byte) : EnumInfo := ⟨u, 7, cap.toNat, ⟨h.toNat, 0⟩, 0⟩

/-- The hub with this transaction on the wire of TL0, which is RUNNING and lists handle 1 at hop 0. -/
def onWire (t : Txn) : State := hubLink { runningLink ⟨1, 0⟩ with flight := some (lastFlight t) }

/-- TL0 in its full scan at a hop, with a transaction on its wire. -/
def scanningLink (hop : Nat) (t : Txn) : LinkEngine :=
  { runningLink ⟨1, 0⟩ with
    state := .scanning, scan := some { hop := hop, created := 0, rebound := 0, claimed := 0, rescan := some 1 }
    flight := some (lastFlight t) }

/-- The hub in the full scan of TL0, a RESCAN under tag 1. -/
def scanningHub (hop : Nat) (t : Txn) : State :=
  { hubLink (scanningLink hop t) with port := { hub.port with tags := hub.port.tags.put 1 (.running (.rescan 0)) } }

/-- The hub with a hop scan of TL0 hop 15 on the wire. -/
def asking : State := onWire (enumTxn false 15)

theorem not_listed {x : HopEntry} (h : x.isListed = false) : ∀ ref, x ≠ .listed ref := by rintro ref rfl; cases h

/-- An ENUM_QUERY on a wire of the hub may be answered OK with these fields. -/
def Answered (s : State) (full : Bool) (hop : Nat) (u : Uid) (cap h : Byte) : Prop :=
  ∃ c, Ends s 0 (lastFlight (enumTxn full hop)) c (some (.ok, .enumInfo (infoOf u cap h))) s.now

theorem answered_of {s : State} {full : Bool} {hop : Nat} {u : Uid} {cap h : Byte}
    (hs : s.phase = .operating ∧ waitingFlight s 0 = some (lastFlight (enumTxn full hop)) ∧ (s.links.get 0).expired = none)
    (hr : judgeReply .enumQuery 3 (reply .enumQuery 0 (enumPayload u cap h)) = .good .ok (.enumInfo (infoOf u cap h))) :
    Answered s full hop u cap h := ⟨.linkReply 0 (reply .enumQuery 0 (enumPayload u cap h)), ends_reply ⟨hs.1, hs.2.1, hs.2.2, hr⟩⟩

/-- The hub asking TL0 hop 15 while TL1 assigns the ID 33h to a new tile. -/
def marked : State :=
  { asking with
    dir := { asking.dir with freeList := List.range' 2 77, marks := [assigningA.mark 1] }
    links := asking.links.put 1
      { LinkEngine.reset with state := .running, assigning := some assigningA, flight := some (lastFlight assigningA.txn) } }

/-- A hub with 80 STALE records that asks TL0 hop 15. -/
def crowd : State :=
  { State.reset with
    now := 4000000
    dir := { Directory.reset with
      records := (List.range' 1 80).map (fun h => { tileB with ref := ⟨h, 0⟩, uid := BitVec.ofNat 64 h, pos := none })
      freeList := [], staleList := List.range' 1 80 }
    links := State.reset.links.put 0 { LinkEngine.reset with state := .running, flight := some (lastFlight (enumTxn false 15)) } }

/-- The same hub with an ARMED commit. -/
def crowdArmed : State := { crowd with commit := { crowd.commit with state := .armed } }

theorem sound_asking : Sound asking :=
  sound_of (onTL0 [(false, 15)]) (by decide +kernel) (by decide +kernel) (by decide +kernel) (by decide +kernel) (by decide +kernel)

theorem witness_EnumReplyIsMatched :
    (Sound asking ∧ asking.commit.state = .idle ∧ (∀ ref, (asking.links.get 0).entry 15 ≠ .listed ref)
      ∧ Ends asking 0 (lastFlight (enumTxn false 15)) (.linkReply 0 (reply .enumQuery 1 [])) (some (.refused, .nothing)) asking.now
      ∧ Answered asking false 15 0 24 0 ∧ Answered asking false 15 0xFFFFFFFFFFFFFFFF 24 0 ∧ Answered asking false 15 0x33 0 0
      ∧ Answered asking false 15 0x11 24 0 ∧ Answered asking false 15 0x22 24 0 ∧ Answered asking false 15 0x33 1 0
      ∧ tileA.uid = 0x11 ∧ tileB.uid = 0x22 ∧ asking.dir.freeList = 2 :: List.range' 3 77)
    ∧ (Sound marked ∧ (∃ m ∈ marked.dir.marks, m.uid = 0x33) ∧ Answered marked false 15 0x33 24 0)
    ∧ (Sound crowd ∧ crowd.commit.state = .idle ∧ crowd.dir.freeList = [] ∧ crowd.dir.staleList = 1 :: List.range' 2 79
      ∧ (∀ r ∈ crowd.dir.records, r.uid ≠ 0x99) ∧ Answered crowd false 15 0x99 24 0)
    ∧ (Sound crowdArmed ∧ crowdArmed.commit.state = .armed ∧ Answered crowdArmed false 15 0x99 24 0)
    ∧ (Sound (scanningHub 0 (enumTxn true 0)) ∧ ((scanningHub 0 (enumTxn true 0)).links.get 0).entry 0 = .listed tileA.ref
      ∧ Answered (scanningHub 0 (enumTxn true 0)) true 0 0x11 24 1 ∧ Answered (scanningHub 0 (enumTxn true 0)) true 0 0x33 24 1)
    ∧ (Rests asking ∧ Rests marked ∧ Rests crowd ∧ Rests crowdArmed ∧ Rests (scanningHub 0 (enumTxn true 0)))
    ∧ ∀ y ∈ phases, let s := during y.1 .lenient y.2 (scanningHub 0 (enumTxn true 0))
      CSound s ∧ Rests s ∧ Answered s true 0 0x11 24 1 ∧ Answered s true 0 0x33 24 1 :=
  ⟨⟨sound_asking, by decide +kernel, not_listed (by decide +kernel), ends_reply (by decide +kernel), answered_of (by decide +kernel) (by decide +kernel),
      answered_of (by decide +kernel) (by decide +kernel), answered_of (by decide +kernel) (by decide +kernel), answered_of (by decide +kernel) (by decide +kernel), answered_of (by decide +kernel) (by decide +kernel),
      answered_of (by decide +kernel) (by decide +kernel), by decide +kernel⟩,
    ⟨sound_of (onTL0 [(false, 15)]) (by decide +kernel) (by decide +kernel) (by decide +kernel) (by decide +kernel) (by decide +kernel), by decide +kernel,
      answered_of (by decide +kernel) (by decide +kernel)⟩,
    ⟨sound_of (onTL0 [(false, 15)]) (by decide +kernel) (by decide +kernel) (by decide +kernel) (by decide +kernel) (by decide +kernel), by decide +kernel,
      by decide +kernel, by decide +kernel, by decide +kernel, answered_of (by decide +kernel) (by decide +kernel)⟩,
    ⟨sound_of (onTL0 [(false, 15)]) (by decide +kernel) (by decide +kernel) (by decide +kernel) (by decide +kernel) (by decide +kernel), by decide +kernel,
      answered_of (by decide +kernel) (by decide +kernel)⟩,
    ⟨sound_of (onTL0 [(true, 0)]) (by decide +kernel) (by decide +kernel) (by decide +kernel) (by decide +kernel) (by decide +kernel), by decide +kernel, answered_of (by decide +kernel) (by decide +kernel), answered_of (by decide +kernel) (by decide +kernel)⟩,
    ⟨rests_of (by decide +kernel), rests_of (by decide +kernel), rests_of (by decide +kernel), rests_of (by decide +kernel), rests_of (by decide +kernel)⟩,
    forall_phases
      ⟨csound_of (sound_of (onTL0 [(true, 0)]) (by decide +kernel) (by decide +kernel) (by decide +kernel) (by decide +kernel) (by decide +kernel)) (by decide +kernel) (by decide +kernel) (by decide +kernel), rests_of (by decide +kernel), answered_of (by decide +kernel) (by decide +kernel), answered_of (by decide +kernel) (by decide +kernel)⟩
      ⟨csound_of (sound_of (onTL0 [(true, 0)]) (by decide +kernel) (by decide +kernel) (by decide +kernel) (by decide +kernel) (by decide +kernel)) (by decide +kernel) (by decide +kernel) (by decide +kernel), rests_of (by decide +kernel), answered_of (by decide +kernel) (by decide +kernel), answered_of (by decide +kernel) (by decide +kernel)⟩
      ⟨csound_of (sound_of (onTL0 [(true, 0)]) (by decide +kernel) (by decide +kernel) (by decide +kernel) (by decide +kernel) (by decide +kernel)) (by decide +kernel) (by decide +kernel) (by decide +kernel), rests_of (by decide +kernel), answered_of (by decide +kernel) (by decide +kernel), answered_of (by decide +kernel) (by decide +kernel)⟩⟩

theorem witness_ScanStepsGoOnOrEnd :
    (∀ hop ∈ [14, 15], Sound (scanningHub hop (enumTxn true hop)) ∧ Rests (scanningHub hop (enumTxn true hop))
      ∧ (∀ ref, ((scanningHub hop (enumTxn true hop)).links.get 0).entry hop ≠ .listed ref)
      ∧ Ends (scanningHub hop (enumTxn true hop)) 0 (lastFlight (enumTxn true hop)) (.linkReply 0 (reply .enumQuery 1 []))
          (some (.refused, .nothing)) (scanningHub hop (enumTxn true hop)).now)
    ∧ (Sound (scanningHub 0 (enumTxn true 0))
      ∧ Ends (scanningHub 0 (enumTxn true 0)) 0 (lastFlight (enumTxn true 0)) (.replyTimeout 0) none 4000020)
    ∧ (Sound asking ∧ Rests asking ∧ Ends asking 0 (lastFlight (enumTxn false 15)) (.replyTimeout 0) none 4000020)
    ∧ (∀ gone, NoneLost (scanningHub 0 (enumTxn true 0)) gone ∧ NoneLost (armed (scanningHub 0 (enumTxn true 0))) gone)
    ∧ ∀ y ∈ phases, let s := during y.1 .strict y.2 (scanningHub 0 (enumTxn true 0))
      CSound s ∧ Rests s ∧ Ends s 0 (lastFlight (enumTxn true 0)) (.replyTimeout 0) none 4000020 := by
  refine ⟨?_, ⟨sound_of (onTL0 [(true, 0)]) (by decide +kernel) (by decide +kernel) (by decide +kernel) (by decide +kernel) (by decide +kernel), ends_timeout (by decide +kernel)⟩,
    ⟨sound_asking, rests_of (by decide +kernel), ends_timeout (by decide +kernel)⟩, fun _ => ⟨.inl rfl, noneLost_armed rfl⟩,
    forall_phases
      ⟨csound_of (sound_of (onTL0 [(true, 0)]) (by decide +kernel) (by decide +kernel) (by decide +kernel) (by decide +kernel) (by decide +kernel)) (by decide +kernel) (by decide +kernel) (by decide +kernel), rests_of (by decide +kernel), ends_timeout (by decide +kernel)⟩
      ⟨csound_of (sound_of (onTL0 [(true, 0)]) (by decide +kernel) (by decide +kernel) (by decide +kernel) (by decide +kernel) (by decide +kernel)) (by decide +kernel) (by decide +kernel) (by decide +kernel), rests_of (by decide +kernel), ends_timeout (by decide +kernel)⟩
      ⟨csound_of (sound_of (onTL0 [(true, 0)]) (by decide +kernel) (by decide +kernel) (by decide +kernel) (by decide +kernel) (by decide +kernel)) (by decide +kernel) (by decide +kernel) (by decide +kernel), rests_of (by decide +kernel), ends_timeout (by decide +kernel)⟩⟩
  intro hop h
  have : hop = 14 ∨ hop = 15 := by simpa using h
  rcases this with rfl | rfl
  · exact ⟨sound_of (onTL0 [(true, 14)]) (by decide +kernel) (by decide +kernel) (by decide +kernel) (by decide +kernel)
      (by decide +kernel), rests_of (by decide +kernel), not_listed (by decide +kernel), ends_reply (by decide +kernel)⟩
  · exact ⟨sound_of (onTL0 [(true, 15)]) (by decide +kernel) (by decide +kernel) (by decide +kernel) (by decide +kernel)
      (by decide +kernel), rests_of (by decide +kernel), not_listed (by decide +kernel), ends_reply (by decide +kernel)⟩

/-- The hub with an ASSIGN in progress on TL0, its mark, and the free handles. -/
def assigning (a : Assignment) (e : LinkEngine) (free : List Nat) : State :=
  { hubLink { e with assigning := some a } with dir := { hub.dir with freeList := free, marks := [a.mark 0] } }

/-- The re-bind of handle 80 at TL0 hop 1. -/
def rebindB : Assignment := { hop := 1, kind := .assigningRebind, ref := ⟨80, 15⟩, info := ⟨0x22, 7, 24, ⟨0, 0⟩, 0⟩, full := false }

/-- The same of a record that is gone. -/
def rebindGone : Assignment := { rebindB with ref := ⟨79, 3⟩, info := ⟨0x55, 7, 24, ⟨0, 0⟩, 0⟩ }

theorem witness_AssignCreatesOrRebinds :
    (∀ a ∈ [assigningA, rebindB, rebindGone],
      let s := assigning a { runningLink ⟨1, 0⟩ with flight := some (lastFlight a.txn) }
        (if a.kind = .assigningNew then List.range' 2 77 else List.range' 2 78)
      Sound s ∧ Rests s ∧ Rests (armed s) ∧ Ends s 0 (lastFlight a.txn) (.linkReply 0 (reply (.assign ⟨1, 0⟩) 0 [])) (some (.ok, .nothing)) s.now
        ∧ Ends s 0 (lastFlight a.txn) (.replyTimeout 0) none 4000020)
    ∧ ∀ hop ∈ [14, 15],
      let a : Assignment := { assigningA with hop := hop, full := true }
      let s := assigning a (scanningLink hop a.txn) (List.range' 2 77)
      Sound s ∧ Rests s ∧ Ends s 0 (lastFlight a.txn) (.replyTimeout 0) none 4000020 := by
  refine ⟨?_, ?_⟩
  · intro a h
    have : a = assigningA ∨ a = rebindB ∨ a = rebindGone := by simpa using h
    rcases this with rfl | rfl | rfl <;>
      exact ⟨sound_of (onTL0 []) (by decide +kernel) (by decide +kernel) (by decide +kernel) (by decide +kernel) (by decide +kernel),
        rests_of (by decide +kernel), rests_of (by decide +kernel), ends_reply (by decide +kernel), ends_timeout (by decide +kernel)⟩
  · intro hop h
    have : hop = 14 ∨ hop = 15 := by simpa using h
    rcases this with rfl | rfl <;>
      exact ⟨sound_of (onTL0 []) (by decide +kernel) (by decide +kernel) (by decide +kernel) (by decide +kernel) (by decide +kernel),
        rests_of (by decide +kernel), ends_timeout (by decide +kernel)⟩

/-- A full scan of TL0 in which a roll call runs. -/
def scanningRoll : State :=
  hubLink { scanningLink 0 (rollTxn .periodic .engine) with scanQ := [enumTxn true 0] }

theorem witness_RollCallIsProcessedHopByHop :
    (Sound (onWire (rollTxn .periodic .engine)) ∧ Rests (freed (onWire (rollTxn .periodic .engine)) 0)
      ∧ Ends (onWire (rollTxn .periodic .engine)) 0 (lastFlight (rollTxn .periodic .engine))
          (.linkReply 0 (reply .rollCall 0 [2, 1, 0, 0, 0, 0, 0, 0, 0])) (some (.ok, .roll [⟨⟨1, 0⟩, 0⟩, ⟨⟨0, 0⟩, 0⟩]))
          (onWire (rollTxn .periodic .engine)).now
      ∧ rollCauses (onWire (rollTxn .periodic .engine)) 0 [⟨⟨1, 0⟩, 0⟩, ⟨⟨0, 0⟩, 0⟩] 1
      ∧ Ends (onWire (rollTxn .periodic .engine)) 0 (lastFlight (rollTxn .periodic .engine)) (.replyTimeout 0) none 4000020)
    ∧ (Sound scanningRoll ∧ (scanningRoll.links.get 0).state = .scanning
      ∧ Rests (freed scanningRoll 0) ∧ Ends scanningRoll 0 (lastFlight (rollTxn .periodic .engine)) (.replyTimeout 0) none 4000020)
    ∧ (∀ gone, NoneLost (onWire (rollTxn .periodic .engine)) gone ∧ NoneLost (armed (onWire (rollTxn .periodic .engine))) gone)
    ∧ ∀ y ∈ phases, let s := during y.1 .strict y.2 (onWire (rollTxn .periodic .engine))
      CSound s ∧ Rests (freed s 0) ∧ Ends s 0 (lastFlight (rollTxn .periodic .engine)) (.replyTimeout 0) none 4000020 :=
  ⟨⟨sound_of (onTL0 []) (by decide +kernel) (by decide +kernel) (by decide +kernel) (by decide +kernel) (by decide +kernel),
      rests_of (by decide +kernel), ends_reply (by decide +kernel), ⟨⟨⟨0, 0⟩, 0⟩, by decide +kernel, .inl (by decide +kernel)⟩,
      ends_timeout (by decide +kernel)⟩,
    ⟨sound_of (onTL0 [(true, 0)]) (by decide +kernel) (by decide +kernel) (by decide +kernel) (by decide +kernel) (by decide +kernel), by decide +kernel, rests_of (by decide +kernel), ends_timeout (by decide +kernel)⟩, fun _ => ⟨.inl rfl, noneLost_armed rfl⟩,
    forall_phases
      ⟨csound_of (sound_of (onTL0 []) (by decide +kernel) (by decide +kernel) (by decide +kernel) (by decide +kernel) (by decide +kernel)) (by decide +kernel) (by decide +kernel) (by decide +kernel), rests_of (by decide +kernel), ends_timeout (by decide +kernel)⟩
      ⟨csound_of (sound_of (onTL0 []) (by decide +kernel) (by decide +kernel) (by decide +kernel) (by decide +kernel) (by decide +kernel)) (by decide +kernel) (by decide +kernel) (by decide +kernel), rests_of (by decide +kernel), ends_timeout (by decide +kernel)⟩
      ⟨csound_of (sound_of (onTL0 []) (by decide +kernel) (by decide +kernel) (by decide +kernel) (by decide +kernel) (by decide +kernel)) (by decide +kernel) (by decide +kernel) (by decide +kernel), rests_of (by decide +kernel), ends_timeout (by decide +kernel)⟩⟩

/-! ### Witnesses: catch-up -/

/-- The hub with handle 1 JOINING, its job on TL0 and a transaction of the job on the wire. -/
def catching (j : Job) (miss : Nat) (b : Body) : State :=
  { onWire { dest := .directed 0, body := b, cls := .catchUp, req := .job ⟨1, 0⟩ } with
    dir := { hub.dir with records := [{ tileA with state := .joining, miss := miss }, tileB] }
    jobs := hub.jobs.put 0 [j] }

/-- The job in its first round of n pairs and two rounds, with so many restarts. -/
def jobOf (n restarts : Nat) (phase : JobPhase) : Job :=
  { jobA with list := List.replicate n ⟨239, 10⟩, roundCount := 2, phase := phase, turn := true, restarts := restarts }

/-- The PREPARE and the APPLY on the wire. -/
def prepareA : Body := .prepare 0 true false (List.replicate 6 ⟨239, 10⟩)
def applyA : Body := .apply 0

/-- The transaction of the job on the wire. -/
def jobFlight (b : Body) : Flight := lastFlight { dest := .directed 0, body := b, cls := .catchUp, req := .job ⟨1, 0⟩ }

/-- The hub in which that transaction was on the wire at a COMMIT. -/
def suspended (j : Job) (miss : Nat) (b : Body) : State :=
  { catching j miss b with links := (catching j miss b).links.modify 0 LinkEngine.suspendFlight }

/-- The transaction of the job, suspended. -/
def suspendedFlight (b : Body) : Flight :=
  lastFlight { dest := .directed 0, body := b, cls := .catchUp, req := .suspendedJob ⟨1, 0⟩ }

/-- The result of an APPLY that was on the wire at a COMMIT is discarded (R161), and its job prepares again in IDLE (R162). -/
theorem test_result_discarded :
    let c := Instr.linkReply 0 (reply applyA 0 [0, 0])
    let j := jobOf 7 0 .applying
    (after (exec c (armed (suspended j 0 applyA)))).jobs.get 0 = [{ j with phase := .preparing, reprepare := true }]
    ∧ ((after (exec c (suspended j 0 applyA))).jobs.get 0).map (fun j => (j.phase, j.reprepare, j.list.length))
      = [(.preparing, false, 3)] := by decide +kernel

theorem witness_CatchUpTransactionsEnd :
    (∀ miss ∈ [1, 2], let j := jobOf 7 0 .applying; let s := suspended j miss applyA
      Sound s ∧ Sound (armed s) ∧ Rests (freed s 0) ∧ Rests (freed (armed s) 0) ∧ (suspendedFlight applyA).txn.body.countsMisses = true
        ∧ Sole (fun x => x.ref = j.ref) (allJobs s) j ∧ j ∈ s.jobs.get 0 ∧ 1 ≤ j.round ∧ j.turn = true
        ∧ (s.links.get 0).entry 0 = .listed ⟨1, 0⟩ ∧ (s.links.get 0).state = .running ∧ (s.links.get 0).catchQ = []
        ∧ (∀ u ∈ [s, armed s], Ends u 0 (suspendedFlight applyA) (.linkReply 0 (reply applyA 0 [0, 0])) (some (.ok, .epoch 0)) u.now
          ∧ Ends u 0 (suspendedFlight applyA) (.replyTimeout 0) none 4000020))
    ∧ (∀ n ∈ [6, 7], let j := jobOf n 3 .preparing; let s := catching j 2 prepareA
      Sound s ∧ s.commit.state = .idle ∧ Rests (freed s 0) ∧ Sole (fun x => x.ref = j.ref) (allJobs s) j ∧ j ∈ s.jobs.get 0 ∧ 1 ≤ j.round
        ∧ (s.links.get 0).entry 0 = .listed ⟨1, 0⟩
        ∧ Ends s 0 (jobFlight prepareA) (.linkReply 0 (reply prepareA 0 [])) (some (.ok, .nothing)) s.now
        ∧ Ends s 0 (jobFlight prepareA) (.linkReply 0 (reply prepareA 1 [])) (some (.refused, .nothing)) s.now
        ∧ Ends s 0 (jobFlight prepareA) (.replyTimeout 0) none 4000020)
    ∧ ∀ r ∈ [1, 2], let j := { jobOf 7 2 .applying with round := r }; let s := catching j 0 applyA
      Sound s ∧ Sole (fun x => x.ref = j.ref) (allJobs s) j ∧ j ∈ s.jobs.get 0
        ∧ Ends s 0 (jobFlight applyA) (.linkReply 0 (reply applyA 0 [0, 0])) (some (.ok, .epoch 0)) s.now
        ∧ Ends s 0 (jobFlight applyA) (.linkReply 0 (reply applyA 3 [0, 7])) (some (.badEpoch, .epoch 7)) s.now
        ∧ Ends s 0 (jobFlight applyA) (.replyTimeout 0) none 4000020 := by
  refine ⟨?_, ?_, ?_⟩
  · intro miss h
    have : miss = 1 ∨ miss = 2 := by simpa using h
    rcases this with rfl | rfl <;>
      (refine ⟨sound_of (onTL0 []) (by decide +kernel) (by decide +kernel) (by decide +kernel) (by decide +kernel) (by decide +kernel), sound_of (onTL0 []) (by decide +kernel) (by decide +kernel) (by decide +kernel) (by decide +kernel) (by decide +kernel), rests_of (by decide +kernel), rests_of (by decide +kernel), by decide +kernel, sole_of (by decide +kernel), by decide +kernel, by decide +kernel, by decide +kernel, by decide +kernel,
        by decide +kernel, by decide +kernel, ?_⟩
       intro u h
       rcases List.mem_cons.1 h with rfl | h
       · exact ⟨ends_reply (by decide +kernel), ends_timeout (by decide +kernel)⟩
       · obtain rfl := List.mem_singleton.1 h
         exact ⟨ends_reply (by decide +kernel), ends_timeout (by decide +kernel)⟩)
  · intro n h
    have : n = 6 ∨ n = 7 := by simpa using h
    rcases this with rfl | rfl <;>
      exact ⟨sound_of (onTL0 []) (by decide +kernel) (by decide +kernel) (by decide +kernel) (by decide +kernel)
        (by decide +kernel), by decide +kernel, rests_of (by decide +kernel), sole_of (by decide +kernel), by decide +kernel, by decide +kernel,
        by decide +kernel, ends_reply (by decide +kernel), ends_reply (by decide +kernel), ends_timeout (by decide +kernel)⟩
  · intro r h
    have : r = 1 ∨ r = 2 := by simpa using h
    rcases this with rfl | rfl <;>
      exact ⟨sound_of (onTL0 []) (by decide +kernel) (by decide +kernel) (by decide +kernel) (by decide +kernel)
        (by decide +kernel), sole_of (by decide +kernel), by decide +kernel, ends_reply (by decide +kernel),
        ends_reply (by decide +kernel), ends_timeout (by decide +kernel)⟩

/-! ### Witnesses: the course of a commit -/

/-- A committing hub with a transaction on the wire of TL0 and a miss count of handle 1. -/
def committingWire (cs : CommitState) (p : Policy) (st : PartStatus) (t : Txn) (miss : Nat) : State :=
  { committing cs p st with
    dir := { hub.dir with records := [{ tileA with miss := miss }, tileB] }
    links := hub.links.put 0 { runningLink ⟨1, 0⟩ with flight := some (lastFlight t) } }

/-- The participant's PREPARE, APPLY and CANCEL, and the controller's roll call. -/
def partPrepare : Txn := partTxn (partA .unprepared) (.prepare 1 true true [⟨239, 10⟩])
def partApply : Txn := partTxn (partA .unconfirmed) (.apply 1)
def partCancel : Txn := partTxn (partA .prepared) (.cancel 1)
def verifyRoll : Txn := rollTxn .commit .controller

theorem witness_PrepareAnswersSettleTheParticipant :
    (preparingHub.phase = .operating ∧ (∀ bytes, ¬ Late preparingHub 0 bytes)
    ∧ waitingFlight preparingHub 0
      = some { readFlight 1 with txn := partTxn (partA .unprepared) (.prepare 1 true true [⟨239, 10⟩]) }
    ∧ judgeReply (.prepare 1 true true [⟨239, 10⟩]) 3 [0x33, 0x00, 0x00, 0x50, 0x69] = .good .ok .nothing
    ∧ preparingHub.commit.state = .preparing
    ∧ Sole (fun q => q.ref = (partA .unprepared).ref) preparingHub.commit.participants (partA .unprepared)
    ∧ (partA .unprepared).status = .unprepared
    ∧ (partA .unprepared).acked + 1 = ((partA .unprepared).pairs.length + 5) / 6)
    ∧ ∀ p ∈ [Policy.strict, .lenient], let s := committingWire .preparing p .unprepared partPrepare 1
      CSound s ∧ s.commit.state = .preparing ∧ partA .unprepared ∈ s.commit.participants ∧ { tileA with miss := 1 } ∈ s.dir.records
        ∧ Ends s 0 (lastFlight partPrepare) (.linkReply 0 (reply partPrepare.body 1 [])) (some (.refused, .nothing)) s.now
        ∧ Ends s 0 (lastFlight partPrepare) (.replyTimeout 0) none 4000020 := by
  refine ⟨⟨by decide +kernel, fun _ => not_late (by decide +kernel), by decide +kernel, by decide +kernel, by decide +kernel,
    sole_of (by decide +kernel),
    by decide +kernel⟩, ?_⟩
  intro p h
  have : p = .strict ∨ p = .lenient := by simpa using h
  rcases this with rfl | rfl <;>
    exact ⟨csound_of (sound_of (onTL0 []) (by decide +kernel) (by decide +kernel) (by decide +kernel) (by decide +kernel)
        (by decide +kernel)) (by decide +kernel) (by decide +kernel) (by decide +kernel), by decide +kernel, by decide +kernel,
      by decide +kernel, ends_reply (by decide +kernel), ends_timeout (by decide +kernel)⟩

theorem witness_VerificationSettlesTheParticipants :
    (let s := committingWire .applying .strict .unconfirmed verifyRoll 0;
      CSound s ∧ s.commit.state = .applying ∧ partA .unconfirmed ∈ s.commit.participants
        ∧ (∀ es ∈ [[⟨⟨1, 0⟩, 0⟩], [⟨⟨1, 0⟩, 7⟩], ([⟨⟨2, 0⟩, 0⟩] : List RollEntry)],
            ∃ c, Ends s 0 (lastFlight verifyRoll) c (some (.ok, .roll es)) s.now)
        ∧ Ends s 0 (lastFlight verifyRoll) (.replyTimeout 0) none 4000020)
    ∧ ∀ miss ∈ [1, 2], let s := committingWire .applying .strict .unconfirmed partApply miss;
      CSound s ∧ partA .unconfirmed ∈ s.commit.participants ∧ ({ tileA with miss := miss } : Record) ∈ s.dir.records
        ∧ Ends s 0 (lastFlight partApply) (.linkReply 0 (reply (.apply 1) 0 [0, 0])) (some (.ok, .epoch 0)) s.now
        ∧ Ends s 0 (lastFlight partApply) (.linkReply 0 (reply (.apply 1) 1 [])) (some (.refused, .nothing)) s.now
        ∧ Ends s 0 (lastFlight partApply) (.replyTimeout 0) none 4000020 := by
  refine ⟨⟨csound_of (sound_of (onTL0 []) (by decide +kernel) (by decide +kernel) (by decide +kernel) (by decide +kernel)
      (by decide +kernel)) (by decide +kernel) (by decide +kernel) (by decide +kernel), by decide +kernel, by decide +kernel, ?_,
      ends_timeout (by decide +kernel)⟩, ?_⟩
  · intro es h
    have h : es = [⟨⟨1, 0⟩, 0⟩] ∨ es = [⟨⟨1, 0⟩, 7⟩] ∨ es = [⟨⟨2, 0⟩, 0⟩] := by simpa using h
    rcases h with rfl | rfl | rfl
    · exact ⟨.linkReply 0 (reply .rollCall 0 [1, 1, 0, 0, 0]), ends_reply (by decide +kernel)⟩
    · exact ⟨.linkReply 0 (reply .rollCall 0 [1, 1, 0, 0, 7]), ends_reply (by decide +kernel)⟩
    · exact ⟨.linkReply 0 (reply .rollCall 0 [1, 2, 0, 0, 0]), ends_reply (by decide +kernel)⟩
  · intro miss h
    have : miss = 1 ∨ miss = 2 := by simpa using h
    rcases this with rfl | rfl <;>
      exact ⟨csound_of (sound_of (onTL0 []) (by decide +kernel) (by decide +kernel) (by decide +kernel) (by decide +kernel)
          (by decide +kernel)) (by decide +kernel) (by decide +kernel) (by decide +kernel), by decide +kernel, by decide +kernel,
        ends_reply (by decide +kernel), ends_reply (by decide +kernel), ends_timeout (by decide +kernel)⟩

theorem witness_LostParticipantsAndCancelsEnd :
    (∀ x ∈ [(CommitState.preparing, PartStatus.unprepared), (.armed, .prepared), (.applying, .unconfirmed)], ∀ p ∈ [Policy.strict, .lenient],
      let s := committing x.1 p x.2
      CSound s ∧ TakesDown s (.lockLoss 0) (fun k => k == 0) ∧ TakesDown s (.linkDisable 3 0) (fun k => k == 0)
        ∧ TakesDown s (.clearLinks 3) (fun k => (s.links.get k).state != .disabled) ∧ partA x.2 ∈ s.commit.participants)
    ∧ (let s := committingWire .cancelling .strict .prepared partCancel 2
      CSound s ∧ s.commit.state = .cancelling ∧ s.commit.reason = some .host ∧ partA .prepared ∈ s.commit.participants
        ∧ { tileA with miss := 2 } ∈ s.dir.records
        ∧ Ends s 0 (lastFlight partCancel) (.linkReply 0 (reply (.cancel 1) 0 [])) (some (.ok, .nothing)) s.now) := by
  refine ⟨?_, csound_of (sound_of (onTL0 []) (by decide +kernel) (by decide +kernel) (by decide +kernel) (by decide +kernel)
      (by decide +kernel)) (by decide +kernel) (by decide +kernel) (by decide +kernel), by decide +kernel, by decide +kernel,
    by decide +kernel, by decide +kernel, ends_reply (by decide +kernel)⟩
  intro x hx p hp
  have hx : x = (.preparing, .unprepared) ∨ x = (.armed, .prepared) ∨ x = (.applying, .unconfirmed) := by simpa using hx
  have hp : p = .strict ∨ p = .lenient := by simpa using hp
  rcases hx with rfl | rfl | rfl <;> rcases hp with rfl | rfl <;>
    exact ⟨csound_of (sound_of (onTL0 []) (by decide +kernel) (by decide +kernel) (by decide +kernel) (by decide +kernel)
        (by decide +kernel)) (by decide +kernel) (by decide +kernel) (by decide +kernel),
      .inl ⟨0, rfl, by decide +kernel, by decide +kernel, rfl⟩,
      .inr (.inl ⟨3, 0, 3, 0, rfl, accepts_of (by decide +kernel), by decide, by decide +kernel, rfl⟩),
      .inr (.inr ⟨3, 3, rfl, accepts_of (by decide +kernel), by decide +kernel, rfl⟩), by decide +kernel⟩

theorem witness_CommitComputesItsPackets :
    hub.store.Pairwise (fun a b => a.rank < b.rank) ∧ hub.staging.Pairwise (fun a b => sameTarget a.target b.target = false)
    ∧ Change.setVal .wall 63 10 ∈ hub.staging ∧ Change.place ⟨1, 0⟩ ⟨31, 31⟩ true ∈ hub.staging ∧ Change.groups ⟨1, 0⟩ 3 ∈ hub.staging
    ∧ Sole (fun x => x.ref = tileA.ref) hub.dir.records tileA ∧ (partA .unprepared).pairs.length = 1 :=
  ⟨by decide +kernel, by decide +kernel, by decide +kernel, by decide +kernel, by decide +kernel, sole_of (by decide +kernel), rfl⟩

/-! ### Witnesses: the arbiter -/

/-- The hub with a broadcast on the wire of TL0, a transaction in each class behind it, and a host run. -/
def queued (run : Nat) (commit scan host catchUp : List Txn) : State :=
  hubLink { runningLink ⟨1, 0⟩ with
    flight := some applyFlight, commitQ := commit, scanQ := scan, hostQ := host, catchQ := catchUp, hostRun := run, rollDue := true
    rollMet := true }

/-- A directed APPLY of a job, as it waits. -/
def jobApply : Txn := { dest := .directed 0, body := .apply 0, cls := .catchUp, req := .job ⟨1, 0⟩ }

/-- The example reply of section 10.10 carries its value, and the packet of that PARAM_READ its CRC-16 (R193). -/
theorem test_read_packet :
    (directTxn 0 (.paramRead 16) 1).packet 3 = [0x63, 0x00, 0x01, 0x10] ++ halfBytes (crc16 [0x63, 0x00, 0x01, 0x10])
    ∧ judgeReply (.paramRead 16) 3 readReply = .good .ok (.value 640) ∧ crc16 [0x63, 0x00, 0x02, 0x02, 0x80] = 0x7F88 := by decide +kernel

/-- A PREPARE of six pairs to hop 15. -/
def sixPairs : Txn := partTxn { partA .unprepared with loc := ⟨3, 15⟩ } (.prepare 0xFFFF true true (List.replicate 6 ⟨239, 10⟩))

theorem witness_PacketsAndRepliesAreLaidOut :
    15 < 16 ∧ (∀ h, sixPairs.dest = .directed h → h < 16)
    ∧ ∀ e first final ps, sixPairs.body = .prepare e first final ps → ps.length ≤ 6 := by
  refine ⟨by decide, fun h e => ?_, fun e a b ps h => ?_⟩
  · cases e; decide
  · cases h; decide

theorem witness_TheWireGoesByClassOrder :
    (∀ run ∈ [3, 4], ∀ c ∈ [[partApply], []], ∀ d ∈ [[enumTxn false 1], []], ∀ h ∈ [[directTxn 0 (.paramRead 16) 1], []],
      ∀ k ∈ [[jobApply], []], let s := queued run c d h k
      s.phase = .operating ∧ (s.links.get 0).overtaking = none ∧ (s.links.get 0).flight = some applyFlight
        ∧ applyFlight.txn.dest = .broadcast ∧ (s.links.get 0).caused = [] ∧ s.commit.state = .idle ∧ s.jobs.get 0 = []
        ∧ (s.links.get 0).state = .running)
    ∧ (let s := hubLink { scanningLink 2 applyFlight.txn with scanQ := [rollTxn .scan .engine, enumTxn true 2] }
      (s.links.get 0).state = .scanning ∧ (s.links.get 0).scanQ = [rollTxn .scan .engine] ++ enumTxn true 2 :: [])
    ∧ (let s := { committing .applying .strict .unconfirmed with
          links := hub.links.put 0 { runningLink ⟨1, 0⟩ with flight := some (readFlight 2), commitQ := applyTxns 1 } }
      waitingFlight s 0 = some (readFlight 2) ∧ (readFlight 2).attempt < (readFlight 2).allowed ∧ (s.links.get 0).state = .running
        ∧ (s.links.get 0).commitQ = applyFlight.txn :: [rollTxn .commit .controller] ∧ s.commit.state = .applying
        ∧ ∃ p ∈ s.commit.participants, p.status = .unconfirmed)
    ∧ (Rests (freed (queued 4 [] [] [directTxn 0 (.paramRead 16) 1] [jobApply]) 0)
      ∧ Rests (freed (armed (queued 4 [] [] [directTxn 0 (.paramRead 16) 1] [jobApply])) 0)) :=
  ⟨by decide +kernel, by decide +kernel, by decide +kernel, rests_of (by decide +kernel), rests_of (by decide +kernel)⟩

/-! ### Witnesses: direct access, clears, the whole hub -/

theorem witness_TileAccessIsQueuedOrRefused :
    (Accepts hub 3 3 ∧ Names hub ⟨(80 : Byte).toNat, (15 : Byte).toNat⟩ tileB ∧ tileB.state = .stale)
    ∧ (Names hub ⟨(1 : Byte).toNat, (0 : Byte).toNat⟩ tileA ∧ tileA.state ≠ .stale ∧ (∃ k ∈ hub.keys, k.addr = 239)
      ∧ ¬ ((∃ k ∈ hub.keys, k.addr = (242 : Byte)) ∨ (242 : Byte) = 240 ∨ (242 : Byte) = 241)) :=
  ⟨⟨accepts_hub, names_tileB, by decide⟩, names_tileA, by decide +kernel⟩

theorem witness_ClearLinksTrainsEveryEnabledLink :
    Sound lossy ∧ Accepts lossy 3 3 ∧ (∀ l, ¬ EndsWithLink (lossy.links.get l) 3) ∧ lossy.commit.state = .idle
    ∧ lossy.dir.records.Pairwise (fun x y => x.ref.handle ≠ y.ref.handle)
    ∧ (lossy.links.get 0).isUp = true ∧ EndsWithLink (lossy.links.get 0) 1
    ∧ lossy.port.tags.get 1 = .running (.tileRead ⟨1, 0⟩ 16) := by
  refine ⟨sound_lossy, accepts_of (by decide +kernel), ?_, by decide +kernel, by decide +kernel, by decide +kernel,
    .inr (.inl ⟨_, rfl, by decide +kernel⟩), by decide +kernel⟩
  have hq : ∀ l, (lossy.links.get l).hostQ = [] := by decide +kernel
  have hs : ∀ l, (lossy.links.get l).scan = none := by decide +kernel
  have hf : ∀ l, ∀ f ∈ (lossy.links.get l).flight.toList, f.txn.req ≠ .tag 3 := by decide +kernel
  rintro l (⟨x, hx, -⟩ | ⟨f, h, hr⟩ | ⟨sc, h, -⟩)
  · rw [hq l] at hx; cases hx
  · exact hf l f (by rw [h]; simp) hr
  · rw [hs l] at h; cases h

theorem witness_ClearAllEmptiesEveryBlock : Accepts (reading 1 0) 3 3 ∧ (reading 1 0).dir.gens.length = 80 :=
  ⟨accepts_of (by decide +kernel), by decide +kernel⟩



theorem witness_ClearIntervalAndDeviceReset :
    ((hub.phase = .operating ∧ hub.port.clear = none)
    ∧ (({ hub with port := { hub.port with clear := some ⟨3, .all, 0, 0, 1⟩ } } : State).phase = .operating
      ∧ ({ hub with port := { hub.port with clear := some ⟨3, .all, 0, 0, 1⟩ } } : State).port.clear = some ⟨3, .all, 0, 0, 1⟩))
    ∧ (hub.phase ≠ .startup) :=
  ⟨(by
  decide +kernel), (by decide +kernel)⟩

/-- The hub that reads handle 1, with a command waiting. -/
def readingNext : State := { reading 1 0 with pending := [.identify 3] }

theorem sound_readingNext : Sound readingNext :=
  sound_of (onTL0 []) (by decide +kernel) (by decide +kernel) (by decide +kernel) (by decide +kernel) (by decide +kernel)

theorem witness_EveryStepKeepsTheShape : WellShaped readingNext ∧ ∃ s', step readingNext = .next s' := ⟨sound_readingNext.1, _, rfl⟩
theorem witness_EveryStepKeepsTheHubSound : Sound readingNext ∧ ∃ s', step readingNext = .next s' := ⟨sound_readingNext, _, rfl⟩
theorem witness_EveryStepKeepsTheTagsSound : Sound readingNext ∧ TagsSound readingNext ∧ ∃ s', step readingNext = .next s' :=
  ⟨sound_readingNext, tagsSound_of (by decide +kernel), _, rfl⟩

/-- The hub while a PREPARE is awaited, with a command waiting. -/
def preparingNext : State := { committing .preparing .strict .unprepared with pending := [.identify 3] }

theorem witness_EveryStepKeepsTheCommitSound :
    Sound preparingNext ∧ CommitSound preparingNext ∧ ∃ s', step preparingNext = .next s' :=
  ⟨sound_of (onTL0 []) (by decide +kernel) (by decide +kernel) (by decide +kernel) (by decide +kernel) (by decide +kernel),
    commitSound_of (by decide +kernel) (by decide +kernel) (by decide +kernel), _, rfl⟩
theorem witness_StagingIsFrozenDuringACommit :
    ∃ s', exec (.commitStatus 3) (committing .armed .strict .prepared) = .next s'
      ∧ (committing .armed .strict .prepared).commit.state ≠ .idle ∧ s'.commit.state ≠ .idle :=
  ⟨_, rfl, by decide +kernel, by decide +kernel⟩

theorem witness_EpochChangesOnlyAtAnApplyOrClear : ∃ s', exec (.clearAll 3) hub = .next s' := ⟨_, rfl⟩

end Sys2Proof.Tests
end

section
/-! PROOFS. The reads of the Key Table and the Setting Store (chapter 2): searches by key number, the range and the reference
check of a scope, then DESCRIBE_KEY and READ_ENTRY check by check. -/

namespace Sys2Proof.Machine

/-! ### Searches in the Key Table and the Setting Store -/

/-- A key number no key record has is undefined (R29). -/
theorem findKey_eq_none {s : State} {n : Nat} (h : ∀ x ∈ s.keys, x.number ≠ n) : findKey s n = none :=
  find_none fun x hx => by simpa using h x hx

/-- The key record of a key number is found (R29). -/
theorem Sole.findKey {s : State} {n : Nat} {x : KeyRec} (h : Sole (fun y => y.number = n) s.keys x) :
    Machine.findKey s n = some x :=
  h.find_of (by simp)

/-- A key number is defined when a key record has it (R29). -/
theorem findKey_isSome {s : State} {n : Nat} (h : ∃ x ∈ s.keys, x.number = n) : (findKey s n).isSome :=
  List.find?_isSome.mpr (by simpa using h)

/-- The entry at a scope and key is found (R35). -/
theorem Sole.findEntry {es : List Entry} {sc : Scope} {n : Nat} {e : Entry} (h : Sole (fun e => e.isAt sc n) es e) :
    Machine.findEntry es sc n = some e :=
  h.find

/-- No entry is found where none stands (R35). -/
theorem findEntry_eq_none {es : List Entry} {sc : Scope} {n : Nat} (h : ∀ e ∈ es, e.isAt sc n = false) :
    findEntry es sc n = none :=
  find_none h

/-! ### The checks of a key number and a scope -/

theorem badKeyNumber_of_gt {k : Byte} (h : 63 < k.toNat) : badKeyNumber k = true := decide_eq_true h

theorem badKeyNumber_of_le {k : Byte} (h : k.toNat ≤ 63) : badKeyNumber k = false := decide_eq_false (by omega)

theorem scopeGroupOk_iff (sc : Scope) : scopeGroupOk sc = true ↔ ∀ g, sc = .group g → g ≤ 15 := by
  cases sc <;> simp [scopeGroupOk]

/-- The range check of a request that carries a scope and a key refuses exactly the fields out of range (R39, R50, R58). -/
theorem badEntry_iff (sc : Scope) (k : Byte) :
    (badKeyNumber k = true ∨ (!scopeGroupOk sc) = true) ↔ ¬ EntryInRange sc k := by
  rw [EntryInRange, ← scopeGroupOk_iff, not_and_or, badKeyNumber, decide_eq_true_iff, Bool.not_eq_true', Bool.not_eq_true, not_le]

theorem EntryInRange.passes {sc : Scope} {k : Byte} (h : EntryInRange sc k) :
    badKeyNumber k = false ∧ scopeGroupOk sc = true :=
  have ⟨hkey, hgroup⟩ := h
  ⟨badKeyNumber_of_le hkey, (scopeGroupOk_iff sc).mpr hgroup⟩

@[simp] theorem scopeFailure_received (n : Nat) (sc : Scope) (s : State) : scopeFailure (received n s) sc = scopeFailure s sc := by
  cases sc <;> rfl

/-- A TILE scope whose reference fails its check gives the status of the failure (R2). -/
theorem FailsWith.scopeFailure {s : State} {ref : Ref} {st : Status} (h : FailsWith s ref st) :
    Machine.scopeFailure s (.tile ref) = some st := by
  obtain ⟨hc, rfl⟩ | ⟨hc, rfl⟩ := h.failure <;> simp [Machine.scopeFailure, hc, RefCheck.failure]

/-- A scope that carries no reference, or one that names a record, passes the reference check (R2). -/
theorem ScopeNames.scopeFailure {s : State} {sc : Scope} (h : ScopeNames s sc) : Machine.scopeFailure s sc = none := by
  cases sc with
  | wall => rfl
  | group g => rfl
  | tile ref =>
    obtain ⟨r, hr⟩ := h ref rfl
    simp [Machine.scopeFailure, hr.checkRef, RefCheck.failure]

/-! ### DESCRIBE_KEY (R34) -/

theorem exec_describeKey {s : State} {b : Byte} {t : Tag} (h : Accepts s b t) (k : Byte) :
    exec (.describeKey b k) s = .next (describeKey k t (received 1 s)) :=
  congrArg _ (submit_accepts h 1 (describeKey k))

theorem describeKey_badNumber {k : Byte} (h : 63 < k.toNat) (t : Tag) (s : State) :
    describeKey k t s = answer .describeKey .badParameter t s :=
  if_pos (badKeyNumber_of_gt h)

theorem describeKey_undefined {k : Byte} {s : State} (h : k.toNat ≤ 63) (hk : findKey s k.toNat = none) (t : Tag) :
    describeKey k t s = answer .describeKey .keyUndefined t s := by
  simp [describeKey, badKeyNumber_of_le h, hk]

theorem describeKey_defined {k : Byte} {s : State} {x : KeyRec} (h : k.toNat ≤ 63) (hk : findKey s k.toNat = some x) (t : Tag) :
    describeKey k t s = answerOk .describeKey (describeKeyResult s x) t s := by
  simp [describeKey, badKeyNumber_of_le h, hk]

/-- The result for the record of a key number begins with the byte that was asked for. -/
theorem describeKeyResult_of_number {k : Byte} {x : KeyRec} (h : x.number = k.toNat) (s : State) :
    describeKeyResult s x = [k, x.addr] ++ halfBytes x.dflt ++ halfBytes x.min ++ halfBytes x.max
      ++ [if x.introduced then 1 else 0]
      ++ halfBytes (BitVec.ofNat 16 (s.store.filter (fun e => e.key == k.toNat)).length)
      ++ [u8 (s.staging.filter (Change.namesKey k.toNat)).length] := by
  have hk : u8 k.toNat = k := by simp [u8]
  rw [describeKeyResult, h, hk]
  rfl

/-! ### READ_ENTRY (R39) -/

theorem exec_readEntry {s : State} {b : Byte} {t : Tag} (h : Accepts s b t) (f : ScopeField) (k : Byte) :
    exec (.readEntry b f k) s = .next (readEntry f k t (received 4 s)) :=
  congrArg _ (submit_accepts h 4 (readEntry f k))

theorem readEntry_badScope {f : ScopeField} (h : scopeOf f = none) (k : Byte) (t : Tag) (s : State) :
    readEntry f k t s = answer .readEntry .badParameter t s := by
  simp [readEntry, h]

section
variable {f : ScopeField} {sc : Scope} {k : Byte} {s : State} (hf : scopeOf f = some sc)
include hf

theorem readEntry_outOfRange (h : ¬ EntryInRange sc k) (t : Tag) :
    readEntry f k t s = answer .readEntry .badParameter t s := by
  simp only [readEntry, hf, if_pos ((badEntry_iff sc k).mpr h)]

variable (h : EntryInRange sc k)
include h

theorem readEntry_badRef {st : Status} (hr : scopeFailure s sc = some st) (t : Tag) :
    readEntry f k t s = answer .readEntry st t s := by
  simp [readEntry, hf, h.passes, hr]

variable (hr : scopeFailure s sc = none)
include hr

theorem readEntry_keyUndefined (hk : findKey s k.toNat = none) (t : Tag) :
    readEntry f k t s = answer .readEntry .keyUndefined t s := by
  simp [readEntry, hf, h.passes, hr, hk]

variable (hk : (findKey s k.toNat).isSome)
include hk

theorem readEntry_found {e : Entry} (he : findEntry s.store sc k.toNat = some e) (t : Tag) :
    readEntry f k t s = answerOk .readEntry (halfBytes e.value) t s := by
  simp [readEntry, hf, h.passes, hr, Option.ne_none_iff_isSome.mpr hk, he]

theorem readEntry_empty (he : findEntry s.store sc k.toNat = none) (t : Tag) :
    readEntry f k t s = answer .readEntry .empty t s := by
  simp [readEntry, hf, h.passes, hr, Option.ne_none_iff_isSome.mpr hk, he]

end

/-- Settles O16: each request is carried to its owner by acceptance, and each clause is one check of R34 or R39. -/
theorem keysAndEntriesAreRead : Obligations.KeysAndEntriesAreRead := by
  intro s b k t hacc
  refine ⟨⟨fun hk => ?_, fun hk hnone => ?_, fun hk x hx => ?_⟩, fun f hf => ?_,
    fun f sc hf => ⟨fun hout => ?_, fun hin => ⟨?_, fun hnames => ?_⟩⟩⟩
  · rw [exec_describeKey hacc, describeKey_badNumber hk, answer_received]
  · rw [exec_describeKey hacc, describeKey_undefined (s := received 1 s) hk (findKey_eq_none hnone), answer_received]
  · rw [exec_describeKey hacc, describeKey_defined (s := received 1 s) hk hx.findKey, answerOk_received,
      describeKeyResult_of_number hx.holds, received_store, received_staging]
  · rw [exec_readEntry hacc, readEntry_badScope hf, answer_received]
  · rw [exec_readEntry hacc, readEntry_outOfRange hf hout, answer_received]
  · rintro ref st rfl hfail
    have hr : scopeFailure (received 4 s) (.tile ref) = some st := by simpa using hfail.scopeFailure
    rw [exec_readEntry hacc, readEntry_badRef hf hin hr, answer_received]
  · have hr : scopeFailure (received 4 s) sc = none := by simpa using hnames.scopeFailure
    refine ⟨fun hnone => ?_, fun hkey => ⟨fun e he => ?_, fun hempty => ?_⟩⟩
    · rw [exec_readEntry hacc, readEntry_keyUndefined hf hin hr (findKey_eq_none hnone), answer_received]
    · rw [exec_readEntry hacc, readEntry_found hf hin hr (findKey_isSome hkey) he.findEntry, answerOk_received]
    · rw [exec_readEntry hacc, readEntry_empty hf hin hr (findKey_isSome hkey) (findEntry_eq_none hempty), answer_received]

end Sys2Proof.Machine
end

section
/-! PROOFS. LINK_STATUS (chapter 6): the link number of a request, the parts of the result as R125 lists them, then the request
itself. -/

namespace Sys2Proof.Machine

/-! ### The link number of a request -/

/-- A link number above 3 names no link. -/
theorem linkOf_eq_none {n : Byte} (h : 3 < n.toNat) : linkOf n = none := dif_neg (by omega)

/-- A link number of 0..3 names its link. -/
theorem linkOf_eq_some {n : Byte} {l : LinkId} (h : n.toNat = l.val) : linkOf n = some l := by
  have hlt : n.toNat < 4 := h ▸ l.isLt
  rw [linkOf, dif_pos hlt, Option.some_inj]
  exact Fin.ext h

/-! ### The result of a LINK_STATUS (R125) -/

theorem flightBytes_eq_elim (f : Option Flight) :
    flightBytes f = f.elim [0xFF, 0xFF] fun f => [u8 f.txn.body.ctorIdx, u8 f.txn.cls.ctorIdx] := by
  cases f <;> rfl

/-- The fields of the result in the order of R125. -/
theorem linkStatusResult_eq (e : LinkEngine) :
    linkStatusResult e = [u8 e.state.ctorIdx, u8 e.reach] ++ e.hops.flatMap HopEntry.bytes
      ++ [u8 e.timing.timeout, u8 e.timing.retries, u8 e.timing.missLimit, u8 e.timing.interval]
      ++ [if e.noLockMark then 1 else 0]
      ++ (e.flight.elim [0xFF, 0xFF] fun f => [u8 f.txn.body.ctorIdx, u8 f.txn.cls.ctorIdx])
      ++ [u8 e.commitQ.length, u8 e.scanQ.length, u8 e.hostQ.length, u8 e.catchQ.length]
      ++ [if e.rollDue then 1 else 0] := by
  rw [linkStatusResult, flightBytes_eq_elim, List.append_assoc _ [_, _, _, _] [_]]
  rfl

/-! ### LINK_STATUS (R125) -/

theorem exec_linkStatus {s : State} {b : Byte} {t : Tag} (h : Accepts s b t) (n : Byte) :
    exec (.linkStatus b n) s = .next (linkStatus n t (received 1 s)) :=
  congrArg _ (submit_accepts h 1 (linkStatus n))

theorem linkStatus_badLink {n : Byte} (h : 3 < n.toNat) (t : Tag) (s : State) :
    linkStatus n t s = answer .linkStatus .badParameter t s := by
  rw [linkStatus, linkOf_eq_none h]

theorem linkStatus_link {n : Byte} {l : LinkId} (h : n.toNat = l.val) (t : Tag) (s : State) :
    linkStatus n t s = answerOk .linkStatus (linkStatusResult (s.links.get l)) t s := by
  rw [linkStatus, linkOf_eq_some h]

/-- Settles O36: acceptance leaves the link engines as they stand, and the result lists the fields of the engine named. -/
theorem linkStatusShowsTheEngine : Obligations.LinkStatusShowsTheEngine := by
  intro s b n t hacc
  refine ⟨fun hbad => ?_, ?_⟩
  · rw [exec_linkStatus hacc, linkStatus_badLink hbad, answer_received]
  · rintro l e hl rfl
    rw [exec_linkStatus hacc, linkStatus_link hl, answerOk_received, received_links, linkStatusResult_eq]
    -- What is left is the layout of a hop entry (R191), which the statement writes out.
    rfl

end Sys2Proof.Machine
end

section
/-! PROOFS. COLLECT (R179): what the hub shifts out for the bytes it has to send, the transaction on the completion list in its
three cases, then the command. -/

namespace Sys2Proof.Machine

/-! ### Bytes shifted out and the bus -/

/-- Clocked whole, the bytes to send come out, and filler behind them (R192). -/
theorem shiftOut_of_length_le {bs : List Byte} {n : Nat} (h : bs.length ≤ n) :
    shiftOut bs n = bs ++ List.replicate (n - bs.length) filler := by
  rw [shiftOut, List.take_of_length_le h]

/-- Cut short, the bytes to send come out as far as they are clocked, without filler (R192). -/
theorem shiftOut_of_le_length {bs : List Byte} {n : Nat} (h : n ≤ bs.length) : shiftOut bs n = bs.take n := by
  rw [shiftOut, Nat.sub_eq_zero_of_le h, List.replicate_zero, List.append_nil]

/-- What is shifted out is the beginning of the bytes to send with filler without end behind them (R192). -/
theorem shiftOut_eq_take (bs : List Byte) (n : Nat) : shiftOut bs n = (bs ++ List.replicate n filler).take n := by
  rw [shiftOut, List.take_append, List.take_replicate, Nat.min_eq_left (Nat.sub_le n bs.length)]

/-- Out of device reset the port takes the transaction on the bus (R174, R190). -/
theorem onBus_of_outOfReset {s : State} (h : s.phase ≠ .inReset) (transaction : State → State) :
    onBus transaction s = transaction s :=
  if_neg h

/-! ### COLLECT (R179) -/

section
variable {s : State} {n : Nat} {c : Completion} {rest : List Completion}

theorem exec_collect (h : s.phase ≠ .inReset) : exec (.collect n) s = .next (collect n s) :=
  congrArg _ (onBus_of_outOfReset h (collect n))

/-- An empty list gives the marker and no more. -/
theorem collect_of_nil (hs : s.port.completions = []) : collect n s = shiftedOut (shiftOut [0x00] n) s := by
  rw [collect, hs]

/-- The head completion leaves the list when all its bytes are clocked. -/
theorem collect_whole (hs : s.port.completions = c :: rest) (hn : c.frame.length ≤ n) :
    collect n s = takeCompletion c rest (shiftedOut (c.frame ++ List.replicate (n - c.frame.length) filler) s) := by
  simp only [collect, hs, if_pos hn, shiftOut_of_length_le hn]

/-- The head completion stays when fewer bytes are clocked than it has. -/
theorem collect_cutShort (hs : s.port.completions = c :: rest) (hn : n < c.frame.length) :
    collect n s = shiftedOut (c.frame.take n) s := by
  simp only [collect, hs, if_neg (Nat.not_le.mpr hn), shiftOut_of_le_length hn.le]

end

/-- Settles O2: the completion list is empty, or its head is clocked whole or cut short. -/
theorem collectTakesTheHeadWhole : Obligations.CollectTakesTheHeadWhole := by
  intro s n hphase
  rw [exec_collect hphase]
  refine ⟨fun c rest hs => ⟨fun hwhole => ?_, fun hcut => ?_⟩, fun hs => ?_⟩
  · rw [collect_whole hs hwhole]
    rfl
  · rw [collect_cutShort hs hcut]
    rfl
  · rw [collect_of_nil hs, shiftOut_eq_take]
    rfl

end Sys2Proof.Machine
end

section
/-! PROOFS. ATTN_N (R185): the mask test of one flag set bit by bit, then the attention set subject by subject, then the output. -/

namespace Sys2Proof.Machine

/-- A flag set passes the mask exactly when it holds a flag of one of the 20 reasons the mask enables. -/
theorem and_mask_ne_zero_iff (x mask : Flags) :
    x &&& mask ≠ 0 ↔ ∃ i < 20, mask.getLsbD i = true ∧ x.getLsbD i = true := by
  have hzero : x &&& mask ≠ 0 ↔ ∃ i, x.getLsbD i = true ∧ mask.getLsbD i = true := by
    simp [BitVec.zero_iff_eq_false]
  rw [hzero]
  constructor
  · rintro ⟨i, hx, hm⟩
    exact ⟨i, BitVec.lt_of_getLsbD hm, hm, hx⟩
  · rintro ⟨i, -, hm, hx⟩
    exact ⟨i, hx, hm⟩

@[simp] theorem mem_fours (l : LinkId) : l ∈ fours := by fin_cases l <;> decide

/-- The flag set of some subject passes the mask. -/
theorem AttnSet.enabled_iff (a : AttnSet) (mask : Flags) :
    a.enabled mask = true ↔
      a.device &&& mask ≠ 0 ∨ (∃ l, a.links.get l &&& mask ≠ 0) ∨ ∃ e ∈ a.handles, e.flags &&& mask ≠ 0 := by
  simp only [AttnSet.enabled, Bool.or_eq_true, List.any_eq_true, mem_fours, true_and, decide_eq_true_iff, or_assoc]

/-- The attention set holds a raised flag of a reason that the mask enables (R185). -/
theorem AttnSet.enabled_iff_exists_reason (a : AttnSet) (mask : Flags) :
    a.enabled mask = true ↔ ∃ i < 20, mask.getLsbD i = true
      ∧ (a.device.getLsbD i = true ∨ (∃ l, (a.links.get l).getLsbD i = true) ∨ ∃ e ∈ a.handles, e.flags.getLsbD i = true) := by
  simp only [a.enabled_iff, and_mask_ne_zero_iff]
  constructor
  · rintro (⟨i, hi, hm, hx⟩ | ⟨l, i, hi, hm, hx⟩ | ⟨e, he, i, hi, hm, hx⟩)
    · exact ⟨i, hi, hm, .inl hx⟩
    · exact ⟨i, hi, hm, .inr (.inl ⟨l, hx⟩)⟩
    · exact ⟨i, hi, hm, .inr (.inr ⟨e, he, hx⟩)⟩
  · rintro ⟨i, hi, hm, hx | ⟨l, hx⟩ | ⟨e, he, hx⟩⟩
    · exact .inl ⟨i, hi, hm, hx⟩
    · exact .inr (.inl ⟨l, i, hi, hm, hx⟩)
    · exact .inr (.inr ⟨e, he, i, hi, hm, hx⟩)

/-- Settles O8: the output is the disjunction of R185 behind the phase, and its second part is read reason by reason. -/
theorem attnFollowsCompletionsAndFlags : Obligations.AttnFollowsCompletionsAndFlags := by
  intro s
  rw [← s.port.attn.enabled_iff_exists_reason s.port.mask, attnAsserted, Bool.and_eq_true, Bool.or_eq_true, decide_eq_true_iff,
    decide_eq_true_iff]

end Sys2Proof.Machine
end

section
set_option Elab.async false

section
/-! PROOFS. Request frames (R175, R191, R192): a request read from its parameters and its parameters read from a request, then the
port's judgement of a frame check by check. -/

namespace Sys2Proof.Machine

/-! ### Parameters of a request, both ways -/

/-- Bits of an append that lie in its leading part. -/
theorem extract_append_above {n m k j i : Nat} (x : BitVec n) (y : BitVec m) (h : i = m + k) :
    (x ++ y).extractLsb' i j = x.extractLsb' k j := by
  subst h
  apply BitVec.eq_of_getLsbD_eq
  intro i hi
  simp [BitVec.getLsbD_append, Nat.add_assoc, hi]

/-- The byte behind the others of an append. -/
theorem extract_append_last {n : Nat} (x : BitVec n) (y : Byte) : (x ++ y).extractLsb' 0 8 = y :=
  (extract_append_lo x y le_rfl).trans (BitVec.extractLsb'_eq_self)

theorem uidBytes_uidOf (a b c d e f g h : Byte) : uidBytes (uidOf a b c d e f g h) = [a, b, c, d, e, f, g, h] := by
  have above : ∀ {n i : Nat} (x : BitVec n) (y : Byte) (k : Nat), i = 8 + k →
      (x ++ y).extractLsb' i 8 = x.extractLsb' k 8 := fun x y k hi => extract_append_above x y hi
  unfold uidBytes uidOf
  rw [above _ h 48 rfl, above _ g 40 rfl, above _ f 32 rfl, above _ e 24 rfl,
    above _ d 16 rfl, above _ c 8 rfl, above _ b 0 rfl,
    above _ h 40 rfl, above _ g 32 rfl, above _ f 24 rfl, above _ e 16 rfl,
    above _ d 8 rfl, above _ c 0 rfl,
    above _ h 32 rfl, above _ g 24 rfl, above _ f 16 rfl, above _ e 8 rfl,
    above _ d 0 rfl,
    above _ h 24 rfl, above _ g 16 rfl, above _ f 8 rfl, above _ e 0 rfl,
    above _ h 16 rfl, above _ g 8 rfl, above _ f 0 rfl,
    above _ h 8 rfl, above _ g 0 rfl, above _ h 0 rfl]
  simp only [extract_append_last, BitVec.extractLsb'_eq_self]

theorem maskBytes_append (a b c : Byte) :
    ((a ++ b ++ c : BitVec 24).extractLsb' 16 8, (a ++ b ++ c : BitVec 24).extractLsb' 8 8, (a ++ b ++ c : BitVec 24).extractLsb' 0 8)
      = (a, b, c) := by
  rw [extract_append_hi a b |> fun h => extract_append_above (a ++ b) c (k := 8) rfl |>.trans h,
    extract_append_above (a ++ b) c (k := 0) rfl, extract_append_last, extract_append_last]

@[simp] theorem u8_toNat (b : Byte) : u8 b.toNat = b := by simp [u8]

/-- Parameter bytes that spell a request are the bytes of that request's parameters. -/
theorem decodeParams_request {k : ReqKind} {t : Byte} {ps : List Byte} {i : Instr}
    (h : decodeParams k t ps = some (.request i)) : requestOf i = some ⟨k, t, ps⟩ := by
  cases k with
  | stageGroups =>
    simp only [decodeParams] at h
    split at h
    · split at h
      · rename_i hn; cases h; simp [requestOf, RefField.bytes, hn.2]
      · cases h
    · cases h
  | clear =>
    simp only [decodeParams] at h
    split at h
    · split at h
      · rename_i hsc; cases h; simp [requestOf, hsc]
      · split at h
        · rename_i hsc; cases h; simp [requestOf, hsc]
        · cases h
    · cases h
  | setAttnMask =>
    simp only [decodeParams] at h
    split at h
    · rename_i a b c
      cases h
      have hm := maskBytes_append a b c
      simp only [Prod.mk.injEq] at hm
      simp [requestOf, hm]
    · cases h
  | _ =>
    simp only [decodeParams] at h
    split at h <;> cases h
    all_goals simp [requestOf, RefField.bytes, ScopeField.bytes, CursorField.bytes, SelectorField.bytes, halfBytes_halfOf,
      uidBytes_uidOf]

/-- The parameter bytes of a request of at most 16 group numbers spell that request. -/
theorem decodeParams_of_request {i : Instr} {r : Request} (h : requestOf i = some r)
    (hg : ∀ t f ns, i = .stageGroups t f ns → ns.length ≤ 16) : decodeParams r.kind r.tag r.params = some (.request i) := by
  cases i <;> cases h
  case stageGroups t f ns =>
    have hn := hg t f ns rfl
    have hu : (u8 ns.length).toNat = ns.length := by simp [u8]; omega
    simp [decodeParams, RefField.bytes, hu, hn]
  case setAttnMask t m => simp [decodeParams, maskOf_bytes]
  all_goals simp [decodeParams, RefField.bytes, ScopeField.bytes, CursorField.bytes, SelectorField.bytes, halfBytes, uidBytes,
    halfOf_bytes, uidOf_bytes]

theorem groups_of_wellFormed {i : Instr} (h : i.WellFormed) : ∀ t f ns, i = .stageGroups t f ns → ns.length ≤ 16 := by
  rintro t f ns rfl
  have : tagOk t = true ∧ ns.length ≤ 16 := by simpa [Instr.WellFormed, Instr.wellFormed] using h
  exact this.2

/-- A request is well formed when its tag is and its group numbers are not too many. -/
theorem wellFormed_iff {i : Instr} {r : Request} (h : requestOf i = some r) :
    i.WellFormed ↔ r.tag.toNat < 4 ∧ ∀ t f ns, i = .stageGroups t f ns → ns.length ≤ 16 := by
  cases i <;> cases h
  case stageGroups => simp [Instr.WellFormed, Instr.wellFormed, tagOk]
  all_goals simp [Instr.WellFormed, Instr.wellFormed, requestOf, tagOk]

/-! ### The port's judgement of a frame -/

/-- The port finds a frame good exactly when it holds a good check, a known kind, a tag and that kind's parameters. -/
theorem judgeFrame_good_iff {f : List Byte} {d : Decoded} :
    judgeFrame f = .good d ↔ ∃ kind t ps, f = kind.code :: t :: (ps ++ [crc8 (kind.code :: t :: ps)]) ∧ t.toNat < 4
      ∧ decodeParams kind t ps = some d := by
  constructor
  · intro h
    by_cases hf : f.length < 3
    · rw [judgeFrame_short hf] at h; cases h
    · obtain ⟨k, t, qs, rfl⟩ : ∃ k t qs, f = k :: t :: qs := by
        match f, hf with
        | k :: t :: qs, _ => exact ⟨k, t, qs, rfl⟩
      obtain ⟨ps, c, rfl⟩ : ∃ ps c, qs = ps ++ [c] :=
        ⟨qs.dropLast, qs.getLast (by rintro rfl; simp at hf), (List.dropLast_append_getLast _).symm⟩
      rw [judgeFrame_fields] at h
      split at h
      · cases h
      · rename_i hc
        split at h
        · cases h
        · rename_i kind hk
          have hk' := code_of_kindOf hk
          subst hk'
          split at h
          · split at h
            · rename_i ht _ d' hd
              cases h
              exact ⟨kind, t, ps, by rw [not_not.mp hc], ht, hd⟩
            · cases h
          · cases h
  · rintro ⟨kind, t, ps, rfl, ht, hd⟩
    rw [judgeFrame_fields, if_neg (by simp), kindOf_code]
    simp only [if_pos ht, hd]

theorem frame_eq (r : Request) : r.frame = r.kind.code :: r.tag :: (r.params ++ [crc8 (r.kind.code :: r.tag :: r.params)]) := rfl

theorem encodeFrame_eq {i : Instr} {r : Request} (h : requestOf i = some r) : encodeFrame i = r.frame := by
  rw [encodeFrame, h]

/-- A frame is read as a request exactly when it is that request's frame and the request is well formed. -/
theorem judgeFrame_request_iff {f : List Byte} {i : Instr} :
    judgeFrame f = .good (.request i) ↔ ∃ r, requestOf i = some r ∧ f = r.frame ∧ i.WellFormed := by
  rw [judgeFrame_good_iff]
  constructor
  · rintro ⟨kind, t, ps, rfl, ht, hd⟩
    have hr := decodeParams_request hd
    refine ⟨_, hr, rfl, (wellFormed_iff hr).mpr ⟨ht, ?_⟩⟩
    rintro t' f' ns rfl
    cases hr
    simp only [decodeParams] at hd
    split at hd
    · split at hd
      · rename_i hn
        cases hd
        exact hn.2 ▸ hn.1
      · cases hd
    · cases hd
  · rintro ⟨r, hr, rfl, hwf⟩
    exact ⟨r.kind, r.tag, r.params, rfl, ((wellFormed_iff hr).mp hwf).1, decodeParams_of_request hr (groups_of_wellFormed hwf)⟩

theorem decodeFrame_iff {f : List Byte} {i : Instr} : decodeFrame f = some i ↔ judgeFrame f = .good (.request i) := by
  unfold decodeFrame
  split
  · rename_i h; rw [h]; simp
  · rename_i h
    constructor
    · intro hn; cases hn
    · intro hg; exact absurd hg (h i)

/-- Settles O6: the decoder and the encoder are inverse on the parameters of each kind, and the frame around them is fixed. -/
theorem framesAndRequestsCorrespond : Obligations.FramesAndRequestsCorrespond := by
  refine ⟨fun i hwf hreq => ?_, fun f i hf => ?_⟩
  · obtain ⟨r, hr⟩ := Option.ne_none_iff_exists'.mp hreq
    exact decodeFrame_iff.mpr (judgeFrame_request_iff.mpr ⟨r, hr, encodeFrame_eq hr, hwf⟩)
  · obtain ⟨r, hr, rfl, hwf⟩ := judgeFrame_request_iff.mp (decodeFrame_iff.mp hf)
    exact ⟨encodeFrame_eq hr, hwf⟩

/-! ### A frame as a SUBMIT -/

/-- A request that a frame can spell runs as its own command. -/
theorem runRequest_eq_exec {i : Instr} (h : requestOf i ≠ none) (s : State) : runRequest i s = exec i s := by
  cases i <;> first | rfl | exact absurd rfl h

theorem submitFrame_inReset {s : State} (h : s.phase = .inReset) (f : List Byte) : submitFrame f s = .next s := by
  rw [submitFrame, if_pos h]

theorem submitFrame_resetting {s : State} (h : s.phase ≠ .inReset) (hp : s.port.state = .resetting) (f : List Byte) :
    submitFrame f s = .next (refuseSubmit .resetting f s) := by
  rw [submitFrame, if_neg h, if_pos hp]

theorem submitFrame_ready {s : State} (h : s.phase ≠ .inReset) (hp : s.port.state = .ready) (f : List Byte) :
    submitFrame f s = match judgeFrame f with
      | .badFrame => .next (refuseSubmit .badFrame f s)
      | .unknownRequest => .next (refuseSubmit .unknownRequest f s)
      | .good (.request i) => runRequest i s
      | .good (.badClear t) => .next (submit 1 t (answer .clear .badParameter) s) := by
  rw [submitFrame, if_neg h, if_neg (by rw [hp]; decide)] <;> rfl

theorem refuseSubmit_eq (a : AcceptResult) (f : List Byte) (s : State) : refuseSubmit a f s = refusedWith a f s := rfl

theorem submit_inReset {s : State} (h : s.phase = .inReset) (n : Nat) (b : Byte) (f : Tag → State → State) : submit n b f s = s := by
  rw [submit, if_pos h]

/-- A SUBMIT that is not accepted only sets the last acceptance result. -/
theorem submit_refused {s : State} {b : Byte} {a : AcceptResult} (h : s.phase ≠ .inReset) (hj : judgeTag s b = (a, none)) (n : Nat)
    (f : Tag → State → State) :
    submit n b f s = { s with port := { s.port with lastAccept := a, sdo := List.replicate (n + 4) filler } } := by
  rw [submit, if_neg h]
  simp only [hj]
  rfl

theorem judgeTag_resetting {s : State} (h : s.port.state = .resetting) (b : Byte) : judgeTag s b = (.resetting, none) := by
  rw [judgeTag, if_pos h]

theorem judgeTag_inUse {s : State} {b : Byte} {t : Tag} (h : s.port.state = .ready) (hb : b.toNat = t.val)
    (ht : s.port.tags.get t ≠ .free) : judgeTag s b = (.tagInUse, none) := by
  have htag : tagOf b = some t := by simp [tagOf, hb]
  rw [judgeTag, if_neg (by rw [h]; decide), htag]
  simp [ht]

/-- How the port meets a SUBMIT: the bus is ignored, the frame is refused, or the request is taken under a free tag. -/
theorem submit_cases (n : Nat) (b : Byte) (f : Tag → State → State) (s : State) :
    submit n b f s = s ∨ (∃ a, submit n b f s = { s with port := { s.port with lastAccept := a, sdo := List.replicate (n + 4) filler } })
      ∨ ∃ t, Accepts s b t ∧ submit n b f s = f t (received n s) := by
  by_cases hp : s.phase = .inReset
  · exact .inl (submit_inReset hp n b f)
  · refine .inr ?_
    by_cases hr : s.port.state = .resetting
    · exact .inl ⟨_, submit_refused hp (judgeTag_resetting hr b) n f⟩
    · have hr' : s.port.state = .ready := by cases h : s.port.state <;> simp_all
      by_cases hb : b.toNat < 4
      · have htag : tagOf b = some ⟨b.toNat, hb⟩ := by simp [tagOf, hb]
        by_cases hf : s.port.tags.get ⟨b.toNat, hb⟩ = .free
        · have hacc : Accepts s b ⟨b.toNat, hb⟩ := ⟨hp, hr', rfl, hf⟩
          exact .inr ⟨_, hacc, submit_accepts hacc n f⟩
        · exact .inl ⟨_, submit_refused hp (judgeTag_inUse hr' rfl hf) n f⟩
      · have hj : judgeTag s b = (.badFrame, none) := by simp [judgeTag, hr, tagOf, hb]
        exact .inl ⟨_, submit_refused hp hj n f⟩

/-- A request's own command is a SUBMIT of as many parameter bytes as its frame carries. -/
theorem exec_request {i : Instr} {r : Request} (h : requestOf i = some r) (hg : ∀ t f ns, i = .stageGroups t f ns → ns.length ≤ 16)
    (s : State) : ∃ f, exec i s = .next (submit r.params.length r.tag f s) := by
  cases i <;> cases h
  case stageGroups t f ns =>
    refine ⟨stageGroups (refOf f) ns, ?_⟩
    have hlen : (f.bytes ++ [u8 ns.length] ++ ns).length = 3 + ns.length := by
      simp [RefField.bytes]; omega
    simp only [hlen, exec, execStageGroups, if_pos (hg t f ns rfl)]
  all_goals exact ⟨_, rfl⟩

end Sys2Proof.Machine
end

section
/-! PROOFS. A SUBMIT given as bytes (R175): a frame runs the request it spells, or the first check that fails refuses it. -/

namespace Sys2Proof.Machine

/-- Each kind is numbered 01h to 24h, and no other byte names one (R192). -/
theorem kindOf_isSome_iff (b : Byte) : (kindOf b).isSome = true ↔ 1 ≤ b.toNat ∧ b.toNat ≤ 36 := by
  revert b; decide +kernel

/-- Parameter bytes spell something exactly when they are as many as the kind carries (R175, R191). -/
theorem decodeParams_isSome_iff (k : ReqKind) (t : Byte) (ps : List Byte) :
    (decodeParams k t ps).isSome = true ↔ carriesCount k.code ps := by
  cases k with
  | stageGroups =>
    rcases ps with _ | ⟨h, _ | ⟨g, _ | ⟨n, ns⟩⟩⟩
    all_goals simp [decodeParams, carriesCount, show ReqKind.stageGroups.code = 0x11 from rfl]
  | _ =>
    rcases ps with _ | ⟨_, _ | ⟨_, _ | ⟨_, _ | ⟨_, _ | ⟨_, _ | ⟨_, _ | ⟨_, _ | ⟨_, _ | ⟨_, ps⟩⟩⟩⟩⟩⟩⟩⟩⟩
    all_goals
      change _ ↔ some _ = some _
      simp [decodeParams]

theorem exec_submitRefused (f : List Byte) (s : State) : exec (.submitRefused f) s = submitFrame f s := rfl

theorem exec_request_inReset {i : Instr} {s : State} (hp : s.phase = .inReset) (h : requestOf i ≠ none) : exec i s = .next s := by
  obtain ⟨r, hr⟩ := Option.ne_none_iff_exists'.mp h
  by_cases hg : ∀ t f ns, i = .stageGroups t f ns → ns.length ≤ 16
  · obtain ⟨f, hf⟩ := exec_request hr hg s
    rw [hf, submit_inReset hp]
  · push Not at hg
    obtain ⟨t, f, ns, rfl, hn⟩ := hg
    simp [exec, execStageGroups, Nat.not_le.mpr hn, refuseCount, hp]

/-- A port that is RESETTING refuses a request whatever it is (R175). -/
theorem exec_request_resetting {i : Instr} {r : Request} {s : State} (hp : s.phase ≠ .inReset) (hr : s.port.state = .resetting)
    (h : requestOf i = some r) (hwf : i.WellFormed) : exec i s = .next (refusedWith .resetting r.frame s) := by
  obtain ⟨f, hf⟩ := exec_request h (groups_of_wellFormed hwf) s
  rw [hf, submit_refused hp (judgeTag_resetting hr _)]
  have hlen : r.frame.length + 1 = r.params.length + 4 := by simp [frame_eq]
  rw [refusedWith, hlen]

/-- Settles O5: with the port RESETTING both are refused, and otherwise the frame is read back as the request. -/
theorem frameOfARequestRunsTheRequest : Obligations.FrameOfARequestRunsTheRequest := by
  refine ⟨fun i s hwf hreq => ?_, fun s b scope t hacc hscope => ?_⟩
  · obtain ⟨r, hr⟩ := Option.ne_none_iff_exists'.mp hreq
    rw [exec_submitRefused, encodeFrame_eq hr]
    by_cases hp : s.phase = .inReset
    · rw [submitFrame_inReset hp, exec_request_inReset hp hreq]
    · cases hst : s.port.state with
      | resetting => rw [submitFrame_resetting hp hst, exec_request_resetting hp hst hr hwf, refuseSubmit_eq]
      | ready => rw [submitFrame_ready hp hst, judgeFrame_request_iff.mpr ⟨r, hr, rfl, hwf⟩]; exact runRequest_eq_exec hreq s
  · have hd : decodeParams .clear b [scope] = some (.badClear b) := by
      have h0 : ¬ scope = 0 := by rintro rfl; simp at hscope
      have h1 : ¬ scope = 1 := by rintro rfl; simp at hscope
      simp only [decodeParams, if_neg h0, if_neg h1]
    have hj : judgeFrame [0x24, b, scope, crc8 [0x24, b, scope]] = .good (.badClear b) :=
      judgeFrame_good_iff.mpr ⟨.clear, b, [scope], rfl, by rw [hacc.tagByte]; exact t.isLt, hd⟩
    rw [exec_submitRefused, submitFrame_ready hacc.outOfReset hacc.ready, hj]
    simp only [submit_accepts hacc, answer_received]

theorem goodCheck_cons (k t : Byte) (ps : List Byte) (c : Byte) : goodCheck (k :: t :: (ps ++ [c])) ↔ c = crc8 (k :: t :: ps) := by
  constructor
  · rintro ⟨k', t', ps', c', h, rfl⟩
    simp only [List.cons.injEq] at h
    obtain ⟨rfl, rfl, h⟩ := h
    obtain ⟨rfl, h⟩ := List.append_inj' h rfl
    simpa using h
  · rintro rfl
    exact ⟨k, t, ps, _, rfl, rfl⟩

/-- A frame without a good check is bad. -/
theorem judgeFrame_of_not_goodCheck {f : List Byte} (h : ¬ goodCheck f) : judgeFrame f = .badFrame := by
  by_cases hf : f.length < 3
  · exact judgeFrame_short hf
  · obtain ⟨k, t, ps, c, rfl⟩ : ∃ k t ps c, f = k :: t :: (ps ++ [c]) := by
      match f, hf with
      | [], hf => simp at hf
      | [_], hf => simp at hf
      | [_, _], hf => simp at hf
      | k :: t :: q :: qs, _ => exact ⟨k, t, (q :: qs).dropLast, _, by rw [List.dropLast_append_getLast (List.cons_ne_nil q qs)]⟩
    rw [judgeFrame_fields, if_pos (fun hc => h ((goodCheck_cons k t ps c).mpr hc))]

/-- Settles O4: the checks of the frame in their order, each on the fields of a frame that passed those before it. -/
theorem submitRefusedByTheFirstFailingCheck : Obligations.SubmitRefusedByTheFirstFailingCheck := by
  intro s f hp
  simp only [exec_submitRefused]
  refine ⟨fun hr => submitFrame_resetting hp hr f, fun hr => ?_⟩
  rw [submitFrame_ready hp hr]
  refine ⟨fun hbad => by rw [judgeFrame_of_not_goodCheck hbad]; rfl, ?_⟩
  rintro k t ps c rfl hgood
  have hj := judgeFrame_fields k t ps c
  rw [if_neg (not_not.mpr ((goodCheck_cons k t ps c).mp hgood))] at hj
  refine ⟨fun hk => ?_, fun hk hcount => ?_, fun hk hcount tag ht hfree => ?_⟩
  · have hnone : kindOf k = none := by rw [← kindOf_isSome_iff] at hk; simpa using hk
    simp only [hnone] at hj
    rw [hj]
    rfl
  · obtain ⟨kind, hkind⟩ := Option.isSome_iff_exists.mp ((kindOf_isSome_iff k).mpr hk)
    obtain rfl := code_of_kindOf hkind
    simp only [hkind] at hj
    have hbad : judgeFrame (kind.code :: t :: (ps ++ [c])) = .badFrame := by
      rw [hj]
      by_cases ht : t.toNat < 4
      · have hnone : decodeParams kind t ps = none := by
          have := (decodeParams_isSome_iff kind t ps).not.mpr fun h => hcount ⟨by omega, h⟩
          simpa using this
        rw [if_pos ht, hnone]
      · rw [if_neg ht]
    rw [hbad]
    rfl
  · obtain ⟨kind, hkind⟩ := Option.isSome_iff_exists.mp ((kindOf_isSome_iff k).mpr hk)
    obtain rfl := code_of_kindOf hkind
    have ht4 : t.toNat < 4 := ht ▸ tag.isLt
    obtain ⟨d, hd⟩ := Option.isSome_iff_exists.mp ((decodeParams_isSome_iff kind t ps).mpr hcount)
    have hused := judgeTag_inUse hr ht hfree
    simp only [hkind, if_pos ht4, hd] at hj
    rw [hj]
    cases d with
    | badClear t' =>
      have htag : t' = t ∧ ps.length = 1 := by
        cases kind <;> simp only [decodeParams] at hd
        all_goals (split at hd <;> try split at hd)
        all_goals (try split at hd)
        all_goals simp_all
      simp only [htag.1, submit_refused hp hused]
      simp [refusedWith, htag.2]
    | request i =>
      have hreq := decodeParams_request hd
      obtain ⟨-, -, -, hwf⟩ := judgeFrame_request_iff.mp hj
      obtain ⟨g, hg⟩ := exec_request hreq (groups_of_wellFormed hwf) s
      simp only [runRequest_eq_exec (i := i) (by rw [hreq]; simp), hg, submit_refused hp hused]
      simp [refusedWith]

end Sys2Proof.Machine
end

section
/-! PROOFS. STATUS and void transactions (R174, R180, R192): the bits of the status block, then the kinds of a transaction. -/

namespace Sys2Proof.Machine

/-- The bits of the first byte of the status block, from the seven facts it is made of. -/
theorem statusBits (a b c t0 t1 t2 t3 : Bool) :
    let x := u8 ((if a then 128 else 0) + (if b then 64 else 0) + (if c then 32 else 0)
      + ((if t0 then 1 else 0) + (if t1 then 2 else 0) + (if t2 then 4 else 0) + (if t3 then 8 else 0)))
    x.getLsbD 7 = a ∧ x.getLsbD 6 = b ∧ x.getLsbD 5 = c ∧ x.getLsbD 4 = false
      ∧ x.getLsbD 0 = t0 ∧ x.getLsbD 1 = t1 ∧ x.getLsbD 2 = t2 ∧ x.getLsbD 3 = t3 := by
  revert a b c t0 t1 t2 t3; decide

theorem ite_decide (p : Prop) [Decidable p] (x y : Nat) : (if p then x else y) = if decide p = true then x else y := by
  simp

theorem AttnSet.pending_iff (a : AttnSet) :
    a.pending = true ↔ a.device ≠ 0 ∨ (∃ l, a.links.get l ≠ 0) ∨ ∃ e ∈ a.handles, e.flags ≠ 0 := by
  simp only [AttnSet.pending, Bool.or_eq_true, List.any_eq_true, mem_fours, true_and, decide_eq_true_iff, or_assoc]

theorem LinkState.ctorIdx_lt (x : LinkState) : x.ctorIdx < 4 := by cases x <;> decide
theorem AcceptResult.ctorIdx_lt (x : AcceptResult) : x.ctorIdx < 6 := by cases x <;> decide
theorem CommitState.ctorIdx_lt (x : CommitState) : x.ctorIdx < 5 := by cases x <;> decide

theorem u8_toNat_of_lt {n : Nat} (h : n < 256) : (u8 n).toNat = n := by simp [u8, Nat.mod_eq_of_lt h]

/-- The bytes of the status block say what R192 lists. -/
theorem statusBlock_says {s : State} (h : s.port.completions.length ≤ 4) :
    ∃ b0 b1 b2 b3 b4 b5 b6 : Byte, statusBlock s = [b0, b1, b2, b3, b4, b5, b6]
      ∧ (b0.getLsbD 7 = true ↔ s.port.state = .resetting)
      ∧ (b0.getLsbD 6 = true ↔ s.port.attn.device ≠ 0 ∨ (∃ l, s.port.attn.links.get l ≠ 0)
          ∨ ∃ e ∈ s.port.attn.handles, e.flags ≠ 0)
      ∧ b0.getLsbD 5 = s.boundary.present ∧ b0.getLsbD 4 = false
      ∧ (∀ t : Tag, b0.getLsbD t.val = true ↔ s.port.tags.get t = .free)
      ∧ b1.toNat = 16 * s.port.completions.length + s.port.lastAccept.ctorIdx
      ∧ b2.toNat = s.commit.state.ctorIdx
      ∧ b3 ++ b4 = s.commit.epoch
      ∧ (∀ l : LinkId, b5.toNat / 4 ^ l.val % 4 = (s.links.get l).state.ctorIdx)
      ∧ b6 = crc8 [b0, b1, b2, b3, b4, b5] := by
  refine ⟨_, _, _, _, _, _, _, rfl, ?_⟩
  simp only [freeTags, ite_decide (s.port.state = .resetting), ite_decide (s.port.tags.get _ = .free)]
  obtain ⟨h7, h6, h5, h4, h0, h1, h2, h3⟩ := statusBits (decide (s.port.state = .resetting)) s.port.attn.pending
    s.boundary.present (decide (s.port.tags.get 0 = .free)) (decide (s.port.tags.get 1 = .free))
    (decide (s.port.tags.get 2 = .free)) (decide (s.port.tags.get 3 = .free))
  have hacc := s.port.lastAccept.ctorIdx_lt
  have hlink := fun l => (s.links.get l).state.ctorIdx_lt
  refine ⟨by rw [h7, decide_eq_true_iff], by rw [h6, AttnSet.pending_iff], h5, h4, fun t => ?_, u8_toNat_of_lt (by omega),
    u8_toNat_of_lt (by have := s.commit.state.ctorIdx_lt; omega), halfOf_bytes _, fun l => ?_, rfl⟩
  · fin_cases t
    · exact (Bool.eq_iff_iff.mp h0).trans decide_eq_true_iff
    · exact (Bool.eq_iff_iff.mp h1).trans decide_eq_true_iff
    · exact (Bool.eq_iff_iff.mp h2).trans decide_eq_true_iff
    · exact (Bool.eq_iff_iff.mp h3).trans decide_eq_true_iff
  · have l0 := hlink 0
    have l1 := hlink 1
    have l2 := hlink 2
    have l3 := hlink 3
    rw [u8_toNat_of_lt (by omega)]
    fin_cases l <;> simp <;> omega

theorem exec_status {s : State} (h : s.phase ≠ .inReset) (n : Nat) : exec (.status n) s = .next (status n s) :=
  congrArg _ (onBus_of_outOfReset h (status n))

theorem spiKind_none {b : Byte} (h1 : b ≠ 0x51) (h2 : b ≠ 0xC3) (h3 : b ≠ 0x5A) : spiKind b = none := by
  simp only [spiKind, if_neg h1, if_neg h2, if_neg h3]

theorem exec_void {s : State} {b : Byte} (hk : spiKind b = none) (h : s.phase ≠ .inReset) (bs : List Byte) :
    exec (.voidTransaction (some b) bs) s = .next (voided (bs.length + 1) s) := by
  simp [exec, execVoidTransaction, transactionOf, hk, onBus_of_outOfReset h]

/-- Whatever an SPI transaction is, the port ignores it in device reset (R190). -/
theorem exec_void_inReset {s : State} (h : s.phase = .inReset) (b : Option Byte) (bs : List Byte) :
    exec (.voidTransaction b bs) s = .next s := by
  have hbus : ∀ f, onBus f s = s := fun f => if_pos h
  simp only [exec, execVoidTransaction, hbus, submitFrame_inReset h]
  split <;> rfl

/-- Settles O3: the status block byte by byte, then a transaction by its first byte, then the bus in device reset. -/
theorem statusAndVoidTransactions : Obligations.StatusAndVoidTransactions := by
  intro s
  refine ⟨fun hp => ⟨fun n hn => ?_, fun b bs h1 h2 h3 => ?_, fun bs => ?_⟩, fun bs => ⟨rfl, rfl, rfl⟩, fun hp => ?_⟩
  · obtain ⟨b0, b1, b2, b3, b4, b5, b6, hb, hsays⟩ := statusBlock_says hn
    refine ⟨b0, b1, b2, b3, b4, b5, b6, ?_, hsays⟩
    rw [exec_status hp, status, hb, shiftOut_eq_take]
    rfl
  · rw [exec_void (spiKind_none h1 h2 h3) hp]
    rfl
  · simp [exec, execVoidTransaction, transactionOf, onBus_of_outOfReset hp, voided, modPort]
  · have hbus : ∀ f, onBus f s = s := fun f => if_pos hp
    refine ⟨fun n => congrArg _ (hbus _), fun n => congrArg _ (hbus _), exec_void_inReset hp, fun f => ?_,
      fun i hi => exec_request_inReset hp hi⟩
    rw [exec_submitRefused, submitFrame_inReset hp]

end Sys2Proof.Machine
end

section
/-! PROOFS. What a command can do, said once: an accepted request takes effect in one of the ways of `Takes`, an event in one of
the ways of `Occurs`, and a command in one of the ways of `Does`. Each way carries the checks that its effect has passed. -/

namespace Sys2Proof.Machine

/-- The last acceptance result and the bytes shifted out, replaced. -/
def shown (a : AcceptResult) (bs : List Byte) (s : State) : State := { s with port := { s.port with lastAccept := a, sdo := bs } }

/-- What a request accepted under a tag does, in the state that shows its acceptance. -/
inductive Takes (i : Instr) (t : Tag) (s : State) : State → Prop where
  | answers (kind : ReqKind) (st : Status) (res : List Byte) : Takes i t s (complete t kind st 0 res s)
  | setsGrace (n : Byte) : Takes i t s (setGrace n t s)
  | retires (ref : Ref) (r : Record) (res : List Byte) (hr : checkRef s ref = .names r) (hfree : heldByCommit s r = false) :
      Takes i t s (finishLinks s.port.completions.length (complete t .retire .ok 0 res (retireRecord r s)))
  | definesKey (k : KeyRec) (res : List Byte) (hidle : s.commit.state = .idle) (hk : KeyInRange k)
      (hnew : ∀ x ∈ s.keys, x.number ≠ k.number ∧ x.addr ≠ k.addr) :
      Takes i t s (complete t .defineKey .ok 0 res (setKeys (insertKey k s.keys) s))
  | undefinesKey (k : KeyRec) (res : List Byte) (hidle : s.commit.state = .idle) (hk : k ∈ s.keys)
      (hstore : ∀ e ∈ s.store, e.key ≠ k.number) (hstaged : ∀ c ∈ s.staging, c.namesKey k.number = false) :
      Takes i t s (finishLinks s.port.completions.length (complete t .undefineKey .ok 0 res (removeKey k s)))
  | replaces (kind : ReqKind) (c : Change) (n : Nat) (res : List Byte) (hidle : s.commit.state = .idle) (hc : ChangeSound s c)
      (hn : targetIndex s.staging c.target = some n) :
      Takes i t s (complete t kind .ok 0 res (setStaging (s.staging.set n c) s))
  | adds (kind : ReqKind) (c : Change) (res : List Byte) (hidle : s.commit.state = .idle) (hc : ChangeSound s c)
      (hn : targetIndex s.staging c.target = none) (hlen : s.staging.length < 64) :
      Takes i t s (complete t kind .ok 0 res (setStaging (s.staging ++ [c]) s))
  | discards (cs : List Change) (res : List Byte) (hidle : s.commit.state = .idle) (hcs : cs.Sublist s.staging) :
      Takes i t s (complete t .discard .ok 0 res (setStaging cs s))
  | commits (p : Policy) (displaced : List Ref) (hidle : s.commit.state = .idle) (hsize : postSize s.store s.staging ≤ 512)
      (hplaces : checkPlaces s.dir.records s.staging = .ok displaced) :
      Takes i t s (finishLinks s.port.completions.length
        (acceptCommit p t (postView s displaced) displaced (participantsOf s (postView s displaced)) s))
  | aborts (hst : s.commit.state = .preparing ∨ s.commit.state = .armed) :
      Takes i t s (finishEvent s.port.completions.length (complete t .abort .ok 0 [] (enterCancelling .host s)))
  | setsFrame (p : Edge) (e : Bool) (res : List Byte) :
      Takes i t s (complete t .setFrame .ok 0 res (modBoundary (frameSettings s.now p e) s))
  | makesBoundary (b : Byte) (hi : i = .boundaryNow b) (hnone : s.boundary.pendingNow = none) (hsp : spacingHolds s = true) :
      Takes i t s (finishEvent s.port.completions.length (completeNow t .host false s.commit.state (boundaryEvent s)))
  | awaitsBoundary (m : Nat) (hnone : s.boundary.pendingNow = none) : Takes i t s (boundaryPends t m s)
  | enables (l : LinkId) (hl : (s.links.get l).state = .disabled) :
      Takes i t s (complete t .linkEnable .ok 0 [] (modLink l (LinkEngine.down .training s.now) s))
  | stopsTraining (l : LinkId) (hl : (s.links.get l).state = .training) :
      Takes i t s (complete t .linkDisable .ok 0 [] (modLink l (LinkEngine.down .disabled s.now) s))
  | disables (l : LinkId) (hl : (s.links.get l).isUp = true) :
      Takes i t s (finishEvent s.port.completions.length (complete t .linkDisable .ok 0 [] (takeDown l .disabled s)))
  | setsTiming (l : LinkId) (x : Timing) (hx : timingOk x = true) (hbytes : x.timeout ≤ 255 ∧ x.interval ≤ 255) :
      Takes i t s (arbitrate l (complete t .setTiming .ok 0 [] (newTiming l x s)))
  | setsDeadlines (d : Deadlines) (hp : 1 ≤ d.prepare ∧ d.prepare ≤ 1000) (ha : 1 ≤ d.arm ∧ d.arm ≤ 1000)
      (hd : 1 ≤ d.apply ∧ d.apply ≤ 1000) :
      Takes i t s (complete t .setDeadlines .ok 0 [] (modCommit (fun c => { c with lengths := d }) s))
  | rescans (l : LinkId) (hl : (s.links.get l).state = .running) :
      Takes i t s (finishLinks s.port.completions.length (acceptRescan l t s))
  | accesses (r : Record) (x : Running) (body : Body) (hr : r ∈ s.dir.records) (hreach : r.state ≠ .stale)
      (hx : (∃ a, x = .tileRead r.ref a ∧ body = .paramRead a) ∨ ∃ a v, x = .tileWrite r.ref a v ∧ body = .paramWrite a v) :
      Takes i t s (arbitrate r.loc.link (queueDirect x r.loc body t s))
  | attends (res : List Byte) :
      Takes i t s (complete t .attention .ok 0 res (modPort (fun p => { p with attn := attentionCleared s }) s))
  | masks (m : Flags) (res : List Byte) : Takes i t s (complete t .setAttnMask .ok 0 res (modPort (fun p => { p with mask := m }) s))
  | clearsLinks : Takes i t s (clearLinks t s)
  | clearsAll (b : Byte) (hi : i = .clearAll b) : Takes i t s (clearAll t s)

/-- What an event other than an SPI transaction does, the hub in operation. -/
inductive Occurs (i : Instr) (s : State) : State → Prop where
  | counts (hi : ∃ e, i = .frameEdge e) : Occurs i s (watchEdge s)
  | makesBoundary (hi : ∃ e, i = .frameEdge e) (hsp : spacingHolds s = true) :
      Occurs i s (finishEvent s.port.completions.length (completePending .frame s.commit.state (boundaryEvent (watchEdge s))))
  | watchEnds (d : Nat) : Occurs i s
      (raiseDevice .frameLost (modBoundary (fun b => { b with present := false, watch := none }) (advanceTo d s)))
  | falls (p : PendingNow) (hi : i = .boundaryNowDue) (hp : s.boundary.pendingNow = some p) :
      Occurs i s (finishEvent s.port.completions.length (completePending .host s.commit.state (boundaryEvent (advanceTo p.due s))))
  | locks (l : LinkId) (hl : (s.links.get l).state = .training) :
      Occurs i s (arbitrate l (beginScan l none (modLink l (fun e => { e with noLockTimer := none, noLockMark := false }) s)))
  | loses (l : LinkId) (hl : (s.links.get l).isUp = true) :
      Occurs i s (finishEvent s.port.completions.length (takeDown l .training s))
  | lockFails (l : LinkId) (d : Nat) (hl : (s.links.get l).state = .training) :
      Occurs i s (raiseLink l .noLock (modLink l (fun e => { e with noLockTimer := none, noLockMark := true }) (advanceTo d s)))
  | forgets (l : LinkId) : Occurs i s (forgetExpiry l s)
  | hears (l : LinkId) (f : Flight) (st : TileStatus) (reply : ReplyBody) (bytes : List Byte) (hf : waitingFlight s l = some f)
      (hj : judgeReply f.txn.body f.seq bytes = .good st reply) :
      Occurs i s (finishEvent s.port.completions.length (endReplied l f.txn st reply s))
  | garbles (l : LinkId) (f : Flight) (hf : waitingFlight s l = some f) :
      Occurs i s (finishEvent s.port.completions.length (attemptFailed l f (forgetExpiry l s)))
  | expires (l : LinkId) (f : Flight) (hf : waitingFlight s l = some f) :
      Occurs i s (finishEvent s.port.completions.length (attemptFailed l f (timerExpired l f (advanceTo f.expires s))))
  | broadcasts (l : LinkId) (hb : sendsBroadcast s l = true) :
      Occurs i s (finishEvent s.port.completions.length (broadcastDone l (forgetExpiry l s)))
  | rolls (l : LinkId) (hl : (s.links.get l).awaitsRoll = true) :
      Occurs i s (arbitrate l (modLink l LinkEngine.rollFalls (advanceTo (s.links.get l).rollMoment s)))
  | expiresGrace (h d : Nat) (hidle : s.commit.state = .idle) : Occurs i s
      (finishLinks s.port.completions.length (forEach (upTo h (expiredHandles (advanceTo d s))) retire (advanceTo d s)))
  | defersGrace (d : Nat) : Occurs i s (advanceTo d s)
  | cancels (d : Nat) (reason : CancelReason) (hst : s.commit.state = .preparing ∨ s.commit.state = .armed)
      (hr : reason.ref? = none) :
      Occurs i s (finishEvent s.port.completions.length (enterCancelling reason (advanceTo d s)))
  | excludes (d : Nat) (hst : s.commit.state = .preparing) :
      Occurs i s (finishEvent s.port.completions.length (excludeUnprepared (advanceTo d s)))
  | lags (d : Nat) (hst : s.commit.state = .applying) :
      Occurs i s (finishEvent s.port.completions.length (forEach (unconfirmedRefs s) makeLagging (advanceTo d s)))

/-- What a command does. -/
inductive Does (c : Instr) (s : State) : State → Prop where
  | shows (a : AcceptResult) (bs : List Byte) : Does c s (shown a bs s)
  | collects (x : Completion) (rest : List Completion) (bs : List Byte) (hs : s.port.completions = x :: rest) :
      Does c s (takeCompletion x rest (shiftedOut bs s))
  | takes (n : Nat) (b : Byte) (t : Tag) (s' : State) (hacc : Accepts s b t) (h : Takes (spoken c) t (received n s) s') : Does c s s'
  | occurs (s' : State) (hop : s.phase = .operating) (h : Occurs c s s') : Does c s s'
  | clears (x : RunningClear) (hx : s.port.clear = some x) : Does c s
      (complete x.tag .clear .ok 0 x.result (modPort (fun p => { p with state := .ready, clear := none }) s))
  | resets (ph : DevicePhase) (hc : c = .deviceReset ∨ c = .resetRelease) : Does c s (initialIn ph s)
  | starts (hs : s.phase = .startup) :
      Does c s (raiseDevice .resetDone (modPort (fun p => { p with state := .ready }) { s with phase := .operating }))

theorem Does.nothing (c : Instr) (s : State) : Does c s s := .shows s.port.lastAccept s.port.sdo

/-! ### Requests -/

section
variable {i : Instr} {t : Tag} {s : State}

/-- A reference that passes its check is that of a record of the directory (R2). -/
theorem checkRef_names {ref : Ref} {r : Record} (h : checkRef s ref = .names r) : r ∈ s.dir.records ∧ r.ref = ref := by
  unfold checkRef at h
  split at h
  · cases h
  · rename_i x hx
    split at h
    · rename_i hg
      cases h
      have hm : r.ref.handle = ref.handle := by simpa using List.find?_some hx
      refine ⟨List.mem_of_find?_eq_some hx, ?_⟩
      cases hr : r.ref; cases ref; simp_all
    · cases h

theorem failure_none {ref : Ref} (h : (checkRef s ref).failure = none) : ∃ r ∈ s.dir.records, r.ref = ref := by
  cases hc : checkRef s ref with
  | names r => exact ⟨r, checkRef_names hc⟩
  | _ => rw [hc] at h; cases h

theorem scopeFailure_none {sc : Scope} (hg : scopeGroupOk sc = true) (h : scopeFailure s sc = none) : ScopeSound s sc := by
  cases sc with
  | wall => trivial
  | group g => exact (scopeGroupOk_iff _).mp hg g rfl
  | tile ref => exact failure_none h

theorem Takes.list (filter cursor : Byte) : Takes i t s (Machine.list filter cursor t s) := by
  unfold Machine.list; split <;> exact .answers ..

theorem Takes.retire (ref : Ref) (force : Byte) : Takes i t s (retireRequest ref force t s) := by
  unfold retireRequest
  split
  · exact .answers ..
  · split
    · exact .answers ..
    · exact .answers ..
    · rename_i hr
      split
      · exact .answers ..
      · split
        · exact .answers ..
        · rename_i hheld
          exact .retires ref _ _ hr (by simpa using hheld)

theorem Takes.defineKey (key addr : Byte) (dflt min max : Half) : Takes i t s (Machine.defineKey key addr dflt min max t s) := by
  unfold Machine.defineKey
  split
  · exact .answers ..
  · rename_i hkey
    split
    · exact .answers ..
    · rename_i hidle
      split
      · exact .answers ..
      · rename_i hnew
        split
        · exact .answers ..
        · rename_i hrange
          simp only [badKeyNumber, decide_eq_true_iff, not_lt] at hkey
          simp only [List.any_eq_true, not_exists, not_and, Bool.or_eq_true, beq_iff_eq, not_or] at hnew
          simp only [not_or, not_le, BitVec.lt_def, not_lt] at hrange
          obtain ⟨ha, hmin, hmax⟩ := hrange
          exact .definesKey (newKey key addr dflt min max) _ (not_not.mp hidle) ⟨hkey, ha, hmin, hmax⟩ hnew

theorem Takes.undefineKey (key : Byte) : Takes i t s (Machine.undefineKey key t s) := by
  unfold Machine.undefineKey
  split
  · exact .answers ..
  · split
    · exact .answers ..
    · rename_i hidle
      split
      · exact .answers ..
      · rename_i k hk
        split
        · exact .answers ..
        · rename_i hused
          simp only [not_or, List.any_eq_true, not_exists, not_and, beq_iff_eq, Bool.not_eq_true] at hused
          exact .undefinesKey k _ (not_not.mp hidle) (List.mem_of_find?_eq_some hk) hused.1 hused.2

theorem Takes.readEntry (scope : ScopeField) (key : Byte) : Takes i t s (Machine.readEntry scope key t s) := by
  unfold Machine.readEntry; (repeat' split) <;> exact .answers ..

theorem Takes.resolve (ref : Ref) (key : Byte) : Takes i t s (Machine.resolve ref key t s) := by
  unfold Machine.resolve; (repeat' split) <;> exact .answers ..

theorem Takes.stageChange (kind : ReqKind) {c : Change} (hidle : s.commit.state = .idle) (hc : ChangeSound s c) :
    Takes i t s (Machine.stageChange kind c t s) := by
  unfold Machine.stageChange
  split
  · rename_i hn; exact .replaces kind c _ _ hidle hc hn
  · rename_i hn
    split
    · exact .answers ..
    · rename_i hlen; exact .adds kind c _ hidle hc hn (by simpa [Config.stagingCapacity] using hlen)

/-- What the checks of a scope and key leave: a change of them is sound (R50). -/
theorem stageEntryCheck_ok {scope : ScopeField} {key : Byte} {sc : Scope} {k : KeyRec}
    (h : stageEntryCheck scope key s = .ok (sc, k)) :
    s.commit.state = .idle ∧ ScopeSound s sc ∧ k.number ≤ 63 ∧ k ∈ s.keys := by
  unfold stageEntryCheck at h
  split at h
  · cases h
  · split at h
    · cases h
    · rename_i hin
      split at h
      · cases h
      · rename_i hidle
        split at h
        · cases h
        · rename_i hf
          split at h
          · cases h
          · rename_i x hk
            simp only [Except.ok.injEq, Prod.mk.injEq] at h
            obtain ⟨rfl, rfl⟩ := h
            obtain ⟨hkey, hg⟩ := (not_not.mp ((badEntry_iff _ key).not.mp hin)).passes
            have hnum : x.number = key.toNat := by simpa using List.find?_some hk
            exact ⟨not_not.mp hidle, scopeFailure_none hg hf, by rw [hnum]; simpa [badKeyNumber] using hkey,
              List.mem_of_find?_eq_some hk⟩

theorem stageRefCheck_none {ref : Ref} (h : stageRefCheck ref s = none) :
    s.commit.state = .idle ∧ ∃ r ∈ s.dir.records, r.ref = ref := by
  unfold stageRefCheck at h
  split at h
  · cases h
  · rename_i hidle; exact ⟨not_not.mp hidle, failure_none h⟩

theorem Takes.stageSet (scope : ScopeField) (key : Byte) (value : Half) : Takes i t s (Machine.stageSet scope key value t s) := by
  unfold Machine.stageSet
  split
  · exact .answers ..
  · rename_i sc k h
    obtain ⟨hidle, hsc, hn, hk⟩ := stageEntryCheck_ok h
    split
    · exact .answers ..
    · exact .stageChange _ hidle ⟨hsc, hn, k, hk, rfl⟩

theorem Takes.stageClear (scope : ScopeField) (key : Byte) : Takes i t s (Machine.stageClear scope key t s) := by
  unfold Machine.stageClear
  split
  · exact .answers ..
  · rename_i sc k h
    obtain ⟨hidle, hsc, hn, hk⟩ := stageEntryCheck_ok h
    exact .stageChange _ hidle ⟨hsc, hn, k, hk, rfl⟩

theorem Takes.stagePlace (ref : Ref) (col row displace : Byte) : Takes i t s (Machine.stagePlace ref col row displace t s) := by
  unfold Machine.stagePlace
  split
  · exact .answers ..
  · split
    · exact .answers ..
    · rename_i h
      obtain ⟨hidle, hr⟩ := stageRefCheck_none h
      split
      · exact .answers ..
      · rename_i hcell
        exact .stageChange _ hidle ⟨hr, by simp only; omega, by simp only; omega⟩

theorem Takes.stageUnplace (ref : Ref) : Takes i t s (Machine.stageUnplace ref t s) := by
  unfold Machine.stageUnplace
  split
  · exact .answers ..
  · rename_i h
    obtain ⟨hidle, hr⟩ := stageRefCheck_none h
    exact .stageChange _ hidle hr

theorem Takes.stageGroups (ref : Ref) (numbers : List Byte) : Takes i t s (Machine.stageGroups ref numbers t s) := by
  unfold Machine.stageGroups
  split
  · exact .answers ..
  · split
    · exact .answers ..
    · rename_i h
      obtain ⟨hidle, hr⟩ := stageRefCheck_none h
      exact .stageChange _ hidle hr

theorem Takes.discard (f : SelectorField) : Takes i t s (Machine.discard f t s) := by
  unfold Machine.discard
  split
  · exact .answers ..
  · split
    · exact .answers ..
    · split
      · exact .answers ..
      · rename_i hidle
        split
        · exact .answers ..
        · split
          · exact .discards [] _ (not_not.mp hidle) (List.nil_sublist _)
          · unfold discardTarget
            split
            · exact .discards _ _ (not_not.mp hidle) (List.eraseIdx_sublist ..)
            · exact .answers ..

theorem Takes.commit (policy : Byte) : Takes i t s (commitRequest policy t s) := by
  unfold commitRequest
  split
  · exact .answers ..
  · split
    · exact .answers ..
    · rename_i hidle
      split
      · exact .answers ..
      · unfold validateCommit
        dsimp only
        split
        · exact .answers ..
        · rename_i hsize
          split
          · exact .answers ..
          · rename_i hplaces
            split
            · exact .answers ..
            · exact .commits _ _ (not_not.mp hidle) (not_lt.mp hsize) hplaces

theorem Takes.abort : Takes i t s (Machine.abort t s) := by
  unfold Machine.abort
  dsimp only
  split
  · exact .answers ..
  · rename_i h; exact .aborts (.inl h)
  · rename_i h; exact .aborts (.inr h)
  · exact .answers ..
  · exact .answers ..

theorem Takes.setFrame (polarity enable : Byte) : Takes i t s (Machine.setFrame polarity enable t s) := by
  unfold Machine.setFrame
  split
  · exact .setsFrame ..
  · exact .answers ..

theorem Takes.boundaryNow (b : Byte) (hi : i = .boundaryNow b) : Takes i t s (Machine.boundaryNow t s) := by
  unfold Machine.boundaryNow
  split
  · exact .answers ..
  · rename_i hp
    have hnone : s.boundary.pendingNow = none := by simpa using hp
    split
    · rename_i hsp; exact .makesBoundary b hi hnone hsp
    · rename_i hsp
      split
      · exact .awaitsBoundary _ hnone
      · rename_i hprev; simp [spacingHolds, hprev] at hsp

theorem Takes.linkEnable (link : Byte) : Takes i t s (Machine.linkEnable link t s) := by
  unfold Machine.linkEnable
  split
  · exact .answers ..
  · unfold enableLink
    split
    · rename_i hl; exact .enables _ hl
    · exact .answers ..

theorem Takes.linkDisable (link : Byte) : Takes i t s (Machine.linkDisable link t s) := by
  unfold Machine.linkDisable
  split
  · exact .answers ..
  · split
    · exact .answers ..
    · rename_i hl; exact .stopsTraining _ hl
    · rename_i hl; exact .disables _ (by simp [LinkEngine.isUp, hl])
    · rename_i hl; exact .disables _ (by simp [LinkEngine.isUp, hl])

theorem Takes.linkStatus (link : Byte) : Takes i t s (Machine.linkStatus link t s) := by
  unfold Machine.linkStatus; split <;> exact .answers ..

theorem Takes.setTiming (link timeout retries missLimit interval : Byte) :
    Takes i t s (Machine.setTiming link timeout retries missLimit interval t s) := by
  unfold Machine.setTiming
  split
  · exact .answers ..
  · dsimp only
    split
    · rename_i hx
      exact .setsTiming _ _ hx ⟨Nat.le_of_lt_succ timeout.isLt, Nat.le_of_lt_succ interval.isLt⟩
    · exact .answers ..

theorem Takes.setDeadlines (prepare arm apply : Half) : Takes i t s (Machine.setDeadlines prepare arm apply t s) := by
  unfold Machine.setDeadlines
  split
  · rename_i h
    simp only [Bool.and_eq_true, deadlineOk, decide_eq_true_iff] at h
    exact .setsDeadlines _ h.1.1 h.1.2 h.2
  · exact .answers ..

theorem Takes.rescan (link : Byte) : Takes i t s (Machine.rescan link t s) := by
  unfold Machine.rescan
  split
  · exact .answers ..
  · split
    · exact .answers ..
    · exact .answers ..
    · exact .answers ..
    · rename_i hl; exact .rescans _ hl

/-- What the checks of a direct access leave: a reachable record that holds the reference (R166). -/
theorem directCheck_ok {ref : Ref} {r : Record} (h : directCheck s ref = .ok r) :
    r ∈ s.dir.records ∧ r.ref = ref ∧ r.state ≠ .stale := by
  unfold directCheck at h
  split at h
  · cases h
  · cases h
  · rename_i x hx
    split at h
    · rename_i hreach
      cases h
      obtain ⟨hm, hr⟩ := checkRef_names hx
      exact ⟨hm, hr, by simpa [Record.reachable] using hreach⟩
    · cases h

theorem Takes.tileRead (ref : Ref) (addr : Byte) : Takes i t s (Machine.tileRead ref addr t s) := by
  unfold Machine.tileRead
  split
  · exact .answers ..
  · rename_i h
    obtain ⟨hm, rfl, hreach⟩ := directCheck_ok h
    exact .accesses _ _ _ hm hreach (.inl ⟨_, rfl, rfl⟩)

theorem Takes.tileWrite (ref : Ref) (addr : Byte) (value : Half) : Takes i t s (Machine.tileWrite ref addr value t s) := by
  unfold Machine.tileWrite
  split
  · exact .answers ..
  · rename_i h
    obtain ⟨hm, rfl, hreach⟩ := directCheck_ok h
    split
    · exact .answers ..
    · exact .accesses _ _ _ hm hreach (.inr ⟨_, _, rfl, rfl⟩)

theorem Takes.setAttnMask (m : BitVec 24) : Takes i t s (Machine.setAttnMask m t s) := by
  unfold Machine.setAttnMask
  split
  · exact .answers ..
  · exact .masks ..

theorem Takes.describe (ref : Ref) : Takes i t s (Machine.describe ref t s) := by
  unfold Machine.describe; split <;> exact .answers ..

theorem Takes.lookupId (uid : Uid) : Takes i t s (Machine.lookupId uid t s) := by
  unfold Machine.lookupId; split <;> exact .answers ..

theorem Takes.lookupPos (col row : Byte) : Takes i t s (Machine.lookupPos col row t s) := by
  unfold Machine.lookupPos; (repeat' split) <;> exact .answers ..

theorem Takes.describeKey (key : Byte) : Takes i t s (Machine.describeKey key t s) := by
  unfold Machine.describeKey; (repeat' split) <;> exact .answers ..

theorem Takes.listEntries (cursor : CursorField) : Takes i t s (Machine.listEntries cursor t s) := by
  unfold Machine.listEntries; split <;> exact .answers ..

theorem Takes.stagingList (cursor : Byte) : Takes i t s (Machine.stagingList cursor t s) := by
  unfold Machine.stagingList; split <;> exact .answers ..

end

theorem Does.submit {c i : Instr} (hc : spoken c = i) {n : Nat} {b : Byte} {f : Tag → State → State} {s : State}
    (h : ∀ t s, Takes i t s (f t s)) : Does c s (submit n b f s) := by
  rcases submit_cases n b f s with h0 | ⟨a, ha⟩ | ⟨t, hacc, ht⟩
  · rw [h0]; exact .nothing c s
  · rw [ha]; exact .shows a _
  · rw [ht]; exact .takes n b t _ hacc (hc ▸ h t _)

/-- What a request does, given by itself or spelled by the bytes of another command. -/
theorem does_request {c i : Instr} (hc : spoken c = i) (hreq : requestOf i ≠ none) (s : State) :
    ∃ s', exec i s = .next s' ∧ Does c s s' := by
  cases i
  case stageGroups b f ns =>
    by_cases hn : ns.length ≤ 16
    · refine ⟨_, by simp only [exec, execStageGroups, if_pos hn]; rfl, .submit hc fun t s => .stageGroups ..⟩
    · refine ⟨_, by simp only [exec, execStageGroups, if_neg hn]; rfl, ?_⟩
      unfold refuseCount
      split
      · exact .nothing c s
      · exact .shows _ _
  case lookupId => exact ⟨_, rfl, .submit hc fun t s => .lookupId ..⟩
  case lookupPos => exact ⟨_, rfl, .submit hc fun t s => .lookupPos ..⟩
  case describe => exact ⟨_, rfl, .submit hc fun t s => .describe ..⟩
  case list => exact ⟨_, rfl, .submit hc fun t s => .list ..⟩
  case setGrace => exact ⟨_, rfl, .submit hc fun t s => .setsGrace ..⟩
  case retire => exact ⟨_, rfl, .submit hc fun t s => .retire ..⟩
  case defineKey => exact ⟨_, rfl, .submit hc fun t s => .defineKey ..⟩
  case undefineKey => exact ⟨_, rfl, .submit hc fun t s => .undefineKey ..⟩
  case describeKey => exact ⟨_, rfl, .submit hc fun t s => .describeKey ..⟩
  case readEntry => exact ⟨_, rfl, .submit hc fun t s => .readEntry ..⟩
  case listEntries => exact ⟨_, rfl, .submit hc fun t s => .listEntries ..⟩
  case resolve => exact ⟨_, rfl, .submit hc fun t s => .resolve ..⟩
  case stageSet => exact ⟨_, rfl, .submit hc fun t s => .stageSet ..⟩
  case stageClear => exact ⟨_, rfl, .submit hc fun t s => .stageClear ..⟩
  case stagePlace => exact ⟨_, rfl, .submit hc fun t s => .stagePlace ..⟩
  case stageUnplace => exact ⟨_, rfl, .submit hc fun t s => .stageUnplace ..⟩
  case discard => exact ⟨_, rfl, .submit hc fun t s => .discard ..⟩
  case stagingList => exact ⟨_, rfl, .submit hc fun t s => .stagingList ..⟩
  case commit => exact ⟨_, rfl, .submit hc fun t s => .commit ..⟩
  case abort => exact ⟨_, rfl, .submit hc fun t s => .abort ..⟩
  case commitStatus => exact ⟨_, rfl, .submit hc fun t s => .answers ..⟩
  case setFrame => exact ⟨_, rfl, .submit hc fun t s => .setFrame ..⟩
  case boundaryNow b => exact ⟨_, rfl, .submit hc fun t s => .boundaryNow b rfl⟩
  case linkEnable => exact ⟨_, rfl, .submit hc fun t s => .linkEnable ..⟩
  case linkDisable => exact ⟨_, rfl, .submit hc fun t s => .linkDisable ..⟩
  case linkStatus => exact ⟨_, rfl, .submit hc fun t s => .linkStatus ..⟩
  case setTiming => exact ⟨_, rfl, .submit hc fun t s => .setTiming ..⟩
  case setDeadlines => exact ⟨_, rfl, .submit hc fun t s => .setDeadlines ..⟩
  case rescan => exact ⟨_, rfl, .submit hc fun t s => .rescan ..⟩
  case tileRead => exact ⟨_, rfl, .submit hc fun t s => .tileRead ..⟩
  case tileWrite => exact ⟨_, rfl, .submit hc fun t s => .tileWrite ..⟩
  case attention => exact ⟨_, rfl, .submit hc fun t s => .attends ..⟩
  case setAttnMask => exact ⟨_, rfl, .submit hc fun t s => .setAttnMask ..⟩
  case identify => exact ⟨_, rfl, .submit hc fun t s => .answers ..⟩
  case clearLinks => exact ⟨_, rfl, .submit hc fun t s => .clearsLinks⟩
  case clearAll b => exact ⟨_, rfl, .submit hc fun t s => .clearsAll b rfl⟩
  all_goals exact absurd rfl hreq

/-! ### SPI transactions given as bytes, and events -/

theorem spoken_submitRefused (f : List Byte) : spoken (.submitRefused f) = (decodeFrame f).getD (.submitRefused f) := rfl

/-- What a frame does as a SUBMIT of a command that spells what the frame spells. -/
theorem does_submitFrame {c : Instr} {f : List Byte} (hc : ∀ i, decodeFrame f = some i → spoken c = i) (s : State) :
    ∃ s', submitFrame f s = .next s' ∧ Does c s s' := by
  by_cases hp : s.phase = .inReset
  · exact ⟨s, submitFrame_inReset hp f, .nothing c s⟩
  · cases hst : s.port.state with
    | resetting => exact ⟨_, submitFrame_resetting hp hst f, .shows _ _⟩
    | ready =>
      rw [submitFrame_ready hp hst]
      cases hj : judgeFrame f with
      | badFrame => exact ⟨_, rfl, .shows _ _⟩
      | unknownRequest => exact ⟨_, rfl, .shows _ _⟩
      | good d =>
        cases d with
        | badClear t => exact ⟨_, rfl, .submit rfl fun t s => .answers ..⟩
        | request i =>
          obtain ⟨r, hr, -, -⟩ := judgeFrame_request_iff.mp hj
          have hreq : requestOf i ≠ none := by rw [hr]; simp
          simp only [runRequest_eq_exec hreq]
          exact does_request (hc i (decodeFrame_iff.mpr hj)) hreq s

theorem does_onBus {c : Instr} {s : State} {f : State → State} (h : Does c s (f s)) : Does c s (onBus f s) := by
  unfold onBus; split
  · exact .nothing c s
  · exact h

theorem does_collect (c : Instr) (n : Nat) (s : State) : Does c s (collect n s) := by
  unfold collect
  split
  · exact .shows _ _
  · rename_i x rest hs
    dsimp only
    split
    · exact .collects x rest _ hs
    · exact .shows _ _

theorem does_void (first : Option Byte) (rest : List Byte) (s : State) :
    ∃ s', exec (.voidTransaction first rest) s = .next s' ∧ Does (.voidTransaction first rest) s s' := by
  show ∃ s', execVoidTransaction first rest s = _ ∧ _
  unfold execVoidTransaction
  split
  · rename_i f hf
    apply does_submitFrame
    intro i hi
    simp [spoken, hf, hi]
  · exact ⟨_, rfl, does_onBus (does_collect _ _ s)⟩
  · exact ⟨_, rfl, does_onBus (.shows _ _)⟩
  · exact ⟨_, rfl, does_onBus (.shows _ _)⟩
  · exact ⟨_, rfl, does_onBus (.shows _ _)⟩

/-- An event happens while the hub operates, if it can occur. -/
theorem does_whenOperating {c : Instr} {s : State} {g : State → State} (h : Occurs c s (g s) ∨ g s = s) :
    Does c s (whenOperating g s) := by
  unfold whenOperating
  split
  · rename_i hop
    rcases h with h | h
    · exact .occurs _ hop h
    · rw [h]; exact .nothing c s
  · exact .nothing c s

section
variable (i : Instr) (s : State)

theorem occurs_frameEdge (e : Edge) : Occurs (.frameEdge e) s (frameEdge e s) ∨ frameEdge e s = s := by
  unfold frameEdge
  split
  · exact .inr rfl
  · dsimp only
    split
    · rename_i h
      refine .inl ?_
      have hw : ∀ {α : Type} (g : State → α), (∀ s f, g (modBoundary f s) = g s) → (∀ s, g (raiseDevice .frameRestored s) = g s) →
          g (watchEdge s) = g s := by
        intro α g h1 h2; unfold watchEdge; dsimp only; split <;> simp [h1, h2]
      have h1 := hw (fun s => s.port.completions.length) (fun _ _ => rfl) (fun _ => rfl)
      have h2 := hw (fun s => s.commit.state) (fun _ _ => rfl) (fun _ => rfl)
      have h3 : spacingHolds (watchEdge s) = spacingHolds s := by
        unfold watchEdge; dsimp only; split <;> rfl
      rw [h1, h2]
      exact .makesBoundary ⟨e, rfl⟩ (h3 ▸ h.2)
    · exact .inl (.counts ⟨e, rfl⟩)

theorem occurs_watchExpiry : Occurs i s (watchExpiry s) ∨ watchExpiry s = s := by
  unfold watchExpiry
  split
  · exact .inl (.watchEnds _)
  · exact .inr rfl

theorem occurs_boundaryDue : Occurs .boundaryNowDue s (boundaryDue s) ∨ boundaryDue s = s := by
  unfold boundaryDue
  split
  · rename_i p hp; exact .inl (.falls p rfl hp)
  · exact .inr rfl

theorem occurs_lockAchieved (l : LinkId) : Occurs i s (lockAchieved l s) ∨ lockAchieved l s = s := by
  unfold lockAchieved
  split
  · rename_i h; exact .inl (.locks l h)
  · exact .inr rfl

theorem occurs_lockLoss (l : LinkId) : Occurs i s (lockLoss l s) ∨ lockLoss l s = s := by
  unfold lockLoss
  split
  · rename_i h; exact .inl (.loses l h)
  · exact .inr rfl

theorem occurs_noLockExpiry (l : LinkId) : Occurs i s (noLockExpiry l s) ∨ noLockExpiry l s = s := by
  unfold noLockExpiry
  split
  · rename_i h _; exact .inl (.lockFails l _ h)
  · exact .inr rfl

theorem occurs_linkReply (l : LinkId) (bytes : List Byte) : Occurs i s (linkReply l bytes s) ∨ linkReply l bytes s = s := by
  unfold linkReply
  split
  · exact .inr rfl
  · rename_i f hf
    split
    · exact .inl (.forgets l)
    · split
      · rename_i st reply hj; exact .inl (.hears l f st reply bytes hf hj)
      · exact .inr rfl
      · exact .inl (.garbles l f hf)

theorem occurs_replyTimeout (l : LinkId) : Occurs i s (replyTimeout l s) ∨ replyTimeout l s = s := by
  unfold replyTimeout
  split
  · exact .inr rfl
  · rename_i f hf; exact .inl (.expires l f hf)

theorem occurs_broadcastSent (l : LinkId) : Occurs i s (broadcastSent l s) ∨ broadcastSent l s = s := by
  unfold broadcastSent
  split
  · rename_i h; exact .inl (.broadcasts l h)
  · exact .inr rfl

theorem occurs_rollCallDue (l : LinkId) : Occurs i s (rollCallDue l s) ∨ rollCallDue l s = s := by
  unfold rollCallDue
  split
  · rename_i h; exact .inl (.rolls l h)
  · exact .inr rfl

theorem occurs_graceExpiry (h : Nat) : Occurs i s (graceExpiry h s) ∨ graceExpiry h s = s := by
  unfold graceExpiry
  split
  · exact .inr rfl
  · dsimp only
    split
    · rename_i hidle; exact .inl (.expiresGrace h _ hidle)
    · exact .inl (.defersGrace _)

theorem occurs_prepareDeadline : Occurs i s (prepareDeadline s) ∨ prepareDeadline s = s := by
  unfold prepareDeadline
  split
  · rename_i h _
    dsimp only
    split
    · exact .inl (.cancels _ _ (.inl h) rfl)
    · exact .inl (.excludes _ h)
  · exact .inr rfl

theorem occurs_armDeadline : Occurs i s (armDeadline s) ∨ armDeadline s = s := by
  unfold armDeadline
  split
  · rename_i h _; exact .inl (.cancels _ _ (.inr h) rfl)
  · exact .inr rfl

theorem occurs_applyDeadline : Occurs i s (applyDeadline s) ∨ applyDeadline s = s := by
  unfold applyDeadline
  split
  · rename_i h _; exact .inl (.lags _ h)
  · exact .inr rfl

end

theorem does_ownRequest {c : Instr} (hc : spoken c = c) (hreq : requestOf c ≠ none) (s : State) :
    ∃ s', exec c s = .next s' ∧ Does c s s' := does_request hc hreq s

/-- Every command answers a next state, which it reaches in one of the ways of `Does`. -/
theorem exec_does (c : Instr) (s : State) : ∃ s', exec c s = .next s' ∧ Does c s s' := by
  cases c
  case collect n => exact ⟨_, rfl, does_onBus (does_collect _ n s)⟩
  case status n => exact ⟨_, rfl, does_onBus (.shows _ _)⟩
  case voidTransaction first rest => exact does_void first rest s
  case submitRefused f => exact does_submitFrame (fun i hi => by rw [spoken_submitRefused, hi]; rfl) s
  case clearIntervalEnd =>
    refine ⟨_, rfl, ?_⟩
    unfold whenOperating clearIntervalEnd
    split
    · split
      · rename_i x hx; exact .clears x hx
      · exact .nothing _ s
    · exact .nothing _ s
  case deviceReset => exact ⟨_, rfl, .resets _ (.inl rfl)⟩
  case resetRelease => exact ⟨_, rfl, .resets _ (.inr rfl)⟩
  case startupIntervalEnd =>
    refine ⟨_, rfl, ?_⟩
    unfold startupEnd
    split
    · rename_i h; exact .starts h
    · exact .nothing _ s
  case frameEdge e => exact ⟨_, rfl, does_whenOperating (occurs_frameEdge s e)⟩
  case frameWatchExpiry => exact ⟨_, rfl, does_whenOperating (occurs_watchExpiry _ s)⟩
  case boundaryNowDue => exact ⟨_, rfl, does_whenOperating (occurs_boundaryDue s)⟩
  case lockAchieved l => exact ⟨_, rfl, does_whenOperating (occurs_lockAchieved _ s l)⟩
  case lockLoss l => exact ⟨_, rfl, does_whenOperating (occurs_lockLoss _ s l)⟩
  case noLockExpiry l => exact ⟨_, rfl, does_whenOperating (occurs_noLockExpiry _ s l)⟩
  case linkReply l bytes => exact ⟨_, rfl, does_whenOperating (occurs_linkReply _ s l bytes)⟩
  case replyTimeout l => exact ⟨_, rfl, does_whenOperating (occurs_replyTimeout _ s l)⟩
  case broadcastSent l => exact ⟨_, rfl, does_whenOperating (occurs_broadcastSent _ s l)⟩
  case rollCallDue l => exact ⟨_, rfl, does_whenOperating (occurs_rollCallDue _ s l)⟩
  case graceExpiry h => exact ⟨_, rfl, does_whenOperating (occurs_graceExpiry _ s h)⟩
  case prepareDeadlineExpiry => exact ⟨_, rfl, does_whenOperating (occurs_prepareDeadline _ s)⟩
  case armDeadlineExpiry => exact ⟨_, rfl, does_whenOperating (occurs_armDeadline _ s)⟩
  case applyDeadlineExpiry => exact ⟨_, rfl, does_whenOperating (occurs_applyDeadline _ s)⟩
  all_goals exact does_ownRequest rfl (fun h => by cases h) s

theorem does_of_exec {c : Instr} {s s' : State} (h : exec c s = .next s') : Does c s s' := by
  obtain ⟨s'', hs, hd⟩ := exec_does c s
  rw [h] at hs
  cases hs
  exact hd

end Sys2Proof.Machine
end

section
/-! PROOFS. What every operation inside an event does to the shape of the hub, the committed epoch, the commit state, the Key Table,
the Boundary Unit and the Staging List (`Evolves`): one rule per operation, each said of a state that the event has reached. -/

namespace Sys2Proof.Machine

/-! ### The shape within an event -/

/-- A link engine of the right shape within an event, when hop scans may still have to be queued. -/
structure EngineShaped (e : LinkEngine) : Prop where
  hops : e.hops.length = 16
  lastSeq : e.lastSeq.length = 16
  seqCounter : e.seqCounter < 16
  hostRun : e.hostRun ≤ 4
  timing : 1 ≤ e.timing.timeout ∧ e.timing.timeout ≤ 255 ∧ e.timing.retries ≤ 7 ∧ 1 ≤ e.timing.missLimit
    ∧ e.timing.missLimit ≤ 15 ∧ 1 ≤ e.timing.interval ∧ e.timing.interval ≤ 255

/-- A Tile Directory of the right shape. -/
structure DirShaped (d : Directory) : Prop where
  gens : d.gens.length = 80 ∧ ∀ g ∈ d.gens, g < 16
  grace : d.grace ≤ 255
  recordOrder : d.records.Pairwise (fun a b => a.ref.handle ≤ b.ref.handle)

/-- A Key Table, a Setting Store and a Staging List of the right shape. -/
structure SettingsShaped (s : State) : Prop where
  entryOrder : s.store.Pairwise (fun a b => a.rank ≤ b.rank)
  keys : ∀ k ∈ s.keys, KeyInRange k
  keyOrder : s.keys.Pairwise (fun a b => a.number < b.number ∧ a.addr ≠ b.addr)
  staged : s.staging.length ≤ 64
  targets : s.staging.Pairwise (fun a b => sameTarget a.target b.target = false)

/-- Deadline settings of 1..1000 ms. -/
def LengthsShaped (d : Deadlines) : Prop :=
  (1 ≤ d.prepare ∧ d.prepare ≤ 1000) ∧ (1 ≤ d.arm ∧ d.arm ≤ 1000) ∧ (1 ≤ d.apply ∧ d.apply ≤ 1000)

/-- The shape of the hub's state within an event: that of `WellShaped`, but that hop scans may still have to be queued. -/
structure Shaped (s : State) : Prop where
  dir : DirShaped s.dir
  attention : s.port.attn.handles.length = 80
  settings : SettingsShaped s
  lengths : LengthsShaped s.commit.lengths
  links : ∀ l, EngineShaped (s.links.get l)

theorem WellShaped.shaped {s : State} (h : WellShaped s) : Shaped s where
  dir := ⟨h.gens, h.grace, h.recordOrder⟩
  attention := h.attention
  settings := ⟨h.entryOrder, h.keys, h.keyOrder, h.staged, h.targets⟩
  lengths := ⟨h.prepare, h.arm, h.apply⟩
  links l := ⟨(h.links l).hops, (h.links l).lastSeq, (h.links l).seqCounter, (h.links l).hostRun, (h.links l).timing⟩

/-- The state is well shaped when no hop scan is left to be queued. -/
theorem Shaped.wellShaped {s : State} (h : Shaped s) (hc : ∀ l, (s.links.get l).caused = []) : WellShaped s where
  gens := h.dir.gens
  grace := h.dir.grace
  attention := h.attention
  recordOrder := h.dir.recordOrder
  entryOrder := h.settings.entryOrder
  keys := h.settings.keys
  keyOrder := h.settings.keyOrder
  staged := h.settings.staged
  targets := h.settings.targets
  prepare := h.lengths.1
  arm := h.lengths.2.1
  apply := h.lengths.2.2
  links l := ⟨(h.links l).hops, (h.links l).lastSeq, (h.links l).seqCounter, (h.links l).hostRun, hc l, (h.links l).timing⟩

/-! ### Link engines -/

/-- What of a link engine its shape is about. -/
def LinkEngine.outline (e : LinkEngine) := (e.hops.length, e.lastSeq.length, e.seqCounter, e.hostRun, e.timing)

theorem EngineShaped.of_outline {e e' : LinkEngine} (h : EngineShaped e) (he : e'.outline = e.outline) : EngineShaped e' := by
  simp only [LinkEngine.outline, Prod.mk.injEq] at he
  obtain ⟨h1, h2, h3, h4, h5⟩ := he
  exact ⟨h1 ▸ h.hops, h2 ▸ h.lastSeq, h3 ▸ h.seqCounter, h4 ▸ h.hostRun, h5 ▸ h.timing⟩

@[simp] theorem outline_setEntry (e : LinkEngine) (hop : Nat) (x : HopEntry) : (e.setEntry hop x).outline = e.outline := by
  simp [LinkEngine.setEntry, LinkEngine.outline]

@[simp] theorem outline_cause (e : LinkEngine) (hop : Nat) : (e.cause hop).outline = e.outline := by
  unfold LinkEngine.cause; split <;> rfl

@[simp] theorem outline_notice (test : HopEntry → Bool) (e : LinkEngine) : (e.notice test).outline = e.outline := by
  unfold LinkEngine.notice
  split
  · exact foldl_keeps LinkEngine.outline fun h e => outline_cause e h
  · rfl
  · rfl

@[simp] theorem outline_forceRollCall (e : LinkEngine) : e.forceRollCall.outline = e.outline := by
  unfold LinkEngine.forceRollCall; split <;> rfl

@[simp] theorem outline_dropFlight (test : Txn → Bool) (e : LinkEngine) : (e.dropFlight test).outline = e.outline := by
  unfold LinkEngine.dropFlight; (repeat' split) <;> rfl

@[simp] theorem outline_dropJobTxns (ref : Ref) (e : LinkEngine) : (e.dropJobTxns ref).outline = e.outline := by
  simp [LinkEngine.dropJobTxns]; rfl

@[simp] theorem outline_suspendFlight (e : LinkEngine) : e.suspendFlight.outline = e.outline := by
  unfold LinkEngine.suspendFlight; (repeat' split) <;> rfl

@[simp] theorem outline_enterRescan (e : LinkEngine) : e.enterRescan.outline = e.outline := by
  simp [LinkEngine.enterRescan]; rfl

theorem nextSeq_lt (e : LinkEngine) (d : Dest) : e.nextSeq d < 16 := by
  unfold LinkEngine.nextSeq
  dsimp only
  (repeat' split) <;> omega

/-- The start of a flight keeps a number of 0..15 for the counter and the hop. -/
theorem EngineShaped.started {e : LinkEngine} (h : EngineShaped e) (now : Nat) (t : Txn) :
    EngineShaped (e.started now (e.newFlight now t)) where
  hops := h.hops
  lastSeq := by
    show (match t.dest with | .directed hp => e.lastSeq.set hp (some _) | _ => e.lastSeq).length = 16
    split <;> simp [h.lastSeq]
  seqCounter := nextSeq_lt _ _
  hostRun := h.hostRun
  timing := h.timing

theorem EngineShaped.down {e : LinkEngine} (h : EngineShaped e) (target : LinkState) (now : Nat) :
    EngineShaped (e.down target now) where
  hops := List.length_replicate ..
  lastSeq := List.length_replicate ..
  seqCounter := h.seqCounter
  hostRun := Nat.zero_le _
  timing := h.timing

theorem EngineShaped.chooseLow {idle : Bool} {e e' : LinkEngine} {t : Txn} (h : EngineShaped e)
    (hc : Machine.chooseLow idle e = some (t, e')) : EngineShaped e' := by
  unfold Machine.chooseLow at hc
  have hrun : ∀ (e' : LinkEngine) (n : Nat), n ≤ 4 → e' = { e with hostQ := e'.hostQ, catchQ := e'.catchQ, hostRun := n } → EngineShaped e' := by
    intro e' n hn he
    rw [he]
    exact ⟨h.hops, h.lastSeq, h.seqCounter, hn, h.timing⟩
  split at hc
  · split at hc
    · split at hc
      · cases hc; exact hrun _ 0 (by omega) rfl
      · rename_i hlim
        cases hc
        exact hrun _ (e.hostRun + 1) (by unfold Config.hostRunLimit at hlim; omega) rfl
    · cases hc; exact hrun _ 0 (by omega) rfl
  · cases hc; exact hrun _ 0 (by omega) rfl
  · split at hc
    · cases hc; exact hrun _ 0 (by omega) rfl
    · split at hc
      · cases hc; exact h
      · cases hc
  · split at hc
    · cases hc; exact h
    · cases hc

/-- The arbiter's choice keeps the shape of its link, the host run count at most 4 (R120). -/
theorem EngineShaped.choose {idle : Bool} {e e' : LinkEngine} {t : Txn} (h : EngineShaped e)
    (hc : Machine.choose idle e = some (t, e')) : EngineShaped e' := by
  unfold Machine.choose at hc
  split at hc
  · split at hc
    · cases hc; exact h.of_outline rfl
    · split at hc
      · cases hc; exact h.of_outline rfl
      · exact h.chooseLow hc
  · split at hc
    · cases hc; exact h.of_outline rfl
    · cases hc
  · cases hc

/-! ### Records -/

theorem mem_insertRec (r x : Record) (rs : List Record) : x ∈ insertRec r rs ↔ x = r ∨ x ∈ rs := by
  induction rs with
  | nil => simp [insertRec]
  | cons y ys ih =>
    unfold insertRec
    split
    · simp
    · simp only [List.mem_cons, ih]
      tauto

/-- A record put in its place keeps the records in handle order. -/
theorem insertRec_order (r : Record) {rs : List Record} (h : rs.Pairwise (fun a b => a.ref.handle ≤ b.ref.handle)) :
    (insertRec r rs).Pairwise (fun a b => a.ref.handle ≤ b.ref.handle) := by
  induction rs with
  | nil => simp [insertRec]
  | cons y ys ih =>
    obtain ⟨hy, hys⟩ := List.pairwise_cons.mp h
    unfold insertRec
    split
    · rename_i hlt
      refine List.pairwise_cons.mpr ⟨fun x hx => ?_, h⟩
      rcases List.mem_cons.mp hx with rfl | hx
      · omega
      · have := hy x hx; omega
    · rename_i hlt
      refine List.pairwise_cons.mpr ⟨fun x hx => ?_, ih hys⟩
      rcases (mem_insertRec r x ys).mp hx with rfl | hx
      · omega
      · exact hy x hx

/-- A change of records that keeps their handles keeps the shape of the directory. -/
theorem DirShaped.map {d : Directory} (h : DirShaped d) {f : Record → Record} (hf : ∀ r, (f r).ref = r.ref) :
    DirShaped { d with records := d.records.map f } where
  gens := h.gens
  grace := h.grace
  recordOrder := List.pairwise_map.mpr (h.recordOrder.imp fun {a b} hab => by simpa [hf] using hab)

/-! ### The relation -/

/-- Where the commit state may have gone within an event that carries out no apply and accepts no COMMIT (R64). -/
def Goes (a b : CommitState) : Bool :=
  a == b || b == .idle || (a == .preparing && (b == .armed || b == .cancelling)) || (a == .armed && b == .cancelling)

theorem Goes.refl (a : CommitState) : Goes a a = true := by cases a <;> rfl

theorem Goes.trans {a b c : CommitState} (h : Goes a b = true) (k : Goes b c = true) : Goes a c = true := by
  revert h k; cases a <;> cases b <;> cases c <;> decide

theorem Goes.of_idle {b : CommitState} (h : Goes .idle b = true) : b = .idle := by
  revert h; cases b <;> decide

/-- What operations inside an event other than the apply and the acceptance of a COMMIT do: they keep the shape, the committed
epoch, the keys and the Boundary Unit; the commit state goes its ways; and the staged changes stay unless the controller is IDLE, when some may be pruned. -/
structure Evolves (s s' : State) : Prop where
  shape : Shaped s → Shaped s'
  epoch : s'.commit.epoch = s.commit.epoch
  goes : Goes s.commit.state s'.commit.state = true
  staging : s'.staging = s.staging ∨ s'.commit.state = .idle
  keys : s'.keys = s.keys
  boundary : s'.boundary = s.boundary
  pruned : s'.staging.Sublist s.staging

namespace Evolves

variable {s₀ s : State}

theorem refl (s : State) : Evolves s s := ⟨id, rfl, Goes.refl _, .inl rfl, rfl, rfl, .refl _⟩

theorem trans {a b c : State} (h : Evolves a b) (k : Evolves b c) : Evolves a c where
  shape := k.shape ∘ h.shape
  epoch := k.epoch.trans h.epoch
  goes := Goes.trans h.goes k.goes
  staging := by
    rcases k.staging with hk | hk
    · rcases h.staging with hh | hh
      · exact .inl (hk.trans hh)
      · exact .inr (Goes.of_idle (hh ▸ k.goes))
    · exact .inr hk
  keys := k.keys.trans h.keys
  boundary := k.boundary.trans h.boundary
  pruned := k.pruned.trans h.pruned

/-- The controller stays IDLE. -/
theorem idle {s s' : State} (h : Evolves s s') (hs : s.commit.state = .idle) : s'.commit.state = .idle :=
  Goes.of_idle (hs ▸ h.goes)

/-- In APPLYING the controller stays or returns to IDLE. -/
theorem applying {s s' : State} (h : Evolves s s') (hs : s.commit.state = .applying) :
    s'.commit.state = .applying ∨ s'.commit.state = .idle := by
  have := h.goes
  rw [hs] at this
  revert this
  cases s'.commit.state <;> decide

/-! ### Updates of one block -/

theorem modPort (h : Evolves s₀ s) {f : HostPort → HostPort}
    (hf : (f s.port).attn.handles.length = s.port.attn.handles.length := by rfl) : Evolves s₀ (Machine.modPort f s) :=
  h.trans ⟨fun k => ⟨k.dir, hf.trans k.attention, ⟨k.settings.1, k.settings.2, k.settings.3, k.settings.4, k.settings.5⟩, k.lengths, k.links⟩,
    rfl, Goes.refl _, .inl rfl, rfl, rfl, .refl _⟩

theorem modDir (h : Evolves s₀ s) {f : Directory → Directory} (hf : DirShaped s.dir → DirShaped (f s.dir)) :
    Evolves s₀ (Machine.modDir f s) :=
  h.trans ⟨fun k => ⟨hf k.dir, k.attention, ⟨k.settings.1, k.settings.2, k.settings.3, k.settings.4, k.settings.5⟩, k.lengths, k.links⟩,
    rfl, Goes.refl _, .inl rfl, rfl, rfl, .refl _⟩

/-- A change of the directory that leaves generations, grace period and records alone. -/
theorem modDirLists (h : Evolves s₀ s) {f : Directory → Directory}
    (hf : ((f s.dir).gens, (f s.dir).grace, (f s.dir).records) = (s.dir.gens, s.dir.grace, s.dir.records) := by rfl) :
    Evolves s₀ (Machine.modDir f s) := by
  simp only [Prod.mk.injEq] at hf
  exact h.modDir fun k => ⟨hf.1 ▸ k.gens, hf.2.1 ▸ k.grace, hf.2.2 ▸ k.recordOrder⟩

theorem modCommit (h : Evolves s₀ s) {f : CommitCtl → CommitCtl}
    (hf : ((f s.commit).lengths, (f s.commit).epoch) = (s.commit.lengths, s.commit.epoch) := by rfl)
    (hg : Goes s.commit.state (f s.commit).state = true := by exact Goes.refl _) : Evolves s₀ (Machine.modCommit f s) := by
  simp only [Prod.mk.injEq] at hf
  exact h.trans ⟨fun k => ⟨k.dir, k.attention, ⟨k.settings.1, k.settings.2, k.settings.3, k.settings.4, k.settings.5⟩,
    by rw [modCommit_commit, hf.1]; exact k.lengths, k.links⟩, hf.2, hg, .inl rfl, rfl, rfl, .refl _⟩

theorem modJobs (h : Evolves s₀ s) {l : LinkId} {f : List Job → List Job} : Evolves s₀ (Machine.modJobs l f s) :=
  h.trans ⟨fun k => ⟨k.dir, k.attention, ⟨k.settings.1, k.settings.2, k.settings.3, k.settings.4, k.settings.5⟩, k.lengths, k.links⟩,
    rfl, Goes.refl _, .inl rfl, rfl, rfl, .refl _⟩

theorem modLink (h : Evolves s₀ s) {l : LinkId} {f : LinkEngine → LinkEngine} (hf : EngineShaped (s.links.get l) → EngineShaped (f (s.links.get l))) :
    Evolves s₀ (Machine.modLink l f s) := by
  refine h.trans ⟨fun k => ⟨k.dir, k.attention, ⟨k.settings.1, k.settings.2, k.settings.3, k.settings.4, k.settings.5⟩, k.lengths, fun i => ?_⟩,
    rfl, Goes.refl _, .inl rfl, rfl, rfl, .refl _⟩
  rw [modLink_links, Quad.get_modify]
  split
  · rename_i hi; subst hi; exact hf (k.links _)
  · exact k.links i

/-- A change of a link engine outside what its shape is about. -/
theorem modLinkOutline (h : Evolves s₀ s) {l : LinkId} {f : LinkEngine → LinkEngine}
    (hf : (f (s.links.get l)).outline = (s.links.get l).outline := by rfl) : Evolves s₀ (Machine.modLink l f s) :=
  h.modLink fun k => k.of_outline hf

theorem modLinks (h : Evolves s₀ s) {f : LinkEngine → LinkEngine} (hf : ∀ e : LinkEngine, (f e).outline = e.outline := by intro _; rfl) :
    Evolves s₀ (Machine.modLinks f s) :=
  h.trans ⟨fun k => ⟨k.dir, k.attention, ⟨k.settings.1, k.settings.2, k.settings.3, k.settings.4, k.settings.5⟩, k.lengths, fun i => by
    rw [modLinks_links, Quad.get_map]; exact (k.links i).of_outline (hf _)⟩, rfl, Goes.refl _, .inl rfl, rfl, rfl, .refl _⟩

theorem setStore (h : Evolves s₀ s) {es : List Entry} (hes : es.Sublist s.store) : Evolves s₀ (Machine.setStore es s) :=
  h.trans ⟨fun k => ⟨k.dir, k.attention, ⟨k.settings.entryOrder.sublist hes, k.settings.keys, k.settings.keyOrder, k.settings.staged,
    k.settings.targets⟩, k.lengths, k.links⟩, rfl, Goes.refl _, .inl rfl, rfl, rfl, .refl _⟩

theorem setStaging (h : Evolves s₀ s) {cs : List Change} (hcs : cs.Sublist s.staging) (hst : cs = s.staging ∨ s.commit.state = .idle) :
    Evolves s₀ (Machine.setStaging cs s) :=
  h.trans ⟨fun k => ⟨k.dir, k.attention, ⟨k.settings.entryOrder, k.settings.keys, k.settings.keyOrder,
    hcs.length_le.trans k.settings.staged, k.settings.targets.sublist hcs⟩, k.lengths, k.links⟩, rfl, Goes.refl _, hst, rfl, rfl, hcs⟩

theorem setChoices (h : Evolves s₀ s) {n : Nat} : Evolves s₀ { s with choices := n } :=
  h.trans ⟨fun k => ⟨k.dir, k.attention, ⟨k.settings.1, k.settings.2, k.settings.3, k.settings.4, k.settings.5⟩, k.lengths, k.links⟩,
    rfl, Goes.refl _, .inl rfl, rfl, rfl, .refl _⟩

theorem advanceTo (h : Evolves s₀ s) {m : Nat} : Evolves s₀ (Machine.advanceTo m s) :=
  h.trans ⟨fun k => ⟨k.dir, k.attention, ⟨k.settings.1, k.settings.2, k.settings.3, k.settings.4, k.settings.5⟩, k.lengths, k.links⟩,
    rfl, Goes.refl _, .inl rfl, rfl, rfl, .refl _⟩

theorem forEach (h : Evolves s₀ s) {α : Type} {xs : List α} {f : α → State → State} (hf : ∀ x s, Evolves s (f x s)) :
    Evolves s₀ (Machine.forEach xs f s) := by
  unfold Machine.forEach
  induction xs generalizing s with
  | nil => exact h
  | cons x xs ih => exact ih (h.trans (hf x s))

/-- A sequence of operations that the IDLE controller allows. -/
theorem forEachIdle (h : Evolves s₀ s) {α : Type} {xs : List α} {f : α → State → State} (hidle : s.commit.state = .idle)
    (hf : ∀ x s, s.commit.state = .idle → Evolves s (f x s)) : Evolves s₀ (Machine.forEach xs f s) := by
  unfold Machine.forEach
  induction xs generalizing s with
  | nil => exact h
  | cons x xs ih => exact ih (h.trans (hf x s hidle)) ((hf x s hidle).idle hidle)

/-! ### Completions, attention, records and hop maps -/

theorem complete (h : Evolves s₀ s) {t : Tag} {k : ReqKind} {st : Status} {q : Byte} {res : List Byte} :
    Evolves s₀ (Machine.complete t k st q res s) := h.modPort
theorem orderCompletions (h : Evolves s₀ s) {n : Nat} : Evolves s₀ (Machine.orderCompletions n s) := h.modPort
theorem holdTag (h : Evolves s₀ s) {t : Tag} {r : Running} : Evolves s₀ (Machine.holdTag t r s) := h.modPort
theorem raiseDevice (h : Evolves s₀ s) {r : Reason} : Evolves s₀ (Machine.raiseDevice r s) := h.modPort
theorem raiseLink (h : Evolves s₀ s) {l : LinkId} {r : Reason} : Evolves s₀ (Machine.raiseLink l r s) := h.modPort
theorem raiseHandle (h : Evolves s₀ s) {n : Nat} {r : Reason} : Evolves s₀ (Machine.raiseHandle n r s) :=
  h.modPort (by simp [AttnSet.raiseHandle])

theorem endRunning (h : Evolves s₀ s) {st : Status} {t : Tag} : Evolves s₀ (Machine.endRunning st t s) := by
  unfold Machine.endRunning
  split
  · exact h.complete
  · exact h

theorem updRec (h : Evolves s₀ s) {n : Nat} {f : Record → Record} (hf : ∀ r, (f r).ref = r.ref := by intro _; rfl) :
    Evolves s₀ (Machine.updRec n f s) := by
  refine h.modDir fun k => k.map fun r => ?_
  split
  · exact hf r
  · rfl

theorem removeMark (h : Evolves s₀ s) {loc : Loc} : Evolves s₀ (Machine.removeMark loc s) := h.modDirLists
theorem returnHandle (h : Evolves s₀ s) {n : Nat} : Evolves s₀ (Machine.returnHandle n s) := h.modDirLists
theorem setHop (h : Evolves s₀ s) {l : LinkId} {hop : Nat} {x : HopEntry} : Evolves s₀ (Machine.setHop l hop x s) :=
  h.modLinkOutline (outline_setEntry ..)

theorem setUnlisted (h : Evolves s₀ s) {l : LinkId} {hop : Nat} {why : Unlisted} : Evolves s₀ (Machine.setUnlisted l hop why s) := by
  have hraise : ∀ same : Bool, Evolves s₀ (if same then Machine.setHop l hop (.unlisted why) s
      else Machine.raiseLink l .unlistedFound (Machine.setHop l hop (.unlisted why) s)) := by
    intro same
    split
    · exact h.setHop
    · exact h.setHop.raiseLink
  exact hraise _

theorem noticeHandle (h : Evolves s₀ s) : Evolves s₀ (Machine.noticeHandle s) := h.modLinks (outline_notice _)
theorem noticeId (h : Evolves s₀ s) {u : Uid} : Evolves s₀ (Machine.noticeId u s) := h.modLinks (outline_notice _)
theorem queueHopScans (h : Evolves s₀ s) : Evolves s₀ (Machine.queueHopScans s) := h.modLinks

theorem dropAssignment (h : Evolves s₀ s) {l : LinkId} {a : Assignment} : Evolves s₀ (Machine.dropAssignment l a s) := by
  unfold Machine.dropAssignment
  dsimp only
  split
  · exact h.removeMark.modLinkOutline.returnHandle.noticeHandle.noticeId
  · exact h.removeMark.modLinkOutline.noticeId

/-! ### Jobs -/

theorem makeJob (h : Evolves s₀ s) {n : Nat} : Evolves s₀ (Machine.makeJob n s) := by
  unfold Machine.makeJob
  split
  · split
    · exact h.modJobs
    · exact h
  · exact h

theorem removeJob (h : Evolves s₀ s) {ref : Ref} : Evolves s₀ (Machine.removeJob ref s) :=
  (h.forEach fun _ s => (refl s).modJobs).modLinks (outline_dropJobTxns _)

theorem updJob (h : Evolves s₀ s) {l : LinkId} {ref : Ref} {f : Job → Job} : Evolves s₀ (Machine.updJob l ref f s) := h.modJobs
theorem jobToTail (h : Evolves s₀ s) {l : LinkId} {ref : Ref} {f : Job → Job} : Evolves s₀ (Machine.jobToTail l ref f s) := h.modJobs

theorem restartAllJobs (h : Evolves s₀ s) : Evolves s₀ (Machine.restartAllJobs s) := by
  refine Evolves.forEach (h.trans ?_) fun j s => (refl s).modLinks (outline_dropJobTxns _)
  exact ⟨fun k => ⟨k.dir, k.attention, ⟨k.settings.1, k.settings.2, k.settings.3, k.settings.4, k.settings.5⟩, k.lengths, k.links⟩,
    rfl, Goes.refl _, .inl rfl, rfl, rfl, .refl _⟩

theorem queueCatchUp (h : Evolves s₀ s) {l : LinkId} {t : Txn} : Evolves s₀ (Machine.queueCatchUp l t s) := h.modLinkOutline
theorem queueNextPacket (h : Evolves s₀ s) {l : LinkId} {j : Job} : Evolves s₀ (Machine.queueNextPacket l j s) := h.queueCatchUp

theorem settleTurn (h : Evolves s₀ s) {l : LinkId} : Evolves s₀ (Machine.settleTurn l s) := by
  unfold Machine.settleTurn
  split
  · dsimp only
    split
    · split
      · exact h.modJobs.updJob.queueNextPacket
      · exact h.modJobs
    · exact h.modJobs
  · exact h

theorem settleTurns (h : Evolves s₀ s) : Evolves s₀ (Machine.settleTurns s) := h.forEach fun _ s => (refl s).settleTurn

theorem jobsTakeBoundary (h : Evolves s₀ s) : Evolves s₀ (Machine.jobsTakeBoundary s) := by
  refine h.forEach fun l s => ?_
  split
  · exact ((refl s).forEach fun j s => (refl s).queueCatchUp).modJobs
  · exact refl s

theorem dropHostWaiting (h : Evolves s₀ s) {l : LinkId} {ref : Ref} : Evolves s₀ (Machine.dropHostWaiting l ref s) :=
  h.modLinkOutline.forEach fun _ s => (refl s).endRunning

theorem unlistHop (h : Evolves s₀ s) {loc : Loc} {ref : Ref} : Evolves s₀ (Machine.unlistHop loc ref s) := by
  refine h.modLinkOutline ?_
  split
  · exact outline_setEntry ..
  · rfl

/-! ### Claims and retirement -/

theorem claimStaleDir (h : Evolves s₀ s) {n : Nat} {reason : StaleReason} : Evolves s₀ (Machine.claimStaleDir n reason s) := by
  unfold Machine.claimStaleDir
  split
  · split
    · exact h
    · exact h.updRec.modDirLists.removeJob.dropHostWaiting.unlistHop.raiseHandle.noticeId
  · exact h

theorem claimActive (h : Evolves s₀ s) {n : Nat} : Evolves s₀ (Machine.claimActive n s) := by
  unfold Machine.claimActive
  split
  · split
    · exact h.updRec.raiseHandle.removeJob
    · exact h
  · exact h

theorem claimLagging (h : Evolves s₀ s) {n : Nat} : Evolves s₀ (Machine.claimLagging n s) := by
  unfold Machine.claimLagging
  split
  · split
    · exact h.updRec.raiseHandle.makeJob
    · exact h
  · exact h

/-- The retirement cascade, with the controller IDLE or with no staged change that names the handle. -/
theorem retire (h : Evolves s₀ s) {n : Nat} (hst : s.commit.state = .idle ∨ s.staging.any (Change.namesHandle n) = false) :
    Evolves s₀ (Machine.retire n s) := by
  unfold Machine.retire
  split
  · rename_i r hr
    have hkept : (s.staging.filter (fun c => !c.namesHandle n)) = s.staging ∨ s.commit.state = .idle := by
      rcases hst with hst | hst
      · exact .inr hst
      · exact .inl (List.filter_eq_self.mpr (by simpa using hst))
    have hset : Evolves s₀ (Machine.setStaging (s.staging.filter (fun c => !c.namesHandle n))
        (Machine.setStore (s.store.filter (fun e => !e.namesHandle n)) s)) :=
      (h.setStore List.filter_sublist).setStaging List.filter_sublist hkept
    have hpruned : Evolves s₀ (if s.staging.any (Change.namesHandle n) then Machine.raiseDevice .stagingPruned (Machine.setStaging
        (s.staging.filter (fun c => !c.namesHandle n)) (Machine.setStore (s.store.filter (fun e => !e.namesHandle n)) s))
        else Machine.setStaging (s.staging.filter (fun c => !c.namesHandle n))
          (Machine.setStore (s.store.filter (fun e => !e.namesHandle n)) s)) := by
      split
      · exact hset.raiseDevice
      · exact hset
    refine (((hpruned.removeJob.dropHostWaiting.modDir fun k => ?_).modPort ?_).noticeHandle).noticeId
    · exact ⟨⟨by rw [List.length_set]; exact k.gens.1, fun g hg => by
        rcases List.mem_or_eq_of_mem_set hg with hg | rfl
        · exact k.gens.2 g hg
        · omega⟩, k.grace, k.recordOrder.sublist List.filter_sublist⟩
    · simp [AttnSet.retireHandle]
  · exact h

theorem expireAll (h : Evolves s₀ s) (hidle : s.commit.state = .idle) : Evolves s₀ (Machine.expireAll s) :=
  h.forEachIdle hidle fun _ s hs => (refl s).retire (.inl hs)

theorem takeHandle (h : Evolves s₀ s) {n : Nat} {s' : State} (hs : Machine.takeHandle s = some (n, s')) : Evolves s₀ s' := by
  unfold Machine.takeHandle at hs
  split at hs
  · cases hs; exact h.modDirLists
  · split at hs
    · rename_i hidle _
      dsimp only at hs
      split at hs
      · cases hs; exact (h.retire (.inl hidle)).modDirLists
      · cases hs
    · cases hs

theorem createRecord (h : Evolves s₀ s) {ref : Ref} {info : EnumInfo} {loc : Loc} : Evolves s₀ (Machine.createRecord ref info loc s) :=
  (h.modDir fun k => ⟨k.gens, k.grace, insertRec_order _ k.recordOrder⟩).setHop.raiseHandle.makeJob

theorem rebind (h : Evolves s₀ s) {r : Record} {info : EnumInfo} {loc : Loc} : Evolves s₀ (Machine.rebind r info loc s) := by
  unfold Machine.rebind
  dsimp only
  split
  · exact h.updRec.modDirLists.raiseHandle.setHop.makeJob
  · exact h.updRec.modDirLists.raiseHandle.raiseHandle.setHop.makeJob

/-! ### The course of a commit -/

theorem updPart (h : Evolves s₀ s) {ref : Ref} {f : Participant → Participant} : Evolves s₀ (Machine.updPart ref f s) := h.modCommit
theorem setStatus (h : Evolves s₀ s) {ref : Ref} {st : PartStatus} : Evolves s₀ (Machine.setStatus ref st s) := h.updPart
theorem queueCancel (h : Evolves s₀ s) {p : Participant} : Evolves s₀ (Machine.queueCancel p s) := h.modLinkOutline.updPart
theorem dropPrepares (h : Evolves s₀ s) {p : Participant} : Evolves s₀ (Machine.dropPrepares p s) :=
  h.modLinkOutline (outline_dropFlight ..)

theorem exclude (h : Evolves s₀ s) {p : Participant} : Evolves s₀ (Machine.exclude p s) := by
  unfold Machine.exclude
  dsimp only
  split
  · split
    · exact h.dropPrepares.setStatus.claimLagging.queueCancel
    · exact h.dropPrepares.setStatus.claimLagging
  · exact h.dropPrepares.setStatus

theorem enterCancelling (h : Evolves s₀ s) {reason : CancelReason} (hst : s.commit.state = .preparing ∨ s.commit.state = .armed) :
    Evolves s₀ (Machine.enterCancelling reason s) := by
  have hgo : Goes s.commit.state .cancelling = true := by rcases hst with hst | hst <;> rw [hst] <;> rfl
  have hctl : Evolves s₀ (Machine.modCommit (fun c => { c with
      state := .cancelling, reason := some reason, prepareDl := none, armDl := none }) s) := h.modCommit rfl hgo
  refine (hctl.modLinks (f := fun e => LinkEngine.dropFlight (fun t => t.isPrepare && t.isCommit) (e.dropCommit Txn.isPrepare))
    fun e => ?_).forEach fun p s => (refl s).queueCancel
  exact outline_dropFlight ..

theorem failParticipant (h : Evolves s₀ s) {p : Participant} (hst : s.commit.state = .preparing) :
    Evolves s₀ (Machine.failParticipant p s) := by
  unfold Machine.failParticipant
  split
  · exact h.enterCancelling (.inl hst)
  · exact h.exclude

theorem participantLost (h : Evolves s₀ s) {ref : Ref} : Evolves s₀ (Machine.participantLost ref s) := by
  unfold Machine.participantLost
  split
  · exact h
  · rename_i p hp
    have hd : Evolves s₀ (Machine.modLink p.loc.link (LinkEngine.dropCommit (fun t => t.req == .participant ref)) s) := h.modLinkOutline
    dsimp only
    split
    · rename_i hst
      split
      · exact hd.failParticipant hst
      · exact hd
    · rename_i hst
      split
      · split
        · exact hd.enterCancelling (.inr hst)
        · exact hd.setStatus
      · exact hd
    · split
      · exact hd.setStatus
      · exact hd
    · exact hd
    · exact hd

theorem claimStaleAll (h : Evolves s₀ s) {claims : List (Nat × StaleReason)} : Evolves s₀ (Machine.claimStaleAll claims s) :=
  (h.forEach fun _ s => (refl s).claimStaleDir).forEach fun _ s => (refl s).participantLost
theorem claimStale (h : Evolves s₀ s) {n : Nat} {reason : StaleReason} : Evolves s₀ (Machine.claimStale n reason s) := h.claimStaleAll

theorem confirm (h : Evolves s₀ s) {ref : Ref} : Evolves s₀ (Machine.confirm ref s) := h.setStatus.updRec

theorem examineOne (h : Evolves s₀ s) {entries : List RollEntry} {p : Participant} : Evolves s₀ (Machine.examineOne entries p s) := by
  unfold Machine.examineOne
  split
  · split
    · split
      · exact h.confirm
      · exact h.modLinkOutline
    · exact h.setStatus
  · exact h.setStatus

theorem examine (h : Evolves s₀ s) {l : LinkId} {entries : List RollEntry} : Evolves s₀ (Machine.examine l entries s) :=
  h.forEach fun _ s => (refl s).examineOne

theorem makeLagging (h : Evolves s₀ s) {ref : Ref} : Evolves s₀ (Machine.makeLagging ref s) := h.setStatus.claimLagging

theorem participantReplied (h : Evolves s₀ s) {ref : Ref} {b : Body} {st : TileStatus} {reply : ReplyBody} :
    Evolves s₀ (Machine.participantReplied ref b st reply s) := by
  unfold Machine.participantReplied
  split
  · exact h
  · split
    · split
      · rename_i hst
        split
        · exact h.updPart
        · exact h.failParticipant hst.1
      · exact h
    · split
      · split
        · exact h.confirm.raiseHandle
        · exact h.makeLagging
      · exact h
    · exact h

theorem participantNoReply (h : Evolves s₀ s) {ref : Ref} {b : Body} {limit : Bool} :
    Evolves s₀ (Machine.participantNoReply ref b limit s) := by
  unfold Machine.participantNoReply
  split
  · exact h
  · split
    · split
      · rename_i hst; exact h.failParticipant hst.1
      · exact h
    · split
      · split
        · exact h.claimLagging
        · exact h.makeLagging
      · exact h
    · split
      · split
        · exact h.claimLagging
        · exact h
      · exact h
    · exact h

theorem completeCommit (h : Evolves s₀ s) {st : Status} {q : Byte} {res : List Byte} : Evolves s₀ (Machine.completeCommit st q res s) := by
  unfold Machine.completeCommit
  split
  · exact h.complete
  · exact h

theorem returnToIdle (h : Evolves s₀ s) {applied : Bool} : Evolves s₀ (Machine.returnToIdle applied s) := by
  have hgo : Goes s.commit.state .idle = true := by cases s.commit.state <;> rfl
  have hidle : Evolves s₀ (Machine.modLinks (fun e => LinkEngine.dropFlight Txn.isCommit { e with commitQ := [] })
      (Machine.modCommit (fun c => CommitCtl.idle c.epoch c.lengths) s)) :=
    (h.modCommit rfl hgo).modLinks fun e => outline_dropFlight ..
  have hjobs : ∀ s, s.commit.state = .idle → Evolves s (if applied then Machine.restartAllJobs s else s) := by
    intro s _
    split
    · exact (refl s).restartAllJobs
    · exact refl s
  have hmade : ∀ s, s.commit.state = .idle → Evolves s (Machine.forEach (catchUpHandles s) Machine.makeJob s) :=
    fun s _ => (refl s).forEach fun _ s => (refl s).makeJob
  have hall : ∀ s, s.commit.state = .idle → Evolves s (Machine.forEach (catchUpHandles (if applied then Machine.restartAllJobs s else s))
      Machine.makeJob (if applied then Machine.restartAllJobs s else s)) :=
    fun s hs => (hjobs s hs).trans (hmade _ ((hjobs s hs).idle hs))
  exact ((hidle.trans (hall _ rfl)).expireAll ((hall _ rfl).idle rfl)).noticeHandle

theorem settleCommit (h : Evolves s₀ s) : Evolves s₀ (Machine.settleCommit s) := by
  unfold Machine.settleCommit
  split
  · rename_i hst
    split
    · exact h
    · exact h.modCommit rfl (by rw [hst]; rfl)
  · split
    · exact h
    · exact h.completeCommit.returnToIdle
  · split
    · exact h
    · exact h.completeCommit.returnToIdle
  · exact h

/-! ### Scans and roll calls -/

theorem startAssign (h : Evolves s₀ s) {l : LinkId} {a : Assignment} : Evolves s₀ (Machine.startAssign l a s) :=
  h.modDirLists.modLinkOutline

theorem matchReply (h : Evolves s₀ s) {l : LinkId} {hop : Nat} {full : Bool} {reply : Option EnumInfo} :
    Evolves s₀ (Machine.matchReply l hop full reply s) := by
  unfold Machine.matchReply
  split
  · exact h.setUnlisted
  · split
    · exact h.setUnlisted
    · split
      · exact h.setUnlisted
      · split
        · split
          · exact h
          · exact h.setUnlisted.raiseHandle
        · exact h.startAssign
      · split
        · rename_i hs; exact (h.takeHandle hs).startAssign
        · exact h.setUnlisted

theorem countScan (h : Evolves s₀ s) {l : LinkId} {f : FullScan → FullScan} : Evolves s₀ (Machine.countScan l f s) := h.modLinkOutline
theorem beginScan (h : Evolves s₀ s) {l : LinkId} {t : Option Tag} : Evolves s₀ (Machine.beginScan l t s) := h.modLinkOutline

theorem completeRescan (h : Evolves s₀ s) {l : LinkId} {sc : FullScan} {n : Nat} : Evolves s₀ (Machine.completeRescan l sc n s) := by
  unfold Machine.completeRescan
  split
  · exact h.complete
  · exact h

theorem endScan (h : Evolves s₀ s) {l : LinkId} {r : Nat} : Evolves s₀ (Machine.endScan l r s) := by
  unfold Machine.endScan
  split
  · exact h
  · rename_i sc hsc
    have hend : ∀ s, Evolves s (Machine.modLink l (fun e => { e with
        reach := r, hops := hopsBelow e.hops r, state := .running, lastRollEnd := s.now, rollMet := false, scan := none,
        followUp := false }) s) := fun s => (refl s).modLink fun k =>
      ⟨by simp only [hopsBelow, List.length_append, List.length_take, List.length_replicate, k.hops, Config.hopCount]; omega,
        k.lastSeq, k.seqCounter, k.hostRun, k.timing⟩
    dsimp only
    split
    · exact (((h.claimStaleAll.trans (hend _)).raiseLink.raiseLink).modLinkOutline (outline_notice ..)).completeRescan
    · exact ((h.claimStaleAll.trans (hend _)).raiseLink.raiseLink).completeRescan

theorem nextStep (h : Evolves s₀ s) {l : LinkId} : Evolves s₀ (Machine.nextStep l s) := by
  unfold Machine.nextStep
  split
  · exact h
  · split
    · exact h.modLinkOutline
    · exact h.endScan

theorem stepMatched (h : Evolves s₀ s) {l : LinkId} {full : Bool} : Evolves s₀ (Machine.stepMatched l full s) := by
  unfold Machine.stepMatched
  split
  · exact h.nextStep
  · exact h

theorem enumReplied (h : Evolves s₀ s) {l : LinkId} {hop : Nat} {full : Bool} {st : TileStatus} {reply : ReplyBody} :
    Evolves s₀ (Machine.enumReplied l hop full st reply s) := by
  unfold Machine.enumReplied
  dsimp only
  split
  · split
    · split
      · split
        · exact h.updRec.stepMatched
        · exact h.stepMatched
      · split
        · exact h.claimStale.setHop.countScan.matchReply.stepMatched
        · exact h.claimStale.setHop.matchReply.stepMatched
    · split
      · exact h.claimStale.setHop.countScan.matchReply.stepMatched
      · exact h.claimStale.setHop.matchReply.stepMatched
  · exact h.matchReply.stepMatched

theorem enumNoReply (h : Evolves s₀ s) {l : LinkId} {hop : Nat} {full : Bool} : Evolves s₀ (Machine.enumNoReply l hop full s) := by
  unfold Machine.enumNoReply
  split
  · exact h.endScan
  · refine h.modLinkOutline ?_
    rw [outline_forceRollCall]
    split
    · exact outline_setEntry ..
    · rfl

theorem assignOk (h : Evolves s₀ s) {l : LinkId} {a : Assignment} : Evolves s₀ (Machine.assignOk l a s) := by
  unfold Machine.assignOk
  dsimp only
  split
  · split
    · exact h.removeMark.modLinkOutline.createRecord.countScan
    · exact h.removeMark.modLinkOutline.createRecord
  · split
    · split
      · exact h.removeMark.modLinkOutline.rebind.countScan
      · exact h.removeMark.modLinkOutline.rebind
    · exact h.removeMark.modLinkOutline.setUnlisted.modLinkOutline

theorem assignFailed (h : Evolves s₀ s) {l : LinkId} {a : Assignment} : Evolves s₀ (Machine.assignFailed l a s) :=
  h.setUnlisted.dropAssignment

theorem assignEnded (h : Evolves s₀ s) {l : LinkId} {ok : Bool} : Evolves s₀ (Machine.assignEnded l ok s) := by
  unfold Machine.assignEnded
  split
  · exact h
  · split
    · exact h.assignOk.stepMatched
    · exact h.assignFailed.stepMatched

theorem loseHop (h : Evolves s₀ s) {l : LinkId} {hop : Nat} {ref : Ref} {reason : StaleReason} :
    Evolves s₀ (Machine.loseHop l hop ref reason s) := h.claimStale.setHop

theorem rollScan (h : Evolves s₀ s) {l : LinkId} {hop : Nat} : Evolves s₀ (Machine.rollScan l hop s) := by
  refine h.modLinkOutline ?_
  split
  · exact outline_cause ..
  · rfl

theorem rollHop (h : Evolves s₀ s) {l : LinkId} {entries : List RollEntry} {hop : Nat} : Evolves s₀ (Machine.rollHop l entries hop s) := by
  unfold Machine.rollHop
  split
  · exact h
  · split
    · split
      · exact h.updRec
      · exact h.loseHop.rollScan
    · exact h.loseHop
    · exact h.rollScan
    · exact h
    · exact h
    · exact h.setHop

theorem processRollCall (h : Evolves s₀ s) {l : LinkId} {entries : List RollEntry} :
    Evolves s₀ (Machine.processRollCall l entries s) := h.modLinkOutline.forEach fun _ s => (refl s).rollHop

/-! ### The wire -/

theorem markReached (h : Evolves s₀ s) {t : Txn} : Evolves s₀ (Machine.markReached t s) := by
  unfold Machine.markReached
  split
  · split
    · exact h.updPart
    · exact h
  · exact h

theorem startTxn (h : Evolves s₀ s) {l : LinkId} {t : Txn} : Evolves s₀ (Machine.startTxn l t s) :=
  (h.modLink fun k => (k.started s.now t).of_outline rfl).markReached

theorem arbitrate (h : Evolves s₀ s) {l : LinkId} : Evolves s₀ (Machine.arbitrate l s) := by
  unfold Machine.arbitrate
  dsimp only
  split
  · exact h
  · split
    · rename_i hc; exact (h.modLink fun k => k.choose hc).startTxn
    · exact h

theorem arbitrateAll (h : Evolves s₀ s) : Evolves s₀ (Machine.arbitrateAll s) := h.forEach fun _ s => (refl s).arbitrate

theorem finishLinks (h : Evolves s₀ s) {n : Nat} : Evolves s₀ (Machine.finishLinks n s) :=
  h.queueHopScans.settleTurns.arbitrateAll.orderCompletions

theorem finishEvent (h : Evolves s₀ s) {n : Nat} : Evolves s₀ (Machine.finishEvent n s) := h.settleCommit.finishLinks

theorem hostReplied (h : Evolves s₀ s) {l : LinkId} {hop : Nat} {t : Tag} {st : TileStatus} {reply : ReplyBody} :
    Evolves s₀ (Machine.hostReplied l hop t st reply s) := by
  unfold Machine.hostReplied
  dsimp only
  split
  · split
    · exact h.complete
    · exact h.complete
    · exact h.complete
  · exact h

theorem hostNoReply (h : Evolves s₀ s) {l : LinkId} {hop : Nat} {t : Tag} : Evolves s₀ (Machine.hostNoReply l hop t s) := by
  unfold Machine.hostNoReply
  split
  · exact h.complete
  · exact h

theorem discardJobResult (h : Evolves s₀ s) {l : LinkId} {ref : Ref} : Evolves s₀ (Machine.discardJobResult l ref s) := h.updJob

theorem jobRefused (h : Evolves s₀ s) {l : LinkId} {j : Job} : Evolves s₀ (Machine.jobRefused l j s) := by
  unfold Machine.jobRefused
  split
  · exact (h.modLinkOutline (outline_dropJobTxns ..)).jobToTail
  · exact h.removeJob.raiseHandle

theorem jobPrepareOk (h : Evolves s₀ s) {l : LinkId} {j : Job} : Evolves s₀ (Machine.jobPrepareOk l j s) := by
  unfold Machine.jobPrepareOk
  split
  · exact h.updJob
  · exact h.updJob.queueNextPacket

theorem jobRoundDone (h : Evolves s₀ s) {l : LinkId} {j : Job} : Evolves s₀ (Machine.jobRoundDone l j s) := by
  unfold Machine.jobRoundDone
  split
  · exact h.jobToTail
  · exact h.claimActive

theorem jobReplied (h : Evolves s₀ s) {l : LinkId} {ref : Ref} {b : Body} {st : TileStatus} {reply : ReplyBody} :
    Evolves s₀ (Machine.jobReplied l ref b st reply s) := by
  unfold Machine.jobReplied
  split
  · exact h
  · split
    · split
      · exact h.jobPrepareOk
      · exact h.jobRefused
    · split
      · exact h.jobRoundDone
      · exact h.jobRefused
    · exact h

theorem jobNoReply (h : Evolves s₀ s) {l : LinkId} {ref : Ref} {t : Txn} : Evolves s₀ (Machine.jobNoReply l ref t s) := by
  unfold Machine.jobNoReply
  split
  · exact h
  · exact h.queueCatchUp

theorem setMiss (h : Evolves s₀ s) {l : LinkId} {hop n : Nat} : Evolves s₀ (Machine.setMiss l hop n s) := by
  unfold Machine.setMiss
  split
  · exact h.updRec
  · exact h

theorem claimAtLimit (h : Evolves s₀ s) {l : LinkId} {hop n : Nat} : Evolves s₀ (Machine.claimAtLimit l hop n s) :=
  h.claimStale.setHop.modLinkOutline (outline_forceRollCall _)

theorem rollEnded (h : Evolves s₀ s) {l : LinkId} {t : Txn} {entries : List RollEntry} : Evolves s₀ (Machine.rollEnded l t entries s) := by
  unfold Machine.rollEnded
  dsimp only
  split
  · exact h.modLinkOutline.processRollCall.examine
  · exact h.modLinkOutline.processRollCall

theorem requesterReplied (h : Evolves s₀ s) {l : LinkId} {hop : Nat} {t : Txn} {st : TileStatus} {reply : ReplyBody} :
    Evolves s₀ (Machine.requesterReplied l hop t st reply s) := by
  unfold Machine.requesterReplied
  split
  · exact h.participantReplied
  · split
    · exact h.enumReplied
    · exact h.assignEnded
  · exact h.hostReplied
  · exact h.jobReplied
  · exact h.discardJobResult
  · exact h
  · exact h
  · exact h

theorem requesterNoReply (h : Evolves s₀ s) {l : LinkId} {hop : Nat} {t : Txn} {limit : Bool} :
    Evolves s₀ (Machine.requesterNoReply l hop t limit s) := by
  unfold Machine.requesterNoReply
  split
  · exact h.participantNoReply
  · split
    · exact h.enumNoReply
    · exact h.assignEnded
  · exact h.hostNoReply
  · exact h.jobNoReply
  · exact h.discardJobResult
  · exact h
  · exact h
  · exact h

theorem freeWire (h : Evolves s₀ s) {l : LinkId} : Evolves s₀ (Machine.freeWire l s) := h.modLinkOutline

theorem endReplied (h : Evolves s₀ s) {l : LinkId} {t : Txn} {st : TileStatus} {reply : ReplyBody} :
    Evolves s₀ (Machine.endReplied l t st reply s) := by
  unfold Machine.endReplied
  dsimp only
  split
  · split
    · exact h.freeWire.setMiss.requesterReplied
    · exact h.freeWire.requesterReplied
  · split
    · exact h.freeWire.rollEnded
    · exact h.freeWire
  · exact h.freeWire

theorem missNoReply (h : Evolves s₀ s) {l : LinkId} {hop : Nat} {t : Txn} : Evolves s₀ (Machine.missNoReply l hop t s) := by
  unfold Machine.missNoReply
  split
  · exact h.requesterNoReply
  · dsimp only
    split
    · exact h.setMiss.requesterNoReply
    · split
      · split
        · exact h.setMiss.setChoices.claimAtLimit.requesterNoReply
        · exact h.setMiss.setChoices.requesterNoReply.claimAtLimit
      · exact h.setMiss.claimAtLimit.requesterNoReply

theorem endNoReply (h : Evolves s₀ s) {l : LinkId} {t : Txn} : Evolves s₀ (Machine.endNoReply l t s) := by
  unfold Machine.endNoReply
  dsimp only
  split
  · split
    · exact h.freeWire.missNoReply
    · exact h.freeWire.requesterNoReply
  · exact h.freeWire.rollEnded
  · exact h.freeWire

theorem retryAttempt (h : Evolves s₀ s) {l : LinkId} {f : Flight} : Evolves s₀ (Machine.retryAttempt l f s) := h.modLinkOutline

theorem overtake (h : Evolves s₀ s) {l : LinkId} {f : Flight} {t : Txn} {rest : List Txn} : Evolves s₀ (Machine.overtake l f t rest s) :=
  h.modLink fun k => (k.started s.now t).of_outline rfl

theorem attemptFailed (h : Evolves s₀ s) {l : LinkId} {f : Flight} : Evolves s₀ (Machine.attemptFailed l f s) := by
  unfold Machine.attemptFailed
  split
  · split
    · split
      · exact h.overtake
      · exact h.retryAttempt
    · exact h.retryAttempt
  · exact h.endNoReply

theorem broadcastDone (h : Evolves s₀ s) {l : LinkId} : Evolves s₀ (Machine.broadcastDone l s) := by
  unfold Machine.broadcastDone
  split
  · exact h.modLinkOutline.retryAttempt
  · exact h.modLinkOutline
  · exact h.freeWire

theorem takeDownEngine (h : Evolves s₀ s) {l : LinkId} {target : LinkState} : Evolves s₀ (Machine.takeDownEngine l target s) := by
  have hdown : Evolves s₀ (Machine.modLink l (LinkEngine.down target s.now) s) := h.modLink fun k => k.down target s.now
  unfold Machine.takeDownEngine
  dsimp only
  split
  · exact (hdown.forEach fun _ s => (refl s).endRunning).dropAssignment.raiseLink
  · exact (hdown.forEach fun _ s => (refl s).endRunning).raiseLink

theorem takeDown (h : Evolves s₀ s) {l : LinkId} {target : LinkState} : Evolves s₀ (Machine.takeDown l target s) :=
  h.takeDownEngine.claimStaleAll

end Evolves

end Sys2Proof.Machine
end

section
/-! PROOFS. The steps of the whole hub: what the apply, the acceptance of a COMMIT, the clears and the requests that change settings
do to the shape, the epoch and the Staging List, then every command (`Steps`), and the statements of the whole hub that follow. -/

namespace Sys2Proof.Machine

/-! ### Hop scans left to be queued -/

/-- The hop scans that are still to be queued on each link. -/
def causedOn (s : State) : Quad (List Nat) := s.links.map LinkEngine.caused

/-- No hop scan is left to be queued. -/
def Quiet (s : State) : Prop := ∀ l, (s.links.get l).caused = []

theorem Quiet.of_causedOn {s s' : State} (h : Quiet s) (hs : causedOn s' = causedOn s) : Quiet s' := fun l => by
  have := congrArg (fun q => q.get l) hs
  simpa [causedOn, h l] using this

theorem modLink_causedOn {l : LinkId} {f : LinkEngine → LinkEngine} {s : State}
    (h : (f (s.links.get l)).caused = (s.links.get l).caused) : causedOn (modLink l f s) = causedOn s :=
  modify_keeps s.links l h

theorem chooseLow_caused {idle : Bool} {e e' : LinkEngine} {t : Txn} (h : chooseLow idle e = some (t, e')) : e'.caused = e.caused := by
  unfold chooseLow at h
  (repeat' split at h) <;> cases h <;> rfl

theorem choose_caused {idle : Bool} {e e' : LinkEngine} {t : Txn} (h : choose idle e = some (t, e')) : e'.caused = e.caused := by
  unfold choose at h
  split at h
  · split at h
    · cases h; rfl
    · split at h
      · cases h; rfl
      · exact chooseLow_caused h
  · split at h <;> cases h
    rfl
  · cases h

@[simp] theorem startTxn_causedOn (l : LinkId) (t : Txn) (s : State) : causedOn (startTxn l t s) = causedOn s := by
  unfold startTxn markReached
  split
  · split
    · exact modLink_causedOn (l := l) rfl
    · exact modLink_causedOn rfl
  · exact modLink_causedOn rfl

@[simp] theorem arbitrate_causedOn (l : LinkId) (s : State) : causedOn (arbitrate l s) = causedOn s := by
  unfold arbitrate
  dsimp only
  split
  · rfl
  · split
    · rename_i h
      rw [startTxn_causedOn]
      exact modLink_causedOn (choose_caused h)
    · rfl

@[simp] theorem settleTurn_causedOn (l : LinkId) (s : State) : causedOn (settleTurn l s) = causedOn s := by
  unfold settleTurn
  split
  · dsimp only
    split
    · split
      · exact modLink_causedOn rfl
      · rfl
    · rfl
  · rfl

/-- The end of an event queues every hop scan caused in it (R140). -/
theorem finishLinks_quiet (n : Nat) (s : State) : Quiet (finishLinks n s) := by
  have hq : Quiet (queueHopScans s) := fun l => by simp [queueHopScans, LinkEngine.queueCaused]
  refine hq.of_causedOn ?_
  calc causedOn (finishLinks n s) = causedOn (arbitrateAll (settleTurns (queueHopScans s))) := rfl
    _ = causedOn (settleTurns (queueHopScans s)) := forEach_keeps causedOn arbitrate_causedOn
    _ = causedOn (queueHopScans s) := forEach_keeps causedOn settleTurn_causedOn

theorem finishEvent_quiet (n : Nat) (s : State) : Quiet (finishEvent n s) := finishLinks_quiet n _

/-! ### Settings in order -/

theorem sameScope_iff (a b : Scope) : sameScope a b = true ↔ scopeRank a = scopeRank b ∧ a.ctorIdx = b.ctorIdx := by
  cases a <;> cases b <;> simp [sameScope, scopeRank, Scope.ctorIdx]

/-- An entry stands at the scope and key of another exactly when it has its place in the listing order. -/
theorem Entry.isAt_rank {e n : Entry} (h : e.isAt n.scope n.key = true) : e.rank = n.rank := by
  simp only [Entry.isAt, Bool.and_eq_true, beq_iff_eq] at h
  simp [Entry.rank, placeRank, ((sameScope_iff _ _).mp h.1).1, h.2]

theorem mem_putEntry {n x : Entry} {es : List Entry} (h : x ∈ putEntry n es) : x = n ∨ x ∈ es := by
  induction es with
  | nil => exact .inl (List.mem_singleton.mp h)
  | cons e es ih =>
    unfold putEntry at h
    split at h
    · rcases List.mem_cons.mp h with rfl | h
      · exact .inl rfl
      · exact .inr (List.mem_cons_of_mem _ h)
    · split at h
      · rcases List.mem_cons.mp h with rfl | h
        · exact .inl rfl
        · exact .inr h
      · rcases List.mem_cons.mp h with rfl | h
        · exact .inr List.mem_cons_self
        · exact (ih h).imp id (List.mem_cons_of_mem _)

/-- An entry put into the store leaves it in listing order (R37, R40). -/
theorem putEntry_order (n : Entry) {es : List Entry} (h : es.Pairwise (fun a b => a.rank ≤ b.rank)) :
    (putEntry n es).Pairwise (fun a b => a.rank ≤ b.rank) := by
  induction es with
  | nil => simp [putEntry]
  | cons e es ih =>
    obtain ⟨he, hes⟩ := List.pairwise_cons.mp h
    unfold putEntry
    split
    · rename_i hat
      exact List.pairwise_cons.mpr ⟨fun x hx => Entry.isAt_rank hat ▸ he x hx, hes⟩
    · split
      · rename_i hlt
        refine List.pairwise_cons.mpr ⟨fun x hx => ?_, h⟩
        rcases List.mem_cons.mp hx with rfl | hx
        · omega
        · have := he x hx; omega
      · refine List.pairwise_cons.mpr ⟨fun x hx => ?_, ih hes⟩
        rcases mem_putEntry hx with rfl | hx
        · omega
        · exact he x hx

theorem storeAfter_order {es : List Entry} (cs : List Change) (h : es.Pairwise (fun a b => a.rank ≤ b.rank)) :
    (storeAfter es cs).Pairwise (fun a b => a.rank ≤ b.rank) := by
  unfold storeAfter
  induction cs generalizing es with
  | nil => exact h
  | cons c cs ih =>
    refine ih ?_
    cases c with
    | setVal sc k v => exact putEntry_order _ h
    | clearVal sc k => exact h.sublist List.filter_sublist
    | _ => exact h

theorem mem_insertKey (k x : KeyRec) (ks : List KeyRec) : x ∈ insertKey k ks ↔ x = k ∨ x ∈ ks := by
  induction ks with
  | nil => simp [insertKey]
  | cons y ys ih =>
    unfold insertKey
    split
    · simp
    · simp only [List.mem_cons, ih]
      tauto

/-- A new key record put in its place keeps the Key Table in order and its addresses different (R29, R30). -/
theorem insertKey_order {k : KeyRec} {ks : List KeyRec} (h : ks.Pairwise (fun a b => a.number < b.number ∧ a.addr ≠ b.addr))
    (hnew : ∀ x ∈ ks, x.number ≠ k.number ∧ x.addr ≠ k.addr) :
    (insertKey k ks).Pairwise (fun a b => a.number < b.number ∧ a.addr ≠ b.addr) := by
  induction ks with
  | nil => simp [insertKey]
  | cons y ys ih =>
    obtain ⟨hy, hys⟩ := List.pairwise_cons.mp h
    obtain ⟨hny, hnys⟩ := List.forall_mem_cons.mp hnew
    unfold insertKey
    split
    · rename_i hlt
      refine List.pairwise_cons.mpr ⟨fun x hx => ⟨?_, (hnew x hx).2.symm⟩, h⟩
      rcases List.mem_cons.mp hx with rfl | hx
      · exact hlt
      · have := (hy x hx).1; omega
    · rename_i hlt
      refine List.pairwise_cons.mpr ⟨fun x hx => ?_, ih hys hnys⟩
      rcases (mem_insertKey k x ys).mp hx with rfl | hx
      · exact ⟨by have := hny.1; omega, hny.2⟩
      · exact hy x hx

theorem sameTarget_iff (a b : Target) : sameTarget a b = true ↔
    (∃ sc sc' k, a = .entry sc k ∧ b = .entry sc' k ∧ sameScope sc sc' = true) ∨ (∃ h, a = .position h ∧ b = .position h)
      ∨ ∃ h, a = .groupSet h ∧ b = .groupSet h := by
  cases a <;> cases b <;> grind [sameTarget]

theorem sameScope_right {a b c : Scope} (h : sameScope b c = true) : sameScope a b = sameScope a c := by
  rw [Bool.eq_iff_iff, sameScope_iff, sameScope_iff, ((sameScope_iff _ _).mp h).1, ((sameScope_iff _ _).mp h).2]

theorem sameScope_symm (a b : Scope) : sameScope a b = sameScope b a := by
  rw [Bool.eq_iff_iff, sameScope_iff, sameScope_iff, eq_comm, @eq_comm _ a.ctorIdx]

/-- Targets that are the same are the same as the same others (R48). -/
theorem sameTarget_right {a b c : Target} (h : sameTarget b c = true) : sameTarget a b = sameTarget a c := by
  rcases (sameTarget_iff _ _).mp h with ⟨sc, sc', k, rfl, rfl, hsc⟩ | ⟨n, rfl, rfl⟩ | ⟨n, rfl, rfl⟩
  · cases a with
    | entry x j => simp only [sameTarget, sameScope_right hsc]
    | _ => rfl
  · rfl
  · rfl

theorem sameTarget_symm (a b : Target) : sameTarget a b = sameTarget b a := by
  cases a <;> cases b <;> try rfl
  case entry.entry x j y k => simp only [sameTarget, sameScope_symm x y, Bool.beq_comm (a := j)]
  case position.position x y => exact Bool.beq_comm
  case groupSet.groupSet x y => exact Bool.beq_comm

/-- The staged change found has the target; the ones before it have not. -/
theorem targetIndex_some {cs : List Change} {t : Target} {n : Nat} (h : targetIndex cs t = some n) :
    ∃ hn : n < cs.length, sameTarget (cs[n]).target t = true ∧ ∀ i (hi : i < n), sameTarget (cs[i]).target t = false := by
  obtain ⟨hn, hp, hmin⟩ := List.findIdx?_eq_some_iff_getElem.mp h
  exact ⟨hn, hp, fun i hi => by simpa using hmin i hi⟩

theorem targetIndex_none {cs : List Change} {t : Target} (h : targetIndex cs t = none) :
    ∀ c ∈ cs, sameTarget c.target t = false := by
  simpa [targetIndex, List.findIdx?_eq_none_iff] using h

/-- A change in place of the one with its target keeps the targets different (R49, R54). -/
theorem set_targets {cs : List Change} {c : Change} {n : Nat} (hn : targetIndex cs c.target = some n)
    (h : cs.Pairwise (fun a b => sameTarget a.target b.target = false)) :
    (cs.set n c).Pairwise (fun a b => sameTarget a.target b.target = false) := by
  obtain ⟨hlen, hold, -⟩ := targetIndex_some hn
  rw [List.pairwise_iff_getElem] at h ⊢
  intro i j hi hj hij
  rw [List.length_set] at hi hj
  simp only [List.getElem_set]
  split
  · rename_i hin
    subst hin
    rw [if_neg (by omega), sameTarget_symm, ← sameTarget_right hold, sameTarget_symm]
    exact h n j hlen hj hij
  · split
    · rename_i hjn
      subst hjn
      rw [← sameTarget_right hold]
      exact h i n hi hlen hij
    · exact h i j hi hj hij

/-! ### The apply -/

theorem applyCommit_keeps {β : Type} (g : State → β) (hg : ∀ l f s, g (modLink l f s) = g s) (s : State) :
    ∃ s', g (applyCommit s) = g s' ∧ s'.commit.state = .applying ∧ s'.commit.epoch = s.commit.epoch + 1 ∧ s'.staging = [] := by
  refine ⟨_, forEach_keeps g (fun l s => ?_), rfl, rfl, rfl⟩
  split
  · exact hg ..
  · rfl

theorem applyCommit_state (s : State) : (applyCommit s).commit.state = .applying := by
  obtain ⟨s', h, h', -⟩ := applyCommit_keeps (fun s => s.commit.state) (fun _ _ _ => rfl) s
  exact h.trans h'

theorem applyCommit_epoch (s : State) : (applyCommit s).commit.epoch = s.commit.epoch + 1 := by
  obtain ⟨s', h, -, h', -⟩ := applyCommit_keeps (fun s => s.commit.epoch) (fun _ _ _ => rfl) s
  exact h.trans h'

theorem applyCommit_staging (s : State) : (applyCommit s).staging = [] := by
  obtain ⟨s', h, -, -, h'⟩ := applyCommit_keeps (fun s => s.staging) (fun _ _ _ => rfl) s
  exact h.trans h'

theorem applyCommit_shaped {s : State} (h : Shaped s) : Shaped (applyCommit s) := by
  unfold applyCommit
  dsimp only
  refine Evolves.shape (Evolves.forEach (.refl _) fun l s => ?_) ?_
  · split
    · exact (Evolves.refl s).modLinkOutline
    · exact .refl s
  · refine ⟨h.dir.map fun r => rfl, h.attention, ⟨storeAfter_order _ h.settings.entryOrder, ?_, ?_, Nat.zero_le _, .nil⟩, h.lengths, h.links⟩
    · intro k hk
      obtain ⟨x, hx, rfl⟩ := List.mem_map.mp hk
      exact h.settings.keys x hx
    · exact List.pairwise_map.mpr (h.settings.keyOrder.imp id)

theorem modBoundary_shaped {s : State} (h : Shaped s) (f : BoundaryUnit → BoundaryUnit) : Shaped (modBoundary f s) :=
  ⟨h.dir, h.attention, ⟨h.settings.1, h.settings.2, h.settings.3, h.settings.4, h.settings.5⟩, h.lengths, h.links⟩

theorem boundaryEvent_shaped {s : State} (h : Shaped s) : Shaped (boundaryEvent s) := by
  unfold boundaryEvent
  split
  · exact applyCommit_shaped (modBoundary_shaped h _)
  · exact (Evolves.refl _).jobsTakeBoundary.shape (modBoundary_shaped h _)
  · exact modBoundary_shaped h _

/-- What a boundary event does to the epoch and the Staging List: the apply in ARMED, nothing in another state (R63, R77). -/
theorem boundaryEvent_changes (s : State) :
    ((boundaryEvent s).commit.epoch = s.commit.epoch ∧ (boundaryEvent s).staging = s.staging
        ∧ (boundaryEvent s).commit.state = s.commit.state)
      ∨ (s.commit.state = .armed ∧ (boundaryEvent s).commit.epoch = s.commit.epoch + 1 ∧ (boundaryEvent s).staging = []
        ∧ (boundaryEvent s).commit.state = .applying) := by
  unfold boundaryEvent
  split
  · rename_i h
    exact .inr ⟨h, applyCommit_epoch _, applyCommit_staging _, applyCommit_state _⟩
  · rename_i h
    refine .inl ⟨(Evolves.refl _).jobsTakeBoundary.epoch, ?_, ?_⟩
    · refine forEach_keeps (fun s => s.staging) fun l s => ?_
      split
      · exact forEach_keeps (fun s => s.staging) fun _ _ => rfl
      · rfl
    · rw [h]; exact (Evolves.refl _).jobsTakeBoundary.idle h
  · exact .inl ⟨rfl, rfl, rfl⟩

/-! ### What a command does to the shape, the epoch and the Staging List -/

/-- The apply, seen from its two ends: out of ARMED, the epoch one on, nothing staged (R77). -/
def AppliedBetween (s s' : State) : Prop :=
  s.commit.state = .armed ∧ s'.commit.epoch = s.commit.epoch + 1 ∧ s'.staging = []

/-- Every block that CLEAR ALL and device reset empty, empty (R27, R47, R90). -/
def Emptied (s' : State) : Prop :=
  s'.commit.epoch = 0 ∧ s'.commit.state = .idle ∧ s'.dir.records = [] ∧ s'.store = [] ∧ s'.keys = []

/-- What a command whose boundary events and clears are those named does: it keeps the shape, leaves no hop scan to be queued, and
changes the epoch and, in a running commit, the Staging List only by an apply or a clear. -/
structure Steps (boundary clear : Prop) (s s' : State) : Prop where
  shape : Shaped s → Shaped s'
  quiet : Quiet s → Quiet s'
  epoch : s'.commit.epoch = s.commit.epoch ∨ (boundary ∧ AppliedBetween s s') ∨ (clear ∧ Emptied s')
  staging : s.commit.state ≠ .idle → s'.commit.state ≠ .idle →
    s'.staging = s.staging ∨ (s.commit.state = .armed ∧ s'.commit.state = .applying ∧ s'.staging = [])

section
variable {b c : Prop} {s s' : State}

theorem Evolves.steps (h : Evolves s s') (hq : Quiet s → Quiet s') : Steps b c s s' :=
  ⟨h.shape, hq, .inl h.epoch, fun _ hs => .inl (h.staging.resolve_right hs)⟩

/-- A change of settings that the IDLE controller allows. -/
theorem Steps.ofIdle (hidle : s.commit.state = .idle) (hshape : Shaped s → Shaped s') (hq : Quiet s → Quiet s')
    (he : s'.commit.epoch = s.commit.epoch) : Steps b c s s' :=
  ⟨hshape, hq, .inl he, fun hs => absurd hidle hs⟩

/-- A change of settings that leaves the commit controller's epoch and the Staging List alone. -/
theorem Steps.ofKept (hshape : Shaped s → Shaped s') (hq : Quiet s → Quiet s') (he : s'.commit.epoch = s.commit.epoch)
    (hst : s'.staging = s.staging) : Steps b c s s' := ⟨hshape, hq, .inl he, fun _ _ => .inl hst⟩

/-- A boundary event taken in a state that differs from the one before the command in nothing of these. -/
theorem Steps.ofBoundary {m : State} {f : BoundaryUnit → BoundaryUnit} (hb : b) (hshape : Shaped s → Shaped m)
    (hm : (m.commit.epoch, m.commit.state, m.staging) = (s.commit.epoch, s.commit.state, s.staging))
    (hev : Evolves (modBoundary f (boundaryEvent m)) s') (hq : Quiet s') : Steps b c s s' := by
  simp only [Prod.mk.injEq] at hm
  obtain ⟨hepoch, hstate, hstaging⟩ := hm
  refine ⟨fun h => hev.shape (modBoundary_shaped (boundaryEvent_shaped (hshape h)) f), fun _ => hq, ?_, fun hs hs' => ?_⟩
  · rcases boundaryEvent_changes m with ⟨he, -, -⟩ | ⟨harm, he, hst, -⟩
    · exact .inl (by rw [hev.epoch, modBoundary_commit, he, hepoch])
    · refine .inr (.inl ⟨hb, hstate ▸ harm, by rw [hev.epoch, modBoundary_commit, he, hepoch], ?_⟩)
      have := hev.pruned
      rw [modBoundary_staging, hst] at this
      exact List.sublist_nil.mp this
  · rcases boundaryEvent_changes m with ⟨-, hst, hsm⟩ | ⟨harm, -, hst, hap⟩
    · exact .inl (by rw [hev.staging.resolve_right hs', modBoundary_staging, hst, hstaging])
    · exact .inr ⟨hstate ▸ harm, (hev.applying hap).resolve_right hs', by rw [hev.staging.resolve_right hs', modBoundary_staging, hst]⟩

theorem Steps.mono {b' c' : Prop} (h : Steps b c s s') (hb : b → b') (hc : c → c') : Steps b' c' s s' :=
  ⟨h.shape, h.quiet, h.epoch.imp id (Or.imp (And.imp hb id) (And.imp hc id)), h.staging⟩

end

theorem Steps.received {b c : Prop} {s s' : State} {n : Nat} (h : Steps b c (received n s) s') : Steps b c s s' :=
  ⟨fun k => h.shape (((Evolves.refl s).modPort (f := fun p => { p with
    lastAccept := .accepted, sdo := List.replicate (n + 4) filler })).shape k), h.quiet, h.epoch, h.staging⟩

theorem modCommit_shaped {s : State} (h : Shaped s) {f : CommitCtl → CommitCtl} (hf : LengthsShaped (f s.commit).lengths) :
    Shaped (modCommit f s) :=
  ⟨h.dir, h.attention, ⟨h.settings.1, h.settings.2, h.settings.3, h.settings.4, h.settings.5⟩, hf, h.links⟩

theorem setKeys_shaped {s : State} (h : Shaped s) {ks : List KeyRec} (hk : ∀ k ∈ ks, KeyInRange k)
    (ho : ks.Pairwise (fun a b => a.number < b.number ∧ a.addr ≠ b.addr)) : Shaped (setKeys ks s) :=
  ⟨h.dir, h.attention, ⟨h.settings.1, hk, ho, h.settings.4, h.settings.5⟩, h.lengths, h.links⟩

theorem setStaging_shaped {s : State} (h : Shaped s) {cs : List Change} (hl : cs.length ≤ 64)
    (ht : cs.Pairwise (fun a b => sameTarget a.target b.target = false)) : Shaped (setStaging cs s) :=
  ⟨h.dir, h.attention, ⟨h.settings.1, h.settings.2, h.settings.3, hl, ht⟩, h.lengths, h.links⟩

theorem complete_shaped {s : State} (h : Shaped s) {t : Tag} {k : ReqKind} {st : Status} {q : Byte} {res : List Byte} :
    Shaped (complete t k st q res s) := (Evolves.refl s).complete.shape h

theorem modLink_quiet {l : LinkId} {f : LinkEngine → LinkEngine} {s : State} (h : Quiet s) (hf : (f (s.links.get l)).caused = []) :
    Quiet (modLink l f s) := fun i => by
  rw [modLink_links, Quad.get_modify]
  split
  · rename_i hi; subst hi; exact hf
  · exact h i

/-! ### Requests -/

namespace Evolves

variable {s₀ s : State}

theorem retireRecord (h : Evolves s₀ s) {r : Record}
    (hst : s.commit.state = .idle ∨ s.staging.any (Change.namesHandle r.ref.handle) = false) :
    Evolves s₀ (Machine.retireRecord r s) := by
  unfold Machine.retireRecord
  dsimp only
  split
  · exact (h.retire hst).setUnlisted.modLinkOutline
  · exact h.retire hst

theorem acceptRescan (h : Evolves s₀ s) {l : LinkId} {t : Tag} : Evolves s₀ (Machine.acceptRescan l t s) := by
  have hr : Evolves s₀ (Machine.modLink l LinkEngine.enterRescan (Machine.holdTag t (.rescan l) s)) :=
    h.holdTag.modLinkOutline (outline_enterRescan _)
  unfold Machine.acceptRescan
  dsimp only
  split
  · split
    · exact hr.dropAssignment.beginScan
    · exact hr.beginScan
  · exact hr.beginScan

theorem beginClear (h : Evolves s₀ s) {t : Tag} : Evolves s₀ (Machine.beginClear t s) := h.holdTag.modPort

theorem clearLink (h : Evolves s₀ s) {l : LinkId} : Evolves s₀ (Machine.clearLink l s) := by
  unfold Machine.clearLink
  split
  · exact h
  · exact h.modLink fun k => k.down ..
  · exact h.takeDownEngine
  · exact h.takeDownEngine

theorem clearLinks (h : Evolves s₀ s) {t : Tag} : Evolves s₀ (Machine.clearLinks t s) :=
  (((h.beginClear.forEach fun _ s => (refl s).clearLink).claimStaleAll).modPort).finishEvent

end Evolves

theorem clearSubject_handles (a : AttnSet) (x : Subject) : (a.clearSubject x).handles.length = a.handles.length := by
  cases x <;> simp [AttnSet.clearSubject]

theorem attentionCleared_handles (s : State) : (attentionCleared s).handles.length = s.port.attn.handles.length :=
  foldl_keeps (fun a : AttnSet => a.handles.length) fun x a => clearSubject_handles a x

theorem setGrace_steps {b c : Prop} (n : Byte) (t : Tag) (s : State) : Steps b c s (setGrace n t s) := by
  have hmod : Shaped s → Shaped (modDir (fun d => { d with grace := n.toNat }) s) := fun h =>
    ⟨⟨h.dir.gens, by have := n.isLt; show n.toNat ≤ 255; omega, h.dir.recordOrder⟩, h.attention,
      ⟨h.settings.1, h.settings.2, h.settings.3, h.settings.4, h.settings.5⟩, h.lengths, h.links⟩
  have hshape : Shaped s → Shaped (answerOk .setGrace [] t (modDir (fun d => { d with grace := n.toNat }) s)) :=
    fun h => complete_shaped (hmod h)
  unfold setGrace
  dsimp only
  split
  · rename_i hidle
    have hev := (((Evolves.refl _).expireAll hidle).finishLinks (n := s.port.completions.length))
    exact .ofIdle hidle (fun h => hev.shape (hshape h)) (fun _ => finishLinks_quiet _ _) hev.epoch
  · exact .ofKept hshape (fun h => h) rfl rfl

theorem outline_queueCommit (ts : List Txn) (e : LinkEngine) : (e.queueCommit ts).outline = e.outline := rfl

theorem queuePrepares_evolves (ts : List Txn) (l : LinkId) (s : State) :
    Evolves s (modLink l (fun e => LinkEngine.queueCommit ts e.suspendFlight) s) :=
  (Evolves.refl s).modLinkOutline (by rw [outline_queueCommit]; exact outline_suspendFlight _)

theorem acceptCommit_steps {b c : Prop} (p : Policy) (t : Tag) (post : View) (displaced : List Ref) (ps : List Participant)
    (n : Nat) {s : State} (hidle : s.commit.state = .idle) : Steps b c s (finishLinks n (acceptCommit p t post displaced ps s)) := by
  have hev : Evolves (modCommit (fun _ => acceptedCommit s p t post displaced ps) (holdTag t .commit s))
      (finishLinks n (acceptCommit p t post displaced ps s)) :=
    Evolves.finishLinks (Evolves.forEach (.refl _) fun l s => queuePrepares_evolves _ l s)
  exact .ofIdle hidle (fun h => hev.shape (modCommit_shaped ((Evolves.refl s).holdTag.shape h) h.lengths))
    (fun _ => finishLinks_quiet _ _) hev.epoch

theorem newTiming_shaped {s : State} (h : Shaped s) {l : LinkId} {x : Timing} (hx : timingOk x = true)
    (hbytes : x.timeout ≤ 255 ∧ x.interval ≤ 255) : Shaped (newTiming l x s) := by
  simp only [timingOk, Bool.and_eq_true, decide_eq_true_eq] at hx
  obtain ⟨⟨⟨ht, hr⟩, hm⟩, hi⟩ := hx
  refine (((Evolves.refl s).modDir fun k => k.map fun r => ?_).modLink fun k => ?_).shape h
  · unfold missUnder; (repeat' split) <;> rfl
  · have hnew : EngineShaped { s.links.get l with timing := x } :=
      ⟨k.hops, k.lastSeq, k.seqCounter, k.hostRun, ht, hbytes.1, hr, hm.1, hm.2, hi, hbytes.2⟩
    show EngineShaped (if _ then _ else _)
    split
    · exact hnew.of_outline rfl
    · exact hnew

theorem newTiming_causedOn (l : LinkId) (x : Timing) (s : State) : causedOn (newTiming l x s) = causedOn s := by
  refine (modLink_causedOn ?_).trans rfl
  dsimp only
  split <;> rfl

theorem newTiming_steps {b c : Prop} {s : State} {l : LinkId} {x : Timing} (t : Tag) (hx : timingOk x = true)
    (hbytes : x.timeout ≤ 255 ∧ x.interval ≤ 255) :
    Steps b c s (arbitrate l (complete t .setTiming .ok 0 [] (newTiming l x s))) := by
  have hev : Evolves (newTiming l x s) (arbitrate l (complete t .setTiming .ok 0 [] (newTiming l x s))) :=
    (Evolves.refl _).complete.arbitrate
  have hkept : (arbitrate l (complete t .setTiming .ok 0 [] (newTiming l x s))).staging = s.staging :=
    congrArg (fun x => x.2.2.2.2.2.2.2.2.1) (arbitrate_offWire l (complete t .setTiming .ok 0 [] (newTiming l x s)))
  exact .ofKept (fun h => hev.shape (newTiming_shaped h hx hbytes))
    (fun h => h.of_causedOn ((arbitrate_causedOn ..).trans (newTiming_causedOn l x s))) hev.epoch hkept

theorem generationsCleared_lt {d : Directory} (h : ∀ g ∈ d.gens, g < 16) : ∀ g ∈ generationsCleared d, g < 16 := by
  intro g hg
  obtain ⟨n, -, rfl⟩ := List.mem_map.mp hg
  dsimp only
  split
  · omega
  · rw [List.getD_eq_getElem?_getD]
    cases hx : d.gens[n - 1]? with
    | none => simp
    | some x => exact h x (List.mem_of_getElem? hx)

theorem clearBlocks_shaped {s : State} (h : Shaped s) : Shaped (clearBlocks s) where
  dir := ⟨⟨by simp [clearBlocks, Directory.cleared, generationsCleared, Config.maxHandle], generationsCleared_lt h.dir.gens.2⟩,
    h.dir.grace, .nil⟩
  attention := h.attention
  settings := ⟨.nil, fun _ hk => absurd hk List.not_mem_nil, .nil, Nat.zero_le _, .nil⟩
  lengths := h.lengths
  links l := by
    show EngineShaped ((s.links.map (LinkEngine.cleared s.now)).get l)
    rw [Quad.get_map]
    unfold LinkEngine.cleared
    split
    · exact h.links l
    · exact (h.links l).down ..

theorem endCleared_evolves (t : Tag) (s : State) : Evolves s (endCleared t s) := by
  unfold endCleared
  split
  · exact (Evolves.refl s).complete
  · exact .refl s

theorem endCleared_blocks (t : Tag) (s : State) :
    ((endCleared t s).commit, (endCleared t s).dir, (endCleared t s).store, (endCleared t s).keys, (endCleared t s).links)
      = (s.commit, s.dir, s.store, s.keys, s.links) := by
  unfold endCleared; split <;> rfl

/-- CLEAR ALL changes the blocks as `clearBlocks` says; the rest of it is at the port. -/
theorem clearAll_blocks (t : Tag) (s : State) :
    ((clearAll t s).commit, (clearAll t s).dir, (clearAll t s).store, (clearAll t s).keys, (clearAll t s).links)
      = ((clearBlocks s).commit, (clearBlocks s).dir, (clearBlocks s).store, (clearBlocks s).keys, (clearBlocks s).links) :=
  forEach_keeps (fun s : State => (s.commit, s.dir, s.store, s.keys, s.links)) (s := clearBlocks s) endCleared_blocks

theorem clearAll_steps {b c : Prop} (hc : c) (t : Tag) (s : State) : Steps b c s (clearAll t s) := by
  have hblocks := clearAll_blocks t s
  simp only [Prod.mk.injEq] at hblocks
  obtain ⟨hcommit, hdir, hstore, hkeys, hlinks⟩ := hblocks
  refine ⟨fun h => ?_, fun h l => ?_, .inr (.inr ⟨hc, ?_, ?_, ?_, hstore, hkeys⟩), fun _ hs => absurd ?_ hs⟩
  · have hk : Shaped (beginClear t (forEach (runningTags s) endCleared (clearBlocks s))) :=
      (Evolves.forEach (.refl (clearBlocks s)) endCleared_evolves).beginClear.shape (clearBlocks_shaped h)
    exact ⟨hk.dir, List.length_replicate .., ⟨hk.settings.1, hk.settings.2, hk.settings.3, hk.settings.4, hk.settings.5⟩,
      hk.lengths, hk.links⟩
  · rw [hlinks]
    show ((s.links.map (LinkEngine.cleared s.now)).get l).caused = []
    rw [Quad.get_map]
    unfold LinkEngine.cleared
    split
    · exact h l
    · rfl
  · rw [hcommit]; rfl
  · rw [hcommit]; rfl
  · rw [hdir]; rfl
  · rw [hcommit]; rfl

/-- What an accepted request does to the shape, the epoch and the Staging List. -/
theorem Takes.steps {i : Instr} {t : Tag} {s s' : State} (h : Takes i t s s') :
    Steps (∃ b, i = .boundaryNow b) (∃ b, i = .clearAll b) s s' := by
  cases h with
  | answers => exact (Evolves.refl s).complete.steps fun h => h
  | setsGrace n => exact setGrace_steps n t s
  | retires ref r res hr hfree =>
    refine ((Evolves.refl s).retireRecord ?_).complete.finishLinks.steps fun _ => finishLinks_quiet _ _
    by_cases hidle : s.commit.state = .idle
    · exact .inl hidle
    · simp only [heldByCommit, ne_eq, hidle, not_false_eq_true, decide_true, Bool.true_and, Bool.or_eq_false_iff] at hfree
      exact .inr hfree.1
  | definesKey k res hidle hk hnew =>
    refine .ofIdle hidle (fun h => complete_shaped (setKeys_shaped h ?_ (insertKey_order h.settings.keyOrder hnew))) (fun h => h) rfl
    intro x hx
    rcases (mem_insertKey k x s.keys).mp hx with rfl | hx
    · exact hk
    · exact h.settings.keys x hx
  | undefinesKey k res hidle hk hstore hstaged =>
    have hev : Evolves (setKeys (s.keys.filter (fun x => x.number != k.number)) s) (removeKey k s) := by
      unfold removeKey
      dsimp only
      split
      · exact .refl _
      · exact (Evolves.refl _).restartAllJobs
    have hfin := (hev.complete (t := t) (k := .undefineKey) (st := .ok) (q := 0) (res := res)).finishLinks
      (n := s.port.completions.length)
    refine .ofIdle hidle (fun h => hfin.shape (setKeys_shaped h ?_ (h.settings.keyOrder.sublist List.filter_sublist)))
      (fun _ => finishLinks_quiet _ _) hfin.epoch
    exact fun x hx => h.settings.keys x (List.mem_filter.mp hx).1
  | replaces kind c n res hidle hc hn =>
    exact .ofIdle hidle (fun h => complete_shaped (setStaging_shaped h (by rw [List.length_set]; exact h.settings.staged)
      (set_targets hn h.settings.targets))) (fun h => h) rfl
  | adds kind c res hidle hc hn hlen =>
    refine .ofIdle hidle (fun h => complete_shaped (setStaging_shaped h (by simp; omega) ?_)) (fun h => h) rfl
    refine List.pairwise_append.mpr ⟨h.settings.targets, List.pairwise_singleton .., fun a ha b hb => ?_⟩
    rw [List.mem_singleton.mp hb]
    exact targetIndex_none hn a ha
  | discards cs res hidle hcs =>
    exact .ofIdle hidle (fun h => complete_shaped (setStaging_shaped h (hcs.length_le.trans h.settings.staged)
      (h.settings.targets.sublist hcs))) (fun h => h) rfl
  | commits p displaced hidle hsize hplaces => exact acceptCommit_steps p t _ displaced _ _ hidle
  | aborts hst => exact ((Evolves.refl s).enterCancelling hst).complete.finishEvent.steps fun _ => finishEvent_quiet _ _
  | setsFrame p e res => exact .ofKept (fun h => complete_shaped (modBoundary_shaped h _)) (fun h => h) rfl rfl
  | makesBoundary b hi hnone hsp =>
    exact .ofBoundary (m := s) (f := id) ⟨b, hi⟩ id rfl (Evolves.refl _).complete.finishEvent (finishEvent_quiet _ _)
  | awaitsBoundary m hnone =>
    exact .ofKept (fun h => modBoundary_shaped ((Evolves.refl s).holdTag.shape h) _) (fun h => h) rfl rfl
  | enables l hl => exact ((Evolves.refl s).modLink fun k => k.down ..).complete.steps fun h => modLink_quiet h rfl
  | stopsTraining l hl => exact ((Evolves.refl s).modLink fun k => k.down ..).complete.steps fun h => modLink_quiet h rfl
  | disables l hl => exact (Evolves.refl s).takeDown.complete.finishEvent.steps fun _ => finishEvent_quiet _ _
  | setsTiming l x hx hbytes => exact newTiming_steps t hx hbytes
  | setsDeadlines d hp ha hd =>
    exact .ofKept (fun h => complete_shaped (modCommit_shaped h ⟨hp, ha, hd⟩)) (fun h => h) rfl rfl
  | rescans l hl => exact (Evolves.refl s).acceptRescan.finishLinks.steps fun _ => finishLinks_quiet _ _
  | accesses r x body hr hreach hx =>
    refine ((Evolves.refl s).holdTag.modLinkOutline).arbitrate.steps fun h => ?_
    exact h.of_causedOn ((arbitrate_causedOn ..).trans (modLink_causedOn rfl))
  | attends res => exact ((Evolves.refl s).modPort (attentionCleared_handles s)).complete.steps fun h => h
  | masks m res => exact ((Evolves.refl s).modPort).complete.steps fun h => h
  | clearsLinks => exact (Evolves.refl s).clearLinks.steps fun _ => finishEvent_quiet _ _
  | clearsAll b hi => exact clearAll_steps ⟨b, hi⟩ t s

/-! ### Events and commands -/

theorem watchEdge_shaped {s : State} (h : Shaped s) : Shaped (watchEdge s) := by
  unfold watchEdge
  dsimp only
  split
  · exact modBoundary_shaped h _
  · exact (Evolves.refl _).raiseDevice.shape (modBoundary_shaped h _)

theorem watchEdge_keeps {β : Type} (g : State → β) (hm : ∀ f s, g (modBoundary f s) = g s)
    (hr : ∀ s, g (raiseDevice .frameRestored s) = g s) (s : State) : g (watchEdge s) = g s := by
  unfold watchEdge
  dsimp only
  split
  · exact hm ..
  · rw [hr, hm]

theorem completePending_evolves (src : BoundarySource) (seen : CommitState) (s : State) :
    ∃ f, Evolves (modBoundary f s) (completePending src seen s) := by
  unfold completePending
  split
  · exact ⟨_, (Evolves.refl _).complete⟩
  · exact ⟨id, .refl _⟩

/-- A boundary event that is taken and then completes a pending BOUNDARY_NOW. -/
theorem Steps.ofPending {b c : Prop} {s m : State} {n : Nat} {src : BoundarySource} {seen : CommitState} (hb : b)
    (hshape : Shaped s → Shaped m)
    (hm : (m.commit.epoch, m.commit.state, m.staging) = (s.commit.epoch, s.commit.state, s.staging)) :
    Steps b c s (finishEvent n (completePending src seen (boundaryEvent m))) := by
  obtain ⟨f, hf⟩ := completePending_evolves src seen (boundaryEvent m)
  exact .ofBoundary hb hshape hm hf.finishEvent (finishEvent_quiet _ _)

theorem excludeUnprepared_evolves (s : State) : Evolves s (excludeUnprepared s) :=
  (Evolves.refl s).forEach fun _ s => (Evolves.refl s).exclude

/-- What an event does to the shape, the epoch and the Staging List. -/
theorem Occurs.steps {i : Instr} {s s' : State} (h : Occurs i s s') :
    Steps (i = .boundaryNowDue ∨ ∃ e, i = .frameEdge e) False s s' := by
  cases h with
  | counts hi =>
    exact .ofKept watchEdge_shaped (fun h => h.of_causedOn (watchEdge_keeps causedOn (fun _ _ => rfl) (fun _ => rfl) s))
      (watchEdge_keeps (fun s => s.commit.epoch) (fun _ _ => rfl) (fun _ => rfl) s)
      (watchEdge_keeps (fun s => s.staging) (fun _ _ => rfl) (fun _ => rfl) s)
  | makesBoundary hi hsp =>
    exact .ofPending (.inr hi) watchEdge_shaped
      (watchEdge_keeps (fun s => (s.commit.epoch, s.commit.state, s.staging)) (fun _ _ => rfl) (fun _ => rfl) s)
  | watchEnds d =>
    exact .ofKept (fun h => (Evolves.refl _).raiseDevice.shape (modBoundary_shaped ((Evolves.refl s).advanceTo.shape h) _))
      (fun h => h) rfl rfl
  | falls p hi hp => exact .ofPending (.inl hi) (Evolves.refl s).advanceTo.shape rfl
  | locks l hl =>
    refine ((Evolves.refl s).modLinkOutline).beginScan.arbitrate.steps fun h => h.of_causedOn ?_
    exact (arbitrate_causedOn ..).trans ((modLink_causedOn rfl).trans (modLink_causedOn rfl))
  | loses l hl => exact (Evolves.refl s).takeDown.finishEvent.steps fun _ => finishEvent_quiet _ _
  | lockFails l d hl =>
    exact ((Evolves.refl s).advanceTo.modLinkOutline).raiseLink.steps fun h => h.of_causedOn (modLink_causedOn rfl)
  | forgets l => exact ((Evolves.refl s).modLinkOutline).steps fun h => h.of_causedOn (modLink_causedOn rfl)
  | hears l f st reply bytes hf hj => exact (Evolves.refl s).endReplied.finishEvent.steps fun _ => finishEvent_quiet _ _
  | garbles l f hf => exact ((Evolves.refl s).modLinkOutline).attemptFailed.finishEvent.steps fun _ => finishEvent_quiet _ _
  | expires l f hf =>
    exact ((Evolves.refl s).advanceTo.modLinkOutline).attemptFailed.finishEvent.steps fun _ => finishEvent_quiet _ _
  | broadcasts l hb => exact ((Evolves.refl s).modLinkOutline).broadcastDone.finishEvent.steps fun _ => finishEvent_quiet _ _
  | rolls l hl =>
    refine ((Evolves.refl s).advanceTo.modLinkOutline).arbitrate.steps fun h => h.of_causedOn ?_
    exact (arbitrate_causedOn ..).trans (modLink_causedOn rfl)
  | expiresGrace n d hidle =>
    exact ((Evolves.refl s).advanceTo.forEachIdle hidle fun _ s hs => (Evolves.refl s).retire (.inl hs)).finishLinks.steps
      fun _ => finishLinks_quiet _ _
  | defersGrace d => exact (Evolves.refl s).advanceTo.steps fun h => h
  | cancels d reason hst hr =>
    exact ((Evolves.refl s).advanceTo.enterCancelling hst).finishEvent.steps fun _ => finishEvent_quiet _ _
  | excludes d hst =>
    exact ((Evolves.refl s).advanceTo.trans (excludeUnprepared_evolves _)).finishEvent.steps fun _ => finishEvent_quiet _ _
  | lags d hst =>
    exact ((Evolves.refl s).advanceTo.forEach fun _ s => (Evolves.refl s).makeLagging).finishEvent.steps
      fun _ => finishEvent_quiet _ _

theorem initialIn_shaped {s : State} (ph : DevicePhase) : Shaped (initialIn ph s) where
  dir := ⟨⟨List.length_replicate .., fun g hg => by rw [List.eq_of_mem_replicate hg]; decide⟩,
    by show (30 : Nat) ≤ 255; decide, .nil⟩
  attention := List.length_replicate ..
  settings := ⟨.nil, fun _ hk => absurd hk List.not_mem_nil, .nil, Nat.zero_le _, .nil⟩
  lengths := by show LengthsShaped Deadlines.reset; unfold LengthsShaped; decide
  links l := by
    show EngineShaped ((Quad.all LinkEngine.reset).get l)
    rw [Quad.get_all]
    exact ⟨List.length_replicate .., List.length_replicate .., by decide, by decide, by decide⟩

/-- What a command does to the shape, the epoch and the Staging List. -/
theorem Does.steps {c : Instr} {s s' : State} (h : Does c s s') :
    Steps ((∃ t, spoken c = .boundaryNow t) ∨ c = .boundaryNowDue ∨ ∃ e, c = .frameEdge e)
      ((∃ t, spoken c = .clearAll t) ∨ c = .deviceReset ∨ c = .resetRelease) s s' := by
  cases h with
  | shows a bs => exact ((Evolves.refl s).modPort (f := fun p => { p with lastAccept := a, sdo := bs })).steps fun h => h
  | collects x rest bs hs => exact (Evolves.refl s).modPort.modPort.steps fun h => h
  | takes n b t s' hacc h =>
    exact Steps.received (h.steps.mono Or.inl Or.inl)
  | occurs s' hop h => exact h.steps.mono Or.inr False.elim
  | clears x hx => exact (Evolves.refl s).modPort.complete.steps fun h => h
  | resets ph hc =>
    refine ⟨fun _ => initialIn_shaped ph, fun _ l => ?_, .inr (.inr ⟨.inr hc, rfl, rfl, rfl, rfl, rfl⟩), fun _ hs => absurd rfl hs⟩
    show ((Quad.all LinkEngine.reset).get l).caused = []
    rw [Quad.get_all]; rfl
  | starts hs =>
    exact .ofKept (fun h => ⟨h.dir, h.attention, ⟨h.settings.1, h.settings.2, h.settings.3, h.settings.4, h.settings.5⟩, h.lengths,
      h.links⟩) (fun h => h) rfl rfl

/-! ### The statements -/

/-- A step runs the front command, or lets 10 us pass (R190; logs 1, 2). -/
theorem step_cases {s s' : State} (h : step s = .next s') :
    (∃ c rest, s.pending = c :: rest ∧ exec c { s with pending := rest } = .next s') ∨ s' = { s with now := s.now + 1 } := by
  unfold step at h
  split at h
  · cases h; exact .inr rfl
  · rename_i c rest hp; exact .inl ⟨c, rest, hp, h⟩

/-- Settles O54: every command keeps the shape, whatever hop scans it queues on the way. -/
theorem everyStepKeepsTheShape : Obligations.EveryStepKeepsTheShape := by
  intro s s' hs h
  rcases step_cases h with ⟨c, rest, -, hc⟩ | rfl
  · have hd := (does_of_exec hc).steps
    have hshape : Shaped { s with pending := rest } :=
      ⟨⟨hs.gens, hs.grace, hs.recordOrder⟩, hs.attention, ⟨hs.entryOrder, hs.keys, hs.keyOrder, hs.staged, hs.targets⟩,
        ⟨hs.prepare, hs.arm, hs.apply⟩, hs.shaped.links⟩
    exact (hd.shape hshape).wellShaped (hd.quiet fun l => (hs.links l).caused)
  · exact ⟨hs.gens, hs.grace, hs.attention, hs.recordOrder, hs.entryOrder, hs.keys, hs.keyOrder, hs.staged, hs.targets, hs.prepare,
      hs.arm, hs.apply, hs.links⟩

/-- Settles O59: in a running commit the Staging List changes only by the apply. -/
theorem stagingIsFrozenDuringACommit : Obligations.StagingIsFrozenDuringACommit :=
  fun _ _ _ h => (does_of_exec h).steps.staging

/-- Settles O60: the epoch changes only by an apply and the clears. -/
theorem epochChangesOnlyAtAnApplyOrClear : Obligations.EpochChangesOnlyAtAnApplyOrClear :=
  fun _ _ _ h => (does_of_exec h).steps.epoch

end Sys2Proof.Machine
end

section
/-! PROOFS. The queue of commands, and the requests that read the Tile Directory (chapter 1): LOOKUP_ID, LOOKUP_POS, DESCRIBE and
LIST, and the refusals of a failing handle reference. -/

namespace Sys2Proof.Machine

/-- Settles O1: the step function case by case on the queue. -/
theorem stepRunsTheFrontCommand : Obligations.StepRunsTheFrontCommand := by
  refine ⟨fun s c rest h => ?_, fun s h => ?_⟩
  · simp only [step, h]
  · simp only [step, h, tick]

/-! ### Lookups -/

section
variable {s : State} {b : Byte} {t : Tag}

theorem exec_lookupId (h : Accepts s b t) (u : Uid) : exec (.lookupId b u) s = .next (lookupId u t (received 8 s)) :=
  congrArg _ (submit_accepts h 8 (lookupId u))

theorem exec_lookupPos (h : Accepts s b t) (c r : Byte) : exec (.lookupPos b c r) s = .next (lookupPos c r t (received 2 s)) :=
  congrArg _ (submit_accepts h 2 (lookupPos c r))

theorem exec_describe (h : Accepts s b t) (f : RefField) : exec (.describe b f) s = .next (describe (refOf f) t (received 2 s)) :=
  congrArg _ (submit_accepts h 2 (describe (refOf f)))

theorem exec_list (h : Accepts s b t) (f c : Byte) : exec (.list b f c) s = .next (list f c t (received 2 s)) :=
  congrArg _ (submit_accepts h 2 (list f c))

/-- LOOKUP_ID of an ID that one record holds (R22). -/
theorem lookupId_found (h : Accepts s b t) {u : Uid} {r : Record} (hr : Sole (fun x => x.uid = u) s.dir.records r) :
    exec (.lookupId b u) s = .next (answered s 8 t .lookupId .ok [u8 r.ref.handle, u8 r.ref.gen, u8 r.state.ctorIdx]) := by
  have hf : findUid s u = some r := hr.find_of (by simp)
  rw [exec_lookupId h, lookupId, findUid_received, hf]
  rfl

/-- LOOKUP_ID of an ID that no record holds (R22). -/
theorem lookupId_missing (h : Accepts s b t) {u : Uid} (hr : ∀ r ∈ s.dir.records, r.uid ≠ u) :
    exec (.lookupId b u) s = .next (answered s 8 t .lookupId .noSuchHandle []) := by
  have hf : findUid s u = none := find_none fun x hx => by simpa using hr x hx
  rw [exec_lookupId h, lookupId, findUid_received, hf]
  rfl

theorem lookupPos_outOfRange (h : Accepts s b t) {c r : Byte} (hc : 31 < c.toNat ∨ 31 < r.toNat) :
    exec (.lookupPos b c r) s = .next (answered s 2 t .lookupPos .outOfRange []) := by
  rw [exec_lookupPos h, lookupPos, if_pos hc]
  rfl

/-- LOOKUP_POS of a cell, by the record that holds it (R23). -/
theorem lookupPos_cell (h : Accepts s b t) {c r : Byte} (hc : c.toNat ≤ 31) (hr : r.toNat ≤ 31) :
    exec (.lookupPos b c r) s = .next (match cellHolder s ⟨c.toNat, r.toNat⟩ with
      | some x => answered s 2 t .lookupPos .ok x.refState
      | none => answered s 2 t .lookupPos .noSuchHandle []) := by
  rw [exec_lookupPos h, lookupPos, if_neg (by omega)]
  show Host.Outcome.next (match cellHolder s ⟨c.toNat, r.toNat⟩ with | some x => _ | none => _) = _
  cases cellHolder s ⟨c.toNat, r.toNat⟩ <;> rfl

/-- LOOKUP_POS of a cell that one record holds (R23). -/
theorem lookupPos_found (h : Accepts s b t) {c r : Byte} (hc : c.toNat ≤ 31) (hr : r.toNat ≤ 31) {x : Record}
    (hx : Sole (fun x => x.pos = some ⟨c.toNat, r.toNat⟩) s.dir.records x) :
    exec (.lookupPos b c r) s = .next (answered s 2 t .lookupPos .ok [u8 x.ref.handle, u8 x.ref.gen, u8 x.state.ctorIdx]) := by
  have hf : cellHolder s ⟨c.toNat, r.toNat⟩ = some x := hx.find_of (by simp)
  rw [lookupPos_cell h hc hr, hf]
  rfl

/-- LOOKUP_POS of a cell that no record holds (R23). -/
theorem lookupPos_missing (h : Accepts s b t) {c r : Byte} (hc : c.toNat ≤ 31) (hr : r.toNat ≤ 31)
    (hx : ∀ x ∈ s.dir.records, x.pos ≠ some ⟨c.toNat, r.toNat⟩) :
    exec (.lookupPos b c r) s = .next (answered s 2 t .lookupPos .noSuchHandle []) := by
  have hf : cellHolder s ⟨c.toNat, r.toNat⟩ = none := find_none fun x hm => by simpa using hx x hm
  rw [lookupPos_cell h hc hr, hf]

/-! ### DESCRIBE -/

/-- A reference field whose record is named holds the record's handle and generation. -/
theorem Names.refBytes {h g : Byte} {r : Record} (hn : Names s ⟨h.toNat, g.toNat⟩ r) : Machine.refBytes r.ref = [h, g] := by
  simp [Machine.refBytes, hn.1.holds, hn.2]

theorem findJob_of_sole {r : Record} {j : Job} (hj : Sole (fun x => x.ref = r.ref) (allJobs s) j) : findJob s r.ref = some j :=
  hj.find_of (by simp)

theorem findJob_none {r : Record} (hj : ∀ j ∈ allJobs s, j.ref ≠ r.ref) : findJob s r.ref = none :=
  find_none fun x hx => by simpa using hj x hx

theorem staleFields (i : Option StaleInfo) (now : Nat) : [staleReasonByte i] ++ graceBytes now i = i.elim [0xFF, 0xFF, 0xFF]
    fun i => u8 i.reason.ctorIdx :: halfBytes (BitVec.ofNat 16 (min ((now - i.since) / 100000) 65535)) := by
  cases i <;> rfl

theorem expiryDeferred_iff (r : Record) : expiryDeferred s r = true ↔ s.commit.state ≠ .idle ∧ s.dir.grace ≠ 0
    ∧ ∃ i, r.stale = some i ∧ i.since + s.dir.grace * 100000 ≤ s.now := by
  unfold expiryDeferred graceReached
  cases hr : r.stale with
  | none => simp
  | some i =>
    show (decide (s.commit.state ≠ .idle) && decide (s.dir.grace ≠ 0 ∧ i.since + s.dir.grace * 100000 ≤ s.now)) = true ↔ _
    rw [Bool.and_eq_true, decide_eq_true_iff, decide_eq_true_iff]
    simp

/-- The fields of a DESCRIBE as R24 lists them. -/
theorem describeResult_eq (r : Record) (job : Option Job) (hjob : findJob s r.ref = job) :
    describeResult s r = refBytes r.ref ++ uidBytes r.uid ++ halfBytes r.model ++ [u8 r.capacity, u8 r.state.ctorIdx]
      ++ [u8 r.loc.link.val, u8 r.loc.hop, if r.state = .stale then 1 else 0]
      ++ (r.pos.elim [0xFF, 0xFF] fun c => [u8 c.col, u8 c.row])
      ++ halfBytes r.groups ++ halfBytes r.synced ++ [u8 r.miss]
      ++ (r.stale.elim [0xFF, 0xFF, 0xFF] fun i =>
            u8 i.reason.ctorIdx :: halfBytes (BitVec.ofNat 16 (min ((s.now - i.since) / 100000) 65535)))
      ++ (job.elim [0xFF, 0xFF] fun j => [u8 j.round, u8 j.phase.ctorIdx])
      ++ [if s.commit.state ≠ .idle ∧ s.dir.grace ≠ 0
            ∧ (∃ i, r.stale = some i ∧ i.since + s.dir.grace * 100000 ≤ s.now) then 1 else 0] := by
  have hstale : markByte (decide (r.state = .stale)) = if r.state = .stale then 1 else 0 := by simp [markByte]
  have hpos : optCellBytes r.pos = r.pos.elim [0xFF, 0xFF] fun c => [u8 c.col, u8 c.row] := by cases r.pos <;> rfl
  have hj : optJobBytes job = job.elim [0xFF, 0xFF] fun j => [u8 j.round, u8 j.phase.ctorIdx] := by cases job <;> rfl
  have hd : markByte (expiryDeferred s r) = if s.commit.state ≠ .idle ∧ s.dir.grace ≠ 0
      ∧ (∃ i, r.stale = some i ∧ i.since + s.dir.grace * 100000 ≤ s.now) then 1 else 0 := by
    unfold markByte
    simp only [expiryDeferred_iff]
  unfold describeResult
  rw [hjob, hstale, hpos, hj, hd, ← staleFields]
  simp only [List.append_assoc]
  rfl

theorem describe_named (h : Accepts s b t) {hb g : Byte} {r : Record} (hn : Names s ⟨hb.toNat, g.toNat⟩ r) :
    exec (.describe b ⟨hb, g⟩) s = .next (answered s 2 t .describe .ok (describeResult s r)) := by
  rw [exec_describe h, describe, checkRef_received, refOf, hn.checkRef]
  rfl

end

/-- Settles O9: each lookup finds the sole record; DESCRIBE field by field. -/
theorem lookupsAndDescribeReadTheDirectory : Obligations.LookupsAndDescribeReadTheDirectory := by
  intro s b t h
  refine ⟨fun u => ⟨fun r hr => lookupId_found h hr, fun hr => lookupId_missing h hr⟩,
    fun c r => ⟨fun hc => lookupPos_outOfRange h hc, fun hc hr => ⟨fun x hx => lookupPos_found h hc hr hx,
      fun hx => lookupPos_missing h hc hr hx⟩⟩, fun hb g r job hn hsome hnone => ?_⟩
  have hjob : findJob s r.ref = job := by
    cases job with
    | none => exact findJob_none (hnone rfl)
    | some j => exact findJob_of_sole (hsome j rfl)
  rw [describe_named h hn, describeResult_eq r job hjob, hn.refBytes]

/-! ### Failing references -/

section
variable {s : State} {b : Byte} {t : Tag}

theorem exec_retire (h : Accepts s b t) (f : RefField) (x : Byte) :
    exec (.retire b f x) s = .next (retireRequest (refOf f) x t (received 3 s)) :=
  congrArg _ (submit_accepts h 3 (retireRequest (refOf f) x))

theorem exec_resolve (h : Accepts s b t) (f : RefField) (k : Byte) :
    exec (.resolve b f k) s = .next (resolve (refOf f) k t (received 3 s)) := congrArg _ (submit_accepts h 3 (resolve (refOf f) k))

theorem exec_tileRead (h : Accepts s b t) (f : RefField) (a : Byte) :
    exec (.tileRead b f a) s = .next (tileRead (refOf f) a t (received 3 s)) := congrArg _ (submit_accepts h 3 (tileRead (refOf f) a))

theorem exec_tileWrite (h : Accepts s b t) (f : RefField) (a : Byte) (v : Half) :
    exec (.tileWrite b f a v) s = .next (tileWrite (refOf f) a v t (received 5 s)) :=
  congrArg _ (submit_accepts h 5 (tileWrite (refOf f) a v))

/-- A FORCE byte of 00h or 01h is a flag (R191). -/
theorem flagOf_of_le {f : Byte} (hf : f.toNat ≤ 1) : flagOf f = some (decide (f = 1)) := by
  have : f = 0 ∨ f = 1 := by
    rcases Nat.le_one_iff_eq_zero_or_eq_one.mp hf with h | h
    · exact .inl (BitVec.eq_of_toNat_eq h)
    · exact .inr (BitVec.eq_of_toNat_eq h)
  rcases this with rfl | rfl <;> rfl

theorem refBytes_refOf (h g : Byte) : refBytes (refOf ⟨h, g⟩) = [h, g] := by simp [refBytes, refOf]

theorem halfBytes_append (v1 v0 : Byte) : halfBytes (v1 ++ v0) = [v1, v0] := by
  unfold halfBytes
  rw [extract_append_last v1 v0, extract_append_above v1 v0 (k := 0) (by rfl)]
  simp

end

/-- Settles O10: each of the five requests makes the reference check before anything else that could stop it. -/
theorem failingReferenceIsRefused : Obligations.FailingReferenceIsRefused := by
  intro s b t h g st hacc hfail
  refine ⟨?_, fun f hf => ?_, fun k hk => ?_, fun a => ?_, fun a v1 v0 => ?_⟩
  · rw [exec_describe hacc, describe, checkRef_received, refOf]
    rcases hfail.failure with ⟨hc, rfl⟩ | ⟨hc, rfl⟩ <;> rw [hc] <;> rfl
  · rw [exec_retire hacc, retireRequest, flagOf_of_le hf, checkRef_received, refOf]
    rcases hfail.failure with ⟨hc, rfl⟩ | ⟨hc, rfl⟩ <;> simp only [hc] <;> rfl
  · rw [exec_resolve hacc, resolve, badKeyNumber_of_le hk, checkRef_received, refOf]
    rcases hfail.failure with ⟨hc, rfl⟩ | ⟨hc, rfl⟩ <;> rw [hc] <;> rfl
  · rw [exec_tileRead hacc, tileRead, directCheck, checkRef_received]
    have hb : Running.fields (.tileRead (refOf ⟨h, g⟩) a) = [h, g, a] := by simp [Running.fields, refBytes_refOf]
    rcases hfail.failure with ⟨hc, rfl⟩ | ⟨hc, rfl⟩ <;> rw [refOf] at hb ⊢ <;> rw [hc] <;>
      simp only [refuseDirect, hb] <;> rfl
  · rw [exec_tileWrite hacc, tileWrite, directCheck, checkRef_received]
    have hb : Running.fields (.tileWrite (refOf ⟨h, g⟩) a (v1 ++ v0)) = [h, g, a, v1, v0] := by
      simp [Running.fields, refBytes_refOf, halfBytes_append]
    rcases hfail.failure with ⟨hc, rfl⟩ | ⟨hc, rfl⟩ <;> rw [refOf] at hb ⊢ <;> rw [hc] <;>
      simp only [refuseDirect, hb] <;> rfl

/-! ### LIST -/

/-- The eighth of the first eight members of a list is its eighth. -/
theorem take_getLast?_eight {α : Type} {xs : List α} (h : 8 ≤ xs.length) : (xs.take 8).getLast? = xs[7]? := by
  rw [List.getLast?_eq_getElem?, List.length_take, Nat.min_eq_left h]
  simp

/-- The next cursor of a LIST with an eighth reference: the handle after it (R25). -/
theorem nextHandle_eighth {rs : List Record} {r : Record} (hr : rs[7]? = some r) :
    u8 (nextHandle ((rs.map Record.ref).take 8)) = if r.ref.handle < 80 then u8 (r.ref.handle + 1) else 0 := by
  obtain ⟨h, -⟩ := List.getElem?_eq_some_iff.mp hr
  have hlast : ((rs.map Record.ref).take 8).getLast? = some r.ref := by
    rw [take_getLast?_eight (by simp; omega), List.getElem?_map, hr]
    rfl
  have hlen : ((rs.map Record.ref).take 8).length = 8 := by simp; omega
  rw [nextHandle, hlast]
  simp only [hlen, Config.listingLength, Config.maxHandle, true_and]
  split <;> rfl

/-- The next cursor of a LIST with fewer than eight references (R25). -/
theorem nextHandle_short {rs : List Record} (hr : rs[7]? = none) : u8 (nextHandle ((rs.map Record.ref).take 8)) = 0 := by
  have h : rs.length ≤ 7 := List.getElem?_eq_none_iff.mp hr
  have hlen : ((rs.map Record.ref).take 8).length ≠ 8 := by simp; omega
  unfold nextHandle
  split
  · simp only [hlen, Config.listingLength, false_and, if_false]
    rfl
  · rfl

/-- Settles O11: LIST takes the first eight of the records that pass the filter from the cursor upwards. -/
theorem listGivesEightInHandleOrder : Obligations.ListGivesEightInHandleOrder := by
  intro s b f c t h
  refine ⟨fun hbad => ?_, fun hf0 hf hc1 hc hord => ?_⟩
  · have hbad' : 15 < f.toNat ∨ f = 0 ∨ c = 0 ∨ Config.maxHandle < c.toNat := by
      rcases hbad with h1 | h2 | h3 | h4
      · exact .inr (.inl h1)
      · exact .inl h2
      · exact .inr (.inr (.inl (BitVec.eq_of_toNat_eq h3)))
      · exact .inr (.inr (.inr h4))
    rw [exec_list h, list, if_pos hbad']
    rfl
  · have hgood : ¬ (15 < f.toNat ∨ f = 0 ∨ c = 0 ∨ Config.maxHandle < c.toNat) := by
      rintro (h1 | h1 | h1 | h1)
      · omega
      · exact hf0 h1
      · rw [h1] at hc1; exact absurd hc1 (by decide)
      · exact absurd h1 (by unfold Config.maxHandle; omega)
    refine ⟨s.dir.records.filter (fun r => filterHolds f r.state && decide (c.toNat ≤ r.ref.handle)), fun r => ?_,
      hord.sublist List.filter_sublist, ?_⟩
    · simp [filterHolds, List.mem_filter]
    · rw [exec_list h, list, if_neg hgood, answerOk_received]
      have hbytes : (listed (received 2 s) f c.toNat).flatMap refBytes = ((s.dir.records.filter
          (fun r => filterHolds f r.state && decide (c.toNat ≤ r.ref.handle))).take 8).flatMap
            (fun r => [u8 r.ref.handle, u8 r.ref.gen]) := by
        simp only [listed, received_dir, Config.listingLength, ← List.map_take, List.flatMap_map]
        rfl
      rw [hbytes]
      cases hx : (s.dir.records.filter (fun r => filterHolds f r.state && decide (c.toNat ≤ r.ref.handle)))[7]? with
      | none => rw [← nextHandle_short hx]; rfl
      | some r => dsimp only; rw [← nextHandle_eighth hx]; rfl

end Sys2Proof.Machine
end

section
/-! PROOFS. Reads of the Setting Store and changes of the Key Table (chapter 2): LIST_ENTRIES, RESOLVE, DEFINE_KEY, UNDEFINE_KEY. -/

namespace Sys2Proof.Machine

section
variable {s : State} {b : Byte} {t : Tag}

/-! ### LIST_ENTRIES -/

theorem exec_listEntries (h : Accepts s b t) (f : CursorField) : exec (.listEntries b f) s = .next (listEntries f t (received 3 s)) :=
  congrArg _ (submit_accepts h 3 (listEntries f))

/-- A cursor that names no place of the listing order (R40). -/
theorem cursorRank_none {c p k : Byte} (h : 63 < k.toNat ∨ 2 < c.toNat ∨ (c = 0 ∧ p ≠ 0) ∨ (c = 1 ∧ 15 < p.toNat)
    ∨ (c = 2 ∧ (p = 0 ∨ 80 < p.toNat))) : cursorRank ⟨c, p, k⟩ = none := by
  unfold cursorRank
  dsimp only
  split
  · rfl
  · rcases h with h | h | ⟨rfl, h⟩ | ⟨rfl, h⟩ | ⟨rfl, h⟩
    · contradiction
    · rw [if_neg (by rintro rfl; exact absurd h (by decide)), if_neg (by rintro rfl; exact absurd h (by decide)),
        if_neg (by rintro rfl; exact absurd h (by decide))]
    · rw [if_pos rfl, if_neg h]
    · rw [if_neg (by decide), if_pos rfl, if_neg (by omega)]
    · rw [if_neg (by decide), if_neg (by decide), if_pos rfl, if_neg]
      rintro ⟨h1, h2⟩
      rcases h with rfl | h
      · exact absurd h1 (by decide)
      · exact absurd h2 (by unfold Config.maxHandle; omega)

/-- A cursor that names a place of the listing order (R40). -/
theorem cursorRank_some {c p k : Byte} {rank : Nat} (hk : k.toNat ≤ 63)
    (h : (c = 0 ∧ p = 0 ∧ rank = k.toNat) ∨ (c = 1 ∧ p.toNat ≤ 15 ∧ rank = 64 * (1 + p.toNat) + k.toNat)
      ∨ (c = 2 ∧ 1 ≤ p.toNat ∧ p.toNat ≤ 80 ∧ rank = 64 * (16 + p.toNat) + k.toNat)) : cursorRank ⟨c, p, k⟩ = some rank := by
  unfold cursorRank
  dsimp only
  rw [if_neg (by omega)]
  rcases h with ⟨rfl, rfl, rfl⟩ | ⟨rfl, hp, rfl⟩ | ⟨rfl, h1, h2, rfl⟩
  · rfl
  · rw [if_neg (by decide), if_pos rfl, if_pos hp]
  · rw [if_neg (by decide), if_neg (by decide), if_pos rfl, if_pos ⟨h1, h2⟩]

/-- The next cursor of a LIST_ENTRIES with an eighth entry: the place just after it (R40). -/
theorem nextPlace_eighth {es : List Entry} {e : Entry} (he : es[7]? = some e) :
    nextPlace (es.take 8) = if placeRank e.scope e.key < 64 * (16 + 80) + 63 then cursorBytes (placeRank e.scope e.key + 1)
      else [0xFF, 0xFF, 0xFF] := by
  obtain ⟨h, -⟩ := List.getElem?_eq_some_iff.mp he
  have hlast : (es.take 8).getLast? = some e := by rw [take_getLast?_eight (by omega), he]
  have hlen : (es.take 8).length = 8 := by simp; omega
  rw [nextPlace, hlast]
  simp only [hlen, Config.listingLength, true_and]
  rfl

/-- The next cursor of a LIST_ENTRIES with fewer than eight entries: the end marker (R40). -/
theorem nextPlace_short {es : List Entry} (he : es[7]? = none) : nextPlace (es.take 8) = [0xFF, 0xFF, 0xFF] := by
  have h : es.length ≤ 7 := List.getElem?_eq_none_iff.mp he
  have hlen : (es.take 8).length ≠ 8 := by simp; omega
  unfold nextPlace
  split
  · simp only [hlen, Config.listingLength, false_and, if_false]
    rfl
  · rfl

end

/-- Settles O17: LIST_ENTRIES takes the first eight entries at or after the place. -/
theorem listEntriesGivesEightInListingOrder : Obligations.ListEntriesGivesEightInListingOrder := by
  intro s b c p k t h
  refine ⟨fun hbad => ?_, fun rank hk hrank hord => ?_⟩
  · rw [exec_listEntries h, listEntries, cursorRank_none hbad]
    rfl
  · refine ⟨s.store.filter (fun e => decide (rank ≤ e.rank)), fun e => ?_, hord.sublist List.filter_sublist, ?_⟩
    · rw [List.mem_filter, decide_eq_true_iff]
      rfl
    · rw [exec_listEntries h, listEntries, cursorRank_some hk hrank]
      have htake : entriesFrom (received 3 s) rank = (s.store.filter (fun e => decide (rank ≤ e.rank))).take 8 := rfl
      dsimp only
      rw [answerOk_received, htake]
      cases hx : (s.store.filter (fun e => decide (rank ≤ e.rank)))[7]? with
      | none => rw [nextPlace_short hx]; rfl
      | some e => dsimp only; rw [nextPlace_eighth hx]; rfl

/-! ### RESOLVE -/

/-- The entries of a GROUP or WALL scope at a key (R35). -/
theorem findEntry_exact {es : List Entry} {sc : Scope} {n : Nat} {e : Entry} (hsc : ∀ ref, sc ≠ .tile ref)
    (h : Sole (fun e => e.scope = sc ∧ e.key = n) es e) : findEntry es sc n = some e := by
  refine h.find_of fun y => ?_
  unfold Entry.isAt
  cases hy : y.scope <;> cases hs : sc <;> simp [sameScope]
  exact absurd hs (hsc _)

theorem findEntry_exact_none {es : List Entry} {sc : Scope} {n : Nat} (hsc : ∀ ref, sc ≠ .tile ref)
    (h : ∀ e ∈ es, ¬ (e.scope = sc ∧ e.key = n)) : findEntry es sc n = none := by
  refine find_none fun y hm => ?_
  have := h y hm
  unfold Entry.isAt
  cases hy : y.scope <;> cases hs : sc <;> simp_all [sameScope]

theorem range16_split {n : Nat} (h : n < 16) : List.range 16 = List.range n ++ n :: List.range' (n + 1) (15 - n) := by
  interval_cases n <;> rfl

/-- The entry of the lowest-numbered group that has one (R41, step 2). -/
theorem groupEntry_first {es : List Entry} {gs : GroupSet} {k n : Nat} {e : Entry} (hn : n < 16) (hg : gs.getLsbD n = true)
    (he : Sole (fun e => e.scope = .group n ∧ e.key = k) es e)
    (hmin : ∀ m < n, gs.getLsbD m = true → ∀ e ∈ es, ¬ (e.scope = .group m ∧ e.key = k)) :
    groupEntry es gs k = some (n, e.value) := by
  refine List.findSome?_eq_some_iff.mpr ⟨List.range n, n, _, range16_split hn, ?_, fun m hm => ?_⟩
  · rw [if_pos hg, findEntry_exact (by simp) he]
    rfl
  · split
    · rename_i hgm
      rw [findEntry_exact_none (by simp) (hmin m (List.mem_range.mp hm) hgm)]
      rfl
    · rfl

theorem groupEntry_none {es : List Entry} {gs : GroupSet} {k : Nat}
    (h : ∀ m < 16, gs.getLsbD m = true → ∀ e ∈ es, ¬ (e.scope = .group m ∧ e.key = k)) : groupEntry es gs k = none := by
  refine List.findSome?_eq_none_iff.mpr fun m hm => ?_
  split
  · rename_i hgm
    rw [findEntry_exact_none (by simp) (h m (List.mem_range.mp hm) hgm)]
    rfl
  · rfl

section
variable {s : State} {b : Byte} {t : Tag}

theorem resolve_named (h : Accepts s b t) {hb g k : Byte} {r : Record} {x : KeyRec} (hk : k.toNat ≤ 63)
    (hn : Names s ⟨hb.toNat, g.toNat⟩ r) (hx : Sole (fun y => y.number = k.toNat) s.keys x) :
    exec (.resolve b ⟨hb, g⟩ k) s = .next (answered s 3 t .resolve .ok (resolveResult s r x)) := by
  rw [exec_resolve h, resolve, badKeyNumber_of_le hk, checkRef_received, refOf, hn.checkRef, findKey_received, hx.findKey]
  rfl

/-- The result of a RESOLVE from what gives the effective value (R43). -/
theorem resolveResult_eq {r : Record} {x : KeyRec} {v : Half} {src : Source}
    (h : effective (committedView s) ⟨r.ref, r.groups, r.pos⟩ x = (v, src)) :
    resolveResult s r x = halfBytes v ++ src.bytes ++ [if x.introduced then 1 else 0] := by
  rw [resolveResult, h]
  rfl

end

/-- The TILE entries at a record's reference and a key. -/
theorem tileEntry_eq (es : List Entry) (ref : Ref) (k : Nat) {o : Option Entry}
    (hsome : ∀ e, o = some e → Sole (fun e => e.scope = .tile ref ∧ e.key = k) es e)
    (hnone : o = none → ∀ e ∈ es, ¬ (e.scope = .tile ref ∧ e.key = k)) :
    es.find? (fun e => e.scope == .tile ref && e.key == k) = o := by
  cases o with
  | some e => exact (hsome e rfl).find_of (by simp)
  | none => exact find_none fun e he => by simpa using hnone rfl e he

/-- Settles O18: the four sources in the order of R41. -/
theorem resolveGivesTheFirstSource : Obligations.ResolveGivesTheFirstSource := by
  intro s b h g k t r hacc
  refine ⟨fun hk => ?_, fun hk hn => ⟨fun hundef => ?_, fun x hx v src hsrc => ?_⟩⟩
  · rw [exec_resolve hacc, resolve, badKeyNumber_of_gt hk]
    rfl
  · have hnone : findKey s k.toNat = none := findKey_eq_none hundef
    rw [exec_resolve hacc, resolve, badKeyNumber_of_le hk, checkRef_received, refOf, hn.checkRef, findKey_received, hnone]
    rfl
  · rw [resolve_named hacc hk hn hx]
    have hxk : x.number = k.toNat := hx.holds
    have heff : ∃ src', effective (committedView s) ⟨r.ref, r.groups, r.pos⟩ x = (v, src') ∧ src'.bytes = src := by
      unfold effective
      dsimp only [committedView]
      rw [hxk]
      rcases hsrc with ⟨e, he, rfl, rfl⟩ | ⟨htile, hrest⟩
      · rw [tileEntry_eq s.store r.ref k.toNat (o := some e) (fun _ h => by cases h; exact he) (fun h => by cases h)]
        exact ⟨.tile, rfl, rfl⟩
      · rw [tileEntry_eq s.store r.ref k.toNat (o := none) (fun _ h => by cases h) (fun _ => htile)]
        rcases hrest with ⟨n, e, hn16, hgn, he, hmin, rfl, rfl⟩ | ⟨hgroup, hrest⟩
        · dsimp only
          rw [groupEntry_first hn16 hgn he hmin]
          exact ⟨.group n, rfl, rfl⟩
        · dsimp only
          rw [groupEntry_none hgroup]
          rcases hrest with ⟨e, he, rfl, rfl⟩ | ⟨hwall, rfl, rfl⟩
          · dsimp only
            rw [findEntry_exact (by simp) he]
            exact ⟨.wall, rfl, rfl⟩
          · dsimp only
            rw [findEntry_exact_none (by simp) hwall]
            exact ⟨.dflt, rfl, rfl⟩
    obtain ⟨src', heff, rfl⟩ := heff
    rw [resolveResult_eq heff]

/-! ### DEFINE_KEY -/

section
variable {s : State} {b : Byte} {t : Tag}

theorem exec_defineKey (h : Accepts s b t) (k a : Byte) (d lo hi : Half) :
    exec (.defineKey b k a d lo hi) s = .next (defineKey k a d lo hi t (received 8 s)) :=
  congrArg _ (submit_accepts h 8 (defineKey k a d lo hi))

theorem exec_undefineKey (h : Accepts s b t) (k : Byte) : exec (.undefineKey b k) s = .next (undefineKey k t (received 1 s)) :=
  congrArg _ (submit_accepts h 1 (undefineKey k))

/-- Where a new key record goes into the table: between what stands before and after its number (R29). -/
theorem insertKey_split (k : KeyRec) (ks : List KeyRec) : ∃ before after, ks = before ++ after ∧ insertKey k ks = before ++ k :: after := by
  induction ks with
  | nil => exact ⟨[], [], rfl, rfl⟩
  | cons x xs ih =>
    unfold insertKey
    split
    · exact ⟨[], x :: xs, rfl, rfl⟩
    · obtain ⟨p, q, hpq, hins⟩ := ih
      exact ⟨x :: p, q, by rw [hpq]; rfl, by rw [hins]; rfl⟩

/-- A new key record goes to the place of its number (R29). -/
theorem insertKey_ascending {k : KeyRec} {ks : List KeyRec} (hnew : ∀ x ∈ ks, x.number ≠ k.number)
    (h : ks.Pairwise (fun a b => a.number < b.number)) : (insertKey k ks).Pairwise (fun a b => a.number < b.number) := by
  induction ks with
  | nil => simp [insertKey]
  | cons y ys ih =>
    obtain ⟨hy, hys⟩ := List.pairwise_cons.mp h
    obtain ⟨hny, hnys⟩ := List.forall_mem_cons.mp hnew
    unfold insertKey
    split
    · rename_i hlt
      refine List.pairwise_cons.mpr ⟨fun x hx => ?_, h⟩
      rcases List.mem_cons.mp hx with rfl | hx
      · exact hlt
      · have := hy x hx; omega
    · refine List.pairwise_cons.mpr ⟨fun x hx => ?_, ih hnys hys⟩
      rcases (mem_insertKey k x ys).mp hx with rfl | hx
      · omega
      · exact hy x hx

theorem keyTaken_iff (ks : List KeyRec) (k a : Byte) :
    ks.any (fun x => x.number == k.toNat || x.addr == a) = true ↔ ∃ x ∈ ks, x.number = k.toNat ∨ x.addr = a := by simp

/-- DEFINE_KEY behind its first two checks (R30). -/
theorem defineKey_idle (h : Accepts s b t) {k : Byte} (a : Byte) (d lo hi : Half) (hk : k.toNat ≤ 63) (hidle : s.commit.state = .idle) :
    exec (.defineKey b k a d lo hi) s = .next (if s.keys.any (fun x => x.number == k.toNat || x.addr == a)
      then answered s 8 t .defineKey .inUse []
      else if 240 ≤ a.toNat ∨ d < lo ∨ hi < d then answered s 8 t .defineKey .outOfRange []
      else answered { s with keys := insertKey (newKey k a d lo hi) s.keys } 8 t .defineKey .ok [k]) := by
  rw [exec_defineKey h, defineKey, badKeyNumber_of_le hk, received_commit, received_keys, hidle]
  rfl

end

/-! ### UNDEFINE_KEY -/

theorem mem_allJobs (j : Job) (s : State) : j ∈ allJobs s ↔ ∃ l, j ∈ s.jobs.get l := by
  simp only [allJobs, List.mem_flatMap, mem_fours, true_and]

/-- Two states alike off the wire are alike after the same change at the port. -/
theorem modPort_offWire {a b : State} (h : offWire a = offWire b) (f : HostPort → HostPort) :
    offWire (modPort f a) = offWire (modPort f b) := by
  simp only [offWire, Prod.mk.injEq] at h
  obtain ⟨h1, h2, h3, h4, h5, h6, h7, h8, h9, h10, h11, h12, h13⟩ := h
  simp only [offWire, modPort_pending, modPort_now, modPort_choices, modPort_phase, modPort_port, modPort_dir, modPort_keys,
    modPort_store, modPort_staging, modPort_commit, modPort_boundary, modPort_links, modPort_jobs, h1, h2, h3, h4, h5, h6, h7, h8,
    h9, h10, h11, h12, h13]

theorem dropJobTxns_offWire (ref : Ref) (s : State) : offWire (modLinks (LinkEngine.dropJobTxns ref) s) = offWire s :=
  modLinks_offWire fun e => by
    unfold LinkEngine.dropJobTxns LinkEngine.dropFlight; (repeat' split) <;> rfl

/-- Every job begun anew in its place, the turn free (R162). -/
def jobsBegun (s : State) : State := { s with jobs := s.jobs.map (fun js => js.map (fun j => { Job.begin s j with turn := false })) }

theorem restartAllJobs_eq (s : State) :
    restartAllJobs s = forEach (allJobs s) (fun j => modLinks (LinkEngine.dropJobTxns j.ref)) (jobsBegun s) := rfl

theorem dropAllJobTxns_offWire (js : List Job) (s : State) :
    offWire (forEach js (fun j => modLinks (LinkEngine.dropJobTxns j.ref)) s) = offWire s :=
  forEach_keeps offWire fun j s => dropJobTxns_offWire (Job.ref j) s

theorem dropAllJobTxns_jobs (js : List Job) (s : State) :
    (forEach js (fun j => modLinks (LinkEngine.dropJobTxns j.ref)) s).jobs = s.jobs :=
  forEach_keeps (fun s => s.jobs) fun _ _ => rfl

/-- The restart of every job leaves alone all that lies off the wire (R162). -/
theorem restartAllJobs_offWire (s : State) : offWire (restartAllJobs s) = offWire s := by
  rw [restartAllJobs_eq, dropAllJobTxns_offWire]
  have hjobs : (jobsBegun s).jobs.map (fun js => js.map Job.ref) = s.jobs.map (fun js => js.map Job.ref) := by
    apply Quad.ext_get
    intro i
    simp only [jobsBegun, Quad.get_map, List.map_map]
    rfl
  unfold offWire
  rw [hjobs]
  rfl

theorem restartAllJobs_jobs (s : State) (l : LinkId) :
    (restartAllJobs s).jobs.get l = (s.jobs.get l).map (fun j => { Job.begin s j with turn := false }) := by
  rw [restartAllJobs_eq, dropAllJobTxns_jobs]
  exact Quad.get_map ..

/-- What the end of an event does to the jobs: a turn may be given, and the job that holds it may prepare its round again. -/
theorem settleTurn_jobs {P : Job → Prop} (hturn : ∀ j, P j → P { j with turn := true }) (hprep : ∀ s j, P j → P (j.prepared s))
    (l : LinkId) {s : State} (h : ∀ j ∈ allJobs s, P j) : ∀ j ∈ allJobs (settleTurn l s), P j := by
  have hpass : ∀ j ∈ allJobs (modJobs l passTurn s), P j := by
    intro j hj
    obtain ⟨i, hi⟩ := (mem_allJobs _ _).mp hj
    rw [modJobs_jobs, Quad.get_modify] at hi
    split at hi
    · unfold passTurn at hi
      split at hi
      · exact h j ((mem_allJobs _ _).mpr ⟨i, hi⟩)
      · split at hi
        · obtain ⟨x, hx, rfl⟩ := List.mem_map.mp hi
          have hpx := h x ((mem_allJobs _ _).mpr ⟨i, hx⟩)
          split
          · exact hturn x hpx
          · exact hpx
        · exact h j ((mem_allJobs _ _).mpr ⟨i, hi⟩)
    · exact h j ((mem_allJobs _ _).mpr ⟨i, hi⟩)
  unfold settleTurn
  split
  · dsimp only
    split
    · rename_i j hj
      split
      · have hpj : P (j.prepared (modJobs l passTurn s)) :=
          hprep _ j (hpass j ((mem_allJobs _ _).mpr ⟨l, List.mem_of_find?_eq_some hj⟩))
        intro x hx
        obtain ⟨i, hi⟩ := (mem_allJobs _ _).mp hx
        change x ∈ ((modJobs l passTurn s).jobs.modify l _).get i at hi
        rw [Quad.get_modify] at hi
        split at hi
        · obtain ⟨y, hy, rfl⟩ := List.mem_map.mp hi
          split
          · exact hpj
          · exact hpass y ((mem_allJobs _ _).mpr ⟨i, hy⟩)
        · exact hpass x ((mem_allJobs _ _).mpr ⟨i, hi⟩)
      · exact hpass
    · exact hpass
  · exact h

theorem arbitrate_jobs (l : LinkId) (s : State) : (arbitrate l s).jobs = s.jobs := by
  unfold arbitrate startTxn markReached
  dsimp only
  (repeat' split) <;> rfl

theorem finishLinks_jobs {P : Job → Prop} (hturn : ∀ j, P j → P { j with turn := true }) (hprep : ∀ s j, P j → P (j.prepared s))
    (n : Nat) {s : State} (h : ∀ j ∈ allJobs s, P j) : ∀ j ∈ allJobs (finishLinks n s), P j := by
  have hsettled : ∀ (ls : List LinkId) (s : State), (∀ j ∈ allJobs s, P j) → ∀ j ∈ allJobs (forEach ls settleTurn s), P j := by
    intro ls
    induction ls with
    | nil => exact fun s h => h
    | cons l ls ih => exact fun s h => ih _ (settleTurn_jobs hturn hprep l h)
  have hjobs : allJobs (finishLinks n s) = allJobs (settleTurns (queueHopScans s)) :=
    congrArg (fun js : Quad (List Job) => fours.flatMap (fun l => js.get l))
      (forEach_keeps (fun s : State => s.jobs) fun l s => arbitrate_jobs l s)
  rw [hjobs]
  exact hsettled fours (queueHopScans s) h

/-- A job at the beginning of round 1 with the change list of a view (R152, R162). -/
def Job.Begun (keys : List KeyRec) (v : View) (j : Job) : Prop :=
  j.round = 1 ∧ j.acked = 0 ∧ j.phase = .preparing ∧ j.list = changeList keys v j.ref ∧ j.reprepare = false

section
variable {s : State} {b : Byte} {t : Tag}

/-- UNDEFINE_KEY of a key that nothing names (R32). -/
theorem undefineKey_removes (h : Accepts s b t) {k : Byte} (hk : k.toNat ≤ 63) (hidle : s.commit.state = .idle) {x : KeyRec}
    (hx : Sole (fun y => y.number = k.toNat) s.keys x) (hstore : ∀ e ∈ s.store, e.key ≠ k.toNat)
    (hstaged : ∀ c ∈ s.staging, c.namesKey k.toNat = false) :
    exec (.undefineKey b k) s = .next (finishLinks s.port.completions.length
      (answerOk .undefineKey [k] t (removeKey x (received 1 s)))) := by
  have hfree : ¬ ((received 1 s).store.any (fun e => e.key == x.number) = true
      ∨ (received 1 s).staging.any (Change.namesKey x.number) = true) := by
    rw [hx.holds]
    simpa using And.intro hstore hstaged
  have hi : ¬ (received 1 s).commit.state ≠ .idle := not_not.mpr hidle
  rw [exec_undefineKey h, undefineKey, badKeyNumber_of_le hk, findKey_received, hx.findKey, if_neg hi]
  dsimp only
  rw [if_neg hfree]
  rfl

/-- The removal of a key leaves alone all else that lies off the wire (R32, R33). -/
theorem removeKey_offWire (x : KeyRec) (s : State) :
    offWire (removeKey x s) = offWire { s with keys := s.keys.filter (fun y => y.number != x.number) } := by
  unfold removeKey
  dsimp only
  split
  · rfl
  · exact restartAllJobs_offWire _

/-- The jobs after the removal of a key that was not introduced: each begun anew with the keys that are left (R162). -/
theorem removeKey_begun {x : KeyRec} (hx : x.introduced = false) (s : State) :
    ∀ j ∈ allJobs (removeKey x s), j.Begun (s.keys.filter (fun y => y.number != x.number)) (committedView s) := by
  intro j hj
  obtain ⟨l, hl⟩ := (mem_allJobs _ _).mp hj
  unfold removeKey at hl
  dsimp only at hl
  rw [hx, if_neg (by decide), restartAllJobs_jobs] at hl
  obtain ⟨y, -, rfl⟩ := List.mem_map.mp hl
  exact ⟨rfl, rfl, rfl, rfl, rfl⟩

end

/-- Settles O15: both requests check by check; the end of an UNDEFINE_KEY keeps every begun job begun. -/
theorem keysAreDefinedAndUndefined : Obligations.KeysAreDefinedAndUndefined := by
  intro s b k t h
  refine ⟨fun a d lo hi => ⟨fun hk => ?_, fun hk hbusy => ?_, fun hk hidle => ⟨fun huse => ?_, fun hnew => ⟨fun hrange => ?_,
    fun ha hlo hhi => ?_⟩⟩⟩, fun hk => ?_, fun hk hbusy => ?_, fun hk hidle hundef => ?_, fun hk hidle x hx => ⟨fun huse => ?_,
    fun hstore hstaged => ?_⟩⟩
  · rw [exec_defineKey h, defineKey, badKeyNumber_of_gt hk]; rfl
  · rw [exec_defineKey h, defineKey, badKeyNumber_of_le hk, received_commit]
    simp only [Bool.false_eq_true, if_false, if_pos hbusy, answer_received]
  · rw [defineKey_idle h a d lo hi hk hidle, if_pos ((keyTaken_iff ..).mpr huse)]
  · have hfree : ¬ s.keys.any (fun x => x.number == k.toNat || x.addr == a) = true := by
      rw [keyTaken_iff]; rintro ⟨x, hx, hor⟩; exact hor.elim (hnew x hx).1 (hnew x hx).2
    rw [defineKey_idle h a d lo hi hk hidle, if_neg hfree, if_pos (by simpa [BitVec.lt_def] using hrange)]
  · have hfree : ¬ s.keys.any (fun x => x.number == k.toNat || x.addr == a) = true := by
      rw [keyTaken_iff]; rintro ⟨x, hx, hor⟩; exact hor.elim (hnew x hx).1 (hnew x hx).2
    have hrange : ¬ (240 ≤ a.toNat ∨ d < lo ∨ hi < d) := by simp only [BitVec.lt_def]; omega
    obtain ⟨before, after, hsplit, hins⟩ := insertKey_split (newKey k a d lo hi) s.keys
    refine ⟨before, after, hsplit, ?_, fun hord => ?_⟩
    · rw [defineKey_idle h a d lo hi hk hidle, if_neg hfree, if_neg hrange, hins]; rfl
    · have := insertKey_ascending (k := newKey k a d lo hi) (fun y hy => (hnew y hy).1) hord
      rw [hins] at this
      exact this
  · rw [exec_undefineKey h, undefineKey, badKeyNumber_of_gt hk]; rfl
  · rw [exec_undefineKey h, undefineKey, badKeyNumber_of_le hk, received_commit]
    simp only [Bool.false_eq_true, if_false, if_pos hbusy, answer_received]
  · have hi : ¬ (received 1 s).commit.state ≠ .idle := not_not.mpr hidle
    rw [exec_undefineKey h, undefineKey, badKeyNumber_of_le hk, findKey_received, findKey_eq_none hundef, if_neg hi]
    rfl
  · have hi : ¬ (received 1 s).commit.state ≠ .idle := not_not.mpr hidle
    have hused : (received 1 s).store.any (fun e => e.key == x.number) = true
        ∨ (received 1 s).staging.any (Change.namesKey x.number) = true := by
      rw [hx.holds]
      simpa using huse
    rw [exec_undefineKey h, undefineKey, badKeyNumber_of_le hk, findKey_received, hx.findKey, if_neg hi]
    dsimp only
    rw [if_pos hused]
    rfl
  · have hport : (removeKey x (received 1 s)).port = (received 1 s).port :=
      congrArg (fun x => x.2.2.2.2.1) (removeKey_offWire x (received 1 s))
    have hkeys : (removeKey x (received 1 s)).keys = s.keys.filter (fun y => y.number != x.number) :=
      congrArg (fun x => x.2.2.2.2.2.2.1) (removeKey_offWire x (received 1 s))
    refine ⟨_, undefineKey_removes h hk hidle hx hstore hstaged, ?_, fun hintro j hj => ?_⟩
    · rw [finishLinks_offWire]
      · exact (modPort_offWire (removeKey_offWire x (received 1 s)) _).trans (by rw [hx.holds]; rfl)
      · show ((removeKey x (received 1 s)).port.completions ++ [_]).length ≤ _
        rw [hport]
        simp
    · have hb := finishLinks_jobs (P := Job.Begun (s.keys.filter (fun y => y.number != x.number)) (committedView s))
        (fun j hj => hj) (fun s j hj => by unfold Job.prepared; rw [hj.2.2.2.2]; exact hj) s.port.completions.length
        (s := answerOk .undefineKey [k] t (removeKey x (received 1 s))) (removeKey_begun hintro (received 1 s)) j hj
      obtain ⟨hround, hacked, hphase, hlist, -⟩ := hb
      refine ⟨hround, hacked, hphase, ?_⟩
      rw [hlist, finishLinks_keys]
      show changeList _ _ _ = changeList (removeKey x (received 1 s)).keys _ _
      rw [hkeys]

end Sys2Proof.Machine
end

section
/-! PROOFS. The requests of the Staging List (chapter 3): the stage requests check by check, DISCARD and STAGING_LIST. -/

namespace Sys2Proof.Machine

/-! ### Targets in the list -/

/-- The first change with a target stands behind those without it. -/
theorem targetIndex_append {before after : List Change} {old : Change} {x : Target} (hold : sameTarget old.target x = true)
    (hbefore : ∀ c ∈ before, sameTarget c.target x = false) : targetIndex (before ++ old :: after) x = some before.length := by
  refine List.findIdx?_eq_some_iff_getElem.mpr ⟨by simp, by simpa using hold, fun i hi => ?_⟩
  rw [List.getElem_append_left hi]
  simpa using hbefore _ (List.getElem_mem hi)

theorem targetIndex_eq_none {cs : List Change} {x : Target} (h : ∀ c ∈ cs, sameTarget c.target x = false) : targetIndex cs x = none :=
  List.findIdx?_eq_none_iff.mpr h

section
variable {s : State} {b : Byte} {t : Tag}

/-- A change that passed its own checks takes its place in the list (R54). -/
theorem stageChange_takes (n : Nat) (kind : ReqKind) (c : Change) (t : Tag) (s : State) :
    TakesChange s n t kind c (.next (stageChange kind c t (received n s))) := by
  unfold stageChange
  refine ⟨fun before old after hs hold hbefore => ?_, fun hnone => ⟨fun hlen => ?_, fun hlen => ?_⟩⟩
  · have hi : targetIndex (received n s).staging c.target = some before.length := by
      rw [received_staging, hs]; exact targetIndex_append hold hbefore
    have hset : (received n s).staging.set before.length c = before ++ c :: after := by
      rw [received_staging, hs]; simp
    rw [hi]
    dsimp only
    rw [hset]
    rfl
  · have hi : targetIndex (received n s).staging c.target = none := targetIndex_eq_none hnone
    have hroom : ¬ Config.stagingCapacity ≤ (received n s).staging.length := not_le.mpr hlen
    rw [hi]
    dsimp only
    rw [if_neg hroom]
    rfl
  · have hi : targetIndex (received n s).staging c.target = none := targetIndex_eq_none hnone
    rw [hi]
    dsimp only
    rw [if_pos (show Config.stagingCapacity ≤ (received n s).staging.length from hlen)]
    rfl

/-! ### The shared checks -/

theorem stageEntryCheck_badScope {f : ScopeField} (k : Byte) (s : State) (hf : scopeOf f = none) :
    stageEntryCheck f k s = .error .badParameter := by simp only [stageEntryCheck, hf]

theorem stageEntryCheck_badEntry {f : ScopeField} {sc : Scope} {k : Byte} (s : State) (hf : scopeOf f = some sc) (hin : ¬ EntryInRange sc k) :
    stageEntryCheck f k s = .error .badParameter := by
  simp only [stageEntryCheck, hf]
  exact if_pos ((badEntry_iff sc k).mpr hin)

theorem stageEntryCheck_busy {f : ScopeField} {sc : Scope} {k : Byte} (hf : scopeOf f = some sc) (hin : EntryInRange sc k)
    (hbusy : s.commit.state ≠ .idle) : stageEntryCheck f k s = .error .busy := by
  simp only [stageEntryCheck, hf]
  rw [if_neg (by rw [badEntry_iff]; exact not_not.mpr hin), if_pos hbusy]

/-- The checks behind the range and the commit state: the reference, then the key (R50). -/
theorem stageEntryCheck_idle {f : ScopeField} {sc : Scope} {k : Byte} (hf : scopeOf f = some sc) (hin : EntryInRange sc k)
    (hidle : s.commit.state = .idle) : stageEntryCheck f k s = match scopeFailure s sc with
      | some st => .error st
      | none => match findKey s k.toNat with
        | none => .error .keyUndefined
        | some x => .ok (sc, x) := by
  simp only [stageEntryCheck, hf]
  rw [if_neg (by rw [badEntry_iff]; exact not_not.mpr hin), if_neg (not_not.mpr hidle)] <;> rfl

theorem stageEntryCheck_failing {f : ScopeField} {ref : Ref} {k : Byte} {st : Status} (hf : scopeOf f = some (.tile ref))
    (hin : EntryInRange (.tile ref) k) (hidle : s.commit.state = .idle) (hfail : FailsWith s ref st) :
    stageEntryCheck f k s = .error st := by
  rw [stageEntryCheck_idle hf hin hidle, hfail.scopeFailure]

theorem stageEntryCheck_undefined {f : ScopeField} {sc : Scope} {k : Byte} (hf : scopeOf f = some sc) (hin : EntryInRange sc k)
    (hidle : s.commit.state = .idle) (hn : ScopeNames s sc) (hx : ∀ x ∈ s.keys, x.number ≠ k.toNat) :
    stageEntryCheck f k s = .error .keyUndefined := by
  rw [stageEntryCheck_idle hf hin hidle, hn.scopeFailure, findKey_eq_none hx]

theorem stageEntryCheck_passes {f : ScopeField} {sc : Scope} {k : Byte} {x : KeyRec} (hf : scopeOf f = some sc)
    (hin : EntryInRange sc k) (hidle : s.commit.state = .idle) (hn : ScopeNames s sc)
    (hx : Sole (fun y => y.number = k.toNat) s.keys x) : stageEntryCheck f k s = .ok (sc, x) := by
  rw [stageEntryCheck_idle hf hin hidle, hn.scopeFailure, hx.findKey]

theorem stageRefCheck_busy (ref : Ref) (hbusy : s.commit.state ≠ .idle) : stageRefCheck ref s = some .busy := if_pos hbusy

theorem stageRefCheck_failing {ref : Ref} {st : Status} (hidle : s.commit.state = .idle) (hfail : FailsWith s ref st) :
    stageRefCheck ref s = some st := by
  rw [stageRefCheck, if_neg (not_not.mpr hidle)]
  rcases hfail.failure with ⟨hc, rfl⟩ | ⟨hc, rfl⟩ <;> rw [hc] <;> rfl

theorem stageRefCheck_passes {ref : Ref} {r : Record} (hidle : s.commit.state = .idle) (hn : Names s ref r) :
    stageRefCheck ref s = none := by
  rw [stageRefCheck, if_neg (not_not.mpr hidle), hn.checkRef]
  rfl

/-! ### The requests -/

theorem exec_stageSet (h : Accepts s b t) (f : ScopeField) (k : Byte) (v : Half) :
    exec (.stageSet b f k v) s = .next (stageSet f k v t (received 6 s)) := congrArg _ (submit_accepts h 6 (stageSet f k v))

theorem exec_stageClear (h : Accepts s b t) (f : ScopeField) (k : Byte) :
    exec (.stageClear b f k) s = .next (stageClear f k t (received 4 s)) := congrArg _ (submit_accepts h 4 (stageClear f k))

theorem exec_stagePlace (h : Accepts s b t) (f : RefField) (c r d : Byte) :
    exec (.stagePlace b f c r d) s = .next (stagePlace (refOf f) c r d t (received 5 s)) :=
  congrArg _ (submit_accepts h 5 (stagePlace (refOf f) c r d))

theorem exec_stageUnplace (h : Accepts s b t) (f : RefField) :
    exec (.stageUnplace b f) s = .next (stageUnplace (refOf f) t (received 2 s)) := congrArg _ (submit_accepts h 2 (stageUnplace (refOf f)))

theorem exec_stageGroups (h : Accepts s b t) (f : RefField) {ns : List Byte} (hn : ns.length ≤ 16) :
    exec (.stageGroups b f ns) s = .next (stageGroups (refOf f) ns t (received (3 + ns.length) s)) := by
  simp only [exec, execStageGroups, if_pos hn]
  rw [submit_accepts h]

/-- STAGE_SET and STAGE_CLEAR refused by a check they share (R50). -/
theorem stageEntry_refused (h : Accepts s b t) {f : ScopeField} {k : Byte} {st : Status} (v : Half)
    (hc : ∀ n, stageEntryCheck f k (received n s) = .error st) :
    exec (.stageSet b f k v) s = .next (answered s 6 t .stageSet st [])
      ∧ exec (.stageClear b f k) s = .next (answered s 4 t .stageClear st []) := by
  refine ⟨?_, ?_⟩
  · rw [exec_stageSet h, stageSet, hc 6]; rfl
  · rw [exec_stageClear h, stageClear, hc 4]; rfl

/-- The stage requests of a record refused by a check they share (R50). -/
theorem stageRef_refused (h : Accepts s b t) {f : RefField} {st : Status} (hc : ∀ n, stageRefCheck (refOf f) (received n s) = some st)
    {d : Byte} (hd : d.toNat ≤ 1) (c r : Byte) {ns : List Byte} (hlen : ns.length ≤ 16) (hns : ∀ n ∈ ns, n.toNat ≤ 15) :
    exec (.stagePlace b f c r d) s = .next (answered s 5 t .stagePlace st [])
      ∧ exec (.stageUnplace b f) s = .next (answered s 2 t .stageUnplace st [])
      ∧ exec (.stageGroups b f ns) s = .next (answered s (3 + ns.length) t .stageGroups st []) := by
  have hin : ¬ ns.any (fun n => decide (15 < n.toNat)) = true := by simpa using hns
  refine ⟨?_, ?_, ?_⟩
  · rw [exec_stagePlace h, stagePlace, flagOf_of_le hd, hc 5]; rfl
  · rw [exec_stageUnplace h, stageUnplace, hc 2]; rfl
  · rw [exec_stageGroups h f hlen, stageGroups, if_neg hin, hc]; rfl

/-- The bits of a group set collected from numbers (R53). -/
theorem groupSet_foldl_bit {i : Nat} (hi : i < 16) (ns : List Byte) (g : GroupSet) :
    (ns.foldl (fun g n => g ||| (1#16 <<< n.toNat)) g).getLsbD i = (g.getLsbD i || ns.any (fun n => n.toNat == i)) := by
  induction ns generalizing g with
  | nil => simp
  | cons n ns ih =>
    have hbit : (1#16 <<< n.toNat).getLsbD i = (n.toNat == i) := by
      simp only [BitVec.getLsbD_shiftLeft, BitVec.getLsbD_one, hi, decide_true, Bool.true_and]
      rw [Bool.eq_iff_iff]
      simp
      omega
    rw [List.foldl_cons, ih, BitVec.getLsbD_or, hbit, List.any_cons, Bool.or_assoc]

/-- The group set of numbers holds exactly the numbers given (R53). -/
theorem groupSetOf_eq {ns : List Byte} {set : GroupSet} (h : ∀ i < 16, set.getLsbD i = true ↔ ∃ n ∈ ns, n.toNat = i) :
    groupSetOf ns = set := by
  apply BitVec.eq_of_getLsbD_eq
  intro i hi
  rw [groupSetOf, groupSet_foldl_bit hi, Bool.eq_iff_iff, h i hi]
  simp

end

/-- Settles O19: each request passes its checks and gives its change to the list. -/
theorem stageRequestsTakeTheirChange : Obligations.StageRequestsTakeTheirChange := by
  intro s b t h hidle
  refine ⟨fun k f sc x hf hin hn hx => ⟨fun v hlo hhi => ?_, ?_⟩, fun hb g hr => ⟨fun c r d hc hrow hd => ?_, ?_, fun ns set hlen hns hset => ?_⟩⟩
  · have hv : ¬ (v < x.min ∨ x.max < v) := by simp only [BitVec.lt_def]; omega
    have hcheck : stageEntryCheck f k (received 6 s) = .ok (sc, x) := stageEntryCheck_passes hf hin hidle hn hx
    rw [exec_stageSet h, stageSet, hcheck]
    dsimp only
    rw [if_neg hv, hx.holds]
    exact stageChange_takes ..
  · have hcheck : stageEntryCheck f k (received 4 s) = .ok (sc, x) := stageEntryCheck_passes hf hin hidle hn hx
    rw [exec_stageClear h, stageClear, hcheck]
    dsimp only
    rw [hx.holds]
    exact stageChange_takes ..
  · obtain ⟨x, hx⟩ := hr
    have hcheck : stageRefCheck (refOf ⟨hb, g⟩) (received 5 s) = none := stageRefCheck_passes hidle hx
    rw [exec_stagePlace h, stagePlace, flagOf_of_le hd, hcheck]
    dsimp only
    rw [if_neg (by omega)]
    exact stageChange_takes ..
  · obtain ⟨x, hx⟩ := hr
    have hcheck : stageRefCheck (refOf ⟨hb, g⟩) (received 2 s) = none := stageRefCheck_passes hidle hx
    rw [exec_stageUnplace h, stageUnplace, hcheck]
    exact stageChange_takes ..
  · obtain ⟨x, hx⟩ := hr
    have hcheck : stageRefCheck (refOf ⟨hb, g⟩) (received (3 + ns.length) s) = none := stageRefCheck_passes hidle hx
    have hin : ¬ ns.any (fun n => decide (15 < n.toNat)) = true := by simpa using hns
    rw [exec_stageGroups h _ hlen, stageGroups, if_neg hin, hcheck, groupSetOf_eq hset]
    exact stageChange_takes ..

/-- Settles O20: each refusal by the check that makes it. -/
theorem stageRequestsRefuseInOrder : Obligations.StageRequestsRefuseInOrder := by
  intro s b t h
  refine ⟨fun f k v hf => stageEntry_refused h v fun n => stageEntryCheck_badScope k _ hf, fun f sc k v hf => ⟨fun hin => ?_,
    fun hin hbusy => ?_, fun hin hidle ref st hsc hfail => ?_, fun hin hidle hn => ⟨fun hx => ?_, fun x hx hv => ?_⟩⟩,
    fun hb g c r d ns hlen => ⟨fun hd => ?_, fun hns => ?_, fun hd hns => ⟨fun hbusy => ?_, fun hidle => ⟨fun st hfail => ?_,
    fun hr hcell => ?_⟩⟩⟩⟩
  · exact stageEntry_refused h v fun n => stageEntryCheck_badEntry _ hf hin
  · exact stageEntry_refused h v fun n => stageEntryCheck_busy hf hin hbusy
  · subst hsc
    exact stageEntry_refused h v fun n => stageEntryCheck_failing hf hin hidle hfail
  · exact stageEntry_refused h v fun n => stageEntryCheck_undefined hf hin hidle hn hx
  · have hcheck : stageEntryCheck f k (received 6 s) = .ok (sc, x) := stageEntryCheck_passes hf hin hidle hn hx
    rw [exec_stageSet h, stageSet, hcheck]
    dsimp only
    rw [if_pos (by simpa [BitVec.lt_def] using hv)]
    rfl
  · have hflag : flagOf d = none := by
      unfold flagOf
      rw [if_neg (by rintro rfl; exact absurd hd (by decide)), if_neg (by rintro rfl; exact absurd hd (by decide))]
    rw [exec_stagePlace h, stagePlace, hflag]
    rfl
  · have hany : ns.any (fun n => decide (15 < n.toNat)) = true := by simpa using hns
    rw [exec_stageGroups h _ hlen, stageGroups, if_pos hany]
    rfl
  · exact stageRef_refused h (f := ⟨hb, g⟩) (fun n => stageRefCheck_busy _ hbusy) hd c r hlen hns
  · exact stageRef_refused h (f := ⟨hb, g⟩) (fun n => stageRefCheck_failing hidle hfail) hd c r hlen hns
  · obtain ⟨x, hx⟩ := hr
    have hcheck : stageRefCheck (refOf ⟨hb, g⟩) (received 5 s) = none := stageRefCheck_passes hidle hx
    rw [exec_stagePlace h, stagePlace, flagOf_of_le hd, hcheck]
    dsimp only
    rw [if_pos hcell]
    rfl

/-! ### DISCARD and STAGING_LIST -/

section
variable {s : State} {b : Byte} {t : Tag}

theorem exec_discard (h : Accepts s b t) (f : SelectorField) : exec (.discard b f) s = .next (discard f t (received 7 s)) :=
  congrArg _ (submit_accepts h 7 (discard f))

theorem exec_stagingList (h : Accepts s b t) (c : Byte) : exec (.stagingList b c) s = .next (stagingList c t (received 1 s)) :=
  congrArg _ (submit_accepts h 1 (stagingList c))

/-- The changes a STAGING_LIST returns, each with its index (R59). -/
theorem changesFrom_bytes (cs : List Change) (n : Nat) :
    (changesFrom cs n).flatMap changeBytes = ((cs.zipIdx.drop n).take 8).flatMap (fun x => u8 x.2 :: x.1.code :: x.1.fields) := by
  have hswap : (List.range cs.length).zip cs = cs.zipIdx.map Prod.swap := by
    rw [List.zipIdx_eq_zip_range', List.zip_swap, List.range_eq_range']
  rw [changesFrom, hswap, ← List.map_drop, ← List.map_take, List.flatMap_map]
  rfl

/-- A selector with a number out of range is bad (R58, check 1). -/
theorem Selector.bad_iff (sel : Selector) :
    sel.bad = true ↔ ∃ sc k, sel = .entry sc k ∧ (63 < k ∨ ∃ g, sc = .group g ∧ 15 < g) := by
  cases sel with
  | entry sc k => cases sc <;> simp [Selector.bad, scopeGroupOk]
  | _ => simp [Selector.bad]

/-- A selector whose reference, if it carries one, names a record passes the reference check. -/
theorem Selector.passes {sel : Selector} (h : ∀ ref, ((∃ k, sel = .entry (.tile ref) k) ∨ sel = .position ref ∨ sel = .groupSet ref) →
    ∃ r, Names s ref r) : sel.failure s = none := by
  cases sel with
  | all => rfl
  | entry sc k =>
    cases sc with
    | tile ref =>
      obtain ⟨r, hr⟩ := h ref (.inl ⟨k, rfl⟩)
      simp only [Selector.failure, Machine.scopeFailure, hr.checkRef, RefCheck.failure]
    | _ => rfl
  | position ref =>
    obtain ⟨r, hr⟩ := h ref (.inr (.inl rfl))
    simp only [Selector.failure, hr.checkRef, RefCheck.failure]
  | groupSet ref =>
    obtain ⟨r, hr⟩ := h ref (.inr (.inr rfl))
    simp only [Selector.failure, hr.checkRef, RefCheck.failure]

theorem Selector.fails {sel : Selector} {ref : Ref} {st : Status}
    (h : (∃ k, sel = .entry (.tile ref) k) ∨ sel = .position ref ∨ sel = .groupSet ref) (hfail : FailsWith s ref st) :
    sel.failure s = some st := by
  have hc : (checkRef s ref).failure = some st := hfail.scopeFailure
  rcases h with ⟨k, rfl⟩ | rfl | rfl <;> exact hc

/-- DISCARD behind its first two checks (R58). -/
theorem discard_idle (h : Accepts s b t) {f : SelectorField} {sel : Selector} (hf : selectorOf f = some sel) (hgood : sel.bad = false)
    (hidle : s.commit.state = .idle) {st : Option Status} (hfail : sel.failure s = st) :
    exec (.discard b f) s = .next (match st, sel.target with
      | some st, _ => answered s 7 t .discard st []
      | none, none => answered { s with staging := [] } 7 t .discard .ok [u8 s.staging.length, 0]
      | none, some x => discardTarget x t (received 7 s)) := by
  have hf' : sel.failure (received 7 s) = st := by
    rw [← hfail]
    cases sel with
    | entry sc k => exact scopeFailure_received ..
    | _ => rfl
  rw [exec_discard h, discard, hf]
  dsimp only
  rw [hgood, if_neg (by decide), if_neg (not_not.mpr hidle : ¬ (received 7 s).commit.state ≠ .idle), hf']
  cases st with
  | some st => rfl
  | none => cases sel.target <;> rfl

end

/-- Settles O21: STAGING_LIST index by index; DISCARD check by check, then by the place of the target. -/
theorem discardAndStagingList : Obligations.DiscardAndStagingList := by
  intro s b t h
  refine ⟨fun c => ⟨fun hc => ?_, fun hc => ?_⟩, fun f => ⟨fun hf => ?_, fun sel hf => ⟨fun hbad => ?_, fun hgood => ?_⟩⟩⟩
  · rw [exec_stagingList h, stagingList, if_pos hc]; rfl
  · rw [exec_stagingList h, stagingList, if_neg (by omega), changesFrom_bytes]; rfl
  · rw [exec_discard h, discard, hf]; rfl
  · rw [exec_discard h, discard, hf]
    dsimp only
    rw [if_pos ((Selector.bad_iff sel).mpr hbad)]
    rfl
  · have hgood' : sel.bad = false := by
      rw [Bool.eq_false_iff, ne_eq, Selector.bad_iff]
      rintro ⟨sc, k, rfl, hk | ⟨g, rfl, hg⟩⟩
      · have := (hgood sc k rfl).1; omega
      · have := (hgood _ k rfl).2 g rfl; omega
    refine ⟨fun hbusy => ?_, fun hidle => ⟨fun hall => ?_, fun ref st href hfail => ?_, fun target htarget hnames =>
      ⟨fun before old after hs hold hbefore => ?_, fun hnone => ?_⟩⟩⟩
    · rw [exec_discard h, discard, hf]
      dsimp only
      rw [hgood', if_neg (by decide), if_pos (show (received 7 s).commit.state ≠ .idle from hbusy)]
      rfl
    · subst hall
      exact discard_idle h hf hgood' hidle rfl
    · rw [discard_idle h hf hgood' hidle (Selector.fails href hfail)]
    · rw [discard_idle h hf hgood' hidle (Selector.passes hnames), htarget]
      dsimp only
      have hi : targetIndex (received 7 s).staging target = some before.length := by
        rw [received_staging, hs]; exact targetIndex_append hold hbefore
      have herase : (received 7 s).staging.eraseIdx before.length = before ++ after := by
        rw [received_staging, hs, List.eraseIdx_append_of_length_le (le_refl _)]; simp
      have hcount : (received 7 s).staging.length - 1 = (before ++ after).length := by
        rw [received_staging, hs]; simp
      rw [discardTarget, hi]
      dsimp only
      rw [herase, hcount]
      rfl
    · rw [discard_idle h hf hgood' hidle (Selector.passes hnames), htarget]
      dsimp only
      have hi : targetIndex (received 7 s).staging target = none := targetIndex_eq_none hnone
      rw [discardTarget, hi]
      rfl

end Sys2Proof.Machine
end

section
/-! PROOFS. The hub after device reset is well shaped and sound, and the invariant of the tags is not inductive: nothing in it says
that the transaction in flight of a TILE_READ is a directed one. -/

namespace Sys2Proof.Machine

/-! ### Device reset -/

theorem reset_link (l : LinkId) : State.reset.links.get l = LinkEngine.reset := Quad.get_all ..

theorem linkShaped_reset : LinkShaped LinkEngine.reset :=
  ⟨by decide, by decide, by decide, by decide, rfl, by decide⟩

/-- An engine that is not up, with nothing in it, is sound. -/
theorem linkSound_reset : LinkSound LinkEngine.reset := linkSound_of [] (by decide) (by decide) (by decide)

theorem wellShaped_reset : WellShaped State.reset where
  gens := ⟨List.length_replicate .., fun g hg => by rw [List.eq_of_mem_replicate hg]; decide⟩
  grace := by decide
  attention := List.length_replicate ..
  recordOrder := .nil
  entryOrder := .nil
  keys := by rintro k ⟨⟩
  keyOrder := .nil
  staged := by decide
  targets := .nil
  prepare := by decide
  arm := by decide
  apply := by decide
  links l := by rw [reset_link]; exact linkShaped_reset

theorem entry_reset (hop : Nat) : LinkEngine.reset.entry hop = .empty := by
  have hr : LinkEngine.reset.hops = List.replicate 16 .empty := rfl
  rw [LinkEngine.entry, hr, List.getD_eq_getElem?_getD, List.getElem?_replicate]
  split <;> rfl

theorem directorySound_reset : DirectorySound State.reset where
  order := .nil
  ids := .nil
  handles := .refl _
  gens := ⟨by rintro r ⟨⟩, by rintro m ⟨⟩⟩
  stale := .refl _
  staleInfo := by rintro r ⟨⟩
  marks := .refl _
  markIds := .nil
  newIds := by rintro m ⟨⟩
  rebindIds := by rintro m ⟨⟩
  hops l hop ref := by
    rw [reset_link, entry_reset]
    exact ⟨by rintro ⟨⟩, by rintro ⟨r, ⟨⟩, -⟩⟩
  locations := by rintro r ⟨⟩

theorem hubSound_reset : HubSound State.reset := ⟨fun l => by rw [reset_link]; exact linkSound_reset, directorySound_reset⟩

theorem tagsSound_reset : TagsSound State.reset := tagsSound_of (by decide)

theorem commitSound_reset : CommitSound State.reset := commitSound_of (by decide) (by decide) (by decide)

/-- Settles O58, from the soundness of an engine with nothing in it and of an empty directory. -/
theorem resetIsShapedAndSound : Obligations.ResetIsShapedAndSound :=
  ⟨wellShaped_reset, hubSound_reset, tagsSound_reset, commitSound_reset⟩

/-! ### The invariant of the tags -/

/-- A TILE_READ under tag 0 whose transaction in flight is sent as a broadcast. -/
def strayRead : Flight :=
  { txn := { dest := .broadcast, body := .paramRead 0, cls := .host, req := .tag 0 }, seq := 0, attempt := 1, allowed := 1,
    phase := .onWire, expires := 0 }

/-- A RUNNING link with that transaction in flight. -/
def strayEngine : LinkEngine := { LinkEngine.reset with state := .running, flight := some strayRead }

/-- The hub after device reset, but for that link and its tag, when the broadcast has left it. -/
def strayHub : State :=
  { State.reset with
    pending := [.broadcastSent 0]
    port := { State.reset.port with tags := State.reset.port.tags.put 0 (.running (.tileRead ⟨1, 0⟩ 0)) }
    links := State.reset.links.put 0 strayEngine }

theorem strayHub_link (l : LinkId) : strayHub.links.get l = if l = 0 then strayEngine else LinkEngine.reset := by
  show (State.reset.links.put 0 strayEngine).get l = _
  rw [Quad.get_put, reset_link]

theorem wellShaped_strayHub : WellShaped strayHub :=
  { wellShaped_reset with
    links := fun l => by
      rw [strayHub_link]
      split
      · exact ⟨by decide, by decide, by decide, by decide, rfl, by decide⟩
      · exact linkShaped_reset }

theorem hubSound_strayHub : HubSound strayHub where
  links l := by
    rw [strayHub_link]
    split
    · exact linkSound_of [] (by decide) (by decide) (by decide)
    · exact linkSound_reset
  directory :=
    { directorySound_reset with
      marks := .refl _
      hops := fun l hop ref => by
        have he : (strayHub.links.get l).entry hop = .empty := by
          rw [strayHub_link]; split <;> exact entry_reset hop
        rw [he]
        exact ⟨by rintro ⟨⟩, by rintro ⟨r, ⟨⟩, -⟩⟩ }

theorem tagsSound_strayHub : TagsSound strayHub := tagsSound_of (by decide)

/-- The hub when the broadcast has left it. -/
def strayHubAfter : State := whenOperating (broadcastSent 0) { strayHub with pending := [] }

theorem hostTags_strayHubAfter : ∀ l, hostTags (strayHubAfter.links.get l) = [] := by decide

/-- Refutes O56: nothing in LinkSound or TagsSound says that the transaction in flight of a TILE_READ is a directed one, and the end
of a broadcast has no requester to hear of it. With such a transaction in flight the TILE_READ's tag stays RUNNING when the broadcast
has been sent, and no link holds it any more. -/
theorem not_everyStepKeepsTheTagsSound : ¬ Obligations.EveryStepKeepsTheTagsSound := by
  intro h
  have hs : TagsSound strayHubAfter := h strayHub _ wellShaped_strayHub hubSound_strayHub tagsSound_strayHub rfl
  obtain ⟨l, hl⟩ := hs.held 0 (.tileRead ⟨1, 0⟩ 0) rfl
  rw [hostTags_strayHubAfter] at hl
  cases hl

end Sys2Proof.Machine
end

section
/-! PROOFS. What each operation on a link engine does to the soundness of the link within an event (`EngineMid`), when a scan step has
left the wire and its outcome is still to be met. -/

namespace Sys2Proof.Machine

/-! ### A link within an event -/

/-- What an event still owes a link: the scan steps that have left the wire or the scan class and whose outcome is to be met, those of
them that a step of the full scan has to follow, the state the link has with its wire free until then, and whether the full scan of a
SCANNING link has begun. -/
structure LinkDebt where
  steps : List Txn
  full : List Txn
  state : Option LinkState
  begun : Bool

/-- Nothing is owed. -/
def LinkDebt.none : LinkDebt := ⟨[], [], .none, true⟩

/-- What holds of a link engine within an event: what holds of it between events (LinkSound), the steps owed counted in; and the
hop scans caused are of different hops, on a RUNNING link. -/
structure EngineMid (d : LinkDebt) (e : LinkEngine) : Prop where
  known : ∀ x, d.state = some x → e.state = x ∧ e.flight = none
  down : e.isUp = false → e.flight = none ∧ e.overtaking = none ∧ e.scanQ = [] ∧ e.hostQ = [] ∧ e.assigning = none
    ∧ e.reach = 0 ∧ e.hops = List.replicate 16 .empty
  reach : e.reach ≤ 16
  scanning : e.scan.isSome = true ↔ e.state = .scanning ∧ d.begun = true
  followUp : e.followUp = true → e.state = .scanning
  rollDue : e.rollDue = true → e.state = .running
  rollMet : (e.rollDue = true → e.rollMet = true) ∧ (e.rollMet = true → e.state = .running)
  noLock : e.noLockTimer ≠ none ∨ e.noLockMark = true → e.state = .training
  steps : ∃ qs : List (Bool × Nat),
    d.steps ++ e.stepTraffic = e.assigning.toList.map Assignment.txn ++ qs.map (fun q => enumTxn q.1 q.2)
    ∧ (∀ q ∈ qs, q.2 < 16) ∧ (e.assigning.toList.map Assignment.hop ++ (qs.filter (fun q => !q.1)).map Prod.snd).Nodup
  fullStep : e.state ≠ .scanning ∨ d.begun = false → ∀ t ∈ d.full ++ e.stepTraffic, t.isFullScan = false
  oneFullStep : ∀ sc, e.scan = some sc → sc.hop < 16
    ∧ ∃ t, (d.full ++ e.stepTraffic).filter Txn.isFullScan = [t] ∧ t.dest = .directed sc.hop
  noHopScan : e.state = .scanning → (∀ t ∈ e.scanQ, t.req ≠ .scanStep false)
    ∧ ∀ f, e.flight = some f → f.txn.req = .scanStep false → f.txn.body ≠ .enumQuery
  assigned : ∀ a, e.assigning = some a → a.hop < 16 ∧ ∀ ref, e.entry a.hop ≠ .listed ref
  oneRollCall : (e.scanQ.filter (fun t => t.body == .rollCall)).length ≤ 1
  host : ∀ t ∈ e.hostQ, ∃ hop body tag, t = directTxn hop body tag
  others : ∀ t ∈ e.commitQ ++ e.catchQ ++ e.overtaking.toList.map Flight.txn, t.isStep = false ∧ ∀ n, t.req ≠ .tag n
  scanClass : ∀ t ∈ e.scanQ, t.isStep = true ∨ (∃ hop, t = clearTxn hop) ∨ t = rollTxn .scan .engine
  between : e.overtaking ≠ none ↔ ∃ f, e.flight = some f ∧ f.phase = .between
  causing : e.caused ≠ [] → e.state = .running
  causedHops : e.caused.Nodup ∧ ∀ h ∈ e.caused, h < 16

theorem LinkSound.mid {e : LinkEngine} (h : LinkSound e) (hc : e.caused = []) : EngineMid .none e :=
  { h with
    known := by rintro _ ⟨⟩
    scanning := by simpa [LinkDebt.none] using h.scanning
    fullStep := fun hs => h.fullStep (by simpa [LinkDebt.none] using hs)
    causing := fun hn => absurd hc hn
    causedHops := by rw [hc]; exact ⟨.nil, by rintro h ⟨⟩⟩ }

theorem EngineMid.sound {e : LinkEngine} (h : EngineMid .none e) : LinkSound e :=
  { h with
    scanning := by simpa [LinkDebt.none] using h.scanning
    fullStep := fun hs => h.fullStep (.inl hs) }

theorem isUp_iff {e : LinkEngine} : e.isUp = true ↔ e.state = .scanning ∨ e.state = .running := by
  simp [LinkEngine.isUp]

@[simp] theorem isStep_enumTxn (full : Bool) (hop : Nat) : (enumTxn full hop).isStep = true := rfl
@[simp] theorem isStep_txn (a : Assignment) : a.txn.isStep = true := rfl
@[simp] theorem isStep_clearTxn (hop : Nat) : (clearTxn hop).isStep = false := rfl
@[simp] theorem isStep_rollTxn (cls : TxnClass) : (rollTxn cls .engine).isStep = false := rfl
@[simp] theorem isFullScan_enumTxn (full : Bool) (hop : Nat) : (enumTxn full hop).isFullScan = full := by cases full <;> rfl
@[simp] theorem isFullScan_txn (a : Assignment) : a.txn.isFullScan = a.full := by
  cases h : a.full <;> simp [Txn.isFullScan, Assignment.txn, h]

theorem isStep_iff {t : Txn} : t.isStep = true ↔ ∃ full, t.req = .scanStep full := by
  unfold Txn.isStep; split
  · rename_i h; simp [h]
  · rename_i h; simpa using h

theorem isFullScan_iff {t : Txn} : t.isFullScan = true ↔ t.req = .scanStep true := by simp [Txn.isFullScan]

theorem isStep_of_isFullScan {t : Txn} (h : t.isFullScan = true) : t.isStep = true :=
  isStep_iff.mpr ⟨true, isFullScan_iff.mp h⟩

/-- The scan steps of a link: that in flight, then those that wait. -/
theorem stepTraffic_eq (e : LinkEngine) :
    e.stepTraffic = (e.flight.toList.map Flight.txn).filter Txn.isStep ++ e.scanQ.filter Txn.isStep := by
  simp [LinkEngine.stepTraffic]

theorem stepTraffic_idle {e : LinkEngine} (h : e.flight = none) : e.stepTraffic = e.scanQ.filter Txn.isStep := by
  simp [stepTraffic_eq, h]

theorem stepTraffic_step {e : LinkEngine} {f : Flight} (h : e.flight = some f) (hs : f.txn.isStep = true) :
    e.stepTraffic = f.txn :: e.scanQ.filter Txn.isStep := by
  simp [stepTraffic_eq, h, hs]

theorem stepTraffic_other {e : LinkEngine} {f : Flight} (h : e.flight = some f) (hs : f.txn.isStep = false) :
    e.stepTraffic = e.scanQ.filter Txn.isStep := by
  simp [stepTraffic_eq, h, hs]

/-- An engine whose hop map, assignment, scans and scan class are as they were has the same scan steps when its flight has. -/
theorem stepTraffic_congr {e e' : LinkEngine} (hq : e'.scanQ = e.scanQ)
    (hf : (e'.flight.toList.map Flight.txn).filter Txn.isStep = (e.flight.toList.map Flight.txn).filter Txn.isStep) :
    e'.stepTraffic = e.stepTraffic := by
  rw [stepTraffic_eq, stepTraffic_eq, hq, hf]

namespace EngineMid

variable {d : LinkDebt} {e : LinkEngine}

/-- A link in whose hop map, flight or scan class something stands is up. -/
theorem up_of_assigning {a : Assignment} (h : EngineMid d e) (ha : e.assigning = some a) : e.isUp = true := by
  by_contra hu
  have := (h.down (by simpa using hu)).2.2.2.2.1
  rw [ha] at this; cases this

theorem up_of_flight {f : Flight} (h : EngineMid d e) (hf : e.flight = some f) : e.isUp = true := by
  by_contra hu
  have := (h.down (by simpa using hu)).1
  rw [hf] at this; cases this

theorem up_of_listed {hop : Nat} {ref : Ref} (h : EngineMid d e) (hl : e.entry hop = .listed ref) : e.isUp = true := by
  by_contra hu
  have hd := (h.down (by simpa using hu)).2.2.2.2.2.2
  rw [LinkEngine.entry, hd, List.getD_eq_getElem?_getD, List.getElem?_replicate] at hl
  split at hl <;> cases hl

theorem up_of_known {x : LinkState} (h : EngineMid d e) (hd : d.state = some x) (hx : x = .scanning ∨ x = .running) :
    e.isUp = true := by
  rw [isUp_iff, (h.known x hd).1]; exact hx

/-- The state need not be known any more. -/
theorem forget (h : EngineMid d e) : EngineMid { d with state := none } e := { h with known := by rintro _ ⟨⟩ }

/-! ### Changes that leave the scan alone -/

theorem queueCommit (h : EngineMid d e) {ts : List Txn} (ht : ∀ t ∈ ts, t.isStep = false ∧ ∀ n, t.req ≠ .tag n) :
    EngineMid d (e.queueCommit ts) :=
  { h with
    others := fun t hm => by
      simp only [LinkEngine.queueCommit, List.mem_append] at hm
      have := h.others t
      simp only [List.mem_append] at this
      rcases hm with ((hm | hm) | hm) | hm
      · exact this (.inl (.inl hm))
      · exact ht t hm
      · exact this (.inl (.inr hm))
      · exact this (.inr hm) }

/-- A commit class of transactions that waited in it, or of the commit controller. -/
theorem setCommitQ (h : EngineMid d e) {q : List Txn} (hq : ∀ t ∈ q, t.isStep = false ∧ ∀ n, t.req ≠ .tag n) :
    EngineMid d { e with commitQ := q } :=
  { h with
    others := fun t hm => by
      simp only [List.mem_append] at hm
      have := h.others t
      simp only [List.mem_append] at this
      rcases hm with (hm | hm) | hm
      · exact hq t hm
      · exact this (.inl (.inr hm))
      · exact this (.inr hm) }

theorem of_commitQ (h : EngineMid d e) {t : Txn} (ht : t ∈ e.commitQ) : t.isStep = false ∧ ∀ n, t.req ≠ .tag n :=
  h.others t (by simp [ht])

theorem of_catchQ (h : EngineMid d e) {t : Txn} (ht : t ∈ e.catchQ) : t.isStep = false ∧ ∀ n, t.req ≠ .tag n :=
  h.others t (by simp [ht])

theorem dropCommit (h : EngineMid d e) {test : Txn → Bool} : EngineMid d (e.dropCommit test) :=
  h.setCommitQ fun _ ht => h.of_commitQ (List.mem_of_mem_filter ht)

/-- A catch-up class of transactions that waited in it, or of catch-up jobs. -/
theorem setCatchQ (h : EngineMid d e) {q : List Txn} (hq : ∀ t ∈ q, t.isStep = false ∧ ∀ n, t.req ≠ .tag n) :
    EngineMid d { e with catchQ := q } :=
  { h with
    others := fun t hm => by
      simp only [List.mem_append] at hm
      have := h.others t
      simp only [List.mem_append] at this
      rcases hm with (hm | hm) | hm
      · exact this (.inl (.inl hm))
      · exact hq t hm
      · exact this (.inr hm) }

theorem queueCatch (h : EngineMid d e) {t : Txn} (ht : t.isStep = false ∧ ∀ n, t.req ≠ .tag n) :
    EngineMid d { e with catchQ := e.catchQ ++ [t] } :=
  h.setCatchQ fun x hx => by
    rcases List.mem_append.mp hx with hx | hx
    · exact h.of_catchQ hx
    · rw [List.mem_singleton.mp hx]; exact ht

theorem filterHost (h : EngineMid d e) {test : Txn → Bool} : EngineMid d { e with hostQ := e.hostQ.filter test } :=
  { h with
    down := fun hu => by
      obtain ⟨h1, h2, h3, h4, h5⟩ := h.down hu
      exact ⟨h1, h2, h3, by simp [h4], h5⟩
    host := fun t ht => h.host t (List.mem_of_mem_filter ht) }

theorem queueHost (h : EngineMid d e) (hu : e.isUp = true) (hop : Nat) (body : Body) (tag : Tag) :
    EngineMid d { e with hostQ := e.hostQ ++ [directTxn hop body tag] } :=
  { h with
    down := fun hd => absurd (hu.symm.trans hd) (by simp)
    host := fun t ht => by
      rcases List.mem_append.mp ht with ht | ht
      · exact h.host t ht
      · rw [List.mem_singleton.mp ht]; exact ⟨_, _, _, rfl⟩ }

/-- A flight whose transaction, phase apart, is of the same standing as the one it replaces. -/
theorem setFlight (h : EngineMid d e) {f g : Flight} (hf : e.flight = some f) (hphase : g.phase = f.phase)
    (hsame : g.txn = f.txn ∨ (f.txn.isStep = false ∧ g.txn.isStep = false)) :
    EngineMid d { e with flight := some g } := by
  have hstep : LinkEngine.stepTraffic { e with flight := some g } = e.stepTraffic := by
    refine stepTraffic_congr rfl ?_
    rcases hsame with hs | ⟨h1, h2⟩
    · simp [hf, hs]
    · simp [hf, h1, h2]
  exact { h with
    known := fun x hx => by have := (h.known x hx).2; rw [hf] at this; cases this
    down := fun hu => by have := (h.down hu).1; rw [hf] at this; cases this
    steps := by rw [hstep]; exact h.steps
    fullStep := by rw [hstep]; exact h.fullStep
    oneFullStep := by rw [hstep]; exact h.oneFullStep
    noHopScan := fun hs => ⟨(h.noHopScan hs).1, fun g' hg hreq => by
      cases hg
      rcases hsame with hs' | ⟨-, h2⟩
      · rw [hs'] at hreq ⊢; exact (h.noHopScan hs).2 f hf hreq
      · exact absurd (isStep_iff.mpr ⟨_, hreq⟩) (by simp [h2])⟩
    between := by
      refine h.between.trans ⟨?_, ?_⟩
      · rintro ⟨f', hf', hp⟩; rw [hf] at hf'; cases hf'; exact ⟨g, rfl, hphase.trans hp⟩
      · rintro ⟨g', hg', hp⟩; cases hg'; exact ⟨f, hf, hphase ▸ hp⟩ }

theorem dropFlight (h : EngineMid d e) {test : Txn → Bool} (ht : ∀ t : Txn, t.isStep = true → test t = false) :
    EngineMid d (e.dropFlight test) := by
  unfold LinkEngine.dropFlight
  split
  · rename_i f hf
    split
    · rename_i htest
      refine h.setFlight (f := f) hf rfl (.inr ⟨?_, rfl⟩)
      by_contra hs
      rw [ht f.txn (by simpa using hs)] at htest; cases htest
    · exact h
  · exact h

theorem dropJobTxns (h : EngineMid d e) {ref : Ref} : EngineMid d (e.dropJobTxns ref) := by
  refine (h.setCatchQ fun t ht => h.of_catchQ (List.mem_of_mem_filter ht)).dropFlight fun t hs => ?_
  obtain ⟨full, hr⟩ := isStep_iff.mp hs
  simp [Txn.isJobOf, hr]

theorem suspendFlight (h : EngineMid d e) : EngineMid d e.suspendFlight := by
  unfold LinkEngine.suspendFlight
  split
  · rename_i f hf
    split
    · rename_i ref hr
      exact h.setFlight (f := f) hf rfl (.inr ⟨by simp [Txn.isStep, hr], rfl⟩)
    · exact h
  · exact h

/-- Timing settings, the record of the bytes sent and of the attempt that expired, and the sequence numbers are no part of it. -/
theorem setRegisters (h : EngineMid d e) {tm : Timing} {x : Option Expiry} {bs : List Byte} {sc hr : Nat} {ls : List (Option Nat)} :
    EngineMid d { e with timing := tm, expired := x, sent := bs, seqCounter := sc, lastSeq := ls, hostRun := hr } := { h with }

/-! ### Hop scans -/

/-- A hop of an assignment in progress or of an ENUM_QUERY in the traffic is busy. -/
theorem hopBusy_assigning {a : Assignment} (ha : e.assigning = some a) : e.hopBusy a.hop = true := by
  simp [LinkEngine.hopBusy, ha]

theorem hopBusy_enum {full : Bool} {hop : Nat} (h : enumTxn full hop ∈ e.stepTraffic) : e.hopBusy hop = true := by
  rw [LinkEngine.stepTraffic, List.mem_filter, List.mem_append] at h
  obtain ⟨h | h, -⟩ := h
  · cases hf : e.flight with
    | none => simp [hf] at h
    | some f =>
      have : f.txn = enumTxn full hop := by simpa [hf, eq_comm] using h
      simp [LinkEngine.hopBusy, hf, this, enumTxn]
  · have : (e.scanQ.any fun t => t.body == .enumQuery && t.dest == .directed hop) = true :=
      List.any_eq_true.mpr ⟨_, h, by simp [enumTxn]⟩
    simp [LinkEngine.hopBusy, this]

theorem cause (h : EngineMid d e) {hop : Nat} (hh : hop < 16) (hs : e.state = .running) : EngineMid d (e.cause hop) := by
  unfold LinkEngine.cause
  split
  · exact h
  · rename_i hn
    simp only [Bool.or_eq_true, not_or, List.contains_iff_mem] at hn
    exact { h with
      causing := fun _ => hs
      causedHops := by
        refine ⟨List.nodup_append.mpr ⟨h.causedHops.1, List.nodup_singleton _, ?_⟩, fun x hx => ?_⟩
        · intro a ha b hb hab
          rw [List.mem_singleton] at hb
          exact hn.2 (hb ▸ hab ▸ ha)
        · rcases List.mem_append.mp hx with hx | hx
          · exact h.causedHops.2 x hx
          · rw [List.mem_singleton.mp hx]; exact hh }

theorem cause_state (e : LinkEngine) (hop : Nat) : (e.cause hop).state = e.state := by
  unfold LinkEngine.cause; split <;> rfl

theorem causeAll (h : EngineMid d e) {hops : List Nat} (hh : ∀ i ∈ hops, i < 16) (hs : e.state = .running) :
    EngineMid d (hops.foldl LinkEngine.cause e) := by
  induction hops generalizing e with
  | nil => exact h
  | cons i is ih =>
    exact ih (h.cause (hh i (by simp)) hs) (fun j hj => hh j (by simp [hj])) ((cause_state e i).trans hs)

theorem notice (h : EngineMid d e) {test : HopEntry → Bool} : EngineMid d (e.notice test) := by
  unfold LinkEngine.notice
  split
  · rename_i hs
    exact h.causeAll (fun i hi => by simpa [Config.hopCount] using List.mem_of_mem_filter hi) hs
  · rename_i hs
    exact { h with followUp := fun _ => hs }
  · exact h

/-- Hop scans join the tail of the scan class of a RUNNING link. -/
theorem appendScans (h : EngineMid .none e) {hops : List Nat} (hs : hops ≠ [] → e.state = .running) (hlt : ∀ i ∈ hops, i < 16)
    (hnd : hops.Nodup) (hfree : ∀ i ∈ hops, e.hopBusy i = false) :
    EngineMid .none { e with scanQ := e.scanQ ++ hops.map (enumTxn false) } := by
  have hnot : ∀ {x : LinkState}, e.state = x → x ≠ .running → hops = [] := fun hx hr => by
    by_contra hne; exact hr (hx ▸ hs hne)
  have hstep : LinkEngine.stepTraffic { e with scanQ := e.scanQ ++ hops.map (enumTxn false) }
      = e.stepTraffic ++ hops.map (enumTxn false) := by
    have : (hops.map (enumTxn false)).filter Txn.isStep = hops.map (enumTxn false) :=
      List.filter_eq_self.mpr fun t ht => by obtain ⟨i, -, rfl⟩ := List.mem_map.mp ht; rfl
    rw [stepTraffic_eq, stepTraffic_eq, List.filter_append, this, List.append_assoc]
  have hfull : ∀ t ∈ hops.map (enumTxn false), t.isFullScan = false := fun t ht => by
    obtain ⟨i, -, rfl⟩ := List.mem_map.mp ht; rfl
  have hnofull : (hops.map (enumTxn false)).filter Txn.isFullScan = [] :=
    List.filter_eq_nil_iff.mpr fun t ht => by simp [hfull t ht]
  exact { h with
    down := fun hu => by
      obtain ⟨h1, h2, h3, h4⟩ := h.down hu
      have : hops = [] := by
        by_contra hne
        have hr := hs hne
        have : e.isUp = true := isUp_iff.mpr (.inr hr)
        rw [show e.isUp = false from hu] at this; cases this
      exact ⟨h1, h2, by simp [h3, this], h4⟩
    steps := by
      obtain ⟨qs, hq, hlt', hnd'⟩ := h.steps
      refine ⟨qs ++ hops.map (fun i => (false, i)), ?_, ?_, ?_⟩
      · rw [hstep, ← List.append_assoc, hq]
        simp [List.map_map, Function.comp_def]
      · intro q hq
        rcases List.mem_append.mp hq with hq | hq
        · exact hlt' q hq
        · obtain ⟨i, hi, rfl⟩ := List.mem_map.mp hq; exact hlt i hi
      · have hmap : ((hops.map (fun i => (false, i))).filter (fun q => !q.1)).map Prod.snd = hops := by
          rw [List.filter_eq_self.mpr (fun q hq => by obtain ⟨i, -, rfl⟩ := List.mem_map.mp hq; rfl), List.map_map]
          exact List.map_id _
        rw [List.filter_append, List.map_append, hmap, ← List.append_assoc]
        refine List.nodup_append.mpr ⟨hnd', hnd, ?_⟩
        intro i hi j hj hij
        subst hij
        have hb := hfree i hj
        rcases List.mem_append.mp hi with hi | hi
        · obtain ⟨a, ha, rfl⟩ := List.mem_map.mp hi
          rw [hopBusy_assigning (by simpa using ha)] at hb; cases hb
        · obtain ⟨q, hqm, rfl⟩ := List.mem_map.mp hi
          have hm : enumTxn q.1 q.2 ∈ e.stepTraffic := by
            have : enumTxn q.1 q.2 ∈ LinkDebt.none.steps ++ e.stepTraffic := by
              rw [hq]; exact List.mem_append_right _ (List.mem_map.mpr ⟨q, List.mem_of_mem_filter hqm, rfl⟩)
            simpa [LinkDebt.none] using this
          rw [hopBusy_enum hm] at hb; cases hb
    fullStep := fun hsc t ht => by
      rw [hstep] at ht
      rcases List.mem_append.mp ht with ht | ht
      · cases ht
      · rcases List.mem_append.mp ht with ht | ht
        · exact h.fullStep hsc t (List.mem_append_right _ ht)
        · exact hfull t ht
    oneFullStep := fun sc hsc => by
      obtain ⟨h1, t, h2, h3⟩ := h.oneFullStep sc hsc
      exact ⟨h1, t, by rw [hstep, ← List.append_assoc, List.filter_append, h2, hnofull]; rfl, h3⟩
    noHopScan := fun hsc => by
      have := hnot (show e.state = .scanning from hsc) (by simp)
      subst this
      simpa using h.noHopScan hsc
    oneRollCall := by
      have : (hops.map (enumTxn false)).filter (fun t => t.body == .rollCall) = [] :=
        List.filter_eq_nil_iff.mpr fun t ht => by obtain ⟨i, -, rfl⟩ := List.mem_map.mp ht; simp [enumTxn]
      rw [List.filter_append, this, List.append_nil]
      exact h.oneRollCall
    scanClass := fun t ht => by
      rcases List.mem_append.mp ht with ht | ht
      · exact h.scanClass t ht
      · obtain ⟨i, -, rfl⟩ := List.mem_map.mp ht; exact .inl rfl }

theorem insertNat_perm (n : Nat) (ns : List Nat) : (insertNat n ns).Perm (n :: ns) := by
  induction ns with
  | nil => exact .refl _
  | cons x xs ih =>
    unfold insertNat
    split
    · exact .refl _
    · exact (ih.cons x).trans (.swap ..)

theorem sortNat_perm (ns : List Nat) : (sortNat ns).Perm ns := by
  induction ns with
  | nil => exact .refl _
  | cons x xs ih => exact (insertNat_perm x _).trans (ih.cons x)

theorem queueCaused (h : EngineMid .none e) : EngineMid .none e.queueCaused := by
  have hm : ∀ i ∈ e.scansCaused, i ∈ e.caused ∧ e.hopBusy i = false := fun i hi => by
    obtain ⟨h1, h2⟩ := List.mem_filter.mp hi
    exact ⟨(sortNat_perm _).mem_iff.mp h1, by simpa using h2⟩
  have := h.appendScans (hops := e.scansCaused)
    (fun hne => h.causing (by rintro hc; obtain ⟨i, hi⟩ := List.exists_mem_of_ne_nil _ hne; have := (hm i hi).1; rw [hc] at this; cases this))
    (fun i hi => h.causedHops.2 i (hm i hi).1)
    (((sortNat_perm _).nodup_iff.mpr h.causedHops.1).filter _) (fun i hi => (hm i hi).2)
  exact { this with
    causing := fun hc => absurd rfl hc
    causedHops := ⟨.nil, by rintro i ⟨⟩⟩ }

/-- A transaction that is no scan step joins the scan class of a link that is up. -/
theorem appendOther (h : EngineMid d e) (hu : e.isUp = true) {t : Txn} (ht : (∃ hop, t = clearTxn hop) ∨ t = rollTxn .scan .engine)
    (hroll : t.body = .rollCall → ∀ x ∈ e.scanQ, x.body ≠ .rollCall) : EngineMid d { e with scanQ := e.scanQ ++ [t] } := by
  have hns : t.isStep = false := by rcases ht with ⟨hop, rfl⟩ | rfl <;> rfl
  have hstep : LinkEngine.stepTraffic { e with scanQ := e.scanQ ++ [t] } = e.stepTraffic := by
    simp [stepTraffic_eq, hns]
  exact { h with
    down := fun hd => absurd (hu.symm.trans hd) (by simp)
    steps := by rw [hstep]; exact h.steps
    fullStep := by rw [hstep]; exact h.fullStep
    oneFullStep := by rw [hstep]; exact h.oneFullStep
    noHopScan := fun hs => ⟨fun x hx hreq => by
      rcases List.mem_append.mp hx with hx | hx
      · exact (h.noHopScan hs).1 x hx hreq
      · rw [List.mem_singleton.mp hx] at hreq
        exact absurd (isStep_iff.mpr ⟨_, hreq⟩) (by simp [hns]), (h.noHopScan hs).2⟩
    oneRollCall := by
      show ((e.scanQ ++ [t]).filter _).length ≤ 1
      rw [List.filter_append, List.length_append]
      by_cases hb : t.body = .rollCall
      · have : e.scanQ.filter (fun t => t.body == .rollCall) = [] :=
          List.filter_eq_nil_iff.mpr fun x hx => by simpa using hroll hb x hx
        simp [this, hb]
      · simpa [hb] using h.oneRollCall
    scanClass := fun x hx => by
      rcases List.mem_append.mp hx with hx | hx
      · exact h.scanClass x hx
      · rw [List.mem_singleton.mp hx]; exact .inr ht }

theorem forceRollCall (h : EngineMid d e) (hu : e.isUp = true) : EngineMid d e.forceRollCall := by
  unfold LinkEngine.forceRollCall
  split
  · exact h
  · rename_i hn
    exact h.appendOther hu (.inr rfl) fun _ x hx hb => hn (List.any_eq_true.mpr ⟨x, hx, by simp [hb]⟩)

theorem queueClear (h : EngineMid d e) (hu : e.isUp = true) (hop : Nat) :
    EngineMid d { e with scanQ := e.scanQ ++ [clearTxn hop] } :=
  h.appendOther hu (.inl ⟨hop, rfl⟩) fun hb => by cases hb

/-! ### The hop map -/

theorem entry_setEntry (e : LinkEngine) (hop i : Nat) (x : HopEntry) :
    (e.setEntry hop x).entry i = if i = hop ∧ i < e.hops.length then x else e.entry i := by
  simp only [LinkEngine.entry, LinkEngine.setEntry, List.getD_eq_getElem?_getD, List.getElem?_set]
  by_cases hi : hop = i
  · subst hi
    by_cases hl : hop < e.hops.length
    · simp [hl]
    · simp [hl]
  · simp [hi, Ne.symm hi]

/-- An entry that names no record. -/
theorem setEntry (h : EngineMid d e) {hop : Nat} {x : HopEntry} (hu : e.isUp = true ∨ x = .empty) (hx : ∀ ref, x ≠ .listed ref) :
    EngineMid d (e.setEntry hop x) :=
  { h with
    down := fun hd => by
      rcases hu with hu | rfl
      · exact absurd (hu.symm.trans hd) (by simp)
      · obtain ⟨h1, h2, h3, h4, h5, h6, h7⟩ := h.down hd
        refine ⟨h1, h2, h3, h4, h5, h6, ?_⟩
        show e.hops.set hop .empty = _
        rw [h7, List.set_replicate_self]
    assigned := fun a ha => by
      obtain ⟨h1, h2⟩ := h.assigned a ha
      refine ⟨h1, fun ref => ?_⟩
      rw [entry_setEntry]
      split
      · exact hx ref
      · exact h2 ref }

/-- An entry that names a record, at a hop without an assignment. -/
theorem listEntry (h : EngineMid d e) {hop : Nat} {ref : Ref} (hu : e.isUp = true) (ha : e.assigning = none) :
    EngineMid d (e.setEntry hop (.listed ref)) :=
  { h with
    down := fun hd => absurd (hu.symm.trans hd) (by simp)
    assigned := fun a h' => by rw [show e.assigning = some a from h'] at ha; cases ha }

/-- The reach of a link that is up. -/
theorem setReach (h : EngineMid d e) {n : Nat} (hu : e.isUp = true) (hn : n ≤ 16) : EngineMid d { e with reach := n } :=
  { h with
    down := fun hd => absurd (hu.symm.trans hd) (by simp)
    reach := hn }

/-! ### The roll call and the no-lock timer -/

theorem rollFalls (h : EngineMid d e) (hs : e.state = .running) : EngineMid d e.rollFalls :=
  { h with rollDue := fun _ => hs, rollMet := ⟨fun _ => rfl, fun _ => hs⟩ }

theorem rollEnds (h : EngineMid d e) {n : Nat} : EngineMid d { e with lastRollEnd := n, rollDue := false, rollMet := false } :=
  { h with rollDue := by rintro ⟨⟩, rollMet := ⟨(by rintro ⟨⟩), (by rintro ⟨⟩)⟩ }

theorem setNoLock (h : EngineMid d e) {x : Option Nat} {b : Bool} (hs : x ≠ none ∨ b = true → e.state = .training) :
    EngineMid d { e with noLockTimer := x, noLockMark := b } :=
  { h with noLock := hs }

end EngineMid

end Sys2Proof.Machine
end

section
/-! PROOFS. The wire of a link and its soundness: a transaction leaves it and another takes it, scan steps and assignments come and go,
and links are taken down. -/

namespace Sys2Proof.Machine

namespace EngineMid

variable {d : LinkDebt} {e : LinkEngine}

/-! ### Debts -/

/-- The debt of a transaction that has left the wire or its class: itself, when it is a scan step. -/
def stepDebt (t : Txn) : List Txn := if t.isStep then [t] else []

/-- The debt of a transaction, with what is known of the state of the link. -/
def debtOf (t : Txn) (x : Option LinkState) : LinkDebt := ⟨stepDebt t, stepDebt t, x, true⟩

theorem stepDebt_append (t : Txn) (ts : List Txn) : stepDebt t ++ ts.filter Txn.isStep = (t :: ts).filter Txn.isStep := by
  cases h : t.isStep <;> simp [stepDebt, h]

theorem debtOf_other {t : Txn} (ht : t.isStep = false) : debtOf t none = LinkDebt.none := by
  simp [debtOf, stepDebt, ht, LinkDebt.none]

/-- The transaction in flight has left the wire: its step is owed. -/
theorem freeWire (h : EngineMid .none e) {f : Flight} (hf : e.flight = some f) (hphase : f.phase = .onWire) :
    EngineMid (debtOf f.txn (some e.state)) { e with flight := none } := by
  have hstep : stepDebt f.txn ++ LinkEngine.stepTraffic { e with flight := none } = e.stepTraffic := by
    rw [stepTraffic_idle rfl, stepDebt_append, LinkEngine.stepTraffic, hf]; rfl
  have hover : e.overtaking = none := by
    by_contra ho
    obtain ⟨g, hg, hp⟩ := h.between.mp ho
    rw [hf] at hg; cases hg; rw [hphase] at hp; cases hp
  exact { h with
    known := fun x hx => ⟨Option.some.inj hx, rfl⟩
    down := fun hu => ⟨rfl, (h.down hu).2⟩
    steps := by
      obtain ⟨qs, hq, hrest⟩ := h.steps
      exact ⟨qs, by show stepDebt f.txn ++ _ = _; rw [hstep]; exact hq, hrest⟩
    fullStep := by
      intro hs t ht
      exact h.fullStep hs t (by rw [show LinkDebt.none.full ++ e.stepTraffic = e.stepTraffic from rfl, ← hstep]; exact ht)
    oneFullStep := by
      intro sc hsc
      have := h.oneFullStep sc hsc
      rw [show LinkDebt.none.full ++ e.stepTraffic = e.stepTraffic from rfl, ← hstep] at this
      exact this
    noHopScan := fun hs => ⟨(h.noHopScan hs).1, by rintro g ⟨⟩⟩
    between := by
      refine ⟨fun ho => absurd hover ho, ?_⟩
      rintro ⟨g, ⟨⟩, -⟩ }

/-- A step whose matching is over, and that has no assignment, is owed no more. -/
theorem payStep {t : Txn} {fs : List Txn} {x : Option LinkState} {b : Bool} (h : EngineMid ⟨[t], fs, x, b⟩ e)
    (ha : e.assigning = none) : EngineMid ⟨[], fs, x, b⟩ e :=
  { h with
    steps := by
      obtain ⟨qs, hq, hlt, hnd⟩ := h.steps
      rw [ha] at hq hnd ⊢
      match qs, hq with
      | q :: qs, hq =>
        refine ⟨qs, ?_, fun q' hq' => hlt q' (List.mem_cons_of_mem _ hq'), ?_⟩
        · simpa using (List.cons.inj hq).2
        · refine List.Nodup.sublist ?_ hnd
          simp only [Option.toList_none, List.map_nil, List.nil_append]
          exact ((List.sublist_cons_self q qs).filter _).map _ }

/-- A step of a hop scan is followed by none. -/
theorem payFull {t : Txn} {ss : List Txn} {x : Option LinkState} {b : Bool} (h : EngineMid ⟨ss, [t], x, b⟩ e)
    (ht : t.isFullScan = false) : EngineMid ⟨ss, [], x, b⟩ e :=
  { h with
    fullStep := fun hs y hy => h.fullStep hs y (List.mem_cons_of_mem _ hy)
    oneFullStep := fun sc hsc => by
      obtain ⟨h1, y, h2, h3⟩ := h.oneFullStep sc hsc
      exact ⟨h1, y, by simpa [ht] using h2, h3⟩ }

/-! ### The next transaction -/

/-- A transaction taken out of the commit class. -/
theorem popCommit (h : EngineMid .none e) {t : Txn} {q : List Txn} (hq : e.commitQ = t :: q) :
    (t.isStep = false ∧ ∀ n, t.req ≠ .tag n) ∧ EngineMid .none { e with commitQ := q } :=
  ⟨h.of_commitQ (by simp [hq]), h.setCommitQ fun _ hx => h.of_commitQ (by simp [hq, hx])⟩

theorem popCatch (h : EngineMid .none e) {t : Txn} {q : List Txn} {n : Nat} (hq : e.catchQ = t :: q) :
    t.isStep = false ∧ EngineMid .none { e with catchQ := q, hostRun := n } :=
  ⟨(h.of_catchQ (by simp [hq])).1,
    (h.setCatchQ (q := q) fun _ hx => h.of_catchQ (by simp [hq, hx])).setRegisters (hr := n)⟩

theorem popHost (h : EngineMid .none e) {t : Txn} {q : List Txn} {n : Nat} (hq : e.hostQ = t :: q) :
    t.isStep = false ∧ EngineMid .none { e with hostQ := q, hostRun := n } := by
  refine ⟨?_, ?_⟩
  · obtain ⟨hop, body, tag, rfl⟩ := h.host t (by simp [hq]); rfl
  · exact { h with
      down := fun hu => by have := (h.down hu).2.2.2.1; rw [hq] at this; cases this
      host := fun x hx => h.host x (by simp [hq, hx]) }

/-- A transaction taken out of the scan class: its step is owed. -/
theorem takeScan (h : EngineMid .none e) {t : Txn} {q : List Txn} (hu : e.isUp = true) (hf : e.flight = none)
    (hsub : q.Sublist e.scanQ) (hq : stepDebt t ++ q.filter Txn.isStep = e.scanQ.filter Txn.isStep) :
    EngineMid (debtOf t none) { e with scanQ := q } := by
  have hstep : stepDebt t ++ LinkEngine.stepTraffic { e with scanQ := q } = e.stepTraffic := by
    have h1 : LinkEngine.stepTraffic { e with scanQ := q } = q.filter Txn.isStep := stepTraffic_idle hf
    rw [h1, stepTraffic_idle hf, hq]
  have hnone : LinkDebt.none.full ++ e.stepTraffic = e.stepTraffic := rfl
  exact { h with
    known := by rintro _ ⟨⟩
    down := fun hd => absurd (hu.symm.trans hd) (by simp)
    steps := by
      obtain ⟨qs, hqs, hrest⟩ := h.steps
      exact ⟨qs, by show stepDebt t ++ _ = _; rw [hstep]; exact hqs, hrest⟩
    fullStep := fun hs x hx => h.fullStep hs x (by rw [hnone, ← hstep]; exact hx)
    oneFullStep := fun sc hsc => by
      have := h.oneFullStep sc hsc
      rw [hnone, ← hstep] at this
      exact this
    noHopScan := fun hs => ⟨fun x hx => (h.noHopScan hs).1 x (hsub.subset hx), (h.noHopScan hs).2⟩
    oneRollCall := ((hsub.filter _).length_le).trans h.oneRollCall
    scanClass := fun x hx => h.scanClass x (hsub.subset hx) }

theorem filter_eraseP_tail {α : Type} {p : α → Bool} {xs : List α} {t : α} {ts : List α} (h : xs.filter p = t :: ts) :
    (xs.eraseP p).filter p = ts := by
  induction xs with
  | nil => cases h
  | cons x xs ih =>
    cases hx : p x with
    | true =>
      rw [List.filter_cons_of_pos hx] at h
      rw [List.eraseP_cons_of_pos hx]
      exact (List.cons.inj h).2
    | false =>
      rw [List.filter_cons_of_neg (by simp [hx])] at h
      rw [List.eraseP_cons_of_neg (by simp [hx]), List.filter_cons_of_neg (by simp [hx])]
      exact ih h

/-- The scan steps that wait on a SCANNING link are those of its full scan. -/
theorem isStep_eq_isFullScan (h : EngineMid .none e) (hs : e.state = .scanning) {t : Txn} (ht : t ∈ e.scanQ) :
    t.isStep = t.isFullScan := by
  cases hst : t.isStep with
  | false =>
    cases hf : t.isFullScan with
    | false => rfl
    | true => rw [isStep_of_isFullScan hf] at hst; cases hst
  | true =>
    obtain ⟨full, hr⟩ := isStep_iff.mp hst
    cases full with
    | true => exact (isFullScan_iff.mpr hr).symm
    | false => exact absurd hr ((h.noHopScan hs).1 t ht)

/-- The full scan's transaction of a SCANNING link. -/
theorem popFull (h : EngineMid .none e) {t : Txn} (hs : e.state = .scanning) (hf : e.flight = none)
    (ht : e.scanQ.find? Txn.isFullScan = some t) : EngineMid (debtOf t none) { e with scanQ := e.scanQ.eraseP Txn.isFullScan } := by
  have hsub : (e.scanQ.eraseP Txn.isFullScan).Sublist e.scanQ := List.eraseP_sublist
  have hall : e.scanQ.filter Txn.isStep = e.scanQ.filter Txn.isFullScan :=
    List.filter_congr fun _ hx => h.isStep_eq_isFullScan hs hx
  obtain ⟨sc, hsc⟩ := Option.isSome_iff_exists.mp (h.scanning.mpr ⟨hs, rfl⟩)
  have hfil : e.scanQ.filter Txn.isFullScan = [t] := by
    obtain ⟨-, y, hy, -⟩ := h.oneFullStep sc hsc
    rw [show LinkDebt.none.full ++ e.stepTraffic = e.stepTraffic from rfl, stepTraffic_idle hf, hall, List.filter_filter] at hy
    simp only [Bool.and_self] at hy
    have hhead := List.head?_filter (p := Txn.isFullScan) (l := e.scanQ)
    rw [ht, hy] at hhead
    rw [hy]; exact congrArg (fun x => [x]) (Option.some.inj hhead)
  refine h.takeScan (isUp_iff.mpr (.inl hs)) hf hsub ?_
  rw [List.filter_congr fun _ hx => h.isStep_eq_isFullScan hs (hsub.subset hx), filter_eraseP_tail hfil, hall, hfil]
  simp [stepDebt, isStep_of_isFullScan (List.find?_some ht)]

/-- What the arbiter may take from an engine: the transaction's step is owed, and a SCANNING link gives only its full scan. -/
theorem choose (h : EngineMid .none e) {idle : Bool} {e' : LinkEngine} {t : Txn} (hf : e.flight = none)
    (hc : Machine.choose idle e = some (t, e')) :
    EngineMid (debtOf t none) e' ∧ e'.flight = none ∧ e'.overtaking = e.overtaking ∧ e'.isUp = true
      ∧ (e'.state = .scanning → t.isFullScan = true) := by
  have other : ∀ {t' : Txn} {q : LinkEngine}, t'.isStep = false → EngineMid .none q → EngineMid (debtOf t' none) q :=
    fun ht hq => debtOf_other ht ▸ hq
  have hr : ∀ {x : LinkState}, x = .running → ∀ {p : Prop}, x = .scanning → p := fun h1 _ h2 => by rw [h1] at h2; cases h2
  unfold Machine.choose at hc
  split at hc
  · rename_i hs
    have hup : e.isUp = true := isUp_iff.mpr (.inr hs)
    split at hc
    · rename_i _ _ hq
      cases hc
      obtain ⟨h1, h2⟩ := h.popCommit hq
      exact ⟨other h1.1 h2, hf, rfl, hup, hr hs⟩
    · split at hc
      · rename_i _ _ hq
        cases hc
        refine ⟨h.takeScan hup hf ?_ ?_, hf, rfl, hup, hr hs⟩
        · rw [hq]; exact List.sublist_cons_self ..
        · rw [hq, stepDebt_append]
      · unfold chooseLow at hc
        split at hc
        · rename_i _ _ _ _ hh hcq
          split at hc
          · split at hc
            · cases hc
              obtain ⟨h1, h2⟩ := h.popCatch (n := 0) hcq
              exact ⟨other h1 h2, hf, rfl, hup, hr hs⟩
            · cases hc
              obtain ⟨h1, h2⟩ := h.popHost (n := e.hostRun + 1) hh
              exact ⟨other h1 h2, hf, rfl, hup, hr hs⟩
          · cases hc
            obtain ⟨h1, h2⟩ := h.popHost (n := 0) hh
            exact ⟨other h1 h2, hf, rfl, hup, hr hs⟩
        · rename_i _ _ hh _
          cases hc
          obtain ⟨h1, h2⟩ := h.popHost (n := 0) hh
          exact ⟨other h1 h2, hf, rfl, hup, hr hs⟩
        · rename_i _ _ _ hcq
          split at hc
          · cases hc
            obtain ⟨h1, h2⟩ := h.popCatch (n := 0) hcq
            exact ⟨other h1 h2, hf, rfl, hup, hr hs⟩
          · split at hc
            · cases hc; exact ⟨other rfl h, hf, rfl, hup, hr hs⟩
            · cases hc
        · split at hc
          · cases hc; exact ⟨other rfl h, hf, rfl, hup, hr hs⟩
          · cases hc
  · rename_i hs
    split at hc
    · rename_i _ ht
      cases hc
      exact ⟨h.popFull hs hf ht, hf, rfl, isUp_iff.mpr (.inl hs), fun _ => List.find?_some ht⟩
    · cases hc
  · cases hc

/-- The start of a transaction pays its debt. -/
theorem start {t : Txn} (h : EngineMid (debtOf t none) e) (hf : e.flight = none) (ho : e.overtaking = none) (hu : e.isUp = true)
    (hs : e.state = .scanning → t.isFullScan = true) (hroll : t.isFullScan = true → t.body ≠ .rollCall) (now : Nat) :
    EngineMid .none { e.started now (e.newFlight now t) with flight := some (e.newFlight now t) } := by
  have hstep : LinkEngine.stepTraffic { e.started now (e.newFlight now t) with flight := some (e.newFlight now t) }
      = stepDebt t ++ e.stepTraffic := by
    have h1 : LinkEngine.stepTraffic { e.started now (e.newFlight now t) with flight := some (e.newFlight now t) }
        = (t :: e.scanQ).filter Txn.isStep := rfl
    rw [h1, stepTraffic_idle hf, stepDebt_append]
  have hrunning : t.body = .rollCall → e.state = .running := fun hb => by
    rcases isUp_iff.mp hu with h' | h'
    · exact absurd hb (hroll (hs h'))
    · exact h'
  have hdue : (e.started now (e.newFlight now t)).rollDue = true → e.rollDue = true := fun hd => by
    simp only [LinkEngine.started] at hd
    split at hd
    · cases hd
    · exact hd
  exact { h with
    known := by rintro _ ⟨⟩
    down := fun hd => absurd (hu.symm.trans hd) (by simp)
    rollDue := fun hd => h.rollDue (hdue hd)
    rollMet := by
      refine ⟨fun hd => ?_, fun hm => ?_⟩
      · simp [LinkEngine.started, h.rollMet.1 (hdue hd)]
      · simp only [LinkEngine.started, Bool.or_eq_true, Bool.and_eq_true, beq_iff_eq] at hm
        rcases hm with hm | hm
        · exact h.rollMet.2 hm
        · exact hrunning hm.1
    steps := by rw [hstep]; exact h.steps
    fullStep := by rw [hstep]; exact h.fullStep
    oneFullStep := by rw [hstep]; exact h.oneFullStep
    noHopScan := fun hsc => ⟨(h.noHopScan hsc).1, fun f hfl hreq => by
      cases hfl
      have := isFullScan_iff.mp (hs hsc)
      rw [show (e.newFlight now t).txn = t from rfl, this] at hreq
      cases hreq⟩
    between := by
      refine ⟨fun h' => absurd ho h', ?_⟩
      rintro ⟨f, hfl, hp⟩; cases hfl; cases hp }

/-! ### Attempts and broadcasts -/

theorem retry (h : EngineMid d e) {f : Flight} (hf : e.flight = some f) (hp : f.phase = .onWire) (n m : Nat) (bs : List Byte) :
    EngineMid d { e with flight := some { f with attempt := n, phase := .onWire, expires := m }, sent := bs } :=
  (h.setFlight (g := { f with attempt := n, phase := .onWire, expires := m }) hf hp.symm (.inl rfl)).setRegisters (bs := bs)

/-- An interrupted transaction goes on when the broadcast has been sent. -/
theorem resume (h : EngineMid d e) {f : Flight} (hf : e.flight = some f) (n m : Nat) (bs : List Byte) :
    EngineMid d { e with overtaking := none, flight := some { f with attempt := n, phase := .onWire, expires := m }, sent := bs } := by
  have hstep : LinkEngine.stepTraffic { e with overtaking := none, flight := some { f with attempt := n, phase := .onWire, expires := m }, sent := bs }
      = e.stepTraffic := stepTraffic_congr rfl (by simp [hf])
  exact { h with
    known := fun x hx => by have := (h.known x hx).2; rw [hf] at this; cases this
    down := fun hu => by have := (h.down hu).1; rw [hf] at this; cases this
    steps := by rw [hstep]; exact h.steps
    fullStep := by rw [hstep]; exact h.fullStep
    oneFullStep := by rw [hstep]; exact h.oneFullStep
    noHopScan := fun hs => ⟨(h.noHopScan hs).1, fun g hg => by cases hg; exact (h.noHopScan hs).2 f hf⟩
    others := fun t ht => h.others t (by
      simp only [List.mem_append, Option.toList_none, List.map_nil, List.not_mem_nil, or_false] at ht ⊢
      exact .inl ht)
    between := by
      refine ⟨fun h' => absurd rfl h', ?_⟩
      rintro ⟨g, hg, hp⟩; cases hg; cases hp }

/-- A broadcast APPLY at the head of the commit class overtakes. -/
theorem overtake (h : EngineMid d e) {f : Flight} {t : Txn} {rest : List Txn} (hf : e.flight = some f) (hs : e.state = .running)
    (hq : e.commitQ = t :: rest) (now : Nat) :
    EngineMid d { e.started now (e.newFlight now t) with
      commitQ := rest, overtaking := some (e.newFlight now t), flight := some { f with phase := .between } } := by
  have hstep : LinkEngine.stepTraffic { e.started now (e.newFlight now t) with
      commitQ := rest, overtaking := some (e.newFlight now t), flight := some { f with phase := .between } } = e.stepTraffic :=
    stepTraffic_congr rfl (by simp [hf])
  exact { h with
    known := fun x hx => by have := (h.known x hx).2; rw [hf] at this; cases this
    down := fun hu => by have := (h.down hu).1; rw [hf] at this; cases this
    rollDue := fun _ => hs
    rollMet := by
      refine ⟨fun hd => ?_, fun _ => hs⟩
      have : e.rollDue = true := by
        simp only [LinkEngine.started] at hd
        split at hd
        · cases hd
        · exact hd
      simp [LinkEngine.started, h.rollMet.1 this]
    steps := by rw [hstep]; exact h.steps
    fullStep := by rw [hstep]; exact h.fullStep
    oneFullStep := by rw [hstep]; exact h.oneFullStep
    noHopScan := fun hsc => ⟨(h.noHopScan hsc).1, fun g hg => by cases hg; exact (h.noHopScan hsc).2 f hf⟩
    others := fun x hx => by
      have ht := h.of_commitQ (t := t) (by simp [hq])
      simp only [List.mem_append] at hx
      rcases hx with (hx | hx) | hx
      · exact h.of_commitQ (by simp [hq, hx])
      · exact h.of_catchQ hx
      · have : x = t := by simpa [LinkEngine.newFlight] using hx
        rw [this]; exact ht
    between := ⟨fun _ => ⟨_, rfl, rfl⟩, fun _ => by simp⟩ }

/-! ### Assignments -/

/-- The step that is owed starts an ASSIGN on its hop. -/
theorem startAssign {a : Assignment} {x : LinkState} (h : EngineMid (debtOf (enumTxn a.full a.hop) (some x)) e)
    (ha : e.assigning = none) (hx : x = if a.full then .scanning else .running)
    (hentry : ∀ ref, e.entry a.hop ≠ .listed ref) :
    EngineMid .none { e with assigning := some a, scanQ := a.txn :: e.scanQ } := by
  have hstate : e.state = if a.full then .scanning else .running := hx ▸ (h.known x rfl).1
  have hf : e.flight = none := (h.known x rfl).2
  have hdebt : stepDebt (enumTxn a.full a.hop) = [enumTxn a.full a.hop] := by simp [stepDebt]
  have hold : e.stepTraffic = e.scanQ.filter Txn.isStep := stepTraffic_idle hf
  have hstep : LinkEngine.stepTraffic { e with assigning := some a, scanQ := a.txn :: e.scanQ } = a.txn :: e.stepTraffic := by
    have h1 : LinkEngine.stepTraffic { e with assigning := some a, scanQ := a.txn :: e.scanQ }
        = (a.txn :: e.scanQ).filter Txn.isStep := stepTraffic_idle hf
    rw [h1, List.filter_cons_of_pos (isStep_txn a), hold]
  have hup : e.isUp = true := by
    rw [isUp_iff, hstate]; cases a.full <;> simp
  obtain ⟨qs, hq, hlt, hnd⟩ := h.steps
  rw [show (debtOf (enumTxn a.full a.hop) (some x)).steps = [enumTxn a.full a.hop] from hdebt, ha] at hq
  rw [ha] at hnd
  match qs, hq, hlt, hnd with
  | q :: qs, hq, hlt, hnd =>
    have hinj : q = (a.full, a.hop) := by
      have := (List.cons.inj hq).1
      cases q
      simp only [enumTxn, Txn.mk.injEq, Dest.directed.injEq, Requester.scanStep.injEq] at this
      simp [this]
    subst hinj
    have htail : e.stepTraffic = qs.map (fun q => enumTxn q.1 q.2) := (List.cons.inj hq).2
    exact { h with
      known := by rintro _ ⟨⟩
      down := fun hd => absurd (hup.symm.trans hd) (by simp)
      steps := by
        refine ⟨qs, ?_, fun q' hq' => hlt q' (List.mem_cons_of_mem _ hq'), ?_⟩
        · rw [hstep, htail]; rfl
        · cases hfull : a.full with
          | false => simpa [hfull] using hnd
          | true =>
            have hno : qs.filter (fun q => !q.1) = [] := by
              refine List.filter_eq_nil_iff.mpr fun q' hq' hq1 => ?_
              have hm : enumTxn q'.1 q'.2 ∈ e.scanQ := by
                have : enumTxn q'.1 q'.2 ∈ e.stepTraffic := by rw [htail]; exact List.mem_map.mpr ⟨q', hq', rfl⟩
                rw [hold] at this; exact List.mem_of_mem_filter this
              refine (h.noHopScan (by rw [hstate, hfull]; rfl)).1 _ hm ?_
              simpa [enumTxn] using hq1
            simp [hno]
      fullStep := fun hs t ht => by
        rw [hstep] at ht
        rcases List.mem_cons.mp ht with rfl | ht
        · have := h.fullStep hs (enumTxn a.full a.hop) (by simp [debtOf, hdebt])
          simpa using this
        · exact h.fullStep hs t (List.mem_append_right _ ht)
      oneFullStep := fun sc hsc => by
        obtain ⟨h1, t, h2, h3⟩ := h.oneFullStep sc hsc
        refine ⟨h1, ?_⟩
        rw [hstep]
        rw [show (debtOf (enumTxn a.full a.hop) (some x)).full = [enumTxn a.full a.hop] from hdebt] at h2
        cases hfull : a.full with
        | false =>
          refine ⟨t, ?_, h3⟩
          rw [hfull] at h2
          simpa [hfull, LinkDebt.none] using h2
        | true =>
          rw [hfull, List.singleton_append, List.filter_cons_of_pos (isFullScan_enumTxn true a.hop)] at h2
          have ht := (List.cons.inj h2).1
          refine ⟨a.txn, ?_, ?_⟩
          · show (a.txn :: e.stepTraffic).filter Txn.isFullScan = _
            rw [List.filter_cons_of_pos (by simp [hfull]), (List.cons.inj h2).2]
          · rw [← ht] at h3; exact h3
      noHopScan := fun hs => by
        have hfull : a.full = true := by
          cases hfull : a.full with
          | true => rfl
          | false => rw [hfull] at hstate; rw [show e.state = .scanning from hs] at hstate; cases hstate
        refine ⟨fun t ht hreq => ?_, (h.noHopScan hs).2⟩
        rcases List.mem_cons.mp ht with rfl | ht
        · simp [Assignment.txn, hfull] at hreq
        · exact (h.noHopScan hs).1 t ht hreq
      assigned := fun b hb => by
        cases hb
        exact ⟨hlt (a.full, a.hop) (by simp), hentry⟩
      oneRollCall := by
        show ((a.txn :: e.scanQ).filter _).length ≤ 1
        rw [List.filter_cons_of_neg (by simp [Assignment.txn])]
        exact h.oneRollCall
      scanClass := fun t ht => by
        rcases List.mem_cons.mp ht with rfl | ht
        · exact .inl rfl
        · exact h.scanClass t ht }

/-- An assignment whose ASSIGN has left the wire or the scan class is over. -/
theorem dropAssigning {a : Assignment} {fs : List Txn} {x : Option LinkState} {b : Bool} (h : EngineMid ⟨[a.txn], fs, x, b⟩ e)
    (ha : e.assigning = some a) : EngineMid ⟨[], fs, x, b⟩ { e with assigning := none } :=
  { h with
    down := fun hu => by have := (h.down hu).2.2.2.2.1; rw [ha] at this; cases this
    steps := by
      obtain ⟨qs, hq, hlt, hnd⟩ := h.steps
      rw [ha] at hq hnd
      refine ⟨qs, ?_, hlt, ?_⟩
      · exact (List.cons.inj hq).2
      · simp only [Option.toList_some, List.map_cons, List.map_nil, List.singleton_append, List.nodup_cons] at hnd
        simpa using hnd.2
    assigned := by rintro b ⟨⟩ }

/-- A queued ASSIGN of handle 0 goes when its hop has an assignment. -/
theorem filterClear (h : EngineMid d e) (hop : Nat) :
    EngineMid d { e with scanQ := e.scanQ.filter (fun t => t != clearTxn hop) } := by
  have hsub : (e.scanQ.filter (fun t => t != clearTxn hop)).Sublist e.scanQ := List.filter_sublist
  have hstep : LinkEngine.stepTraffic { e with scanQ := e.scanQ.filter (fun t => t != clearTxn hop) } = e.stepTraffic := by
    rw [stepTraffic_eq, stepTraffic_eq]
    congr 1
    show (e.scanQ.filter (fun t => t != clearTxn hop)).filter Txn.isStep = _
    rw [List.filter_filter]
    apply List.filter_congr
    intro t _
    cases hs : t.isStep with
    | false => rfl
    | true =>
      have : t ≠ clearTxn hop := by rintro rfl; cases hs
      simp [this]
  exact { h with
    down := fun hu => by
      obtain ⟨h1, h2, h3, h4⟩ := h.down hu
      exact ⟨h1, h2, by simp [h3], h4⟩
    steps := by rw [hstep]; exact h.steps
    fullStep := by rw [hstep]; exact h.fullStep
    oneFullStep := by rw [hstep]; exact h.oneFullStep
    noHopScan := fun hs => ⟨fun x hx => (h.noHopScan hs).1 x (hsub.subset hx), (h.noHopScan hs).2⟩
    oneRollCall := ((hsub.filter _).length_le).trans h.oneRollCall
    scanClass := fun x hx => h.scanClass x (hsub.subset hx) }

/-! ### The full scan -/

theorem countScan (h : EngineMid d e) {f : FullScan → FullScan} (hf : ∀ sc, (f sc).hop = sc.hop) :
    EngineMid d { e with scan := e.scan.map f } :=
  { h with
    scanning := by simpa using h.scanning
    oneFullStep := fun sc hsc => by
      obtain ⟨sc', hs, rfl⟩ := Option.map_eq_some_iff.mp hsc
      rw [hf]; exact h.oneFullStep sc' hs }

/-- The full step owed leaves no other in the traffic. -/
theorem noFull_of_owed {t : Txn} {ss : List Txn} {x : Option LinkState} {b : Bool} (h : EngineMid ⟨ss, [t], x, b⟩ e)
    (ht : t.isFullScan = true) {sc : FullScan} (hsc : e.scan = some sc) : e.stepTraffic.filter Txn.isFullScan = [] := by
  obtain ⟨-, y, h2, -⟩ := h.oneFullStep sc hsc
  rw [List.singleton_append, List.filter_cons_of_pos ht] at h2
  exact (List.cons.inj h2).2

theorem stepTraffic_append_enum (e : LinkEngine) (full : Bool) (hop : Nat) :
    LinkEngine.stepTraffic { e with scanQ := e.scanQ ++ [enumTxn full hop] } = e.stepTraffic ++ [enumTxn full hop] := by
  rw [stepTraffic_eq, stepTraffic_eq, List.filter_append, List.append_assoc]
  rfl

/-- The ENUM_QUERY of the full scan at a hop joins the scan class of a SCANNING link whose traffic has no full step. -/
theorem queueFull {t : List Txn} {x : Option LinkState} {b : Bool} (h : EngineMid ⟨[], t, x, b⟩ e) (hs : e.state = .scanning)
    (hno : e.stepTraffic.filter Txn.isFullScan = []) {sc : FullScan} (hlt : sc.hop < 16) :
    EngineMid .none { e with scan := some sc, scanQ := e.scanQ ++ [enumTxn true sc.hop] } := by
  have hstep : LinkEngine.stepTraffic { e with scan := some sc, scanQ := e.scanQ ++ [enumTxn true sc.hop] }
      = e.stepTraffic ++ [enumTxn true sc.hop] := stepTraffic_append_enum e true sc.hop
  have hup : e.isUp = true := isUp_iff.mpr (.inl hs)
  exact { h with
    known := by rintro _ ⟨⟩
    down := fun hd => absurd (hup.symm.trans hd) (by simp)
    scanning := ⟨fun _ => ⟨hs, rfl⟩, fun _ => rfl⟩
    steps := by
      obtain ⟨qs, hq, hlt', hnd⟩ := h.steps
      refine ⟨qs ++ [(true, sc.hop)], ?_, ?_, ?_⟩
      · rw [hstep]
        rw [List.nil_append] at hq
        rw [show LinkDebt.none.steps = [] from rfl, List.nil_append, hq]
        simp
      · intro q hq
        rcases List.mem_append.mp hq with hq | hq
        · exact hlt' q hq
        · rw [List.mem_singleton.mp hq]; exact hlt
      · simpa using hnd
    fullStep := fun h' => by
      rcases h' with h' | h'
      · exact absurd hs h'
      · cases h'
    oneFullStep := fun sc' hsc => by
      cases hsc
      refine ⟨hlt, enumTxn true sc.hop, ?_, rfl⟩
      rw [hstep, show LinkDebt.none.full = [] from rfl, List.nil_append, List.filter_append, hno]
      rfl
    noHopScan := fun _ => by
      refine ⟨fun t ht hreq => ?_, (h.noHopScan hs).2⟩
      rcases List.mem_append.mp ht with ht | ht
      · exact (h.noHopScan hs).1 t ht hreq
      · rw [List.mem_singleton.mp ht] at hreq; cases hreq
    oneRollCall := by
      show ((e.scanQ ++ [enumTxn true sc.hop]).filter _).length ≤ 1
      rw [List.filter_append, show [enumTxn true sc.hop].filter (fun t => t.body == .rollCall) = [] from rfl, List.append_nil]
      exact h.oneRollCall
    scanClass := fun t ht => by
      rcases List.mem_append.mp ht with ht | ht
      · exact h.scanClass t ht
      · rw [List.mem_singleton.mp ht]; exact .inl rfl }

/-- The scan moves to the next hop. -/
theorem nextStep {t : Txn} {x : Option LinkState} (h : EngineMid ⟨[], [t], x, true⟩ e) (ht : t.isFullScan = true) {sc : FullScan}
    (hsc : e.scan = some sc) (hlt : sc.hop + 1 < 16) :
    EngineMid .none { e with scan := some { sc with hop := sc.hop + 1 }, scanQ := e.scanQ ++ [enumTxn true (sc.hop + 1)] } :=
  h.queueFull (sc := { sc with hop := sc.hop + 1 }) (h.scanning.mp (by rw [hsc]; rfl)).1 (h.noFull_of_owed ht hsc) hlt

theorem hopsBelow_getD (hops : List HopEntry) (r i : Nat) :
    (hopsBelow hops r).getD i .empty = if i < r then hops.getD i .empty else .empty := by
  simp only [hopsBelow, List.getD_eq_getElem?_getD, List.getElem?_append, List.length_take, List.getElem?_take,
    List.getElem?_replicate]
  by_cases hi : i < r
  · by_cases hl : i < hops.length
    · simp [hi, hl]
    · have : hops[i]? = none := List.getElem?_eq_none (by omega)
      rw [if_neg (by omega), if_pos hi, this]
      split <;> rfl
  · rw [if_neg (by omega), if_neg hi]
    split <;> rfl

/-- The full scan ends. -/
theorem endScan {t : Txn} {x : Option LinkState} {r n : Nat} (h : EngineMid ⟨[], [t], x, true⟩ e) (ht : t.isFullScan = true)
    {sc : FullScan} (hsc : e.scan = some sc) (hr : r ≤ 16) :
    EngineMid .none { e with
      reach := r, hops := hopsBelow e.hops r, state := .running, lastRollEnd := n, rollMet := false, scan := none,
      followUp := false } := by
  have hs : e.state = .scanning := (h.scanning.mp (by rw [hsc]; rfl)).1
  have hdue : e.rollDue ≠ true := fun hd => by have := h.rollDue hd; rw [hs] at this; cases this
  have hmet : e.rollMet ≠ true := fun hd => by have := h.rollMet.2 hd; rw [hs] at this; cases this
  exact { h with
    known := by rintro _ ⟨⟩
    down := by rintro ⟨⟩
    reach := hr
    scanning := ⟨(by rintro ⟨⟩), (by rintro ⟨⟨⟩, -⟩)⟩
    followUp := by rintro ⟨⟩
    rollDue := fun hd => absurd hd hdue
    rollMet := ⟨fun hd => absurd hd hdue, by rintro ⟨⟩⟩
    noLock := fun hn => by have := h.noLock hn; rw [hs] at this; cases this
    steps := h.steps
    fullStep := fun _ y hy => by
      cases hfy : y.isFullScan with
      | false => rfl
      | true =>
        have : y ∈ e.stepTraffic.filter Txn.isFullScan := List.mem_filter.mpr ⟨hy, hfy⟩
        rw [h.noFull_of_owed ht hsc] at this; cases this
    oneFullStep := by rintro sc' ⟨⟩
    noHopScan := by rintro ⟨⟩
    assigned := fun a ha => by
      obtain ⟨h1, h2⟩ := h.assigned a ha
      refine ⟨h1, fun ref => ?_⟩
      show (hopsBelow e.hops r).getD a.hop .empty ≠ _
      rw [hopsBelow_getD]
      split
      · exact h2 ref
      · simp
    causing := fun _ => rfl }

/-! ### Links taken down, and rescans -/

theorem takenDown (e : LinkEngine) {target : LinkState} {now : Nat} (ht : target = .training ∨ target = .disabled) :
    EngineMid .none (e.down target now) where
  known := by rintro _ ⟨⟩
  down _ := ⟨rfl, rfl, rfl, rfl, rfl, rfl, rfl⟩
  reach := Nat.zero_le _
  scanning := ⟨(by rintro ⟨⟩), by rcases ht with rfl | rfl <;> rintro ⟨⟨⟩, -⟩⟩
  followUp := by rintro ⟨⟩
  rollDue := by rintro ⟨⟩
  rollMet := ⟨(by rintro ⟨⟩), (by rintro ⟨⟩)⟩
  noLock hn := by
    rcases ht with rfl | rfl
    · rfl
    · simp [LinkEngine.down] at hn
  steps := ⟨[], rfl, by rintro q ⟨⟩, .nil⟩
  fullStep := by rintro - t ⟨⟩
  oneFullStep := by rintro sc ⟨⟩
  noHopScan := by rintro -; exact ⟨by rintro t ⟨⟩, by rintro f ⟨⟩⟩
  assigned := by rintro a ⟨⟩
  oneRollCall := Nat.zero_le _
  host := by rintro t ⟨⟩
  others := by rintro t ⟨⟩
  scanClass := by rintro t ⟨⟩
  between := ⟨fun hn => absurd rfl hn, by rintro ⟨f, ⟨⟩, -⟩⟩
  causing hn := absurd rfl hn
  causedHops := ⟨.nil, by rintro i ⟨⟩⟩

/-- A RUNNING link goes to SCANNING with an empty scan class and a flight that is no ENUM_QUERY of a hop scan. -/
theorem rescanned (h : EngineMid .none e) (hs : e.state = .running) (hcaused : e.caused = []) {fl : Option Flight} {ss : List Txn}
    (hphase : (∃ f, fl = some f ∧ f.phase = .between) ↔ ∃ f, e.flight = some f ∧ f.phase = .between)
    (hsteps : ss ++ (fl.toList.map Flight.txn).filter Txn.isStep = e.assigning.toList.map Assignment.txn)
    (henum : ∀ f, fl = some f → f.txn.req = .scanStep false → f.txn.body ≠ .enumQuery) :
    EngineMid ⟨ss, [], none, false⟩ { e with state := .scanning, rollDue := false, rollMet := false, scanQ := [], flight := fl } := by
  have hscan : e.scan = none := by
    cases hsc : e.scan with
    | none => rfl
    | some sc => have := (h.scanning.mp (by rw [hsc]; rfl)).1; rw [hs] at this; cases this
  have hstep : LinkEngine.stepTraffic { e with state := .scanning, rollDue := false, rollMet := false, scanQ := [], flight := fl }
      = (fl.toList.map Flight.txn).filter Txn.isStep := by simp [stepTraffic_eq]
  have hold : ∀ t ∈ e.stepTraffic, t.isFullScan = false := h.fullStep (.inl (by rw [hs]; simp))
  obtain ⟨qs, hq, -, hnd⟩ := h.steps
  have hfull : ∀ t ∈ (fl.toList.map Flight.txn).filter Txn.isStep, t.isFullScan = false := fun t ht => by
    refine hold t ?_
    rw [show e.stepTraffic = LinkDebt.none.steps ++ e.stepTraffic from rfl, hq, ← hsteps]
    simp [ht]
  exact { h with
    known := by rintro _ ⟨⟩
    down := by rintro ⟨⟩
    scanning := by rw [hscan]; exact ⟨(by rintro ⟨⟩), (by rintro ⟨-, ⟨⟩⟩)⟩
    followUp := fun _ => rfl
    rollDue := by rintro ⟨⟩
    rollMet := ⟨(by rintro ⟨⟩), (by rintro ⟨⟩)⟩
    noLock := fun hn => by have := h.noLock hn; rw [hs] at this; cases this
    steps := by
      refine ⟨[], by rw [hstep]; simpa using hsteps, by rintro q ⟨⟩, ?_⟩
      simpa using hnd.sublist (List.sublist_append_left _ _)
    fullStep := fun _ t ht => by rw [hstep] at ht; exact hfull t ht
    oneFullStep := fun sc hsc => by rw [show e.scan = some sc from hsc] at hscan; cases hscan
    noHopScan := fun _ => ⟨by rintro t ⟨⟩, henum⟩
    oneRollCall := Nat.zero_le _
    scanClass := by rintro t ⟨⟩
    between := h.between.trans hphase.symm
    causing := fun hc => absurd hcaused hc }

theorem assignWaits_iff {a : Assignment} : e.assignWaits a = true ↔ ∃ t ∈ e.scanQ, t.req = .scanStep false ∧ t.body = .assign a.ref := by
  simp [LinkEngine.assignWaits]

/-- The scan steps of a RUNNING link: the ASSIGN of its assignment, if there is one, and ENUM_QUERYs of hop scans. -/
theorem running_steps (h : EngineMid .none e) (hs : e.state = .running) :
    ∃ hops : List Nat, e.stepTraffic = e.assigning.toList.map Assignment.txn ++ hops.map (enumTxn false)
      ∧ ∀ a, e.assigning = some a → a.full = false := by
  have hold : ∀ t ∈ e.stepTraffic, t.isFullScan = false := h.fullStep (.inl (by rw [hs]; simp))
  obtain ⟨qs, hq, -, -⟩ := h.steps
  rw [show LinkDebt.none.steps ++ e.stepTraffic = e.stepTraffic from rfl] at hq
  refine ⟨qs.map Prod.snd, ?_, fun a ha => ?_⟩
  · rw [hq, List.map_map]
    congr 1
    apply List.map_congr_left
    intro q hqm
    have := hold (enumTxn q.1 q.2) (by rw [hq]; exact List.mem_append_right _ (List.mem_map.mpr ⟨q, hqm, rfl⟩))
    rw [isFullScan_enumTxn] at this
    simp [this]
  · have := hold a.txn (by rw [hq, ha]; simp)
    rwa [isFullScan_txn] at this

/-- A RESCAN empties the scan class (R138): an ASSIGN that waited there is owed, and one on the wire runs on. -/
theorem enterRescan (h : EngineMid .none e) (hs : e.state = .running) (hcaused : e.caused = []) :
    EngineMid ⟨if e.assigning.any e.assignWaits then e.assigning.toList.map Assignment.txn else [], [], none, false⟩ e.enterRescan := by
  obtain ⟨hops, hq, hfull⟩ := h.running_steps hs
  have hmem : ∀ t ∈ e.scanQ, t.isStep = true → t ∈ e.stepTraffic := fun t ht hst => by
    rw [stepTraffic_eq]; exact List.mem_append_right _ (List.mem_filter.mpr ⟨ht, hst⟩)
  have hwaits : ∀ a, e.assigning = some a → (e.assignWaits a = true ↔ a.txn ∈ e.scanQ) := fun a ha => by
    rw [assignWaits_iff]
    constructor
    · rintro ⟨t, ht, hr, hb⟩
      have := hmem t ht (isStep_iff.mpr ⟨_, hr⟩)
      rw [hq, ha] at this
      rcases List.mem_append.mp this with hm | hm
      · rw [show t = a.txn by simpa using hm] at ht; exact ht
      · obtain ⟨i, -, rfl⟩ := List.mem_map.mp hm; cases hb
    · exact fun hm => ⟨_, hm, by simp [Assignment.txn, hfull a ha], rfl⟩
  unfold LinkEngine.enterRescan LinkEngine.dropFlight
  cases hf : e.flight with
  | none =>
    refine h.rescanned hs hcaused (fl := none) (by rw [hf]) ?_ (by rintro f ⟨⟩)
    cases ha : e.assigning with
    | none => rfl
    | some a =>
      have hm : a.txn ∈ e.scanQ := by
        have : a.txn ∈ e.stepTraffic := by rw [hq, ha]; simp
        rw [stepTraffic_idle hf] at this; exact List.mem_of_mem_filter this
      simp [(hwaits a ha).mpr hm]
  | some f =>
    dsimp only
    have hcases : f.txn.isStep = true → e.assigning.toList.map Assignment.txn ++ hops.map (enumTxn false)
        = f.txn :: e.scanQ.filter Txn.isStep := fun hst => by rw [← hq, stepTraffic_step hf hst]
    have hnostep : f.txn.isStep = false → ∀ a, e.assigning = some a → e.assignWaits a = true := fun hst a ha => by
      rw [hwaits a ha]
      have : a.txn ∈ e.stepTraffic := by rw [hq, ha]; simp
      rw [stepTraffic_other hf hst] at this
      exact List.mem_of_mem_filter this
    by_cases htest : (f.txn.req == .scanStep false && f.txn.body == .enumQuery) = true
    · rw [if_pos htest]
      simp only [Bool.and_eq_true, beq_iff_eq] at htest
      have hst : f.txn.isStep = true := isStep_iff.mpr ⟨_, htest.1⟩
      have ha : e.assigning = none := by
        cases ha : e.assigning with
        | none => rfl
        | some a =>
          have := (List.cons.inj (ha ▸ hcases hst)).1
          rw [← this] at htest; cases htest.2
      refine h.rescanned hs hcaused ?_ (by rw [ha]; rfl) (by rintro g hg hreq; cases hg; cases hreq)
      rw [hf]
      exact ⟨fun ⟨g, hg, hp⟩ => ⟨f, rfl, by cases hg; exact hp⟩, fun ⟨g, hg, hp⟩ => ⟨_, rfl, by cases hg; exact hp⟩⟩
    · rw [if_neg htest]
      simp only [Bool.and_eq_true, beq_iff_eq, not_and] at htest
      refine h.rescanned hs hcaused (fl := some f) (by rw [hf]) ?_ (by rintro g hg; cases hg; exact htest)
      cases hst : f.txn.isStep with
      | false =>
        cases ha : e.assigning with
        | none => simp [hst]
        | some a => simp [hst, hnostep hst a ha]
      | true =>
        cases ha : e.assigning with
        | none =>
          rw [ha] at hcases
          have := hcases hst
          cases hops with
          | nil => cases this
          | cons i is =>
            have := (List.cons.inj this).1
            exact absurd (congrArg Txn.body this.symm) (htest (congrArg Txn.req this.symm))
        | some a =>
          rw [ha] at hcases
          have hfa : a.txn = f.txn := (List.cons.inj (hcases hst)).1
          have hnot : a.txn ∉ e.scanQ := fun hm => by
            have htail : hops.map (enumTxn false) = e.scanQ.filter Txn.isStep := (List.cons.inj (hcases hst)).2
            have : a.txn ∈ e.scanQ.filter Txn.isStep := List.mem_filter.mpr ⟨hm, rfl⟩
            rw [← htail] at this
            obtain ⟨i, -, hi⟩ := List.mem_map.mp this
            cases congrArg Txn.body hi
          have hw : e.assignWaits a = false := by
            by_contra hc
            exact hnot ((hwaits a ha).mp (by simpa using hc))
          simp [hst, hw, hfa]

/-- The full scan of a SCANNING link begins. -/
theorem beginScan {x : Option LinkState} (h : EngineMid ⟨[], [], x, false⟩ e) (hs : e.state = .scanning) {sc : FullScan}
    (hsc : sc.hop = 0) : EngineMid .none { e with state := .scanning, scan := some sc, scanQ := e.scanQ ++ [enumTxn true 0] } := by
  have hno : e.stepTraffic.filter Txn.isFullScan = [] :=
    List.filter_eq_nil_iff.mpr fun t ht => by simp [h.fullStep (.inr rfl) t ht]
  have := h.queueFull hs hno (sc := sc) (by omega)
  rw [hsc] at this
  rw [show ({ e with state := .scanning, scan := some sc, scanQ := e.scanQ ++ [enumTxn true 0] } : LinkEngine)
    = { e with scan := some sc, scanQ := e.scanQ ++ [enumTxn true 0] } by rw [← hs]]
  exact this

/-- A TRAINING link that has locked is SCANNING, its full scan still to begin. -/
theorem locked (h : EngineMid .none e) (hs : e.state = .training) :
    EngineMid ⟨[], [], none, false⟩ { e with state := .scanning, noLockTimer := none, noLockMark := false } := by
  have hup : e.isUp = false := by simp [LinkEngine.isUp, hs]
  obtain ⟨h1, h2, h3, h4, h5, h6, h7⟩ := h.down hup
  have hscan : e.scan = none := by
    cases hsc : e.scan with
    | none => rfl
    | some sc => have := (h.scanning.mp (by rw [hsc]; rfl)).1; rw [hs] at this; cases this
  have hno : ∀ {p : Prop}, e.state = .running → p := fun hr => by rw [hs] at hr; cases hr
  exact { h with
    known := by rintro _ ⟨⟩
    down := by rintro ⟨⟩
    scanning := by rw [hscan]; exact ⟨(by rintro ⟨⟩), (by rintro ⟨-, ⟨⟩⟩)⟩
    followUp := fun _ => rfl
    rollDue := fun hd => hno (h.rollDue hd)
    rollMet := ⟨h.rollMet.1, fun hd => hno (h.rollMet.2 hd)⟩
    noLock := by rintro (hn | hn)
                 · exact absurd rfl hn
                 · cases hn
    steps := h.steps
    fullStep := fun _ t ht => h.fullStep (.inl (by rw [hs]; simp)) t ht
    oneFullStep := fun sc hsc => h.oneFullStep sc hsc
    noHopScan := fun _ => by
      show (∀ t ∈ e.scanQ, _) ∧ ∀ f, e.flight = some f → _
      rw [h3, h1]
      exact ⟨by rintro t ⟨⟩, by rintro f ⟨⟩⟩
    causing := fun hc => hno (h.causing hc) }

end EngineMid

end Sys2Proof.Machine
end

section
/-! PROOFS. What each change of the Tile Directory and of the hop maps does to the soundness of the directory within an event
(`DirMid`), when handles, entries and records are on their way from one place to another. -/

namespace Sys2Proof.Machine

/-! ### The directory within an event -/

/-- What an event still owes the directory: handles that stand nowhere, reachable records whose entry is gone, and entries whose record
is gone. -/
structure DirDebt where
  loose : List Nat
  missing : List Nat
  ghosts : List (Loc × Ref)

/-- Nothing is owed. -/
def DirDebt.none : DirDebt := ⟨[], [], []⟩

/-- The hop map and the assignment of each link. -/
abbrev Charts := LinkId → List HopEntry × Option Assignment

/-- The hop maps and assignments of the hub. -/
def chartsOf (s : State) : Charts := fun l => ((s.links.get l).hops, (s.links.get l).assigning)

/-- The entry of a hop. -/
def Charts.entry (c : Charts) (loc : Loc) : HopEntry := (c loc.link).1.getD loc.hop .empty

/-- The marks of the assignments in progress. -/
def Charts.marks (c : Charts) : List Mark := fours.filterMap (fun l => (c l).2.map (Assignment.mark l))

/-- The handles that marks hold for new tiles. -/
def heldBy (ms : List Mark) : List Nat := (ms.filter (fun m => m.kind == .assigningNew)).map (fun m => m.ref.handle)

/-- The current generation of a handle. -/
def Directory.gen (d : Directory) (h : Nat) : Nat := d.gens.getD (h - 1) 0

/-- What holds of the directory within an event: what holds of it between events (DirectorySound), but for what is owed. -/
structure DirMid (p : DirDebt) (d : Directory) (c : Charts) : Prop where
  order : d.records.Pairwise (fun a b => a.ref.handle < b.ref.handle)
  ids : d.records.Pairwise (fun a b => a.uid ≠ b.uid)
  handles : (d.freeList ++ heldBy d.marks ++ p.loose ++ d.records.map (fun r => r.ref.handle)).Perm (List.range' 1 80)
  recordGens : ∀ r ∈ d.records, r.ref.gen = d.gen r.ref.handle
  markGens : ∀ m ∈ d.marks, m.kind = .assigningNew → m.ref.gen = d.gen m.ref.handle
  stale : d.staleList.Perm ((d.records.filter (fun r => r.state == .stale)).map (fun r => r.ref.handle))
  staleInfo : ∀ r ∈ d.records, r.stale ≠ none ↔ r.state = .stale
  marks : d.marks.Perm c.marks
  markIds : d.marks.Pairwise (fun a b => a.uid ≠ b.uid)
  newIds : ∀ m ∈ d.marks, m.kind = .assigningNew → ∀ r ∈ d.records, r.uid ≠ m.uid
  rebindIds : ∀ m ∈ d.marks, m.kind = .assigningRebind → ∀ r ∈ d.records, r.uid = m.uid → r.ref = m.ref ∧ r.state = .stale
  listed : ∀ loc ref, c.entry loc = .listed ref →
    (loc, ref) ∈ p.ghosts ∨ ∃ r ∈ d.records, r.ref = ref ∧ r.state ≠ .stale ∧ r.loc = loc
  reached : ∀ r ∈ d.records, r.state ≠ .stale → r.ref.handle ∈ p.missing ∨ c.entry r.loc = .listed r.ref
  locations : ∀ r ∈ d.records, r.loc.hop < 16
  lengths : ∀ l, (c l).1.length = 16

theorem DirectorySound.mid {s : State} (h : DirectorySound s) (hl : ∀ l, (s.links.get l).hops.length = 16) :
    DirMid .none s.dir (chartsOf s) where
  order := h.order
  ids := h.ids
  handles := by rw [show DirDebt.none.loose = [] from rfl, List.append_nil]; exact h.handles
  recordGens := h.gens.1
  markGens := h.gens.2
  stale := h.stale
  staleInfo := h.staleInfo
  marks := h.marks
  markIds := h.markIds
  newIds := h.newIds
  rebindIds := h.rebindIds
  listed loc ref he := .inr ((h.hops loc.link loc.hop ref).mp he)
  reached r hr hs := .inr ((h.hops r.loc.link r.loc.hop r.ref).mpr ⟨r, hr, rfl, hs, rfl⟩)
  locations := h.locations
  lengths := hl

theorem DirMid.sound {s : State} (h : DirMid .none s.dir (chartsOf s)) : DirectorySound s where
  order := h.order
  ids := h.ids
  handles := by have := h.handles; rwa [show DirDebt.none.loose = [] from rfl, List.append_nil] at this
  gens := ⟨h.recordGens, h.markGens⟩
  stale := h.stale
  staleInfo := h.staleInfo
  marks := h.marks
  markIds := h.markIds
  newIds := h.newIds
  rebindIds := h.rebindIds
  hops l hop ref := by
    constructor
    · intro he
      rcases h.listed ⟨l, hop⟩ ref he with hg | hr
      · cases hg
      · exact hr
    · rintro ⟨r, hr, rfl, hs, hl⟩
      rcases h.reached r hr hs with hm | hm
      · cases hm
      · rw [hl] at hm; exact hm
  locations := h.locations

namespace DirMid

variable {p : DirDebt} {d : Directory} {c : Charts}

/-! ### What the clauses give together -/

theorem nodup (h : DirMid p d c) : (d.freeList ++ heldBy d.marks ++ p.loose ++ d.records.map (fun r => r.ref.handle)).Nodup :=
  h.handles.nodup_iff.mpr List.nodup_range'

theorem eq_of_handle (h : DirMid p d c) {r x : Record} (hr : r ∈ d.records) (hx : x ∈ d.records)
    (he : r.ref.handle = x.ref.handle) : r = x := by
  exact List.inj_on_of_nodup_map (List.nodup_append.mp h.nodup).2.1 hr hx he

theorem mem_stale (h : DirMid p d c) {n : Nat} :
    n ∈ d.staleList ↔ ∃ r ∈ d.records, r.state = .stale ∧ r.ref.handle = n := by
  rw [h.stale.mem_iff]
  simp [and_assoc]

theorem stale_nodup (h : DirMid p d c) : d.staleList.Nodup :=
  h.stale.nodup_iff.mpr ((List.nodup_append.mp h.nodup).2.1.sublist (List.filter_sublist.map _))

theorem handle_range (h : DirMid p d c) {n : Nat}
    (hn : n ∈ d.freeList ++ heldBy d.marks ++ p.loose ++ d.records.map (fun r => r.ref.handle)) : 1 ≤ n ∧ n ≤ 80 := by
  have := h.handles.mem_iff.mp hn
  rw [List.mem_range'_1] at this
  omega

theorem record_range (h : DirMid p d c) {r : Record} (hr : r ∈ d.records) : 1 ≤ r.ref.handle ∧ r.ref.handle ≤ 80 :=
  h.handle_range (List.mem_append_right _ (List.mem_map.mpr ⟨r, hr, rfl⟩))

theorem mem_held {m : Mark} (hm : m ∈ d.marks) (hk : m.kind = .assigningNew) : m.ref.handle ∈ heldBy d.marks :=
  List.mem_map.mpr ⟨m, List.mem_filter.mpr ⟨hm, by simp [hk]⟩, rfl⟩

theorem held_range (h : DirMid p d c) {m : Mark} (hm : m ∈ d.marks) (hk : m.kind = .assigningNew) :
    1 ≤ m.ref.handle ∧ m.ref.handle ≤ 80 :=
  h.handle_range (by simp [mem_held hm hk])

theorem held_ne_record (h : DirMid p d c) {m : Mark} (hm : m ∈ d.marks) (hk : m.kind = .assigningNew) {r : Record}
    (hr : r ∈ d.records) : m.ref.handle ≠ r.ref.handle := by
  have := h.nodup
  rw [List.nodup_append] at this
  exact this.2.2 _ (by simp [mem_held hm hk]) _ (List.mem_map.mpr ⟨r, hr, rfl⟩)

/-! ### Records -/

/-- A change of records that keeps their references, IDs, places, and whether and since when they are STALE. -/
def KeepsPlace (f : Record → Record) : Prop :=
  ∀ r, (f r).ref = r.ref ∧ (f r).uid = r.uid ∧ (f r).loc = r.loc ∧ (f r).stale = r.stale ∧ ((f r).state = .stale ↔ r.state = .stale)

theorem mapRecords (h : DirMid p d c) {f : Record → Record} (hf : KeepsPlace f) : DirMid p { d with records := d.records.map f } c := by
  have href : ∀ r, (f r).ref = r.ref := fun r => (hf r).1
  have hmem : ∀ {P : Record → Prop}, (∀ r ∈ d.records, P (f r)) → ∀ r ∈ d.records.map f, P r := fun hp r hr => by
    obtain ⟨x, hx, rfl⟩ := List.mem_map.mp hr; exact hp x hx
  exact { h with
    order := List.pairwise_map.mpr (h.order.imp fun {a b} hab => by rw [href, href]; exact hab)
    ids := List.pairwise_map.mpr (h.ids.imp fun {a b} hab => by rw [(hf a).2.1, (hf b).2.1]; exact hab)
    handles := by simpa [List.map_map, Function.comp_def, href] using h.handles
    recordGens := hmem fun r hr => by rw [href]; exact h.recordGens r hr
    stale := by
      refine h.stale.trans (.of_eq ?_)
      rw [List.filter_map, List.map_map]
      have : ((fun r : Record => r.state == .stale) ∘ f) = fun r => r.state == .stale := by
        funext r
        rw [Function.comp, Bool.eq_iff_iff, beq_iff_eq, beq_iff_eq]
        exact (hf r).2.2.2.2
      rw [this]
      exact List.map_congr_left fun r _ => by rw [Function.comp, href]
    staleInfo := hmem fun r hr => by rw [(hf r).2.2.2.1, (hf r).2.2.2.2]; exact h.staleInfo r hr
    newIds := fun m hm hk => hmem fun r hr => by rw [(hf r).2.1]; exact h.newIds m hm hk r hr
    rebindIds := fun m hm hk => hmem fun r hr => by
      rw [(hf r).2.1, (hf r).2.2.2.2, href]; exact h.rebindIds m hm hk r hr
    listed := fun loc ref he => by
      rcases h.listed loc ref he with hg | ⟨r, hr, h1, h2, h3⟩
      · exact .inl hg
      · exact .inr ⟨f r, List.mem_map.mpr ⟨r, hr, rfl⟩, (href r).trans h1, fun hs => h2 ((hf r).2.2.2.2.mp hs), (hf r).2.2.1.trans h3⟩
    reached := hmem fun r hr hs => by
      rw [href, (hf r).2.2.1]; exact h.reached r hr fun hs' => hs ((hf r).2.2.2.2.mpr hs')
    locations := hmem fun r hr => by rw [(hf r).2.2.1]; exact h.locations r hr }

/-- The records with one handle changed. -/
def atHandle (n : Nat) (f : Record → Record) (r : Record) : Record := if r.ref.handle = n then f r else r

theorem atHandle_ref {n : Nat} {f : Record → Record} (hf : ∀ r, (f r).ref = r.ref) (r : Record) : (atHandle n f r).ref = r.ref := by
  unfold atHandle; split
  · exact hf r
  · rfl

theorem KeepsPlace.atHandle {n : Nat} {f : Record → Record} (hf : KeepsPlace f) : KeepsPlace (atHandle n f) := fun r => by
  unfold DirMid.atHandle; split
  · exact hf r
  · simp

/-- The directory's part of a claim to STALE: the record's entry is a ghost until it is emptied. -/
theorem claim (h : DirMid p d c) {r : Record} (hr : r ∈ d.records) (hs : r.state ≠ .stale) (i : StaleInfo) :
    DirMid { p with missing := p.missing.filter (· != r.ref.handle), ghosts := (r.loc, r.ref) :: p.ghosts }
      { d with
        records := d.records.map (atHandle r.ref.handle fun x => { x with state := .stale, stale := some i })
        staleList := d.staleList ++ [r.ref.handle] } c := by
  have href : ∀ x, (atHandle r.ref.handle (fun x => { x with state := .stale, stale := some i }) x).ref = x.ref :=
    atHandle_ref fun _ => rfl
  have huid : ∀ x, (atHandle r.ref.handle (fun x => { x with state := .stale, stale := some i }) x).uid = x.uid := fun x => by
    unfold atHandle; split <;> rfl
  have hloc : ∀ x, (atHandle r.ref.handle (fun x => { x with state := .stale, stale := some i }) x).loc = x.loc := fun x => by
    unfold atHandle; split <;> rfl
  have hstale : ∀ x, (atHandle r.ref.handle (fun x => { x with state := .stale, stale := some i }) x).state = .stale
      ↔ x.ref.handle = r.ref.handle ∨ x.state = .stale := fun x => by
    unfold atHandle; split
    · rename_i hx; simp [hx]
    · rename_i hx; simp [hx]
  have hmem : ∀ {P : Record → Prop}, (∀ x ∈ d.records, P (atHandle r.ref.handle (fun x => { x with state := .stale, stale := some i }) x)) →
      ∀ x ∈ d.records.map (atHandle r.ref.handle fun x => { x with state := .stale, stale := some i }), P x := fun hp x hx => by
    obtain ⟨y, hy, rfl⟩ := List.mem_map.mp hx; exact hp y hy
  exact { h with
    order := List.pairwise_map.mpr (h.order.imp fun {a b} hab => by rw [href, href]; exact hab)
    ids := List.pairwise_map.mpr (h.ids.imp fun {a b} hab => by rw [huid, huid]; exact hab)
    handles := by simpa [List.map_map, Function.comp_def, href] using h.handles
    recordGens := hmem fun x hx => by rw [href]; exact h.recordGens x hx
    stale := by
      have hnd : (d.records.map fun x => x.ref.handle).Nodup := (List.nodup_append.mp h.nodup).2.1
      have hmap : ((d.records.map (atHandle r.ref.handle fun x => { x with state := .stale, stale := some i })).filter
          fun x => x.state == .stale).map (fun x => x.ref.handle)
          = (d.records.filter fun x => decide (x.ref.handle = r.ref.handle ∨ x.state = .stale)).map fun x => x.ref.handle := by
        rw [List.filter_map, List.map_map]
        congr 1
        · funext x; rw [Function.comp, href]
        · apply List.filter_congr
          intro x _
          rw [Function.comp, Bool.eq_iff_iff, beq_iff_eq, decide_eq_true_iff]
          exact hstale x
      rw [hmap]
      refine (List.perm_ext_iff_of_nodup (List.nodup_append.mpr ⟨h.stale_nodup, List.nodup_singleton _, ?_⟩)
        (hnd.sublist (List.filter_sublist.map _))).mpr fun n => ?_
      · intro a ha b hb hab
        obtain ⟨x, hx, hxs, rfl⟩ := h.mem_stale.mp ha
        rw [List.mem_singleton] at hb
        have := h.eq_of_handle hx hr (hab.trans hb)
        exact hs (this ▸ hxs)
      · simp only [List.mem_append, h.mem_stale, List.mem_singleton, List.mem_map, List.mem_filter, decide_eq_true_iff]
        constructor
        · rintro (⟨x, hx, hxs, rfl⟩ | rfl)
          · exact ⟨x, ⟨hx, .inr hxs⟩, rfl⟩
          · exact ⟨r, ⟨hr, .inl rfl⟩, rfl⟩
        · rintro ⟨x, ⟨hx, hxs | hxs⟩, rfl⟩
          · exact .inr hxs
          · exact .inl ⟨x, hx, hxs, rfl⟩
    staleInfo := hmem fun x hx => by
      rw [hstale]
      unfold atHandle; split
      · rename_i he; simp [he]
      · rename_i he; simpa [he] using h.staleInfo x hx
    newIds := fun m hm hk => hmem fun x hx => by rw [huid]; exact h.newIds m hm hk x hx
    rebindIds := fun m hm hk => hmem fun x hx hu => by
      rw [huid] at hu
      rw [href, hstale]
      obtain ⟨h1, h2⟩ := h.rebindIds m hm hk x hx hu
      exact ⟨h1, .inr h2⟩
    listed := fun loc ref he => by
      rcases h.listed loc ref he with hg | ⟨x, hx, h1, h2, h3⟩
      · exact .inl (List.mem_cons_of_mem _ hg)
      · by_cases hxr : x.ref.handle = r.ref.handle
        · have := h.eq_of_handle hx hr hxr
          subst this
          exact .inl (by simp [h1, h3])
        · refine .inr ⟨_, List.mem_map.mpr ⟨x, hx, rfl⟩, (href x).trans h1, ?_, (hloc x).trans h3⟩
          rw [ne_eq, hstale]; simp [hxr, h2]
    reached := hmem fun x hx hxs => by
      rw [ne_eq, hstale, not_or] at hxs
      rw [href, hloc]
      refine (h.reached x hx hxs.2).imp (fun hm => ?_) id
      simp [hm, hxs.1]
    locations := hmem fun x hx => by rw [hloc]; exact h.locations x hx }

/-! ### Entries -/

/-- A hop of no reachable record takes an entry that names none. -/
theorem clearEntry (h : DirMid p d c) {c' : Charts} {loc : Loc}
    (hvac : ∀ r ∈ d.records, r.loc = loc → r.state ≠ .stale → r.ref.handle ∈ p.missing)
    (hother : ∀ x, x ≠ loc → c'.entry x = c.entry x) (hloc : ∀ ref, c'.entry loc ≠ .listed ref)
    (hass : ∀ l, (c' l).2 = (c l).2) (hlen : ∀ l, (c' l).1.length = 16) :
    DirMid { p with ghosts := p.ghosts.filter (fun g => g.1 != loc) } d c' :=
  { h with
    marks := by
      rw [show c'.marks = c.marks by simp only [Charts.marks, hass]]; exact h.marks
    listed := fun x ref he => by
      have hx : x ≠ loc := by rintro rfl; exact hloc ref he
      rw [hother x hx] at he
      exact (h.listed x ref he).imp (fun hg => by simp [hg, hx]) id
    reached := fun r hr hs => by
      by_cases hl : r.loc = loc
      · exact .inl (hvac r hr hl hs)
      · rw [hother _ hl]; exact h.reached r hr hs
    lengths := hlen }

/-- Ghosts that are none can be forgotten. -/
theorem noGhosts (h : DirMid p d c) {gs : List (Loc × Ref)}
    (hg : ∀ g ∈ p.ghosts, c.entry g.1 = .listed g.2 → g ∈ gs) : DirMid { p with ghosts := gs } d c :=
  { h with listed := fun loc ref he => (h.listed loc ref he).imp (fun hm => hg _ hm he) id }

/-- Missing records that are none can be forgotten. -/
theorem noMissing (h : DirMid p d c) {ns : List Nat}
    (hm : ∀ n ∈ p.missing, ∀ r ∈ d.records, r.state ≠ .stale → r.ref.handle = n → n ∈ ns) : DirMid { p with missing := ns } d c :=
  { h with reached := fun r hr hs => (h.reached r hr hs).imp (fun hx => hm _ hx r hr hs rfl) id }

/-- More ghosts. -/
theorem moreGhosts (h : DirMid p d c) {gs : List (Loc × Ref)} (hg : ∀ g ∈ p.ghosts, g ∈ gs) : DirMid { p with ghosts := gs } d c :=
  h.noGhosts fun g hm _ => hg g hm

/-! ### Handles and marks -/

/-- A handle at the head of the free-handle list is taken. -/
theorem takeFree (h : DirMid p d c) {n : Nat} {rest : List Nat} (hf : d.freeList = n :: rest) :
    DirMid { p with loose := n :: p.loose } { d with freeList := rest } c :=
  { h with
    handles := by
      refine .trans ?_ h.handles
      rw [hf]
      refine List.perm_iff_count.mpr fun x => ?_
      simp only [List.count_append, List.count_cons]
      omega }

/-- A handle that stands nowhere returns to the head of the free-handle list. -/
theorem returnHandle (h : DirMid p d c) {n : Nat} {ns : List Nat} (hp : p.loose = n :: ns) :
    DirMid { p with loose := ns } { d with freeList := n :: d.freeList } c :=
  { h with
    handles := by
      refine .trans ?_ h.handles
      rw [hp]
      refine List.perm_iff_count.mpr fun x => ?_
      simp only [List.count_append, List.count_cons]
      omega }

theorem filterMap_update_perm {α β : Type} {ls : List α} {l : α} {g g' : α → Option β} {b : β} (hnd : ls.Nodup) (hl : l ∈ ls)
    (hg : ∀ i, i ≠ l → g' i = g i) (h0 : g l = none) (h1 : g' l = some b) : (ls.filterMap g').Perm (b :: ls.filterMap g) := by
  induction ls with
  | nil => cases hl
  | cons x xs ih =>
    obtain ⟨hx, hxs⟩ := List.nodup_cons.mp hnd
    by_cases he : x = l
    · subst he
      have : xs.filterMap g' = xs.filterMap g := List.filterMap_congr fun i hi => hg i fun hil => hx (hil ▸ hi)
      rw [List.filterMap_cons_some h1, List.filterMap_cons_none h0, this]
    · have hl' : l ∈ xs := (List.mem_cons.mp hl).resolve_left (Ne.symm he)
      cases hgx : g x with
      | none =>
        rw [List.filterMap_cons_none ((hg x he).trans hgx), List.filterMap_cons_none hgx]
        exact ih hxs hl'
      | some y =>
        rw [List.filterMap_cons_some ((hg x he).trans hgx), List.filterMap_cons_some hgx]
        exact ((ih hxs hl').cons y).trans (.swap ..)

theorem mem_fours (l : LinkId) : l ∈ fours := by fin_cases l <;> decide

theorem fours_nodup : fours.Nodup := by decide

/-- One assignment more, one mark more. -/
theorem marks_put {c c' : Charts} {l : LinkId} {a : Assignment} (ho : ∀ i, i ≠ l → (c' i).2 = (c i).2) (h0 : (c l).2 = none)
    (h1 : (c' l).2 = some a) : c'.marks.Perm (a.mark l :: c.marks) :=
  filterMap_update_perm fours_nodup (mem_fours l) (fun i hi => by rw [ho i hi]) (by rw [h0]; rfl) (by rw [h1]; rfl)

theorem mem_marks {c : Charts} {m : Mark} : m ∈ c.marks ↔ ∃ l a, (c l).2 = some a ∧ m = a.mark l := by
  simp only [Charts.marks, List.mem_filterMap, Option.map_eq_some_iff]
  constructor
  · rintro ⟨l, -, a, ha, rfl⟩; exact ⟨l, a, ha, rfl⟩
  · rintro ⟨l, a, ha, rfl⟩; exact ⟨l, mem_fours l, a, ha, rfl⟩

/-- The mark of a link's assignment is in the index. -/
theorem mark_mem (h : DirMid p d c) {l : LinkId} {a : Assignment} (ha : (c l).2 = some a) : a.mark l ∈ d.marks :=
  h.marks.mem_iff.mpr (mem_marks.mpr ⟨l, a, ha, rfl⟩)

/-- A mark at a place of a link is that of the link's assignment. -/
theorem mark_of_link (h : DirMid p d c) {m : Mark} (hm : m ∈ d.marks) {l : LinkId} (hl : m.loc.link = l) :
    ∃ a, (c l).2 = some a ∧ m = a.mark l := by
  obtain ⟨i, a, ha, rfl⟩ := mem_marks.mp (h.marks.mem_iff.mp hm)
  have : i = l := hl
  subst this
  exact ⟨a, ha, rfl⟩

theorem heldBy_perm {ms ns : List Mark} (h : ms.Perm ns) : (heldBy ms).Perm (heldBy ns) := (h.filter _).map _

theorem heldBy_cons (m : Mark) (ms : List Mark) :
    heldBy (m :: ms) = if m.kind = .assigningNew then m.ref.handle :: heldBy ms else heldBy ms := by
  unfold heldBy
  by_cases hk : m.kind = .assigningNew
  · rw [List.filter_cons_of_pos (by simp [hk]), if_pos hk]; rfl
  · rw [List.filter_cons_of_neg (by simp [hk]), if_neg hk]

/-- The mark of an assignment stands alone at its place. -/
theorem marks_split (h : DirMid p d c) {l : LinkId} {a : Assignment} (ha : (c l).2 = some a) :
    d.marks.Perm (a.mark l :: d.marks.filter (fun m => m.loc != ⟨l, a.hop⟩)) := by
  have hnd : d.marks.Nodup := h.markIds.imp fun {x y} hxy he => hxy (congrArg Mark.uid he)
  refine (List.perm_ext_iff_of_nodup hnd (List.nodup_cons.mpr ⟨fun hm => ?_, hnd.filter _⟩)).mpr fun m => ?_
  · have := (List.mem_filter.mp hm).2
    simp [Assignment.mark] at this
  · simp only [List.mem_cons, List.mem_filter, bne_iff_ne]
    constructor
    · intro hm
      by_cases hl : m.loc = ⟨l, a.hop⟩
      · obtain ⟨b, hb, rfl⟩ := h.mark_of_link hm (by rw [hl])
        rw [ha] at hb; cases hb
        exact .inl rfl
      · exact .inr ⟨hm, hl⟩
    · rintro (rfl | ⟨hm, -⟩)
      · exact h.mark_mem ha
      · exact hm

/-- The handle an assignment for a new tile leaves behind. -/
def looseOf (a : Assignment) : List Nat := if a.kind = .assigningNew then [a.ref.handle] else []

/-- An assignment is over: its mark goes, and the handle of a new tile stands nowhere. -/
theorem dropMark (h : DirMid p d c) {c' : Charts} {l : LinkId} {a : Assignment} (ha : (c l).2 = some a) (hnone : (c' l).2 = none)
    (hother : ∀ i, i ≠ l → (c' i).2 = (c i).2) (hhops : ∀ i, (c' i).1 = (c i).1) :
    DirMid { p with loose := looseOf a ++ p.loose } { d with marks := d.marks.filter (fun m => m.loc != ⟨l, a.hop⟩) } c' := by
  have hsplit := h.marks_split ha
  have hsub : (d.marks.filter (fun m => m.loc != ⟨l, a.hop⟩)).Sublist d.marks := List.filter_sublist
  have hent : ∀ x, c'.entry x = c.entry x := fun x => by unfold Charts.entry; rw [hhops]
  exact { h with
    handles := by
      refine .trans ?_ h.handles
      have hk := heldBy_perm hsplit
      rw [heldBy_cons] at hk
      refine List.perm_iff_count.mpr fun x => ?_
      have := hk.count_eq x
      simp only [List.count_append, looseOf, Assignment.mark] at this ⊢
      by_cases hkind : a.kind = .assigningNew
      · simp only [hkind, if_true, List.count_cons, List.count_nil] at this ⊢; omega
      · simp only [hkind, if_false, List.count_nil] at this ⊢; omega
    markGens := fun m hm => h.markGens m (hsub.subset hm)
    marks := by
      have h1 := marks_put (c := c') (c' := c) (fun i hi => (hother i hi).symm) hnone ha
      exact (List.perm_cons _).mp ((hsplit.symm.trans h.marks).trans h1)
    markIds := h.markIds.sublist hsub
    newIds := fun m hm => h.newIds m (hsub.subset hm)
    rebindIds := fun m hm => h.rebindIds m (hsub.subset hm)
    listed := fun x ref he => h.listed x ref (hent x ▸ he)
    reached := fun r hr hs => by rw [hent]; exact h.reached r hr hs
    lengths := fun i => by rw [hhops]; exact h.lengths i }

/-- An assignment begins: for a new tile with a handle that stands nowhere, of an ID that no mark has and no record but, for a
re-bind, the STALE one assigned. -/
theorem addMark (h : DirMid p d c) {c' : Charts} {l : LinkId} {a : Assignment} {ns : List Nat} (hnone : (c l).2 = none)
    (ha : (c' l).2 = some a) (hother : ∀ i, i ≠ l → (c' i).2 = (c i).2) (hhops : ∀ i, (c' i).1 = (c i).1)
    (hloose : p.loose = looseOf a ++ ns) (hgen : a.kind = .assigningNew → a.ref.gen = d.gen a.ref.handle)
    (hmarks : ∀ m ∈ d.marks, m.uid ≠ a.info.uid) (hnew : a.kind = .assigningNew → ∀ r ∈ d.records, r.uid ≠ a.info.uid)
    (hre : a.kind = .assigningRebind → ∀ r ∈ d.records, r.uid = a.info.uid → r.ref = a.ref ∧ r.state = .stale) :
    DirMid { p with loose := ns } { d with marks := d.marks ++ [a.mark l] } c' := by
  have hent : ∀ x, c'.entry x = c.entry x := fun x => by unfold Charts.entry; rw [hhops]
  have hmem : ∀ {P : Mark → Prop}, (∀ m ∈ d.marks, P m) → P (a.mark l) → ∀ m ∈ d.marks ++ [a.mark l], P m := fun h1 h2 m hm => by
    rcases List.mem_append.mp hm with hm | hm
    · exact h1 m hm
    · rw [List.mem_singleton.mp hm]; exact h2
  exact { h with
    handles := by
      refine .trans ?_ h.handles
      have hk := heldBy_perm (List.perm_append_singleton (a.mark l) d.marks)
      rw [heldBy_cons] at hk
      refine List.perm_iff_count.mpr fun x => ?_
      have := hk.count_eq x
      rw [hloose]
      simp only [List.count_append, looseOf, Assignment.mark] at this ⊢
      by_cases hkind : a.kind = .assigningNew
      · simp only [hkind, if_true, List.count_cons, List.count_nil] at this ⊢; omega
      · simp only [hkind, if_false, List.count_nil] at this ⊢; omega
    markGens := hmem h.markGens hgen
    marks := ((List.perm_append_singleton _ _).trans (h.marks.cons _)).trans (marks_put hother hnone ha).symm
    markIds := List.pairwise_append.mpr ⟨h.markIds, List.pairwise_singleton _ _, fun m hm x hx => by
      rw [List.mem_singleton.mp hx]; exact hmarks m hm⟩
    newIds := hmem h.newIds hnew
    rebindIds := hmem h.rebindIds hre
    listed := fun x ref he => h.listed x ref (hent x ▸ he)
    reached := fun r hr hs => by rw [hent]; exact h.reached r hr hs
    lengths := fun i => by rw [hhops]; exact h.lengths i }

/-! ### Records that go and come -/

/-- The record of a handle leaves the directory: a reachable one leaves its entry behind. -/
theorem retireRecord (h : DirMid p d c) {r : Record} (hr : r ∈ d.records) {gs : List (Loc × Ref)}
    (hgs : gs = if r.state = .stale then p.ghosts else (r.loc, r.ref) :: p.ghosts) (g : Nat) :
    DirMid { p with ghosts := gs }
      { d with
        gens := d.gens.set (r.ref.handle - 1) g
        records := d.records.filter (fun x => x.ref.handle != r.ref.handle)
        freeList := d.freeList ++ [r.ref.handle]
        staleList := d.staleList.filter (fun x => x != r.ref.handle) } c := by
  have hsub : (d.records.filter (fun x => x.ref.handle != r.ref.handle)).Sublist d.records := List.filter_sublist
  have hmem : ∀ {P : Record → Prop}, (∀ x ∈ d.records, x.ref.handle ≠ r.ref.handle → P x) →
      ∀ x ∈ d.records.filter (fun x => x.ref.handle != r.ref.handle), P x := fun hp x hx => by
    obtain ⟨h1, h2⟩ := List.mem_filter.mp hx; exact hp x h1 (by simpa using h2)
  have hgen : ∀ n, 1 ≤ n → n ≠ r.ref.handle → (d.gens.set (r.ref.handle - 1) g).getD (n - 1) 0 = d.gen n := fun n hn hne => by
    have := (h.record_range hr).1
    rw [Directory.gen, List.getD_eq_getElem?_getD, List.getD_eq_getElem?_getD, List.getElem?_set_ne (by omega)]
  have hnd : (d.records.map fun x => x.ref.handle).Nodup := (List.nodup_append.mp h.nodup).2.1
  have hperm : (d.records.map fun x => x.ref.handle).Perm
      (r.ref.handle :: (d.records.filter (fun x => x.ref.handle != r.ref.handle)).map fun x => x.ref.handle) := by
    refine (List.perm_ext_iff_of_nodup hnd (List.nodup_cons.mpr ⟨fun hm => ?_, hnd.sublist (hsub.map _)⟩)).mpr fun n => ?_
    · obtain ⟨x, hx, he⟩ := List.mem_map.mp hm
      have := (List.mem_filter.mp hx).2
      simp [he] at this
    · simp only [List.mem_map, List.mem_cons, List.mem_filter, bne_iff_ne]
      constructor
      · rintro ⟨x, hx, rfl⟩
        by_cases he : x.ref.handle = r.ref.handle
        · exact .inl he
        · exact .inr ⟨x, ⟨hx, he⟩, rfl⟩
      · rintro (rfl | ⟨x, ⟨hx, -⟩, rfl⟩)
        · exact ⟨r, hr, rfl⟩
        · exact ⟨x, hx, rfl⟩
  exact { h with
    order := h.order.sublist hsub
    ids := h.ids.sublist hsub
    handles := by
      refine .trans ?_ h.handles
      refine List.perm_iff_count.mpr fun x => ?_
      have := hperm.count_eq x
      simp only [List.count_append, List.count_cons, List.count_nil] at this ⊢
      omega
    recordGens := hmem fun x hx hne => (h.recordGens x hx).trans (hgen _ (h.record_range hx).1 hne).symm
    markGens := fun m hm hk => (h.markGens m hm hk).trans
      (hgen _ (h.held_range hm hk).1 (h.held_ne_record hm hk hr)).symm
    stale := by
      have h1 := h.stale.filter (fun x => x != r.ref.handle)
      refine h1.trans (.of_eq ?_)
      rw [List.filter_map, List.filter_filter, List.filter_filter]
      congr 1
      apply List.filter_congr
      intro x _
      simp [Bool.and_comm]
    staleInfo := hmem fun x hx _ => h.staleInfo x hx
    newIds := fun m hm hk => hmem fun x hx _ => h.newIds m hm hk x hx
    rebindIds := fun m hm hk => hmem fun x hx _ => h.rebindIds m hm hk x hx
    listed := fun loc ref he => by
      rcases h.listed loc ref he with hg | ⟨x, hx, h1, h2, h3⟩
      · exact .inl (by rw [hgs]; split <;> simp [hg])
      · by_cases hxr : x.ref.handle = r.ref.handle
        · have := h.eq_of_handle hx hr hxr
          subst this
          exact .inl (by rw [hgs, if_neg h2]; simp [h1, h3])
        · exact .inr ⟨x, List.mem_filter.mpr ⟨hx, by simpa using hxr⟩, h1, h2, h3⟩
    reached := hmem fun x hx _ => h.reached x hx
    locations := hmem fun x hx _ => h.locations x hx }

theorem insertRec_perm (r : Record) (rs : List Record) : (insertRec r rs).Perm (r :: rs) := by
  induction rs with
  | nil => exact .refl _
  | cons x xs ih =>
    unfold insertRec
    split
    · exact .refl _
    · exact (ih.cons x).trans (.swap ..)

theorem insertRec_sorted {r : Record} {rs : List Record} (h : rs.Pairwise (fun a b => a.ref.handle < b.ref.handle))
    (hne : ∀ x ∈ rs, x.ref.handle ≠ r.ref.handle) : (insertRec r rs).Pairwise (fun a b => a.ref.handle < b.ref.handle) := by
  have hle := insertRec_order r (h.imp Nat.le_of_lt)
  have hnd : ((insertRec r rs).map fun x => x.ref.handle).Nodup := by
    refine ((insertRec_perm r rs).map _).nodup_iff.mpr ?_
    rw [List.map_cons, List.nodup_cons, List.mem_map]
    exact ⟨fun ⟨x, hx, he⟩ => hne x hx he, List.pairwise_map.mpr (h.imp Nat.ne_of_lt)⟩
  exact (hle.and (List.pairwise_map.mp hnd)).imp fun ⟨h1, h2⟩ => by omega

/-- A record of a handle that stands nowhere and of an ID that no record and no mark has joins the directory, and its hop lists it. -/
theorem insert (h : DirMid p d c) {c' : Charts} {r : Record} {ns : List Nat} (hloose : p.loose = r.ref.handle :: ns)
    (hgen : r.ref.gen = d.gen r.ref.handle) (hids : ∀ x ∈ d.records, x.uid ≠ r.uid) (hmarks : ∀ m ∈ d.marks, m.uid ≠ r.uid)
    (hst : r.state ≠ .stale) (hinfo : r.stale = none) (hhop : r.loc.hop < 16)
    (hvac : ∀ ref, c.entry r.loc ≠ .listed ref) (hother : ∀ x, x ≠ r.loc → c'.entry x = c.entry x)
    (hloc : c'.entry r.loc = .listed r.ref) (hass : ∀ l, (c' l).2 = (c l).2) (hlen : ∀ l, (c' l).1.length = 16)
    (hmiss : p.missing = []) :
    DirMid { p with loose := ns } { d with records := insertRec r d.records } c' := by
  have hne : ∀ x ∈ d.records, x.ref.handle ≠ r.ref.handle := fun x hx he => by
    have := h.nodup
    rw [hloose, List.nodup_append] at this
    exact this.2.2 r.ref.handle (by simp) x.ref.handle (List.mem_map.mpr ⟨x, hx, rfl⟩) he.symm
  have hperm := insertRec_perm r d.records
  have hmem : ∀ {P : Record → Prop}, P r → (∀ x ∈ d.records, P x) → ∀ x ∈ insertRec r d.records, P x := fun h1 h2 x hx => by
    rcases List.mem_cons.mp (hperm.mem_iff.mp hx) with rfl | hx
    · exact h1
    · exact h2 x hx
  exact { h with
    order := insertRec_sorted h.order hne
    ids := by
      refine (hperm.pairwise_iff (R := fun a b : Record => a.uid ≠ b.uid) fun hab => hab.symm).mpr (List.pairwise_cons.mpr ⟨?_, h.ids⟩)
      exact fun x hx => (hids x hx).symm
    handles := by
      refine .trans ?_ h.handles
      rw [hloose]
      refine List.perm_iff_count.mpr fun x => ?_
      have := (hperm.map fun x => x.ref.handle).count_eq x
      simp only [List.count_append, List.count_cons, List.map_cons] at this ⊢
      omega
    recordGens := hmem hgen h.recordGens
    stale := by
      refine h.stale.trans (.symm ?_)
      refine ((hperm.filter _).map _).trans (.of_eq ?_)
      rw [List.filter_cons_of_neg (by simpa using hst)]
    staleInfo := hmem (by simp [hinfo, hst]) h.staleInfo
    marks := by rw [show c'.marks = c.marks by simp only [Charts.marks, hass]]; exact h.marks
    newIds := fun m hm hk => hmem (hmarks m hm).symm (h.newIds m hm hk)
    rebindIds := fun m hm hk => hmem (fun hu => absurd hu (hmarks m hm).symm) (h.rebindIds m hm hk)
    listed := fun x ref he => by
      by_cases hx : x = r.loc
      · subst hx
        rw [hloc] at he
        exact .inr ⟨r, hperm.mem_iff.mpr (by simp), by simpa using he, hst, rfl⟩
      · rw [hother x hx] at he
        exact (h.listed x ref he).imp id fun ⟨y, hy, hrest⟩ => ⟨y, hperm.mem_iff.mpr (by simp [hy]), hrest⟩
    reached := hmem (fun _ => .inr hloc) fun x hx hs => by
      rcases h.reached x hx hs with hm | hm
      · rw [hmiss] at hm; cases hm
      · have hx' : x.loc ≠ r.loc := fun he => hvac _ (he ▸ hm)
        exact .inr (by rw [hother _ hx']; exact hm)
    locations := hmem hhop h.locations
    lengths := hlen }

/-- The STALE record of a handle is reachable again, at a hop that lists it now. -/
theorem rebound (h : DirMid p d c) {c' : Charts} {r : Record} {f : Record → Record} {loc : Loc} (hr : r ∈ d.records)
    (hrs : r.state = .stale) (hf : ∀ x, (f x).ref = x.ref ∧ (f x).uid = x.uid ∧ (f x).loc = loc ∧ (f x).stale = none ∧ (f x).state ≠ .stale)
    (hmarks : ∀ m ∈ d.marks, m.uid ≠ r.uid) (hhop : loc.hop < 16)
    (hvac : ∀ ref, c.entry loc ≠ .listed ref) (hother : ∀ x, x ≠ loc → c'.entry x = c.entry x)
    (hloc : c'.entry loc = .listed r.ref) (hass : ∀ l, (c' l).2 = (c l).2) (hlen : ∀ l, (c' l).1.length = 16)
    (hmiss : p.missing = []) :
    DirMid p { d with
      records := d.records.map (atHandle r.ref.handle f)
      staleList := d.staleList.filter (fun x => x != r.ref.handle) } c' := by
  have hself : ∀ x ∈ d.records, x.ref.handle = r.ref.handle → x = r := fun x hx he => h.eq_of_handle hx hr he
  have href : ∀ x, (atHandle r.ref.handle f x).ref = x.ref := atHandle_ref fun x => (hf x).1
  have huid : ∀ x, (atHandle r.ref.handle f x).uid = x.uid := fun x => by
    unfold atHandle; split
    · exact (hf x).2.1
    · rfl
  have hat : atHandle r.ref.handle f r = f r := if_pos rfl
  have hoff : ∀ x, x.ref.handle ≠ r.ref.handle → atHandle r.ref.handle f x = x := fun x hx => if_neg hx
  have hmem : ∀ {P : Record → Prop}, P (f r) → (∀ x ∈ d.records, x.ref.handle ≠ r.ref.handle → P x) →
      ∀ x ∈ d.records.map (atHandle r.ref.handle f), P x := fun h1 h2 x hx => by
    obtain ⟨y, hy, rfl⟩ := List.mem_map.mp hx
    by_cases he : y.ref.handle = r.ref.handle
    · rw [hself y hy he, hat]; exact h1
    · rw [hoff y he]; exact h2 y hy he
  obtain ⟨f1, f2, f3, f4, f5⟩ := hf r
  exact { h with
    order := List.pairwise_map.mpr (h.order.imp fun {a b} hab => by rw [href, href]; exact hab)
    ids := List.pairwise_map.mpr (h.ids.imp fun {a b} hab => by rw [huid, huid]; exact hab)
    handles := by simpa [List.map_map, Function.comp_def, href] using h.handles
    recordGens := hmem (by rw [f1]; exact h.recordGens r hr) fun x hx _ => h.recordGens x hx
    stale := by
      have h1 := h.stale.filter (fun x => x != r.ref.handle)
      refine h1.trans (.of_eq ?_)
      rw [List.filter_map, List.filter_map, List.map_map, List.filter_filter]
      have : (d.records.filter fun x => ((fun x : Nat => x != r.ref.handle) ∘ fun r => r.ref.handle) x && (x.state == .stale))
          = d.records.filter ((fun x => x.state == .stale) ∘ atHandle r.ref.handle f) := by
        apply List.filter_congr
        intro x hx
        by_cases he : x.ref.handle = r.ref.handle
        · rw [Function.comp, Function.comp, hself x hx he, hat]
          simpa using f5
        · rw [Function.comp, Function.comp, hoff x he]; simp [he]
      rw [this]
      exact List.map_congr_left fun x _ => by rw [Function.comp, href]
    staleInfo := hmem (by simp [f4, f5]) fun x hx _ => h.staleInfo x hx
    marks := by rw [show c'.marks = c.marks by simp only [Charts.marks, hass]]; exact h.marks
    newIds := fun m hm hk => hmem (by rw [f2]; exact h.newIds m hm hk r hr) fun x hx _ => h.newIds m hm hk x hx
    rebindIds := fun m hm hk => hmem (fun hu => absurd (hu.symm.trans f2) (hmarks m hm)) fun x hx _ => h.rebindIds m hm hk x hx
    listed := fun x ref he => by
      by_cases hx : x = loc
      · subst hx
        rw [hloc] at he
        exact .inr ⟨f r, List.mem_map.mpr ⟨r, hr, hat⟩, by rw [f1]; simpa using he, f5, f3⟩
      · rw [hother x hx] at he
        refine (h.listed x ref he).imp id fun ⟨y, hy, h1, h2, h3⟩ => ?_
        have hne : y.ref.handle ≠ r.ref.handle := fun he' => h2 (hself y hy he' ▸ hrs)
        exact ⟨y, List.mem_map.mpr ⟨y, hy, hoff y hne⟩, h1, h2, h3⟩
    reached := hmem (fun _ => .inr (by rw [f3, f1]; exact hloc)) fun x hx _ hs => by
      rcases h.reached x hx hs with hm | hm
      · rw [hmiss] at hm; cases hm
      · have hx' : x.loc ≠ loc := fun he => hvac _ (he ▸ hm)
        exact .inr (by rw [hother _ hx']; exact hm)
    locations := hmem (by rw [f3]; exact hhop) fun x hx _ => h.locations x hx
    lengths := hlen }

/-! ### Links -/

/-- The hop map of a link is emptied from somewhere on, where no reachable record stands but those that miss their entry. -/
theorem emptied (h : DirMid p d c) {c' : Charts} (hent : ∀ x, c'.entry x = c.entry x ∨ c'.entry x = .empty)
    (hvac : ∀ r ∈ d.records, r.state ≠ .stale → c'.entry r.loc ≠ c.entry r.loc → r.ref.handle ∈ p.missing)
    (hass : ∀ l, (c' l).2 = (c l).2) (hlen : ∀ l, (c' l).1.length = 16) : DirMid p d c' :=
  { h with
    marks := by rw [show c'.marks = c.marks by simp only [Charts.marks, hass]]; exact h.marks
    listed := fun x ref he => by
      rcases hent x with hx | hx
      · exact h.listed x ref (hx ▸ he)
      · rw [hx] at he; cases he
    reached := fun r hr hs => by
      by_cases hx : c'.entry r.loc = c.entry r.loc
      · rw [hx]; exact h.reached r hr hs
      · exact .inl (hvac r hr hs hx)
    lengths := hlen }

/-- More records that miss their entry. -/
theorem moreMissing (h : DirMid p d c) {ns : List Nat} (hm : ∀ n ∈ p.missing, n ∈ ns) : DirMid { p with missing := ns } d c :=
  h.noMissing fun n hn _ _ _ _ => hm n hn

end DirMid

end Sys2Proof.Machine
end

section
/-! PROOFS. What every operation inside an event does to the soundness of the links and the directory (`HubMid`): one rule per
operation, each said of a state that the event has reached, with what the event still owes there. -/

namespace Sys2Proof.Machine

open EngineMid (debtOf stepDebt)
open DirMid (atHandle KeepsPlace looseOf)

/-! ### The hub within an event -/

/-- What an event owes each link. -/
abbrev LinkDebts := LinkId → LinkDebt

/-- Nothing is owed to any link. -/
def allPaid : LinkDebts := fun _ => .none

/-- One link is owed something. -/
def owing (l : LinkId) (d : LinkDebt) : LinkDebts := fun i => if i = l then d else .none

@[simp] theorem owing_self (l : LinkId) (d : LinkDebt) : owing l d l = d := if_pos rfl
@[simp] theorem owing_none (l : LinkId) : owing l .none = allPaid := by funext i; unfold owing allPaid; split <;> rfl

/-- What holds of the links and the directory within an event. -/
structure HubMid (q : LinkDebts) (p : DirDebt) (s : State) : Prop where
  links : ∀ l, EngineMid (q l) (s.links.get l)
  dir : DirMid p s.dir (chartsOf s)

theorem HubSound.mid {s : State} (h : HubSound s) (hw : WellShaped s) : HubMid allPaid .none s :=
  ⟨fun l => (h.links l).mid (hw.links l).caused, h.directory.mid fun l => (hw.links l).hops⟩

theorem HubMid.sound {s : State} (h : HubMid allPaid .none s) : HubSound s := ⟨fun l => (h.links l).sound, h.dir.sound⟩

theorem chartsOf_entry (s : State) (loc : Loc) : (chartsOf s).entry loc = (s.links.get loc.link).entry loc.hop := rfl

theorem chartsOf_congr {s s' : State} (h : ∀ l, (s'.links.get l).hops = (s.links.get l).hops)
    (ha : ∀ l, (s'.links.get l).assigning = (s.links.get l).assigning) : chartsOf s' = chartsOf s := by
  funext l; unfold chartsOf; rw [h, ha]

namespace HubMid

variable {q : LinkDebts} {p : DirDebt} {s : State}

/-! ### Updates of one block -/

/-- An operation on another block. -/
theorem of_eq (h : HubMid q p s) {s' : State} (hd : s'.dir = s.dir := by rfl) (hl : s'.links = s.links := by rfl) : HubMid q p s' where
  links := by rw [hl]; exact h.links
  dir := by
    have hc : chartsOf s' = chartsOf s := by unfold chartsOf; rw [hl]
    rw [hd, hc]; exact h.dir

/-- An operation on a link that keeps its hop map and its assignment, and may change what is owed to it. -/
theorem modLinkOwed (h : HubMid q p s) {l : LinkId} {d : LinkDebt} {f : LinkEngine → LinkEngine}
    (hf : EngineMid (q l) (s.links.get l) → EngineMid d (f (s.links.get l)))
    (hhops : (f (s.links.get l)).hops = (s.links.get l).hops := by rfl)
    (hass : (f (s.links.get l)).assigning = (s.links.get l).assigning := by rfl) :
    HubMid (fun i => if i = l then d else q i) p (Machine.modLink l f s) where
  links i := by
    rw [modLink_links, Quad.get_modify]
    by_cases hi : i = l
    · subst hi; rw [if_pos rfl]; simp only [if_true]; exact hf (h.links i)
    · rw [if_neg hi]; simp only [if_neg hi]; exact h.links i
  dir := by
    rw [modLink_dir, chartsOf_congr (s := s)]
    · exact h.dir
    · intro i
      rw [modLink_links, Quad.get_modify]
      split
      · rename_i hi; subst hi; exact hhops
      · rfl
    · intro i
      rw [modLink_links, Quad.get_modify]
      split
      · rename_i hi; subst hi; exact hass
      · rfl

theorem modLink (h : HubMid q p s) {l : LinkId} {f : LinkEngine → LinkEngine}
    (hf : EngineMid (q l) (s.links.get l) → EngineMid (q l) (f (s.links.get l)))
    (hhops : (f (s.links.get l)).hops = (s.links.get l).hops := by rfl)
    (hass : (f (s.links.get l)).assigning = (s.links.get l).assigning := by rfl) : HubMid q p (Machine.modLink l f s) := by
  have := h.modLinkOwed hf hhops hass
  have hq : (fun i => if i = l then q l else q i) = q := by funext i; split <;> simp_all
  rwa [hq] at this

theorem modLinks (h : HubMid q p s) {f : LinkEngine → LinkEngine} (hf : ∀ {d : LinkDebt} {e : LinkEngine}, EngineMid d e → EngineMid d (f e))
    (hhops : ∀ e : LinkEngine, (f e).hops = e.hops := by intro _; rfl)
    (hass : ∀ e : LinkEngine, (f e).assigning = e.assigning := by intro _; rfl) : HubMid q p (Machine.modLinks f s) where
  links i := by rw [modLinks_links, Quad.get_map]; exact hf (h.links i)
  dir := by
    rw [modLinks_dir, chartsOf_congr (s := s)]
    · exact h.dir
    · intro i; rw [modLinks_links, Quad.get_map]; exact hhops _
    · intro i; rw [modLinks_links, Quad.get_map]; exact hass _

theorem modDir (h : HubMid q p s) {p' : DirDebt} {f : Directory → Directory}
    (hf : DirMid p s.dir (chartsOf s) → DirMid p' (f s.dir) (chartsOf s)) : HubMid q p' (Machine.modDir f s) where
  links := h.links
  dir := hf h.dir

theorem forEach (h : HubMid q p s) {α : Type} {xs : List α} {f : α → State → State} (hf : ∀ x s, HubMid q p s → HubMid q p (f x s)) :
    HubMid q p (Machine.forEach xs f s) := by
  unfold Machine.forEach
  induction xs generalizing s with
  | nil => exact h
  | cons x xs ih => exact ih (hf x s h)

/-- What is owed to the links may be known in less detail. -/
theorem weaken (h : HubMid q p s) {q' : LinkDebts} (hq : ∀ l, EngineMid (q l) (s.links.get l) → EngineMid (q' l) (s.links.get l)) :
    HubMid q' p s := ⟨fun l => hq l (h.links l), h.dir⟩

/-! ### Engines whose hop map and assignment stay -/

theorem dropFlight_charts (test : Txn → Bool) (e : LinkEngine) :
    (e.dropFlight test).hops = e.hops ∧ (e.dropFlight test).assigning = e.assigning := by
  unfold LinkEngine.dropFlight; (repeat' split) <;> exact ⟨rfl, rfl⟩

theorem notice_charts (test : HopEntry → Bool) (e : LinkEngine) :
    (e.notice test).hops = e.hops ∧ (e.notice test).assigning = e.assigning := by
  have hc : ∀ (h : Nat) (e : LinkEngine), ((e.cause h).hops, (e.cause h).assigning) = (e.hops, e.assigning) := fun h e => by
    unfold LinkEngine.cause; split <;> rfl
  have : ((e.notice test).hops, (e.notice test).assigning) = (e.hops, e.assigning) := by
    unfold LinkEngine.notice
    split
    · exact foldl_keeps (fun e : LinkEngine => (e.hops, e.assigning)) hc
    · rfl
    · rfl
  simpa using this

theorem forceRollCall_charts (e : LinkEngine) : e.forceRollCall.hops = e.hops ∧ e.forceRollCall.assigning = e.assigning := by
  unfold LinkEngine.forceRollCall; split <;> exact ⟨rfl, rfl⟩

theorem suspendFlight_charts (e : LinkEngine) : e.suspendFlight.hops = e.hops ∧ e.suspendFlight.assigning = e.assigning := by
  unfold LinkEngine.suspendFlight; (repeat' split) <;> exact ⟨rfl, rfl⟩

/-! ### Operations of Ops and Jobs -/

theorem complete (h : HubMid q p s) {t : Tag} {k : ReqKind} {st : Status} {b : Byte} {res : List Byte} :
    HubMid q p (Machine.complete t k st b res s) := h.of_eq
theorem orderCompletions (h : HubMid q p s) {n : Nat} : HubMid q p (Machine.orderCompletions n s) := h.of_eq
theorem holdTag (h : HubMid q p s) {t : Tag} {r : Running} : HubMid q p (Machine.holdTag t r s) := h.of_eq
theorem modPort (h : HubMid q p s) {f : HostPort → HostPort} : HubMid q p (Machine.modPort f s) := h.of_eq
theorem modCommit (h : HubMid q p s) {f : CommitCtl → CommitCtl} : HubMid q p (Machine.modCommit f s) := h.of_eq
theorem modBoundary (h : HubMid q p s) {f : BoundaryUnit → BoundaryUnit} : HubMid q p (Machine.modBoundary f s) := h.of_eq
theorem modJobs (h : HubMid q p s) {l : LinkId} {f : List Job → List Job} : HubMid q p (Machine.modJobs l f s) := h.of_eq
theorem setKeys (h : HubMid q p s) {ks : List KeyRec} : HubMid q p (Machine.setKeys ks s) := h.of_eq
theorem setStore (h : HubMid q p s) {es : List Entry} : HubMid q p (Machine.setStore es s) := h.of_eq
theorem setStaging (h : HubMid q p s) {cs : List Change} : HubMid q p (Machine.setStaging cs s) := h.of_eq
theorem advanceTo (h : HubMid q p s) {m : Nat} : HubMid q p (Machine.advanceTo m s) := h.of_eq
theorem raiseDevice (h : HubMid q p s) {r : Reason} : HubMid q p (Machine.raiseDevice r s) := h.of_eq
theorem raiseLink (h : HubMid q p s) {l : LinkId} {r : Reason} : HubMid q p (Machine.raiseLink l r s) := h.of_eq
theorem raiseHandle (h : HubMid q p s) {n : Nat} {r : Reason} : HubMid q p (Machine.raiseHandle n r s) := h.of_eq

theorem endRunning (h : HubMid q p s) {st : Status} {t : Tag} : HubMid q p (Machine.endRunning st t s) := by
  unfold Machine.endRunning; split
  · exact h.complete
  · exact h

theorem updRec (h : HubMid q p s) {n : Nat} {f : Record → Record} (hf : KeepsPlace f) : HubMid q p (Machine.updRec n f s) :=
  h.modDir fun k => k.mapRecords hf.atHandle

theorem noticeHandle (h : HubMid q p s) : HubMid q p (Machine.noticeHandle s) :=
  h.modLinks (fun k => k.notice) (fun e => (notice_charts _ e).1) (fun e => (notice_charts _ e).2)

theorem noticeId (h : HubMid q p s) {u : Uid} : HubMid q p (Machine.noticeId u s) :=
  h.modLinks (fun k => k.notice) (fun e => (notice_charts _ e).1) (fun e => (notice_charts _ e).2)

theorem makeJob (h : HubMid q p s) {n : Nat} : HubMid q p (Machine.makeJob n s) := by
  unfold Machine.makeJob; split
  · split
    · exact h.modJobs
    · exact h
  · exact h

theorem dropJobTxns (h : HubMid q p s) {ref : Ref} : HubMid q p (Machine.modLinks (LinkEngine.dropJobTxns ref) s) :=
  h.modLinks (fun k => k.dropJobTxns) (fun _ => (dropFlight_charts _ _).1) (fun _ => (dropFlight_charts _ _).2)

theorem removeJob (h : HubMid q p s) {ref : Ref} : HubMid q p (Machine.removeJob ref s) :=
  (h.forEach fun _ _ k => k.modJobs).dropJobTxns

theorem updJob (h : HubMid q p s) {l : LinkId} {ref : Ref} {f : Job → Job} : HubMid q p (Machine.updJob l ref f s) := h.modJobs
theorem jobToTail (h : HubMid q p s) {l : LinkId} {ref : Ref} {f : Job → Job} : HubMid q p (Machine.jobToTail l ref f s) := h.modJobs

theorem restartAllJobs (h : HubMid q p s) : HubMid q p (Machine.restartAllJobs s) := by
  rw [restartAllJobs_eq]
  exact HubMid.forEach (h.of_eq (s' := { s with jobs := _ })) fun _ _ k => k.dropJobTxns

theorem queueCatchUp (h : HubMid q p s) {l : LinkId} {t : Txn} (ht : t.isStep = false ∧ ∀ n, t.req ≠ .tag n) :
    HubMid q p (Machine.queueCatchUp l t s) := h.modLink fun k => k.queueCatch ht

theorem queueNextPacket (h : HubMid q p s) {l : LinkId} {j : Job} : HubMid q p (Machine.queueNextPacket l j s) :=
  h.queueCatchUp ⟨rfl, by rintro n ⟨⟩⟩

theorem settleTurn (h : HubMid q p s) {l : LinkId} : HubMid q p (Machine.settleTurn l s) := by
  unfold Machine.settleTurn
  split
  · dsimp only
    split
    · split
      · exact h.modJobs.updJob.queueNextPacket
      · exact h.modJobs
    · exact h.modJobs
  · exact h

theorem settleTurns (h : HubMid q p s) : HubMid q p (Machine.settleTurns s) := h.forEach fun _ _ k => k.settleTurn

theorem jobsTakeBoundary (h : HubMid q p s) : HubMid q p (Machine.jobsTakeBoundary s) := by
  refine h.forEach fun l s k => ?_
  split
  · exact (k.forEach fun _ _ k => k.queueCatchUp ⟨rfl, by rintro n ⟨⟩⟩).modJobs
  · exact k

/-! ### Claims -/

theorem dropHostWaiting (h : HubMid q p s) {l : LinkId} {ref : Ref} : HubMid q p (Machine.dropHostWaiting l ref s) :=
  (h.modLink fun k => k.filterHost).forEach fun _ _ k => k.endRunning

theorem setHop_links (l : LinkId) (hop : Nat) (x : HopEntry) (s : State) (i : LinkId) :
    (Machine.setHop l hop x s).links.get i = if i = l then (s.links.get l).setEntry hop x else s.links.get i := by
  rw [Machine.setHop, modLink_links, Quad.get_modify]
  split
  · rename_i hi; rw [hi]
  · rfl

theorem setHop_entry (l : LinkId) (hop : Nat) (x : HopEntry) (s : State) (loc : Loc) :
    (chartsOf (Machine.setHop l hop x s)).entry loc
      = if loc = ⟨l, hop⟩ ∧ hop < (s.links.get l).hops.length then x else (chartsOf s).entry loc := by
  rw [chartsOf_entry, chartsOf_entry, setHop_links]
  by_cases hl : loc.link = l
  · rw [if_pos hl, EngineMid.entry_setEntry, hl]
    by_cases hh : loc.hop = hop
    · have : loc = ⟨l, hop⟩ := by cases loc; simp_all
      simp [this]
    · have : loc ≠ ⟨l, hop⟩ := fun he => hh (by rw [he])
      simp [hh, this]
  · have : loc ≠ ⟨l, hop⟩ := fun he => hl (by rw [he])
    rw [if_neg hl, if_neg fun he => this he.1]

/-- A hop at which no reachable record stands takes an entry that names none. -/
theorem clearHop (h : HubMid q p s) {l : LinkId} {hop : Nat} {x : HopEntry} (hx : ∀ ref, x ≠ .listed ref)
    (hu : (s.links.get l).isUp = true ∨ x = .empty)
    (hvac : ∀ r ∈ s.dir.records, r.loc = ⟨l, hop⟩ → r.state ≠ .stale → r.ref.handle ∈ p.missing) :
    HubMid q { p with ghosts := p.ghosts.filter (fun g => g.1 != ⟨l, hop⟩) } (Machine.setHop l hop x s) where
  links i := by
    rw [setHop_links]
    split
    · rename_i hi; subst hi; exact (h.links i).setEntry hu hx
    · exact h.links i
  dir := by
    refine h.dir.clearEntry hvac (fun y hy => ?_) (fun ref => ?_) (fun i => ?_) (fun i => ?_)
    · rw [setHop_entry, if_neg fun he => hy he.1]
    · rw [setHop_entry]
      split
      · exact hx ref
      · rename_i hlen
        intro he
        have hh : ¬ hop < (s.links.get l).hops.length := fun hc => hlen ⟨rfl, hc⟩
        rw [chartsOf_entry, LinkEngine.entry, List.getD_eq_default _ _ (by simpa using hh)] at he
        cases he
    · show ((Machine.setHop l hop x s).links.get i).assigning = _
      rw [setHop_links]; split
      · rename_i hi; subst hi; rfl
      · rfl
    · show ((Machine.setHop l hop x s).links.get i).hops.length = 16
      rw [setHop_links]; split
      · rename_i hi; subst hi
        show ((s.links.get i).hops.set hop x).length = 16
        rw [List.length_set]; exact h.dir.lengths i
      · exact h.dir.lengths i

theorem unlistHop (h : HubMid q p s) {loc : Loc} {ref : Ref} (hvac : ∀ r ∈ s.dir.records, r.ref = ref → r.state = .stale) :
    HubMid q { p with ghosts := p.ghosts.filter (fun g => g != (loc, ref)) } (Machine.unlistHop loc ref s) := by
  by_cases he : (s.links.get loc.link).entry loc.hop = .listed ref
  · have hset : Machine.unlistHop loc ref s = Machine.setHop loc.link loc.hop .empty s := by
      simp only [Machine.unlistHop, Machine.setHop, Machine.modLink]
      congr 1
      apply Quad.ext_get
      intro i
      rw [Quad.get_modify, Quad.get_modify]
      split
      · rename_i hi; subst hi; rw [if_pos he]
      · rfl
    rw [hset]
    have hv : ∀ r ∈ s.dir.records, r.loc = loc → r.state ≠ .stale → r.ref.handle ∈ p.missing := fun r hr hl hs => by
      rcases h.dir.reached r hr hs with hm | hm
      · exact hm
      · rw [hl, chartsOf_entry, he] at hm
        injection hm with hm
        exact absurd (hvac r hr hm.symm) hs
    have := h.clearHop (x := .empty) (by simp) (.inr rfl) hv
    exact ⟨this.links, this.dir.noGhosts fun g hg _ => by
      obtain ⟨h1, h2⟩ := List.mem_filter.mp hg
      refine List.mem_filter.mpr ⟨h1, ?_⟩
      simp only [bne_iff_ne] at h2 ⊢
      exact fun hgl => h2 (by rw [hgl])⟩
  · have hset : Machine.unlistHop loc ref s = s := by
      have : (s.links.modify loc.link fun e => if e.entry loc.hop = .listed ref then e.setEntry loc.hop .empty else e) = s.links := by
        apply Quad.ext_get
        intro i
        rw [Quad.get_modify]
        split
        · rename_i hi; subst hi; rw [if_neg he]
        · rfl
      simp only [Machine.unlistHop, Machine.modLink, this]
    rw [hset]
    exact ⟨h.links, h.dir.noGhosts fun g hg hl => List.mem_filter.mpr ⟨hg, by
      simp only [bne_iff_ne]
      rintro rfl
      exact he hl⟩⟩

end HubMid

end Sys2Proof.Machine
end

section
/-! PROOFS. The claims, retirements and the course of a commit within an event: what they do to the soundness of the links and the
directory (`HubMid`). -/

namespace Sys2Proof.Machine

open EngineMid (debtOf stepDebt)
open DirMid (atHandle KeepsPlace looseOf)

theorem mem_of_findRec {s : State} {n : Nat} {r : Record} (h : findRec s n = some r) : r ∈ s.dir.records ∧ r.ref.handle = n :=
  ⟨List.mem_of_find?_eq_some h, by simpa using List.find?_some h⟩

theorem mem_of_findRef {s : State} {ref : Ref} {r : Record} (h : findRef s ref = some r) : r ∈ s.dir.records ∧ r.ref = ref :=
  ⟨List.mem_of_find?_eq_some h, by simpa using List.find?_some h⟩

theorem mem_of_findUid {s : State} {u : Uid} {r : Record} (h : findUid s u = some r) : r ∈ s.dir.records ∧ r.uid = u :=
  ⟨List.mem_of_find?_eq_some h, by simpa using List.find?_some h⟩

theorem ne_of_findRec {s : State} {n : Nat} (h : findRec s n = none) {r : Record} (hr : r ∈ s.dir.records) : r.ref.handle ≠ n := by
  have := List.find?_eq_none.mp h r hr
  simpa using this

theorem ne_of_findUid {s : State} {u : Uid} (h : findUid s u = none) {r : Record} (hr : r ∈ s.dir.records) : r.uid ≠ u := by
  have := List.find?_eq_none.mp h r hr
  simpa using this

namespace EngineMid

variable {d : LinkDebt} {e : LinkEngine}

/-- The scan steps that are owed, on the wire or in the scan class are ENUM_QUERYs and ASSIGNs of the scan class. -/
theorem step_class (h : EngineMid d e) {t : Txn} (ht : t ∈ d.steps ++ e.stepTraffic) :
    t.cls = .scan ∧ (t.body = .enumQuery ∨ ∃ ref, t.body = .assign ref) := by
  obtain ⟨qs, hq, -, -⟩ := h.steps
  have hm : t ∈ e.assigning.toList.map Assignment.txn ++ qs.map (fun q => enumTxn q.1 q.2) := hq ▸ ht
  rcases List.mem_append.mp hm with hm | hm
  · obtain ⟨a, -, rfl⟩ := List.mem_map.mp hm; exact ⟨rfl, .inr ⟨_, rfl⟩⟩
  · obtain ⟨x, -, rfl⟩ := List.mem_map.mp hm; exact ⟨rfl, .inl rfl⟩

theorem flight_mem {f : Flight} (hf : e.flight = some f) (hs : f.txn.isStep = true) : f.txn ∈ e.stepTraffic := by
  rw [stepTraffic_step hf hs]; exact List.mem_cons_self

/-- Transactions of the commit in flight run to their end with no requester. -/
theorem dropCommitFlight (h : EngineMid d e) {test : Txn → Bool} (ht : ∀ t, test t = true → t.isCommit = true) :
    EngineMid d (e.dropFlight test) := by
  unfold LinkEngine.dropFlight
  split
  · rename_i f hf
    split
    · rename_i htest
      refine h.setFlight (f := f) hf rfl (.inr ⟨?_, rfl⟩)
      by_contra hs
      have := ht _ htest
      simp [Txn.isCommit, (h.step_class (List.mem_append_right _ (flight_mem hf (by simpa using hs)))).1] at this
    · exact h
  · exact h

end EngineMid

namespace HubMid

variable {q : LinkDebts} {p : DirDebt} {s : State}

/-! ### Claims -/

/-- The directory's part of a claim to STALE: the record, if it was reachable, misses its entry no more. -/
theorem claimStaleDir (h : HubMid q p s) {n : Nat} {why : StaleReason} :
    HubMid q { p with missing := p.missing.filter (· != n) } (Machine.claimStaleDir n why s) := by
  have gone : (∀ r ∈ s.dir.records, r.state ≠ .stale → r.ref.handle ≠ n) →
      HubMid q { p with missing := p.missing.filter (· != n) } s := fun hn =>
    ⟨h.links, h.dir.noMissing fun m hm r hr hs he => List.mem_filter.mpr ⟨hm, by simpa [← he] using hn r hr hs⟩⟩
  unfold Machine.claimStaleDir
  split
  · rename_i r hr
    obtain ⟨hmem, rfl⟩ := mem_of_findRec hr
    split
    · rename_i hs
      exact gone fun x hx hxs he => hxs (h.dir.eq_of_handle hx hmem he ▸ hs)
    · rename_i hs
      have h1 : HubMid q { p with missing := p.missing.filter (· != r.ref.handle), ghosts := (r.loc, r.ref) :: p.ghosts }
          (Machine.modDir (fun d => { d with staleList := d.staleList ++ [r.ref.handle] })
            (Machine.updRec r.ref.handle (fun x => { x with state := .stale, stale := some ⟨s.now, why⟩ }) s)) :=
        ⟨h.links, h.dir.claim hmem hs _⟩
      have h2 := ((h1.removeJob (ref := r.ref)).dropHostWaiting (l := r.loc.link) (ref := r.ref)).unlistHop (loc := r.loc) (ref := r.ref)
        (by
          intro x hx hxr
          simp only [dropHostWaiting_dir, removeJob_dir, modDir_dir, Machine.updRec, List.mem_map] at hx
          obtain ⟨y, -, rfl⟩ := hx
          by_cases hy : y.ref.handle = r.ref.handle
          · rw [if_pos hy]
          · rw [if_neg hy] at hxr; exact absurd (congrArg Ref.handle hxr) hy)
      have h3 := (h2.raiseHandle (n := r.ref.handle) (r := .stale)).noticeId (u := r.uid)
      exact ⟨h3.links, h3.dir.moreGhosts fun g hg => by
        simp only [List.filter_cons, bne_self_eq_false, Bool.false_eq_true, if_false] at hg
        exact List.mem_of_mem_filter hg⟩
  · rename_i hnone
    exact gone fun r hr _ => ne_of_findRec hnone hr

theorem claimStaleDirs (h : HubMid q p s) (claims : List (Nat × StaleReason)) :
    HubMid q { p with missing := p.missing.filter (fun n => !(claims.map Prod.fst).contains n) }
      (Machine.forEach claims (fun c => Machine.claimStaleDir c.1 c.2) s) := by
  unfold Machine.forEach
  induction claims generalizing s p with
  | nil => simpa using h
  | cons c cs ih =>
    have := ih (h.claimStaleDir (n := c.1) (why := c.2))
    simp only [List.filter_filter] at this
    have he : ∀ n : Nat, (!(cs.map Prod.fst).contains n && n != c.1) = !((c :: cs).map Prod.fst).contains n := fun n => by
      rw [Bool.eq_iff_iff]; simp [and_comm]
    simp only [he] at this
    exact this

/-- The record of a handle takes a change that keeps its place. -/
theorem updFound (h : HubMid q p s) {n : Nat} {r : Record} (hr : findRec s n = some r) {f : Record → Record}
    (hf : (f r).ref = r.ref ∧ (f r).uid = r.uid ∧ (f r).loc = r.loc ∧ (f r).stale = r.stale ∧ ((f r).state = .stale ↔ r.state = .stale)) :
    HubMid q p (Machine.updRec n f s) := by
  obtain ⟨hmem, rfl⟩ := mem_of_findRec hr
  have hg : KeepsPlace fun x => if x = r then f r else x := fun x => by
    by_cases hx : x = r
    · simp only [if_pos hx]; rw [hx]; exact hf
    · simp [if_neg hx]
  have he : s.dir.records.map (fun x => if x = r then f r else x)
      = s.dir.records.map (fun x => if x.ref.handle = r.ref.handle then f x else x) := by
    apply List.map_congr_left
    intro x hx
    by_cases hxr : x.ref.handle = r.ref.handle
    · have := h.dir.eq_of_handle hx hmem hxr
      subst this; simp
    · rw [if_neg hxr, if_neg (by rintro rfl; exact hxr rfl)]
  have := h.dir.mapRecords hg
  rw [he] at this
  exact ⟨h.links, this⟩

theorem claimActive (h : HubMid q p s) {n : Nat} : HubMid q p (Machine.claimActive n s) := by
  unfold Machine.claimActive
  split
  · rename_i r hr
    split
    · rename_i hs
      refine (raiseHandle (h.updFound hr ⟨rfl, rfl, rfl, rfl, ?_⟩)).removeJob
      rcases hs with hs | hs <;> simp [hs]
    · exact h
  · exact h

theorem claimLagging (h : HubMid q p s) {n : Nat} : HubMid q p (Machine.claimLagging n s) := by
  unfold Machine.claimLagging
  split
  · rename_i r hr
    split
    · rename_i hs
      exact (raiseHandle (h.updFound hr ⟨rfl, rfl, rfl, rfl, by simp [hs]⟩)).makeJob
    · exact h
  · exact h

/-! ### Participants and the course of a commit -/

theorem updPart (h : HubMid q p s) {ref : Ref} {f : Participant → Participant} : HubMid q p (Machine.updPart ref f s) := h.modCommit

theorem setStatus (h : HubMid q p s) {ref : Ref} {st : PartStatus} : HubMid q p (Machine.setStatus ref st s) := h.updPart

theorem queueCommit (h : HubMid q p s) {l : LinkId} {ts : List Txn} (ht : ∀ t ∈ ts, t.isStep = false ∧ ∀ n, t.req ≠ .tag n) :
    HubMid q p (Machine.modLink l (LinkEngine.queueCommit ts) s) := h.modLink fun k => k.queueCommit ht

theorem partTxn_plain (x : Participant) (b : Body) : ∀ t ∈ [partTxn x b], t.isStep = false ∧ ∀ n, t.req ≠ .tag n := fun t ht => by
  rw [List.mem_singleton.mp ht]
  exact ⟨rfl, by rintro n ⟨⟩⟩

theorem queueCancel (h : HubMid q p s) {x : Participant} : HubMid q p (Machine.queueCancel x s) :=
  (h.queueCommit (partTxn_plain _ _)).updPart

theorem dropPrepares (h : HubMid q p s) {x : Participant} : HubMid q p (Machine.dropPrepares x s) :=
  h.modLink (fun k => k.dropCommit.dropFlight fun t ht => by
    obtain ⟨full, hreq⟩ := isStep_iff.mp ht
    simp [hreq]) (dropFlight_charts _ _).1 (dropFlight_charts _ _).2

theorem exclude (h : HubMid q p s) {x : Participant} : HubMid q p (Machine.exclude x s) := by
  unfold Machine.exclude
  dsimp only
  split
  · split
    · exact h.dropPrepares.setStatus.claimLagging.queueCancel
    · exact h.dropPrepares.setStatus.claimLagging
  · exact h.dropPrepares.setStatus

theorem enterCancelling (h : HubMid q p s) {reason : CancelReason} : HubMid q p (Machine.enterCancelling reason s) := by
  refine HubMid.forEach ?_ fun _ _ k => k.queueCancel
  exact modLinks h.modCommit (fun k => k.dropCommit.dropCommitFlight fun t ht => by simp_all) (fun _ => (dropFlight_charts _ _).1)
    (fun _ => (dropFlight_charts _ _).2)

theorem failParticipant (h : HubMid q p s) {x : Participant} : HubMid q p (Machine.failParticipant x s) := by
  unfold Machine.failParticipant
  split
  · exact h.enterCancelling
  · exact h.exclude

theorem participantLost (h : HubMid q p s) {ref : Ref} : HubMid q p (Machine.participantLost ref s) := by
  unfold Machine.participantLost
  split
  · exact h
  · rename_i x _
    have k := h.modLink (l := x.loc.link) fun k => k.dropCommit (test := fun t => t.req == .participant ref)
    dsimp only
    split
    · split
      · exact k.failParticipant
      · exact k
    · split
      · split
        · exact k.enterCancelling
        · exact k.setStatus
      · exact k
    · split
      · exact k.setStatus
      · exact k
    · exact k
    · exact k

/-- Claims to STALE of one event: those of the records that miss their entry are among them. -/
theorem claimStaleAll (h : HubMid q p s) {claims : List (Nat × StaleReason)} (hm : ∀ n ∈ p.missing, n ∈ claims.map Prod.fst) :
    HubMid q { p with missing := [] } (Machine.claimStaleAll claims s) := by
  have k := h.claimStaleDirs claims
  have he : p.missing.filter (fun n => !(claims.map Prod.fst).contains n) = [] :=
    List.filter_eq_nil_iff.mpr fun n hn => by simpa using hm n hn
  rw [he] at k
  exact k.forEach fun _ _ k => k.participantLost

/-! ### Retirement -/

theorem raiseIf (h : HubMid q p s) {c : Prop} [Decidable c] {r : Reason} : HubMid q p (if c then Machine.raiseDevice r s else s) := by
  split
  · exact h.raiseDevice
  · exact h

/-- The record of a handle is retired: the entry of a reachable one is left behind. -/
theorem retireFound (h : HubMid q p s) {n : Nat} {r : Record} (hr : findRec s n = some r) :
    HubMid q { p with ghosts := if r.state = .stale then p.ghosts else (r.loc, r.ref) :: p.ghosts } (Machine.retire n s) := by
  obtain ⟨hmem, rfl⟩ := mem_of_findRec hr
  rw [Machine.retire, hr]
  refine ((modPort (modDir (raiseIf (setStaging (setStore h))).removeJob.dropHostWaiting fun k => ?_)).noticeHandle).noticeId
  exact k.retireRecord (by rw [dropHostWaiting_dir, removeJob_dir]; split <;> exact hmem) rfl _

theorem retire_of_none {n : Nat} (hr : findRec s n = none) : Machine.retire n s = s := by rw [Machine.retire, hr]

/-- What a retirement does to the directory. -/
theorem retire_dir {n : Nat} {r : Record} (hr : findRec s n = some r) :
    (Machine.retire n s).dir = { s.dir with
      gens := s.dir.gens.set (n - 1) ((r.ref.gen + 1) % 16)
      records := s.dir.records.filter (fun x => x.ref.handle != n)
      freeList := s.dir.freeList ++ [n]
      staleList := s.dir.staleList.filter (fun x => x != n) } := by
  rw [Machine.retire, hr]
  simp only [noticeId_dir, noticeHandle_dir, modPort_dir, modDir_dir, dropHostWaiting_dir, removeJob_dir]
  split <;> rfl

theorem retire_records_subset {n : Nat} {x : Record} (hx : x ∈ (Machine.retire n s).dir.records) : x ∈ s.dir.records := by
  cases hr : findRec s n with
  | none => rwa [retire_of_none hr] at hx
  | some r => rw [retire_dir hr] at hx; exact List.mem_of_mem_filter hx

theorem retireStale (h : HubMid q p s) {n : Nat} (hs : ∀ r ∈ s.dir.records, r.ref.handle = n → r.state = .stale) :
    HubMid q p (Machine.retire n s) := by
  cases hr : findRec s n with
  | none => rwa [retire_of_none hr]
  | some r =>
    have := h.retireFound hr
    rwa [if_pos (hs r (mem_of_findRec hr).1 (mem_of_findRec hr).2)] at this

theorem retireAll (h : HubMid q p s) {ns : List Nat} (hs : ∀ n ∈ ns, ∀ r ∈ s.dir.records, r.ref.handle = n → r.state = .stale) :
    HubMid q p (Machine.forEach ns Machine.retire s) := by
  unfold Machine.forEach
  induction ns generalizing s with
  | nil => exact h
  | cons n ns ih =>
    exact ih (h.retireStale (hs n (by simp))) fun m hm r hr => hs m (by simp [hm]) r (retire_records_subset hr)

/-- The handles of the stale list are those of STALE records. -/
theorem stale_of_listed (h : HubMid q p s) {n : Nat} (hn : n ∈ s.dir.staleList) {r : Record} (hr : r ∈ s.dir.records)
    (he : r.ref.handle = n) : r.state = .stale := by
  obtain ⟨x, hx, hxs, hxn⟩ := h.dir.mem_stale.mp hn
  exact h.dir.eq_of_handle hr hx (he.trans hxn.symm) ▸ hxs

theorem expireAll (h : HubMid q p s) : HubMid q p (Machine.expireAll s) :=
  h.retireAll fun _ hn _ hr he => h.stale_of_listed (List.mem_of_mem_filter hn) hr he

/-! ### The course and the end of a commit -/

theorem confirm (h : HubMid q p s) {ref : Ref} : HubMid q p (Machine.confirm ref s) :=
  h.setStatus.updRec fun _ => ⟨rfl, rfl, rfl, rfl, .rfl⟩

theorem examineOne (h : HubMid q p s) {es : List RollEntry} {x : Participant} : HubMid q p (Machine.examineOne es x s) := by
  unfold Machine.examineOne
  split
  · split
    · split
      · exact h.confirm
      · exact h.queueCommit (partTxn_plain _ _)
    · exact h.setStatus
  · exact h.setStatus

theorem examine (h : HubMid q p s) {l : LinkId} {es : List RollEntry} : HubMid q p (Machine.examine l es s) :=
  h.forEach fun _ _ k => k.examineOne

theorem makeLagging (h : HubMid q p s) {ref : Ref} : HubMid q p (Machine.makeLagging ref s) := h.setStatus.claimLagging

theorem participantReplied (h : HubMid q p s) {ref : Ref} {b : Body} {st : TileStatus} {reply : ReplyBody} :
    HubMid q p (Machine.participantReplied ref b st reply s) := by
  unfold Machine.participantReplied
  split
  · exact h
  · split
    · split
      · split
        · exact h.updPart
        · exact h.failParticipant
      · exact h
    · split
      · split
        · exact h.confirm.raiseHandle
        · exact h.makeLagging
      · exact h
    · exact h

theorem participantNoReply (h : HubMid q p s) {ref : Ref} {b : Body} {limit : Bool} :
    HubMid q p (Machine.participantNoReply ref b limit s) := by
  unfold Machine.participantNoReply
  split
  · exact h
  · split
    · split
      · exact h.failParticipant
      · exact h
    · split
      · split
        · exact h.claimLagging
        · exact h.makeLagging
      · exact h
    · split
      · split
        · exact h.claimLagging
        · exact h
      · exact h
    · exact h

theorem returnToIdle (h : HubMid q p s) {applied : Bool} : HubMid q p (Machine.returnToIdle applied s) := by
  have k : HubMid q p (Machine.modLinks (fun e => LinkEngine.dropFlight Txn.isCommit { e with commitQ := [] })
      (Machine.modCommit (fun c => CommitCtl.idle c.epoch c.lengths) s)) :=
    modLinks h.modCommit (fun k => (k.setCommitQ (q := []) (by rintro t ⟨⟩)).dropCommitFlight fun _ ht => ht)
      (fun _ => (dropFlight_charts _ _).1) (fun _ => (dropFlight_charts _ _).2)
  refine noticeHandle (expireAll (HubMid.forEach ?_ fun _ _ k => k.makeJob))
  split
  · exact k.restartAllJobs
  · exact k

theorem completeCommit (h : HubMid q p s) {st : Status} {b : Byte} {res : List Byte} :
    HubMid q p (Machine.completeCommit st b res s) := by
  unfold Machine.completeCommit; split
  · exact h.complete
  · exact h

theorem settleCommit (h : HubMid q p s) : HubMid q p (Machine.settleCommit s) := by
  unfold Machine.settleCommit
  split
  · split
    · exact h
    · exact h.modCommit
  · split
    · exact h
    · exact h.completeCommit.returnToIdle
  · split
    · exact h
    · exact h.completeCommit.returnToIdle
  · exact h

theorem applyTxns_plain (epoch : Half) : ∀ t ∈ applyTxns epoch, t.isStep = false ∧ ∀ n, t.req ≠ .tag n := fun t ht => by
  simp only [applyTxns, List.mem_cons, List.not_mem_nil, or_false] at ht
  rcases ht with rfl | rfl <;> exact ⟨rfl, by rintro n ⟨⟩⟩

theorem applyCommit (h : HubMid q p s) : HubMid q p (Machine.applyCommit s) := by
  unfold Machine.applyCommit
  refine HubMid.forEach ?_ fun l s k => ?_
  · exact ⟨h.links, h.dir.mapRecords fun r => ⟨rfl, rfl, rfl, rfl, .rfl⟩⟩
  · split
    · refine k.modLink fun k => k.setCommitQ fun t ht => ?_
      rcases List.mem_append.mp ht with ht | ht
      · exact applyTxns_plain _ t ht
      · exact k.of_commitQ ht
    · exact k

theorem boundaryEvent (h : HubMid q p s) : HubMid q p (Machine.boundaryEvent s) := by
  unfold Machine.boundaryEvent
  split
  · exact h.modBoundary.applyCommit
  · exact h.modBoundary.jobsTakeBoundary
  · exact h.modBoundary

theorem excludeUnprepared (h : HubMid q p s) : HubMid q p (Machine.excludeUnprepared s) := h.forEach fun _ _ k => k.exclude

theorem acceptCommit (h : HubMid q p s) {pol : Policy} {t : Tag} {post : View} {ds : List Ref} {ps : List Participant} :
    HubMid q p (Machine.acceptCommit pol t post ds ps s) := by
  refine HubMid.forEach (h.holdTag.modCommit) fun l s k => k.modLink (fun k => k.suspendFlight.queueCommit fun t ht => ?_)
    (suspendFlight_charts _).1 (suspendFlight_charts _).2
  obtain ⟨x, -, hx⟩ := List.mem_flatMap.mp ht
  obtain ⟨i, -, rfl⟩ := List.mem_map.mp hx
  exact partTxn_plain _ _ _ (List.mem_singleton_self _)

end HubMid

end Sys2Proof.Machine
end

section
/-! PROOFS. The end of an event and the scan steps, assignments and roll calls within it: what they do to the soundness of the links and
the directory (`HubMid`). -/

namespace Sys2Proof.Machine

open EngineMid (debtOf stepDebt)
open DirMid (atHandle KeepsPlace looseOf)

theorem choose_charts {idle : Bool} {e e' : LinkEngine} {t : Txn} (h : choose idle e = some (t, e')) :
    e'.hops = e.hops ∧ e'.assigning = e.assigning := by
  unfold choose chooseLow at h
  (repeat' split at h) <;> cases h <;> exact ⟨rfl, rfl⟩

theorem modLink_modLink (l : LinkId) (f g : LinkEngine → LinkEngine) (s : State) :
    modLink l f (modLink l g s) = modLink l (fun e => f (g e)) s := by
  have : (s.links.modify l g).modify l f = s.links.modify l (fun e => f (g e)) := by
    apply Quad.ext_get
    intro i
    rw [Quad.get_modify, Quad.get_modify, Quad.get_modify]
    split
    · rename_i hi; subst hi; rfl
    · rfl
  simp only [modLink, this]

namespace HubMid

variable {q : LinkDebts} {p : DirDebt} {s : State}

/-! ### The end of an event -/

theorem queueHopScans (h : HubMid allPaid p s) : HubMid allPaid p (Machine.queueHopScans s) where
  links l := by
    rw [Machine.queueHopScans, modLinks_links, Quad.get_map]; exact (h.links l).queueCaused
  dir := by
    rw [Machine.queueHopScans, modLinks_dir, chartsOf_congr (s := s)]
    · exact h.dir
    · intro l; rw [modLinks_links, Quad.get_map]; rfl
    · intro l; rw [modLinks_links, Quad.get_map]; rfl

theorem markReached (h : HubMid q p s) {t : Txn} : HubMid q p (Machine.markReached t s) := by
  unfold Machine.markReached
  split
  · split
    · exact h.updPart
    · exact h
  · exact h

theorem arbitrate (h : HubMid allPaid p s) {l : LinkId} : HubMid allPaid p (Machine.arbitrate l s) := by
  unfold Machine.arbitrate
  dsimp only
  split
  · exact h
  · rename_i hfree
    rw [not_or, Option.not_isSome_iff_eq_none, Option.not_isSome_iff_eq_none] at hfree
    split
    · rename_i t e' hc
      obtain ⟨hmid, hf, ho, hu, hs⟩ := (h.links l).choose hfree.1 hc
      have hroll : t.isFullScan = true → t.body ≠ .rollCall := fun ht hb => by
        have := (hmid.step_class (t := t) (by simp [debtOf, stepDebt, isStep_of_isFullScan ht])).2
        rw [hb] at this
        rcases this with h1 | ⟨_, h1⟩ <;> cases h1
      obtain ⟨hhops, hass⟩ := choose_charts hc
      rw [startTxn, modLink_modLink]
      refine markReached (h.modLink (fun _ => ?_) hhops hass)
      exact hmid.start hf (ho.trans hfree.2) hu hs hroll s.now
    · exact h

theorem arbitrateAll (h : HubMid allPaid p s) : HubMid allPaid p (Machine.arbitrateAll s) := h.forEach fun _ _ k => k.arbitrate

theorem finishLinks (h : HubMid allPaid p s) {n : Nat} : HubMid allPaid p (Machine.finishLinks n s) :=
  h.queueHopScans.settleTurns.arbitrateAll.orderCompletions

theorem finishEvent (h : HubMid allPaid p s) {n : Nat} : HubMid allPaid p (Machine.finishEvent n s) := h.settleCommit.finishLinks

end HubMid

end Sys2Proof.Machine
end

section
/-! PROOFS. What claims, notices, retirements and the course of a commit leave alone of the link engines (`calmLinks`), and what a claim to
STALE does to the hop maps. -/

namespace Sys2Proof.Machine

/-- A link engine with the queues of the commit, host and catch-up classes, the hop scans caused and the requester of the flight left
aside. -/
def LinkEngine.calm (e : LinkEngine) : LinkEngine :=
  { e with
    commitQ := [], hostQ := [], catchQ := [], followUp := false, caused := []
    flight := e.flight.map fun f => { f with txn := { f.txn with req := .gone } } }

/-- The links with that left aside. -/
def calmLinks (s : State) : Quad LinkEngine := s.links.map LinkEngine.calm

theorem calmLinks_get (s : State) (l : LinkId) : (calmLinks s).get l = (s.links.get l).calm := Quad.get_map ..

theorem calm_of_links {s s' : State} (h : calmLinks s' = calmLinks s) (l : LinkId) : (s'.links.get l).calm = (s.links.get l).calm := by
  rw [← calmLinks_get, ← calmLinks_get, h]

section Fields

variable {s s' : State} (h : calmLinks s' = calmLinks s) (l : LinkId)
include h

theorem calm_state : (s'.links.get l).state = (s.links.get l).state := (congrArg LinkEngine.state (calm_of_links h l) :)
theorem calm_hops : (s'.links.get l).hops = (s.links.get l).hops := (congrArg LinkEngine.hops (calm_of_links h l) :)
theorem calm_scan : (s'.links.get l).scan = (s.links.get l).scan := (congrArg LinkEngine.scan (calm_of_links h l) :)
theorem calm_scanQ : (s'.links.get l).scanQ = (s.links.get l).scanQ := (congrArg LinkEngine.scanQ (calm_of_links h l) :)
theorem calm_assigning : (s'.links.get l).assigning = (s.links.get l).assigning := (congrArg LinkEngine.assigning (calm_of_links h l) :)
theorem calm_entry (hop : Nat) : (s'.links.get l).entry hop = (s.links.get l).entry hop := by
  rw [LinkEngine.entry, calm_hops h]; rfl
theorem calm_idle (hf : (s.links.get l).flight = none) : (s'.links.get l).flight = none := by
  have := (congrArg LinkEngine.flight (calm_of_links h l) :)
  simpa [LinkEngine.calm, hf] using this

end Fields

/-! ### Engines -/

theorem dropFlight_calm (test : Txn → Bool) (e : LinkEngine) : (e.dropFlight test).calm = e.calm := by
  unfold LinkEngine.dropFlight
  split
  · rename_i f hf
    split
    · simp [LinkEngine.calm, hf]
    · rfl
  · rfl

theorem cause_calm (hop : Nat) (e : LinkEngine) : (e.cause hop).calm = e.calm := by unfold LinkEngine.cause; split <;> rfl

theorem notice_calm (test : HopEntry → Bool) (e : LinkEngine) : (e.notice test).calm = e.calm := by
  unfold LinkEngine.notice
  split
  · exact foldl_keeps LinkEngine.calm cause_calm
  · rfl
  · rfl

theorem modLink_calm {l : LinkId} {f : LinkEngine → LinkEngine} {s : State} (h : ∀ e, (f e).calm = e.calm) :
    calmLinks (modLink l f s) = calmLinks s := modify_keeps s.links l (h _)

theorem modLinks_calm {f : LinkEngine → LinkEngine} {s : State} (h : ∀ e, (f e).calm = e.calm) :
    calmLinks (modLinks f s) = calmLinks s := map_keeps s.links h

/-! ### Operations -/

@[simp] theorem modJobs_calm (l : LinkId) (f : List Job → List Job) (s : State) : calmLinks (modJobs l f s) = calmLinks s := rfl
@[simp] theorem modDir_calm (f : Directory → Directory) (s : State) : calmLinks (modDir f s) = calmLinks s := rfl
@[simp] theorem modPort_calm (f : HostPort → HostPort) (s : State) : calmLinks (modPort f s) = calmLinks s := rfl
@[simp] theorem modCommit_calm (f : CommitCtl → CommitCtl) (s : State) : calmLinks (modCommit f s) = calmLinks s := rfl

@[simp] theorem dropJobTxns_calm (ref : Ref) (s : State) : calmLinks (modLinks (LinkEngine.dropJobTxns ref) s) = calmLinks s :=
  modLinks_calm fun _ => dropFlight_calm _ _

@[simp] theorem removeJob_calm (ref : Ref) (s : State) : calmLinks (removeJob ref s) = calmLinks s :=
  (dropJobTxns_calm ref _).trans (forEach_keeps calmLinks fun _ _ => rfl)

@[simp] theorem endRunning_calm (st : Status) (t : Tag) (s : State) : calmLinks (endRunning st t s) = calmLinks s := by
  unfold endRunning; split <;> rfl

@[simp] theorem dropHostWaiting_calm (l : LinkId) (ref : Ref) (s : State) : calmLinks (dropHostWaiting l ref s) = calmLinks s :=
  (forEach_keeps calmLinks fun _ _ => endRunning_calm ..).trans (modLink_calm fun _ => rfl)

@[simp] theorem noticeHandle_calm (s : State) : calmLinks (noticeHandle s) = calmLinks s := modLinks_calm fun e => notice_calm _ e
@[simp] theorem noticeId_calm (u : Uid) (s : State) : calmLinks (noticeId u s) = calmLinks s := modLinks_calm fun e => notice_calm _ e

@[simp] theorem makeJob_calm (n : Nat) (s : State) : calmLinks (makeJob n s) = calmLinks s := by
  unfold makeJob; (repeat' split) <;> rfl

@[simp] theorem restartAllJobs_calm (s : State) : calmLinks (restartAllJobs s) = calmLinks s := by
  rw [restartAllJobs_eq]
  exact forEach_keeps calmLinks fun _ _ => dropJobTxns_calm ..

@[simp] theorem claimLagging_calm (n : Nat) (s : State) : calmLinks (claimLagging n s) = calmLinks s := by
  unfold claimLagging
  split
  · split
    · exact makeJob_calm ..
    · rfl
  · rfl

@[simp] theorem claimActive_calm (n : Nat) (s : State) : calmLinks (claimActive n s) = calmLinks s := by
  unfold claimActive
  split
  · split
    · exact removeJob_calm ..
    · rfl
  · rfl

@[simp] theorem retire_calm (n : Nat) (s : State) : calmLinks (retire n s) = calmLinks s := by
  unfold retire
  split
  · simp only [noticeId_calm, noticeHandle_calm, modPort_calm, modDir_calm, dropHostWaiting_calm, removeJob_calm]
    split <;> rfl
  · rfl

@[simp] theorem expireAll_calm (s : State) : calmLinks (expireAll s) = calmLinks s := forEach_keeps calmLinks retire_calm

/-- A handle is taken without the links taking note, but of an eviction. -/
theorem takeHandle_calm {s s' : State} {n : Nat} (h : takeHandle s = some (n, s')) : calmLinks s' = calmLinks s := by
  unfold takeHandle at h
  split at h
  · cases h; rfl
  · split at h
    · dsimp only at h
      split at h
      · cases h; exact retire_calm ..
      · cases h
    · cases h

@[simp] theorem queueCancel_calm (p : Participant) (s : State) : calmLinks (queueCancel p s) = calmLinks s := modLink_calm fun _ => rfl
@[simp] theorem setStatus_calm (ref : Ref) (st : PartStatus) (s : State) : calmLinks (setStatus ref st s) = calmLinks s := rfl

@[simp] theorem dropPrepares_calm (p : Participant) (s : State) : calmLinks (dropPrepares p s) = calmLinks s :=
  modLink_calm fun _ => dropFlight_calm _ _

@[simp] theorem exclude_calm (p : Participant) (s : State) : calmLinks (exclude p s) = calmLinks s := by
  unfold exclude
  dsimp only
  split
  · split <;> simp
  · simp

@[simp] theorem enterCancelling_calm (reason : CancelReason) (s : State) : calmLinks (enterCancelling reason s) = calmLinks s :=
  (forEach_keeps calmLinks queueCancel_calm).trans (modLinks_calm fun _ => dropFlight_calm _ _)

@[simp] theorem failParticipant_calm (p : Participant) (s : State) : calmLinks (failParticipant p s) = calmLinks s := by
  unfold failParticipant; split <;> simp

@[simp] theorem participantLost_calm (ref : Ref) (s : State) : calmLinks (participantLost ref s) = calmLinks s := by
  unfold participantLost
  split
  · rfl
  · rename_i x _
    have k : calmLinks (modLink x.loc.link (LinkEngine.dropCommit (fun t => t.req == .participant ref)) s) = calmLinks s :=
      modLink_calm fun _ => rfl
    dsimp only
    (repeat' split) <;> simp [k]

theorem unlistHop_entry (loc : Loc) (ref : Ref) (s : State) (i : LinkId) (hop : Nat) :
    ((unlistHop loc ref s).links.get i).entry hop
      = if loc = ⟨i, hop⟩ ∧ (s.links.get i).entry hop = .listed ref then .empty else (s.links.get i).entry hop := by
  rw [unlistHop, modLink_links, Quad.get_modify]
  by_cases hi : i = loc.link
  · subst hi
    rw [if_pos rfl]
    by_cases he : (s.links.get loc.link).entry loc.hop = .listed ref
    · have hlen : loc.hop < (s.links.get loc.link).hops.length := by
        by_contra hlen
        rw [LinkEngine.entry, List.getD_eq_default _ _ (by omega)] at he; cases he
      rw [if_pos he, EngineMid.entry_setEntry]
      by_cases hh : hop = loc.hop
      · subst hh; simp [hlen, he]
      · have : loc ≠ ⟨loc.link, hop⟩ := fun hl => hh (congrArg Loc.hop hl).symm
        simp [hh, this]
    · rw [if_neg he, if_neg]
      rintro ⟨hl, hx⟩
      rw [show hop = loc.hop from (congrArg Loc.hop hl).symm] at hx
      exact he hx
  · have : loc ≠ ⟨i, hop⟩ := by rintro rfl; exact hi rfl
    rw [if_neg hi, if_neg fun h => this h.1]

theorem unlistHop_congr {a b : State} (h : calmLinks a = calmLinks b) (loc : Loc) (ref : Ref) :
    calmLinks (unlistHop loc ref a) = calmLinks (unlistHop loc ref b) := by
  apply Quad.ext_get
  intro i
  have hi := calm_of_links h i
  rw [calmLinks_get, calmLinks_get]
  simp only [unlistHop, modLink_links, Quad.get_modify]
  split
  · rename_i hil
    subst hil
    rw [calm_entry h]
    split
    · exact (congrArg (fun e : LinkEngine => e.setEntry loc.hop .empty) hi :)
    · exact hi
  · exact hi

/-- A claim to STALE on a reachable record keeps the links but for the entry of its hop. -/
theorem claimStaleDir_calm {n : Nat} {why : StaleReason} {s : State} {r : Record} (hr : findRec s n = some r) (hs : r.state ≠ .stale) :
    calmLinks (claimStaleDir n why s) = calmLinks (unlistHop r.loc r.ref s) := by
  simp only [claimStaleDir, hr, if_neg hs]
  rw [noticeId_calm, raiseHandle, modPort_calm]
  refine unlistHop_congr ?_ _ _
  rw [dropHostWaiting_calm, removeJob_calm]
  rfl

/-- A claim to STALE on another record has no effect. -/
theorem claimStaleDir_idle {n : Nat} {why : StaleReason} {s : State} (h : ∀ r, findRec s n = some r → r.state = .stale) :
    claimStaleDir n why s = s := by
  unfold claimStaleDir
  split
  · rename_i r hr
    rw [if_pos (h r hr)]
  · rfl

/-- A claim to STALE lists nothing. -/
theorem listed_of_claimStaleDir {n : Nat} {why : StaleReason} {s : State} {l : LinkId} {hop : Nat} {ref : Ref}
    (h : ((claimStaleDir n why s).links.get l).entry hop = .listed ref) : (s.links.get l).entry hop = .listed ref := by
  by_cases hc : ∃ r, findRec s n = some r ∧ r.state ≠ .stale
  · obtain ⟨r, hr, hs⟩ := hc
    rw [calm_entry (claimStaleDir_calm hr hs), unlistHop_entry] at h
    split at h
    · cases h
    · exact h
  · push Not at hc
    rwa [claimStaleDir_idle hc] at h

theorem listed_of_claimStaleDirs {claims : List (Nat × StaleReason)} {s : State} {l : LinkId} {hop : Nat} {ref : Ref}
    (h : ((forEach claims (fun c => claimStaleDir c.1 c.2) s).links.get l).entry hop = .listed ref) :
    (s.links.get l).entry hop = .listed ref := by
  unfold forEach at h
  induction claims generalizing s with
  | nil => exact h
  | cons c cs ih => exact listed_of_claimStaleDir (ih h)

@[simp] theorem participantsLost_calm (refs : List Ref) (s : State) : calmLinks (forEach refs participantLost s) = calmLinks s :=
  forEach_keeps calmLinks participantLost_calm

theorem claimStaleAll_calm (claims : List (Nat × StaleReason)) (s : State) :
    calmLinks (claimStaleAll claims s) = calmLinks (forEach claims (fun c => claimStaleDir c.1 c.2) s) :=
  participantsLost_calm _ _

theorem listed_of_claimStaleAll {claims : List (Nat × StaleReason)} {s : State} {l : LinkId} {hop : Nat} {ref : Ref}
    (h : ((claimStaleAll claims s).links.get l).entry hop = .listed ref) : (s.links.get l).entry hop = .listed ref := by
  rw [calm_entry (claimStaleAll_calm claims s)] at h
  exact listed_of_claimStaleDirs h

namespace HubMid

variable {q : LinkDebts} {p : DirDebt} {s : State}

/-- A hop whose record is claimed lists nothing. -/
theorem unlisted_of_claim (h : HubMid q p s) (hg : p.ghosts = []) {n : Nat} {why : StaleReason} {l : LinkId} {hop : Nat} {ref : Ref}
    (he : ((Machine.claimStaleDir n why s).links.get l).entry hop = .listed ref) : ref.handle ≠ n := by
  rintro rfl
  have hbefore := listed_of_claimStaleDir he
  rcases h.dir.listed ⟨l, hop⟩ ref hbefore with hm | ⟨r, hr, rfl, hs, hl⟩
  · rw [hg] at hm; cases hm
  · have hfind : findRec s r.ref.handle = some r := by
      cases hf : findRec s r.ref.handle with
      | none => exact absurd rfl (ne_of_findRec hf hr)
      | some x =>
        obtain ⟨hx, hxr⟩ := mem_of_findRec hf
        rw [h.dir.eq_of_handle hx hr hxr]
    rw [calm_entry (claimStaleDir_calm hfind hs), unlistHop_entry, if_pos ⟨hl, hbefore⟩] at he
    cases he

theorem unlisted_of_claims (h : HubMid q p s) (hg : p.ghosts = []) {claims : List (Nat × StaleReason)} {l : LinkId} {hop : Nat}
    {ref : Ref} (he : ((Machine.claimStaleAll claims s).links.get l).entry hop = .listed ref) : ref.handle ∉ claims.map Prod.fst := by
  rw [calm_entry (claimStaleAll_calm claims s)] at he
  unfold Machine.forEach at he
  induction claims generalizing s p with
  | nil => simp
  | cons c cs ih =>
    simp only [List.map_cons, List.mem_cons, not_or]
    exact ⟨h.unlisted_of_claim hg (listed_of_claimStaleDirs he), ih (h.claimStaleDir (n := c.1) (why := c.2)) hg he⟩

end HubMid

end Sys2Proof.Machine
end

section
/-! PROOFS. Scan steps, assignments and roll calls within an event: what they do to the soundness of the links and the directory
(`HubMid`). -/

namespace Sys2Proof.Machine

open EngineMid (debtOf stepDebt)
open DirMid (atHandle KeepsPlace looseOf)

theorem owing_put (l : LinkId) (d d' : LinkDebt) : (fun i => if i = l then d' else owing l d i) = owing l d' := by
  funext i; unfold owing; split <;> rfl

theorem allPaid_put (l : LinkId) (d : LinkDebt) : (fun i => if i = l then d else allPaid i) = owing l d := rfl

theorem owing_pay (l : LinkId) (d : LinkDebt) : (fun i => if i = l then LinkDebt.none else owing l d i) = allPaid := by
  rw [owing_put, owing_none]

theorem chartsOf_modLink (l : LinkId) (f : LinkEngine → LinkEngine) (s : State) (i : LinkId) :
    chartsOf (modLink l f s) i = if i = l then ((f (s.links.get l)).hops, (f (s.links.get l)).assigning) else chartsOf s i := by
  unfold chartsOf
  rw [modLink_links, Quad.get_modify]
  split
  · rename_i hi; subst hi; rfl
  · rfl

theorem modLink_ite (l : LinkId) (c : LinkEngine → Prop) [DecidablePred c] (f : LinkEngine → LinkEngine) (s : State) :
    modLink l (fun e => if c e then f e else e) s = if c (s.links.get l) then modLink l f s else s := by
  split
  · rename_i hc
    have : (s.links.modify l fun e => if c e then f e else e) = s.links.modify l f := by
      rw [Quad.modify, if_pos hc]; rfl
    simp only [modLink, this]
  · rename_i hc
    have : (s.links.modify l fun e => if c e then f e else e) = s.links := by
      apply Quad.ext_get
      intro i
      rw [Quad.get_modify]
      split
      · rename_i hi; subst hi; rw [if_neg hc]
      · rfl
    simp only [modLink, this]

namespace EngineMid

variable {e : LinkEngine}

/-- While an ENUM_QUERY is owed its link has no assignment. -/
theorem assigning_none {full : Bool} {hop : Nat} {x : Option LinkState} (h : EngineMid (debtOf (enumTxn full hop) x) e) :
    e.assigning = none := by
  cases ha : e.assigning with
  | none => rfl
  | some a =>
    obtain ⟨qs, hq, -, -⟩ := h.steps
    rw [ha] at hq
    have := (List.cons.inj hq).1
    cases congrArg Txn.body this

theorem owed_hop {full : Bool} {hop : Nat} {x : Option LinkState} (h : EngineMid (debtOf (enumTxn full hop) x) e) : hop < 16 := by
  obtain ⟨qs, hq, hlt, -⟩ := h.steps
  rw [h.assigning_none] at hq
  match qs, hq, hlt with
  | q :: qs, hq, hlt =>
    have := congrArg Txn.dest (List.cons.inj hq).1
    have : hop = q.2 := by simpa [enumTxn] using this
    rw [this]; exact hlt q (by simp)

/-- A full step that is owed is one of a full scan in progress. -/
theorem scan_of_owed {ss : List Txn} {t : Txn} {x : Option LinkState} (h : EngineMid ⟨ss, [t], x, true⟩ e) (ht : t.isFullScan = true) :
    e.state = .scanning ∧ ∃ sc, e.scan = some sc := by
  have hs : e.state = .scanning := by
    by_contra hs
    have := h.fullStep (.inl hs) t (by simp)
    rw [ht] at this; cases this
  exact ⟨hs, Option.isSome_iff_exists.mp (h.scanning.mpr ⟨hs, rfl⟩)⟩

end EngineMid

namespace HubMid

variable {q : LinkDebts} {p : DirDebt} {s : State}

/-! ### Entries -/

/-- An operation on a link that changes its hop map or its assignment. -/
theorem modCharts (h : HubMid q p s) {p' : DirDebt} {l : LinkId} {d : LinkDebt} {f : LinkEngine → LinkEngine}
    (hf : EngineMid (q l) (s.links.get l) → EngineMid d (f (s.links.get l)))
    (hd : DirMid p s.dir (chartsOf s) → DirMid p' s.dir (chartsOf (Machine.modLink l f s))) :
    HubMid (fun i => if i = l then d else q i) p' (Machine.modLink l f s) where
  links i := by
    rw [modLink_links, Quad.get_modify]
    by_cases hi : i = l
    · subst hi; rw [if_pos rfl]; simp only [if_true]; exact hf (h.links i)
    · rw [if_neg hi]; simp only [if_neg hi]; exact h.links i
  dir := hd h.dir

/-- At a hop that lists nothing no reachable record stands. -/
theorem vacant (h : HubMid q p s) {l : LinkId} {hop : Nat} (he : ∀ ref, (s.links.get l).entry hop ≠ .listed ref) :
    ∀ r ∈ s.dir.records, r.loc = ⟨l, hop⟩ → r.state ≠ .stale → r.ref.handle ∈ p.missing := fun r hr hl hs =>
  (h.dir.reached r hr hs).resolve_right fun hc => by rw [hl] at hc; exact he _ hc

theorem setUnlisted (h : HubMid q p s) {l : LinkId} {hop : Nat} {why : Unlisted} (hu : (s.links.get l).isUp = true)
    (hvac : ∀ r ∈ s.dir.records, r.loc = ⟨l, hop⟩ → r.state ≠ .stale → r.ref.handle ∈ p.missing) :
    HubMid q { p with ghosts := p.ghosts.filter (fun g => g.1 != ⟨l, hop⟩) } (Machine.setUnlisted l hop why s) := by
  have k := h.clearHop (x := .unlisted why) (by simp) (.inl hu) hvac
  unfold Machine.setUnlisted
  dsimp only
  (repeat' split) <;> first | exact k | exact k.raiseLink

/-! ### The full scan -/

theorem countScan (h : HubMid q p s) {l : LinkId} {f : FullScan → FullScan} (hf : ∀ sc, (f sc).hop = sc.hop) :
    HubMid q p (Machine.countScan l f s) := h.modLink fun k => k.countScan hf

theorem mem_handlesFrom {e : LinkEngine} {r hop : Nat} {ref : Ref} (he : e.entry hop = .listed ref) (hr : r ≤ hop) :
    ref.handle ∈ handlesFrom e r := by
  have hget : e.hops[hop]? = some (.listed ref) := by
    rw [LinkEngine.entry, List.getD_eq_getElem?_getD] at he
    cases hx : e.hops[hop]? with
    | none => rw [hx] at he; cases he
    | some x => rw [hx] at he; exact congrArg some he
  refine List.mem_filterMap.mpr ⟨.listed ref, List.mem_of_getElem? (i := hop - r) ?_, rfl⟩
  rw [List.getElem?_drop, show r + (hop - r) = hop by omega]; exact hget

theorem completeRescan (h : HubMid q p s) {l : LinkId} {sc : FullScan} {n : Nat} : HubMid q p (Machine.completeRescan l sc n s) := by
  unfold Machine.completeRescan; split
  · exact h.complete
  · exact h

/-- The full scan whose step is owed ends with a reach. -/
theorem endScan {l : LinkId} {t : Txn} {x : Option LinkState} {r : Nat} (h : HubMid (owing l ⟨[], [t], x, true⟩) .none s)
    (ht : t.isFullScan = true) (hr : r ≤ 16) : HubMid allPaid .none (Machine.endScan l r s) := by
  have hl := h.links l
  rw [owing_self] at hl
  obtain ⟨-, sc, hsc⟩ := hl.scan_of_owed ht
  simp only [Machine.endScan, hsc]
  have k := h.claimStaleAll (claims := (handlesFrom (s.links.get l) r).map fun n => (n, .unreached)) (by rintro n ⟨⟩)
  have hgone : ∀ hop ref, r ≤ hop →
      ((Machine.claimStaleAll ((handlesFrom (s.links.get l) r).map fun n => (n, .unreached)) s).links.get l).entry hop ≠ .listed ref :=
    fun hop ref hle he => by
      refine h.unlisted_of_claims rfl he ?_
      rw [List.map_map]
      exact List.mem_map.mpr ⟨_, mem_handlesFrom (listed_of_claimStaleAll he) hle, rfl⟩
  generalize Machine.claimStaleAll ((handlesFrom (s.links.get l) r).map fun n => (n, .unreached)) s = s₁ at k hgone ⊢
  have k' := k.modCharts (l := l) (d := .none) (p' := .none) (f := fun e => { e with
      reach := r, hops := hopsBelow e.hops r, state := .running, lastRollEnd := s₁.now, rollMet := false, scan := none,
      followUp := false })
    (fun m => by
      rw [owing_self] at m
      obtain ⟨-, sc', hsc'⟩ := m.scan_of_owed ht
      exact m.endScan ht hsc' hr)
    (fun m => by
      have hentry : ∀ loc : Loc, (chartsOf (Machine.modLink l (fun e => { e with
          reach := r, hops := hopsBelow e.hops r, state := .running, lastRollEnd := s₁.now, rollMet := false, scan := none,
          followUp := false }) s₁)).entry loc
          = if loc.link = l ∧ r ≤ loc.hop then .empty else (chartsOf s₁).entry loc := fun loc => by
        rw [Charts.entry, chartsOf_modLink]
        by_cases hll : loc.link = l
        · rw [if_pos hll]
          show (hopsBelow _ r).getD _ _ = _
          rw [EngineMid.hopsBelow_getD]
          by_cases hlt : loc.hop < r
          · rw [if_pos hlt, if_neg (by omega), chartsOf_entry, hll]; rfl
          · rw [if_neg hlt, if_pos ⟨hll, by omega⟩]
        · rw [if_neg hll, if_neg fun hc => hll hc.1]; rfl
      refine m.emptied (fun loc => ?_) (fun x hx hs hne => ?_) (fun i => ?_) (fun i => ?_)
      · rw [hentry]; split
        · exact .inr rfl
        · exact .inl rfl
      · refine (m.reached x hx hs).resolve_right fun hc => ?_
        rw [hentry] at hne
        split at hne
        · rename_i hloc
          rw [chartsOf_entry, hloc.1] at hc
          exact hgone _ _ hloc.2 hc
        · exact hne rfl
      · rw [chartsOf_modLink]; split
        · rename_i hi; subst hi; rfl
        · rfl
      · rw [chartsOf_modLink]; split
        · rename_i hi
          have := m.lengths l
          simp only [chartsOf] at this
          simp [hopsBelow, this, Config.hopCount]; omega
        · exact m.lengths i)
  rw [owing_pay] at k'
  refine completeRescan ?_
  split
  · exact (k'.raiseLink.raiseLink).modLink (fun m => m.notice) (notice_charts _ _).1 (notice_charts _ _).2
  · exact k'.raiseLink.raiseLink

/-- The full scan whose step is owed goes on or ends. -/
theorem nextStep {l : LinkId} {t : Txn} {x : Option LinkState} (h : HubMid (owing l ⟨[], [t], x, true⟩) .none s)
    (ht : t.isFullScan = true) : HubMid allPaid .none (Machine.nextStep l s) := by
  have hl := h.links l
  rw [owing_self] at hl
  obtain ⟨-, sc, hsc⟩ := hl.scan_of_owed ht
  simp only [Machine.nextStep, hsc]
  split
  · rename_i hlt
    have := h.modLinkOwed (l := l) (d := .none) (f := fun e => { e with
      scan := some { sc with hop := sc.hop + 1 }, scanQ := e.scanQ ++ [enumTxn true (sc.hop + 1)] })
      (fun m => by rw [owing_self] at m; exact m.nextStep ht hsc hlt)
    rwa [owing_pay] at this
  · exact h.endScan ht (Nat.le_refl 16)

/-! ### Matching -/

/-- The state a link has while a scan step of a kind is owed. -/
def scanState (full : Bool) : LinkState := if full then .scanning else .running

theorem scanState_up (full : Bool) : scanState full = .scanning ∨ scanState full = .running := by cases full <;> simp [scanState]

/-- What is owed to a link between the end of an ENUM_QUERY and its matching. -/
abbrev owingEnum (l : LinkId) (full : Bool) (hop : Nat) : LinkDebts := owing l (debtOf (enumTxn full hop) (some (scanState full)))

theorem owed {l : LinkId} {d : LinkDebt} (h : HubMid (owing l d) p s) : EngineMid d (s.links.get l) := by
  have := h.links l
  rwa [owing_self] at this

theorem unowed {l i : LinkId} {d : LinkDebt} (h : HubMid (owing l d) p s) (hi : i ≠ l) : EngineMid .none (s.links.get i) := by
  have := h.links i
  rwa [owing, if_neg hi] at this

/-- The debt of a link is another. -/
theorem repay {l : LinkId} {d d' : LinkDebt} (h : HubMid (owing l d) p s) (hd : EngineMid d (s.links.get l) → EngineMid d' (s.links.get l)) :
    HubMid (owing l d') p s :=
  ⟨fun i => by
    by_cases hi : i = l
    · subst hi; rw [owing_self]; exact hd h.owed
    · rw [owing, if_neg hi]; exact h.unowed hi, h.dir⟩

/-- The debt of a link is paid. -/
theorem paid {l : LinkId} {d : LinkDebt} (h : HubMid (owing l d) p s) (hd : EngineMid d (s.links.get l) → EngineMid .none (s.links.get l)) :
    HubMid allPaid p s := by
  have := h.repay hd
  rwa [owing_none] at this

theorem eq_of_uid (h : HubMid q p s) {r x : Record} (hr : r ∈ s.dir.records) (hx : x ∈ s.dir.records) (he : r.uid = x.uid) : r = x :=
  List.inj_on_of_nodup_map (f := Record.uid) (List.pairwise_map.mpr h.dir.ids) hr hx he

theorem up_of_enum {l : LinkId} {full : Bool} {hop : Nat} (h : HubMid (owingEnum l full hop) p s) : (s.links.get l).isUp = true :=
  h.owed.up_of_known rfl (scanState_up full)

/-- The owed step starts an ASSIGN. -/
theorem startAssign {l : LinkId} {a : Assignment} (h : HubMid (owingEnum l a.full a.hop) { DirDebt.none with loose := looseOf a } s)
    (hent : ∀ ref, (s.links.get l).entry a.hop ≠ .listed ref) (hgen : a.kind = .assigningNew → a.ref.gen = s.dir.gen a.ref.handle)
    (hmarks : ∀ m ∈ s.dir.marks, m.uid ≠ a.info.uid) (hnew : a.kind = .assigningNew → ∀ r ∈ s.dir.records, r.uid ≠ a.info.uid)
    (hre : a.kind = .assigningRebind → ∀ r ∈ s.dir.records, r.uid = a.info.uid → r.ref = a.ref ∧ r.state = .stale) :
    HubMid allPaid .none (Machine.startAssign l a s) where
  links i := by
    rw [Machine.startAssign, modLink_links, modDir_links, Quad.get_modify]
    split
    · rename_i hil
      subst hil
      exact h.owed.startAssign h.owed.assigning_none rfl hent
    · rename_i hil
      exact h.unowed hil
  dir := by
    have hc := chartsOf_modLink l (fun e => { e with assigning := some a, scanQ := a.txn :: e.scanQ })
      (Machine.modDir (fun d => { d with marks := d.marks ++ [a.mark l] }) s)
    refine h.dir.addMark (l := l) (a := a) h.owed.assigning_none ?_ (fun i hi => ?_) (fun i => ?_) (ns := []) (by simp) hgen hmarks hnew hre
    · rw [Machine.startAssign, hc, if_pos rfl]
    · rw [Machine.startAssign, hc, if_neg hi]; rfl
    · rw [Machine.startAssign, hc]; split
      · rename_i hi; subst hi; rfl
      · rfl

theorem takeHandle (h : HubMid q p s) {n : Nat} {s' : State} (ht : Machine.takeHandle s = some (n, s')) :
    HubMid q { p with loose := n :: p.loose } s' := by
  unfold Machine.takeHandle at ht
  split at ht
  · rename_i hf
    cases ht
    exact h.modDir fun k => k.takeFree hf
  · split at ht
    · rename_i old rest _ hst
      have k : HubMid q p (Machine.retire old s) := h.retireStale fun r hr he => h.stale_of_listed (by rw [hst]; simp) hr he
      dsimp only at ht
      split at ht
      · rename_i hf
        cases ht
        exact k.modDir fun m => m.takeFree hf
      · cases ht
    · cases ht

theorem takeHandle_subset {n : Nat} {s' : State} (ht : Machine.takeHandle s = some (n, s')) :
    (∀ r ∈ s'.dir.records, r ∈ s.dir.records) ∧ s'.dir.marks = s.dir.marks := by
  unfold Machine.takeHandle at ht
  split at ht
  · cases ht; exact ⟨fun _ hr => hr, rfl⟩
  · split at ht
    · rename_i old rest _ _
      dsimp only at ht
      split at ht
      · cases ht
        refine ⟨fun r hr => retire_records_subset (n := old) hr, ?_⟩
        show (Machine.retire old s).dir.marks = _
        cases hr : findRec s old with
        | none => rw [retire_of_none hr]
        | some r => rw [retire_dir hr]
      · cases ht
    · cases ht

/-- No mark has an ID that the index knows neither marked elsewhere nor, for a link with no assignment, at the place itself. -/
theorem unmarked {l : LinkId} {hop : Nat} {u : Uid} (h : HubMid q p s) (ha : (s.links.get l).assigning = none)
    (hany : ¬ s.dir.marks.any (fun m => m.uid == u && m.loc != ⟨l, hop⟩) = true) : ∀ m ∈ s.dir.marks, m.uid ≠ u := fun m hm hu => by
  by_cases hl : m.loc = ⟨l, hop⟩
  · obtain ⟨b, hb, -⟩ := h.dir.mark_of_link hm (l := l) (by rw [hl])
    rw [show (chartsOf s l).2 = (s.links.get l).assigning from rfl, ha] at hb; cases hb
  · exact hany (List.any_eq_true.mpr ⟨m, hm, by simp [hu, hl]⟩)

/-- The answer of an ENUM_QUERY is matched: its step is owed still, or an assignment is in progress. -/
theorem matchReply {l : LinkId} {full : Bool} {hop : Nat} (h : HubMid (owingEnum l full hop) .none s)
    (hent : ∀ ref, (s.links.get l).entry hop ≠ .listed ref) (reply : Option EnumInfo) :
    HubMid (owingEnum l full hop) .none (Machine.matchReply l hop full reply s)
      ∨ (HubMid allPaid .none (Machine.matchReply l hop full reply s)
          ∧ ((Machine.matchReply l hop full reply s).links.get l).assigning.isSome = true) := by
  have ha := h.owed.assigning_none
  have unlist : ∀ {s' : State} (why : Unlisted), HubMid (owingEnum l full hop) .none s' → (∀ ref, (s'.links.get l).entry hop ≠ .listed ref) →
      HubMid (owingEnum l full hop) .none (Machine.setUnlisted l hop why s') := fun why k he => k.setUnlisted k.up_of_enum (k.vacant he)
  have starts : ∀ {s' : State} (a : Assignment), ((Machine.startAssign l a s').links.get l).assigning.isSome = true := fun a => by
    rw [Machine.startAssign, modLink_links, Quad.get_modify_self]; rfl
  unfold Machine.matchReply
  split
  · exact .inl (unlist _ h hent)
  · rename_i info
    split
    · exact .inl (unlist _ h hent)
    · unfold askIndex
      split
      · rename_i hidx
        split at hidx
        · exact .inl (unlist _ h hent)
        · split at hidx <;> cases hidx
      · rename_i r hidx
        split at hidx
        · cases hidx
        · rename_i hany
          split at hidx
          · rename_i x hx
            cases hidx
            obtain ⟨hmem, hu⟩ := mem_of_findUid hx
            split
            · split
              · exact .inl h
              · exact .inl (unlist _ h hent).raiseHandle
            · rename_i hreach
              have hstale : r.state = .stale := by simpa [Record.reachable] using hreach
              refine .inr ⟨startAssign (a := { hop := hop, kind := .assigningRebind, ref := r.ref, info := info, full := full })
                h hent (by rintro ⟨⟩) (h.unmarked ha hany) (by rintro ⟨⟩) (fun _ x hx hxu => ?_), starts _⟩
              rw [h.eq_of_uid hx hmem (hxu.trans hu.symm)]
              exact ⟨rfl, hstale⟩
          · cases hidx
      · rename_i hidx
        split at hidx
        · cases hidx
        · rename_i hany
          split at hidx
          · cases hidx
          · rename_i hnone
            split
            · rename_i n s' ht
              obtain ⟨hsub, hm⟩ := takeHandle_subset ht
              refine .inr ⟨startAssign (a := { hop := hop, kind := .assigningNew, ref := ⟨n, genOf s' n⟩, info := info, full := full })
                (h.takeHandle ht) (fun ref => by rw [calm_entry (takeHandle_calm ht)]; exact hent ref) (fun _ => rfl)
                (by rw [hm]; exact h.unmarked ha hany) (fun _ r hr => ne_of_findUid hnone (hsub r hr)) (by rintro ⟨⟩), starts _⟩
            · exact .inl (unlist _ h hent)

/-- A step whose matching is over: the full scan goes on unless an ASSIGN is to end first. -/
theorem stepMatched {l : LinkId} {full : Bool} {hop : Nat}
    (h : HubMid (owingEnum l full hop) .none s ∨ (HubMid allPaid .none s ∧ (s.links.get l).assigning.isSome = true)) :
    HubMid allPaid .none (Machine.stepMatched l full s) := by
  unfold Machine.stepMatched
  rcases h with h | ⟨h, ha⟩
  · have ha := h.owed.assigning_none
    have k := h.repay fun m => m.payStep ha
    split
    · rename_i hc
      obtain rfl := hc.1
      exact k.nextStep (isFullScan_enumTxn true hop)
    · rename_i hc
      have hfull : full = false := by
        cases full
        · rfl
        · exact absurd ⟨rfl, by simp [ha]⟩ hc
      subst hfull
      exact k.paid fun m => (m.payFull (isFullScan_enumTxn false hop)).forget
  · rw [if_neg (by rintro ⟨-, hn⟩; rw [Option.isNone_iff_eq_none] at hn; rw [hn] at ha; cases ha)]
    exact h

/-! ### The end of an ENUM_QUERY -/

/-- The record of a hop is claimed and the hop EMPTY. -/
theorem claimHop (h : HubMid q .none s) {l : LinkId} {hop : Nat} {ref : Ref} {why : StaleReason}
    (he : (s.links.get l).entry hop = .listed ref) :
    HubMid q .none (Machine.setHop l hop .empty (Machine.claimStale ref.handle why s)) := by
  have k : HubMid q .none (Machine.claimStale ref.handle why s) := h.claimStaleAll (by rintro n ⟨⟩)
  refine k.clearHop (by simp) (.inr rfl) (k.vacant fun ref' he' => ?_)
  have hbefore : (s.links.get l).entry hop = .listed ref' := listed_of_claimStaleAll he'
  rw [he] at hbefore
  cases hbefore
  exact h.unlisted_of_claims rfl he' (by simp)

theorem entry_setHop_empty (l : LinkId) (hop : Nat) (s : State) (ref : Ref) :
    ((Machine.setHop l hop .empty s).links.get l).entry hop ≠ .listed ref := by
  rw [setHop_links, if_pos rfl, EngineMid.entry_setEntry]
  split
  · simp
  · rename_i hlt
    rw [LinkEngine.entry, List.getD_eq_default _ _ (by simpa using hlt)]
    simp

/-- An ENUM_QUERY ends with a reply. -/
theorem enumReplied {l : LinkId} {full : Bool} {hop : Nat} (h : HubMid (owingEnum l full hop) .none s) (st : TileStatus)
    (reply : ReplyBody) : HubMid allPaid .none (Machine.enumReplied l hop full st reply s) := by
  have lost : ∀ {ref : Ref} (info : Option EnumInfo), (s.links.get l).entry hop = .listed ref →
      HubMid allPaid .none (Machine.stepMatched l full (Machine.matchReply l hop full info
        (if full then Machine.countScan l (fun sc => { sc with claimed := sc.claimed + 1 })
            (Machine.setHop l hop .empty (Machine.claimStale ref.handle .replaced s))
          else Machine.setHop l hop .empty (Machine.claimStale ref.handle .replaced s)))) := @fun ref info he => by
    have k := h.claimHop (why := .replaced) he
    have hent := entry_setHop_empty l hop (Machine.claimStale ref.handle .replaced s)
    generalize Machine.setHop l hop .empty (Machine.claimStale ref.handle .replaced s) = s₁ at k hent ⊢
    have k' : HubMid (owingEnum l full hop) .none (Machine.countScan l (fun sc => { sc with claimed := sc.claimed + 1 }) s₁) :=
      k.countScan fun _ => rfl
    have hent' : ∀ ref, ((Machine.countScan l (fun sc => { sc with claimed := sc.claimed + 1 }) s₁).links.get l).entry hop ≠ .listed ref :=
      fun ref => by rw [Machine.countScan, modLink_links, Quad.get_modify_self]; exact hent ref
    cases full
    · exact stepMatched (k.matchReply hent info)
    · exact stepMatched (k'.matchReply hent' info)
  unfold Machine.enumReplied
  dsimp only
  split
  · rename_i ref he
    split
    · split
      · refine stepMatched (hop := hop) (.inl ?_)
        split
        · exact h.updRec fun _ => ⟨rfl, rfl, rfl, rfl, .rfl⟩
        · exact h
      · exact lost _ he
    · exact lost _ he
  · rename_i hne
    exact stepMatched (h.matchReply (fun ref hr => hne ref hr) _)

/-- An ENUM_QUERY ends with NO_REPLY. -/
theorem enumNoReply {l : LinkId} {full : Bool} {hop : Nat} (h : HubMid (owingEnum l full hop) .none s) :
    HubMid allPaid .none (Machine.enumNoReply l hop full s) := by
  have ha := h.owed.assigning_none
  have hhop := h.owed.owed_hop
  have hup := h.up_of_enum
  have k := h.repay fun m => m.payStep ha
  unfold Machine.enumNoReply
  split
  · rename_i hfull
    subst hfull
    exact k.endScan (isFullScan_enumTxn true hop) (Nat.le_of_lt hhop)
  · rename_i hfull
    rw [Bool.not_eq_true] at hfull
    subst hfull
    have m := k.paid fun m => (m.payFull (isFullScan_enumTxn false hop)).forget
    rw [← modLink_modLink, modLink_ite]
    have roll : ∀ {s' : State}, HubMid allPaid .none s' → (s'.links.get l).isUp = true →
        HubMid allPaid .none (Machine.modLink l LinkEngine.forceRollCall s') := fun k hu =>
      k.modLink (fun m => m.forceRollCall hu) (forceRollCall_charts _).1 (forceRollCall_charts _).2
    split
    · rename_i hun
      refine roll (m.clearHop (x := .empty) (by simp) (.inr rfl) (m.vacant fun ref he => ?_)) ?_
      · rw [he] at hun; cases hun
      · show ((Machine.setHop l hop .empty s).links.get l).isUp = true
        rw [setHop_links, if_pos rfl]; exact hup
    · exact roll m hup

end HubMid

end Sys2Proof.Machine
end

section
/-! PROOFS. The ends of ASSIGNs within an event: what they do to the soundness of the links and the directory (`HubMid`). -/

namespace Sys2Proof.Machine

open EngineMid (debtOf stepDebt)
open DirMid (atHandle KeepsPlace looseOf)

/-! ### What ends of ASSIGNs do to the assignment of the link -/

theorem setHop_assigning (l : LinkId) (hop : Nat) (x : HopEntry) (s : State) (i : LinkId) :
    ((setHop l hop x s).links.get i).assigning = (s.links.get i).assigning := by
  rw [HubMid.setHop_links]; split
  · rename_i hi; subst hi; rfl
  · rfl

theorem setUnlisted_links (l : LinkId) (hop : Nat) (why : Unlisted) (s : State) :
    (setUnlisted l hop why s).links = (setHop l hop (.unlisted why) s).links := by
  unfold setUnlisted
  dsimp only
  (repeat' split) <;> rfl

theorem setUnlisted_assigning (l : LinkId) (hop : Nat) (why : Unlisted) (s : State) (i : LinkId) :
    ((setUnlisted l hop why s).links.get i).assigning = (s.links.get i).assigning := by
  rw [setUnlisted_links]; exact setHop_assigning ..

theorem setUnlisted_up (l : LinkId) (hop : Nat) (why : Unlisted) (s : State) (i : LinkId) :
    ((setUnlisted l hop why s).links.get i).isUp = (s.links.get i).isUp := by
  rw [setUnlisted_links, HubMid.setHop_links]; split
  · rename_i hi; subst hi; rfl
  · rfl

theorem countScan_assigning (l : LinkId) (f : FullScan → FullScan) (s : State) (i : LinkId) :
    ((countScan l f s).links.get i).assigning = (s.links.get i).assigning := by
  rw [countScan, modLink_links, Quad.get_modify]; split
  · rename_i hi; subst hi; rfl
  · rfl

theorem createRecord_assigning (ref : Ref) (info : EnumInfo) (loc : Loc) (s : State) (i : LinkId) :
    ((createRecord ref info loc s).links.get i).assigning = (s.links.get i).assigning := by
  rw [createRecord, calm_assigning (makeJob_calm ..)]
  exact setHop_assigning ..

theorem rebind_assigning (r : Record) (info : EnumInfo) (loc : Loc) (s : State) (i : LinkId) :
    ((rebind r info loc s).links.get i).assigning = (s.links.get i).assigning := by
  rw [rebind, calm_assigning (makeJob_calm ..), setHop_assigning]
  split <;> rfl

theorem assignOk_assigning (l : LinkId) (a : Assignment) (s : State) : ((assignOk l a s).links.get l).assigning = none := by
  unfold assignOk
  dsimp only
  split
  · split
    · rw [countScan_assigning, createRecord_assigning, modLink_links, Quad.get_modify_self]
    · rw [createRecord_assigning, modLink_links, Quad.get_modify_self]
  · split
    · split
      · rw [countScan_assigning, rebind_assigning, modLink_links, Quad.get_modify_self]
      · rw [rebind_assigning, modLink_links, Quad.get_modify_self]
    · rw [modLink_links, Quad.get_modify_self]
      show ((setUnlisted l a.hop .retired _).links.get l).assigning = none
      rw [setUnlisted_assigning, modLink_links, Quad.get_modify_self]

theorem dropAssignment_assigning (l : LinkId) (a : Assignment) (s : State) : ((dropAssignment l a s).links.get l).assigning = none := by
  unfold dropAssignment
  dsimp only
  split
  · rw [calm_assigning (noticeId_calm ..), calm_assigning (noticeHandle_calm ..)]
    show ((modLink l _ _).links.get l).assigning = none
    rw [modLink_links, Quad.get_modify_self]
  · rw [calm_assigning (noticeId_calm ..), modLink_links, Quad.get_modify_self]

namespace HubMid

variable {q : LinkDebts} {p : DirDebt} {s : State}

/-! ### Assignments that are over -/

/-- What is owed to a link when the ASSIGN of its assignment has ended. -/
abbrev owingAssign (l : LinkId) (a : Assignment) (x : LinkState) : LinkDebts := owing l ⟨[a.txn], [a.txn], some x, true⟩

/-- The handle of an abandoned assignment returns, and its ID is released. -/
theorem dropAssignment_of {l : LinkId} {a : Assignment}
    (h : HubMid q { p with loose := looseOf a ++ p.loose } (Machine.modLink l (fun e => { e with assigning := none }) (removeMark ⟨l, a.hop⟩ s))) :
    HubMid q p (Machine.dropAssignment l a s) := by
  unfold Machine.dropAssignment
  dsimp only
  split
  · rename_i hk
    rw [looseOf, if_pos hk] at h
    have k : HubMid q p (returnHandle a.ref.handle
        (Machine.modLink l (fun e => { e with assigning := none }) (removeMark ⟨l, a.hop⟩ s))) :=
      h.modDir (p' := p) fun m => m.returnHandle (n := a.ref.handle) (ns := p.loose) rfl
    exact k.noticeHandle.noticeId
  · rename_i hk
    rw [looseOf, if_neg (by rw [hk]; simp)] at h
    exact h.noticeId

/-- An assignment whose ASSIGN is owed is over. -/
theorem endAssignment {l : LinkId} {a : Assignment} {fs : List Txn} {x : Option LinkState} {b : Bool}
    (h : HubMid (owing l ⟨[a.txn], fs, x, b⟩) p s) (ha : (s.links.get l).assigning = some a) :
    HubMid (owing l ⟨[], fs, x, b⟩) { p with loose := looseOf a ++ p.loose }
      (Machine.modLink l (fun e => { e with assigning := none }) (removeMark ⟨l, a.hop⟩ s)) where
  links i := by
    rw [modLink_links, removeMark, modDir_links, Quad.get_modify]
    split
    · rename_i hi
      subst hi
      rw [owing_self]
      exact h.owed.dropAssigning ha
    · rename_i hi
      rw [owing, if_neg hi]
      exact h.unowed hi
  dir := by
    have hc := chartsOf_modLink l (fun e => { e with assigning := none }) (removeMark ⟨l, a.hop⟩ s)
    refine h.dir.dropMark (l := l) (a := a) ha ?_ (fun i hi => ?_) (fun i => ?_)
    · rw [hc, if_pos rfl]
    · rw [hc, if_neg hi]; rfl
    · rw [hc]; split
      · rename_i hi; subst hi; rfl
      · rfl

theorem dropAssignment {l : LinkId} {a : Assignment} {fs : List Txn} {x : Option LinkState} {b : Bool}
    (h : HubMid (owing l ⟨[a.txn], fs, x, b⟩) p s) (ha : (s.links.get l).assigning = some a) :
    HubMid (owing l ⟨[], fs, x, b⟩) p (Machine.dropAssignment l a s) := dropAssignment_of (h.endAssignment ha)

/-- A hop lists a record of which the directory says so. -/
theorem listHop {l : LinkId} {d : LinkDebt} {hop : Nat} {ref : Ref} {p' : DirDebt} {s' : State} (h : HubMid (owing l d) p s)
    (hlinks : s'.links = s.links) (hu : (s.links.get l).isUp = true) (ha : (s.links.get l).assigning = none) (hhop : hop < 16)
    (hd : ∀ c : Charts, (∀ x, x ≠ ⟨l, hop⟩ → c.entry x = (chartsOf s).entry x) → c.entry ⟨l, hop⟩ = .listed ref →
      (∀ i, (c i).2 = (chartsOf s i).2) → (∀ i, (c i).1.length = 16) → DirMid p' s'.dir c) :
    HubMid (owing l d) p' (Machine.setHop l hop (.listed ref) s') where
  links i := by
    rw [setHop_links, hlinks]
    split
    · rename_i hi
      subst hi
      rw [owing_self]
      exact h.owed.listEntry hu ha
    · exact h.links i
  dir := by
    have hcharts : chartsOf s' = chartsOf s := by unfold chartsOf; rw [hlinks]
    have hlen : hop < (s'.links.get l).hops.length := by
      have := h.dir.lengths l
      rw [hlinks, show (s.links.get l).hops.length = 16 from this]
      exact hhop
    refine hd _ (fun x hx => ?_) ?_ (fun i => ?_) (fun i => ?_)
    · rw [setHop_entry, if_neg fun hc => hx hc.1, hcharts]
    · rw [setHop_entry, if_pos ⟨rfl, hlen⟩]
    · show ((Machine.setHop l hop (.listed ref) s').links.get i).assigning = _
      rw [setHop_assigning, hlinks]; rfl
    · rw [Machine.setHop, chartsOf_modLink]; split
      · rename_i hi
        show ((s'.links.get l).hops.set hop _).length = 16
        rw [List.length_set, hlinks]; exact h.dir.lengths l
      · rw [hcharts]; exact h.dir.lengths i

/-- The ID of an assignment has no other mark. -/
theorem mark_unique (h : HubMid q p s) {l : LinkId} {a : Assignment} (ha : (s.links.get l).assigning = some a) :
    ∀ m ∈ s.dir.marks.filter (fun m => m.loc != ⟨l, a.hop⟩), m.uid ≠ a.info.uid := fun m hm hu => by
  obtain ⟨hm, hl⟩ := List.mem_filter.mp hm
  have := List.inj_on_of_nodup_map (f := Mark.uid) (List.pairwise_map.mpr h.dir.markIds) hm (h.dir.mark_mem ha) hu
  rw [this] at hl
  simp [Assignment.mark] at hl

/-- The assignment of an ASSIGN that ended OK is over, and an ASSIGN of handle 0 for its hop waits no more. -/
theorem endAssigned {l : LinkId} {a : Assignment} {fs : List Txn} {x : Option LinkState} {b : Bool}
    (h : HubMid (owing l ⟨[a.txn], fs, x, b⟩) p s) (ha : (s.links.get l).assigning = some a) :
    HubMid (owing l ⟨[], fs, x, b⟩) { p with loose := looseOf a ++ p.loose }
      (Machine.modLink l (fun e => { e with assigning := none, scanQ := e.scanQ.filter (fun t => t != clearTxn a.hop) })
        (removeMark ⟨l, a.hop⟩ s)) := by
  have k := (h.endAssignment ha).modLink (l := l) (f := fun e => { e with scanQ := e.scanQ.filter (fun t => t != clearTxn a.hop) })
    fun m => m.filterClear a.hop
  rwa [modLink_modLink] at k

/-- The ASSIGN of a scan step ends OK. -/
theorem assignOk {l : LinkId} {a : Assignment} {x : LinkState} (h : HubMid (owingAssign l a x) .none s)
    (ha : (s.links.get l).assigning = some a) : HubMid (owing l ⟨[], [a.txn], some x, true⟩) .none (Machine.assignOk l a s) := by
  have hup := h.owed.up_of_assigning ha
  obtain ⟨hhop, hent⟩ := h.owed.assigned a ha
  have hmark := h.dir.mark_mem (l := l) ha
  have hother := h.mark_unique ha
  have k := h.endAssigned ha
  have hup' : ((Machine.modLink l (fun e => { e with assigning := none, scanQ := e.scanQ.filter (fun t => t != clearTxn a.hop) })
      (removeMark ⟨l, a.hop⟩ s)).links.get l).isUp = true := by rw [modLink_links, Quad.get_modify_self]; exact hup
  have hnone : ((Machine.modLink l (fun e => { e with assigning := none, scanQ := e.scanQ.filter (fun t => t != clearTxn a.hop) })
      (removeMark ⟨l, a.hop⟩ s)).links.get l).assigning = none := by rw [modLink_links, Quad.get_modify_self]
  have hent' : ∀ ref, ((Machine.modLink l (fun e => { e with assigning := none, scanQ := e.scanQ.filter (fun t => t != clearTxn a.hop) })
      (removeMark ⟨l, a.hop⟩ s)).links.get l).entry a.hop ≠ .listed ref := fun ref => by
    rw [modLink_links, Quad.get_modify_self]; exact hent ref
  have hdir : (Machine.modLink l (fun e => { e with assigning := none, scanQ := e.scanQ.filter (fun t => t != clearTxn a.hop) })
      (removeMark ⟨l, a.hop⟩ s)).dir = { s.dir with marks := s.dir.marks.filter (fun m => m.loc != ⟨l, a.hop⟩) } := rfl
  unfold Machine.assignOk
  dsimp only
  generalize Machine.modLink l (fun e => { e with assigning := none, scanQ := e.scanQ.filter (fun t => t != clearTxn a.hop) })
      (removeMark ⟨l, a.hop⟩ s) = s₁ at k hup' hnone hent' hdir ⊢
  split
  · rename_i hk
    have made : HubMid (owing l ⟨[], [a.txn], some x, true⟩) .none (createRecord a.ref a.info ⟨l, a.hop⟩ s₁) := by
      refine ((k.listHop (s' := Machine.modDir (fun d => { d with records := insertRec (newRecord a.ref a.info ⟨l, a.hop⟩) d.records }) s₁)
        rfl hup' hnone hhop fun c h1 h2 h3 h4 => ?_).raiseHandle).makeJob
      refine k.dir.insert (r := newRecord a.ref a.info ⟨l, a.hop⟩) (ns := []) ?_ ?_ ?_ ?_ (by simp [newRecord]) rfl hhop hent' h1 h2 h3 h4 rfl
      · simp [looseOf, hk, newRecord, DirDebt.none]
      · rw [hdir]; exact h.dir.markGens _ hmark hk
      · rw [hdir]; exact h.dir.newIds _ hmark hk
      · rw [hdir]; exact hother
    split
    · exact made.countScan fun _ => rfl
    · exact made
  · rename_i hk
    have k : HubMid (owing l ⟨[], [a.txn], some x, true⟩) .none s₁ := by
      rwa [looseOf, if_neg (by rw [hk]; simp)] at k
    split
    · rename_i r hr
      have hmem : r ∈ s₁.dir.records := List.mem_of_find?_eq_some hr
      have hfound := List.find?_some hr
      simp only [Bool.and_eq_true, beq_iff_eq] at hfound
      have hstale : r.state = .stale := (h.dir.rebindIds _ hmark hk r (by rw [hdir] at hmem; exact hmem) hfound.2).2
      have made : HubMid (owing l ⟨[], [a.txn], some x, true⟩) .none (Machine.rebind r a.info ⟨l, a.hop⟩ s₁) := by
        refine (k.listHop (l := l) (hop := a.hop) (ref := r.ref) (p' := .none) ?_ hup' hnone hhop fun c h1 h2 h3 h4 => ?_).makeJob
        · split <;> rfl
        · have := k.dir.rebound (c' := c) (f := fun x => { x with
              state := .joining, stale := none, loc := ⟨l, a.hop⟩, model := a.info.model, capacity := a.info.capacity, miss := 0 })
            hmem hstale (fun x => ⟨rfl, rfl, rfl, rfl, by simp⟩) (by rw [hdir, hfound.2]; exact hother) hhop hent' h1 h2 h3 h4 rfl
          split <;> exact this
      split
      · exact made.countScan fun _ => rfl
      · exact made
    · exact (k.setUnlisted hup' (k.vacant hent')).modLink (f := fun e => { e with scanQ := e.scanQ ++ [clearTxn a.hop] })
        fun m => m.queueClear ((setUnlisted_up ..).trans hup') a.hop

/-- The ASSIGN of a scan step fails. -/
theorem assignFailed {l : LinkId} {a : Assignment} {x : LinkState} (h : HubMid (owingAssign l a x) .none s)
    (ha : (s.links.get l).assigning = some a) : HubMid (owing l ⟨[], [a.txn], some x, true⟩) .none (Machine.assignFailed l a s) :=
  (h.setUnlisted (h.owed.up_of_assigning ha) (h.vacant (h.owed.assigned a ha).2)).dropAssignment
    ((setUnlisted_assigning ..).trans ha)

/-- The ASSIGN of a scan step ends. -/
theorem assignEnded {l : LinkId} {a : Assignment} {x : LinkState} {ok : Bool} (h : HubMid (owingAssign l a x) .none s)
    (ha : (s.links.get l).assigning = some a) : HubMid allPaid .none (Machine.assignEnded l ok s) := by
  have finish : ∀ {s' : State}, HubMid (owing l ⟨[], [a.txn], some x, true⟩) .none s' → (s'.links.get l).assigning = none →
      HubMid allPaid .none (Machine.stepMatched l a.full s') := fun k hn => by
    unfold Machine.stepMatched
    split
    · rename_i hc
      exact k.nextStep (by simpa using hc.1)
    · rename_i hc
      have hfull : a.full = false := by
        by_contra hf
        exact hc ⟨by simpa using hf, by rw [hn]; rfl⟩
      exact k.paid fun m => (m.payFull (by simpa using hfull)).forget
  simp only [Machine.assignEnded, ha]
  split
  · exact finish (h.assignOk ha) (assignOk_assigning ..)
  · exact finish (h.assignFailed ha) (dropAssignment_assigning ..)

end HubMid

end Sys2Proof.Machine
end

section
/-! PROOFS. Roll calls, the requesters of transactions, attempts and broadcasts within an event: what they do to the soundness of the
links and the directory (`HubMid`). -/

namespace Sys2Proof.Machine

open EngineMid (debtOf stepDebt debtOf_other)
open DirMid (atHandle KeepsPlace looseOf)

/-- A good reply to a roll call holds at most 16 entries. -/
theorem length_of_rollReply {b : Body} {seq : Nat} {bytes : List Byte} {st : TileStatus} {es : List RollEntry}
    (h : judgeReply b seq bytes = .good st (.roll es)) : es.length ≤ 16 := by
  have hp : ∀ payload, replyPayload b st payload = some (.roll es) → es.length ≤ 16 := fun payload hp => by
    unfold replyPayload at hp
    split at hp <;> try cases hp
    split at hp
    · split at hp
      · rename_i hc
        cases hp
        rw [hc.1]; exact hc.2
      · cases hp
    · cases hp
  unfold judgeReply at h
  dsimp only at h
  split at h
  · cases h
  · split at h
    · split at h
      · split at h
        · split at h
          · rename_i st' _ body hb
            split at h
            · cases h; exact hp _ hb
            · cases h
          · cases h
        · cases h
      · cases h
    · cases h

theorem cause_charts (hop : Nat) (e : LinkEngine) : (e.cause hop).hops = e.hops ∧ (e.cause hop).assigning = e.assigning := by
  unfold LinkEngine.cause; split <;> exact ⟨rfl, rfl⟩

/-! ### What keeps the link engines but for what waits in them -/

theorem claimStaleDir_state (n : Nat) (why : StaleReason) (s : State) (l : LinkId) :
    ((claimStaleDir n why s).links.get l).state = (s.links.get l).state := by
  by_cases hc : ∃ r, findRec s n = some r ∧ r.state ≠ .stale
  · obtain ⟨r, hr, hs⟩ := hc
    rw [calm_state (claimStaleDir_calm hr hs), unlistHop, modLink_links, Quad.get_modify]
    split
    · rename_i hi
      subst hi
      split <;> rfl
    · rfl
  · push Not at hc
    rw [claimStaleDir_idle hc]

theorem claimStaleAll_state (claims : List (Nat × StaleReason)) (s : State) (l : LinkId) :
    ((claimStaleAll claims s).links.get l).state = (s.links.get l).state := by
  rw [calm_state (claimStaleAll_calm claims s)]
  exact forEach_keeps (fun s : State => (s.links.get l).state) fun c s => claimStaleDir_state c.1 c.2 s l

theorem makeLagging_calm (ref : Ref) (s : State) : calmLinks (makeLagging ref s) = calmLinks s := by
  rw [makeLagging, claimLagging_calm, setStatus_calm]

theorem participantNoReply_calm (ref : Ref) (b : Body) (limit : Bool) (s : State) :
    calmLinks (participantNoReply ref b limit s) = calmLinks s := by
  unfold participantNoReply
  (repeat' split) <;> simp [makeLagging_calm]

namespace HubMid

variable {q : LinkDebts} {p : DirDebt} {s : State}

/-! ### Roll calls -/

theorem rollScan (h : HubMid q p s) {l : LinkId} {hop : Nat} (hh : hop < 16) : HubMid q p (Machine.rollScan l hop s) := by
  rw [Machine.rollScan, modLink_ite]
  split
  · rename_i hs
    exact h.modLink (fun k => k.cause hh hs) (cause_charts _ _).1 (cause_charts _ _).2
  · exact h

theorem rollHop (h : HubMid q .none s) {l : LinkId} {entries : List RollEntry} {hop : Nat} (hh : hop < 16) :
    HubMid q .none (Machine.rollHop l entries hop s) := by
  unfold Machine.rollHop
  split
  · exact h
  · split
    · split
      · exact h.updRec fun _ => ⟨rfl, rfl, rfl, rfl, .rfl⟩
      · rename_i he _ _
        exact (h.claimHop he).rollScan hh
    · rename_i he _
      exact h.claimHop he
    · exact h.rollScan hh
    · exact h
    · exact h
    · rename_i he _
      exact h.clearHop (by simp) (.inr rfl) (h.vacant fun ref hc => by rw [he] at hc; cases hc)

theorem processRollCall (h : HubMid q .none s) {l : LinkId} {entries : List RollEntry} (hu : (s.links.get l).isUp = true)
    (hn : entries.length ≤ 16) : HubMid q .none (Machine.processRollCall l entries s) := by
  have hrange : ∀ hop ∈ List.range Config.hopCount, hop < 16 := fun hop hm => List.mem_range.mp hm
  have k : HubMid q .none (Machine.modLink l (fun e => { e with reach := entries.length }) s) := h.modLink fun k => k.setReach hu hn
  unfold Machine.processRollCall
  generalize Machine.modLink l (fun e => { e with reach := entries.length }) s = s₁ at k
  generalize List.range Config.hopCount = hops at hrange ⊢
  unfold Machine.forEach
  induction hops generalizing s₁ with
  | nil => exact k
  | cons hop hops ih => exact ih _ (k.rollHop (hrange hop (by simp))) fun x hx => hrange x (by simp [hx])

theorem rollEnded (h : HubMid q .none s) {l : LinkId} {t : Txn} {entries : List RollEntry} (hu : (s.links.get l).isUp = true)
    (hn : entries.length ≤ 16) : HubMid q .none (Machine.rollEnded l t entries s) := by
  unfold Machine.rollEnded
  have k : HubMid q .none (Machine.modLink l (fun e => { e with lastRollEnd := s.now, rollDue := false, rollMet := false }) s) :=
    h.modLink fun k => k.rollEnds
  have k' := k.processRollCall (l := l) (entries := entries) (by rw [modLink_links, Quad.get_modify_self]; exact hu) hn
  dsimp only
  split
  · exact k'.examine
  · exact k'

/-! ### Requesters -/

theorem hostReplied (h : HubMid q p s) {l : LinkId} {hop : Nat} {t : Tag} {st : TileStatus} {reply : ReplyBody} :
    HubMid q p (Machine.hostReplied l hop t st reply s) := by
  unfold Machine.hostReplied
  split
  · dsimp only
    split <;> exact h.complete
  · exact h

theorem hostNoReply (h : HubMid q p s) {l : LinkId} {hop : Nat} {t : Tag} : HubMid q p (Machine.hostNoReply l hop t s) := by
  unfold Machine.hostNoReply
  split
  · exact h.complete
  · exact h

theorem jobRefused (h : HubMid q p s) {l : LinkId} {j : Job} : HubMid q p (Machine.jobRefused l j s) := by
  unfold Machine.jobRefused
  split
  · exact jobToTail (h.modLink (fun k => k.dropJobTxns) (dropFlight_charts _ _).1 (dropFlight_charts _ _).2)
  · exact h.removeJob.raiseHandle

theorem jobPrepareOk (h : HubMid q p s) {l : LinkId} {j : Job} : HubMid q p (Machine.jobPrepareOk l j s) := by
  unfold Machine.jobPrepareOk
  split
  · exact h.updJob
  · exact h.updJob.queueNextPacket

theorem jobRoundDone (h : HubMid q p s) {l : LinkId} {j : Job} : HubMid q p (Machine.jobRoundDone l j s) := by
  unfold Machine.jobRoundDone
  split
  · exact h.jobToTail
  · exact h.claimActive

theorem jobReplied (h : HubMid q p s) {l : LinkId} {ref : Ref} {b : Body} {st : TileStatus} {reply : ReplyBody} :
    HubMid q p (Machine.jobReplied l ref b st reply s) := by
  unfold Machine.jobReplied
  split
  · exact h
  · split
    · split
      · exact h.jobPrepareOk
      · exact h.jobRefused
    · split
      · exact h.jobRoundDone
      · exact h.jobRefused
    · exact h

theorem jobNoReply (h : HubMid q p s) {l : LinkId} {ref : Ref} {t : Txn} (ht : t.isStep = false ∧ ∀ n, t.req ≠ .tag n) :
    HubMid q p (Machine.jobNoReply l ref t s) := by
  unfold Machine.jobNoReply
  split
  · exact h
  · exact h.queueCatchUp ht

theorem discardJobResult (h : HubMid q p s) {l : LinkId} {ref : Ref} : HubMid q p (Machine.discardJobResult l ref s) := h.updJob

theorem setMiss (h : HubMid q p s) {l : LinkId} {hop n : Nat} : HubMid q p (Machine.setMiss l hop n s) := by
  unfold Machine.setMiss
  split
  · exact h.updRec fun _ => ⟨rfl, rfl, rfl, rfl, .rfl⟩
  · exact h

/-- The record that the entry of a hop names. -/
theorem hopRecord_some {l : LinkId} {hop : Nat} {r : Record} (h : hopRecord s l hop = some r) :
    (s.links.get l).entry hop = .listed r.ref ∧ findRef s r.ref = some r ∧ r.reachable = true := by
  unfold hopRecord at h
  split at h
  · rename_i ref he
    split at h
    · rename_i x hx
      split at h
      · rename_i hr
        cases h
        obtain rfl := (mem_of_findRef hx).2
        exact ⟨he, hx, hr⟩
      · cases h
    · cases h
  · cases h

theorem claimAtLimit (h : HubMid q .none s) {l : LinkId} {hop : Nat} {ref : Ref} (he : (s.links.get l).entry hop = .listed ref)
    (hu : (s.links.get l).isUp = true) : HubMid q .none (Machine.claimAtLimit l hop ref.handle s) := by
  refine (h.claimHop (why := .noReply) he).modLink (fun k => k.forceRollCall ?_) (forceRollCall_charts _).1 (forceRollCall_charts _).2
  rw [setHop_links, if_pos rfl]
  show ((Machine.claimStaleAll _ s).links.get l).isUp = true
  rw [LinkEngine.isUp, claimStaleAll_state]
  exact hu

theorem requesterNoReply (h : HubMid q .none s) {l : LinkId} {hop : Nat} {t : Txn} {limit : Bool} (ht : t.isStep = false) :
    HubMid q .none (Machine.requesterNoReply l hop t limit s) := by
  unfold Machine.requesterNoReply
  split
  · exact h.participantNoReply
  · rename_i full hreq
    rw [isStep_iff.mpr ⟨full, hreq⟩] at ht; cases ht
  · exact h.hostNoReply
  · rename_i ref hreq
    exact h.jobNoReply ⟨ht, fun n hn => by rw [hreq] at hn; cases hn⟩
  · exact h.discardJobResult
  all_goals exact h

theorem missNoReply (h : HubMid q .none s) {l : LinkId} {hop : Nat} {t : Txn} (ht : t.isStep = false) :
    HubMid q .none (Machine.missNoReply l hop t s) := by
  unfold Machine.missNoReply
  split
  · exact h.requesterNoReply ht
  · rename_i r hr
    obtain ⟨he, -, -⟩ := hopRecord_some hr
    have hu := (h.links l).up_of_listed he
    have k : HubMid q .none (Machine.setMiss l hop (r.miss + 1) s) := h.setMiss
    have hlinks : (Machine.setMiss l hop (r.miss + 1) s).links = s.links := by
      unfold Machine.setMiss; split <;> rfl
    rw [← hlinks] at he hu
    generalize Machine.setMiss l hop (r.miss + 1) s = s₁ at k he hu
    dsimp only
    split
    · exact k.requesterNoReply ht
    · split
      · rename_i ref hreq
        have k' : HubMid q .none { s₁ with choices := s₁.choices + 1 } := k.of_eq
        have hcalm : calmLinks (Machine.requesterNoReply l hop t true { s₁ with choices := s₁.choices + 1 }) = calmLinks s₁ := by
          simp only [Machine.requesterNoReply, hreq]
          exact participantNoReply_calm ..
        split
        · exact (k'.claimAtLimit he hu).requesterNoReply ht
        · refine (k'.requesterNoReply ht).claimAtLimit ?_ ?_
          · rw [calm_entry hcalm]; exact he
          · rw [LinkEngine.isUp, calm_state hcalm]; exact hu
      · exact (k.claimAtLimit he hu).requesterNoReply ht

theorem requesterReplied (h : HubMid q .none s) {l : LinkId} {hop : Nat} {t : Txn} {st : TileStatus} {reply : ReplyBody}
    (ht : t.isStep = false) : HubMid q .none (Machine.requesterReplied l hop t st reply s) := by
  unfold Machine.requesterReplied
  split
  · exact h.participantReplied
  · rename_i full hreq
    rw [isStep_iff.mpr ⟨full, hreq⟩] at ht; cases ht
  · exact h.hostReplied
  · exact h.jobReplied
  · exact h.discardJobResult
  all_goals exact h

/-! ### The ends of transactions -/

/-- A step in flight is the ASSIGN of its link's assignment, or an ENUM_QUERY that goes with the state of the link. -/
theorem step_in_flight (h : HubMid allPaid p s) {l : LinkId} {f : Flight} (hf : (s.links.get l).flight = some f)
    (ht : f.txn.isStep = true) : (∃ a, (s.links.get l).assigning = some a ∧ f.txn = a.txn)
      ∨ ∃ full hop, f.txn = enumTxn full hop ∧ (s.links.get l).state = scanState full := by
  have k : EngineMid .none (s.links.get l) := h.links l
  obtain ⟨qs, hq, -⟩ := k.steps
  have htraffic := stepTraffic_step hf ht
  rw [htraffic] at hq
  cases ha : (s.links.get l).assigning with
  | some a => rw [ha] at hq; exact .inl ⟨a, rfl, (List.cons.inj hq).1⟩
  | none =>
    rw [ha] at hq
    match qs, hq with
    | x :: qs, hq =>
      have hx : f.txn = enumTxn x.1 x.2 := (List.cons.inj hq).1
      refine .inr ⟨x.1, x.2, hx, ?_⟩
      rcases isUp_iff.mp (k.up_of_flight hf) with hs | hs
      · cases hfull : x.1 with
        | true => exact hs
        | false =>
          refine absurd ?_ ((k.noHopScan hs).2 f hf ?_)
          · rw [hx]; rfl
          · rw [hx, hfull]; rfl
      · cases hfull : x.1 with
        | false => exact hs
        | true =>
          have := k.fullStep (.inl (by rw [hs]; simp)) f.txn (by rw [htraffic]; simp)
          rw [hx, isFullScan_enumTxn, hfull] at this; cases this

/-- The wire becomes free: what was on it is owed. -/
theorem freeWire (h : HubMid allPaid p s) {l : LinkId} {f : Flight} (hf : (s.links.get l).flight = some f) (hp : f.phase = .onWire) :
    HubMid (owing l (debtOf f.txn (some (s.links.get l).state))) p (Machine.freeWire l s) :=
  h.modLinkOwed fun k => k.freeWire hf hp

theorem freeWire_up (l : LinkId) (s : State) : ((Machine.freeWire l s).links.get l).isUp = (s.links.get l).isUp := by
  rw [Machine.freeWire, modLink_links, Quad.get_modify_self]; rfl

theorem freeWire_assigning (l : LinkId) (s : State) : ((Machine.freeWire l s).links.get l).assigning = (s.links.get l).assigning := by
  rw [Machine.freeWire, modLink_links, Quad.get_modify_self]

theorem endReplied_assign (l : LinkId) (a : Assignment) (st : TileStatus) (reply : ReplyBody) (s : State) :
    Machine.endReplied l a.txn st reply s = Machine.assignEnded l (st = .ok) (Machine.freeWire l s) := rfl
theorem endReplied_enum (l : LinkId) (full : Bool) (hop : Nat) (st : TileStatus) (reply : ReplyBody) (s : State) :
    Machine.endReplied l (enumTxn full hop) st reply s = Machine.enumReplied l hop full st reply (Machine.freeWire l s) := rfl
theorem endNoReply_assign (l : LinkId) (a : Assignment) (s : State) :
    Machine.endNoReply l a.txn s = Machine.assignEnded l false (Machine.freeWire l s) := rfl
theorem endNoReply_enum (l : LinkId) (full : Bool) (hop : Nat) (s : State) :
    Machine.endNoReply l (enumTxn full hop) s = Machine.enumNoReply l hop full (Machine.freeWire l s) := rfl

/-- A transaction that is no step leaves nothing owed. -/
theorem freeWire_other (h : HubMid allPaid p s) {l : LinkId} {f : Flight} (hf : (s.links.get l).flight = some f) (hp : f.phase = .onWire)
    (ht : f.txn.isStep = false) : HubMid allPaid p (Machine.freeWire l s) :=
  (h.freeWire hf hp).paid fun k => by
    have := k.forget
    rwa [show { debtOf f.txn (some (s.links.get l).state) with state := none } = debtOf f.txn none from rfl, debtOf_other ht] at this

theorem endReplied (h : HubMid allPaid .none s) {l : LinkId} {f : Flight} (hf : (s.links.get l).flight = some f) (hp : f.phase = .onWire)
    {st : TileStatus} {reply : ReplyBody} (hr : ∀ es, reply = .roll es → es.length ≤ 16) :
    HubMid allPaid .none (Machine.endReplied l f.txn st reply s) := by
  have k := h.freeWire hf hp
  cases ht : f.txn.isStep with
  | true =>
    rcases h.step_in_flight hf ht with ⟨a, ha, hx⟩ | ⟨full, hop, hx, hs⟩
    · rw [hx] at k ⊢
      rw [endReplied_assign]
      exact assignEnded (x := (s.links.get l).state) k ((freeWire_assigning l s).trans ha)
    · rw [hx, hs] at k
      rw [hx, endReplied_enum]
      exact enumReplied k st reply
  | false =>
    have k := h.freeWire_other hf hp ht
    unfold Machine.endReplied
    dsimp only
    split
    · refine requesterReplied ?_ ht
      split
      · exact k.setMiss
      · exact k
    · split
      · rename_i es
        exact k.rollEnded ((freeWire_up l s).trans ((h.links l).up_of_flight hf)) (hr es rfl)
      · exact k
    · exact k

theorem endNoReply (h : HubMid allPaid .none s) {l : LinkId} {f : Flight} (hf : (s.links.get l).flight = some f) (hp : f.phase = .onWire) :
    HubMid allPaid .none (Machine.endNoReply l f.txn s) := by
  have k := h.freeWire hf hp
  cases ht : f.txn.isStep with
  | true =>
    rcases h.step_in_flight hf ht with ⟨a, ha, hx⟩ | ⟨full, hop, hx, hs⟩
    · rw [hx] at k ⊢
      rw [endNoReply_assign]
      exact assignEnded (x := (s.links.get l).state) k ((freeWire_assigning l s).trans ha)
    · rw [hx, hs] at k
      rw [hx, endNoReply_enum]
      exact enumNoReply k
  | false =>
    have k := h.freeWire_other hf hp ht
    unfold Machine.endNoReply
    dsimp only
    split
    · split
      · exact k.missNoReply ht
      · exact k.requesterNoReply ht
    · exact k.rollEnded ((freeWire_up l s).trans ((h.links l).up_of_flight hf)) (by simp)
    · exact k

/-! ### Attempts and broadcasts -/

theorem waitingFlight_some {l : LinkId} {f : Flight} (h : waitingFlight s l = some f) :
    (s.links.get l).flight = some f ∧ f.phase = .onWire ∧ f.txn.isBroadcast = false := by
  unfold waitingFlight at h
  split at h
  · rename_i g hg
    split at h
    · rename_i hc
      cases h
      exact ⟨hg, hc.1, by simpa using hc.2⟩
    · cases h
  · cases h

theorem attemptFailed (h : HubMid allPaid .none s) {l : LinkId} {f : Flight} (hf : (s.links.get l).flight = some f)
    (hp : f.phase = .onWire) : HubMid allPaid .none (Machine.attemptFailed l f s) := by
  have hretry : HubMid allPaid .none (Machine.retryAttempt l f s) := h.modLink fun k => k.retry hf hp _ _ _
  unfold Machine.attemptFailed
  split
  · split
    · rename_i t rest hs hq
      split
      · exact h.modLink fun k => k.overtake hf hs hq s.now
      · exact hretry
    · exact hretry
  · exact h.endNoReply hf hp

theorem forgetExpiry (h : HubMid q p s) {l : LinkId} : HubMid q p (Machine.forgetExpiry l s) := h.modLink fun k => k.setRegisters
theorem timerExpired (h : HubMid q p s) {l : LinkId} {f : Flight} : HubMid q p (Machine.timerExpired l f s) :=
  h.modLink fun k => k.setRegisters

theorem broadcastDone (h : HubMid allPaid p s) {l : LinkId} (hb : sendsBroadcast s l = true) :
    HubMid allPaid p (Machine.broadcastDone l s) := by
  have k : EngineMid .none (s.links.get l) := h.links l
  unfold Machine.broadcastDone
  split
  · rename_i f _ hf
    rw [Machine.retryAttempt, modLink_modLink]
    exact h.modLink fun k => k.resume hf _ _ _
  · rename_i ho hf
    obtain ⟨f, hf', -⟩ := k.between.mp (by rw [ho]; simp)
    rw [hf] at hf'; cases hf'
  · rename_i ho
    rw [sendsBroadcast, ho] at hb
    cases hf : (s.links.get l).flight with
    | none => rw [hf] at hb; cases hb
    | some f =>
      rw [hf] at hb
      have hcast : f.txn.isBroadcast = true := by simpa using hb
      refine h.freeWire_other hf ?_ ?_
      · cases hp : f.phase with
        | onWire => rfl
        | between => exact absurd ho (k.between.mpr ⟨f, hf, hp⟩)
      · by_contra hs
        rcases h.step_in_flight hf (by simpa using hs) with ⟨a, -, hx⟩ | ⟨full, hop, hx, -⟩ <;> rw [hx] at hcast <;> cases hcast

end HubMid

end Sys2Proof.Machine
end

section
/-! PROOFS. Links taken down, cleared, trained and scanned again, and the retirement of reachable records: what they do to the soundness
of the links and the directory (`HubMid`). -/

namespace Sys2Proof.Machine

open EngineMid (debtOf stepDebt debtOf_other)
open DirMid (atHandle KeepsPlace looseOf)

/-! ### What the operations leave of links and directory -/

theorem dropAssignment_links (l : LinkId) (a : Assignment) (s : State) :
    calmLinks (dropAssignment l a s) = calmLinks (modLink l (fun e => { e with assigning := none }) s) := by
  unfold dropAssignment
  dsimp only
  split
  · rw [noticeId_calm, noticeHandle_calm]; rfl
  · rw [noticeId_calm]; rfl

theorem dropAssignment_state (l : LinkId) (a : Assignment) (s : State) (i : LinkId) :
    ((dropAssignment l a s).links.get i).state = (s.links.get i).state := by
  rw [calm_state (dropAssignment_links ..), modLink_links, Quad.get_modify]
  split
  · rename_i hi; subst hi; rfl
  · rfl

theorem dropAssignment_records (l : LinkId) (a : Assignment) (s : State) : (dropAssignment l a s).dir.records = s.dir.records := by
  unfold dropAssignment
  dsimp only
  split
  · rw [noticeId_dir, noticeHandle_dir]; rfl
  · rw [noticeId_dir]; rfl

theorem endRunnings_hub (st : Status) (ts : List Tag) (s : State) :
    (forEach ts (endRunning st) s).dir = s.dir ∧ (forEach ts (endRunning st) s).links = s.links := by
  have : ((forEach ts (endRunning st) s).dir, (forEach ts (endRunning st) s).links) = (s.dir, s.links) :=
    forEach_keeps (fun s => (s.dir, s.links)) fun t s => by unfold endRunning; split <;> rfl
  simpa using this

theorem takeDownEngine_state (l : LinkId) (target : LinkState) (s : State) (i : LinkId) :
    ((takeDownEngine l target s).links.get i).state = if i = l then target else (s.links.get i).state := by
  have hdown : ((forEach (hostTags (s.links.get l) ++ rescanTag (s.links.get l)) (endRunning .notReachable)
      (modLink l (LinkEngine.down target s.now) s)).links.get i).state = if i = l then target else (s.links.get i).state := by
    rw [(endRunnings_hub ..).2, modLink_links, Quad.get_modify]
    split <;> rfl
  unfold takeDownEngine
  dsimp only [raiseLink]
  split
  · exact (dropAssignment_state ..).trans hdown
  · exact hdown

theorem takeDownEngine_records (l : LinkId) (target : LinkState) (s : State) : (takeDownEngine l target s).dir.records = s.dir.records := by
  have hdown : (forEach (hostTags (s.links.get l) ++ rescanTag (s.links.get l)) (endRunning .notReachable)
      (modLink l (LinkEngine.down target s.now) s)).dir.records = s.dir.records := by rw [(endRunnings_hub ..).1]; rfl
  unfold takeDownEngine
  dsimp only [raiseLink]
  split
  · exact (dropAssignment_records ..).trans hdown
  · exact hdown

/-- Exactly the records of a test are listed by their handles. -/
theorem mem_recordsOn {s : State} {test : LinkId → Bool} {r : Record} (hr : r ∈ s.dir.records) (hs : r.state ≠ .stale)
    (ht : test r.loc.link = true) : r.ref.handle ∈ recordsOn s test :=
  List.mem_map.mpr ⟨r, List.mem_filter.mpr ⟨hr, by simp [Record.reachable, hs, ht]⟩, rfl⟩

theorem replicate_empty_getD (i : Nat) : (List.replicate 16 HopEntry.empty).getD i .empty = .empty := by
  rw [List.getD_eq_getElem?_getD, List.getElem?_replicate]
  split <;> rfl

/-- The charts with the assignment of one link gone. -/
def bare (l : LinkId) (c : Charts) : Charts := fun i => if i = l then ((c l).1, none) else c i

namespace HubMid

variable {q : LinkDebts} {p : DirDebt} {s : State}

/-- Records may be said to miss their entry. -/
theorem moreMissing (h : HubMid q p s) {ns : List Nat} (hm : ∀ n ∈ p.missing, n ∈ ns) : HubMid q { p with missing := ns } s :=
  ⟨h.links, h.dir.moreMissing hm⟩

/-! ### Links taken down -/

/-- The engine of a link is taken down, its assignment with its mark: the records of the link miss their entry. -/
theorem downed (h : HubMid allPaid p s) {l : LinkId} {target : LinkState} (ht : target = .training ∨ target = .disabled)
    (hm : ∀ r ∈ s.dir.records, r.state ≠ .stale → r.loc.link = l → r.ref.handle ∈ p.missing) {p' : DirDebt} {s' : State}
    (hlinks : ∀ i, s'.links.get i = if i = l then LinkEngine.down target s.now (s.links.get l) else s.links.get i)
    (hrec : s'.dir.records = s.dir.records) (hmiss : p'.missing = p.missing)
    (hd : ∀ c : Charts, (c l).2 = none → (∀ i, i ≠ l → (c i).2 = (chartsOf s i).2) → (∀ i, (c i).1 = (chartsOf s i).1) →
      DirMid p' s'.dir c) : HubMid allPaid p' s' where
  links i := by
    rw [hlinks]
    split
    · exact EngineMid.takenDown _ ht
    · exact h.links i
  dir := by
    have hchart : ∀ i, chartsOf s' i = if i = l then (List.replicate 16 .empty, none) else chartsOf s i := fun i => by
      unfold chartsOf
      rw [hlinks]
      split <;> rfl
    have hbare : ∀ i, bare l (chartsOf s) i = if i = l then ((chartsOf s l).1, none) else chartsOf s i := fun _ => rfl
    have hc : DirMid p' s'.dir (bare l (chartsOf s)) := by
      refine hd _ ?_ (fun i hi => ?_) fun i => ?_
      · rw [hbare, if_pos rfl]
      · rw [hbare, if_neg hi]
      · rw [hbare]; split
        · rename_i hi; rw [hi]
        · rfl
    refine hc.emptied (fun x => ?_) (fun r hr hs hne => ?_) (fun i => ?_) fun i => ?_
    · unfold Charts.entry
      rw [hchart, hbare]
      split
      · exact .inr (replicate_empty_getD x.hop)
      · exact .inl rfl
    · rw [hmiss]
      rw [hrec] at hr
      refine hm r hr hs ?_
      by_contra hl
      refine hne ?_
      unfold Charts.entry
      rw [hchart, hbare, if_neg hl, if_neg hl]
    · rw [hchart, hbare]; split <;> rfl
    · rw [hchart]; split
      · rfl
      · exact h.dir.lengths i

/-- A link that is up is taken down: its records miss their entries. -/
theorem takeDownEngine (h : HubMid allPaid p s) {l : LinkId} {target : LinkState} (ht : target = .training ∨ target = .disabled)
    (hm : ∀ r ∈ s.dir.records, r.state ≠ .stale → r.loc.link = l → r.ref.handle ∈ p.missing) :
    HubMid allPaid p (Machine.takeDownEngine l target s) := by
  obtain ⟨hdir, hlinks⟩ := endRunnings_hub .notReachable (hostTags (s.links.get l) ++ rescanTag (s.links.get l))
    (Machine.modLink l (LinkEngine.down target s.now) s)
  unfold Machine.takeDownEngine
  dsimp only
  generalize Machine.forEach (hostTags (s.links.get l) ++ rescanTag (s.links.get l)) (Machine.endRunning .notReachable)
    (Machine.modLink l (LinkEngine.down target s.now) s) = s₁ at hdir hlinks ⊢
  have hget : ∀ i, s₁.links.get i = if i = l then LinkEngine.down target s.now (s.links.get l) else s.links.get i := fun i => by
    rw [hlinks, modLink_links, Quad.get_modify]
    split
    · rename_i hi; rw [hi]
    · rfl
  split
  · rename_i a ha
    refine raiseLink (dropAssignment_of (downed h ht hm (fun i => ?_) ?_ rfl fun c hn ho hh => ?_))
    · rw [modLink_links, removeMark, modDir_links, Quad.get_modify]
      split
      · rename_i hi; rw [hget, if_pos hi]; rfl
      · rename_i hi; rw [hget, if_neg hi]
    · show s₁.dir.records = _
      rw [hdir]; rfl
    · show DirMid _ { s₁.dir with marks := s₁.dir.marks.filter (fun m => m.loc != ⟨l, a.hop⟩) } c
      rw [hdir]
      exact h.dir.dropMark ha hn ho hh
  · rename_i ha
    refine raiseLink (downed h ht hm hget (by rw [hdir]; rfl) rfl fun c hn ho hh => ?_)
    rw [hdir]
    have hsame : c = chartsOf s := funext fun i => by
      refine Prod.ext (hh i) ?_
      by_cases hi : i = l
      · rw [hi, hn]; exact ha.symm
      · exact ho i hi
    rw [hsame]
    exact h.dir

theorem takeDown (h : HubMid allPaid .none s) {l : LinkId} {target : LinkState} (ht : target = .training ∨ target = .disabled) :
    HubMid allPaid .none (Machine.takeDown l target s) := by
  have k : HubMid allPaid ⟨[], recordsOn s (fun x => x == l), []⟩ s := h.moreMissing (by rintro n ⟨⟩)
  exact (k.takeDownEngine ht fun r hr hs hl => mem_recordsOn (test := fun x => x == l) hr hs (by simp [hl])).claimStaleAll fun n hn => by simpa using hn

/-- A link that is not up begins training anew, or stops. -/
theorem retrain (h : HubMid q p s) {l : LinkId} {target : LinkState} {now : Nat} (ht : target = .training ∨ target = .disabled)
    (hq : q l = .none) (hu : (s.links.get l).isUp = false) : HubMid q p (Machine.modLink l (LinkEngine.down target now) s) := by
  obtain ⟨-, -, -, -, hass, -, hhops⟩ := (h.links l).down hu
  exact h.modLink (fun _ => hq ▸ EngineMid.takenDown _ ht) hhops.symm hass.symm

/-! ### CLEAR -/

theorem clearLink (h : HubMid allPaid p s) {l : LinkId}
    (hm : ∀ r ∈ s.dir.records, r.state ≠ .stale → isEnabled s r.loc.link = true → r.ref.handle ∈ p.missing) :
    HubMid allPaid p (Machine.clearLink l s) := by
  have down : isEnabled s l = true → HubMid allPaid p (Machine.takeDownEngine l .training s) := fun he =>
    h.takeDownEngine (.inl rfl) fun r hr hs hl => hm r hr hs (hl ▸ he)
  unfold Machine.clearLink
  split
  · exact h
  · rename_i hs
    exact h.retrain (.inl rfl) rfl (by simp [LinkEngine.isUp, hs])
  · rename_i hs
    exact down (by simp [isEnabled, hs])
  · rename_i hs
    exact down (by simp [isEnabled, hs])

theorem clearLink_records (l : LinkId) (s : State) : (Machine.clearLink l s).dir.records = s.dir.records := by
  unfold Machine.clearLink
  split
  · rfl
  · rfl
  · exact takeDownEngine_records ..
  · exact takeDownEngine_records ..

theorem clearLink_isEnabled (l : LinkId) (s : State) (i : LinkId) : isEnabled (Machine.clearLink l s) i = isEnabled s i := by
  have down : (s.links.get l).state ≠ .disabled → ∀ s' : State,
      (s'.links.get i).state = (if i = l then .training else (s.links.get i).state) → isEnabled s' i = isEnabled s i := fun hs s' he => by
    unfold isEnabled
    rw [he]
    split
    · rename_i hi
      rw [hi, bne_iff_ne.mpr hs]
      rfl
    · rfl
  unfold Machine.clearLink
  split
  · rfl
  · rename_i hs
    refine down (by simp [hs]) _ ?_
    rw [modLink_links, Quad.get_modify]
    split <;> rfl
  · rename_i hs
    exact down (by simp [hs]) _ (takeDownEngine_state ..)
  · rename_i hs
    exact down (by simp [hs]) _ (takeDownEngine_state ..)

theorem clearLinks (h : HubMid allPaid .none s) {t : Tag} : HubMid allPaid .none (Machine.clearLinks t s) := by
  have all : ∀ {ls : List LinkId} {s : State} {p : DirDebt}, HubMid allPaid p s →
      (∀ r ∈ s.dir.records, r.state ≠ .stale → isEnabled s r.loc.link = true → r.ref.handle ∈ p.missing) →
      HubMid allPaid p (Machine.forEach ls Machine.clearLink s) := @fun ls s p k hm => by
    unfold Machine.forEach
    induction ls generalizing s with
    | nil => exact k
    | cons l ls ih =>
      refine ih (s := Machine.clearLink l s) (k.clearLink hm) fun r hr hs he => hm r ?_ hs ?_
      · rwa [clearLink_records] at hr
      · rwa [clearLink_isEnabled] at he
  have k : HubMid allPaid ⟨[], clearedHandles s, []⟩ (beginClear t s) :=
    (h.moreMissing (ns := clearedHandles s) (by rintro n ⟨⟩)).of_eq
  have k' := (all (ls := fours.reverse) k fun r hr hs he => mem_recordsOn hr hs he).claimStaleAll
    (claims := (clearedHandles s).map fun n => (n, .cleared)) fun n hn => by simpa using hn
  exact finishEvent (k'.of_eq : HubMid allPaid .none _)

theorem clearBlocks (h : HubMid allPaid .none s) : HubMid allPaid .none (Machine.clearBlocks s) := by
  have hget : ∀ i, (Machine.clearBlocks s).links.get i = LinkEngine.cleared s.now (s.links.get i) := fun i => Quad.get_map ..
  have hchart : ∀ i, chartsOf (Machine.clearBlocks s) i = (List.replicate 16 .empty, none) := fun i => by
    unfold chartsOf
    rw [hget, LinkEngine.cleared]
    split
    · rename_i hs
      obtain ⟨-, -, -, -, hass, -, hhops⟩ := (h.links i).down (by simp [LinkEngine.isUp, hs])
      rw [hass, hhops]
    · rfl
  refine ⟨fun i => ?_, ?_⟩
  · rw [hget, LinkEngine.cleared]
    split
    · exact h.links i
    · exact EngineMid.takenDown _ (.inl rfl)
  · have hreset : chartsOf State.reset = chartsOf (Machine.clearBlocks s) := funext fun i => by
      rw [hchart, chartsOf, reset_link]; rfl
    have hd := (hubSound_reset.mid wellShaped_reset).dir
    rw [hreset] at hd
    exact { hd with
      recordGens := by rintro r ⟨⟩
      markGens := by rintro m ⟨⟩ }

theorem clearAll (h : HubMid allPaid .none s) {t : Tag} : HubMid allPaid .none (Machine.clearAll t s) :=
  of_eq (h.clearBlocks.forEach (xs := runningTags s) (f := endCleared) fun t s k => by
    unfold endCleared; split
    · exact k.complete
    · exact k)

/-! ### Retirement -/

theorem retireRecord (h : HubMid q .none s) {r : Record} (hr : r ∈ s.dir.records) : HubMid q .none (Machine.retireRecord r s) := by
  have hfound : findRec s r.ref.handle = some r := by
    cases hf : findRec s r.ref.handle with
    | none => exact absurd rfl (ne_of_findRec hf hr)
    | some x =>
      obtain ⟨hx, he⟩ := mem_of_findRec hf
      rw [h.dir.eq_of_handle hx hr he]
  have k := h.retireFound hfound
  unfold Machine.retireRecord
  dsimp only
  split
  · rename_i hreach
    have hs : r.state ≠ .stale := by simpa [Record.reachable] using hreach
    have hent : (s.links.get r.loc.link).entry r.loc.hop = .listed r.ref := (h.dir.reached r hr hs).resolve_left (by rintro ⟨⟩)
    rw [if_neg hs] at k
    have hup : ((Machine.retire r.ref.handle s).links.get r.loc.link).isUp = true := by
      rw [LinkEngine.isUp, calm_state (retire_calm ..)]
      exact (h.links _).up_of_listed hent
    have k' := k.setUnlisted (l := r.loc.link) (hop := r.loc.hop) (why := .retired) hup fun x hx hxl hxs => by
      exfalso
      have hmem := retire_records_subset hx
      have hlisted : (s.links.get x.loc.link).entry x.loc.hop = .listed x.ref := (h.dir.reached x hmem hxs).resolve_left (by rintro ⟨⟩)
      have hxl' : x.loc = r.loc := hxl
      rw [hxl', hent] at hlisted
      rw [retire_dir hfound] at hx
      have hne := (List.mem_filter.mp hx).2
      injection hlisted with he
      rw [he] at hne
      simp at hne
    have hghosts : ((r.loc, r.ref) :: DirDebt.none.ghosts).filter (fun g => g.1 != ⟨r.loc.link, r.loc.hop⟩) = [] := by
      simp [DirDebt.none]
    rw [hghosts] at k'
    exact k'.modLink fun m => m.queueClear ((setUnlisted_up ..).trans hup) _
  · rename_i hreach
    have hs : r.state = .stale := by simpa [Record.reachable] using hreach
    rwa [if_pos hs] at k

theorem setGrace (h : HubMid allPaid p s) {n : Byte} {t : Tag} : HubMid allPaid p (Machine.setGrace n t s) := by
  have k : HubMid allPaid p (Machine.answerOk .setGrace [] t (Machine.modDir (fun d => { d with grace := n.toNat }) s)) :=
    complete (h.modDir fun m => { m with })
  unfold Machine.setGrace
  dsimp only
  split
  · exact k.expireAll.finishLinks
  · exact k

/-! ### Scans that begin -/

theorem beginScan {l : LinkId} {x : Option LinkState} (h : HubMid (owing l ⟨[], [], x, false⟩) p s)
    (hs : (s.links.get l).state = .scanning) {tag : Option Tag} : HubMid allPaid p (Machine.beginScan l tag s) := by
  have := h.modLinkOwed (l := l) (d := .none) (f := fun e => { e with
    state := .scanning, scan := some { hop := 0, created := 0, rebound := 0, claimed := 0, rescan := tag },
    scanQ := e.scanQ ++ [enumTxn true 0] }) (fun m => by rw [owing_self] at m; exact m.beginScan hs rfl)
  rwa [owing_pay] at this

theorem lockAchieved (h : HubMid allPaid p s) {l : LinkId} (hs : (s.links.get l).state = .training) :
    HubMid allPaid p (Machine.beginScan l none (Machine.modLink l (fun e => { e with noLockTimer := none, noLockMark := false }) s)) := by
  have k := h.modLinkOwed (l := l) (d := ⟨[], [], none, false⟩)
    (f := fun e => { e with state := .scanning, noLockTimer := none, noLockMark := false }) fun m => m.locked hs
  have k' := HubMid.beginScan (tag := none) k (by rw [modLink_links, Quad.get_modify_self])
  rw [Machine.beginScan, modLink_modLink] at k' ⊢
  exact k'

theorem enterRescan_charts (e : LinkEngine) : e.enterRescan.hops = e.hops ∧ e.enterRescan.assigning = e.assigning :=
  dropFlight_charts _ _

theorem enterRescan_state (e : LinkEngine) : e.enterRescan.state = .scanning := by
  unfold LinkEngine.enterRescan LinkEngine.dropFlight
  split
  · split <;> rfl
  · rfl

theorem acceptRescan (h : HubMid allPaid p s) {l : LinkId} {t : Tag} (hs : (s.links.get l).state = .running)
    (hc : (s.links.get l).caused = []) : HubMid allPaid p (Machine.acceptRescan l t s) := by
  have k := (h.holdTag (t := t) (r := .rescan l)).modLinkOwed (l := l) (f := LinkEngine.enterRescan)
    (fun m => EngineMid.enterRescan m hs hc) (enterRescan_charts _).1 (enterRescan_charts _).2
  rw [allPaid_put] at k
  have hstate : ((Machine.modLink l LinkEngine.enterRescan (Machine.holdTag t (.rescan l) s)).links.get l).state = .scanning := by
    rw [modLink_links, Quad.get_modify_self]; exact enterRescan_state _
  have hass : ((Machine.modLink l LinkEngine.enterRescan (Machine.holdTag t (.rescan l) s)).links.get l).assigning
      = (s.links.get l).assigning := by
    rw [modLink_links, Quad.get_modify_self]; exact (enterRescan_charts _).2
  unfold Machine.acceptRescan
  dsimp only
  generalize Machine.modLink l LinkEngine.enterRescan (Machine.holdTag t (.rescan l) s) = s₁ at k hstate hass ⊢
  split
  · rename_i a ha
    rw [show (Machine.holdTag t (.rescan l) s).links.get l = s.links.get l from rfl, ha] at k
    split
    · rename_i hw
      simp only [Option.any_some, hw, if_true] at k
      exact HubMid.beginScan (HubMid.dropAssignment (a := a) k (hass.trans ha)) ((dropAssignment_state ..).trans hstate)
    · rename_i hw
      simp only [Option.any_some, hw, Bool.false_eq_true, if_false] at k
      exact HubMid.beginScan k hstate
  · rename_i ha
    rw [show (Machine.holdTag t (.rescan l) s).links.get l = s.links.get l from rfl, ha] at k
    exact HubMid.beginScan k hstate

/-! ### Timing and direct access -/

theorem newTiming (h : HubMid q p s) {l : LinkId} {x : Timing} : HubMid q p (Machine.newTiming l x s) := by
  have k : HubMid q p (Machine.modDir (fun d => { d with records := d.records.map (missUnder l x.missLimit) }) s) :=
    h.modDir fun m => m.mapRecords fun r => by
      unfold missUnder
      (repeat' split) <;> exact ⟨rfl, rfl, rfl, rfl, .rfl⟩
  refine k.modLink (fun m => ?_) ?_ ?_
  · dsimp only
    split
    · rename_i hc
      have hs : (s.links.get l).state = .running := by
        have := hc.1
        simp only [LinkEngine.awaitsRoll, Bool.and_eq_true, beq_iff_eq] at this
        exact this.1.1
      exact EngineMid.rollFalls (e := { s.links.get l with timing := x }) m.setRegisters hs
    · exact m.setRegisters
  · dsimp only; split <;> rfl
  · dsimp only; split <;> rfl

theorem queueDirect (h : HubMid q .none s) {r : Record} (hr : r ∈ s.dir.records) (hs : r.state ≠ .stale) {x : Running} {body : Body} {t : Tag} :
    HubMid q .none (Machine.queueDirect x r.loc body t s) := by
  have hent : (s.links.get r.loc.link).entry r.loc.hop = .listed r.ref := (h.dir.reached r hr hs).resolve_left (by rintro ⟨⟩)
  exact (h.holdTag (t := t) (r := x)).modLink fun m => m.queueHost ((h.links _).up_of_listed hent) _ _ _

/-! ### Boundary events and edges -/

theorem completePending (h : HubMid q p s) {src : BoundarySource} {x : CommitState} : HubMid q p (Machine.completePending src x s) := by
  unfold Machine.completePending
  split
  · exact complete h.modBoundary
  · exact h

theorem watchEdge (h : HubMid q p s) : HubMid q p (Machine.watchEdge s) := by
  unfold Machine.watchEdge
  dsimp only
  split
  · exact h.modBoundary
  · exact h.modBoundary.raiseDevice

theorem removeKey (h : HubMid q p s) {k : KeyRec} : HubMid q p (Machine.removeKey k s) := by
  unfold Machine.removeKey
  dsimp only
  split
  · exact h.setKeys
  · exact h.setKeys.restartAllJobs

end HubMid

theorem upTo_prefix (n : Nat) (ns : List Nat) : upTo n ns <+: ns := by
  induction ns with
  | nil => exact List.prefix_rfl
  | cons x xs ih =>
    unfold upTo
    split
    · exact ⟨xs, rfl⟩
    · exact List.prefix_cons_inj x |>.mpr ih

/-! ### Requests, events and commands -/

/-- What an accepted request does to the links and the directory. -/
theorem Takes.hub {i : Instr} {t : Tag} {s s' : State} (h : Takes i t s s') (hs : HubMid allPaid .none s)
    (hc : ∀ l, (s.links.get l).caused = []) : HubMid allPaid .none s' := by
  cases h with
  | answers => exact hs.complete
  | setsGrace n => exact hs.setGrace
  | retires ref r res hr hfree => exact (hs.retireRecord (checkRef_names hr).1).complete.finishLinks
  | definesKey => exact hs.setKeys.complete
  | undefinesKey => exact hs.removeKey.complete.finishLinks
  | replaces => exact hs.setStaging.complete
  | adds => exact hs.setStaging.complete
  | discards => exact hs.setStaging.complete
  | commits => exact hs.acceptCommit.finishLinks
  | aborts => exact hs.enterCancelling.complete.finishEvent
  | setsFrame => exact hs.modBoundary.complete
  | makesBoundary => exact (HubMid.complete hs.boundaryEvent).finishEvent
  | awaitsBoundary => exact hs.holdTag.modBoundary
  | enables l hl => exact (hs.retrain (.inl rfl) rfl (by simp [LinkEngine.isUp, hl])).complete
  | stopsTraining l hl => exact (hs.retrain (.inr rfl) rfl (by simp [LinkEngine.isUp, hl])).complete
  | disables l hl => exact (hs.takeDown (.inr rfl)).complete.finishEvent
  | setsTiming l x hx hbytes => exact hs.newTiming.complete.arbitrate
  | setsDeadlines => exact hs.modCommit.complete
  | rescans l hl => exact (hs.acceptRescan hl (hc l)).finishLinks
  | accesses r x body hr hreach hx => exact (hs.queueDirect hr hreach).arbitrate
  | attends => exact hs.modPort.complete
  | masks => exact hs.modPort.complete
  | clearsLinks => exact hs.clearLinks
  | clearsAll b hi => exact hs.clearAll

/-- What an event does to the links and the directory. -/
theorem Occurs.hub {i : Instr} {s s' : State} (h : Occurs i s s') (hs : HubMid allPaid .none s) : HubMid allPaid .none s' := by
  cases h with
  | counts hi => exact hs.watchEdge
  | makesBoundary hi hsp => exact hs.watchEdge.boundaryEvent.completePending.finishEvent
  | watchEnds d => exact hs.advanceTo.modBoundary.raiseDevice
  | falls p hi hp => exact hs.advanceTo.boundaryEvent.completePending.finishEvent
  | locks l hl => exact (hs.lockAchieved hl).arbitrate
  | loses l hl => exact (hs.takeDown (.inl rfl)).finishEvent
  | lockFails l d hl => exact (hs.advanceTo.modLink fun k => k.setNoLock fun _ => hl).raiseLink
  | forgets l => exact hs.forgetExpiry
  | hears l f st reply bytes hf hj =>
    obtain ⟨hflight, hphase, -⟩ := HubMid.waitingFlight_some hf
    exact (hs.endReplied hflight hphase fun es he => length_of_rollReply (he ▸ hj)).finishEvent
  | garbles l f hf =>
    obtain ⟨hflight, hphase, -⟩ := HubMid.waitingFlight_some hf
    refine (hs.forgetExpiry.attemptFailed ?_ hphase).finishEvent
    rw [forgetExpiry, modLink_links, Quad.get_modify_self]; exact hflight
  | expires l f hf =>
    obtain ⟨hflight, hphase, -⟩ := HubMid.waitingFlight_some hf
    refine ((HubMid.timerExpired hs.advanceTo).attemptFailed ?_ hphase).finishEvent
    rw [timerExpired, modLink_links, Quad.get_modify_self]; exact hflight
  | broadcasts l hb =>
    refine (hs.forgetExpiry.broadcastDone ?_).finishEvent
    rw [sendsBroadcast, forgetExpiry, modLink_links, Quad.get_modify_self]; exact hb
  | rolls l hl =>
    refine (hs.advanceTo.modLink fun k => k.rollFalls ?_).arbitrate
    simp only [LinkEngine.awaitsRoll, Bool.and_eq_true, beq_iff_eq] at hl
    exact hl.1.1
  | expiresGrace n d hidle =>
    refine (hs.advanceTo.retireAll fun m hm r hr he => ?_).finishLinks
    refine hs.advanceTo.stale_of_listed ?_ hr he
    exact List.mem_of_mem_filter ((upTo_prefix _ _).subset hm)
  | defersGrace d => exact hs.advanceTo
  | cancels d reason hst hr => exact hs.advanceTo.enterCancelling.finishEvent
  | excludes d hst => exact hs.advanceTo.excludeUnprepared.finishEvent
  | lags d hst => exact (hs.advanceTo.forEach fun _ _ k => k.makeLagging).finishEvent

/-- What a command does to the links and the directory. -/
theorem Does.hub {c : Instr} {s s' : State} (h : Does c s s') (hs : HubMid allPaid .none s)
    (hc : ∀ l, (s.links.get l).caused = []) : HubMid allPaid .none s' := by
  cases h with
  | shows a bs => exact hs.of_eq
  | collects x rest bs hx => exact hs.of_eq
  | takes n b t s' hacc h => exact h.hub hs.of_eq hc
  | occurs s' hop h => exact h.hub hs
  | clears x hx => exact hs.modPort.complete
  | resets ph hph => exact (hubSound_reset.mid wellShaped_reset).of_eq
  | starts hph => exact hs.of_eq

/-- Settles O55: within an event the links and the directory are sound but for what the event owes them, and every event pays its debts. -/
theorem everyStepKeepsTheHubSound : Obligations.EveryStepKeepsTheHubSound := by
  intro s s' hw hs h
  have k := hs.mid hw
  rcases step_cases h with ⟨c, rest, -, hc⟩ | rfl
  · exact HubMid.sound (Does.hub (s := { s with pending := rest }) (does_of_exec hc) k.of_eq fun l => (hw.links l).caused)
  · exact HubMid.sound (k.of_eq)

end Sys2Proof.Machine
end

section
/-! PROOFS. The attention set, the mask and IDENTIFY (O7), CLEAR ALL (O52), the clear interval and device reset (O53). -/

namespace Sys2Proof.Machine

/-! ### Subjects of the attention set -/

/-- A subject stands for an entry of the set: handles are 1 or more. -/
def Subject.counts : Subject → Prop
  | .handle h => 1 ≤ h
  | _ => True

theorem counts_of_mem {x : Subject} (h : x ∈ subjects) : x.counts := by
  simp only [subjects, List.mem_cons, List.mem_append, List.mem_map, List.mem_range'_1] at h
  rcases h with rfl | ⟨l, -, rfl⟩ | ⟨n, hn, rfl⟩
  · trivial
  · trivial
  · exact hn.1

theorem handle_mem_subjects {h : Nat} : Subject.handle h ∈ subjects ↔ 1 ≤ h ∧ h ≤ 80 := by
  simp [subjects, Config.maxHandle, List.mem_range'_1]; omega

theorem link_mem_subjects (l : LinkId) : Subject.link l ∈ subjects := by simp [subjects]

theorem device_mem_subjects : Subject.device ∈ subjects := by simp [subjects]

theorem clearSubject_get (a : AttnSet) (x : Subject) {h : Nat} (hx : x.counts) (hh : 1 ≤ h) :
    (a.clearSubject x).handles[h - 1]? = if x = .handle h then (a.handles[h - 1]?).map (fun _ => ⟨0, none⟩) else a.handles[h - 1]? := by
  cases x with
  | device => rfl
  | link l => rfl
  | handle n =>
    have hn : 1 ≤ n := hx
    show (a.handles.set (n - 1) ⟨0, none⟩)[h - 1]? = _
    by_cases he : n = h
    · subst he
      rw [if_pos rfl, List.getElem?_set_self']
      rfl
    · rw [if_neg (by simpa using he), List.getElem?_set_ne (by omega)]

theorem clearSubject_flagsOf (a : AttnSet) {x y : Subject} (hx : x.counts) (hy : y.counts) :
    (a.clearSubject x).flagsOf y = if x = y then 0 else a.flagsOf y := by
  cases y with
  | device => cases x <;> simp [AttnSet.clearSubject, AttnSet.flagsOf]
  | link l =>
    cases x with
    | link m =>
      simp only [AttnSet.clearSubject, AttnSet.flagsOf, Quad.get_put, Subject.link.injEq]
      by_cases h : l = m
      · rw [if_pos h, if_pos h.symm]
      · rw [if_neg h, if_neg (Ne.symm h)]
    | _ => simp [AttnSet.clearSubject, AttnSet.flagsOf]
  | handle h =>
    rw [AttnSet.flagsOf, AttnSet.flagsOf, List.getD_eq_getElem?_getD, List.getD_eq_getElem?_getD, clearSubject_get a x hx hy]
    split
    · cases a.handles[h - 1]? <;> rfl
    · rfl

/-- Subjects cleared one after another. -/
theorem clearSubjects_flagsOf {xs : List Subject} (hxs : ∀ x ∈ xs, x.counts) (a : AttnSet) {y : Subject} (hy : y.counts) :
    (xs.foldl AttnSet.clearSubject a).flagsOf y = if y ∈ xs then 0 else a.flagsOf y := by
  induction xs generalizing a with
  | nil => rfl
  | cons x xs ih =>
    rw [List.foldl_cons, ih (fun z hz => hxs z (by simp [hz])), clearSubject_flagsOf a (hxs x (by simp)) hy]
    rw [← ite_or]
    exact if_congr (by rw [List.mem_cons, eq_comm (a := x)]; exact or_comm) rfl rfl

theorem clearSubjects_get {xs : List Subject} (hxs : ∀ x ∈ xs, x.counts) (a : AttnSet) {h : Nat} (hh : 1 ≤ h) :
    (xs.foldl AttnSet.clearSubject a).handles[h - 1]?
      = if .handle h ∈ xs then (a.handles[h - 1]?).map (fun _ => ⟨0, none⟩) else a.handles[h - 1]? := by
  induction xs generalizing a with
  | nil => rfl
  | cons x xs ih =>
    rw [List.foldl_cons, ih (fun z hz => hxs z (by simp [hz])), clearSubject_get a x (hxs x (by simp)) hh]
    by_cases h2 : Subject.handle h ∈ xs
    · rw [if_pos h2, if_pos (List.mem_cons_of_mem _ h2)]
      split
      · rw [Option.map_map]; rfl
      · rfl
    · rw [if_neg h2]
      exact if_congr (by simp [h2, eq_comm]) rfl rfl

/-- Attention is pending while some subject has a raised flag. -/
theorem pending_iff_flagsOf {a : AttnSet} (h80 : a.handles.length = 80) : a.pending = true ↔ ∃ x ∈ subjects, a.flagsOf x ≠ 0 := by
  rw [AttnSet.pending_iff]
  constructor
  · rintro (hd | ⟨l, hl⟩ | ⟨e, he, hf⟩)
    · exact ⟨.device, device_mem_subjects, hd⟩
    · exact ⟨.link l, link_mem_subjects l, hl⟩
    · obtain ⟨i, hi⟩ := List.mem_iff_getElem?.mp he
      have hlt : i < 80 := by rw [← h80]; exact (List.getElem?_eq_some_iff.mp hi).1
      refine ⟨.handle (i + 1), handle_mem_subjects.mpr (by omega), ?_⟩
      rw [AttnSet.flagsOf, List.getD_eq_getElem?_getD, Nat.add_sub_cancel, hi]
      exact hf
  · rintro ⟨x, hx, hf⟩
    cases x with
    | device => exact .inl hf
    | link l => exact .inr (.inl ⟨l, hf⟩)
    | handle h =>
      have := handle_mem_subjects.mp hx
      have hlt : h - 1 < a.handles.length := by omega
      refine .inr (.inr ⟨a.handles[h - 1], List.getElem_mem hlt, ?_⟩)
      rwa [AttnSet.flagsOf, List.getD_eq_getElem?_getD, List.getElem?_eq_getElem hlt] at hf

theorem returnedSubjects_counts (s : State) : ∀ x ∈ returnedSubjects s, x.counts := fun _ hx =>
  counts_of_mem (List.mem_of_mem_filter (List.mem_of_mem_take hx))

theorem exec_attention {s : State} {b : Byte} {t : Tag} (h : Accepts s b t) :
    exec (.attention b) s = .next (attention t (received 0 s)) := congrArg _ (submit_accepts h 0 _)

theorem exec_setAttnMask {s : State} {b : Byte} {t : Tag} (h : Accepts s b t) (m : BitVec 24) :
    exec (.setAttnMask b m) s = .next (setAttnMask m t (received 3 s)) := congrArg _ (submit_accepts h 3 _)

theorem exec_identify {s : State} {b : Byte} {t : Tag} (h : Accepts s b t) :
    exec (.identify b) s = .next (answered s 0 t .identify .ok identity) := by
  rw [show exec (.identify b) s = .next (submit 0 b (answerOk .identify identity) s) from rfl, submit_accepts h]; rfl

theorem maskOf_setWidth (m : Flags) : maskOf (m.setWidth 24) = some m := by
  have h1 : (m.setWidth 24).extractLsb' 20 4 = 0 := by
    apply BitVec.eq_of_getLsbD_eq
    intro i hi
    simp [BitVec.getLsbD_extractLsb']
  rw [maskOf, if_pos h1, BitVec.setWidth_setWidth_of_le _ (by omega), BitVec.setWidth_eq]

theorem maskOf_none {m : BitVec 24} {i : Nat} (hi : 20 ≤ i) (hm : m.getLsbD i = true) : maskOf m = none := by
  rw [maskOf, if_neg]
  intro h
  have hlt : i < 24 := by
    by_contra hc
    rw [BitVec.getLsbD_of_ge m i (by omega)] at hm; cases hm
  have := congrArg (fun x => x.getLsbD (i - 20)) h
  simp only [BitVec.getLsbD_extractLsb', Nat.add_sub_cancel' hi, hm] at this
  simp at this
  omega

/-- Settles O7: the returned subjects are cleared one by one, and no other entry is touched. -/
theorem attentionMaskAndIdentify : Obligations.AttentionMaskAndIdentify := by
  intro s b t h
  refine ⟨fun h80 => ?_, fun m => ?_, fun m ⟨i, hi, hm⟩ => ?_, 0x10, 0x5B, 0x01, 0xE0, 0x01, ?_, by decide, by decide, by decide⟩
  · have hlen : (attentionCleared s).handles.length = 80 := (attentionCleared_handles s).trans h80
    refine ⟨attentionCleared s, returnedSubjects s, ?_, rfl, fun x hx => ?_, hlen, fun n hn hle => ?_⟩
    · rw [exec_attention h, ← Bool.eq_iff_iff.mpr ((pending_iff_flagsOf hlen).trans decide_eq_true_iff.symm)]
      rfl
    · exact clearSubjects_flagsOf (returnedSubjects_counts s) _ (counts_of_mem hx)
    · refine (clearSubjects_get (returnedSubjects_counts s) _ hn).trans ?_
      split
      · rw [List.getElem?_eq_getElem (by rw [h80]; exact (by omega : n - 1 < 80))]; rfl
      · rfl
  · rw [exec_setAttnMask h, setAttnMask, maskOf_setWidth]; rfl
  · rw [exec_setAttnMask h, setAttnMask, maskOf_none hi hm]; rfl
  · exact exec_identify h

/-! ### CLEAR ALL -/

/-- The completion of a running request that a CLEAR ALL ends. -/
def clearedOf (s : State) (t : Tag) : Option Completion :=
  match s.port.tags.get t with
  | .running x => some ⟨t, x.kind, .cleared, 0, x.clearedFields s.commit.epoch⟩
  | _ => none

/-- The tag of a running request that a CLEAR ALL ends is DONE. -/
def TagState.ended : TagState → TagState
  | .running _ => .done
  | x => x

theorem endCleared_port (t : Tag) (s : State) : (endCleared t s).port = { s.port with
    completions := s.port.completions ++ (clearedOf s t).toList, tags := s.port.tags.put t (s.port.tags.get t).ended } := by
  have hput : s.port.tags.put t (s.port.tags.get t) = s.port.tags := Quad.ext_get fun i => by
    rw [Quad.get_put]; split
    · rename_i hi; rw [hi]
    · rfl
  unfold endCleared clearedOf
  split
  · rename_i x hx; rw [hx]; rfl
  · rename_i hx
    have hend : (s.port.tags.get t).ended = s.port.tags.get t := by
      cases hg : s.port.tags.get t with
      | running x => exact absurd hg (hx x)
      | _ => rfl
    rw [hend, hput]
    simp

theorem endCleared_commit (t : Tag) (s : State) : (endCleared t s).commit = s.commit := by
  unfold endCleared; split <;> rfl

/-- The requests of several tags completed CLEARED one after another. -/
theorem endClearedAll {ns : List Tag} (hns : ns.Nodup) (s : State) :
    ∃ tags : Quad TagState, (forEach ns endCleared s).port = { s.port with
        completions := s.port.completions ++ ns.filterMap (clearedOf s), tags := tags }
      ∧ ∀ n, tags.get n = if n ∈ ns then (s.port.tags.get n).ended else s.port.tags.get n := by
  unfold forEach
  induction ns generalizing s with
  | nil => exact ⟨s.port.tags, by simp, fun _ => rfl⟩
  | cons t ns ih =>
    obtain ⟨hnot, hns⟩ := List.nodup_cons.mp hns
    obtain ⟨tags, hp, ht⟩ := ih hns (endCleared t s)
    have hget : ∀ n, n ≠ t → (endCleared t s).port.tags.get n = s.port.tags.get n := fun n hn => by
      rw [endCleared_port, Quad.get_put_ne _ _ hn]
    have hcleared : ns.filterMap (clearedOf (endCleared t s)) = ns.filterMap (clearedOf s) :=
      List.filterMap_congr fun n hn => by
        rw [clearedOf, hget n (by rintro rfl; exact hnot hn), congrArg CommitCtl.epoch (endCleared_commit t s)]; rfl
    refine ⟨tags, ?_, fun n => ?_⟩
    · rw [List.foldl_cons, hp, hcleared, endCleared_port, List.filterMap_cons]
      cases clearedOf s t <;> simp
    · rw [ht]
      by_cases hn : n = t
      · subst hn
        rw [if_neg hnot, if_pos (by simp), endCleared_port, Quad.get_put_self]
      · rw [hget n hn]
        exact if_congr (by simp [hn]) rfl rfl

theorem mem_runningTags {s : State} {n : Tag} : n ∈ runningTags s ↔ ∃ x, s.port.tags.get n = .running x := by
  simp only [runningTags, List.mem_filter, mem_fours, true_and]
  cases s.port.tags.get n <;> simp

theorem runningTags_nodup (s : State) : (runningTags s).Nodup := (by decide : fours.Nodup).filter _

theorem filterMap_runningTags (s u : State) (hu : u.port = s.port) :
    (runningTags s).filterMap (clearedOf u) = fours.filterMap (clearedOf u) := by
  rw [runningTags, List.filterMap_filter]
  apply List.filterMap_congr
  intro n _
  unfold clearedOf
  rw [hu]
  cases s.port.tags.get n <;> rfl

theorem Running.clearedFields_zero (x : Running) : x.clearedFields 0 = if x = .commit then halfBytes 0 else x.fields := by
  cases x <;> rfl

/-- What CLEAR ALL makes of the port. -/
theorem clearAll_port (t : Tag) (s : State) :
    ∃ tags : Quad TagState, (clearAll t s).port = { s.port with
        state := .resetting, completions := s.port.completions ++ fours.filterMap (clearedOf (clearBlocks s)), tags := tags
        attn := { AttnSet.empty with device := Reason.cleared.flag }
        clear := some { tag := t, scope := .all, links := 0, stale := 0, ended := (runningTags s).length } }
      ∧ ∀ n, tags.get n = if n = t then .running .clear else (s.port.tags.get n).ended := by
  obtain ⟨tags, hp, ht⟩ := endClearedAll (runningTags_nodup s) (clearBlocks s)
  refine ⟨tags.put t (.running .clear), ?_, fun n => ?_⟩
  · rw [← filterMap_runningTags s (clearBlocks s) rfl]
    simp only [clearAll, recordClear, beginClear, holdTag, modPort, hp]
    rfl
  · rw [Quad.get_put]
    refine if_congr .rfl rfl ?_
    rw [ht]
    split
    · rfl
    · rename_i hn
      rw [mem_runningTags] at hn
      show s.port.tags.get n = _
      cases hg : s.port.tags.get n with
      | running x => exact absurd ⟨x, hg⟩ hn
      | _ => rfl

/-- What CLEAR ALL leaves alone of the blocks. -/
theorem clearAll_rest (t : Tag) (s : State) :
    ((clearAll t s).boundary, (clearAll t s).staging, (clearAll t s).jobs, (clearAll t s).now, (clearAll t s).phase)
      = ((clearBlocks s).boundary, (clearBlocks s).staging, (clearBlocks s).jobs, s.now, s.phase) :=
  forEach_keeps (fun s : State => (s.boundary, s.staging, s.jobs, s.now, s.phase)) (s := clearBlocks s) fun t s => by
    unfold endCleared; split <;> rfl

theorem generationsCleared_get {d : Directory} (h : d.gens.length = 80) {i : Nat} (hi : i < 80) :
    (generationsCleared d)[i]? = (d.gens[i]?).map (fun g => if d.records.any (fun r => r.ref.handle == i + 1) then (g + 1) % 16 else g) := by
  rw [generationsCleared, List.getElem?_map, List.getElem?_range' (by exact hi), List.getElem?_eq_getElem (by omega)]
  simp only [Option.map_some, Nat.one_mul]
  have : d.gens.getD (1 + i - 1) 0 = d.gens[i] := by
    rw [Nat.add_sub_cancel_left, List.getD_eq_getElem?_getD, List.getElem?_eq_getElem (by omega)]; rfl
  rw [this, Nat.add_comm 1 i]

theorem exec_clearAll {s : State} {b : Byte} {t : Tag} (h : Accepts s b t) :
    exec (.clearAll b) s = .next (clearAll t (received 1 s)) := congrArg _ (submit_accepts h 1 _)

/-- Settles O52: the blocks are those of `clearBlocks`, and the port ends the running requests in the order of their tags. -/
theorem clearAllEmptiesEveryBlock : Obligations.ClearAllEmptiesEveryBlock := by
  intro s b t h hgens
  obtain ⟨tags, hp, ht⟩ := clearAll_port t (received 1 s)
  have hblocks := clearAll_blocks t (received 1 s)
  have hrest := clearAll_rest t (received 1 s)
  simp only [Prod.mk.injEq] at hblocks hrest
  obtain ⟨hcommit, hdir, hstore, hkeys, hlinks⟩ := hblocks
  obtain ⟨hboundary, hstaging, hjobs, hnow, hphase⟩ := hrest
  have hended : fours.filterMap (clearedOf (clearBlocks (received 1 s))) = ([0, 1, 2, 3] : List Tag).filterMap (fun n =>
      match s.port.tags.get n with
      | .running x => some ⟨n, x.kind, .cleared, 0, if x = .commit then halfBytes 0 else x.fields⟩
      | _ => none) := by
    apply List.filterMap_congr
    intro n _
    rw [clearedOf, show (clearBlocks (received 1 s)).port.tags = s.port.tags from rfl]
    cases s.port.tags.get n with
    | running x =>
      show some (Completion.mk n x.kind .cleared 0 (x.clearedFields 0)) = some (Completion.mk n x.kind .cleared 0 _)
      rw [x.clearedFields_zero]
    | _ => rfl
  have hcount : (runningTags (received 1 s)).length = (fours.filterMap (clearedOf (clearBlocks (received 1 s)))).length := by
    rw [← filterMap_runningTags (received 1 s) (clearBlocks (received 1 s)) rfl, List.length_filterMap_eq_countP, eq_comm, List.countP_eq_length]
    intro n hn
    obtain ⟨x, hx⟩ := mem_runningTags.mp hn
    rw [clearedOf, show (clearBlocks (received 1 s)).port.tags.get n = .running x from hx]; rfl
  refine ⟨_, _, exec_clearAll h, hended, by rw [hp]; rfl, fun n => ?_, by rw [hp], by rw [hp]; rfl, by rw [hp]; rfl, ?_, by rw [hdir]; rfl,
    by rw [hdir]; rfl, by rw [hdir]; rfl, by rw [hdir]; rfl, by rw [hdir]; rfl, ?_, fun i hi => ?_, hkeys, hstore, hstaging, hjobs, hcommit,
    hboundary, fun l => ?_, hnow, hphase⟩
  · rw [hp]
    refine (ht n).trans (if_congr .rfl rfl ?_)
    show (s.port.tags.get n).ended = _
    cases s.port.tags.get n <;> rfl
  · rw [hp, hcount]
  · rw [hdir]; exact (List.length_map ..).trans List.length_range'
  · rw [hdir]; exact generationsCleared_get hgens hi
  · have hl : (clearAll t (received 1 s)).links.get l = LinkEngine.cleared s.now (s.links.get l) := by rw [hlinks]; exact Quad.get_map ..
    rw [hl, LinkEngine.cleared]
    split
    · rfl
    · exact ⟨rfl, rfl, rfl, rfl, rfl, rfl, rfl, rfl, rfl, rfl, rfl⟩

/-! ### The clear interval and device reset -/

theorem whenOperating_of {s : State} (h : s.phase = .operating) (f : State → State) : whenOperating f s = f s := if_pos h

theorem startupEnd_startup {s : State} (h : s.phase = .startup) : startupEnd s = { s with
    phase := .operating, port := { s.port with state := .ready, attn := s.port.attn.raiseDevice .resetDone } } := by
  rw [startupEnd, if_pos h]; rfl

/-- Settles O53: every part is a computation of the model on the state given. -/
theorem clearIntervalAndDeviceReset : Obligations.ClearIntervalAndDeviceReset := by
  refine ⟨fun s h => ⟨fun hc => ?_, fun c hc => ?_⟩, fun s => ?_⟩
  · show Host.Outcome.next (whenOperating clearIntervalEnd s) = _
    rw [whenOperating_of h, clearIntervalEnd, hc]
  · show Host.Outcome.next (whenOperating clearIntervalEnd s) = _
    rw [whenOperating_of h]
    simp only [clearIntervalEnd, hc, answerOk, complete, modPort]
    cases hs : c.scope <;> simp [RunningClear.result, hs, ClearScope.code, u8, ClearScope.ctorIdx]
  · refine ⟨_, _, _, rfl, rfl, rfl, rfl, rfl, ?_, fun u hu => ?_⟩
    · show Host.Outcome.next (startupEnd _) = _
      rw [startupEnd_startup rfl, show (initialIn .startup (initialIn .inReset s)).port.attn = AttnSet.empty from rfl,
        show AttnSet.empty.raiseDevice .resetDone = { AttnSet.empty with device := 1 } by decide]
    show Host.Outcome.next (startupEnd u) = _
    rw [startupEnd, if_neg hu]

end Sys2Proof.Machine
end

section
/-! PROOFS. The post-view of a commit and its packets (O30), and the checks of COMMIT (O22). -/

namespace Sys2Proof.Machine

/-! ### Entries by scope and key -/

/-- Two scopes and keys are of one place (R35, R48). -/
def samePlace (sc : Scope) (k : Nat) (sc' : Scope) (k' : Nat) : Bool := sameScope sc sc' && k == k'

theorem samePlace_iff {sc sc' : Scope} {k k' : Nat} : samePlace sc k sc' k' = true ↔ sameScope sc sc' = true ∧ k = k' := by
  simp [samePlace]

theorem isAt_eq_samePlace (e : Entry) (sc : Scope) (k : Nat) : e.isAt sc k = samePlace e.scope e.key sc k := rfl

theorem samePlace_refl (sc : Scope) (k : Nat) : samePlace sc k sc k = true :=
  samePlace_iff.mpr ⟨(sameScope_iff sc sc).mpr ⟨rfl, rfl⟩, rfl⟩

theorem samePlace_symm (sc : Scope) (k : Nat) (sc' : Scope) (k' : Nat) : samePlace sc k sc' k' = samePlace sc' k' sc k := by
  rw [samePlace, samePlace, sameScope_symm, Bool.beq_comm]

theorem samePlace_right {sc sc' : Scope} {k k' : Nat} (h : samePlace sc k sc' k' = true) (a : Scope) (j : Nat) :
    samePlace a j sc k = samePlace a j sc' k' := by
  obtain ⟨h1, rfl⟩ := samePlace_iff.mp h
  rw [samePlace, samePlace, sameScope_right h1]

theorem samePlace_left {sc sc' : Scope} {k k' : Nat} (h : samePlace sc k sc' k' = true) (a : Scope) (j : Nat) :
    samePlace sc k a j = samePlace sc' k' a j := by
  rw [samePlace_symm, samePlace_right h, samePlace_symm]

/-- An entry put into the store is found at its place, and nothing else moves (R37). -/
theorem findEntry_putEntry (n : Entry) (es : List Entry) (sc : Scope) (k : Nat) :
    findEntry (putEntry n es) sc k = if n.isAt sc k then some n else findEntry es sc k := by
  have hcons : ∀ (e : Entry) (xs : List Entry), findEntry (e :: xs) sc k = if e.isAt sc k then some e else findEntry xs sc k := fun e xs => by
    rw [findEntry, List.find?_cons]; cases e.isAt sc k <;> rfl
  induction es with
  | nil => rw [putEntry, hcons]
  | cons e es ih =>
    unfold putEntry
    split
    · rename_i hat
      have he : e.isAt sc k = n.isAt sc k := samePlace_left hat sc k
      rw [hcons, hcons, he]
      split <;> rfl
    · split
      · exact hcons n (e :: es)
      · rename_i hat _
        rw [hcons, hcons, ih]
        cases he : e.isAt sc k with
        | false => rfl
        | true =>
          have hn : n.isAt sc k = false := by
            by_contra hn
            rw [Bool.not_eq_false] at hn
            rw [isAt_eq_samePlace, samePlace_right hn, ← isAt_eq_samePlace] at hat
            exact hat he
          simp [hn]

theorem findEntry_dropEntry (sc' : Scope) (k' : Nat) (es : List Entry) (sc : Scope) (k : Nat) :
    findEntry (dropEntry sc' k' es) sc k = if samePlace sc' k' sc k then none else findEntry es sc k := by
  rw [findEntry, dropEntry, List.find?_filter]
  split
  · rename_i h
    exact List.find?_eq_none.mpr fun e _ => by simp [isAt_eq_samePlace, samePlace_right h]
  · rename_i h
    congr 1
    funext e
    cases he : e.isAt sc k with
    | false => simp
    | true =>
      have : e.isAt sc' k' = false := by
        by_contra hc
        rw [Bool.not_eq_false] at hc
        rw [samePlace_symm, ← samePlace_right hc] at h
        rw [isAt_eq_samePlace, samePlace_symm] at he
        exact h he
      simp [this]

/-- A change of another target leaves the entry of a place alone. -/
theorem findEntry_applyEntryChange {c : Change} {sc : Scope} {k : Nat} (h : sameTarget c.target (.entry sc k) = false) (es : List Entry) :
    findEntry (applyEntryChange es c) sc k = findEntry es sc k := by
  cases c with
  | setVal sc' k' v => exact (findEntry_putEntry ..).trans (if_neg (by rw [show (Entry.mk sc' k' v).isAt sc k = false from h]; simp))
  | clearVal sc' k' => exact (findEntry_dropEntry ..).trans (if_neg (by rw [show samePlace sc' k' sc k = false from h]; simp))
  | _ => rfl

theorem findEntry_storeAfter_of_untouched {cs : List Change} {sc : Scope} {k : Nat}
    (h : ∀ c ∈ cs, sameTarget c.target (.entry sc k) = false) (es : List Entry) :
    findEntry (storeAfter es cs) sc k = findEntry es sc k := by
  unfold storeAfter
  induction cs generalizing es with
  | nil => rfl
  | cons c cs ih => exact (ih (fun x hx => h x (by simp [hx])) _).trans (findEntry_applyEntryChange (h c (by simp)) es)

theorem sameTarget_refl (t : Target) : sameTarget t t = true := by
  cases t with
  | entry sc k => exact samePlace_refl sc k
  | position h => exact beq_self_eq_true h
  | groupSet h => exact beq_self_eq_true h

/-- The change of a target decides what the store holds there. -/
theorem findEntry_storeAfter {cs : List Change} (hcs : cs.Pairwise (fun a b => sameTarget a.target b.target = false)) {c : Change}
    (hc : c ∈ cs) {sc : Scope} {k : Nat} (ht : c.target = .entry sc k) (es : List Entry) :
    findEntry (storeAfter es cs) sc k = findEntry (applyEntryChange [] c) sc k := by
  induction cs generalizing es with
  | nil => cases hc
  | cons x cs ih =>
    obtain ⟨hx, hcs⟩ := List.pairwise_cons.mp hcs
    rcases List.mem_cons.mp hc with rfl | hc
    · show findEntry (storeAfter (applyEntryChange es c) cs) sc k = _
      rw [findEntry_storeAfter_of_untouched fun y hy => by rw [sameTarget_symm, ← ht]; exact hx y hy]
      cases c with
      | setVal a j v =>
        obtain ⟨rfl, rfl⟩ := Target.entry.inj ht
        rw [applyEntryChange, applyEntryChange, findEntry_putEntry, findEntry_putEntry, isAt_eq_samePlace, samePlace_refl, if_pos rfl,
          if_pos rfl]
      | clearVal a j =>
        obtain ⟨rfl, rfl⟩ := Target.entry.inj ht
        rw [applyEntryChange, applyEntryChange, findEntry_dropEntry, findEntry_dropEntry, samePlace_refl, if_pos rfl, if_pos rfl]
      | _ => cases ht
    · exact ih hcs hc _

theorem findEntry_of_set {cs : List Change} (hcs : cs.Pairwise (fun a b => sameTarget a.target b.target = false)) {sc : Scope} {k : Nat}
    {v : Half} (hc : Change.setVal sc k v ∈ cs) (es : List Entry) : findEntry (storeAfter es cs) sc k = some ⟨sc, k, v⟩ := by
  rw [findEntry_storeAfter hcs hc rfl, applyEntryChange, findEntry_putEntry]
  exact if_pos (samePlace_refl sc k)

theorem findEntry_of_clear {cs : List Change} (hcs : cs.Pairwise (fun a b => sameTarget a.target b.target = false)) {sc : Scope} {k : Nat}
    (hc : Change.clearVal sc k ∈ cs) (es : List Entry) : findEntry (storeAfter es cs) sc k = none := by
  rw [findEntry_storeAfter hcs hc rfl]; rfl

/-! ### The size of the post-view (R38) -/

/-- A store in listing order with one entry to a place. -/
def Placed (es : List Entry) : Prop := es.Pairwise (fun a b => a.rank ≤ b.rank ∧ a.isAt b.scope b.key = false)

theorem placed_of_strict {es : List Entry} (h : es.Pairwise (fun a b => a.rank < b.rank)) : Placed es :=
  h.imp fun {a b} hab => ⟨Nat.le_of_lt hab, by
    by_contra hat
    have := Entry.isAt_rank (Bool.not_eq_false _ ▸ hat)
    omega⟩

theorem findEntry_isNone {es : List Entry} {sc : Scope} {k : Nat} : (findEntry es sc k).isNone = true ↔ ∀ e ∈ es, e.isAt sc k = false := by
  simp [findEntry]

theorem Placed.putEntry {es : List Entry} (h : Placed es) (n : Entry) :
    Placed (Machine.putEntry n es) ∧ (Machine.putEntry n es).length = es.length + if (findEntry es n.scope n.key).isNone then 1 else 0 := by
  induction es with
  | nil => exact ⟨List.pairwise_singleton _ _, rfl⟩
  | cons e es ih =>
    obtain ⟨he, hes⟩ := List.pairwise_cons.mp h
    unfold Machine.putEntry
    split
    · rename_i hat
      refine ⟨List.pairwise_cons.mpr ⟨fun x hx => ?_, hes⟩, ?_⟩
      · rw [← Entry.isAt_rank hat, isAt_eq_samePlace, ← samePlace_left hat]
        exact he x hx
      · rw [if_neg (by rw [findEntry_isNone]; exact fun hn => by rw [hn e (by simp)] at hat; cases hat)]; rfl
    · rename_i hat
      rw [Bool.not_eq_true] at hat
      have hcons : (findEntry (e :: es) n.scope n.key).isNone = (findEntry es n.scope n.key).isNone := by
        rw [findEntry, List.find?_cons, hat]; rfl
      split
      · rename_i hlt
        have hafter : ∀ x ∈ e :: es, n.rank < x.rank := fun x hx => by
          rcases List.mem_cons.mp hx with rfl | hx
          · exact hlt
          · have := (he x hx).1; omega
        have hnot : ∀ x ∈ e :: es, x.isAt n.scope n.key = false := fun x hx => by
          by_contra hc
          have := Entry.isAt_rank (Bool.not_eq_false _ ▸ hc)
          have := hafter x hx
          omega
        refine ⟨List.pairwise_cons.mpr ⟨fun x hx => ⟨Nat.le_of_lt (hafter x hx), ?_⟩, h⟩, ?_⟩
        · rw [isAt_eq_samePlace, samePlace_symm]; exact hnot x hx
        · rw [if_pos (findEntry_isNone.mpr hnot)]; rfl
      · obtain ⟨h1, h2⟩ := ih hes
        refine ⟨List.pairwise_cons.mpr ⟨fun x hx => ?_, h1⟩, ?_⟩
        · rcases mem_putEntry hx with rfl | hx
          · exact ⟨by omega, hat⟩
          · exact he x hx
        · rw [List.length_cons, h2, hcons, List.length_cons]; omega

theorem Placed.dropEntry {es : List Entry} (h : Placed es) (sc : Scope) (k : Nat) :
    Placed (Machine.dropEntry sc k es) ∧ (Machine.dropEntry sc k es).length + (if (findEntry es sc k).isSome then 1 else 0) = es.length := by
  refine ⟨h.sublist List.filter_sublist, ?_⟩
  induction es with
  | nil => rfl
  | cons e es ih =>
    obtain ⟨he, hes⟩ := List.pairwise_cons.mp h
    cases hat : e.isAt sc k with
    | true =>
      have hnot : ∀ x ∈ es, x.isAt sc k = false := fun x hx => by
        by_contra hc
        rw [Bool.not_eq_false] at hc
        have := (he x hx).2
        rw [isAt_eq_samePlace, samePlace_right hc, ← isAt_eq_samePlace, hat] at this
        cases this
      rw [show Machine.dropEntry sc k (e :: es) = es from by
        rw [Machine.dropEntry, List.filter_cons_of_neg (by simp [hat]), List.filter_eq_self]; exact fun x hx => by simp [hnot x hx]]
      rw [findEntry, List.find?_cons, hat]; rfl
    | false =>
      have := ih hes
      have hfind : findEntry (e :: es) sc k = findEntry es sc k := by rw [findEntry, List.find?_cons, hat]; rfl
      rw [show Machine.dropEntry sc k (e :: es) = e :: Machine.dropEntry sc k es from List.filter_cons_of_pos (by simp [hat]),
        hfind, List.length_cons, List.length_cons]
      omega

/-- A SET that adds an entry to a store. -/
def addsTo (es : List Entry) : Change → Bool
  | .setVal sc k _ => (findEntry es sc k).isNone
  | _ => false

/-- A CLEAR that takes an entry from a store. -/
def takesFrom (es : List Entry) : Change → Bool
  | .clearVal sc k => (findEntry es sc k).isSome
  | _ => false

theorem postSize_eq (es : List Entry) (cs : List Change) :
    postSize es cs = es.length + (cs.filter (addsTo es)).length - (cs.filter (takesFrom es)).length := by
  have h1 : addsTo es = fun c => match c with
      | .setVal sc k _ => (findEntry es sc k).isNone
      | _ => false := funext fun c => by cases c <;> rfl
  have h2 : takesFrom es = fun c => match c with
      | .clearVal sc k => (findEntry es sc k).isSome
      | _ => false := funext fun c => by cases c <;> rfl
  rw [h1, h2]; rfl

/-- One change of the store. -/
theorem Placed.apply {es : List Entry} (h : Placed es) (c : Change) :
    Placed (applyEntryChange es c)
      ∧ (applyEntryChange es c).length + (if takesFrom es c then 1 else 0) = es.length + if addsTo es c then 1 else 0 := by
  cases c with
  | setVal sc k v => exact h.putEntry ⟨sc, k, v⟩
  | clearVal sc k => exact h.dropEntry sc k
  | _ => exact ⟨h, rfl⟩

/-- The changes of other targets add to and take from a store changed what they did before. -/
theorem counts_applyEntryChange {c x : Change} (h : sameTarget c.target x.target = false) (es : List Entry) :
    addsTo (applyEntryChange es c) x = addsTo es x ∧ takesFrom (applyEntryChange es c) x = takesFrom es x := by
  cases x with
  | setVal sc k v => exact ⟨by rw [addsTo, findEntry_applyEntryChange h]; rfl, rfl⟩
  | clearVal sc k => exact ⟨rfl, by rw [takesFrom, findEntry_applyEntryChange h]; rfl⟩
  | _ => exact ⟨rfl, rfl⟩

theorem storeAfter_placed {es : List Entry} (h : Placed es) {cs : List Change}
    (hcs : cs.Pairwise (fun a b => sameTarget a.target b.target = false)) :
    Placed (storeAfter es cs)
      ∧ (storeAfter es cs).length + (cs.filter (takesFrom es)).length = es.length + (cs.filter (addsTo es)).length := by
  induction cs generalizing es with
  | nil => exact ⟨h, rfl⟩
  | cons c cs ih =>
    obtain ⟨hc, hcs⟩ := List.pairwise_cons.mp hcs
    obtain ⟨h1, h2⟩ := h.apply c
    obtain ⟨h3, h4⟩ := ih h1 hcs
    rw [List.filter_congr fun x hx => (counts_applyEntryChange (hc x hx) es).2,
      List.filter_congr fun x hx => (counts_applyEntryChange (hc x hx) es).1] at h4
    refine ⟨h3, ?_⟩
    show (storeAfter (applyEntryChange es c) cs).length + _ = _
    rw [← List.countP_eq_length_filter, ← List.countP_eq_length_filter, List.countP_cons, List.countP_cons,
      List.countP_eq_length_filter, List.countP_eq_length_filter]
    omega

theorem postSize_storeAfter {es : List Entry} (h : Placed es) {cs : List Change}
    (hcs : cs.Pairwise (fun a b => sameTarget a.target b.target = false)) : postSize es cs = (storeAfter es cs).length := by
  have := (storeAfter_placed h hcs).2
  rw [postSize_eq]; omega

/-! ### Positions and group sets after the staged changes (R68, R77) -/

/-- A search that only one member of a list answers finds what it answers. -/
theorem findSome?_of_unique {α β : Type} {f : α → Option β} {xs : List α} {a : α} {b : β} (ha : a ∈ xs) (hf : f a = some b)
    (hu : ∀ x ∈ xs, f x ≠ none → x = a) : xs.findSome? f = some b := by
  induction xs with
  | nil => cases ha
  | cons x xs ih =>
    rw [List.findSome?_cons]
    cases hx : f x with
    | some c =>
      have := hu x (by simp) (by rw [hx]; simp)
      rw [this, hf] at hx
      exact hx.symm
    | none =>
      rcases List.mem_cons.mp ha with rfl | ha
      · rw [hf] at hx; cases hx
      · exact ih ha fun y hy => hu y (by simp [hy])

theorem eq_of_sameTarget {cs : List Change} (hcs : cs.Pairwise (fun a b => sameTarget a.target b.target = false)) {a b : Change}
    (ha : a ∈ cs) (hb : b ∈ cs) {t : Target} (hat : sameTarget a.target t = true) (hbt : sameTarget b.target t = true) : a = b := by
  by_contra hne
  have hsymm : Std.Symm fun a b : Change => sameTarget a.target b.target = false := ⟨fun x y h => (sameTarget_symm ..).trans h⟩
  have := hcs.forall ha hb hne
  rw [sameTarget_symm] at hbt
  rw [sameTarget_right (by rw [sameTarget_symm]; exact hbt : sameTarget b.target t = true), hat] at this
  cases this

/-- The position a change gives a handle. -/
def positionFor (h : Nat) : Change → Option (Option Cell)
  | .place r cell _ => if r.handle = h then some (some cell) else none
  | .unplace r => if r.handle = h then some none else none
  | _ => none

theorem stagedPosition_eq (cs : List Change) (h : Nat) : stagedPosition cs h = cs.findSome? (positionFor h) := by
  have : positionFor h = fun c => match c with
    | .place r cell _ => if r.handle = h then some (some cell) else none
    | .unplace r => if r.handle = h then some none else none
    | _ => none := funext fun c => by cases c <;> rfl
  rw [this]; rfl

theorem positionFor_none {h : Nat} {c : Change} : positionFor h c = none ↔ sameTarget c.target (.position h) = false := by
  cases c <;> simp [positionFor, Change.target, sameTarget]

/-- The group set a change gives a handle. -/
def groupsFor (h : Nat) : Change → Option GroupSet
  | .groups r g => if r.handle = h then some g else none
  | _ => none

theorem stagedGroups_eq (cs : List Change) (h : Nat) : stagedGroups cs h = cs.findSome? (groupsFor h) := by
  have : groupsFor h = fun c => match c with
    | .groups r g => if r.handle = h then some g else none
    | _ => none := funext fun c => by cases c <;> rfl
  rw [this]; rfl

theorem groupsFor_none {h : Nat} {c : Change} : groupsFor h c = none ↔ sameTarget c.target (.groupSet h) = false := by
  cases c <;> simp [groupsFor, Change.target, sameTarget]

theorem stagedPosition_isNone {cs : List Change} {h : Nat} :
    (stagedPosition cs h).isNone = true ↔ ∀ c ∈ cs, sameTarget c.target (.position h) = false := by
  rw [stagedPosition_eq, Option.isNone_iff_eq_none, List.findSome?_eq_none_iff]
  exact forall₂_congr fun c _ => positionFor_none

theorem stagedPosition_of_mem {cs : List Change} (hcs : cs.Pairwise (fun a b => sameTarget a.target b.target = false)) {c : Change}
    (hc : c ∈ cs) {h : Nat} {x : Option Cell} (hx : positionFor h c = some x) : stagedPosition cs h = some x := by
  have ht : ∀ y ∈ cs, positionFor h y ≠ none → sameTarget y.target (.position h) = true := fun y _ hy => by
    rw [ne_eq, positionFor_none, Bool.not_eq_false] at hy; exact hy
  rw [stagedPosition_eq]
  exact findSome?_of_unique hc hx fun y hy hn => eq_of_sameTarget hcs hy hc (ht y hy hn) (ht c hc (by rw [hx]; simp))

theorem stagedGroups_of_mem {cs : List Change} (hcs : cs.Pairwise (fun a b => sameTarget a.target b.target = false)) {c : Change}
    (hc : c ∈ cs) {h : Nat} {x : GroupSet} (hx : groupsFor h c = some x) : stagedGroups cs h = some x := by
  have ht : ∀ y ∈ cs, groupsFor h y ≠ none → sameTarget y.target (.groupSet h) = true := fun y _ hy => by
    rw [ne_eq, groupsFor_none, Bool.not_eq_false] at hy; exact hy
  rw [stagedGroups_eq]
  exact findSome?_of_unique hc hx fun y hy hn => eq_of_sameTarget hcs hy hc (ht y hy hn) (ht c hc (by rw [hx]; simp))

theorem stagedGroups_none {cs : List Change} {h : Nat} (hcs : ∀ c ∈ cs, sameTarget c.target (.groupSet h) = false) :
    stagedGroups cs h = none := by
  rw [stagedGroups_eq, List.findSome?_eq_none_iff]
  exact fun c hc => groupsFor_none.mpr (hcs c hc)

/-- What the staged changes say of a record: its position and its group set after them. -/
theorem positionAfter_place {cs : List Change} (hcs : cs.Pairwise (fun a b => sameTarget a.target b.target = false)) {ref : Ref}
    {cell : Cell} {d : Bool} (hc : Change.place ref cell d ∈ cs) {r : Record} (hr : ref.handle = r.ref.handle) (ds : List Ref) :
    positionAfter cs ds r = some cell := by
  rw [positionAfter, stagedPosition_of_mem hcs hc (if_pos hr)]

theorem positionAfter_unplace {cs : List Change} (hcs : cs.Pairwise (fun a b => sameTarget a.target b.target = false)) {ref : Ref}
    (hc : Change.unplace ref ∈ cs) {r : Record} (hr : ref.handle = r.ref.handle) (ds : List Ref) : positionAfter cs ds r = none := by
  rw [positionAfter, stagedPosition_of_mem hcs hc (if_pos hr)]

theorem positionAfter_untouched {cs : List Change} {r : Record} (hcs : ∀ c ∈ cs, sameTarget c.target (.position r.ref.handle) = false)
    (ds : List Ref) : positionAfter cs ds r = if r.ref ∈ ds then none else r.pos := by
  rw [positionAfter, Option.isNone_iff_eq_none.mp (stagedPosition_isNone.mpr hcs)]
  simp

theorem groupsAfter_staged {cs : List Change} (hcs : cs.Pairwise (fun a b => sameTarget a.target b.target = false)) {ref : Ref}
    {g : GroupSet} (hc : Change.groups ref g ∈ cs) {r : Record} (hr : ref.handle = r.ref.handle) : groupsAfter cs r = g := by
  rw [groupsAfter, stagedGroups_of_mem hcs hc (if_pos hr)]; rfl

theorem groupsAfter_untouched {cs : List Change} {r : Record} (hcs : ∀ c ∈ cs, sameTarget c.target (.groupSet r.ref.handle) = false) :
    groupsAfter cs r = r.groups := by
  rw [groupsAfter, stagedGroups_none hcs]; rfl

/-! ### A record's part of a view -/

theorem find?_map_sole {α β : Type} {f : α → β} {p : β → Bool} {xs : List α} {x : α} (h : Sole (fun a => p (f a) = true) xs x) :
    (xs.map f).find? p = some (f x) := by
  rw [List.find?_map]
  have : xs.find? (p ∘ f) = some x := by
    cases hx : xs.find? (p ∘ f) with
    | none => exact absurd h.holds (by simpa using List.find?_eq_none.mp hx x h.mem)
    | some y => rw [h.only y (List.mem_of_find?_eq_some hx) (by simpa using List.find?_some hx)]
  rw [this]; rfl

theorem part_of_sole {s : State} {r : Record} (h : Sole (fun x => x.ref = r.ref) s.dir.records r) {es : List Entry}
    (f : Record → ViewRec) (hf : ∀ x, (f x).ref = x.ref) : View.part ⟨es, s.dir.records.map f⟩ r.ref = f r := by
  have hs : Sole (fun a => (f a).ref == r.ref) s.dir.records r :=
    ⟨h.mem, by simp [hf], fun y hy hyp => h.only y hy (by simpa [hf] using hyp)⟩
  rw [View.part, find?_map_sole (p := fun x : ViewRec => x.ref == r.ref) hs]; rfl

/-! ### Participants, changed pairs and packets -/

theorem participantOf_some {s : State} {post : View} {r : Record} {p : Participant} : participantOf s post r = some p ↔
    r.state = .active ∧ p.pairs ≠ [] ∧ p = { ref := r.ref, loc := r.loc, acked := 0, reached := false, cancelSent := false, status := .unprepared
                                             pairs := changedPairs s.keys (committedView s) post r.ref } := by
  unfold participantOf
  dsimp only
  split
  · rename_i h
    rw [Option.some_inj]
    exact ⟨fun hp => by subst hp; exact ⟨h.1, h.2, rfl⟩, fun hp => hp.2.2.symm⟩
  · rename_i h
    refine ⟨by rintro ⟨⟩, fun ⟨h1, h2, h3⟩ => absurd ⟨h1, ?_⟩ h⟩
    rw [h3] at h2; exact h2

theorem participantOf_ref {s : State} {post : View} {r : Record} {p : Participant} (h : participantOf s post r = some p) : p.ref = r.ref := by
  rw [(participantOf_some.mp h).2.2]

theorem filterMap_map_sublist {α β γ : Type} {f : α → Option β} {g : β → γ} {k : α → γ} (h : ∀ a b, f a = some b → g b = k a)
    (xs : List α) : ((xs.filterMap f).map g).Sublist (xs.map k) := by
  induction xs with
  | nil => exact .slnil
  | cons x xs ih =>
    rw [List.filterMap_cons]
    cases hx : f x with
    | none => exact ih.cons _
    | some b => rw [List.map_cons, List.map_cons, h x b hx]; exact ih.cons_cons _

theorem filterMap_changedKeyPair (keys : List KeyRec) (v w : View) (ref : Ref) : keys.filterMap (changedKeyPair v w ref)
    = (keys.filter (fun k => k.introduced || decide ((effective v (v.part ref) k).1 ≠ (effective w (w.part ref) k).1))).map
        (fun k => ⟨k.addr, (effective w (w.part ref) k).1⟩) := by
  induction keys with
  | nil => rfl
  | cons k ks ih =>
    have hiff : (k.introduced || decide ((effective v (v.part ref) k).1 ≠ (effective w (w.part ref) k).1)) = true
        ↔ k.introduced = true ∨ (effective v (v.part ref) k).1 ≠ (effective w (w.part ref) k).1 := by simp
    rw [List.filterMap_cons, List.filter_cons]
    by_cases h : k.introduced = true ∨ (effective v (v.part ref) k).1 ≠ (effective w (w.part ref) k).1
    · rw [if_pos (hiff.mpr h), List.map_cons, ← ih, changedKeyPair, if_pos h]
    · rw [if_neg (mt hiff.mp h), ← ih, changedKeyPair, if_neg h]

theorem columnValue_eq (p : Option Cell) : columnValue p = p.elim 0xFFFF fun c => BitVec.ofNat 16 c.col := by cases p <;> rfl
theorem rowValue_eq (p : Option Cell) : rowValue p = p.elim 0xFFFF fun c => BitVec.ofNat 16 c.row := by cases p <;> rfl

theorem packetCount_eq (n : Nat) : packetCount n = (n + 5) / 6 := rfl

theorem flatMap_packets (ps : List Pair) (n : Nat) (h : ps.length ≤ 6 * n) :
    (List.range n).flatMap (fun i => (ps.drop (6 * i)).take 6) = ps := by
  have hmid : ∀ m, (List.range m).flatMap (fun i => (ps.drop (6 * i)).take 6) = ps.take (6 * m) := fun m => by
    induction m with
    | zero => simp
    | succ m ih =>
      rw [List.range_succ, List.flatMap_append, ih, List.flatMap_singleton, Nat.mul_succ, List.take_add]
  rw [hmid, List.take_of_length_le h]

/-- Settles O30: each part is read off the definition it speaks of, the post-view through the changes of its targets. -/
theorem commitComputesItsPackets : Obligations.CommitComputesItsPackets := by
  refine ⟨fun s ds hstore hcs => ?_, fun s post => ⟨filterMap_map_sublist (fun r p => participantOf_ref) _, fun p => ?_⟩,
    fun keys v w ref => ?_, fun s => ⟨rfl, fun r hr => part_of_sole hr _ fun _ => rfl⟩, fun keys v ref => ?_, fun epoch p => ?_⟩
  · refine ⟨postSize_storeAfter (placed_of_strict hstore) hcs, fun sc k v hc => findEntry_of_set hcs hc _,
      fun sc k hc => findEntry_of_clear hcs hc _, fun sc k hc => findEntry_storeAfter_of_untouched hc _, fun r hr => ?_⟩
    rw [postView, part_of_sole hr _ fun _ => rfl]
    exact ⟨fun ref g hc hh => groupsAfter_staged hcs hc hh, fun hc => groupsAfter_untouched hc,
      fun ref cell d hc hh => positionAfter_place hcs hc hh ds, fun ref hc hh => positionAfter_unplace hcs hc hh ds,
      fun hc => positionAfter_untouched hc ds⟩
  · rw [participantsOf, List.mem_filterMap]
    exact exists_congr fun r => and_congr_right fun _ => participantOf_some
  · rw [changedPairs, filterMap_changedKeyPair, columnValue_eq, columnValue_eq, rowValue_eq, rowValue_eq]
    dsimp only
    rw [ite_not, ite_not]
    rfl
  · rw [changeList, columnValue_eq, rowValue_eq]
    simp [columnAddr, rowAddr]
  · refine ⟨by simp [prepareTxns, packetCount_eq], ?_, fun i hi => ?_⟩
    · rw [prepareTxns, packetCount_eq, List.flatMap_map]
      exact flatMap_packets p.pairs _ (by omega)
    · rw [prepareTxns, packetCount_eq, List.getElem?_map, List.getElem?_range hi]; rfl

end Sys2Proof.Machine
end

section
/-! PROOFS. COMMIT, ABORT and COMMIT_STATUS at acceptance (O22, O23, O24). -/

namespace Sys2Proof.Machine

theorem exec_commit {s : State} {b p : Byte} {t : Tag} (h : Accepts s b t) :
    exec (.commit b p) s = .next (commitRequest p t (received 1 s)) := congrArg _ (submit_accepts h 1 (commitRequest p))

theorem exec_abort {s : State} {b : Byte} {t : Tag} (h : Accepts s b t) :
    exec (.abort b) s = .next (abort t (received 0 s)) := congrArg _ (submit_accepts h 0 abort)

theorem exec_commitStatus {s : State} {b : Byte} {t : Tag} (h : Accepts s b t) :
    exec (.commitStatus b) s = .next (commitStatus t (received 0 s)) := congrArg _ (submit_accepts h 0 commitStatus)

/-! ### The checks of COMMIT (R67) -/

theorem policyOf_none {p : Byte} : policyOf p = none ↔ 1 < p.toNat := by
  have h0 : p = 0 ↔ p.toNat = 0 := ⟨fun h => by simp [h], fun h => BitVec.eq_of_toNat_eq (by simpa using h)⟩
  have h1 : p = 1 ↔ p.toNat = 1 := ⟨fun h => by simp [h], fun h => BitVec.eq_of_toNat_eq (by simpa using h)⟩
  simp only [policyOf, h0, h1]
  split
  · simp; omega
  · split <;> simp <;> omega

theorem policyOf_some {p : Byte} (h : p.toNat ≤ 1) : ∃ policy, policyOf p = some policy :=
  Option.ne_none_iff_exists'.mp fun hn => absurd (policyOf_none.mp hn) (by omega)

theorem refuseCommit_received (st : Status) (fields : List Byte) (t : Tag) (s : State) :
    refuseCommit st fields t (received 1 s) = answered s 1 t .commit st (fields ++ halfBytes s.commit.epoch) := rfl

/-- Nothing calls for a commit: no change is staged and no key is introduced. -/
theorem nothing_to_commit {s : State} : (s.staging = [] ∧ s.keys.all (fun k => !k.introduced) = true)
    ↔ s.staging = [] ∧ ∀ k ∈ s.keys, k.introduced = false := by simp

theorem something_to_commit {s : State} (h : s.staging ≠ [] ∨ ∃ k ∈ s.keys, k.introduced = true) :
    ¬ (s.staging = [] ∧ s.keys.all (fun k => !k.introduced) = true) := by
  rw [nothing_to_commit]
  rintro ⟨hs, hk⟩
  rcases h with h | ⟨k, hm, hi⟩
  · exact h hs
  · simp [hk k hm] at hi

/-- A COMMIT whose policy is none of those there are. -/
theorem commitRequest_badPolicy {s : State} {p : Byte} (t : Tag) (hp : 1 < p.toNat) : commitRequest p t s = refuseCommit .badParameter [] t s := by
  rw [commitRequest, policyOf_none.mpr hp]

theorem commitRequest_busy {s : State} {p : Byte} (t : Tag) (hp : p.toNat ≤ 1) (hb : s.commit.state ≠ .idle) :
    commitRequest p t s = refuseCommit .busy [] t s := by
  obtain ⟨policy, hpol⟩ := policyOf_some hp
  rw [commitRequest, hpol]
  exact if_pos hb

theorem commitRequest_empty {s : State} {p : Byte} (t : Tag) (hp : p.toNat ≤ 1) (hi : s.commit.state = .idle) (hs : s.staging = [])
    (hk : ∀ k ∈ s.keys, k.introduced = false) : commitRequest p t s = refuseCommit .empty [] t s := by
  obtain ⟨policy, hpol⟩ := policyOf_some hp
  rw [commitRequest, hpol]
  exact (if_neg (not_not.mpr hi)).trans (if_pos (nothing_to_commit.mpr ⟨hs, hk⟩))

/-- A COMMIT that passes its first three checks goes on to the fourth. -/
theorem commitRequest_validates {s : State} {p : Byte} {policy : Policy} (t : Tag) (hp : policyOf p = some policy)
    (hi : s.commit.state = .idle) (hs : s.staging ≠ [] ∨ ∃ k ∈ s.keys, k.introduced = true) :
    commitRequest p t s = validateCommit policy t s := by
  rw [commitRequest, hp]
  exact (if_neg (not_not.mpr hi)).trans (if_neg (something_to_commit hs))

/-! ### The placement of the staged PLACEs (R68) -/

theorem otherPlace_none {s : State} {ref : Ref} {cell : Cell} (h : ¬ PlacedByAnother s ref cell) : otherPlace s.staging ref cell = none := by
  refine List.findSome?_eq_none_iff.mpr fun c hc => ?_
  match c with
  | .place r x d =>
    exact if_neg fun (hx : r.handle ≠ ref.handle ∧ x = cell) => h ⟨r, d, hx.2 ▸ hc, hx.1⟩
  | .setVal .. => rfl
  | .clearVal .. => rfl
  | .unplace _ => rfl
  | .groups .. => rfl

/-- The test by which `checkPlace` looks for the record that holds a cell. -/
theorem holdsCell_iff {s : State} {ref : Ref} {cell : Cell} {x : Record} : (x.pos == some cell && x.ref.handle != ref.handle
    && (stagedPosition s.staging x.ref.handle).isNone) = true ↔ HoldsCell s ref cell x := by
  simp only [Bool.and_eq_true, beq_iff_eq, bne_iff_ne, stagedPosition_isNone, HoldsCell, and_assoc]

theorem checkPlace_of_stands {s : State} {ref : Ref} {cell : Cell} {d : Bool} (h : PlaceStands s ref cell d) :
    checkPlace s.dir.records s.staging ref cell d = .stands ∨ ∃ o, checkPlace s.dir.records s.staging ref cell d = .displaces o := by
  obtain ⟨hother, hrec⟩ := h
  simp only [checkPlace, otherPlace_none hother]
  split
  · next r hr =>
    have hx := hrec r (List.mem_of_find?_eq_some hr) (holdsCell_iff.mp (List.find?_some hr :))
    exact .inr ⟨r.ref, if_pos hx⟩
  · exact .inl rfl

theorem checkPlace_of_meets {s : State} {ref : Ref} {cell : Cell} {d : Bool} {o : Ref} (h : PlaceMeets s ref cell d o) :
    checkPlace s.dir.records s.staging ref cell d = .collides o := by
  rcases h with ⟨d', hsole⟩ | ⟨hother, x, hx, rfl, hfree⟩
  · obtain ⟨r, d'', heq, hne⟩ := hsole.holds
    cases heq
    have ho : otherPlace s.staging ref cell = some o := by
      refine findSome?_of_unique hsole.mem (if_pos ⟨hne, rfl⟩) fun c hc hs => ?_
      match c, hs with
      | .place r x d, hs =>
        by_cases hx : r.handle ≠ ref.handle ∧ x = cell
        · exact hsole.only _ hc ⟨r, d, by rw [hx.2], hx.1⟩
        · exact absurd (if_neg hx) hs
    simp only [checkPlace, ho]
  · simp only [checkPlace, otherPlace_none hother, hx.find_of fun y => holdsCell_iff]
    refine if_neg fun hs => ?_
    rcases hfree with h | h
    · exact h hs.1
    · simp [h] at hs

/-- The first staged PLACE that collides gives the outcome, whatever stands behind it. -/
theorem checkPlacesFrom_occupied {s : State} {ref : Ref} {cell : Cell} {d : Bool} {o : Ref} {after : List Change}
    (ho : checkPlace s.dir.records s.staging ref cell d = .collides o) :
    ∀ (before : List Change) (acc : List Ref), (∀ r c x, Change.place r c x ∈ before → PlaceStands s r c x) →
      checkPlacesFrom s.dir.records s.staging acc (before ++ .place ref cell d :: after) = .occupied ref cell o
  | [], acc, _ => by simp [checkPlacesFrom, ho]
  | c :: before, acc, h => by
    have ih := fun acc => checkPlacesFrom_occupied (after := after) ho before acc fun r c x hm => h r c x (List.mem_cons_of_mem _ hm)
    match c with
    | .place r x e =>
      rcases checkPlace_of_stands (h r x e (List.mem_cons_self ..)) with hc | ⟨a, hc⟩
      all_goals simp only [List.cons_append, checkPlacesFrom, hc, ih]
    | .setVal .. => exact ih acc
    | .clearVal .. => exact ih acc
    | .unplace _ => exact ih acc
    | .groups .. => exact ih acc

theorem checkPlaces_occupied {s : State} {before after : List Change} {ref : Ref} {cell : Cell} {d : Bool} {o : Ref}
    (hs : s.staging = before ++ .place ref cell d :: after) (hb : ∀ r c x, Change.place r c x ∈ before → PlaceStands s r c x)
    (ho : PlaceMeets s ref cell d o) : checkPlaces s.dir.records s.staging = .occupied ref cell o := by
  have h := checkPlacesFrom_occupied (after := after) (checkPlace_of_meets ho) before [] hb
  rwa [← hs] at h

/-! ### The pending capacity (R69) -/

theorem overCapacity_first {s : State} {before after : List Participant} {q : Participant}
    (hb : ∀ x ∈ before, x.pairs.length ≤ pendingCapacity s x) (hq : pendingCapacity s q < q.pairs.length) :
    overCapacity s (before ++ q :: after) = some q := by
  have hn : before.find? (fun p => decide (pendingCapacity s p < p.pairs.length)) = none :=
    find_none fun x hx => by simpa using hb x hx
  rw [overCapacity, List.find?_append, hn, Option.none_or, List.find?_cons_of_pos (by simpa using hq)]

theorem overCapacity_none {s : State} {ps : List Participant} (h : ∀ q ∈ ps, q.pairs.length ≤ pendingCapacity s q) :
    overCapacity s ps = none := find_none fun x hx => by simpa using h x hx

theorem validateCommit_full {s : State} {policy : Policy} (t : Tag) (hsize : 512 < postSize s.store s.staging) :
    validateCommit policy t s = refuseCommit .full (u16 (postSize s.store s.staging)) t s := if_pos hsize

theorem validateCommit_occupied {s : State} {policy : Policy} (t : Tag) {ref o : Ref} {cell : Cell}
    (hsize : postSize s.store s.staging ≤ 512) (ho : checkPlaces s.dir.records s.staging = .occupied ref cell o) :
    validateCommit policy t s = refuseCommit .occupied (refBytes ref ++ [u8 cell.col, u8 cell.row] ++ refBytes o) t s := by
  refine (if_neg (Nat.not_lt.mpr hsize)).trans ?_
  rw [ho]

/-- The outcome of the placement with which the checks of COMMIT go on. -/
theorem validateCommit_placed {s : State} {policy : Policy} (t : Tag) {displaced : List Ref} (hsize : postSize s.store s.staging ≤ 512)
    (hd : checkPlaces s.dir.records s.staging = .ok displaced) :
    validateCommit policy t s = (overCapacity s (participantsOf s (postView s displaced))).elim
      (finishLinks s.port.completions.length
        (acceptCommit policy t (postView s displaced) displaced (participantsOf s (postView s displaced)) s))
      fun q => refuseCommit .overCapacity (refBytes q.ref ++ [u8 q.pairs.length, u8 (pendingCapacity s q)]) t s := by
  refine (if_neg (Nat.not_lt.mpr hsize)).trans ?_
  rw [hd]
  dsimp only
  split
  · next q hq => rw [hq]; rfl
  · next hq => rw [hq]; rfl

/-- Settles O22: the checks in order; the placement is `checkPlaces_occupied`. -/
theorem commitRefusedInOrder : Obligations.CommitRefusedInOrder := by
  unfold Obligations.CommitRefusedInOrder
  intro s b p t hacc
  dsimp only
  rw [exec_commit hacc]
  refine ⟨fun hp => congrArg _ (commitRequest_badPolicy t hp), fun hp hb => congrArg _ (commitRequest_busy t hp hb),
    fun hp hi => ⟨fun hs hk => congrArg _ (commitRequest_empty t hp hi hs hk), fun hs => ?_⟩⟩
  obtain ⟨policy, hpol⟩ := policyOf_some hp
  rw [commitRequest_validates (s := received 1 s) t hpol hi hs]
  refine ⟨fun hfull => congrArg _ (validateCommit_full t hfull), fun hfit => ⟨fun before ref cell d after o hst hb hm => ?_,
    fun displaced before q after hd hps hb hq => ?_⟩⟩
  · exact congrArg _ (validateCommit_occupied (s := received 1 s) t hfit (checkPlaces_occupied hst hb hm))
  · have hover : overCapacity s (participantsOf s (postView s displaced)) = some q := by rw [hps, overCapacity_first hb hq]
    refine congrArg _ ((validateCommit_placed (s := received 1 s) t hfit hd).trans ?_)
    exact (congrArg (fun o => Option.elim o _ _) hover).trans rfl

end Sys2Proof.Machine
end

section
/-! PROOFS. What the end of an event makes of a link: its wire, its classes and its jobs, link by link. -/

namespace Sys2Proof.Machine

/-! ### One link after another -/

/-- What has been done link by link at one link: only that link's own part counts. -/
theorem forEach_fours_at {α : Type} (g : State → α) (f : LinkId → State → State) (l : LinkId)
    (hne : ∀ k s, k ≠ l → g (f k s) = g s) (s : State) :
    ∃ before, g before = g s ∧ g (forEach fours f s) = g (f l before) ∧ ∃ ks, before = forEach ks f s := by
  have h0 : (0 : LinkId) ≠ l → g (f 0 s) = g s := hne 0 s
  have h1 := fun s => hne 1 s
  have h2 := fun s => hne 2 s
  have h3 := fun s => hne 3 s
  match l with
  | 0 => exact ⟨s, rfl, (h3 _ (by decide)).trans ((h2 _ (by decide)).trans (h1 _ (by decide))), [], rfl⟩
  | 1 => exact ⟨f 0 s, h0 (by decide), (h3 _ (by decide)).trans (h2 _ (by decide)), [0], rfl⟩
  | 2 => exact ⟨f 1 (f 0 s), (h1 _ (by decide)).trans (h0 (by decide)), h3 _ (by decide), [0, 1], rfl⟩
  | 3 => exact ⟨f 2 (f 1 (f 0 s)), (h2 _ (by decide)).trans ((h1 _ (by decide)).trans (h0 (by decide))), rfl, [0, 1, 2], rfl⟩

/-! ### The arbiter (R117) -/

/-- A link engine whose wire has gone to a transaction (R112, R117). -/
def LinkEngine.handed (now : Nat) (t : Txn) (e : LinkEngine) : LinkEngine :=
  { e.started now (e.newFlight now t) with flight := some (e.newFlight now t) }

/-- A link engine after its arbiter: a free wire has gone to the transaction chosen. -/
def LinkEngine.arbitrated (idle : Bool) (now : Nat) (e : LinkEngine) : LinkEngine :=
  if e.flight.isSome ∨ e.overtaking.isSome then e else (choose idle e).elim e fun x => x.2.handed now x.1

theorem markReached_links (t : Txn) (s : State) : (markReached t s).links = s.links := by
  unfold markReached
  split
  · split <;> rfl
  · rfl

theorem startTxn_link (l : LinkId) (t : Txn) (s : State) : (startTxn l t s).links.get l = (s.links.get l).handed s.now t := by
  rw [startTxn, markReached_links, modLink_links, Quad.get_modify, if_pos rfl]
  rfl

theorem startTxn_link_other {l k : LinkId} (h : k ≠ l) (t : Txn) (s : State) : (startTxn l t s).links.get k = s.links.get k := by
  rw [startTxn, markReached_links]
  simp [Quad.get_modify_ne _ _ h]

theorem arbitrate_link (l : LinkId) (s : State) : (arbitrate l s).links.get l
    = (s.links.get l).arbitrated (s.commit.state = .idle) s.now := by
  unfold arbitrate LinkEngine.arbitrated
  dsimp only
  split
  · rfl
  · cases choose (decide (s.commit.state = .idle)) (s.links.get l) with
    | none => rfl
    | some x =>
      dsimp only [Option.elim]
      rw [startTxn_link, modLink_links, Quad.get_modify, if_pos rfl, modLink_now]

theorem arbitrate_link_other {l k : LinkId} (h : k ≠ l) (s : State) : (arbitrate l s).links.get k = s.links.get k := by
  unfold arbitrate
  dsimp only
  split
  · rfl
  · split
    · next t e' _ =>
      rw [startTxn_link_other h]
      simp [Quad.get_modify_ne _ _ h]
    · rfl

/-- After the four arbiters each link is as its own arbiter leaves it. -/
theorem arbitrateAll_link (s : State) (l : LinkId) : (arbitrateAll s).links.get l
    = (s.links.get l).arbitrated (s.commit.state = .idle) s.now := by
  obtain ⟨b, hb, ha, ks, hks⟩ := forEach_fours_at (fun s => s.links.get l) arbitrate l
    (fun k s hk => arbitrate_link_other (Ne.symm hk) s) s
  have hoff : offWire b = offWire s := hks ▸ forEach_keeps offWire fun l s => arbitrate_offWire l s
  have hnow : b.now = s.now := congrArg (fun x => x.2.1) hoff
  have hstate : b.commit.state = s.commit.state := congrArg (fun x => x.2.2.2.2.2.2.2.2.2.1.state) hoff
  rw [arbitrateAll, ha, arbitrate_link, hb, hnow, hstate]

/-- What the arbiter keeps of an engine when every choice keeps it, and every start. -/
theorem arbitrated_keeps {β : Type} (g : LinkEngine → β) {idle : Bool} {e : LinkEngine}
    (hc : ∀ t e', choose idle e = some (t, e') → g e' = g e) (hs : ∀ now t (e : LinkEngine), g (e.handed now t) = g e) (now : Nat) :
    g (e.arbitrated idle now) = g e := by
  unfold LinkEngine.arbitrated
  split
  · rfl
  · cases h : choose idle e with
    | none => rfl
    | some x => exact (hs now x.1 x.2).trans (hc x.1 x.2 h)

theorem chooseLow_commitQ {idle : Bool} {e e' : LinkEngine} {t : Txn} (h : chooseLow idle e = some (t, e')) : e'.commitQ = e.commitQ := by
  unfold chooseLow at h
  (repeat' split at h) <;> cases h <;> rfl

/-- The arbiter takes at most the head of the commit class. -/
theorem choose_commitQ {idle : Bool} {e e' : LinkEngine} {t : Txn} (h : choose idle e = some (t, e')) :
    e'.commitQ = e.commitQ ∨ e.commitQ = t :: e'.commitQ := by
  unfold choose at h
  split at h
  · split at h
    · next q hq =>
      cases h
      exact .inr hq
    · split at h
      · cases h
        exact .inl rfl
      · exact .inl (chooseLow_commitQ h)
  · split at h <;> cases h
    exact .inl rfl
  · cases h

theorem arbitrated_commitQ (idle : Bool) (now : Nat) (e : LinkEngine) : ∃ sent, e.commitQ = sent ++ (e.arbitrated idle now).commitQ
    ∧ (sent = [] ∨ ∃ f, (e.arbitrated idle now).flight = some f ∧ sent = [f.txn]) := by
  unfold LinkEngine.arbitrated
  split
  · exact ⟨[], rfl, .inl rfl⟩
  · cases h : choose idle e with
    | none => exact ⟨[], rfl, .inl rfl⟩
    | some x =>
      rcases choose_commitQ h with hq | hq
      · exact ⟨[], hq.symm, .inl rfl⟩
      · exact ⟨[x.1], hq, .inr ⟨_, rfl, rfl⟩⟩

theorem arbitrated_of_flight {idle : Bool} {now : Nat} {e : LinkEngine} {f : Flight} (h : e.flight = some f) : e.arbitrated idle now = e :=
  if_pos (.inl (by simp [h]))

/-! ### The preparing turns (R154) -/

theorem settleTurn_of_busy {l : LinkId} {s : State} (h : ¬ (s.commit.state = .idle ∧ (s.links.get l).state = .running)) :
    settleTurn l s = s := if_neg h

theorem settleTurns_of_busy {s : State} (h : s.commit.state ≠ .idle) : settleTurns s = s := by
  have hs : ∀ l, settleTurn l s = s := fun l => settleTurn_of_busy fun hx => h hx.1
  simp only [settleTurns, forEach, fours, List.foldl_cons, List.foldl_nil, hs]

theorem settleTurn_link_other {l k : LinkId} (h : k ≠ l) (s : State) : (settleTurn l s).links.get k = s.links.get k := by
  unfold settleTurn
  split
  · dsimp only
    split
    · split
      · simp [queueNextPacket, queueCatchUp, updJob, Quad.get_modify_ne _ _ h]
      · rfl
    · rfl
  · rfl

theorem settleTurn_jobs_other {l k : LinkId} (h : k ≠ l) (s : State) : (settleTurn l s).jobs.get k = s.jobs.get k := by
  unfold settleTurn
  split
  · dsimp only
    split
    · split
      · simp [queueNextPacket, queueCatchUp, updJob, Quad.get_modify_ne _ _ h]
      · simp [Quad.get_modify_ne _ _ h]
    · simp [Quad.get_modify_ne _ _ h]
  · rfl

/-- A link engine with transactions more in the catch-up class. -/
def LinkEngine.queueCatch (ts : List Txn) (e : LinkEngine) : LinkEngine := { e with catchQ := e.catchQ ++ ts }

theorem LinkEngine.queueCatch_nil (e : LinkEngine) : e.queueCatch [] = e := by simp [LinkEngine.queueCatch]

/-- The turn of a link brings at most one PREPARE into the catch-up class, of a job of that link in PREPARING. -/
theorem settleTurn_link (l : LinkId) (s : State) : ∃ ts : List Txn,
    (settleTurn l s).links.get l = (s.links.get l).queueCatch ts
    ∧ ts.length ≤ 1 ∧ (ts ≠ [] → s.commit.state = .idle ∧ (s.links.get l).state = .running)
    ∧ ∀ t ∈ ts, ∃ j ∈ s.jobs.get l, j.phase = .preparing ∧ t.req = .job j.ref
      ∧ ∃ first final ps, t.body = .prepare s.commit.epoch first final ps := by
  unfold settleTurn
  split
  · next hidle =>
    dsimp only
    split
    · next j hj =>
      split
      · next hprep =>
        refine ⟨[jobPrepareTxn (updJob l j.ref (fun _ => j.prepared (modJobs l passTurn s)) (modJobs l passTurn s))
          (hopOf (updJob l j.ref (fun _ => j.prepared (modJobs l passTurn s)) (modJobs l passTurn s)) (j.prepared (modJobs l passTurn s)).ref)
          (j.prepared (modJobs l passTurn s))], by simp [queueNextPacket, queueCatchUp, updJob, LinkEngine.queueCatch], by simp, fun _ => hidle, ?_⟩
        intro t ht
        obtain rfl := List.mem_singleton.mp ht
        have hmem : j ∈ passTurn (s.jobs.get l) := by simpa using List.mem_of_find?_eq_some hj
        obtain ⟨i, hi, hri, hpi⟩ : ∃ i ∈ s.jobs.get l, i.ref = j.ref ∧ i.phase = j.phase := by
          unfold passTurn at hmem
          split at hmem
          · exact ⟨j, hmem, rfl, rfl⟩
          · split at hmem
            · obtain ⟨i, hi, rfl⟩ := List.mem_map.mp hmem
              refine ⟨i, hi, ?_⟩
              split <;> exact ⟨rfl, rfl⟩
            · exact ⟨j, hmem, rfl, rfl⟩
        refine ⟨i, hi, hpi.trans hprep.1, ?_, _, _, _, rfl⟩
        rw [hri]
        exact congrArg Requester.job (Job.prepared_ref _ _)
      · exact ⟨[], by simp [LinkEngine.queueCatch], by simp, by simp, by simp⟩
    · exact ⟨[], by simp [LinkEngine.queueCatch], by simp, by simp, by simp⟩
  · exact ⟨[], by simp [LinkEngine.queueCatch], by simp, by simp, by simp⟩

/-- The preparing turns at one link: at most one PREPARE more in the catch-up class. -/
theorem settleTurns_link (s : State) (l : LinkId) : ∃ ts : List Txn,
    (settleTurns s).links.get l = (s.links.get l).queueCatch ts
    ∧ ts.length ≤ 1 ∧ (ts ≠ [] → s.commit.state = .idle ∧ (s.links.get l).state = .running)
    ∧ ∀ t ∈ ts, ∃ j ∈ s.jobs.get l, j.phase = .preparing ∧ t.req = .job j.ref
      ∧ ∃ first final ps, t.body = .prepare s.commit.epoch first final ps := by
  obtain ⟨b, hb, ha, ks, rfl⟩ := forEach_fours_at (fun s => (s.links.get l, s.jobs.get l)) settleTurn l
    (fun k s hk => Prod.ext (settleTurn_link_other (Ne.symm hk) s) (settleTurn_jobs_other (Ne.symm hk) s)) s
  have hctl : settledCtl (forEach ks settleTurn s).commit = settledCtl s.commit :=
    congrArg (fun x => x.2.2.2.2.2.2.2.2.2.1) (forEach_keeps offWire (xs := ks) (s := s) fun l s => settleTurn_offWire l s)
  have hstate : (forEach ks settleTurn s).commit.state = s.commit.state := (congrArg CommitCtl.state hctl :)
  have hepoch : (forEach ks settleTurn s).commit.epoch = s.commit.epoch := (congrArg CommitCtl.epoch hctl :)
  have hlink : (forEach ks settleTurn s).links.get l = s.links.get l := congrArg Prod.fst hb
  have hjobs : (forEach ks settleTurn s).jobs.get l = s.jobs.get l := congrArg Prod.snd hb
  have h := settleTurn_link l (forEach ks settleTurn s)
  rw [hlink, hjobs, hstate, hepoch] at h
  have hat : (settleTurns s).links.get l = (settleTurn l (forEach ks settleTurn s)).links.get l := congrArg Prod.fst ha
  rwa [← hat] at h

/-! ### The end of an event at one link -/

theorem finishLinks_links (n : Nat) (s : State) : (finishLinks n s).links = (arbitrateAll (settleTurns (queueHopScans s))).links :=
  modPort_links ..

/-- A link at the end of an event: its hop scans queued, its turn settled, its wire handed out. -/
theorem finishLinks_link (n : Nat) (s : State) (l : LinkId) : ∃ ts : List Txn,
    (finishLinks n s).links.get l = ((s.links.get l).queueCaused.queueCatch ts).arbitrated
      (s.commit.state = .idle) s.now
    ∧ ts.length ≤ 1 ∧ (ts ≠ [] → s.commit.state = .idle ∧ (s.links.get l).state = .running)
    ∧ ∀ t ∈ ts, ∃ j ∈ s.jobs.get l, j.phase = .preparing ∧ t.req = .job j.ref
      ∧ ∃ first final ps, t.body = .prepare s.commit.epoch first final ps := by
  obtain ⟨ts, hts, hlen, hidle, hreq⟩ := settleTurns_link (queueHopScans s) l
  have hlink : (queueHopScans s).links.get l = (s.links.get l).queueCaused := by simp [queueHopScans]
  have hoff := settleTurns_offWire (queueHopScans s)
  have hnow : (settleTurns (queueHopScans s)).now = s.now := congrArg (fun x => x.2.1) hoff
  have hctl : settledCtl (settleTurns (queueHopScans s)).commit = settledCtl s.commit :=
    congrArg (fun x => x.2.2.2.2.2.2.2.2.2.1) hoff
  have hstate : (settleTurns (queueHopScans s)).commit.state = s.commit.state := (congrArg CommitCtl.state hctl :)
  rw [hlink] at hts hidle
  refine ⟨ts, ?_, hlen, hidle, hreq⟩
  rw [finishLinks_links, arbitrateAll_link, hts, hnow, hstate]

/-- While a commit runs no turn is settled. -/
theorem finishLinks_link_of_busy (n : Nat) {s : State} (h : s.commit.state ≠ .idle) (l : LinkId) :
    (finishLinks n s).links.get l = (s.links.get l).queueCaused.arbitrated false s.now := by
  obtain ⟨ts, hts, -, hidle, -⟩ := finishLinks_link n s l
  have hnil : ts = [] := by_contra fun hx => h (hidle hx).1
  rw [hts, hnil, LinkEngine.queueCatch_nil, decide_eq_false h]

/-- The commit class at the end of an event: at most its head has gone to the wire. -/
theorem finishLinks_commitQ (n : Nat) (s : State) (l : LinkId) : ∃ sent, (s.links.get l).commitQ = sent ++ ((finishLinks n s).links.get l).commitQ
    ∧ (sent = [] ∨ ∃ f, ((finishLinks n s).links.get l).flight = some f ∧ sent = [f.txn]) := by
  obtain ⟨ts, hts, -⟩ := finishLinks_link n s l
  rw [hts]
  exact arbitrated_commitQ _ _ ((s.links.get l).queueCaused.queueCatch ts)

/-- The end of an event leaves what is in flight. -/
theorem finishLinks_flight {n : Nat} {s : State} {l : LinkId} {f : Flight} (h : (s.links.get l).flight = some f) :
    ((finishLinks n s).links.get l).flight = some f := by
  obtain ⟨ts, hts, -⟩ := finishLinks_link n s l
  have hq : ((s.links.get l).queueCaused.queueCatch ts).flight = some f := h
  rw [hts, arbitrated_of_flight hq, hq]

/-! ### The same change on each link -/

/-- A change made link by link, each link's own. -/
theorem forEach_modLink (f : LinkId → LinkEngine → LinkEngine) (s : State) : ∃ ls : Quad LinkEngine,
    forEach fours (fun l => modLink l (f l)) s = { s with links := ls } ∧ ∀ l, ls.get l = f l (s.links.get l) := by
  refine ⟨(((s.links.modify 0 (f 0)).modify 1 (f 1)).modify 2 (f 2)).modify 3 (f 3), rfl, fun l => ?_⟩
  match l with
  | 0 => rfl
  | 1 => rfl
  | 2 => rfl
  | 3 => rfl

end Sys2Proof.Machine
end

section
/-! PROOFS. The acceptance of a COMMIT, and COMMIT_STATUS (O23, part of O24). -/

namespace Sys2Proof.Machine

/-! ### Acceptance (R70, R72, R161) -/

theorem offWire_of_links {s : State} {ls : Quad LinkEngine}
    (h : ∀ l, ((ls.get l).state, (ls.get l).reach, (ls.get l).hops, (ls.get l).timing)
      = ((s.links.get l).state, (s.links.get l).reach, (s.links.get l).hops, (s.links.get l).timing)) :
    offWire { s with links := ls } = offWire s := by
  have hmap : ls.map (fun e => (e.state, e.reach, e.hops, e.timing)) = s.links.map (fun e => (e.state, e.reach, e.hops, e.timing)) :=
    Quad.ext_get fun l => by simpa using h l
  simp only [offWire, hmap]

theorem suspendFlight_keeps (e : LinkEngine) : (e.suspendFlight.state, e.suspendFlight.reach, e.suspendFlight.hops, e.suspendFlight.timing)
    = (e.state, e.reach, e.hops, e.timing) := by
  unfold LinkEngine.suspendFlight
  split
  · split <;> rfl
  · rfl

theorem suspendFlight_commitQ (e : LinkEngine) : e.suspendFlight.commitQ = e.commitQ := by
  unfold LinkEngine.suspendFlight
  split
  · split <;> rfl
  · rfl

theorem suspendFlight_job {e : LinkEngine} {f : Flight} {ref : Ref} (hf : e.flight = some f) (hr : f.txn.req = .job ref) :
    e.suspendFlight.flight = some { f with txn := { f.txn with req := .suspendedJob ref } } := by
  simp only [LinkEngine.suspendFlight, hf, hr]

/-- A participant as the acceptance of a COMMIT takes it (R65, R70). -/
theorem participantsOf_new {s : State} {post : View} {p : Participant} (h : p ∈ participantsOf s post) :
    p.status = .unprepared ∧ p.acked = 0 ∧ p.cancelSent = false := by
  obtain ⟨r, -, hr⟩ := List.mem_filterMap.mp h
  rw [(participantOf_some.mp hr).2.2]
  exact ⟨rfl, rfl, rfl⟩

/-- Settles O23: acceptance changes the controller and queues the PREPAREs; the end of the event starts at most the first of a link. -/
theorem commitAcceptedPreparesOrArms : Obligations.CommitAcceptedPreparesOrArms := by
  unfold Obligations.CommitAcceptedPreparesOrArms
  rintro s b p policy t displaced post ps hacc hp hi hs hsize hd rfl rfl hcap
  have hval := (commitRequest_validates (s := received 1 s) t hp hi hs).trans
    (validateCommit_placed (s := received 1 s) t hsize hd)
  have hnone : overCapacity s (participantsOf s (postView s displaced)) = none := overCapacity_none hcap
  have hval' := hval.trans (congrArg (fun o => Option.elim o _ _) hnone)
  obtain ⟨ls, hls, hget⟩ := forEach_modLink
    (fun l e => LinkEngine.queueCommit (linkPrepares (s.commit.epoch + 1) (participantsOf s (postView s displaced)) l) e.suspendFlight)
    (modCommit (fun _ => acceptedCommit (received 1 s) policy t (postView s displaced) displaced (participantsOf s (postView s displaced)))
      (holdTag t .commit (received 1 s)))
  have hacc' : acceptCommit policy t (postView s displaced) displaced (participantsOf s (postView s displaced)) (received 1 s) = _ := hls
  have hbusy : (acceptCommit policy t (postView s displaced) displaced (participantsOf s (postView s displaced)) (received 1 s)).commit.state
      ≠ .idle := by
    rw [hacc']
    simp only [modCommit_commit, acceptedCommit]
    split <;> simp
  have hlink : ∀ l, (acceptCommit policy t (postView s displaced) displaced (participantsOf s (postView s displaced)) (received 1 s)).links.get l
      = LinkEngine.queueCommit (linkPrepares (s.commit.epoch + 1) (participantsOf s (postView s displaced)) l) (s.links.get l).suspendFlight := by
    intro l
    rw [hacc']
    exact hget l
  refine ⟨_, (exec_commit hacc).trans (congrArg _ hval'), ?_, fun q hq => participantsOf_new hq, fun l => ?_, fun l f ref hf hr => ?_⟩
  · refine (finishLinks_offWire (n := s.port.completions.length) ?_).trans ?_
    · exact (congrArg (fun s : State => s.port.completions.length) hacc').trans_le (Nat.le_succ _)
    · refine (congrArg offWire hacc').trans ((offWire_of_links fun l => ?_).trans rfl)
      rw [hget]
      exact suspendFlight_keeps _
  · obtain ⟨sent, hq, hsent⟩ := finishLinks_commitQ s.port.completions.length
      (acceptCommit policy t (postView s displaced) displaced (participantsOf s (postView s displaced)) (received 1 s)) l
    rw [hlink] at hq
    exact ⟨sent, (congrArg (· ++ _) (suspendFlight_commitQ _).symm).trans hq, hsent⟩
  · refine finishLinks_flight (n := s.port.completions.length)
      (s := acceptCommit policy t (postView s displaced) displaced (participantsOf s (postView s displaced)) (received 1 s)) ?_
    rw [hlink]
    exact suspendFlight_job hf hr

/-! ### COMMIT_STATUS (R87) -/

theorem countStatus_eq (s : State) (st : PartStatus) : countStatus s st = s.commit.participants.countP (fun p => p.status == st) :=
  List.countP_eq_length_filter.symm

theorem preparedCount_eq (s : State) : preparedCount s = match s.commit.state with
    | .idle => 0
    | .preparing => s.commit.participants.countP (fun p => p.status == .prepared)
    | _ => s.commit.participants.countP (fun p => p.acked == (p.pairs.length + 5) / 6) := by
  unfold preparedCount
  cases s.commit.state with
  | idle => rfl
  | preparing => exact countStatus_eq s .prepared
  | armed => exact List.countP_eq_length_filter.symm
  | applying => exact List.countP_eq_length_filter.symm
  | cancelling => exact List.countP_eq_length_filter.symm

theorem policyByte_eq (p : Option Policy) : policyByte p = p.elim 0xFF (fun p => u8 p.ctorIdx) := by
  cases p with
  | none => rfl
  | some p => cases p <;> rfl

theorem optRefBytes_eq (r : Option Ref) : optRefBytes r = r.elim [0xFF, 0xFF] refBytes := by cases r <;> rfl

theorem reasonBytes_eq (r : Option CancelReason) :
    reasonBytes r = r.elim [0xFF, 0xFF, 0xFF] fun r => u8 (r.ctorIdx + 1) :: r.ref?.elim [0xFF, 0xFF] refBytes := by
  cases r with
  | none => rfl
  | some r => cases r <;> rfl

theorem commitState_code (c : CommitState) : c.code = u8 c.ctorIdx := by cases c <;> rfl

theorem commitStatusResult_eq (s : State) : commitStatusResult s
    = [u8 s.commit.state.ctorIdx, s.commit.policy.elim 0xFF (fun p => u8 p.ctorIdx)] ++ halfBytes s.commit.epoch
      ++ [u8 s.commit.participants.length, u8 (preparedCount s), u8 (s.commit.participants.countP (fun p => p.status == .confirmed))]
      ++ (s.commit.reason.elim [0xFF, 0xFF, 0xFF] fun r => u8 (r.ctorIdx + 1) :: r.ref?.elim [0xFF, 0xFF] refBytes) := by
  rw [commitStatusResult, commitState_code, policyByte_eq, countStatus_eq, reasonBytes_eq]

end Sys2Proof.Machine
end

section
/-! PROOFS. What the directory's own operations leave alone of a commit's course and of the completion list, the controller's entry to
CANCELLING, and its return to IDLE. -/

namespace Sys2Proof.Machine

/-! ### Beside the course of a commit -/

/-- What claims, notices, retirements and the upkeep of jobs leave alone: the controller, the keys, the boundary unit, the clock and the
commit classes. -/
def courseOf (s : State) := (s.now, s.phase, s.keys, s.commit, s.boundary, s.links.map LinkEngine.commitQ)

/-- Between two states nothing of a commit's course has changed, and completions have only joined the list. -/
structure Aside (s s' : State) : Prop where
  course : courseOf s' = courseOf s
  ext : Extends s s'

namespace Aside

variable {a b c : State}

theorem refl (s : State) : Aside s s := ⟨rfl, .refl s⟩
theorem trans (h : Aside a b) (k : Aside b c) : Aside a c := ⟨k.course.trans h.course, h.ext.trans k.ext⟩
theorem now (h : Aside a b) : b.now = a.now := congrArg (fun x => x.1) h.course
theorem keys (h : Aside a b) : b.keys = a.keys := congrArg (fun x => x.2.2.1) h.course
theorem commit (h : Aside a b) : b.commit = a.commit := congrArg (fun x => x.2.2.2.1) h.course
theorem boundary (h : Aside a b) : b.boundary = a.boundary := congrArg (fun x => x.2.2.2.2.1) h.course
theorem commitQ (h : Aside a b) (l : LinkId) : (b.links.get l).commitQ = (a.links.get l).commitQ := by
  have := congrArg (fun x => Quad.get x.2.2.2.2.2 l) h.course
  simpa [courseOf] using this

theorem forEach {α : Type} {xs : List α} {f : α → State → State} (h : ∀ x s, Aside s (f x s)) (s : State) : Aside s (forEach xs f s) := by
  unfold Machine.forEach
  induction xs generalizing s with
  | nil => exact refl s
  | cons x xs ih => exact (h x s).trans (ih _)

theorem ofLinks {f : LinkEngine → LinkEngine} (h : ∀ e, (f e).commitQ = e.commitQ) (s : State) : Aside s (modLinks f s) :=
  ⟨by simp only [courseOf, modLinks_links, map_keeps (g := LinkEngine.commitQ) s.links h]; rfl, .of_eq rfl rfl⟩

theorem ofLink {l : LinkId} {f : LinkEngine → LinkEngine} (s : State) (h : (f (s.links.get l)).commitQ = (s.links.get l).commitQ) :
    Aside s (modLink l f s) :=
  ⟨by simp only [courseOf, modLink_links, modify_keeps (g := LinkEngine.commitQ) s.links l h]; rfl, .of_eq rfl rfl⟩

theorem modJobs (l : LinkId) (f : List Job → List Job) (s : State) : Aside s (modJobs l f s) := ⟨rfl, .of_eq rfl rfl⟩
theorem modDir (f : Directory → Directory) (s : State) : Aside s (modDir f s) := ⟨rfl, .of_eq rfl rfl⟩
theorem updRec (h : Nat) (f : Record → Record) (s : State) : Aside s (updRec h f s) := modDir ..
theorem setStore (es : List Entry) (s : State) : Aside s (setStore es s) := ⟨rfl, .of_eq rfl rfl⟩
theorem setStaging (cs : List Change) (s : State) : Aside s (setStaging cs s) := ⟨rfl, .of_eq rfl rfl⟩
theorem raiseDevice (r : Reason) (s : State) : Aside s (raiseDevice r s) := ⟨rfl, .of_eq rfl rfl⟩
theorem raiseLink (l : LinkId) (r : Reason) (s : State) : Aside s (raiseLink l r s) := ⟨rfl, .of_eq rfl rfl⟩
theorem raiseHandle (h : Nat) (r : Reason) (s : State) : Aside s (raiseHandle h r s) := ⟨rfl, .of_eq rfl rfl⟩
theorem retireAttn (h g : Nat) (s : State) : Aside s (modPort (fun p => { p with attn := p.attn.retireHandle h g }) s) := ⟨rfl, .of_eq rfl rfl⟩
theorem endRunning (st : Status) (t : Tag) (s : State) : Aside s (endRunning st t s) := by
  refine ⟨?_, endRunning_extends st t s⟩
  unfold Machine.endRunning
  split <;> rfl

end Aside

theorem dropFlight_commitQ (test : Txn → Bool) (e : LinkEngine) : (e.dropFlight test).commitQ = e.commitQ := by
  unfold LinkEngine.dropFlight; (repeat' split) <;> rfl

theorem cause_commitQ (hop : Nat) (e : LinkEngine) : (e.cause hop).commitQ = e.commitQ := by unfold LinkEngine.cause; split <;> rfl

theorem notice_commitQ (test : HopEntry → Bool) (e : LinkEngine) : (e.notice test).commitQ = e.commitQ := by
  unfold LinkEngine.notice
  split
  · exact foldl_keeps LinkEngine.commitQ cause_commitQ
  · rfl
  · rfl

theorem noticeHandle_aside (s : State) : Aside s (noticeHandle s) := .ofLinks (notice_commitQ _) s
theorem noticeId_aside (u : Uid) (s : State) : Aside s (noticeId u s) := .ofLinks (notice_commitQ _) s
theorem dropJobTxns_aside (ref : Ref) (s : State) : Aside s (modLinks (LinkEngine.dropJobTxns ref) s) :=
  .ofLinks (f := LinkEngine.dropJobTxns ref) (fun _ => dropFlight_commitQ _ _) s

theorem removeJob_aside (ref : Ref) (s : State) : Aside s (removeJob ref s) :=
  (Aside.forEach (fun _ s => .modJobs _ _ s) s).trans (dropJobTxns_aside ref _)

theorem dropHostWaiting_aside (l : LinkId) (ref : Ref) (s : State) : Aside s (dropHostWaiting l ref s) :=
  (Aside.ofLink s rfl).trans (.forEach (fun t s => .endRunning _ t s) _)

theorem makeJob_aside (h : Nat) (s : State) : Aside s (makeJob h s) := by
  unfold makeJob
  split
  · split
    · exact .modJobs ..
    · exact .refl s
  · exact .refl s

theorem restartAllJobs_aside (s : State) : Aside s (restartAllJobs s) := by
  rw [restartAllJobs_eq]
  have hbegun : Aside s (jobsBegun s) := ⟨rfl, .of_eq rfl rfl⟩
  exact hbegun.trans (.forEach (fun (j : Job) s => dropJobTxns_aside j.ref s) _)

theorem claimLagging_aside (h : Nat) (s : State) : Aside s (claimLagging h s) := by
  unfold claimLagging
  split
  · split
    · exact ((Aside.updRec ..).trans (.raiseHandle ..)).trans (makeJob_aside ..)
    · exact .refl s
  · exact .refl s

theorem unlistHop_aside (loc : Loc) (ref : Ref) (s : State) : Aside s (unlistHop loc ref s) := by
  refine .ofLink s ?_
  split <;> rfl

theorem claimStaleDir_aside (h : Nat) (why : StaleReason) (s : State) : Aside s (claimStaleDir h why s) := by
  unfold claimStaleDir
  split
  · split
    · exact .refl s
    · exact (((((((Aside.updRec ..).trans (.modDir ..)).trans (removeJob_aside ..)).trans (dropHostWaiting_aside ..)).trans
        (unlistHop_aside ..)).trans (.raiseHandle ..)).trans (noticeId_aside ..))
  · exact .refl s

theorem retire_aside (h : Nat) (s : State) : Aside s (retire h s) := by
  unfold retire
  split
  · next r _ =>
    refine (Aside.trans ?_ (noticeHandle_aside _)).trans (noticeId_aside ..)
    refine (Aside.trans ?_ (.modDir ..)).trans (.retireAttn ..)
    refine (Aside.trans ?_ (removeJob_aside ..)).trans (dropHostWaiting_aside ..)
    split
    · exact ((Aside.setStore ..).trans (.setStaging ..)).trans (.raiseDevice ..)
    · exact (Aside.setStore ..).trans (.setStaging ..)
  · exact .refl s

theorem expireAll_aside (s : State) : Aside s (expireAll s) := .forEach retire_aside s

/-! ### The return to IDLE (R83) -/

theorem idle_of_settled {c : CommitCtl} {epoch : Half} {lengths : Deadlines} (h : settledCtl c = CommitCtl.idle epoch lengths) :
    c = CommitCtl.idle epoch lengths := by
  have hps : c.participants = [] := by
    have := congrArg CommitCtl.participants h
    simpa [settledCtl, CommitCtl.idle] using this
  rw [← h, settledCtl, hps, List.map_nil, ← hps]

/-- The controller back in IDLE, with the commit classes empty. -/
def idled (s : State) : State :=
  modLinks (fun e => LinkEngine.dropFlight Txn.isCommit { e with commitQ := [] })
    (modCommit (fun c => CommitCtl.idle c.epoch c.lengths) s)

theorem returnToIdle_aside (applied : Bool) (s : State) : Aside (idled s) (returnToIdle applied s) := by
  have hrest : ∀ s, Aside s (noticeHandle (expireAll (forEach (catchUpHandles s) makeJob s))) := fun s =>
    ((Aside.forEach makeJob_aside s).trans (expireAll_aside _)).trans (noticeHandle_aside _)
  unfold returnToIdle
  refine Aside.trans ?_ (hrest _)
  split
  · exact restartAllJobs_aside (idled s)
  · exact .refl (idled s)

theorem idled_commit (s : State) : (idled s).commit = CommitCtl.idle s.commit.epoch s.commit.lengths := rfl

theorem idled_commitQ (s : State) (l : LinkId) : ((idled s).links.get l).commitQ = [] := by
  rw [idled, modLinks_links, Quad.get_map, dropFlight_commitQ]

theorem completeCommit_extends (st : Status) (qual : Byte) (res : List Byte) (s : State) : Extends s (completeCommit st qual res s) := by
  unfold completeCommit
  split
  · exact complete_extends ..
  · exact .refl s

theorem completeCommit_completed {st : Status} {qual : Byte} {res : List Byte} {s : State} {t : Tag} (h : s.commit.tag = some t) :
    Completed s (completeCommit st qual res s) ⟨t, .commit, st, qual, res⟩ := by
  unfold completeCommit
  rw [h]
  exact complete_completed ..

/-- A commit has ended between two states: the controller is IDLE with the commit classes empty, and the COMMIT has completed. -/
structure CommitEnded (s s' : State) (st : Status) (qual : Byte) (res : List Byte) : Prop where
  commit : s'.commit = CommitCtl.idle s.commit.epoch s.commit.lengths
  queues : ∀ l, (s'.links.get l).commitQ = []
  completed : ∀ t, s.commit.tag = some t → Completed s s' ⟨t, .commit, st, qual, res⟩
  ext : Extends s s'
  keys : s'.keys = s.keys
  boundary : s'.boundary = s.boundary

theorem completeCommit_fields (st : Status) (qual : Byte) (res : List Byte) (s : State) :
    (completeCommit st qual res s).commit = s.commit ∧ (completeCommit st qual res s).keys = s.keys
      ∧ (completeCommit st qual res s).boundary = s.boundary ∧ (completeCommit st qual res s).dir = s.dir
      ∧ (completeCommit st qual res s).links = s.links ∧ (completeCommit st qual res s).now = s.now := by
  unfold completeCommit
  split <;> exact ⟨rfl, rfl, rfl, rfl, rfl, rfl⟩

theorem commitEnded (applied : Bool) (st : Status) (qual : Byte) (res : List Byte) (s : State) :
    CommitEnded s (returnToIdle applied (completeCommit st qual res s)) st qual res := by
  obtain ⟨hcommit, hkeys, hboundary, -⟩ := completeCommit_fields st qual res s
  have haside := returnToIdle_aside applied (completeCommit st qual res s)
  have hext : Extends (completeCommit st qual res s) (idled (completeCommit st qual res s)) := .of_eq rfl rfl
  refine ⟨?_, fun l => (haside.commitQ l).trans (idled_commitQ _ l), fun t ht => ?_, ?_, haside.keys.trans hkeys, haside.boundary.trans hboundary⟩
  · rw [haside.commit, idled_commit, hcommit]
  · exact (completeCommit_completed ht).trans (hext.trans haside.ext)
  · exact (completeCommit_extends ..).trans (hext.trans haside.ext)

/-- The end of the event leaves a commit ended. -/
theorem CommitEnded.finish {s₀ s s' : State} {st : Status} {qual : Byte} {res : List Byte} {n : Nat} (h : CommitEnded s s' st qual res)
    (h0 : Extends s₀ s) (hn : n = s₀.port.completions.length) : (finishLinks n s').commit = CommitCtl.idle s.commit.epoch s.commit.lengths
      ∧ (∀ l, ((finishLinks n s').links.get l).commitQ = [])
      ∧ (∀ t, s.commit.tag = some t → Completed s₀ (finishLinks n s') ⟨t, .commit, st, qual, res⟩)
      ∧ (finishLinks n s').keys = s.keys ∧ (finishLinks n s').boundary = s.boundary := by
  subst hn
  refine ⟨idle_of_settled ?_, fun l => ?_, fun t ht => (h0.completed (h.completed t ht)).finish, (finishLinks_keys ..).trans h.keys,
    (finishLinks_boundary ..).trans h.boundary⟩
  · rw [finishLinks_ctl, h.commit]
    rfl
  · obtain ⟨sent, hq, -⟩ := finishLinks_commitQ s₀.port.completions.length s' l
    rw [h.queues l] at hq
    exact (List.append_eq_nil_iff.mp hq.symm).2

end Sys2Proof.Machine
end

section
/-! PROOFS. Entry to CANCELLING (R84, R85): ABORT (O24), and the prepare and arm deadlines (part of O25). -/

namespace Sys2Proof.Machine

/-! ### CANCELs queued (R84) -/

/-- The CANCEL of a commit's epoch to a participant. -/
def cancelTxn (epoch : Half) (p : Participant) : Txn := partTxn p (.cancel (epoch + 1))

theorem cancelTxn_isCancel (epoch : Half) (p : Participant) : (cancelTxn epoch p).isCancel = true := rfl

/-- The CANCELs to participants of a link, in their order. -/
def linkCancels (epoch : Half) (ps : List Participant) (l : LinkId) : List Txn :=
  (ps.filter (fun p => p.loc.link == l)).map (cancelTxn epoch)

/-- A controller but for its participants. -/
def CommitCtl.apart (c : CommitCtl) : CommitCtl := { c with participants := [] }

/-- CANCELs queued to participants change their marks and the commit classes. -/
theorem forEach_queueCancel (ps : List Participant) (s : State) : ∃ c ls, forEach ps queueCancel s = { s with commit := c, links := ls }
    ∧ c.apart = s.commit.apart ∧ ∀ l, ls.get l = (s.links.get l).queueCommit (linkCancels s.commit.epoch ps l) := by
  induction ps generalizing s with
  | nil => exact ⟨s.commit, s.links, rfl, rfl, fun l => by simp [LinkEngine.queueCommit, linkCancels]⟩
  | cons p ps ih =>
    obtain ⟨c, ls, heq, hc, hls⟩ := ih (queueCancel p s)
    refine ⟨c, ls, heq, hc, fun l => ?_⟩
    have hlink : (queueCancel p s).links.get l
        = if l = p.loc.link then (s.links.get l).queueCommit [cancelTxn s.commit.epoch p] else s.links.get l := by
      simp only [queueCancel, updPart, modCommit_links, modLink_links, Quad.get_modify]
      rfl
    have hepoch : (queueCancel p s).commit.epoch = s.commit.epoch := rfl
    rw [hls, hlink, hepoch]
    by_cases hl : l = p.loc.link
    · subst hl
      simp [LinkEngine.queueCommit, linkCancels]
    · have hne : (p.loc.link == l) = false := by simpa using Ne.symm hl
      simp [hl, linkCancels, hne]

/-- The participants to which entry to CANCELLING sends a CANCEL. -/
def owedCancels (s : State) : List Participant :=
  s.commit.participants.filter (fun p => partReachable s p && p.reached && !p.cancelSent)

theorem mem_owedCancels {s : State} {p : Participant} : p ∈ owedCancels s ↔ OwedCancel s p := by
  simp [owedCancels, OwedCancel, and_assoc]

/-- A link engine whose PREPAREs of the commit have lost their purpose. -/
def LinkEngine.unprepared (e : LinkEngine) : LinkEngine :=
  LinkEngine.dropFlight (fun t => t.isPrepare && t.isCommit) (e.dropCommit Txn.isPrepare)

/-- Entry to CANCELLING changes the controller and the commit classes. -/
theorem enterCancelling_eq (reason : CancelReason) (s : State) : ∃ c ls,
    enterCancelling reason s = { s with commit := c, links := ls }
    ∧ c.apart = { s.commit with state := .cancelling, reason := some reason, prepareDl := none, armDl := none, participants := [] }
    ∧ ∀ l, ls.get l = (s.links.get l).unprepared.queueCommit (linkCancels s.commit.epoch (owedCancels s) l) := by
  obtain ⟨c, ls, heq, hc, hls⟩ := forEach_queueCancel (owedCancels s)
    (modLinks LinkEngine.unprepared (modCommit (fun c => { c with state := .cancelling, reason := some reason, prepareDl := none, armDl := none }) s))
  refine ⟨c, ls, heq, hc, fun l => ?_⟩
  rw [hls, modLinks_links, Quad.get_map]
  rfl

/-! ### CANCELs outstanding (R85) -/

theorem cancelOutstanding_eq (e : LinkEngine) :
    e.cancelOutstanding = (e.commitQ.any Txn.isCancel || e.flight.any fun f => f.txn.isCancel && f.txn.req != .gone) := by
  unfold LinkEngine.cancelOutstanding
  cases e.flight <;> rfl

theorem isPrepare_not_cancel {t : Txn} (h : t.isPrepare = true) : t.isCancel = false := by
  unfold Txn.isPrepare at h
  unfold Txn.isCancel
  split at h
  · next hb => simp [hb]
  · cases h

/-- A PREPARE in flight that loses its purpose is no CANCEL. -/
theorem dropFlight_prepare_cancelling (e : LinkEngine) :
    ((LinkEngine.dropFlight (fun t => t.isPrepare && t.isCommit) e).flight.any fun f => f.txn.isCancel && f.txn.req != .gone)
      = e.flight.any fun f => f.txn.isCancel && f.txn.req != .gone := by
  unfold LinkEngine.dropFlight
  split
  · next f hf =>
    split
    · next hp =>
      have hc : f.txn.isCancel = false := isPrepare_not_cancel (by simp only [Bool.and_eq_true] at hp; exact hp.1)
      simp [hf, hc]
    · rfl
  · rfl

theorem isCancel_not_prepare {t : Txn} (h : t.isCancel = true) : t.isPrepare = false := by
  unfold Txn.isCancel at h
  unfold Txn.isPrepare
  split at h <;> simp_all

/-- A CANCEL is outstanding after entry to CANCELLING if one was, or if one has been queued. -/
theorem cancelOutstanding_entered (e : LinkEngine) (epoch : Half) (ps : List Participant) (l : LinkId) :
    (e.unprepared.queueCommit (linkCancels epoch ps l)).cancelOutstanding = true
      ↔ e.cancelOutstanding = true ∨ ∃ p ∈ ps, p.loc.link = l := by
  have hq : (e.unprepared.queueCommit (linkCancels epoch ps l)).commitQ
      = e.commitQ.filter (fun t => !t.isPrepare) ++ linkCancels epoch ps l := by
    rw [LinkEngine.queueCommit, LinkEngine.unprepared, dropFlight_commitQ]
    rfl
  have hany : (e.commitQ.filter (fun t => !t.isPrepare)).any Txn.isCancel = e.commitQ.any Txn.isCancel := by
    rw [List.any_filter]
    refine congrArg (fun f => e.commitQ.any f) (funext fun t => ?_)
    cases hc : t.isCancel with
    | false => simp
    | true => simp [isCancel_not_prepare hc]
  have hnew : (linkCancels epoch ps l).any Txn.isCancel = true ↔ ∃ p ∈ ps, p.loc.link = l := by
    simp [linkCancels, cancelTxn_isCancel]
  have hf := dropFlight_prepare_cancelling (e.dropCommit Txn.isPrepare)
  have hfl : (e.unprepared.queueCommit (linkCancels epoch ps l)).flight
      = (LinkEngine.dropFlight (fun t => t.isPrepare && t.isCommit) (e.dropCommit Txn.isPrepare)).flight := rfl
  have hfe : (e.dropCommit Txn.isPrepare).flight = e.flight := rfl
  rw [hfe] at hf
  rw [cancelOutstanding_eq, cancelOutstanding_eq, hq, hfl, hf, List.any_append, hany, Bool.or_eq_true, Bool.or_eq_true, hnew,
    Bool.or_eq_true]
  exact or_right_comm

/-- What the controller still waits for in CANCELLING. -/
theorem any_outstanding {s : State} : (fours.any fun l => (s.links.get l).cancelOutstanding) = true
    ↔ ∃ l, (s.links.get l).cancelOutstanding = true := by
  simp [mem_fours]

theorem settle_cancelling_waits {s : State} (h : s.commit.state = .cancelling) (ho : ∃ l, (s.links.get l).cancelOutstanding = true) :
    settleCommit s = s := by
  simp only [settleCommit, h, any_outstanding.mpr ho, if_true]

theorem settle_cancelling_ends {s : State} (h : s.commit.state = .cancelling) (ho : ¬ ∃ l, (s.links.get l).cancelOutstanding = true)
    {reason : CancelReason} (hr : s.commit.reason = some reason) :
    CommitEnded s (settleCommit s) .aborted reason.code (reason.ref?.elim [0xFF, 0xFF] refBytes ++ halfBytes s.commit.epoch) := by
  have hs : settleCommit s = returnToIdle false (completeCommit .aborted reason.code
      (reason.ref?.elim [0xFF, 0xFF] refBytes ++ halfBytes s.commit.epoch) s) := by
    simp only [settleCommit, h, if_neg (fun hx => ho (any_outstanding.mp hx)), hr, Option.getD_some, abortResult, optRefBytes_eq]
  rw [hs]
  exact commitEnded ..

/-- The controller's own tests only add completions. -/
theorem settleCommit_extends (s : State) : Extends s (settleCommit s) := by
  unfold settleCommit
  split
  · split
    · exact .refl s
    · exact .of_eq rfl rfl
  · split
    · exact .refl s
    · exact (commitEnded ..).ext
  · split
    · exact .refl s
    · exact (commitEnded ..).ext
  · exact .refl s

/-- A completion made in an event stays made through the controller's tests and the end of the event. -/
theorem Completed.finishEvent {s s' : State} {c : Completion} (h : Completed s s' c) :
    Completed s (finishEvent s.port.completions.length s') c := (h.trans (settleCommit_extends s')).finish

/-! ### The event that enters CANCELLING -/

theorem entersCancelling {s : State} {reason : CancelReason} {p : HostPort}
    (hext : Extends s { enterCancelling reason s with port := p }) :
    EntersCancelling s (finishEvent s.port.completions.length { enterCancelling reason s with port := p }) reason := by
  obtain ⟨c, ls, heq, hc, hls⟩ := enterCancelling_eq reason s
  rw [heq] at hext ⊢
  have hstate : c.state = .cancelling := (congrArg CommitCtl.state hc :)
  have hreason : c.reason = some reason := (congrArg CommitCtl.reason hc :)
  have hpdl : c.prepareDl = none := (congrArg CommitCtl.prepareDl hc :)
  have hadl : c.armDl = none := (congrArg CommitCtl.armDl hc :)
  have htag : c.tag = s.commit.tag := (congrArg CommitCtl.tag hc :)
  have hpol : c.policy = s.commit.policy := (congrArg CommitCtl.policy hc :)
  have hepoch : c.epoch = s.commit.epoch := (congrArg CommitCtl.epoch hc :)
  have hlengths : c.lengths = s.commit.lengths := (congrArg CommitCtl.lengths hc :)
  have hbusy : (∃ l, (ls.get l).cancelOutstanding = true)
      ↔ (∃ p, OwedCancel s p) ∨ ∃ l, (s.links.get l).cancelOutstanding = true := by
    constructor
    · rintro ⟨l, hl⟩
      rw [hls, cancelOutstanding_entered] at hl
      rcases hl with hl | ⟨p, hp, -⟩
      · exact .inr ⟨l, hl⟩
      · exact .inl ⟨p, mem_owedCancels.mp hp⟩
    · rintro (⟨p, hp⟩ | ⟨l, hl⟩)
      · refine ⟨p.loc.link, ?_⟩
        rw [hls, cancelOutstanding_entered]
        exact .inr ⟨p, mem_owedCancels.mpr hp, rfl⟩
      · refine ⟨l, ?_⟩
        rw [hls, cancelOutstanding_entered]
        exact .inl hl
  refine ⟨fun hb => ?_, fun hb => ?_⟩
  · have hset := settle_cancelling_waits (s := { s with port := p, commit := c, links := ls }) hstate (hbusy.mpr hb)
    rw [finishEvent, hset]
    refine ⟨(finishLinks_commit_state ..).trans hstate, (finishLinks_commit_reason ..).trans hreason,
      (finishLinks_commit_prepareDl ..).trans hpdl, (finishLinks_commit_armDl ..).trans hadl, (finishLinks_commit_tag ..).trans htag,
      (finishLinks_commit_policy ..).trans hpol, (finishLinks_commit_epoch ..).trans hepoch, fun l x hx => ?_, fun q hq => ?_,
      finishLinks_dir .., finishLinks_keys .., finishLinks_store .., finishLinks_staging .., finishLinks_boundary ..⟩
    · obtain ⟨sent, hsent, -⟩ := finishLinks_commitQ s.port.completions.length { s with port := p, commit := c, links := ls } l
      have hm : x ∈ (ls.get l).commitQ := by
        have hsent' : (ls.get l).commitQ = _ := hsent
        rw [hsent']
        exact List.mem_append_right _ hx
      rw [hls, LinkEngine.queueCommit, LinkEngine.unprepared, dropFlight_commitQ] at hm
      rcases List.mem_append.mp hm with hm | hm
      · simpa using (List.mem_filter.mp hm).2
      · obtain ⟨q, -, rfl⟩ := List.mem_map.mp hm
        rfl
    · obtain ⟨sent, hsent, hf⟩ := finishLinks_commitQ s.port.completions.length { s with port := p, commit := c, links := ls } q.loc.link
      have hm : cancelTxn s.commit.epoch q ∈ (ls.get q.loc.link).commitQ := by
        rw [hls]
        refine List.mem_append_right _ (List.mem_map.mpr ⟨q, List.mem_filter.mpr ⟨mem_owedCancels.mpr hq, by simp⟩, rfl⟩)
      have hsent' : (ls.get q.loc.link).commitQ = _ := hsent
      rw [hsent'] at hm
      rcases List.mem_append.mp hm with hm | hm
      · rcases hf with rfl | ⟨f, hf, rfl⟩
        · cases hm
        · exact .inr ⟨f, hf, (List.mem_singleton.mp hm).symm⟩
      · exact .inl hm
  · have hend := settle_cancelling_ends (s := { s with port := p, commit := c, links := ls }) hstate (fun h => hb (hbusy.mp h)) hreason
    obtain ⟨h1, h2, h3, h4, h5⟩ := hend.finish hext rfl
    rw [finishEvent]
    refine ⟨h1.trans (by rw [hepoch, hlengths]), h2, fun t ht => ?_, h4, h5⟩
    have := h3 t (htag.trans ht)
    rwa [hepoch] at this

/-- Whether a completion has been made depends on the completion list alone. -/
theorem Completed.rebase {a b s' : State} {c : Completion} (h : Completed a s' c) (hc : b.port.completions = a.port.completions) :
    Completed b s' c := by
  obtain ⟨⟨new, hn, hm⟩, hd⟩ := h
  exact ⟨⟨new, by rw [hc]; exact hn, hm⟩, hd⟩

/-- The event may have begun with the acceptance of a request or with the clock's moving on. -/
theorem EntersCancelling.rebase {s s' : State} {p : HostPort} {now : Nat} {reason : CancelReason}
    (h : EntersCancelling { s with port := p, now := now } s' reason) (hp : s.port.completions = p.completions) :
    EntersCancelling s s' reason := by
  obtain ⟨hbusy, hfree⟩ := h
  refine ⟨hbusy, fun hb => ?_⟩
  obtain ⟨h1, h2, h3, h4⟩ := hfree hb
  exact ⟨h1, h2, fun t ht => (h3 t ht).rebase hp, h4⟩

/-- Settles O24. -/
theorem abortAndCommitStatus : Obligations.AbortAndCommitStatus := by
  unfold Obligations.AbortAndCommitStatus
  intro s b t hacc
  rw [exec_abort hacc]
  refine ⟨⟨fun h => ?_, fun h => ?_, fun h => ?_, fun h => ?_⟩, fun prepared confirmed hp hc => ?_⟩
  · simp only [abort, received_commit, h, answer_received]
  · simp only [abort, received_commit, h, answer_received]
  · simp only [abort, received_commit, h, answerOk_received]
  · have habort : abort t (received 0 s) = finishEvent s.port.completions.length
        (answerOk .abort [] t (enterCancelling .host (received 0 s))) := by
      rcases h with h | h <;> simp only [abort, received_commit, h, received_completions]
    have hport : (enterCancelling .host (received 0 s)).port = (received 0 s).port := by
      obtain ⟨c, ls, heq, -⟩ := enterCancelling_eq .host (received 0 s)
      rw [heq]
    have hcomp : Completed s (answerOk .abort [] t (enterCancelling .host (received 0 s))) ⟨t, .abort, .ok, 0, []⟩ := by
      refine ⟨⟨[⟨t, .abort, .ok, 0, []⟩], ?_, List.mem_singleton.mpr rfl⟩, ?_⟩
      · show (enterCancelling .host (received 0 s)).port.completions ++ _ = _
        rw [hport]
        rfl
      · simp [answerOk, complete]
    have hext : Extends (received 0 s) (answerOk .abort [] t (enterCancelling .host (received 0 s))) := by
      refine Extends.trans ?_ (complete_extends ..)
      exact .of_eq (by rw [hport]) (by rw [hport])
    have hcancel := entersCancelling (reason := .host)
      (p := (answerOk .abort [] t (enterCancelling .host (received 0 s))).port) hext
    exact ⟨_, congrArg _ habort, hcomp.finishEvent, EntersCancelling.rebase (now := s.now) hcancel rfl⟩
  · have hcount : prepared = preparedCount s := hp.trans (preparedCount_eq s).symm
    rw [exec_commitStatus hacc, hcount, hc]
    exact congrArg (fun r => Host.Outcome.next (answered s 0 t .commitStatus .ok r)) (commitStatusResult_eq s)

end Sys2Proof.Machine
end

section
/-! PROOFS. The three commit deadlines (O25, O26): statuses and records through the exclusions and claims to LAGGING they bring. -/

namespace Sys2Proof.Machine

/-! ### Statuses of the participants -/

/-- A list of references and statuses with one reference's status changed. -/
def markStatus (ref : Ref) (st : PartStatus) (xs : List (Ref × PartStatus)) : List (Ref × PartStatus) :=
  xs.map fun x => if x.1 = ref then (x.1, st) else x

theorem setStatus_statuses (ref : Ref) (st : PartStatus) (s : State) :
    statusesOf (setStatus ref st s) = markStatus ref st (statusesOf s) := by
  simp only [statusesOf, setStatus, updPart, modCommit_commit, markStatus, List.map_map]
  refine List.map_congr_left fun p _ => ?_
  simp only [Function.comp]
  split <;> rfl

/-- Statuses set one after another. -/
theorem forEach_statuses {α : Type} {key : α → Ref} {st : PartStatus} {f : α → State → State}
    (hf : ∀ a s, statusesOf (f a s) = markStatus (key a) st (statusesOf s)) (xs : List α) (s : State) :
    statusesOf (forEach xs f s) = (statusesOf s).map fun x => if x.1 ∈ xs.map key then (x.1, st) else x := by
  unfold forEach
  induction xs generalizing s with
  | nil => simp
  | cons a xs ih =>
    rw [List.foldl_cons, ih, hf, markStatus, List.map_map]
    refine List.map_congr_left fun x _ => ?_
    simp only [Function.comp, List.map_cons, List.mem_cons]
    by_cases hx : x.1 = key a
    · simp [hx]
    · simp [hx]

/-- In a list without repeated references, those of the members with a status are theirs alone. -/
theorem mem_refs_of_status {ps : List Participant} (hn : (ps.map Participant.ref).Nodup) (test : Participant → Bool) {p : Participant}
    (hp : p ∈ ps) : p.ref ∈ (ps.filter test).map Participant.ref ↔ test p = true := by
  constructor
  · intro h
    obtain ⟨q, hq, hqr⟩ := List.mem_map.mp h
    obtain ⟨hqm, hqs⟩ := List.mem_filter.mp hq
    rwa [← List.inj_on_of_nodup_map hn hqm hp hqr]
  · intro h
    exact List.mem_map.mpr ⟨p, List.mem_filter.mpr ⟨hp, h⟩, rfl⟩

/-- The statuses after every participant of a status has been given another. -/
theorem marked_statuses {ps : List Participant} (hn : (ps.map Participant.ref).Nodup) (test : Participant → Bool) (st : PartStatus) :
    (ps.map fun p => (p.ref, p.status)).map (fun x => if x.1 ∈ (ps.filter test).map Participant.ref then (x.1, st) else x)
      = ps.map fun p => (p.ref, if test p = true then st else p.status) := by
  rw [List.map_map]
  refine List.map_congr_left fun p hp => ?_
  simp only [Function.comp, mem_refs_of_status hn test hp]
  split <;> rfl

theorem anyStatus_statuses {s : State} {st : PartStatus} : anyStatus s st = true ↔ ∃ x ∈ statusesOf s, x.2 = st := by
  simp [anyStatus, statusesOf]

theorem countStatus_statuses (s : State) (st : PartStatus) : countStatus s st = (statusesOf s).countP (fun x => x.2 == st) := by
  rw [countStatus_eq, statusesOf, List.countP_map]
  rfl

theorem finishLinks_statuses (n : Nat) (s : State) : statusesOf (finishLinks n s) = statusesOf s := by
  have h := congrArg (fun c : CommitCtl => c.participants.map fun p => (p.ref, p.status)) (finishLinks_ctl n s)
  simpa only [settledCtl, List.map_map, Function.comp_def, statusesOf] using h

theorem finishEvent_now (n : Nat) (s : State) : (finishEvent n s).now = s.now :=
  (finishLinks_now ..).trans (congrArg (fun x => x.2.1) (settleCommit_steady s))

/-! ### Records through changes of one record -/

theorem Names.ref_eq {s : State} {ref : Ref} {r : Record} (h : Names s ref r) : r.ref = ref := by
  have h1 := h.1.holds
  have h2 := h.2
  cases hr : r.ref
  cases ref
  simp_all

theorem Names.findRef {s : State} {ref : Ref} {r : Record} (h : Names s ref r) : Machine.findRef s ref = some r := by
  refine Sole.find ⟨h.1.mem, by simp [h.ref_eq], fun y hy hq => h.1.only y hy ?_⟩
  rw [beq_iff_eq] at hq
  rw [hq]

/-- A named record after a change of the record of a handle. -/
theorem Names.updRec {s : State} {ref : Ref} {r : Record} (hn : Names s ref r) (h : Nat) {f : Record → Record}
    (hf : ∀ x, (f x).ref = x.ref) : Names (Machine.updRec h f s) ref (if ref.handle = h then f r else r) := by
  have hhandle : ∀ x : Record, (if x.ref.handle = h then f x else x).ref = x.ref := fun x => by split <;> simp [hf]
  have hr : (if r.ref.handle = h then f r else r) = if ref.handle = h then f r else r := by rw [hn.ref_eq]
  rw [← hr]
  refine ⟨⟨List.mem_map.mpr ⟨r, hn.1.mem, rfl⟩, by rw [hhandle]; exact hn.1.holds, fun y hy hq => ?_⟩, by rw [hhandle]; exact hn.2⟩
  obtain ⟨x, hx, rfl⟩ := List.mem_map.mp hy
  rw [hhandle] at hq
  rw [hn.1.only x hx hq]

/-- Which record a reference names depends on the records alone. -/
theorem Names.of_dir {s s' : State} {ref : Ref} {r : Record} (hn : Names s ref r) (h : s'.dir.records = s.dir.records) : Names s' ref r := by
  unfold Names
  rw [h]
  exact hn

/-- A named record after a claim to LAGGING. -/
def Record.lagged (h : Nat) (r : Record) : Record := if r.ref.handle = h ∧ r.state = .active then { r with state := .lagging } else r

theorem Names.claimLagging {s : State} {ref : Ref} {r : Record} (hn : Names s ref r) (h : Nat) :
    Names (Machine.claimLagging h s) ref (r.lagged h) := by
  have hfind := hn.findRec
  by_cases hh : ref.handle = h
  · subst hh
    unfold Machine.claimLagging
    rw [hfind]
    dsimp only
    by_cases ha : r.state = .active
    · rw [if_pos ha, Record.lagged, if_pos ⟨by rw [hn.ref_eq], ha⟩]
      have hup := hn.updRec ref.handle (f := fun x => { x with state := .lagging }) fun _ => rfl
      rw [if_pos rfl] at hup
      exact hup.of_dir (by rw [makeJob_dir]; rfl)
    · rw [if_neg ha, Record.lagged, if_neg fun hx => ha hx.2]
      exact hn
  · rw [Record.lagged, if_neg fun hx => hh (hn.ref_eq ▸ hx.1)]
    unfold Machine.claimLagging
    split
    · split
      · have hup := hn.updRec h (f := fun x => { x with state := .lagging }) fun _ => rfl
        rw [if_neg hh] at hup
        exact hup.of_dir (by rw [makeJob_dir]; rfl)
      · exact hn
    · exact hn

/-- A record retired is another. -/
theorem Names.retire {s : State} {ref : Ref} {r : Record} (hn : Names s ref r) {h : Nat} (hh : h ≠ ref.handle) :
    Names (Machine.retire h s) ref r := by
  cases hf : Machine.findRec s h with
  | none =>
    rw [HubMid.retire_of_none hf]
    exact hn
  | some x =>
    have hrec : (Machine.retire h s).dir.records = s.dir.records.filter (fun x => x.ref.handle != h) := by rw [HubMid.retire_dir hf]
    refine ⟨⟨?_, hn.1.holds, fun y hy hq => hn.1.only y ?_ hq⟩, hn.2⟩
    · rw [hrec]
      exact List.mem_filter.mpr ⟨hn.1.mem, by simpa [hn.1.holds] using hh.symm⟩
    · rw [hrec] at hy
      exact List.mem_of_mem_filter hy

theorem Names.forEach {α : Type} {ref : Ref} {r : Record} {f : α → State → State} {xs : List α}
    (hf : ∀ a ∈ xs, ∀ s, Names s ref r → Names (f a s) ref r) {s : State} (hn : Names s ref r) : Names (Machine.forEach xs f s) ref r := by
  unfold Machine.forEach
  induction xs generalizing s with
  | nil => exact hn
  | cons a xs ih => exact ih (fun b hb => hf b (List.mem_cons_of_mem _ hb)) (hf a (List.mem_cons_self ..) s hn)

/-- The deferred expiries take no record that is not STALE. -/
theorem Names.expireAll {s : State} {ref : Ref} {r : Record} (hn : Names s ref r) (hs : r.stale = none) :
    Names (Machine.expireAll s) ref r := by
  refine hn.forEach fun h hh s' hn' => hn'.retire fun he => ?_
  have := (List.mem_filter.mp hh).2
  rw [he, hn.findRec] at this
  simp [graceReached, hs] at this

theorem Names.returnToIdle {s : State} {ref : Ref} {r : Record} (hn : Names s ref r) (hs : r.stale = none) (applied : Bool) :
    Names (Machine.returnToIdle applied s) ref r := by
  have hrest : ∀ s, Names s ref r → Names (noticeHandle (Machine.expireAll (Machine.forEach (catchUpHandles s) makeJob s))) ref r := by
    intro s hn
    have hjobs : Names (Machine.forEach (catchUpHandles s) makeJob s) ref r :=
      hn.of_dir (congrArg Directory.records (forEach_keeps (fun s => s.dir) fun h s => makeJob_dir h s))
    exact (hjobs.expireAll hs).of_dir (by rw [noticeHandle_dir])
  unfold Machine.returnToIdle
  refine hrest _ ?_
  split
  · exact hn.of_dir (congrArg (fun x => x.2.2.2.2.2.1.records) (restartAllJobs_offWire (idled s)))
  · exact hn

/-! ### What an exclusion leaves alone -/

/-- What claims to LAGGING and exclusions leave alone. -/
def outOf (s : State) := (s.now, s.keys, s.store, s.staging, s.boundary, s.port.completions, s.port.tags, s.commit.apart)

theorem claimLagging_outOf (h : Nat) (s : State) : outOf (claimLagging h s) = outOf s := by
  have hjob : ∀ h s, outOf (makeJob h s) = outOf s := by
    intro h s
    unfold makeJob
    split
    · split <;> rfl
    · rfl
  unfold claimLagging
  split
  · split
    · exact hjob _ _
    · rfl
  · rfl

theorem claimLagging_commit (h : Nat) (s : State) : (claimLagging h s).commit = s.commit := (claimLagging_aside h s).commit

theorem queueCancel_statuses (p : Participant) (s : State) : statusesOf (queueCancel p s) = statusesOf s := by
  simp only [statusesOf, queueCancel, updPart, modCommit_commit, modLink_commit, List.map_map]
  refine List.map_congr_left fun q _ => ?_
  simp only [Function.comp]
  split <;> rfl

theorem exclude_outOf (p : Participant) (s : State) : outOf (exclude p s) = outOf s := by
  unfold exclude
  dsimp only
  split
  · split
    · exact claimLagging_outOf ..
    · exact claimLagging_outOf ..
  · rfl

theorem exclude_statuses (p : Participant) (s : State) : statusesOf (exclude p s) = markStatus p.ref .excluded (statusesOf s) := by
  have hset : statusesOf (setStatus p.ref .excluded (dropPrepares p s)) = markStatus p.ref .excluded (statusesOf s) :=
    setStatus_statuses ..
  have hlag : statusesOf (claimLagging p.ref.handle (setStatus p.ref .excluded (dropPrepares p s)))
      = markStatus p.ref .excluded (statusesOf s) := by
    rw [statusesOf, claimLagging_commit]
    exact hset
  unfold exclude
  dsimp only
  split
  · split
    · exact (queueCancel_statuses ..).trans hlag
    · exact hlag
  · exact hset

/-- A named record through an exclusion: it is LAGGING if it was ACTIVE at the participant's place. -/
theorem exclude_names {s : State} {ref : Ref} {r : Record} (hn : Names s ref r) (p : Participant) :
    Names (exclude p s) ref (if partReachable s p then r.lagged p.ref.handle else r) := by
  have hset : Names (setStatus p.ref .excluded (dropPrepares p s)) ref r := hn.of_dir rfl
  have hlag := hset.claimLagging p.ref.handle
  have hreach : partReachable (setStatus p.ref .excluded (dropPrepares p s)) p = partReachable s p := rfl
  unfold exclude
  dsimp only
  rw [hreach]
  split
  · split
    · exact hlag.of_dir rfl
    · exact hlag
  · exact hset

/-! ### Records that lag -/

/-- A record that is ACTIVE at a place, or LAGGING. -/
structure AtPlace (s : State) (ref : Ref) (loc : Loc) (st : Option StaleInfo) (r : Record) : Prop where
  named : Names s ref r
  loc : r.loc = loc
  state : r.state = .active ∨ r.state = .lagging
  stale : r.stale = st

theorem AtPlace.lagged {s s' : State} {ref : Ref} {loc : Loc} {st : Option StaleInfo} {r : Record} (h : AtPlace s ref loc st r) {n : Nat}
    (hn : Names s' ref (r.lagged n)) : AtPlace s' ref loc st (r.lagged n) := by
  refine ⟨hn, ?_, ?_, ?_⟩
  · rw [Record.lagged]
    split
    · exact h.loc
    · exact h.loc
  · rw [Record.lagged]
    split
    · exact .inr rfl
    · exact h.state
  · rw [Record.lagged]
    split
    · exact h.stale
    · exact h.stale

theorem lagged_same {r : Record} {n : Nat} (hh : r.ref.handle = n) (h : r.state = .active ∨ r.state = .lagging) :
    (r.lagged n).state = .lagging := by
  rw [Record.lagged]
  split
  · rfl
  · next hx => exact h.resolve_left fun ha => hx ⟨hh, ha⟩

theorem lagged_lagging {r : Record} (n : Nat) (h : r.state = .lagging) : (r.lagged n).state = .lagging := by
  rw [Record.lagged]
  split
  · rfl
  · exact h

/-- Claims to LAGGING one after another reach the record whose claim is among them. -/
theorem forEach_lags {α : Type} {f : α → State → State} {ref : Ref} {loc : Loc} {st : Option StaleInfo} {xs : List α} {test : α → Prop}
    (hf : ∀ a s r, AtPlace s ref loc st r → ∃ r', AtPlace (f a s) ref loc st r' ∧ (r.state = .lagging ∨ test a → r'.state = .lagging))
    {s : State} {r : Record} (h : AtPlace s ref loc st r) (hx : r.state = .lagging ∨ ∃ a ∈ xs, test a) :
    ∃ r', AtPlace (forEach xs f s) ref loc st r' ∧ r'.state = .lagging := by
  unfold forEach
  induction xs generalizing s r with
  | nil => exact ⟨r, h, hx.resolve_right (by simp)⟩
  | cons a xs ih =>
    obtain ⟨r', h', hl⟩ := hf a s r h
    refine ih h' ?_
    rcases hx with hx | ⟨b, hb, hb'⟩
    · exact .inl (hl (.inl hx))
    · rcases List.mem_cons.mp hb with rfl | hb
      · exact .inl (hl (.inr hb'))
      · exact .inr ⟨b, hb, hb'⟩

theorem exclude_lags {p : Participant} {s : State} {ref : Ref} {loc : Loc} {st : Option StaleInfo} {r : Record} (h : AtPlace s ref loc st r) :
    ∃ r', AtPlace (exclude p s) ref loc st r' ∧ (r.state = .lagging ∨ (p.ref = ref ∧ p.loc = loc) → r'.state = .lagging) := by
  have hn := exclude_names h.named p
  split at hn
  · refine ⟨_, h.lagged hn, fun hx => ?_⟩
    rcases hx with hx | ⟨rfl, -⟩
    · exact lagged_lagging _ hx
    · exact lagged_same (by rw [h.named.ref_eq]) h.state
  · next hr =>
    refine ⟨r, ⟨hn, h.loc, h.state, h.stale⟩, fun hx => ?_⟩
    rcases hx with hx | ⟨rfl, rfl⟩
    · exact hx
    · refine absurd ?_ hr
      rw [partReachable, h.named.findRef]
      have hs : r.state ≠ .stale := by
        rcases h.state with hs | hs <;> rw [hs] <;> simp
      simp [Record.reachable, hs, h.loc]

theorem makeLagging_lags {q : Ref} {s : State} {ref : Ref} {loc : Loc} {st : Option StaleInfo} {r : Record} (h : AtPlace s ref loc st r) :
    ∃ r', AtPlace (makeLagging q s) ref loc st r' ∧ (r.state = .lagging ∨ q = ref → r'.state = .lagging) := by
  have hset : Names (setStatus q .lagging s) ref r := h.named.of_dir rfl
  refine ⟨_, h.lagged (hset.claimLagging q.handle), fun hx => ?_⟩
  rcases hx with hx | rfl
  · exact lagged_lagging _ hx
  · exact lagged_same (by rw [h.named.ref_eq]) h.state

end Sys2Proof.Machine
end

section
/-! PROOFS. The expiries of the three commit deadlines (O25, O26). -/

namespace Sys2Proof.Machine

/-! ### The prepare deadline under LENIENT (R74) -/

theorem excludeUnprepared_outOf (s : State) : outOf (excludeUnprepared s) = outOf s := forEach_keeps outOf exclude_outOf

theorem excludeUnprepared_statuses {s : State} (hn : (s.commit.participants.map Participant.ref).Nodup) :
    statusesOf (excludeUnprepared s)
      = s.commit.participants.map fun p => (p.ref, if p.status = .unprepared then .excluded else p.status) := by
  rw [excludeUnprepared, forEach_statuses (key := Participant.ref) exclude_statuses, statusesOf, marked_statuses hn]
  simp only [beq_iff_eq]

theorem excludeUnprepared_lags {s : State} {p : Participant} (hp : p ∈ s.commit.participants) (hs : p.status = .unprepared) {r : Record}
    (hr : Names s p.ref r) (hloc : r.loc = p.loc) (ha : r.state = .active) :
    ∃ r' ∈ (excludeUnprepared s).dir.records, r'.ref = r.ref ∧ r'.state = .lagging := by
  obtain ⟨r', h', hl⟩ := forEach_lags (f := exclude) (test := fun q => q.ref = p.ref ∧ q.loc = p.loc) (fun q s r h => exclude_lags h)
    (xs := s.commit.participants.filter (fun q => q.status == .unprepared)) (⟨hr, hloc, .inl ha, rfl⟩ : AtPlace s p.ref p.loc r.stale r)
    (.inr ⟨p, List.mem_filter.mpr ⟨hp, by simp [hs]⟩, rfl, rfl⟩)
  exact ⟨r', h'.named.1.mem, h'.named.ref_eq.trans hr.ref_eq.symm, hl⟩

/-- With no participant UNPREPARED the controller arms (R72). -/
theorem settle_preparing_arms {s : State} (h : s.commit.state = .preparing) (hn : ∀ x ∈ statusesOf s, x.2 ≠ .unprepared) :
    settleCommit s = modCommit (fun c => { c with state := .armed, prepareDl := none, armDl := some (s.now + c.lengths.arm * 100) }) s := by
  have hany : ¬ anyStatus s .unprepared = true := fun hx => by
    obtain ⟨x, hx, hs⟩ := anyStatus_statuses.mp hx
    exact hn x hx hs
  unfold settleCommit
  rw [h]
  exact if_neg hany

theorem orderCompletions_of_le {n : Nat} {s : State} (h : s.port.completions.length ≤ n) :
    s.port.completions.take n ++ sortByTag (s.port.completions.drop n) = s.port.completions := by
  rw [List.take_of_length_le h, List.drop_eq_nil_of_le h]
  exact List.append_nil _

theorem entersCancelling_advance {s : State} {reason : CancelReason} (t : Nat) :
    EntersCancelling s (finishEvent s.port.completions.length (enterCancelling reason (advanceTo t s))) reason := by
  obtain ⟨c, ls, heq, -⟩ := enterCancelling_eq reason (advanceTo t s)
  have hport : (enterCancelling reason (advanceTo t s)).port = s.port := by rw [heq]; rfl
  have hext : Extends (advanceTo t s) (enterCancelling reason (advanceTo t s)) := .of_eq (by rw [hport]; rfl) (by rw [hport]; rfl)
  exact EntersCancelling.rebase (p := s.port) (now := max s.now t)
    (entersCancelling (p := (enterCancelling reason (advanceTo t s)).port) hext) rfl

/-- Settles O25. -/
theorem deadlinesBeforeTheApply : Obligations.DeadlinesBeforeTheApply := by
  unfold Obligations.DeadlinesBeforeTheApply
  intro s d hop
  have hprep : exec .prepareDeadlineExpiry s = .next (prepareDeadline s) := congrArg _ (whenOperating_of hop _)
  have harm : exec .armDeadlineExpiry s = .next (armDeadline s) := congrArg _ (whenOperating_of hop _)
  have hcancelNow : ∀ reason, (finishEvent s.port.completions.length (enterCancelling reason (advanceTo d s))).now = max s.now d :=
    fun reason => (finishEvent_now ..).trans (congrArg (fun x => x.2.1) (enterCancelling_steady reason (advanceTo d s)))
  rw [hprep, harm]
  refine ⟨fun h => congrArg _ ?_, fun h => congrArg _ ?_, fun hs hd => ?_, fun hs hd => ⟨fun hp => ?_, fun hp hn => ?_⟩⟩
  · unfold prepareDeadline
    split
    · next h1 h2 => simp [h1, h2] at h
    · rfl
  · unfold armDeadline
    split
    · next h1 h2 => simp [h1, h2] at h
    · rfl
  · have hev : armDeadline s = finishEvent s.port.completions.length (enterCancelling .noBoundary (advanceTo d s)) := by
      simp only [armDeadline, hs, hd]
      rfl
    rw [hev]
    exact ⟨_, rfl, hcancelNow _, entersCancelling_advance d⟩
  · have hev : prepareDeadline s = finishEvent s.port.completions.length (enterCancelling .deadline (advanceTo d s)) := by
      simp only [prepareDeadline, hs, hd]
      exact congrArg _ (if_pos hp)
    rw [hev]
    exact ⟨_, rfl, hcancelNow _, entersCancelling_advance d⟩
  · have hev : prepareDeadline s = finishEvent s.port.completions.length (excludeUnprepared (advanceTo d s)) := by
      simp only [prepareDeadline, hs, hd]
      refine congrArg _ (if_neg fun hx => ?_)
      have : s.commit.policy = some .strict := hx
      simp [hp] at this
    have hout := excludeUnprepared_outOf (advanceTo d s)
    have hstat : statusesOf (excludeUnprepared (advanceTo d s))
        = s.commit.participants.map fun p => (p.ref, if p.status = .unprepared then .excluded else p.status) := excludeUnprepared_statuses hn
    have hapart : (excludeUnprepared (advanceTo d s)).commit.apart = s.commit.apart := congrArg (fun x => x.2.2.2.2.2.2.2) hout
    have hcomp : (excludeUnprepared (advanceTo d s)).port.completions = s.port.completions := congrArg (fun x => x.2.2.2.2.2.1) hout
    have hstate : (excludeUnprepared (advanceTo d s)).commit.state = .preparing := (congrArg CommitCtl.state hapart :).trans hs
    have hlen : (excludeUnprepared (advanceTo d s)).commit.lengths = s.commit.lengths := (congrArg CommitCtl.lengths hapart :)
    have hnow : (excludeUnprepared (advanceTo d s)).now = max s.now d := congrArg (fun x => x.1) hout
    have hset := settle_preparing_arms hstate fun x hx => by
      rw [hstat] at hx
      obtain ⟨p, -, rfl⟩ := List.mem_map.mp hx
      dsimp only
      split
      · simp
      · assumption
    rw [hev, finishEvent, hset]
    refine ⟨_, rfl, (finishLinks_now ..).trans hnow, finishLinks_commit_state .., finishLinks_commit_prepareDl .., ?_, ?_, ?_, ?_, ?_, ?_, ?_,
      ?_, ?_⟩
    · rw [finishLinks_commit_armDl, modCommit_commit, hnow, hlen]
    · exact (finishLinks_statuses ..).trans hstat
    · intro p hpm hps r hr hloc ha
      obtain ⟨r', hm, hr', hl⟩ := excludeUnprepared_lags (s := advanceTo d s) hpm hps (hr.of_dir rfl) hloc ha
      refine ⟨r', ?_, hr', hl⟩
      rw [finishLinks_dir]
      exact hm
    · rw [finishLinks_commit_epoch]
      exact (congrArg CommitCtl.epoch hapart :)
    · exact (finishLinks_staging ..).trans (congrArg (fun x => x.2.2.2.1) hout)
    · exact (finishLinks_store ..).trans (congrArg (fun x => x.2.2.1) hout)
    · exact (finishLinks_keys ..).trans (congrArg (fun x => x.2.1) hout)
    · exact (finishLinks_boundary ..).trans (congrArg (fun x => x.2.2.2.2.1) hout)
    · rw [finishLinks_port, modCommit_port]
      refine (orderCompletions_of_le ?_).trans hcomp
      rw [hcomp]

/-! ### The apply deadline (R81, R82, R83) -/

theorem makeLagging_outOf (ref : Ref) (s : State) : outOf (makeLagging ref s) = outOf s := claimLagging_outOf ..

theorem makeLagging_statuses (ref : Ref) (s : State) : statusesOf (makeLagging ref s) = markStatus ref .lagging (statusesOf s) := by
  rw [statusesOf, makeLagging, claimLagging_commit]
  exact setStatus_statuses ..

/-- With no participant UNCONFIRMED the commit ends OK (R82, R83). -/
theorem settle_applying_ends {s : State} (h : s.commit.state = .applying) (hn : ∀ x ∈ statusesOf s, x.2 ≠ .unconfirmed) :
    settleCommit s = returnToIdle true (completeCommit .ok 0 (commitResult s) s) := by
  have hany : ¬ anyStatus s .unconfirmed = true := fun hx => by
    obtain ⟨x, hx, hs⟩ := anyStatus_statuses.mp hx
    exact hn x hx hs
  unfold settleCommit
  rw [h]
  exact if_neg hany

theorem commitResult_eq {s : State} {n : BitVec 32} (h : s.commit.applyCount = some n) :
    commitResult s = halfBytes s.commit.epoch ++ wordBytes n ++ [u8 ((statusesOf s).countP (fun x => x.2 == .confirmed)),
      u8 ((statusesOf s).countP (fun x => x.2 == .lagging)), u8 ((statusesOf s).countP (fun x => x.2 == .excluded))] := by
  rw [commitResult, countStatus_statuses, countStatus_statuses, countStatus_statuses, h]
  rfl

section Counts

variable (ps : List Participant)

/-- The participants' statuses at the apply deadline: what was UNCONFIRMED lags. -/
def laggedStatuses : List (Ref × PartStatus) :=
  ps.map fun p => (p.ref, if (p.status == .unconfirmed) = true then .lagging else p.status)

theorem countP_lagged_confirmed : (laggedStatuses ps).countP (fun x => x.2 == .confirmed) = ps.countP (fun p => p.status == .confirmed) := by
  rw [laggedStatuses, List.countP_map]
  refine List.countP_congr fun p _ => ?_
  cases hp : p.status <;> simp [hp]

theorem countP_lagged_lagging : (laggedStatuses ps).countP (fun x => x.2 == .lagging)
    = ps.countP (fun p => p.status == .lagging || p.status == .unconfirmed) := by
  rw [laggedStatuses, List.countP_map]
  refine List.countP_congr fun p _ => ?_
  cases hp : p.status <;> simp [hp]

theorem countP_lagged_excluded : (laggedStatuses ps).countP (fun x => x.2 == .excluded) = ps.countP (fun p => p.status == .excluded) := by
  rw [laggedStatuses, List.countP_map]
  refine List.countP_congr fun p _ => ?_
  cases hp : p.status <;> simp [hp]

end Counts

/-- Settles O26: every UNCONFIRMED participant lags, and with none left the commit ends. -/
theorem applyDeadlineEndsTheCommit : Obligations.ApplyDeadlineEndsTheCommit := by
  unfold Obligations.ApplyDeadlineEndsTheCommit
  intro s d hop
  have hexec : exec .applyDeadlineExpiry s = .next (applyDeadline s) := congrArg _ (whenOperating_of hop _)
  rw [hexec]
  refine ⟨fun h => congrArg _ ?_, fun hs hd hn => ?_⟩
  · unfold applyDeadline
    split
    · next h1 h2 => simp [h1, h2] at h
    · rfl
  · have hev : applyDeadline s = finishEvent s.port.completions.length (forEach (unconfirmedRefs s) makeLagging (advanceTo d s)) := by
      simp only [applyDeadline, hs, hd]
      rfl
    have hout : outOf (forEach (unconfirmedRefs s) makeLagging (advanceTo d s)) = outOf (advanceTo d s) := forEach_keeps outOf makeLagging_outOf
    have hstat : statusesOf (forEach (unconfirmedRefs s) makeLagging (advanceTo d s))
        = laggedStatuses s.commit.participants := by
      rw [forEach_statuses (key := id) makeLagging_statuses, List.map_id]
      exact marked_statuses hn (fun p => p.status == .unconfirmed) .lagging
    generalize hm : forEach (unconfirmedRefs s) makeLagging (advanceTo d s) = m at hev hout hstat
    have hapart : m.commit.apart = s.commit.apart := congrArg (fun x => x.2.2.2.2.2.2.2) hout
    have hstate : m.commit.state = .applying := (congrArg CommitCtl.state hapart :).trans hs
    have hcount : m.commit.applyCount = s.commit.applyCount := (congrArg CommitCtl.applyCount hapart :)
    have hepoch : m.commit.epoch = s.commit.epoch := (congrArg CommitCtl.epoch hapart :)
    have hlen : m.commit.lengths = s.commit.lengths := (congrArg CommitCtl.lengths hapart :)
    have htag : m.commit.tag = s.commit.tag := (congrArg CommitCtl.tag hapart :)
    have hext : Extends s m := .of_eq (congrArg (fun x => x.2.2.2.2.2.1) hout) (congrArg (fun x => x.2.2.2.2.2.2.1) hout)
    have hset := settle_applying_ends hstate fun x hx => by
      rw [hstat] at hx
      obtain ⟨p, -, rfl⟩ := List.mem_map.mp hx
      dsimp only
      split
      · simp
      · next h => simpa using h
    have hend := commitEnded true .ok 0 (commitResult m) m
    rw [← hset] at hend
    obtain ⟨h1, h2, h3, h4, h5⟩ := hend.finish hext rfl
    rw [hev]
    refine ⟨_, rfl, (finishEvent_now ..).trans (congrArg (fun x => x.1) hout), ?_, h2, fun t n ht hcnt => ?_, fun p hp hps r hr ha hst => ?_,
      h4.trans (congrArg (fun x => x.2.1) hout), h5.trans (congrArg (fun x => x.2.2.2.2.1) hout)⟩
    · refine h1.trans ?_
      rw [hepoch, hlen]
    · have hc := h3 t (htag.trans ht)
      rwa [commitResult_eq (hcount.trans hcnt), hepoch, hstat, countP_lagged_confirmed, countP_lagged_lagging, countP_lagged_excluded] at hc
    · obtain ⟨r', h', hl⟩ := forEach_lags (f := makeLagging) (test := fun q => q = p.ref) (fun q s r h => makeLagging_lags h)
        (xs := unconfirmedRefs s) (⟨hr.of_dir rfl, rfl, .inl ha, hst⟩ : AtPlace (advanceTo d s) p.ref r.loc none r)
        (.inr ⟨p.ref, (mem_refs_of_status hn _ hp).mpr (by simp [hps]), rfl⟩)
      rw [hm] at h'
      refine ⟨r', ?_, h'.named.ref_eq.trans hr.ref_eq.symm, hl⟩
      rw [finishEvent, finishLinks_dir, hset]
      have hcomp : Names (completeCommit .ok 0 (commitResult m) m) p.ref r' := h'.named.of_dir (by rw [(completeCommit_fields ..).2.2.2.1])
      exact (hcomp.returnToIdle h'.stale true).1.mem

end Sys2Proof.Machine
end

section
/-! PROOFS. Boundary events: what the jobs and the apply make of the hub, and the form in which the three commands make one. -/

namespace Sys2Proof.Machine

/-! ### The jobs take a boundary (R156) -/

/-- The directed APPLYs of the jobs that await a boundary, in queue order. -/
def boundaryApplies (s : State) (js : List Job) : List Txn :=
  (js.filter (fun j => j.phase == .awaitingBoundary)).map (fun j => jobApplyTxn s (hopOf s j.ref) j.ref)

/-- A job that awaited a boundary goes to APPLYING. -/
def Job.boundaryTaken (j : Job) : Job := if j.phase = .awaitingBoundary then { j with phase := .applying } else j

theorem forEach_queueCatchUp (l : LinkId) (js : List Job) (s : State) : ∃ ls,
    forEach js (fun j s => queueCatchUp l (jobApplyTxn s (hopOf s j.ref) j.ref) s) s = { s with links := ls }
    ∧ ls.get l = (s.links.get l).queueCatch (js.map fun j => jobApplyTxn s (hopOf s j.ref) j.ref)
    ∧ ∀ k, k ≠ l → ls.get k = s.links.get k := by
  induction js generalizing s with
  | nil => exact ⟨s.links, rfl, (LinkEngine.queueCatch_nil _).symm, fun _ _ => rfl⟩
  | cons j js ih =>
    obtain ⟨ls, heq, hl, hk⟩ := ih (queueCatchUp l (jobApplyTxn s (hopOf s j.ref) j.ref) s)
    refine ⟨ls, heq, ?_, fun k hne => ?_⟩
    · have hlink : (queueCatchUp l (jobApplyTxn s (hopOf s j.ref) j.ref) s).links.get l
          = (s.links.get l).queueCatch [jobApplyTxn s (hopOf s j.ref) j.ref] := Quad.get_modify_self ..
      rw [hl, hlink]
      simp only [LinkEngine.queueCatch, List.map_cons, List.append_assoc, List.singleton_append]
      rfl
    · rw [hk k hne]
      exact Quad.get_modify_ne _ _ hne

/-- A boundary event at the jobs of one link. -/
def linkTakesBoundary (l : LinkId) (s : State) : State :=
  if (s.links.get l).state = .running then
    let waiting := (s.jobs.get l).filter (fun j => j.phase == .awaitingBoundary)
    let s := forEach waiting (fun j s => queueCatchUp l (jobApplyTxn s (hopOf s j.ref) j.ref) s) s
    modJobs l (fun js => js.map (fun j => if j.phase = .awaitingBoundary then { j with phase := .applying } else j)) s
  else s

theorem jobsTakeBoundary_eq (s : State) : jobsTakeBoundary s = forEach fours linkTakesBoundary s := rfl

/-- What a boundary event makes of a link and its jobs. -/
structure BoundaryTaken (s : State) (e e' : LinkEngine) (js js' : List Job) : Prop where
  running : e.state = .running → e' = e.queueCatch (boundaryApplies s js) ∧ js' = js.map Job.boundaryTaken
  other : e.state ≠ .running → e' = e ∧ js' = js

theorem linkTakesBoundary_at (l : LinkId) (s : State) : ∃ ls js, linkTakesBoundary l s = { s with links := ls, jobs := js }
    ∧ BoundaryTaken s (s.links.get l) (ls.get l) (s.jobs.get l) (js.get l)
    ∧ ∀ k, k ≠ l → ls.get k = s.links.get k ∧ js.get k = s.jobs.get k := by
  unfold linkTakesBoundary
  split
  · next hrun =>
    obtain ⟨ls, heq, hl, hk⟩ := forEach_queueCatchUp l ((s.jobs.get l).filter (fun j => j.phase == .awaitingBoundary)) s
    dsimp only
    rw [heq]
    refine ⟨ls, s.jobs.modify l (fun js => js.map Job.boundaryTaken), rfl, ⟨fun _ => ⟨hl, Quad.get_modify_self ..⟩, fun h => absurd hrun h⟩,
      fun k hne => ⟨hk k hne, Quad.get_modify_ne _ _ hne⟩⟩
  · next hrun =>
    exact ⟨s.links, s.jobs, rfl, ⟨fun h => absurd h hrun, fun _ => ⟨rfl, rfl⟩⟩, fun _ _ => ⟨rfl, rfl⟩⟩

/-- What `boundaryApplies` reads of the hub: the epoch and the records. -/
theorem BoundaryTaken.of_eq {s m : State} {e e' : LinkEngine} {js js' : List Job} (h : BoundaryTaken m e e' js js')
    (hd : m.dir = s.dir) (hc : m.commit = s.commit) : BoundaryTaken s e e' js js' := by
  refine ⟨fun hr => ?_, h.other⟩
  obtain ⟨he, hj⟩ := h.running hr
  refine ⟨he.trans (congrArg (fun ts => e.queueCatch ts) ?_), hj⟩
  simp only [boundaryApplies, jobApplyTxn, hopOf, findRef, hd, hc]

theorem forEach_linkTakesBoundary (ks : List LinkId) (s : State) : ∃ ls js,
    forEach ks linkTakesBoundary s = { s with links := ls, jobs := js } := by
  induction ks generalizing s with
  | nil => exact ⟨s.links, s.jobs, rfl⟩
  | cons k ks ih =>
    obtain ⟨ls, js, heq, -⟩ := linkTakesBoundary_at k s
    obtain ⟨ls', js', heq'⟩ := ih (linkTakesBoundary k s)
    exact ⟨ls', js', heq'.trans (by rw [heq])⟩

/-- A boundary event changes the links and the jobs, each link as its own jobs call for. -/
theorem jobsTakeBoundary_at (s : State) : ∃ ls js, jobsTakeBoundary s = { s with links := ls, jobs := js }
    ∧ ∀ l, BoundaryTaken s (s.links.get l) (ls.get l) (s.jobs.get l) (js.get l) := by
  obtain ⟨ls, js, heq⟩ := forEach_linkTakesBoundary fours s
  refine ⟨ls, js, (jobsTakeBoundary_eq s).trans heq, fun l => ?_⟩
  obtain ⟨b, hb, ha, ks, hks⟩ := forEach_fours_at (fun s => (s.links.get l, s.jobs.get l)) linkTakesBoundary l (fun k s hk => by
    obtain ⟨ls, js, heq, -, hother⟩ := linkTakesBoundary_at k s
    rw [heq]
    exact Prod.ext (hother l hk.symm).1 (hother l hk.symm).2) s
  obtain ⟨lb, jb, hform⟩ := forEach_linkTakesBoundary ks s
  obtain ⟨ll, jl, heql, htaken, -⟩ := linkTakesBoundary_at l b
  have hlinks : b.links.get l = s.links.get l := congrArg Prod.fst hb
  have hjobs : b.jobs.get l = s.jobs.get l := congrArg Prod.snd hb
  rw [heq, heql] at ha
  have hll : ls.get l = ll.get l := congrArg Prod.fst ha
  have hjl : js.get l = jl.get l := congrArg Prod.snd ha
  rw [hlinks, hjobs, ← hll, ← hjl] at htaken
  exact htaken.of_eq (by rw [hks, hform]) (by rw [hks, hform])

theorem jobsTakeBoundary_offWire (s : State) : offWire (jobsTakeBoundary s) = offWire s := by
  obtain ⟨ls, js, heq, htaken⟩ := jobsTakeBoundary_at s
  have hlinks : ls.map (fun e => (e.state, e.reach, e.hops, e.timing)) = s.links.map (fun e => (e.state, e.reach, e.hops, e.timing)) := by
    refine Quad.ext_get fun l => ?_
    rw [Quad.get_map, Quad.get_map]
    by_cases hr : (s.links.get l).state = .running
    · rw [((htaken l).running hr).1]
      rfl
    · rw [((htaken l).other hr).1]
  have hjobs : js.map (fun js => js.map Job.ref) = s.jobs.map (fun js => js.map Job.ref) := by
    refine Quad.ext_get fun l => ?_
    rw [Quad.get_map, Quad.get_map]
    by_cases hr : (s.links.get l).state = .running
    · rw [((htaken l).running hr).2, List.map_map]
      refine List.map_congr_left fun j _ => ?_
      simp only [Function.comp, Job.boundaryTaken]
      split <;> rfl
    · rw [((htaken l).other hr).2]
  rw [heq]
  simp only [offWire, hlinks, hjobs]

/-! ### The apply (R77, R78) -/

/-- The hub at the apply, but for the commit classes. -/
def applied (s : State) : State :=
  { s with
    store := storeAfter s.store s.staging
    keys := s.keys.map (fun k => { k with introduced := false })
    staging := []
    dir := { s.dir with records := s.dir.records.map (recordAfter s) }
    commit := { s.commit with
      state := .applying
      epoch := s.commit.epoch + 1
      participants := s.commit.participants.map partAfter
      armDl := none
      applyDl := if (s.commit.participants.map partAfter).any (fun p => p.status == .unconfirmed)
        then some (s.now + s.commit.lengths.apply * Config.ticksPerMs) else none
      applyCount := some s.boundary.count } }

/-- A link on which the apply has a participant to reach. -/
def appliesOn (s : State) (l : LinkId) : Bool :=
  (s.commit.participants.map partAfter).any (fun p => p.status == .unconfirmed && p.loc.link == l)

/-- A change of a link that changes nothing. -/
theorem modLink_same {l : LinkId} {f : LinkEngine → LinkEngine} {s : State} (h : f (s.links.get l) = s.links.get l) : modLink l f s = s := by
  have hls : s.links.modify l f = s.links := by
    refine Quad.ext_get fun i => ?_
    rw [Quad.get_modify]
    split
    · next hi => rw [hi, h]
    · rfl
  rw [modLink, hls]

/-- The apply changes the settings, the controller, and the commit classes of the links that have a participant UNCONFIRMED. -/
theorem applyCommit_at (s : State) : ∃ ls, applyCommit s = { applied s with links := ls }
    ∧ ∀ l, ls.get l = if appliesOn s l = true then { s.links.get l with commitQ := applyTxns (s.commit.epoch + 1) ++ (s.links.get l).commitQ }
      else s.links.get l := by
  obtain ⟨ls, heq, hls⟩ := forEach_modLink (fun l e => if appliesOn s l = true
    then { e with commitQ := applyTxns (s.commit.epoch + 1) ++ e.commitQ } else e) (applied s)
  refine ⟨ls, heq ▸ ?_, hls⟩
  have hstep : ∀ l (x : State), (if appliesOn s l = true then modLink l (fun e => { e with commitQ := applyTxns (s.commit.epoch + 1) ++ e.commitQ }) x
      else x) = modLink l (fun e => if appliesOn s l = true then { e with commitQ := applyTxns (s.commit.epoch + 1) ++ e.commitQ } else e) x := by
    intro l x
    split
    · rfl
    · exact (modLink_same rfl).symm
  have hfun : (fun l x => if appliesOn s l = true then modLink l (fun e => { e with commitQ := applyTxns (s.commit.epoch + 1) ++ e.commitQ }) x
      else x) = fun l => modLink l (fun e => if appliesOn s l = true then { e with commitQ := applyTxns (s.commit.epoch + 1) ++ e.commitQ } else e) :=
    funext fun l => funext (hstep l)
  exact congrArg (fun f => forEach fours f (applied s)) hfun

end Sys2Proof.Machine
end

section
/-! PROOFS. Boundary events at the end of their event: nothing off the wire outside ARMED, the apply, and the end of the commit. -/

namespace Sys2Proof.Machine

/-! ### The form of the events -/

/-- A hub whose port and boundary unit are as given. -/
def withPort (p : HostPort) (b : BoundaryUnit) (s : State) : State := { s with port := p, boundary := b }

theorem boundaryEvent_port (s : State) : (boundaryEvent s).port = s.port := by
  unfold boundaryEvent
  split
  · obtain ⟨ls, heq, -⟩ := applyCommit_at (countBoundary s)
    rw [heq]
    rfl
  · obtain ⟨ls, js, heq, -⟩ := jobsTakeBoundary_at (countBoundary s)
    rw [heq]
    rfl
  · rfl

theorem boundaryEvent_boundary (s : State) :
    (boundaryEvent s).boundary = { s.boundary with count := s.boundary.count + 1, previous := some s.now } := by
  unfold boundaryEvent
  split
  · obtain ⟨ls, heq, -⟩ := applyCommit_at (countBoundary s)
    rw [heq]
    rfl
  · obtain ⟨ls, js, heq, -⟩ := jobsTakeBoundary_at (countBoundary s)
    rw [heq]
    rfl
  · rfl

/-- The port after a BOUNDARY_NOW has completed. -/
def portNow (tag : Tag) (src : BoundarySource) (waited : Bool) (seen : CommitState) (count : BitVec 32) (p : HostPort) : HostPort :=
  { p with
    completions := p.completions ++ [⟨tag, .boundaryNow, .ok, 0, boundaryResult count src waited seen⟩]
    tags := p.tags.put tag .done }

theorem completeNow_eq (tag : Tag) (src : BoundarySource) (waited : Bool) (seen : CommitState) (s : State) :
    completeNow tag src waited seen s = withPort (portNow tag src waited seen s.boundary.count s.port) s.boundary s := rfl

theorem completePending_eq (src : BoundarySource) (seen : CommitState) (s : State) : completePending src seen s
    = withPort (s.boundary.pendingNow.elim s.port fun p => portNow p.tag src true seen s.boundary.count s.port)
      { s.boundary with pendingNow := none } s := by
  unfold completePending
  cases hpend : s.boundary.pendingNow with
  | none =>
    have hb : ({ s.boundary with pendingNow := none } : BoundaryUnit) = s.boundary := by rw [← hpend]
    dsimp only [Option.elim]
    rw [hb]
    rfl
  | some p => rfl

theorem completeNow_boundaryEvent (tag : Tag) (src : BoundarySource) (waited : Bool) (seen : CommitState) (s : State) :
    completeNow tag src waited seen (boundaryEvent s) = withPort (portNow tag src waited seen (s.boundary.count + 1) s.port)
      { s.boundary with count := s.boundary.count + 1, previous := some s.now } (boundaryEvent s) := by
  rw [completeNow_eq, boundaryEvent_boundary, boundaryEvent_port]

theorem completePending_boundaryEvent (src : BoundarySource) (seen : CommitState) (s : State) :
    completePending src seen (boundaryEvent s) = withPort
      (s.boundary.pendingNow.elim s.port fun p => portNow p.tag src true seen (s.boundary.count + 1) s.port)
      { s.boundary with count := s.boundary.count + 1, previous := some s.now, pendingNow := none } (boundaryEvent s) := by
  rw [completePending_eq, boundaryEvent_boundary, boundaryEvent_port]

/-! ### Outside ARMED (R93) -/

theorem waits_settles {s : State} (h : Waits s) : settleCommit s = s := by
  rcases h with h | ⟨h, p, hp, hs⟩ | ⟨h, p, hp, hs⟩ | ⟨h, l, hl⟩
  · simp only [settleCommit, h]
  · have hany : anyStatus s .unprepared = true := anyStatus_statuses.mpr ⟨_, List.mem_map.mpr ⟨p, hp, rfl⟩, hs⟩
    simp only [settleCommit, h, hany, if_true]
  · have hany : anyStatus s .unconfirmed = true := anyStatus_statuses.mpr ⟨_, List.mem_map.mpr ⟨p, hp, rfl⟩, hs⟩
    simp only [settleCommit, h, hany, if_true]
  · exact settle_cancelling_waits h ⟨l, hl⟩

/-- In a state whose own tests call for nothing the end of an event is the end of its links. -/
theorem rests_settles {s : State} (h : Rests s) : settleCommit s = s := by
  rcases h with h | h
  · simp only [settleCommit, h]
  · exact waits_settles h

theorem finishEvent_rests {s : State} (h : Rests s) (n : Nat) : finishEvent n s = finishLinks n s := by
  rw [finishEvent, rests_settles h]

theorem Waits.not_armed {s : State} (h : Waits s) : s.commit.state ≠ .armed := by
  rcases h with h | ⟨h, -⟩ | ⟨h, -⟩ | ⟨h, -⟩ <;> simp [h]

/-- A boundary event that finds the controller waiting changes the wire and the jobs' contents alone. -/
theorem boundaryEvent_waits {m : State} (h : Waits m) {n : Nat} {p : HostPort} (b : BoundaryUnit) (hn : p.completions.length ≤ n + 1) :
    offWire (finishEvent n (withPort p b (boundaryEvent m))) = offWire (withPort p b m) := by
  by_cases hidle : m.commit.state = .idle
  · obtain ⟨ls, js, heq, -⟩ := jobsTakeBoundary_at (countBoundary m)
    have hev : boundaryEvent m = { countBoundary m with links := ls, jobs := js } := by
      rw [← heq]
      simp only [boundaryEvent, hidle]
    have hoff := jobsTakeBoundary_offWire (countBoundary m)
    rw [heq] at hoff
    have hset : settleCommit (withPort p b (boundaryEvent m)) = withPort p b (boundaryEvent m) := by
      rw [hev]
      exact rests_settles (.inr (.inl hidle))
    rw [finishEvent, hset, finishLinks_offWire (by exact hn), hev]
    have hl := congrArg (fun x => x.2.2.2.2.2.2.2.2.2.2.2.1) hoff
    have hj := congrArg (fun x => x.2.2.2.2.2.2.2.2.2.2.2.2) hoff
    simp only [offWire] at hl hj
    simp only [offWire, withPort, hl, hj]
    rfl
  · have hev : boundaryEvent m = countBoundary m := by
      rcases h with h | ⟨h, -⟩ | ⟨h, -⟩ | ⟨h, -⟩
      · exact absurd h hidle
      all_goals simp only [boundaryEvent, h]
    have hw : Waits (withPort p b (countBoundary m)) := h
    rw [hev, finishEvent, waits_settles hw, finishLinks_offWire (by exact hn)]
    rfl

end Sys2Proof.Machine
end

section
/-! PROOFS. The apply at a boundary event (R77, R78), with a participant PREPARED and with none. -/

namespace Sys2Proof.Machine

/-! ### What the apply makes of the settings and the records -/

theorem findPart_isNone {s : State} {ref : Ref} : (findPart s ref).isNone = true ↔ ∀ p ∈ s.commit.participants, p.ref ≠ ref := by
  simp [findPart]

theorem recordAfter_applied {s : State} (hcs : s.staging.Pairwise (fun a b => sameTarget a.target b.target = false)) (r : Record) :
    RecordApplied s r (recordAfter s r) := by
  refine ⟨rfl, fun ref c d hc hr => positionAfter_place hcs hc hr _, fun ref hc hr => positionAfter_unplace hcs hc hr _,
    fun hu => positionAfter_untouched hu _, fun ref g hc hr => groupsAfter_staged hcs hc hr, fun hu => groupsAfter_untouched hu, ?_⟩
  exact if_congr (and_congr_right fun _ => findPart_isNone) rfl rfl

/-- The statuses after the apply. -/
theorem partAfter_statuses (ps : List Participant) : (ps.map partAfter).map (fun p => (p.ref, p.status))
    = ps.map (fun p => (p.ref, if p.status = .prepared then .unconfirmed else p.status)) := by
  rw [List.map_map]
  refine List.map_congr_left fun p _ => ?_
  simp only [Function.comp, partAfter]
  split <;> rfl

theorem partAfter_unconfirmed {ps : List Participant} {p : Participant} (hp : p ∈ ps) (hs : p.status = .prepared) :
    (ps.map partAfter).any (fun p => p.status == .unconfirmed) = true := by
  refine List.any_eq_true.mpr ⟨partAfter p, List.mem_map.mpr ⟨p, hp, rfl⟩, ?_⟩
  simp [partAfter, hs]

theorem appliesOn_of_prepared {s : State} {p : Participant} (hp : p ∈ s.commit.participants) (hs : p.status = .prepared) :
    appliesOn s p.loc.link = true := by
  refine List.any_eq_true.mpr ⟨partAfter p, List.mem_map.mpr ⟨p, hp, rfl⟩, ?_⟩
  simp [partAfter, hs]

/-- The boundary event in ARMED: the apply, its links set aside. -/
theorem boundaryEvent_armed {m : State} (h : m.commit.state = .armed) (p : HostPort) (b : BoundaryUnit) : ∃ ls,
    withPort p b (boundaryEvent m) = { withPort p b (applied (countBoundary m)) with links := ls }
    ∧ ∀ l, ls.get l = if appliesOn m l = true then { m.links.get l with commitQ := applyTxns (m.commit.epoch + 1) ++ (m.links.get l).commitQ }
      else m.links.get l := by
  obtain ⟨ls, heq, hls⟩ := applyCommit_at (countBoundary m)
  refine ⟨ls, ?_, hls⟩
  have hev : boundaryEvent m = applyCommit (countBoundary m) := by simp only [boundaryEvent, h]
  rw [hev, heq]
  rfl

/-- With a participant PREPARED the controller is APPLYING at the end of the event. -/
theorem applies_of_prepared {m : State} {n : Nat} {p : HostPort} {b : BoundaryUnit} (h : m.commit.state = .armed)
    (hprep : ∃ p ∈ m.commit.participants, p.status = .prepared)
    (hcs : m.staging.Pairwise (fun a b => sameTarget a.target b.target = false)) (hcount : b.count = m.boundary.count + 1)
    (hprev : b.previous = some m.now) :
    Applies m (finishEvent n (withPort p b (boundaryEvent m))) := by
  obtain ⟨q, hq, hqs⟩ := hprep
  obtain ⟨ls, heq, hls⟩ := boundaryEvent_armed h p b
  have hany := partAfter_unconfirmed hq hqs
  have hset : settleCommit (withPort p b (boundaryEvent m)) = withPort p b (boundaryEvent m) := by
    rw [heq]
    refine waits_settles (.inr (.inr (.inl ⟨rfl, ?_⟩)))
    obtain ⟨x, hx, hs⟩ := List.any_eq_true.mp hany
    exact ⟨x, hx, by simpa using hs⟩
  rw [finishEvent, hset, heq]
  refine ⟨finishLinks_staging .., finishLinks_keys .., ⟨fun sc k v hc => ?_, fun sc k hc => ?_, fun sc k hu => ?_⟩,
    ⟨recordAfter m, finishLinks_dir .., fun r _ => recordAfter_applied hcs r⟩, finishLinks_commit_state .., finishLinks_commit_epoch ..,
    ?_, finishLinks_commit_armDl .., ?_, ?_, ?_, ?_, fun l hl => ?_⟩
  · rw [finishLinks_store]
    exact findEntry_of_set hcs hc _
  · rw [finishLinks_store]
    exact findEntry_of_clear hcs hc _
  · rw [finishLinks_store]
    exact findEntry_storeAfter_of_untouched hu _
  · exact (finishLinks_statuses ..).trans (partAfter_statuses _)
  · exact (finishLinks_commit_applyDl ..).trans (if_pos hany)
  · rw [finishLinks_boundary, finishLinks_commit_applyCount]
    exact congrArg some hcount.symm
  · rw [finishLinks_boundary]
    exact hcount
  · rw [finishLinks_boundary]
    exact hprev
  · obtain ⟨x, hx, hxs, rfl⟩ := hl
    obtain ⟨sent, hsent, hf⟩ := finishLinks_commitQ n { withPort p b (applied (countBoundary m)) with links := ls } x.loc.link
    have hq' : (ls.get x.loc.link).commitQ = applyTxns (m.commit.epoch + 1) ++ (m.links.get x.loc.link).commitQ := by
      rw [hls, if_pos (appliesOn_of_prepared hx hxs)]
    have hsent' : (ls.get x.loc.link).commitQ = _ := hsent
    rw [hq'] at hsent'
    rcases hf with rfl | ⟨f, hf, rfl⟩
    · exact .inl hsent'.symm
    · exact .inr ⟨f, hf, hsent'.symm⟩

/-! ### The return to IDLE and the settings -/

/-- Between two states records have only been retired, with their entries and staged changes. -/
structure Pruned (s s' : State) : Prop where
  records : ∀ r ∈ s'.dir.records, r ∈ s.dir.records
  entries : ∀ sc k, (∀ ref, sc ≠ .tile ref) → findEntry s'.store sc k = findEntry s.store sc k
  staging : ∀ c ∈ s'.staging, c ∈ s.staging

namespace Pruned

theorem refl (s : State) : Pruned s s := ⟨fun _ h => h, fun _ _ _ => rfl, fun _ h => h⟩

theorem trans {a b c : State} (h : Pruned a b) (k : Pruned b c) : Pruned a c :=
  ⟨fun r hr => h.records r (k.records r hr), fun sc n hn => (k.entries sc n hn).trans (h.entries sc n hn),
    fun c hc => h.staging c (k.staging c hc)⟩

theorem of_eq {s s' : State} (hd : s'.dir = s.dir) (hst : s'.store = s.store) (hg : s'.staging = s.staging) : Pruned s s' := by
  refine ⟨fun r hr => ?_, fun sc k _ => ?_, fun c hc => ?_⟩
  · rwa [hd] at hr
  · rw [hst]
  · rwa [hg] at hc

theorem forEach {α : Type} {xs : List α} {f : α → State → State} (h : ∀ x s, Pruned s (f x s)) (s : State) : Pruned s (forEach xs f s) := by
  unfold Machine.forEach
  induction xs generalizing s with
  | nil => exact refl s
  | cons x xs ih => exact (h x s).trans (ih _)

end Pruned

/-- An entry of a GROUP or WALL scope names no handle. -/
theorem findEntry_pruned (es : List Entry) (h : Nat) {sc : Scope} (hsc : ∀ ref, sc ≠ .tile ref) (k : Nat) :
    findEntry (es.filter (fun e => !e.namesHandle h)) sc k = findEntry es sc k := by
  rw [findEntry, List.find?_filter, findEntry]
  refine congrArg (fun p => es.find? p) (funext fun e => ?_)
  unfold Entry.isAt Entry.namesHandle
  cases sc with
  | tile ref => exact absurd rfl (hsc ref)
  | wall => cases e.scope <;> simp [sameScope, Bool.beq_eq_decide_eq]
  | group g => cases e.scope <;> simp [sameScope, Bool.beq_eq_decide_eq]

theorem retire_store {h : Nat} {s : State} {r : Record} (hr : findRec s h = some r) :
    (retire h s).store = s.store.filter (fun e => !e.namesHandle h)
      ∧ (retire h s).staging = s.staging.filter (fun c => !c.namesHandle h) := by
  rw [retire, hr]
  constructor
  · simp only [noticeId_store, noticeHandle_store, modPort_store, modDir_store, dropHostWaiting_store, removeJob_store]
    split <;> rfl
  · simp only [noticeId_staging, noticeHandle_staging, modPort_staging, modDir_staging, dropHostWaiting_staging, removeJob_staging]
    split <;> rfl

theorem retire_pruned (h : Nat) (s : State) : Pruned s (retire h s) := by
  cases hr : findRec s h with
  | none =>
    rw [HubMid.retire_of_none hr]
    exact .refl s
  | some r =>
    obtain ⟨hst, hg⟩ := retire_store hr
    refine ⟨fun x hx => HubMid.retire_records_subset hx, fun sc k hsc => ?_, fun c hc => ?_⟩
    · rw [hst]
      exact findEntry_pruned _ _ hsc k
    · rw [hg] at hc
      exact List.mem_of_mem_filter hc

theorem returnToIdle_pruned (applied : Bool) (s : State) : Pruned s (returnToIdle applied s) := by
  have hrest : ∀ s, Pruned s (noticeHandle (expireAll (forEach (catchUpHandles s) makeJob s))) := fun s =>
    ((Pruned.forEach (fun h s => .of_eq (makeJob_dir h s) (makeJob_store h s) (makeJob_staging h s)) s).trans
      (.forEach retire_pruned _)).trans (.of_eq (noticeHandle_dir _) (noticeHandle_store _) (noticeHandle_staging _))
  unfold returnToIdle
  refine Pruned.trans ?_ (hrest _)
  split
  · have hoff := restartAllJobs_offWire (idled s)
    exact .of_eq (congrArg (fun x => x.2.2.2.2.2.1) hoff) (congrArg (fun x => x.2.2.2.2.2.2.2.1) hoff)
      (congrArg (fun x => x.2.2.2.2.2.2.2.2.1) hoff)
  · exact .of_eq rfl rfl rfl

theorem completeCommit_pruned (st : Status) (qual : Byte) (res : List Byte) (s : State) : Pruned s (completeCommit st qual res s) := by
  unfold completeCommit
  split <;> exact .of_eq rfl rfl rfl

/-! ### The apply without a participant to wait for -/

theorem partAfter_of_none {ps : List Participant} (h : ∀ p ∈ ps, p.status ≠ .prepared ∧ p.status ≠ .unconfirmed) :
    ps.map partAfter = ps := by
  refine (List.map_congr_left fun p hp => ?_).trans (List.map_id ps)
  exact if_neg (h p hp).1

/-- With no participant PREPARED the commit ends in the event (R82, R83). -/
theorem appliesAndEnds {m : State} {p : HostPort} {b : BoundaryUnit} (h : m.commit.state = .armed)
    (hnone : ∀ q ∈ m.commit.participants, q.status ≠ .prepared ∧ q.status ≠ .unconfirmed)
    (hext : Extends m (withPort p b m)) :
    AppliesAndEnds m (finishEvent m.port.completions.length (withPort p b (boundaryEvent m)))
      ∧ (finishEvent m.port.completions.length (withPort p b (boundaryEvent m))).boundary = b := by
  obtain ⟨ls, heq, -⟩ := boundaryEvent_armed h p b
  rw [heq]
  have hparts := partAfter_of_none hnone
  generalize ha : ({ withPort p b (applied (countBoundary m)) with links := ls } : State) = a
  have hstat : statusesOf a = statusesOf m := by
    subst ha
    exact congrArg (fun ps : List Participant => ps.map fun p => (p.ref, p.status)) hparts
  have hset := settle_applying_ends (s := a) (by subst ha; rfl) fun x hx => by
    rw [hstat] at hx
    obtain ⟨q, hq, rfl⟩ := List.mem_map.mp hx
    exact (hnone q hq).2
  have hend := commitEnded true .ok 0 (commitResult a) a
  rw [← hset] at hend
  have hexta : Extends m a := by
    subst ha
    exact hext.trans (.of_eq rfl rfl)
  obtain ⟨h1, -, h3, h4, h5⟩ := hend.finish hexta rfl
  have hpruned : Pruned a (settleCommit a) := by
    rw [hset]
    exact (completeCommit_pruned ..).trans (returnToIdle_pruned ..)
  have hstaged : a.staging = [] := by subst ha; rfl
  have hstore : a.store = storeAfter m.store m.staging := by subst ha; rfl
  have hrecords : a.dir.records = m.dir.records.map (recordAfter m) := by subst ha; rfl
  have hcount : a.commit.applyCount = some (m.boundary.count + 1) := by subst ha; rfl
  refine ⟨⟨?_, ?_, ?_, fun hcs => ⟨fun sc k hsc => ⟨fun v hc => ?_, fun hc => ?_, fun hu => ?_⟩, fun r r' hn hr' href => ?_⟩, fun t ht => ?_⟩, ?_⟩
  · rw [finishEvent, finishLinks_staging]
    refine List.eq_nil_iff_forall_not_mem.mpr fun c hc => ?_
    have := hpruned.staging c hc
    rw [hstaged] at this
    cases this
  · exact h4.trans (by subst ha; rfl)
  · exact h1.trans (by subst ha; rfl)
  · rw [finishEvent, finishLinks_store, hpruned.entries sc k hsc, hstore]
    exact findEntry_of_set hcs hc _
  · rw [finishEvent, finishLinks_store, hpruned.entries sc k hsc, hstore]
    exact findEntry_of_clear hcs hc _
  · rw [finishEvent, finishLinks_store, hpruned.entries sc k hsc, hstore]
    exact findEntry_storeAfter_of_untouched hu _
  · rw [finishEvent, finishLinks_dir] at hr'
    have hm := hpruned.records r' hr'
    rw [hrecords] at hm
    obtain ⟨x, hx, rfl⟩ := List.mem_map.mp hm
    have hxr : x = r := hn.1.only x hx (congrArg Ref.handle href)
    rw [hxr]
    exact recordAfter_applied hcs r
  · have hc := h3 t (by subst ha; exact ht)
    rw [commitResult_eq hcount, hstat] at hc
    have hepoch : a.commit.epoch = m.commit.epoch + 1 := by subst ha; rfl
    rw [hepoch] at hc
    simp only [statusesOf, List.countP_map] at hc
    exact hc
  · exact h5.trans (by subst ha; rfl)

end Sys2Proof.Machine
end

section
/-! PROOFS. BOUNDARY_NOW, SET_FRAME, FRAME edges and the frame watch (O27, O31, O33). -/

namespace Sys2Proof.Machine

/-! ### The commands (R94 to R97) -/

theorem exec_boundaryNow {s : State} {b : Byte} {t : Tag} (h : Accepts s b t) :
    exec (.boundaryNow b) s = .next (boundaryNow t (received 0 s)) := congrArg _ (submit_accepts h 0 boundaryNow)

theorem exec_setFrame {s : State} {b p e : Byte} {t : Tag} (h : Accepts s b t) :
    exec (.setFrame b p e) s = .next (setFrame p e t (received 2 s)) := congrArg _ (submit_accepts h 2 (setFrame p e))

theorem exec_boundaryNowDue {s : State} (h : s.phase = .operating) : exec .boundaryNowDue s = .next (boundaryDue s) :=
  congrArg _ (whenOperating_of h _)

theorem exec_frameEdge {s : State} (h : s.phase = .operating) (e : Edge) : exec (.frameEdge e) s = .next (frameEdge e s) :=
  congrArg _ (whenOperating_of h _)

theorem exec_frameWatchExpiry {s : State} (h : s.phase = .operating) : exec .frameWatchExpiry s = .next (watchExpiry s) :=
  congrArg _ (whenOperating_of h _)

theorem spacingHolds_iff {s : State} : spacingHolds s = true ↔ ∀ m, s.boundary.previous = some m → m + 100 ≤ s.now := by
  unfold spacingHolds
  cases h : s.boundary.previous with
  | none => simp
  | some m =>
    simp only [Config.boundarySpacing, Config.ticksPerMs, Option.some_inj, forall_eq']
    exact decide_eq_true_iff

/-- BOUNDARY_NOW with the spacing kept: its boundary event, in the form of `withPort`. -/
theorem boundaryNow_makes {s : State} (t : Tag) (hpend : s.boundary.pendingNow = none)
    (hsp : ∀ m, s.boundary.previous = some m → m + 100 ≤ s.now) : boundaryNow t s = finishEvent s.port.completions.length
      (withPort (portNow t .host false s.commit.state (s.boundary.count + 1) s.port)
        { s.boundary with count := s.boundary.count + 1, previous := some s.now } (boundaryEvent s)) := by
  unfold boundaryNow
  rw [hpend, if_neg (by simp), if_pos (spacingHolds_iff.mpr hsp), completeNow_boundaryEvent]

/-- The due moment of a pending BOUNDARY_NOW. -/
theorem boundaryDue_makes {s : State} {p : PendingNow} (hpend : s.boundary.pendingNow = some p) : boundaryDue s
    = finishEvent s.port.completions.length
      (withPort (portNow p.tag .host true s.commit.state (s.boundary.count + 1) s.port)
        { s.boundary with count := s.boundary.count + 1, previous := some (max s.now p.due), pendingNow := none }
        (boundaryEvent (advanceTo p.due s))) := by
  unfold boundaryDue
  rw [hpend]
  dsimp only
  rw [completePending_boundaryEvent]
  have hp : (advanceTo p.due s).boundary.pendingNow = some p := hpend
  rw [hp]
  rfl

/-- The attention set after an edge of the configured polarity (R97). -/
def edgeAttn (s : State) : AttnSet :=
  if s.boundary.present then s.port.attn else { s.port.attn with device := s.port.attn.device ||| Reason.frameRestored.flag }

/-- A counted edge in the form of `withPort`. -/
theorem watchEdge_eq (s : State) : watchEdge s = withPort { s.port with attn := edgeAttn s }
    { s.boundary with present := true, watch := some (s.now + 25000) } s := by
  unfold watchEdge edgeAttn
  dsimp only
  split <;> rfl

theorem frameEdge_makes {s : State} (hen : s.boundary.enabled = true)
    (hsp : ∀ m, s.boundary.previous = some m → m + 100 ≤ s.now) : frameEdge s.boundary.polarity s
    = finishEvent s.port.completions.length
      (withPort (s.boundary.pendingNow.elim { s.port with attn := edgeAttn s } fun p =>
          portNow p.tag .frame true s.commit.state (s.boundary.count + 1) { s.port with attn := edgeAttn s })
        { s.boundary with present := true, watch := some (s.now + 25000), count := s.boundary.count + 1, previous := some s.now, pendingNow := none }
        (boundaryEvent (watchEdge s))) := by
  have hspacing : spacingHolds (watchEdge s) = true := by
    rw [watchEdge_eq]
    exact spacingHolds_iff.mpr hsp
  have hen' : (watchEdge s).boundary.enabled = true := by
    rw [watchEdge_eq]
    exact hen
  unfold frameEdge
  rw [if_neg (by simp)]
  dsimp only
  rw [if_pos ⟨hen', hspacing⟩, completePending_boundaryEvent]
  simp only [watchEdge_eq]
  rfl

theorem frameEdge_ignored {s : State} {e : Edge} (h : e ≠ s.boundary.polarity) : frameEdge e s = s := if_pos h

theorem frameEdge_watched {s : State} (h : s.boundary.enabled = false ∨ ∃ m, s.boundary.previous = some m ∧ s.now < m + 100) :
    frameEdge s.boundary.polarity s = watchEdge s := by
  have hno : ¬ ((watchEdge s).boundary.enabled = true ∧ spacingHolds (watchEdge s) = true) := by
    rw [watchEdge_eq]
    rintro ⟨hen, hsp⟩
    rcases h with h | ⟨m, hm, hlt⟩
    · have : s.boundary.enabled = true := hen
      simp [h] at this
    · have := spacingHolds_iff.mp hsp m hm
      have : m + 100 ≤ s.now := this
      omega
  unfold frameEdge
  rw [if_neg (by simp)]
  exact if_neg hno

/-! ### The completion of a BOUNDARY_NOW -/

theorem portNow_completed (s : State) {t : Tag} {src : BoundarySource} {w : Bool} {seen : CommitState} {count : BitVec 32} {p : HostPort}
    {res : List Byte} (hp : p.completions = s.port.completions) (hres : boundaryResult count src w seen = res) (b : BoundaryUnit) (x : State) :
    Completed s (finishEvent s.port.completions.length (withPort (portNow t src w seen count p) b x)) ⟨t, .boundaryNow, .ok, 0, res⟩ := by
  refine Completed.finishEvent ⟨⟨[_], congrArg (· ++ _) hp, ?_⟩, by simp [withPort, portNow]⟩
  rw [hres]
  exact List.mem_singleton.mpr rfl

theorem settleCommit_boundary (s : State) : (settleCommit s).boundary = s.boundary := by
  unfold settleCommit
  split
  · split <;> rfl
  · split
    · rfl
    · exact (commitEnded ..).boundary
  · split
    · rfl
    · exact (commitEnded ..).boundary
  · rfl

theorem finishEvent_boundary (n : Nat) (s : State) : (finishEvent n s).boundary = s.boundary :=
  (finishLinks_boundary ..).trans (settleCommit_boundary s)

theorem portNow_extends {s : State} {t : Tag} {src : BoundarySource} {w : Bool} {seen : CommitState} {count : BitVec 32} {p : HostPort}
    (hc : p.completions = s.port.completions) (ht : p.tags = s.port.tags) (b : BoundaryUnit) (x : State) :
    Extends s (withPort (portNow t src w seen count p) b x) := by
  refine ⟨⟨[_], congrArg (· ++ _) hc⟩, fun u hu => ?_⟩
  show (p.tags.put t .done).get u = .done
  rw [Quad.get_put]
  split
  · rfl
  · rw [ht]
    exact hu

theorem boundaryResult_eq (count : BitVec 32) (src : BoundarySource) (w : Bool) (seen : CommitState) :
    boundaryResult count src w seen = wordBytes count ++ [u8 src.ctorIdx, markByte w, u8 seen.ctorIdx] := by
  rw [boundaryResult, commitState_code]
  rfl

/-! ### Rebasing the apply -/

theorem AppliesAndEnds.rebase {s s' : State} {p : HostPort} {b : BoundaryUnit} {now : Nat}
    (h : AppliesAndEnds { s with port := p, boundary := b, now := now } s') (hp : s.port.completions = p.completions)
    (hb : b.count = s.boundary.count) : AppliesAndEnds s s' := by
  obtain ⟨h1, h2, h3, h4, h5⟩ := h
  refine ⟨h1, h2, h3, h4, fun c hc => ?_⟩
  have := (h5 c hc).rebase (b := s) hp
  rwa [hb] at this

/-- The apply does not depend on the port, nor on the boundary unit but for its count. -/
theorem Applies.rebase {s m s' : State} {p : HostPort} {b : BoundaryUnit} (h : Applies m s') (hm : m = withPort p b s)
    (hb : b.count = s.boundary.count) : Applies s s' := by
  subst hm
  obtain ⟨h1, h2, h3, h4, h5, h6, h7, h8, h9, h10, h11, h12, h13⟩ := h
  exact ⟨h1, h2, h3, h4, h5, h6, h7, h8, h9, h10, h11.trans (congrArg (· + 1) hb), h12, h13⟩

/-- Settles O27. -/
theorem boundaryInArmedApplies : Obligations.BoundaryInArmedApplies := by
  unfold Obligations.BoundaryInArmedApplies
  intro s harmed hprep hcs
  have hseen : ∀ src w, boundaryResult (s.boundary.count + 1) src w s.commit.state
      = wordBytes (s.boundary.count + 1) ++ [u8 src.ctorIdx, markByte w, 2] := fun src w => by rw [boundaryResult_eq, harmed]; rfl
  refine ⟨fun b t hacc hpend hsp => ?_, fun p hop hpend => ?_, fun hop hen hsp => ?_⟩
  · refine ⟨_, (exec_boundaryNow hacc).trans (congrArg _ (boundaryNow_makes (s := received 0 s) t hpend hsp)), ?_, ?_⟩
    · exact (applies_of_prepared (m := received 0 s) harmed hprep hcs rfl rfl).rebase (b := s.boundary) rfl rfl
    · exact (portNow_completed (received 0 s) rfl (hseen .host false) _ _).rebase rfl
  · refine ⟨_, (exec_boundaryNowDue hop).trans (congrArg _ (boundaryDue_makes hpend)), ?_, ?_, ?_⟩
    · exact applies_of_prepared (m := advanceTo p.due s) harmed hprep hcs rfl rfl
    · rw [finishEvent_boundary]
      rfl
    · exact portNow_completed s rfl (hseen _ _) _ _
  · have hw := watchEdge_eq s
    refine ⟨_, (exec_frameEdge hop _).trans (congrArg _ (frameEdge_makes hen hsp)), ?_, ?_, ?_, fun p hp => ?_⟩
    · exact (applies_of_prepared (m := watchEdge s) (by rw [hw]; exact harmed) (by rw [hw]; exact hprep) (by rw [hw]; exact hcs)
        (by rw [hw]; rfl) (by rw [hw]; rfl)).rebase hw rfl
    · rw [finishEvent_boundary]
      rfl
    · rw [finishEvent_boundary]
      rfl
    · rw [hp]
      dsimp only [Option.elim]
      exact portNow_completed (p := { s.port with attn := edgeAttn s }) s rfl (hseen .frame true) _ _

end Sys2Proof.Machine
end

section
/-! PROOFS. BOUNDARY_NOW outside the apply, SET_FRAME, FRAME edges and the frame watch (O31, O33). -/

namespace Sys2Proof.Machine

theorem boundaryEvent_now (s : State) : (boundaryEvent s).now = s.now := by
  unfold boundaryEvent
  split
  · obtain ⟨ls, heq, -⟩ := applyCommit_at (countBoundary s)
    rw [heq]
    rfl
  · obtain ⟨ls, js, heq, -⟩ := jobsTakeBoundary_at (countBoundary s)
    rw [heq]
    rfl
  · rfl

/-- The result of a BOUNDARY_NOW of the host, as its bytes. -/
theorem boundaryResult_host (count : BitVec 32) (w : Bool) (seen : CommitState) :
    boundaryResult count .host w seen = wordBytes count ++ [0, if w then 1 else 0, u8 seen.ctorIdx] := by
  rw [boundaryResult_eq]
  cases w <;> rfl

theorem boundaryResult_frame (count : BitVec 32) (seen : CommitState) :
    boundaryResult count .frame true seen = wordBytes count ++ [1, 1, u8 seen.ctorIdx] := by
  rw [boundaryResult_eq]
  rfl

theorem boundaryNow_pends {s : State} (t : Tag) (hpend : s.boundary.pendingNow = none) {m : Nat} (hm : s.boundary.previous = some m)
    (hlt : s.now < m + 100) : boundaryNow t s = boundaryPends t m s := by
  have hsp : ¬ spacingHolds s = true := fun h => by
    have := spacingHolds_iff.mp h m hm
    omega
  unfold boundaryNow
  rw [hpend, if_neg (by simp), if_neg hsp, hm]

theorem boundaryNow_busy {s : State} (t : Tag) (hpend : s.boundary.pendingNow ≠ none) : boundaryNow t s = answer .boundaryNow .busy t s :=
  if_pos (Option.isSome_iff_ne_none.mpr hpend)

/-- The apply and the end of the commit at the boundary event of one of the three commands. -/
theorem ends_of_boundary {s m : State} {p : HostPort} {b q : BoundaryUnit} {r : HostPort} {now : Nat}
    (hm : m = { s with port := r, boundary := q, now := now }) (hr : r.completions = s.port.completions) (hq : q.count = s.boundary.count)
    (harmed : s.commit.state = .armed)
    (hnone : ∀ x ∈ s.commit.participants, x.status ≠ .prepared ∧ x.status ≠ .unconfirmed)
    (hext : Extends m (withPort p b m)) :
    AppliesAndEnds s (finishEvent s.port.completions.length (withPort p b (boundaryEvent m)))
      ∧ (finishEvent s.port.completions.length (withPort p b (boundaryEvent m))).boundary = b := by
  have h := appliesAndEnds (m := m) (p := p) (b := b) (by rw [hm]; exact harmed) (by rw [hm]; exact hnone) hext
  have hlen : m.port.completions.length = s.port.completions.length := by rw [hm, ← hr]
  rw [hlen] at h
  subst hm
  exact ⟨h.1.rebase hr.symm hq, h.2⟩

/-- Settles O31. -/
theorem boundaryNowMakesOneBoundary : Obligations.BoundaryNowMakesOneBoundary := by
  unfold Obligations.BoundaryNowMakesOneBoundary
  refine fun s => ⟨fun b t hacc => ?_, fun hop => ?_⟩
  · rw [exec_boundaryNow hacc]
    refine ⟨fun hp => congrArg _ (boundaryNow_busy (s := received 0 s) t hp), fun hp => ⟨fun m hm hlt => ?_, fun hsp hw => ?_, fun hsp harmed hnone => ?_⟩⟩
    · exact congrArg _ (boundaryNow_pends (s := received 0 s) t hp hm hlt)
    · refine ⟨_, congrArg _ (boundaryNow_makes (s := received 0 s) t hp hsp), ?_⟩
      refine (boundaryEvent_waits (m := received 0 s) hw _ ?_).trans ?_
      · simp [portNow]
      · simp only [portNow, boundaryResult_host]
        rfl
    · refine ⟨_, congrArg _ (boundaryNow_makes (s := received 0 s) t hp hsp), ?_⟩
      obtain ⟨h1, h2⟩ := ends_of_boundary (s := s) (m := received 0 s) (r := (received 0 s).port) (q := s.boundary) (now := s.now)
        (p := portNow t .host false s.commit.state (s.boundary.count + 1) (received 0 s).port)
        (b := { s.boundary with count := s.boundary.count + 1, previous := some s.now }) rfl rfl rfl harmed hnone (portNow_extends rfl rfl _ _)
      refine ⟨h1, h2, ?_⟩
      have hres : boundaryResult (s.boundary.count + 1) .host false s.commit.state = wordBytes (s.boundary.count + 1) ++ [0, 0, 2] := by
        rw [boundaryResult_host, harmed]
        rfl
      exact (portNow_completed (received 0 s) rfl hres _ _).rebase rfl
  · rw [exec_boundaryNowDue hop]
    refine ⟨fun hp => ?_, fun p hp hw => ⟨_, congrArg _ (boundaryDue_makes hp), ?_⟩, fun p hp harmed hnone => ⟨_, congrArg _ (boundaryDue_makes hp), ?_⟩⟩
    · simp only [boundaryDue, hp]
    · refine (boundaryEvent_waits (m := advanceTo p.due s) hw _ ?_).trans ?_
      · simp [portNow]
      · simp only [portNow, boundaryResult_host]
        rfl
    · obtain ⟨h1, h2⟩ := ends_of_boundary (s := s) (m := advanceTo p.due s) (r := s.port) (q := s.boundary) (now := max s.now p.due)
        (p := portNow p.tag .host true s.commit.state (s.boundary.count + 1) s.port)
        (b := { s.boundary with count := s.boundary.count + 1, previous := some (max s.now p.due), pendingNow := none }) rfl rfl rfl harmed hnone
        (portNow_extends rfl rfl _ _)
      have hres : boundaryResult (s.boundary.count + 1) .host true s.commit.state = wordBytes (s.boundary.count + 1) ++ [0, 1, 2] := by
        rw [boundaryResult_host, harmed]
        rfl
      refine ⟨?_, h1, h2, portNow_completed s rfl hres _ _⟩
      exact (finishEvent_now ..).trans (boundaryEvent_now _)

/-! ### SET_FRAME (R94) -/

theorem polarityOf_none {p : Byte} : polarityOf p = none ↔ 1 < p.toNat := by
  have h0 : p = 0 ↔ p.toNat = 0 := ⟨fun h => by simp [h], fun h => BitVec.eq_of_toNat_eq (by simpa using h)⟩
  have h1 : p = 1 ↔ p.toNat = 1 := ⟨fun h => by simp [h], fun h => BitVec.eq_of_toNat_eq (by simpa using h)⟩
  simp only [polarityOf, h0, h1]
  split
  · simp; omega
  · split <;> simp <;> omega

theorem enableOf_none {p : Byte} (h : 1 < p.toNat) : enableOf p = none := by
  have h0 : p ≠ 0 := by rintro rfl; simp at h
  have h1 : p ≠ 1 := by rintro rfl; simp at h
  simp only [enableOf, h0, h1, if_false]

theorem enableOf_some {p : Byte} (h : p.toNat ≤ 1) : enableOf p = some (decide (p = 0)) := by
  have h0 : p = 0 ∨ p = 1 := by
    rcases Nat.le_one_iff_eq_zero_or_eq_one.mp h with h | h
    · exact .inl (BitVec.eq_of_toNat_eq (by simpa using h))
    · exact .inr (BitVec.eq_of_toNat_eq (by simpa using h))
  rcases h0 with rfl | rfl <;> rfl

theorem setFrame_bad {s : State} {p e : Byte} (t : Tag) (h : 1 < p.toNat ∨ 1 < e.toNat) :
    setFrame p e t s = answer .setFrame .badParameter t s := by
  unfold setFrame
  rcases h with h | h
  · rw [polarityOf_none.mpr h]
  · rw [enableOf_none h]
    cases polarityOf p <;> rfl

/-- The watch timer after SET_FRAME: a change of polarity restarts a running one (R94). -/
theorem frameSettings_eq (now : Nat) (p : Edge) (e : Bool) (b : BoundaryUnit) : frameSettings now p e b = { b with
    polarity := p, enabled := e, watch := if p ≠ b.polarity ∧ b.watch ≠ none then some (now + 25000) else b.watch } := by
  unfold frameSettings
  by_cases hp : p = b.polarity
  · rw [if_pos hp, if_neg fun h => h.1 hp]
  · rw [if_neg hp]
    cases hw : b.watch with
    | none => rw [if_neg (by simp)]; rfl
    | some w => rw [if_pos ⟨hp, by simp⟩]; rfl

theorem setFrame_good {s : State} {p e : Byte} {polarity : Edge} (t : Tag) (hp : polarityOf p = some polarity) (he : e.toNat ≤ 1) :
    setFrame p e t s = answerOk .setFrame [p, e] t (modBoundary (frameSettings s.now polarity (decide (e = 0))) s) := by
  unfold setFrame
  rw [hp, enableOf_some he]

/-! ### FRAME (R91, R97) -/

theorem Waits.rebase {s : State} (h : Waits s) (p : HostPort) (b : BoundaryUnit) : Waits (withPort p b s) := h

/-! ### Flags that stay raised (R181) -/

theorem flag_ne_zero (r : Reason) : r.flag ≠ 0 := by cases r <;> decide

theorem or_and_flag_of_left {x y : Flags} {r : Reason} (h : x &&& r.flag ≠ 0) : (x ||| y) &&& r.flag ≠ 0 := fun hz => h <| by
  rw [BitVec.and_or_distrib_right] at hz
  exact (BitVec.or_eq_zero_iff.mp hz).1

theorem or_and_flag (x : Flags) (r : Reason) : (x ||| r.flag) &&& r.flag ≠ 0 := by
  rw [BitVec.or_comm]
  exact or_and_flag_of_left (by rw [BitVec.and_self]; exact flag_ne_zero r)

/-- Between two states the flags of the device and of the links stay raised. -/
structure StaysRaised (s s' : State) : Prop where
  keeps : ∀ x r, (∀ h, x ≠ .handle h) → Raised s x r → Raised s' x r

namespace StaysRaised

theorem refl (s : State) : StaysRaised s s := ⟨fun _ _ _ h => h⟩
theorem trans {a b c : State} (h : StaysRaised a b) (k : StaysRaised b c) : StaysRaised a c :=
  ⟨fun x r hx hr => k.keeps x r hx (h.keeps x r hx hr)⟩

theorem of_attn {s s' : State} (h : s'.port.attn = s.port.attn) : StaysRaised s s' := ⟨fun x r _ hr => by
  unfold Raised
  rw [h]
  exact hr⟩

theorem forEach {α : Type} {xs : List α} {f : α → State → State} (h : ∀ x s, StaysRaised s (f x s)) (s : State) :
    StaysRaised s (forEach xs f s) := by
  unfold Machine.forEach
  induction xs generalizing s with
  | nil => exact refl s
  | cons x xs ih => exact (h x s).trans (ih _)

theorem raiseDevice (q : Reason) (s : State) : StaysRaised s (raiseDevice q s) := by
  refine ⟨fun x r hx hr => ?_⟩
  cases x with
  | device => exact or_and_flag_of_left hr
  | link l => exact hr
  | handle h => exact absurd rfl (hx h)

theorem raiseHandle (n : Nat) (q : Reason) (s : State) : StaysRaised s (raiseHandle n q s) := by
  refine ⟨fun x r hx hr => ?_⟩
  cases x with
  | device => exact hr
  | link l => exact hr
  | handle h => exact absurd rfl (hx h)

theorem retireHandle (n g : Nat) (s : State) : StaysRaised s (modPort (fun p => { p with attn := p.attn.retireHandle n g }) s) := by
  refine ⟨fun x r hx hr => ?_⟩
  cases x with
  | device => exact hr
  | link l => exact hr
  | handle h => exact absurd rfl (hx h)

theorem raiseLink (l : LinkId) (q : Reason) (s : State) : StaysRaised s (raiseLink l q s) := by
  refine ⟨fun x r hx hr => ?_⟩
  cases x with
  | device => exact hr
  | link k =>
    show (s.port.attn.links.modify l (fun f => f ||| q.flag)).get k &&& r.flag ≠ 0
    rw [Quad.get_modify]
    split
    · next hk =>
      subst hk
      exact or_and_flag_of_left hr
    · exact hr
  | handle h => exact absurd rfl (hx h)

end StaysRaised

theorem retire_staysRaised (h : Nat) (s : State) : StaysRaised s (retire h s) := by
  unfold retire
  split
  · refine (StaysRaised.trans ?_ (.of_attn (noticeHandle_attn _))).trans (.of_attn (noticeId_attn ..))
    refine (StaysRaised.trans ?_ (.of_attn rfl)).trans (.retireHandle ..)
    refine (StaysRaised.trans ?_ (.of_attn (removeJob_attn ..))).trans (.of_attn (dropHostWaiting_attn ..))
    split
    · exact StaysRaised.trans (.of_attn (by rfl)) (.raiseDevice ..)
    · exact .of_attn rfl
  · exact .refl s

theorem returnToIdle_staysRaised (applied : Bool) (s : State) : StaysRaised s (returnToIdle applied s) := by
  have hrest : ∀ s, StaysRaised s (noticeHandle (expireAll (forEach (catchUpHandles s) makeJob s))) := fun s =>
    ((StaysRaised.forEach (fun h s => .of_attn (makeJob_attn h s)) s).trans (.forEach retire_staysRaised _)).trans
      (.of_attn (noticeHandle_attn _))
  unfold returnToIdle
  refine StaysRaised.trans ?_ (hrest _)
  split
  · exact .of_attn (congrArg (fun x => x.2.2.2.2.1.attn) (restartAllJobs_offWire (idled s)))
  · exact .of_attn rfl

theorem completeCommit_staysRaised (st : Status) (qual : Byte) (res : List Byte) (s : State) :
    StaysRaised s (completeCommit st qual res s) := by
  unfold completeCommit
  split <;> exact .of_attn rfl

theorem settleCommit_staysRaised (s : State) : StaysRaised s (settleCommit s) := by
  unfold settleCommit
  split
  · split
    · exact .refl s
    · exact .of_attn rfl
  · split
    · exact .refl s
    · exact (completeCommit_staysRaised ..).trans (returnToIdle_staysRaised ..)
  · split
    · exact .refl s
    · exact (completeCommit_staysRaised ..).trans (returnToIdle_staysRaised ..)
  · exact .refl s

theorem finishEvent_staysRaised (n : Nat) (s : State) : StaysRaised s (finishEvent n s) :=
  (settleCommit_staysRaised s).trans (.of_attn (finishLinks_attn ..))

/-- Settles O33. -/
theorem frameSettingsEdgesAndWatch : Obligations.FrameSettingsEdgesAndWatch := by
  unfold Obligations.FrameSettingsEdgesAndWatch
  refine ⟨fun s b p e t hacc => ?_, fun s e hop => ?_⟩
  · rw [exec_setFrame hacc]
    refine ⟨fun h => congrArg _ (setFrame_bad t h), fun polarity hp he => congrArg _ ?_⟩
    have hpol : polarityOf p = some polarity := by
      rcases hp with ⟨rfl, rfl⟩ | ⟨rfl, rfl⟩ <;> rfl
    refine (setFrame_good (s := received 2 s) t hpol he).trans ?_
    show answerOk .setFrame [p, e] t (received 2 { s with boundary := frameSettings s.now polarity (decide (e = 0)) s.boundary }) = _
    rw [answerOk_received, frameSettings_eq]
  · intro attn
    have hattn : attn = edgeAttn s := rfl
    rw [exec_frameEdge hop, exec_frameWatchExpiry hop]
    have hw := watchEdge_eq s
    refine ⟨fun he => congrArg _ (frameEdge_ignored he), ?_, ?_, ?_, fun hno => ?_, fun d hd => ?_⟩
    · rintro rfl hno
      rw [frameEdge_watched hno, hw, hattn]
      rfl
    · rintro rfl hen hsp hwait
      refine ⟨_, congrArg _ (frameEdge_makes hen hsp), ?_⟩
      have hwait' : Waits (watchEdge s) := by
        rw [hw]
        exact hwait
      refine (boundaryEvent_waits hwait' _ ?_).trans ?_
      · cases s.boundary.pendingNow <;> simp [portNow]
      · rw [hw, hattn]
        cases hp : s.boundary.pendingNow with
        | none => simp only [Option.elim, List.append_nil]; rfl
        | some p => simp only [Option.elim, portNow, boundaryResult_frame]; rfl
    · rintro rfl hen hsp harmed hnone
      refine ⟨_, congrArg _ (frameEdge_makes hen hsp), ?_⟩
      have hext : Extends (watchEdge s) (withPort (s.boundary.pendingNow.elim { s.port with attn := edgeAttn s } fun p =>
          portNow p.tag .frame true s.commit.state (s.boundary.count + 1) { s.port with attn := edgeAttn s })
        { s.boundary with present := true, watch := some (s.now + 25000), count := s.boundary.count + 1, previous := some s.now, pendingNow := none }
          (watchEdge s)) := by
        cases hp : s.boundary.pendingNow with
        | none => exact .of_eq (by rw [hw]; rfl) (by rw [hw]; rfl)
        | some p => exact portNow_extends (by rw [hw]; rfl) (by rw [hw]; rfl) _ _
      obtain ⟨h1, h2⟩ := ends_of_boundary (s := s) (m := watchEdge s) (r := { s.port with attn := edgeAttn s })
        (q := { s.boundary with present := true, watch := some (s.now + 25000) }) (now := s.now) hw rfl rfl harmed hnone hext
      refine ⟨?_, h1, h2, fun hpres => ?_, fun p hp => ?_⟩
      · refine (finishEvent_now ..).trans ((boundaryEvent_now _).trans ?_)
        rw [hw]
        rfl
      · refine (finishEvent_staysRaised _ _).keeps .device .frameRestored (fun h => by simp) ?_
        have hattn' : (edgeAttn s).device = s.port.attn.device ||| Reason.frameRestored.flag := by simp [edgeAttn, hpres]
        have hraised : (edgeAttn s).device &&& Reason.frameRestored.flag ≠ 0 := by
          rw [hattn']
          exact or_and_flag _ _
        cases s.boundary.pendingNow with
        | none => exact hraised
        | some p => exact hraised
      · have hres : boundaryResult (s.boundary.count + 1) .frame true s.commit.state = wordBytes (s.boundary.count + 1) ++ [1, 1, 2] := by
          rw [boundaryResult_frame, harmed]
          rfl
        rw [hp]
        dsimp only [Option.elim]
        exact portNow_completed (p := { s.port with attn := edgeAttn s }) s rfl hres _ _
    · simp only [watchExpiry, hno]
    · simp only [watchExpiry, hd]
      rfl

end Sys2Proof.Machine
end

section
/-! PROOFS. A boundary event in IDLE sends the directed APPLYs of the jobs that await one (O32). -/

namespace Sys2Proof.Machine

/-! ### The catch-up class at the arbiter -/

theorem chooseLow_catchQ {idle : Bool} {e e' : LinkEngine} {t : Txn} (h : chooseLow idle e = some (t, e')) :
    e'.catchQ = e.catchQ ∨ e.catchQ = t :: e'.catchQ := by
  unfold chooseLow at h
  split at h
  · split at h
    · split at h <;> cases h
      · exact .inr ‹_›
      · exact .inl rfl
    · cases h
      exact .inl rfl
  · cases h
    exact .inl rfl
  · split at h
    · cases h
      exact .inr ‹_›
    · split at h <;> cases h
      exact .inl rfl
  · split at h <;> cases h
    exact .inl rfl

/-- The arbiter takes at most the head of the catch-up class, and that on a RUNNING link alone. -/
theorem choose_catchQ {idle : Bool} {e e' : LinkEngine} {t : Txn} (h : choose idle e = some (t, e')) :
    e'.catchQ = e.catchQ ∨ (e.catchQ = t :: e'.catchQ ∧ e.state = .running) := by
  unfold choose at h
  split at h
  · next hr =>
    split at h
    · cases h
      exact .inl rfl
    · split at h
      · cases h
        exact .inl rfl
      · exact (chooseLow_catchQ h).imp_right fun hq => ⟨hq, hr⟩
  · split at h <;> cases h
    exact .inl rfl
  · cases h

theorem arbitrated_catchQ (idle : Bool) (now : Nat) (e : LinkEngine) : ∃ sent, e.catchQ = sent ++ (e.arbitrated idle now).catchQ
    ∧ (sent = [] ∨ (e.state = .running ∧ ∃ f, (e.arbitrated idle now).flight = some f ∧ sent = [f.txn])) := by
  unfold LinkEngine.arbitrated
  split
  · exact ⟨[], rfl, .inl rfl⟩
  · cases h : choose idle e with
    | none => exact ⟨[], rfl, .inl rfl⟩
    | some x =>
      rcases choose_catchQ h with hq | ⟨hq, hr⟩
      · exact ⟨[], hq.symm, .inl rfl⟩
      · exact ⟨[x.1], hq, .inr ⟨hr, _, rfl, rfl⟩⟩

/-! ### The jobs of a link at the preparing turn (R154, R162) -/

/-- Some job of a reference is PREPARING. -/
def preparingIn (js : List Job) (ref : Ref) : Prop := ∃ i ∈ js, i.phase = .preparing ∧ i.ref = ref

/-- What the preparing turn makes of the jobs of a link. -/
structure TurnSettled (js js' : List Job) : Prop where
  refs : js'.map Job.ref = js.map Job.ref
  other : ∀ j ∈ js, ¬ preparingIn js j.ref → j ∈ js'
  preparing : ∀ j ∈ js, j.phase = .preparing → (∀ i ∈ js, i.ref = j.ref → i = j) →
    ∃ j' ∈ js', j'.ref = j.ref ∧ j'.phase = .preparing ∧ (j.reprepare = false → { j' with turn := j.turn } = j)

theorem TurnSettled.refl (js : List Job) : TurnSettled js js := ⟨rfl, fun _ h _ => h, fun j h hp _ => ⟨j, h, rfl, hp, fun _ => rfl⟩⟩

/-- The turn changes a job's mark at most, and that of a reference that has a job PREPARING. -/
theorem passTurn_eq (js : List Job) : ∃ g : Job → Job, passTurn js = js.map g
    ∧ ∀ i, g i = i ∨ (preparingIn js i.ref ∧ g i = { i with turn := true }) := by
  unfold passTurn
  split
  · exact ⟨id, (List.map_id js).symm, fun _ => .inl rfl⟩
  · split
    · next j hj =>
      refine ⟨_, rfl, fun i => ?_⟩
      split
      · next hi =>
        have hp := List.find?_some hj
        exact .inr ⟨⟨j, List.mem_of_find?_eq_some hj, by simpa using hp, hi.symm⟩, rfl⟩
      · exact .inl rfl
    · exact ⟨id, (List.map_id js).symm, fun _ => .inl rfl⟩

theorem prepared_phase {s : State} {j : Job} (h : j.phase = .preparing) : (j.prepared s).phase = .preparing := by
  unfold Job.prepared
  split
  · split
    · rfl
    · exact h
  · exact h

theorem prepared_of_not {s : State} {j : Job} (h : j.reprepare = false) : j.prepared s = j := by
  unfold Job.prepared
  rw [h]
  rfl

/-- The turn given, and the job that holds it prepared. -/
theorem turnSettled_of {js : List Job} {g : Job → Job} (hg : ∀ i, g i = i ∨ (preparingIn js i.ref ∧ g i = { i with turn := true }))
    {j : Job} (hj : j ∈ js.map g) (hp : j.phase = .preparing) (s : State) :
    TurnSettled js ((js.map g).map fun i => if i.ref = j.ref then j.prepared s else i) := by
  have href : ∀ i, (g i).ref = i.ref := fun i => by
    rcases hg i with h | ⟨-, h⟩ <;> rw [h]
  have hphase : ∀ i, (g i).phase = i.phase := fun i => by
    rcases hg i with h | ⟨-, h⟩ <;> rw [h]
  refine ⟨?_, fun i hi hn => ?_, fun i hi hpi hu => ?_⟩
  · rw [List.map_map, List.map_map]
    refine List.map_congr_left fun i _ => ?_
    simp only [Function.comp]
    split
    · next h => rw [Job.prepared_ref, ← h, href]
    · exact href i
  · have hgi : g i = i := (hg i).resolve_right fun h => hn h.1
    obtain ⟨k, hk, hkj⟩ := List.mem_map.mp hj
    have hne : ¬ i.ref = j.ref := fun h => hn ⟨k, hk, by rw [← hphase, hkj]; exact hp, by rw [← href, hkj, h]⟩
    refine List.mem_map.mpr ⟨i, List.mem_map.mpr ⟨i, hi, hgi⟩, if_neg hne⟩
  · refine ⟨_, List.mem_map.mpr ⟨g i, List.mem_map.mpr ⟨i, hi, rfl⟩, rfl⟩, ?_⟩
    split
    · next h =>
      obtain ⟨k, hk, rfl⟩ := List.mem_map.mp hj
      have hki : k = i := hu k hk (by rw [← href, ← h, href])
      subst hki
      refine ⟨(Job.prepared_ref ..).trans (href k), prepared_phase hp, fun hr => ?_⟩
      have hgr : (g k).reprepare = false := by
        rcases hg k with h | ⟨-, h⟩ <;> rw [h] <;> exact hr
      rw [prepared_of_not hgr]
      rcases hg k with h | ⟨-, h⟩ <;> rw [h]
    · refine ⟨href i, (hphase i).trans hpi, fun _ => ?_⟩
      rcases hg i with h | ⟨-, h⟩ <;> rw [h]

/-- The turn given, nothing prepared. -/
theorem turnSettled_passed {js : List Job} {g : Job → Job} (hg : ∀ i, g i = i ∨ (preparingIn js i.ref ∧ g i = { i with turn := true })) :
    TurnSettled js (js.map g) := by
  refine ⟨?_, fun i hi hn => ?_, fun i hi hpi _ => ⟨g i, List.mem_map.mpr ⟨i, hi, rfl⟩, ?_⟩⟩
  · rw [List.map_map]
    refine List.map_congr_left fun i _ => ?_
    rcases hg i with h | ⟨-, h⟩ <;> simp only [Function.comp, h]
  · exact List.mem_map.mpr ⟨i, hi, (hg i).resolve_right fun h => hn h.1⟩
  · rcases hg i with h | ⟨-, h⟩ <;> rw [h] <;> exact ⟨rfl, hpi, fun _ => rfl⟩

theorem settleTurn_turnSettled (l : LinkId) (s : State) : TurnSettled (s.jobs.get l) ((settleTurn l s).jobs.get l)
    ∧ ((s.links.get l).state ≠ .running → (settleTurn l s).jobs.get l = s.jobs.get l) := by
  obtain ⟨g, hpass, hg⟩ := passTurn_eq (s.jobs.get l)
  have hjobs : (modJobs l passTurn s).jobs.get l = (s.jobs.get l).map g := (Quad.get_modify_self ..).trans hpass
  unfold settleTurn
  split
  · next hrun =>
    refine ⟨?_, fun h => absurd hrun.2 h⟩
    dsimp only
    split
    · next j hj =>
      rw [hjobs] at hj
      split
      · next hprep =>
        have hset := turnSettled_of hg (List.mem_of_find?_eq_some hj) hprep.1 (modJobs l passTurn s)
        rw [← hjobs] at hset
        refine Eq.mp (congrArg (TurnSettled _) ?_) hset
        exact (Quad.get_modify_self ..).symm
      · rw [hjobs]
        exact turnSettled_passed hg
    · rw [hjobs]
      exact turnSettled_passed hg
  · exact ⟨.refl _, fun _ => rfl⟩

theorem finishLinks_turnSettled (n : Nat) (s : State) (l : LinkId) : TurnSettled (s.jobs.get l) ((finishLinks n s).jobs.get l)
    ∧ ((s.links.get l).state ≠ .running → (finishLinks n s).jobs.get l = s.jobs.get l) := by
  have hall : (finishLinks n s).jobs = (settleTurns (queueHopScans s)).jobs :=
    (modPort_jobs ..).trans (forEach_keeps (fun s => s.jobs) arbitrate_jobs)
  obtain ⟨b, hb, ha, -⟩ := forEach_fours_at (fun s => (s.jobs.get l, (s.links.get l).state)) settleTurn l
    (fun k s hk => Prod.ext (settleTurn_jobs_other (Ne.symm hk) s) (congrArg LinkEngine.state (settleTurn_link_other (Ne.symm hk) s) :)) (queueHopScans s)
  have hjobs : b.jobs.get l = s.jobs.get l := congrArg Prod.fst hb
  have hstate : (b.links.get l).state = (s.links.get l).state := (congrArg Prod.snd hb).trans (by simp [queueHopScans, LinkEngine.queueCaused])
  have hl : (settleTurns (queueHopScans s)).jobs.get l = (settleTurn l b).jobs.get l := congrArg Prod.fst ha
  have h := settleTurn_turnSettled l b
  rw [hjobs, hstate, ← hl, ← hall] at h
  exact h

/-! ### A boundary event in IDLE (R93, R156) -/

theorem boundaryTaken_ref (j : Job) : j.boundaryTaken.ref = j.ref := by
  unfold Job.boundaryTaken
  split <;> rfl

theorem boundaryTaken_preparing {j : Job} (h : j.boundaryTaken.phase = .preparing) : j.phase = .preparing := by
  unfold Job.boundaryTaken at h
  split at h
  · cases h
  · exact h

theorem boundaryTaken_of_preparing {j : Job} (h : j.phase = .preparing) : j.boundaryTaken = j := if_neg (by simp [h])

theorem hopOf_eq (s : State) (ref : Ref) : hopOf s ref = (findRef s ref).elim 0 fun r => r.loc.hop := by
  unfold hopOf
  cases findRef s ref <;> rfl

theorem boundaryApplies_eq (s : State) (js : List Job) : boundaryApplies s js = (js.filter (fun j => j.phase == .awaitingBoundary)).map
    fun j => { dest := .directed ((findRef s j.ref).elim 0 fun r => r.loc.hop), body := .apply s.commit.epoch, cls := .catchUp,
               req := .job j.ref } := by
  refine List.map_congr_left fun j _ => ?_
  rw [jobApplyTxn, hopOf_eq]

/-- The jobs of a RUNNING link through a boundary event and the preparing turn behind it. -/
theorem TurnSettled.afterBoundary {js js' : List Job} (h : TurnSettled (js.map Job.boundaryTaken) js') :
    js'.map Job.ref = js.map Job.ref
      ∧ (∀ j ∈ js, ¬ preparingIn js j.ref → j.boundaryTaken ∈ js')
      ∧ ∀ j ∈ js, j.phase = .preparing → (∀ i ∈ js, i.ref = j.ref → i = j) →
        ∃ j' ∈ js', j'.ref = j.ref ∧ j'.phase = .preparing ∧ (j.reprepare = false → { j' with turn := j.turn } = j) := by
  refine ⟨h.refs.trans ?_, fun j hj hn => h.other _ (List.mem_map.mpr ⟨j, hj, rfl⟩) ?_, fun j hj hp hu => ?_⟩
  · rw [List.map_map]
    exact List.map_congr_left fun j _ => boundaryTaken_ref j
  · rintro ⟨_, hmem, hp, hr⟩
    obtain ⟨i, hi, rfl⟩ := List.mem_map.mp hmem
    rw [boundaryTaken_ref, boundaryTaken_ref] at hr
    exact hn ⟨i, hi, boundaryTaken_preparing hp, hr⟩
  · refine h.preparing j (List.mem_map.mpr ⟨j, hj, boundaryTaken_of_preparing hp⟩) hp fun i' hmem hr => ?_
    obtain ⟨i, hi, rfl⟩ := List.mem_map.mp hmem
    rw [boundaryTaken_ref] at hr
    obtain rfl := hu i hi hr
    exact boundaryTaken_of_preparing hp

/-- A boundary event in IDLE at the end of its event, in the form of `withPort`. -/
theorem jobsApply_of_boundary {s m : State} {p r : HostPort} {b q : BoundaryUnit} {now n : Nat}
    (hm : m = { s with port := r, boundary := q, now := now }) (hidle : s.commit.state = .idle) :
    JobsApply s (finishEvent n (withPort p b (boundaryEvent m))) := by
  obtain ⟨ls, js, heq, htaken⟩ := jobsTakeBoundary_at (countBoundary m)
  have hev : boundaryEvent m = { countBoundary m with links := ls, jobs := js } := by
    rw [← heq]
    have hmi : m.commit.state = .idle := by rw [hm]; exact hidle
    simp only [boundaryEvent, hmi]
  have hset : settleCommit (withPort p b (boundaryEvent m)) = withPort p b (boundaryEvent m) := by
    rw [hev, hm]
    exact rests_settles (.inr (.inl hidle))
  rw [finishEvent, hset, hev]
  intro l
  have htaken : BoundaryTaken s (s.links.get l) (ls.get l) (s.jobs.get l) (js.get l) := by
    have h := htaken l
    rw [hm] at h
    exact h.of_eq rfl rfl
  generalize hx : withPort p b { countBoundary m with links := ls, jobs := js } = x
  have hxl : x.links = ls := by rw [← hx]; rfl
  have hxj : x.jobs = js := by rw [← hx]; rfl
  have hxe : x.commit.epoch = s.commit.epoch := by rw [← hx, hm]; rfl
  obtain ⟨hturn, hstill⟩ := finishLinks_turnSettled n x l
  obtain ⟨ts, hlink, hlen, hrun, hts⟩ := finishLinks_link n x l
  rw [hxj] at hturn hstill
  rw [hxl] at hstill
  rw [hxl] at hlink hrun
  rw [hxj, hxe] at hts
  have hcatch : ∀ e : LinkEngine, (e.queueCaused.queueCatch ts).catchQ = e.catchQ ++ ts := fun _ => rfl
  obtain ⟨sent, hsent, hfl⟩ := arbitrated_catchQ (decide (x.commit.state = .idle)) x.now ((ls.get l).queueCaused.queueCatch ts)
  rw [← hlink, hcatch] at hsent
  rw [← hlink] at hfl
  by_cases hr : (s.links.get l).state = .running
  · obtain ⟨he, hj⟩ := htaken.running hr
    rw [if_pos hr]
    rw [hj] at hturn hts
    obtain ⟨h1, h2, h3⟩ := hturn.afterBoundary
    refine ⟨h1, h2, h3, sent, ts, ?_, hfl.imp_right fun h => h.2, hlen, fun t ht => ?_⟩
    · rw [← boundaryApplies_eq, ← hsent, he]
      rfl
    · obtain ⟨j, hj, hp, hreq, first, final, ps, hb⟩ := hts t ht
      obtain ⟨i, hi, rfl⟩ := List.mem_map.mp hj
      exact ⟨i.ref, first, final, ps, ⟨i, hi, boundaryTaken_preparing hp, rfl⟩, hreq.trans (by rw [boundaryTaken_ref]), hb⟩
  · obtain ⟨he, hj⟩ := htaken.other hr
    rw [if_neg hr]
    rw [he] at hsent hrun hstill
    have hnil : ts = [] := by_contra fun h => hr (hrun h).2
    have hsentnil : sent = [] := hfl.resolve_right fun h => hr (by rw [← he]; exact h.1)
    rw [hnil, hsentnil, List.append_nil, List.nil_append] at hsent
    exact ⟨(hstill hr).trans hj, hsent.symm⟩

/-- Settles O32. -/
theorem boundaryInIdleSendsTheAppliesOfJobs : Obligations.BoundaryInIdleSendsTheAppliesOfJobs := by
  unfold Obligations.BoundaryInIdleSendsTheAppliesOfJobs
  intro s hidle
  refine ⟨fun b t hacc hpend hsp => ?_, fun p hop hpend => ?_, fun hop hen hsp => ?_⟩
  · refine ⟨_, (exec_boundaryNow hacc).trans (congrArg _ (boundaryNow_makes (s := received 0 s) t hpend hsp)), ?_⟩
    exact jobsApply_of_boundary (m := received 0 s) (r := (received 0 s).port) (q := s.boundary) (now := s.now) rfl hidle
  · refine ⟨_, (exec_boundaryNowDue hop).trans (congrArg _ (boundaryDue_makes hpend)), (finishEvent_now ..).trans (boundaryEvent_now _), ?_⟩
    exact jobsApply_of_boundary (m := advanceTo p.due s) (r := s.port) (q := s.boundary) (now := max s.now p.due) rfl hidle
  · exact ⟨_, (exec_frameEdge hop _).trans (congrArg _ (frameEdge_makes hen hsp)), jobsApply_of_boundary (now := s.now) (watchEdge_eq s) hidle⟩

end Sys2Proof.Machine
end

section
/-! PROOFS. Requests of the links: direct access, timing settings, LINK_ENABLE and lock (O50, O37, O34). -/

namespace Sys2Proof.Machine

/-! ### Direct tile access (R166 to R168) -/

theorem chooseLow_hostQ {idle : Bool} {e e' : LinkEngine} {t : Txn} (h : chooseLow idle e = some (t, e')) :
    e'.hostQ = e.hostQ ∨ e.hostQ = t :: e'.hostQ := by
  unfold chooseLow at h
  split at h
  · split at h
    · split at h <;> cases h
      · exact .inl rfl
      · exact .inr ‹_›
    · cases h
      exact .inr ‹_›
  · cases h
    exact .inr ‹_›
  · split at h
    · cases h
      exact .inl rfl
    · split at h <;> cases h
      exact .inl rfl
  · split at h <;> cases h
    exact .inl rfl

theorem choose_hostQ {idle : Bool} {e e' : LinkEngine} {t : Txn} (h : choose idle e = some (t, e')) :
    e'.hostQ = e.hostQ ∨ e.hostQ = t :: e'.hostQ := by
  unfold choose at h
  split at h
  · split at h
    · cases h
      exact .inl rfl
    · split at h
      · cases h
        exact .inl rfl
      · exact chooseLow_hostQ h
  · split at h <;> cases h
    exact .inl rfl
  · cases h

/-- The arbiter takes at most the head of the host class. -/
theorem arbitrated_hostQ (idle : Bool) (now : Nat) (e : LinkEngine) : ∃ sent, e.hostQ = sent ++ (e.arbitrated idle now).hostQ
    ∧ (sent = [] ∨ ∃ f, (e.arbitrated idle now).flight = some f ∧ sent = [f.txn]) := by
  unfold LinkEngine.arbitrated
  split
  · exact ⟨[], rfl, .inl rfl⟩
  · cases h : choose idle e with
    | none => exact ⟨[], rfl, .inl rfl⟩
    | some x =>
      rcases choose_hostQ h with hq | hq
      · exact ⟨[], hq.symm, .inl rfl⟩
      · exact ⟨[x.1], hq, .inr ⟨_, rfl, rfl⟩⟩

theorem directCheck_stale {s : State} {ref : Ref} {r : Record} (hn : Names s ref r) (h : r.state = .stale) :
    directCheck s ref = .error .notReachable := by
  simp [directCheck, hn.checkRef, Record.reachable, h]

theorem directCheck_reachable {s : State} {ref : Ref} {r : Record} (hn : Names s ref r) (h : r.state ≠ .stale) :
    directCheck s ref = .ok r := by
  simp [directCheck, hn.checkRef, Record.reachable, h]

theorem addressBound_iff {s : State} {a : Byte} : addressBound s a = true ↔ (∃ k ∈ s.keys, k.addr = a) ∨ a = 240 ∨ a = 241 := by
  simp only [addressBound, Bool.or_eq_true, List.any_eq_true, beq_iff_eq, or_assoc]
  rfl

/-- A direct access queued and arbitrated (R168). -/
theorem direct_queued {s : State} (n : Nat) (x : Running) (loc : Loc) (body : Body) (t : Tag) :
    let s' := arbitrate loc.link (queueDirect x loc body t (received n s))
    offWire s' = offWire { received n s with port := { (received n s).port with tags := s.port.tags.put t (.running x) } }
      ∧ s'.jobs = s.jobs
      ∧ ∃ sent, (s.links.get loc.link).hostQ ++ [(⟨.directed loc.hop, body, .host, .tag t⟩ : Txn)] = sent ++ (s'.links.get loc.link).hostQ
        ∧ (sent = [] ∨ ∃ f, (s'.links.get loc.link).flight = some f ∧ sent = [f.txn]) := by
  refine ⟨(arbitrate_offWire ..).trans (modLink_offWire rfl), arbitrate_jobs .., ?_⟩
  have hlink : (queueDirect x loc body t (received n s)).links.get loc.link
      = { s.links.get loc.link with hostQ := (s.links.get loc.link).hostQ ++ [directTxn loc.hop body t] } := Quad.get_modify_self ..
  rw [arbitrate_link, hlink]
  exact arbitrated_hostQ _ _ { s.links.get loc.link with hostQ := (s.links.get loc.link).hostQ ++ [directTxn loc.hop body t] }

theorem tileRead_refused {s : State} {ref : Ref} {st : Status} (h : directCheck s ref = .error st) (a : Byte) (t : Tag) :
    tileRead ref a t s = refuseDirect (.tileRead ref a) st t s := by rw [tileRead, h]

theorem tileRead_queued {s : State} {ref : Ref} {r : Record} (h : directCheck s ref = .ok r) (a : Byte) (t : Tag) :
    tileRead ref a t s = arbitrate r.loc.link (queueDirect (.tileRead ref a) r.loc (.paramRead a) t s) := by rw [tileRead, h]

theorem tileWrite_refused {s : State} {ref : Ref} {st : Status} (h : directCheck s ref = .error st) (a : Byte) (v : Half) (t : Tag) :
    tileWrite ref a v t s = refuseDirect (.tileWrite ref a v) st t s := by rw [tileWrite, h]

theorem tileWrite_bound {s : State} {ref : Ref} {r : Record} (h : directCheck s ref = .ok r) {a : Byte} (hb : addressBound s a = true)
    (v : Half) (t : Tag) : tileWrite ref a v t s = refuseDirect (.tileWrite ref a v) .keyBound t s := by
  rw [tileWrite, h]
  exact if_pos hb

theorem tileWrite_queued {s : State} {ref : Ref} {r : Record} (h : directCheck s ref = .ok r) {a : Byte} (hb : ¬ addressBound s a = true)
    (v : Half) (t : Tag) :
    tileWrite ref a v t s = arbitrate r.loc.link (queueDirect (.tileWrite ref a v) r.loc (.paramWrite a v) t s) := by
  rw [tileWrite, h]
  exact if_neg hb

theorem refuseDirect_received (n : Nat) (x : Running) (st : Status) (t : Tag) (s : State) :
    refuseDirect x st t (received n s) = answered s n t x.kind st x.fields := rfl

/-- Settles O50. -/
theorem tileAccessIsQueuedOrRefused : Obligations.TileAccessIsQueuedOrRefused := by
  unfold Obligations.TileAccessIsQueuedOrRefused
  intro s b h g a v1 v0 t r hacc hn
  dsimp only
  rw [exec_tileRead hacc, exec_tileWrite hacc]
  have hn' : ∀ n, Names (received n s) (refOf ⟨h, g⟩) r := fun n => hn.of_dir rfl
  have href : refOf ⟨h, g⟩ = r.ref := hn.ref_eq.symm
  have hread : Running.fields (.tileRead r.ref a) = [h, g, a] := by rw [← href]; simp [Running.fields, refBytes_refOf]
  have hwrite : Running.fields (.tileWrite r.ref a (v1 ++ v0)) = [h, g, a, v1, v0] := by
    rw [← href]
    simp [Running.fields, refBytes_refOf, halfBytes_append]
  rw [href] at hn' ⊢
  refine ⟨fun hs => ⟨congrArg _ ?_, congrArg _ ?_⟩, fun hs => ⟨?_, fun hb => congrArg _ ?_, fun hb => ?_⟩⟩
  · rw [tileRead_refused (directCheck_stale (hn' 3) hs), refuseDirect_received, hread]
    rfl
  · rw [tileWrite_refused (directCheck_stale (hn' 5) hs), refuseDirect_received, hwrite]
    rfl
  · exact ⟨_, congrArg _ (tileRead_queued (directCheck_reachable (hn' 3) hs) a t), direct_queued 3 _ r.loc _ t⟩
  · rw [tileWrite_bound (directCheck_reachable (hn' 5) hs) (addressBound_iff (s := received 5 s).mpr hb), refuseDirect_received, hwrite]
    rfl
  · exact ⟨_, congrArg _ (tileWrite_queued (directCheck_reachable (hn' 5) hs) (fun h => hb (addressBound_iff.mp h)) _ t),
      direct_queued 5 _ r.loc _ t⟩

/-! ### SET_TIMING and SET_DEADLINES (R123, R124) -/

theorem exec_setTiming {s : State} {b : Byte} {t : Tag} (h : Accepts s b t) (n a r m i : Byte) :
    exec (.setTiming b n a r m i) s = .next (setTiming n a r m i t (received 5 s)) := congrArg _ (submit_accepts h 5 (setTiming n a r m i))

theorem exec_setDeadlines {s : State} {b : Byte} {t : Tag} (h : Accepts s b t) (p a d : Half) :
    exec (.setDeadlines b p a d) s = .next (setDeadlines p a d t (received 6 s)) := congrArg _ (submit_accepts h 6 (setDeadlines p a d))

theorem timingOk_iff {a r m i : Byte} : timingOk ⟨a.toNat, r.toNat, m.toNat, i.toNat⟩ = true
    ↔ a ≠ 0 ∧ r.toNat ≤ 7 ∧ m ≠ 0 ∧ m.toNat ≤ 15 ∧ i ≠ 0 := by
  have h0 : ∀ x : Byte, x ≠ 0 ↔ 1 ≤ x.toNat := fun x => by
    constructor
    · exact fun hx => Nat.one_le_iff_ne_zero.mpr fun h => hx (BitVec.eq_of_toNat_eq (by simpa using h))
    · rintro hx rfl
      simp at hx
  simp only [timingOk, Bool.and_eq_true, decide_eq_true_eq, h0]
  tauto

theorem setTiming_ok {s : State} {n a r m i : Byte} {l : LinkId} (hl : n.toNat = l.val)
    (hok : timingOk ⟨a.toNat, r.toNat, m.toNat, i.toNat⟩ = true) (t : Tag) :
    setTiming n a r m i t s = arbitrate l (answerOk .setTiming [] t (newTiming l ⟨a.toNat, r.toNat, m.toNat, i.toNat⟩ s)) := by
  rw [setTiming, linkOf_eq_some hl]
  exact if_pos hok

theorem missUnder_eq (l : LinkId) (limit : Nat) (x : Record) : missUnder l limit x = if x.loc.link ≠ l then x
    else if x.state ≠ .stale then (if limit ≤ x.miss then { x with miss := limit - 1 } else x)
    else (if limit < x.miss then { x with miss := limit } else x) := by
  unfold missUnder
  by_cases hl : x.loc.link = l
  · simp [hl, Record.reachable]
  · simp [hl]

/-- A link engine with new timing settings: its roll call is due at once if the new interval has passed. -/
def LinkEngine.retimed (x : Timing) (now : Nat) (e : LinkEngine) : LinkEngine :=
  let e' := { e with timing := x }
  if e.awaitsRoll ∧ e'.rollMoment ≤ now then e'.rollFalls else e'

theorem retimed_due {x : Timing} {now : Nat} {e : LinkEngine} (hr : e.state = .running) (hm : e.rollMet = false ∨ e.rollDue = true)
    (hp : e.lastRollEnd + x.interval * 100 ≤ now) : (e.retimed x now).rollDue = true := by
  unfold LinkEngine.retimed
  dsimp only
  split
  · rfl
  · next h =>
    rcases hm with hm | hm
    · by_contra hd
      have hd' : e.rollDue = false := by simpa using hd
      exact h ⟨by simp [LinkEngine.awaitsRoll, hr, hd', hm], hp⟩
    · exact hm

theorem chooseLow_rollDue {idle : Bool} {e e' : LinkEngine} {t : Txn} (h : chooseLow idle e = some (t, e')) : e'.rollDue = e.rollDue := by
  unfold chooseLow at h
  (repeat' split at h) <;> cases h <;> rfl

theorem choose_rollDue {idle : Bool} {e e' : LinkEngine} {t : Txn} (h : choose idle e = some (t, e')) : e'.rollDue = e.rollDue := by
  unfold choose at h
  split at h
  · split at h
    · cases h
      rfl
    · split at h
      · cases h
        rfl
      · exact chooseLow_rollDue h
  · split at h <;> cases h
    rfl
  · cases h

/-- A due roll call stays due, or a roll call has started. -/
theorem arbitrated_rollDue {idle : Bool} {now : Nat} {e : LinkEngine} (h : e.rollDue = true) : (e.arbitrated idle now).rollDue = true
    ∨ ∃ f, (e.arbitrated idle now).flight = some f ∧ f.txn.body = .rollCall := by
  unfold LinkEngine.arbitrated
  split
  · exact .inl h
  · cases hc : choose idle e with
    | none => exact .inl h
    | some x =>
      by_cases hb : x.1.body = .rollCall
      · exact .inr ⟨_, rfl, hb⟩
      · refine .inl ?_
        show (if x.1.body = .rollCall then false else x.2.rollDue) = true
        rw [if_neg hb, choose_rollDue (t := x.1) hc, h]

theorem retimed_keeps (x : Timing) (now : Nat) (e : LinkEngine) : ((e.retimed x now).state, (e.retimed x now).reach, (e.retimed x now).hops,
    (e.retimed x now).timing) = (e.state, e.reach, e.hops, x) := by
  unfold LinkEngine.retimed
  dsimp only
  split <;> rfl

/-- Hubs whose links differ on the wire alone. -/
theorem offWire_of_map {a b : State} (hsame : { a with links := b.links } = b)
    (h : a.links.map (fun e => (e.state, e.reach, e.hops, e.timing)) = b.links.map (fun e => (e.state, e.reach, e.hops, e.timing))) :
    offWire a = offWire b := by
  rw [← hsame]
  simp only [offWire, h]

theorem newTiming_eq (l : LinkId) (x : Timing) (s : State) : newTiming l x s = { s with
    dir := { s.dir with records := s.dir.records.map fun r => if r.loc.link ≠ l then r
      else if r.state ≠ .stale then (if x.missLimit ≤ r.miss then { r with miss := x.missLimit - 1 } else r)
      else (if x.missLimit < r.miss then { r with miss := x.missLimit } else r) }
    links := s.links.modify l (LinkEngine.retimed x s.now) } := by
  have hrec : s.dir.records.map (missUnder l x.missLimit) = _ := List.map_congr_left fun r _ => missUnder_eq l x.missLimit r
  rw [← hrec]
  rfl

/-- Settles O37. -/
theorem timingAndDeadlinesAreSet : Obligations.TimingAndDeadlinesAreSet := by
  unfold Obligations.TimingAndDeadlinesAreSet
  refine ⟨fun s b n a r m i t hacc => ?_, fun s b p a d t hacc => ?_⟩
  · rw [exec_setTiming hacc]
    refine ⟨fun hn => ?_, fun hn hbad => ?_, fun l hl ha hr hm hm' hi => ?_⟩
    · rw [setTiming, linkOf_eq_none hn]
      rfl
    · have hlink := linkOf_eq_some (n := n) (l := ⟨n.toNat, by omega⟩) rfl
      have hno : ¬ timingOk ⟨a.toNat, r.toNat, m.toNat, i.toNat⟩ = true := by
        rw [timingOk_iff]
        rintro ⟨h1, h2, h3, h4, h5⟩
        rcases hbad with h | h | h | h | h
        · exact h1 h
        · omega
        · exact h3 h
        · omega
        · exact h5 h
      rw [setTiming, hlink]
      exact congrArg _ (if_neg hno)
    · have hok : timingOk ⟨a.toNat, r.toNat, m.toNat, i.toNat⟩ = true := timingOk_iff.mpr ⟨ha, hr, hm, hm', hi⟩
      refine ⟨_, congrArg _ (setTiming_ok hl hok t), ?_, arbitrate_jobs .., fun hrun hmet hpassed => ?_⟩
      · rw [arbitrate_offWire, newTiming_eq]
        refine offWire_of_map rfl (Quad.ext_get fun k => ?_)
        show ((s.links.modify l _).map _).get k = ((s.links.put l _).map _).get k
        simp only [Quad.get_map, Quad.get_modify, Quad.get_put]
        split
        · next hk =>
          subst hk
          exact retimed_keeps ..
        · rfl
      · have hlink : (answerOk .setTiming [] t (newTiming l ⟨a.toNat, r.toNat, m.toNat, i.toNat⟩ (received 5 s))).links.get l
            = (s.links.get l).retimed ⟨a.toNat, r.toNat, m.toNat, i.toNat⟩ s.now := Quad.get_modify_self ..
        rw [arbitrate_link, hlink]
        exact arbitrated_rollDue (retimed_due hrun hmet hpassed)
  · rw [exec_setDeadlines hacc]
    have hd : ∀ x : Half, deadlineOk x = true ↔ 1 ≤ x.toNat ∧ x.toNat ≤ 1000 := fun x => decide_eq_true_iff
    have hall : (deadlineOk p && deadlineOk a && deadlineOk d) = true
        ↔ 1 ≤ p.toNat ∧ p.toNat ≤ 1000 ∧ 1 ≤ a.toNat ∧ a.toNat ≤ 1000 ∧ 1 ≤ d.toNat ∧ d.toNat ≤ 1000 := by
      simp only [Bool.and_eq_true, hd, and_assoc]
    refine ⟨fun h => congrArg _ (if_pos (hall.mpr h)), fun h => congrArg _ (if_neg fun hx => h (hall.mp hx))⟩

end Sys2Proof.Machine
end

section
/-! PROOFS. LINK_ENABLE, lock and RESCAN (O34, O38). -/

namespace Sys2Proof.Machine

theorem exec_linkEnable {s : State} {b : Byte} {t : Tag} (h : Accepts s b t) (n : Byte) :
    exec (.linkEnable b n) s = .next (linkEnable n t (received 1 s)) := congrArg _ (submit_accepts h 1 (linkEnable n))

theorem exec_rescan {s : State} {b : Byte} {t : Tag} (h : Accepts s b t) (n : Byte) :
    exec (.rescan b n) s = .next (rescan n t (received 1 s)) := congrArg _ (submit_accepts h 1 (rescan n))

/-! ### LINK_ENABLE and lock (R106, R109) -/

theorem linkEnable_up {s : State} {n : Byte} {l : LinkId} (hl : n.toNat = l.val) (h : (s.links.get l).state ≠ .disabled) (t : Tag) :
    linkEnable n t s = answerOk .linkEnable [] t s := by
  rw [linkEnable, linkOf_eq_some hl]
  exact congrArg (answerOk .linkEnable [] t) (if_neg h)

theorem linkEnable_disabled {s : State} {n : Byte} {l : LinkId} (hl : n.toNat = l.val) (h : (s.links.get l).state = .disabled) (t : Tag) :
    linkEnable n t s = answerOk .linkEnable [] t (modLink l (LinkEngine.down .training s.now) s) := by
  rw [linkEnable, linkOf_eq_some hl]
  exact congrArg (answerOk .linkEnable [] t) (if_pos h)

/-- The arbiter whose choice is no participant's transaction changes its link alone. -/
theorem arbitrate_chosen {l : LinkId} {s : State} {t : Txn} {e' : LinkEngine} (hf : (s.links.get l).flight = none)
    (ho : (s.links.get l).overtaking = none) (hc : choose (s.commit.state = .idle) (s.links.get l) = some (t, e'))
    (ht : ∀ ref, t.req ≠ .participant ref) : arbitrate l s = { s with links := s.links.put l (e'.handed s.now t) } := by
  have hmark : ∀ x, markReached t x = x := fun x => by
    unfold markReached
    split
    · next ref h => exact absurd h (ht ref)
    · rfl
  unfold arbitrate
  dsimp only
  rw [if_neg (by simp [hf, ho]), hc]
  dsimp only
  rw [startTxn, hmark]
  have hls : (s.links.modify l fun _ => e').modify l (LinkEngine.handed s.now t) = s.links.put l (e'.handed s.now t) := by
    refine Quad.ext_get fun i => ?_
    rw [Quad.get_modify, Quad.get_modify, Quad.get_put]
    split <;> rfl
  exact congrArg (fun ls => { s with links := ls }) hls

/-- A link engine at the beginning of a full scan (R135). -/
def LinkEngine.scanBegun (tag : Option Tag) (e : LinkEngine) : LinkEngine := { e with
  state := .scanning, scan := some { hop := 0, created := 0, rebound := 0, claimed := 0, rescan := tag }, scanQ := e.scanQ ++ [enumTxn true 0] }

/-- In SCANNING the first ENUM_QUERY of a full scan that waits alone takes a free wire. -/
theorem choose_scan {idle : Bool} {e : LinkEngine} {hop : Nat} (hs : e.state = .scanning) (hq : e.scanQ = [enumTxn true hop]) :
    choose idle e = some (enumTxn true hop, { e with scanQ := [] }) := by
  unfold choose
  rw [hs, hq]
  rfl

theorem lockAchieved_training {l : LinkId} {s : State} (h : (s.links.get l).state = .training) :
    lockAchieved l s = arbitrate l (modLink l (fun e => LinkEngine.scanBegun none { e with noLockTimer := none, noLockMark := false }) s) := by
  unfold lockAchieved
  rw [if_pos h, beginScan, modLink_modLink]
  rfl

/-- A link engine that has locked, its first ENUM_QUERY taken by the wire. -/
def LinkEngine.locked (e : LinkEngine) : LinkEngine :=
  { LinkEngine.scanBegun none { e with noLockTimer := none, noLockMark := false } with scanQ := [] }

theorem exec_lockAchieved {s : State} (h : s.phase = .operating) (l : LinkId) : exec (.lockAchieved l) s = .next (lockAchieved l s) :=
  congrArg _ (whenOperating_of h _)

theorem exec_noLockExpiry {s : State} (h : s.phase = .operating) (l : LinkId) : exec (.noLockExpiry l) s = .next (noLockExpiry l s) :=
  congrArg _ (whenOperating_of h _)

/-- Settles O34. -/
theorem enabledLinkTrainsAndThenScans : Obligations.EnabledLinkTrainsAndThenScans := by
  unfold Obligations.EnabledLinkTrainsAndThenScans
  refine fun s l => ⟨fun b n t hacc => ?_, fun hop => ?_⟩
  · rw [exec_linkEnable hacc]
    refine ⟨fun hn => ?_, fun hl => ⟨fun hs => congrArg _ (linkEnable_up (s := received 1 s) hl hs t), fun hs => ?_⟩⟩
    · rw [linkEnable, linkOf_eq_none hn]
      rfl
    · exact ⟨LinkEngine.down .training s.now (s.links.get l), congrArg _ (linkEnable_disabled (s := received 1 s) hl hs t), rfl, rfl, rfl,
        rfl, rfl, rfl⟩
  · rw [exec_lockAchieved hop, exec_noLockExpiry hop]
    refine ⟨fun hs => ⟨congrArg _ (if_neg hs), congrArg _ ?_⟩, fun hs => ⟨fun d hd => congrArg _ ?_, fun hd => congrArg _ ?_, fun hf ho hq => ?_⟩⟩
    · unfold noLockExpiry
      split
      · next h1 _ => exact absurd h1 hs
      · rfl
    · unfold noLockExpiry
      rw [hs, hd]
      rfl
    · unfold noLockExpiry
      rw [hs, hd]
    · rw [lockAchieved_training hs]
      have hlink : (modLink l (fun e => LinkEngine.scanBegun none { e with noLockTimer := none, noLockMark := false }) s).links.get l
          = LinkEngine.scanBegun none { s.links.get l with noLockTimer := none, noLockMark := false } := Quad.get_modify_self ..
      have hchoose := choose_scan (idle := decide (s.commit.state = .idle)) (hop := 0)
        (e := LinkEngine.scanBegun none { s.links.get l with noLockTimer := none, noLockMark := false }) rfl
        (by simp [LinkEngine.scanBegun, hq])
      rw [← hlink] at hchoose
      rw [arbitrate_chosen (by rw [hlink]; exact hf) (by rw [hlink]; exact ho) hchoose (by rintro ref ⟨⟩)]
      rw [hlink]
      refine ⟨LinkEngine.handed s.now (enumTxn true 0) (s.links.get l).locked,
        (s.links.get l).locked.newFlight s.now (enumTxn true 0), ?_, rfl, rfl, rfl, rfl, rfl, rfl, rfl, rfl, rfl, rfl, rfl, rfl, rfl⟩
      refine congrArg (fun ls => Host.Outcome.next { s with links := ls }) (Quad.ext_get fun i => ?_)
      rw [modLink_links, Quad.get_put, Quad.get_modify, Quad.get_put]
      split <;> rfl

/-! ### An assignment abandoned (R133, R134) -/

/-- A link engine through the notices that an abandoned assignment brings. -/
def LinkEngine.noticed (a : Assignment) (e : LinkEngine) : LinkEngine :=
  (if a.kind = .assigningNew then e.notice isDirectoryFull else e).notice (isDuplicateOf a.info.uid)

theorem dropAssignment_eq (l : LinkId) (a : Assignment) (s : State) : dropAssignment l a s = { s with
    dir := { s.dir with
      marks := s.dir.marks.filter (fun m => m.loc != ⟨l, a.hop⟩)
      freeList := if a.kind = .assigningNew then a.ref.handle :: s.dir.freeList else s.dir.freeList }
    links := (s.links.modify l (fun e => { e with assigning := none })).map (LinkEngine.noticed a) } := by
  unfold dropAssignment LinkEngine.noticed
  cases a.kind <;> rfl

/-- A link engine but for its assignment, its follow-up mark and the hop scans caused. -/
def LinkEngine.unnoticed (e : LinkEngine) : LinkEngine := { e with assigning := none, followUp := false, caused := [] }

theorem cause_unnoticed (hop : Nat) (e : LinkEngine) : (e.cause hop).unnoticed = e.unnoticed := by
  unfold LinkEngine.cause
  split <;> rfl

theorem notice_unnoticed (test : HopEntry → Bool) (e : LinkEngine) : (e.notice test).unnoticed = e.unnoticed := by
  unfold LinkEngine.notice
  split
  · exact foldl_keeps LinkEngine.unnoticed cause_unnoticed
  · rfl
  · rfl

theorem noticed_unnoticed (a : Assignment) (e : LinkEngine) : (e.noticed a).unnoticed = e.unnoticed := by
  unfold LinkEngine.noticed
  rw [notice_unnoticed]
  split
  · exact notice_unnoticed ..
  · rfl

theorem notice_assigning (test : HopEntry → Bool) (e : LinkEngine) : (e.notice test).assigning = e.assigning := by
  have hc : ∀ hop (e : LinkEngine), (e.cause hop).assigning = e.assigning := fun hop e => by
    unfold LinkEngine.cause
    split <;> rfl
  unfold LinkEngine.notice
  split
  · exact foldl_keeps LinkEngine.assigning hc
  · rfl
  · rfl

theorem notice_state (test : HopEntry → Bool) (e : LinkEngine) : (e.notice test).state = e.state :=
  (congrArg LinkEngine.state (notice_unnoticed test e) :)

/-- A link that is not RUNNING has no hop scan caused by a notice. -/
theorem notice_caused {test : HopEntry → Bool} {e : LinkEngine} (h : e.state ≠ .running) : (e.notice test).caused = e.caused := by
  unfold LinkEngine.notice
  split
  · contradiction
  · rfl
  · rfl

theorem noticed_caused {a : Assignment} {e : LinkEngine} (h : e.state ≠ .running) : (e.noticed a).caused = e.caused := by
  unfold LinkEngine.noticed
  split
  · rw [notice_caused (by rwa [notice_state]), notice_caused h]
  · exact notice_caused h

theorem noticed_assigning (a : Assignment) (e : LinkEngine) : (e.noticed a).assigning = e.assigning := by
  unfold LinkEngine.noticed
  rw [notice_assigning]
  split
  · exact notice_assigning ..
  · rfl

/-! ### RESCAN (R138) -/

theorem rescan_running {s : State} {n : Byte} {l : LinkId} (hl : n.toNat = l.val) (h : (s.links.get l).state = .running) (t : Tag) :
    rescan n t s = finishLinks s.port.completions.length (acceptRescan l t s) := by
  rw [rescan, linkOf_eq_some hl]
  dsimp only
  rw [h]

/-- The link engine of an accepted RESCAN before its scan begins. -/
theorem enterRescan_fields (e : LinkEngine) : e.enterRescan.state = .scanning ∧ e.enterRescan.scanQ = [] ∧ e.enterRescan.rollDue = false
    ∧ e.enterRescan.hops = e.hops ∧ e.enterRescan.reach = e.reach ∧ e.enterRescan.caused = e.caused ∧ e.enterRescan.overtaking = e.overtaking
    ∧ (e.flight = none → e.enterRescan.flight = none) ∧ (e.flight ≠ none → e.enterRescan.flight ≠ none) := by
  unfold LinkEngine.enterRescan LinkEngine.dropFlight
  split
  · next f hf =>
    split
    · exact ⟨rfl, rfl, rfl, rfl, rfl, rfl, rfl, fun h => absurd (h.symm.trans hf) (by simp), fun _ => by simp⟩
    · exact ⟨rfl, rfl, rfl, rfl, rfl, rfl, rfl, fun h => h, fun h => h⟩
  · exact ⟨rfl, rfl, rfl, rfl, rfl, rfl, rfl, fun h => h, fun h => h⟩

/-- An accepted RESCAN: the link engine before its scan begins, the engines after it, and the directory (R138). -/
structure RescanAccepted (l : LinkId) (t : Tag) (s : State) (e' : LinkEngine) (ls : Quad LinkEngine) (d : Directory) : Prop where
  state : acceptRescan l t s = { s with
      port := { s.port with tags := s.port.tags.put t (.running (.rescan l)) }, dir := d, links := ls }
  link : ls.get l = LinkEngine.scanBegun (some t) e'
  unnoticed : e'.unnoticed = (s.links.get l).enterRescan.unnoticed
  caused : e'.caused = (s.links.get l).caused
  records : d.records = s.dir.records
  kept : (∀ a, (s.links.get l).assigning = some a → (s.links.get l).assignWaits a = false) → d = s.dir
  dropped : ∀ a, (s.links.get l).assigning = some a → (s.links.get l).assignWaits a = true → e'.assigning = none
    ∧ d.marks = s.dir.marks.filter (fun m => m.loc != ⟨l, a.hop⟩)
    ∧ d.freeList = if a.kind = .assigningNew then a.ref.handle :: s.dir.freeList else s.dir.freeList

theorem scanBegun_modify (l : LinkId) (t : Option Tag) (ls : Quad LinkEngine) :
    (ls.modify l (LinkEngine.scanBegun t)).get l = LinkEngine.scanBegun t (ls.get l) := Quad.get_modify_self ..

/-- With no ASSIGN waiting the directory is untouched. -/
theorem acceptRescan_kept {l : LinkId} {t : Tag} {s : State}
    (h : ∀ a, (s.links.get l).assigning = some a → (s.links.get l).assignWaits a = false) :
    RescanAccepted l t s (s.links.get l).enterRescan ((s.links.modify l LinkEngine.enterRescan).modify l (LinkEngine.scanBegun (some t)))
      s.dir where
  state := by
    cases ha : (s.links.get l).assigning with
    | none =>
      simp only [acceptRescan, ha]
      rfl
    | some a =>
      simp only [acceptRescan, ha, h a ha]
      rfl
  link := (scanBegun_modify ..).trans (congrArg _ (Quad.get_modify_self ..))
  unnoticed := rfl
  caused := (enterRescan_fields (s.links.get l)).2.2.2.2.2.1
  records := rfl
  kept := fun _ => rfl
  dropped := fun a ha hw => by
    rw [h a ha] at hw
    cases hw

/-- A waiting ASSIGN is abandoned. -/
theorem acceptRescan_dropped {l : LinkId} {t : Tag} {s : State} {a : Assignment} (ha : (s.links.get l).assigning = some a)
    (hw : (s.links.get l).assignWaits a = true) : ∃ ls d,
      RescanAccepted l t s (LinkEngine.noticed a { (s.links.get l).enterRescan with assigning := none }) ls d := by
  obtain ⟨hstate, -, -, -, -, hcaused, -⟩ := enterRescan_fields (s.links.get l)
  have heq : acceptRescan l t s
      = beginScan l (some t) (dropAssignment l a (modLink l LinkEngine.enterRescan (holdTag t (.rescan l) s))) := by
    simp only [acceptRescan, ha, hw, if_true]
  rw [dropAssignment_eq] at heq
  refine ⟨_, _, heq, ?_, ?_, ?_, rfl, fun h => ?_, fun b hb _ => ?_⟩
  · refine (scanBegun_modify ..).trans (congrArg _ ?_)
    rw [Quad.get_map, Quad.get_modify_self, modLink_links, Quad.get_modify_self]
    rfl
  · rw [noticed_unnoticed]
    rfl
  · rw [noticed_caused (by simp [hstate])]
    exact hcaused
  · have := h a ha
    rw [hw] at this
    cases this
  · cases ha.symm.trans hb
    exact ⟨noticed_assigning .., rfl, rfl⟩

theorem rescanAccepted (l : LinkId) (t : Tag) (s : State) : ∃ e' ls d, RescanAccepted l t s e' ls d := by
  by_cases h : ∀ a, (s.links.get l).assigning = some a → (s.links.get l).assignWaits a = false
  · exact ⟨_, _, _, acceptRescan_kept h⟩
  · simp only [not_forall, Bool.not_eq_false] at h
    obtain ⟨a, ha, hw⟩ := h
    exact ⟨_, acceptRescan_dropped ha hw⟩

theorem LinkEngine.queueCaused_nil {e : LinkEngine} (h : e.caused = []) : e.queueCaused = e := by
  have hs : e.scansCaused = [] := by
    rw [LinkEngine.scansCaused, h]
    rfl
  rw [LinkEngine.queueCaused, hs, List.map_nil, List.append_nil, ← h]

/-- A link that is not RUNNING and has caused no hop scan, at the end of an event: its wire is handed out. -/
theorem finishLinks_link_of_calm (n : Nat) {s : State} {l : LinkId} (hs : (s.links.get l).state ≠ .running) (hc : (s.links.get l).caused = []) :
    (finishLinks n s).links.get l = (s.links.get l).arbitrated (s.commit.state = .idle) s.now := by
  obtain ⟨ts, hts, -, hidle, -⟩ := finishLinks_link n s l
  have hnil : ts = [] := by_contra fun hx => hs (hidle hx).2
  rw [hts, hnil, LinkEngine.queueCatch_nil, LinkEngine.queueCaused_nil hc]

/-- A link whose full scan has begun, its wire handed out. -/
structure ScanWired (tag : Option Tag) (e' e : LinkEngine) : Prop where
  state : e.state = .scanning
  scan : e.scan = some { hop := 0, created := 0, rebound := 0, claimed := 0, rescan := tag }
  rollDue : e.rollDue = e'.rollDue
  hops : e.hops = e'.hops
  reach : e.reach = e'.reach
  assigning : e.assigning = e'.assigning
  free : e'.flight = none → e'.overtaking = none → e.scanQ = [] ∧ ∃ f, e.flight = some f ∧ f.txn = enumTxn true 0
  busy : e'.flight ≠ none → e.scanQ = [enumTxn true 0]

theorem scanBegun_arbitrated (idle : Bool) (now : Nat) {tag : Option Tag} {e' : LinkEngine}
    (hq : (LinkEngine.scanBegun tag e').scanQ = [enumTxn true 0]) :
    ScanWired tag e' ((LinkEngine.scanBegun tag e').arbitrated idle now) := by
  unfold LinkEngine.arbitrated
  split
  · next h =>
    refine ⟨rfl, rfl, rfl, rfl, rfl, rfl, fun hf ho => ?_, fun _ => hq⟩
    rcases h with h | h
    · exact absurd (h.symm.trans (congrArg Option.isSome hf)) (by simp)
    · exact absurd (h.symm.trans (congrArg Option.isSome ho)) (by simp)
  · next h =>
    rw [choose_scan (e := LinkEngine.scanBegun tag e') rfl hq]
    refine ⟨rfl, rfl, rfl, rfl, rfl, rfl, fun _ _ => ⟨rfl, _, rfl, rfl⟩, fun hf => absurd (.inl ?_) h⟩
    exact Option.isSome_iff_ne_none.mpr hf

/-- Settles O38. -/
theorem rescanStartsAFullScan : Obligations.RescanStartsAFullScan := by
  unfold Obligations.RescanStartsAFullScan
  intro s b n t hacc
  rw [exec_rescan hacc]
  refine ⟨fun hn => ?_, fun l hl => ⟨fun hs => ?_, fun hs => ?_, fun hs hcaused => ?_⟩⟩
  · rw [rescan, linkOf_eq_none hn]
    rfl
  · rw [rescan, linkOf_eq_some hl]
    rcases hs with hs | hs <;> simp only [received_links, hs] <;> rfl
  · rw [rescan, linkOf_eq_some hl]
    simp only [received_links, hs]
    rfl
  · refine ⟨_, congrArg _ (rescan_running (s := received 1 s) hl hs t), ?_⟩
    obtain ⟨e', ls, d, hr⟩ := rescanAccepted l t (received 1 s)
    have hls : (acceptRescan l t (received 1 s)).links.get l = LinkEngine.scanBegun (some t) e' := by
      rw [hr.state]
      exact hr.link
    have hun : ∀ {β : Type} (g : LinkEngine → β), g e'.unnoticed = g (s.links.get l).enterRescan.unnoticed := fun g => congrArg g hr.unnoticed
    obtain ⟨hstate, hscanQ, hroll, hhops, hreach, -, hover, hfree, hbusy⟩ := enterRescan_fields (s.links.get l)
    have hend := finishLinks_link_of_calm s.port.completions.length (s := acceptRescan l t (received 1 s)) (l := l)
      (by rw [hls]; exact nofun) (by rw [hls]; exact hr.caused.trans hcaused)
    rw [hls] at hend
    have hhops' : e'.hops = (s.links.get l).hops := (hun LinkEngine.hops).trans hhops
    have hreach' : e'.reach = (s.links.get l).reach := (hun LinkEngine.reach).trans hreach
    have hroll' : e'.rollDue = false := (hun LinkEngine.rollDue).trans hroll
    have hscanQ' : (LinkEngine.scanBegun (some t) e').scanQ = [enumTxn true 0] :=
      congrArg (· ++ [enumTxn true 0]) ((hun LinkEngine.scanQ).trans hscanQ)
    have hwire := scanBegun_arbitrated (decide ((acceptRescan l t (received 1 s)).commit.state = .idle)) (acceptRescan l t (received 1 s)).now
      hscanQ'
    rw [← hend] at hwire
    have hflight : e'.flight = (s.links.get l).enterRescan.flight := hun LinkEngine.flight
    have hover' : e'.overtaking = (s.links.get l).overtaking := (hun LinkEngine.overtaking).trans hover
    refine ⟨?_, hwire.state, hwire.rollDue.trans hroll', hwire.scan, hwire.hops.trans hhops', hwire.reach.trans hreach',
      fun hf ho => hwire.free (hflight.trans (hfree hf)) (hover'.trans ho), fun hf => hwire.busy (hflight.trans_ne (hbusy hf)),
      fun hno => (by simp [hr.state, hr.kept hno]), fun a ha hw => ?_, ?_, ?_, ?_, ?_, ?_, ?_⟩
    · rw [finishLinks_port, hr.state]
      exact congrArg (fun c => { (received 1 s).port with tags := s.port.tags.put t (.running (.rescan l)), completions := c })
        (orderCompletions_of_le (s := s) le_rfl)
    · obtain ⟨hnone, hmarks, hhandles⟩ := hr.dropped a ha hw
      exact ⟨hwire.assigning.trans hnone, by simp [hr.state, hmarks], by simp [hr.state, hhandles]⟩
    · simp [hr.state]
    · simp [hr.state]
    · simp [hr.state]
    · simp [hr.state]
    · simp [hr.state, hr.records]
    · rw [finishLinks_ctl, hr.state]
      rfl

end Sys2Proof.Machine
end

section
/-! PROOFS. The bytes of link packets and replies (O43). -/

namespace Sys2Proof.Machine

/-! ### The checks bit by bit (R191) -/

/-- One bit taken into a CRC register. -/
def crcFeed {n : Nat} (poly r : BitVec n) (bit : Bool) : BitVec n := if r.msb = bit then r <<< 1 else (r <<< 1) ^^^ poly

theorem bitVec_xor_left_comm {n : Nat} (x y z : BitVec n) : x ^^^ (y ^^^ z) = y ^^^ (x ^^^ z) := by
  rw [← BitVec.xor_assoc, BitVec.xor_comm x y, BitVec.xor_assoc]

/-- A bit step of a register that bits were laid over takes the topmost of them in, and the others move up. -/
theorem crcBit_xor {n : Nat} (poly r x : BitVec n) : crcBit poly (r ^^^ x) = crcFeed poly r x.msb ^^^ (x <<< 1) := by
  unfold crcBit crcFeed
  rw [BitVec.msb_xor, BitVec.shiftLeft_xor_distrib]
  cases r.msb <;> cases x.msb <;> simp [BitVec.xor_comm, bitVec_xor_left_comm]

/-- Eight bit steps take eight bits in. -/
theorem crcByte_xor {n : Nat} (poly r x : BitVec n) : crcByte poly (r ^^^ x)
    = ([0, 1, 2, 3, 4, 5, 6, 7].map (fun i => (x <<< i).msb)).foldl (crcFeed poly) r ^^^ (x <<< 8) := by
  simp only [crcByte, crcBit_xor, List.map_cons, List.map_nil, List.foldl_cons, List.foldl_nil, ← BitVec.shiftLeft_add, BitVec.shiftLeft_zero,
    Nat.reduceAdd]

theorem crc8_snoc (bs : List Byte) (b : Byte) : crc8 (bs ++ [b]) = [7, 6, 5, 4, 3, 2, 1, 0].foldl
    (fun (r : Byte) i => if r.msb = b.getLsbD i then r <<< 1 else (r <<< 1) ^^^ 0x07) (crc8 bs) := by
  have hbits : [0, 1, 2, 3, 4, 5, 6, 7].map (fun i => (b <<< i).msb) = [7, 6, 5, 4, 3, 2, 1, 0].map b.getLsbD := by
    simp [BitVec.msb_eq_getLsbD_last]
  have hgone : b <<< 8 = 0#8 := BitVec.shiftLeft_eq_zero le_rfl
  rw [crc8, List.foldl_append]
  refine (crcByte_xor ..).trans ?_
  rw [hbits, hgone, BitVec.xor_zero, List.foldl_map]
  rfl

theorem crc16_snoc (bs : List Byte) (b : Byte) : crc16 (bs ++ [b]) = [7, 6, 5, 4, 3, 2, 1, 0].foldl
    (fun (r : Half) i => if r.msb = b.getLsbD i then r <<< 1 else (r <<< 1) ^^^ 0x1021) (crc16 bs) := by
  have hbits : [0, 1, 2, 3, 4, 5, 6, 7].map (fun i => ((b ++ 0x00#8) <<< i).msb) = [7, 6, 5, 4, 3, 2, 1, 0].map b.getLsbD := by
    have hbit : ∀ i < 8, ((b ++ 0x00#8) <<< i).msb = b.getLsbD (7 - i) := fun i hi => by
      rw [BitVec.msb_eq_getLsbD_last, BitVec.getLsbD_shiftLeft, BitVec.getLsbD_append]
      simp [show ¬ 15 < i by omega, show ¬ 15 - i < 8 by omega, show 15 - i - 8 = 7 - i by omega]
    simp only [List.map_cons, List.map_nil, hbit, Nat.reduceLT, Nat.reduceSub]
  have hgone : (b ++ 0x00#8) <<< 8 = 0#16 := by
    refine BitVec.eq_of_getLsbD_eq fun i hi => ?_
    simp only [BitVec.getLsbD_shiftLeft, BitVec.getLsbD_append, BitVec.getLsbD_zero]
    by_cases h : i < 8
    · simp [h]
    · simp [h, show i - 8 < 8 by omega]
  rw [crc16, List.foldl_append]
  refine (crcByte_xor ..).trans ?_
  rw [hbits, hgone, BitVec.xor_zero, List.foldl_map]
  rfl

/-! ### Packets (R100, R193) -/

theorem nibble_eq (b : Body) : b.nibble = kindNumber b := by cases b <;> rfl

theorem flagBits_eq (first final : Bool) :
    u8 ((if first then 1 else 0) + (if final then 2 else 0)) = (BitVec.ofBool final ++ BitVec.ofBool first).setWidth 8 := by
  cases first <;> cases final <;> rfl

theorem payload_eq (b : Body) : b.payload = payloadBytes b := by
  cases b with
  | prepare e first final ps => simp [Body.payload, payloadBytes, pairBytes, flagBits_eq]
  | _ => rfl

theorem pairBytes_length (ps : List Pair) : (pairBytes ps).length = 3 * ps.length := by
  induction ps with
  | nil => rfl
  | cons p ps ih =>
    have h : pairBytes (p :: ps) = p.addr :: halfBytes p.value ++ pairBytes ps := rfl
    rw [h, List.length_append, ih]
    simp [halfBytes]
    omega

theorem payload_length_lt {b : Body} (h : ∀ e first final ps, b = .prepare e first final ps → ps.length ≤ 6) : b.payload.length < 256 := by
  cases b with
  | prepare e first final ps =>
    have := h e first final ps rfl
    simp [Body.payload, halfBytes, pairBytes_length]
    omega
  | _ => simp [Body.payload, halfBytes, refBytes]

theorem kindNumber_lt (b : Body) : kindNumber b < 9 := by cases b <;> simp [kindNumber]

/-! ### Replies (R113, R193) -/

/-- The bytes of a reply: header, payload and check. -/
def replyFrame (k c n : Byte) (payload : List Byte) : List Byte := [k, c, n] ++ payload ++ halfBytes (crc16 ([k, c, n] ++ payload))

theorem replyFrame_inj {k c n k' c' n' : Byte} {ps ps' : List Byte} (h : replyFrame k c n ps = replyFrame k' c' n' ps') :
    k = k' ∧ c = c' ∧ n = n' ∧ ps = ps' := by
  have := (List.append_inj' h rfl).1
  simpa using this

theorem ofByte_eq_some {c : Byte} {st : TileStatus} : TileStatus.ofByte c = some st ↔ c.toNat = st.ctorIdx := by
  have hc : ∀ d : Byte, c = d ↔ c.toNat = d.toNat := fun d => BitVec.toNat_inj.symm
  have h0 := hc 0
  have h1 := hc 1
  have h2 := hc 2
  have h3 := hc 3
  simp only [BitVec.ofNat_eq_ofNat, BitVec.toNat_ofNat, Nat.reducePow, Nat.reduceMod] at h0 h1 h2 h3
  unfold TileStatus.ofByte
  simp only [BitVec.ofNat_eq_ofNat, h0, h1, h2, h3]
  cases st <;> simp [TileStatus.ctorIdx] <;> split_ifs <;> simp_all

/-- A reply frame with the header of a kind is judged by its status, payload and sequence number. -/
theorem judgeReply_frame {b : Body} {seq : Nat} {k c n : Byte} {ps : List Byte} (hk : k.toNat / 16 = kindNumber b)
    (hn : n.toNat = ps.length) {st : TileStatus} (hst : c.toNat = st.ctorIdx) {body : ReplyBody} (hb : replyPayload b st ps = some body) :
    judgeReply b seq (replyFrame k c n ps) = if k.toNat % 16 = seq then .good st body else .otherSeq := by
  have hlen : (replyFrame k c n ps).length - 2 = ([k, c, n] ++ ps).length := by simp [replyFrame, halfBytes]
  have hlen5 : ¬ (replyFrame k c n ps).length < 5 := by simp [replyFrame, halfBytes]
  have htake : (replyFrame k c n ps).take ([k, c, n] ++ ps).length = [k, c, n] ++ ps := List.take_left
  have hdrop : (replyFrame k c n ps).drop ([k, c, n] ++ ps).length = halfBytes (crc16 ([k, c, n] ++ ps)) := List.drop_left
  unfold judgeReply
  dsimp only
  rw [hlen, htake, hdrop, if_neg (by simp [hlen5])]
  simp only [List.cons_append, List.nil_append, nibble_eq, hk, hn, and_self, if_true, ofByte_eq_some.mpr hst, hb]

/-- Bytes that are not judged bad are a reply frame with the header of the kind. -/
theorem replyFrame_of_judge {b : Body} {seq : Nat} {bytes : List Byte} (h : judgeReply b seq bytes ≠ .bad) : ∃ k c n ps st body,
    bytes = replyFrame k c n ps ∧ k.toNat / 16 = kindNumber b ∧ n.toNat = ps.length ∧ c.toNat = st.ctorIdx
    ∧ replyPayload b st ps = some body := by
  unfold judgeReply at h
  dsimp only at h
  split at h
  · exact absurd rfl h
  · next hcheck =>
    simp only [not_or, not_lt, ne_eq, not_not] at hcheck
    split at h
    · next k c n ps hcov =>
      split at h
      · next hkn =>
        split at h
        · next st hst =>
          split at h
          · next body hb =>
            refine ⟨k, c, n, ps, st, body, ?_, (nibble_eq b ▸ hkn.1), hkn.2, ofByte_eq_some.mp hst, hb⟩
            rw [replyFrame, ← List.take_append_drop (bytes.length - 2) bytes, hcheck.2, hcov]
            rfl
          · exact absurd rfl h
        · exact absurd rfl h
      · exact absurd rfl h
    · exact absurd rfl h

/-- The entries of a roll call are read back from their bytes. -/
theorem rollEntries_iff {bytes : List Byte} {xs : List RollEntry} : rollEntries bytes = some xs ↔
    (∀ x ∈ xs, x.held.handle < 256 ∧ x.held.gen < 256)
    ∧ bytes = xs.flatMap (fun x => [u8 x.held.handle, u8 x.held.gen] ++ halfBytes x.live) := by
  induction bytes using rollEntries.induct generalizing xs with
  | case1 =>
    cases xs with
    | nil => simp [rollEntries]
    | cons x xs => simp [rollEntries]
  | case2 h g e1 e0 rest ih =>
    cases xs with
    | nil => simp [rollEntries]
    | cons x xs =>
      simp only [rollEntries, Option.map_eq_some_iff, List.cons.injEq, List.flatMap_cons, List.forall_mem_cons]
      constructor
      · rintro ⟨es, hes, rfl, rfl⟩
        obtain ⟨hlt, hrest⟩ := ih.mp hes
        have hh := h.isLt
        have hg := g.isLt
        exact ⟨⟨⟨hh, hg⟩, hlt⟩, by simpa [u8, halfBytes_halfOf] using hrest⟩
      · rintro ⟨⟨⟨hh, hg⟩, hlt⟩, hbytes⟩
        simp only [halfBytes, List.cons_append, List.nil_append, List.cons.injEq] at hbytes
        obtain ⟨rfl, rfl, rfl, rfl, hrest⟩ := hbytes
        refine ⟨xs, ih.mpr ⟨hlt, hrest⟩, ?_, rfl⟩
        rw [u8_toNat_of_lt hh, u8_toNat_of_lt hg, halfOf_bytes]
  | case3 bytes h0 h4 =>
    have hnone : rollEntries bytes = none := by
      unfold rollEntries
      split
      · exact absurd rfl h0
      · exact absurd rfl (h4 _ _ _ _ _)
      · rfl
    rw [hnone]
    constructor
    · rintro ⟨⟩
    · rintro ⟨-, rfl⟩
      cases xs with
      | nil => exact absurd rfl h0
      | cons x xs => exact absurd rfl (h4 _ _ _ _ _)

/-- A 2-byte number is read back from its bytes. -/
theorem halfBytes_iff {ps : List Byte} {h : Half} : ps = halfBytes h ↔ ∃ a b, ps = [a, b] ∧ halfOf a b = h := by
  constructor
  · rintro rfl
    exact ⟨_, _, rfl, halfOf_bytes h⟩
  · rintro ⟨a, b, rfl, rfl⟩
    rw [halfBytes_halfOf]

/-- The payload of an ENUM_QUERY's reply, of an APPLY's or a PARAM_READ's, and of a roll call's, each read back from its bytes. -/
theorem enumPayload_iff {ps : List Byte} {body : ReplyBody} : replyPayload .enumQuery .ok ps = some body ↔ ReplyCarries .enumQuery .ok ps body := by
  unfold ReplyCarries
  dsimp only
  constructor
  · intro h
    unfold replyPayload at h
    split at h
    · next u7 u6 u5 u4 u3 u2 u1 u0 m1 m0 c h g e1 e0 _ _ =>
      cases h
      exact ⟨uidOf u7 u6 u5 u4 u3 u2 u1 u0, halfOf m1 m0, halfOf e1 e0, c, h, g, by simp [uidBytes_uidOf, halfBytes_halfOf], rfl⟩
    all_goals contradiction
  · rintro ⟨u, model, live, cap, h, g, rfl, rfl⟩
    simp [replyPayload, uidBytes, halfBytes, uidOf_bytes, halfOf_bytes]

theorem halfPayload_iff {f : Half → ReplyBody} {g : List Byte → Option ReplyBody} (h0 : g [] = none) (h1 : ∀ a, g [a] = none)
    (h2 : ∀ a b, g [a, b] = some (f (halfOf a b))) (h3 : ∀ a b c xs, g (a :: b :: c :: xs) = none) {ps : List Byte} {body : ReplyBody} :
    g ps = some body ↔ ∃ e, ps = halfBytes e ∧ body = f e := by
  simp only [halfBytes_iff]
  rcases ps with _ | ⟨a, _ | ⟨b, _ | ⟨c, xs⟩⟩⟩
  · simp [h0]
  · simp [h1]
  · simp [h2, eq_comm]
  · simp [h3]

theorem rollPayload_iff {st : TileStatus} {ps : List Byte} {body : ReplyBody} :
    replyPayload .rollCall st ps = some body ↔ ReplyCarries .rollCall st ps body := by
  have hbody : ReplyCarries .rollCall st ps body ↔ ∃ xs : List RollEntry, xs.length ≤ 16
      ∧ (∀ x ∈ xs, x.held.handle < 256 ∧ x.held.gen < 256)
      ∧ ps = u8 xs.length :: xs.flatMap (fun x => [u8 x.held.handle, u8 x.held.gen] ++ halfBytes x.live) ∧ body = .roll xs := by
    cases st <;> rfl
  rw [hbody]
  cases ps with
  | nil => cases st <;> simp [replyPayload]
  | cons count rest =>
    have heq : replyPayload .rollCall st (count :: rest) = (rollEntries rest).bind fun es =>
        if es.length = count.toNat ∧ count.toNat ≤ Config.hopCount then some (.roll es) else none := by
      cases h : rollEntries rest <;> cases st <;> simp [replyPayload, h]
    have hconfig : Config.hopCount = 16 := rfl
    rw [heq, Option.bind_eq_some_iff]
    constructor
    · rintro ⟨es, hes, h⟩
      split at h
      · next hlen =>
        cases h
        obtain ⟨hlt, hrest⟩ := rollEntries_iff.mp hes
        refine ⟨es, by omega, hlt, ?_, rfl⟩
        rw [hlen.1, ← hrest]
        simp [u8]
      · cases h
    · rintro ⟨xs, hlen, hlt, hps, rfl⟩
      obtain ⟨rfl, hrest⟩ := List.cons.inj hps
      have hcount := u8_toNat_of_lt (n := xs.length) (by omega)
      exact ⟨xs, rollEntries_iff.mpr ⟨hlt, hrest⟩, if_pos (by omega)⟩

theorem replyPayload_iff {b : Body} {st : TileStatus} {ps : List Byte} {body : ReplyBody} :
    replyPayload b st ps = some body ↔ ReplyCarries b st ps body := by
  cases b with
  | enumQuery =>
    cases st with
    | ok => exact enumPayload_iff
    | _ => cases ps <;> simp [replyPayload, ReplyCarries, eq_comm]
  | apply e =>
    cases st with
    | ok | badEpoch => exact halfPayload_iff rfl (fun _ => rfl) (fun _ _ => rfl) fun _ _ _ _ => rfl
    | _ => cases ps <;> simp [replyPayload, ReplyCarries, eq_comm]
  | paramRead a =>
    cases st with
    | ok => exact halfPayload_iff rfl (fun _ => rfl) (fun _ _ => rfl) fun _ _ _ _ => rfl
    | _ => cases ps <;> simp [replyPayload, ReplyCarries, eq_comm]
  | rollCall => exact rollPayload_iff
  | _ => cases st <;> cases ps <;> simp [replyPayload, ReplyCarries, eq_comm]

theorem wellFormedReply_iff {b : Body} {seq : Nat} {st : TileStatus} {body : ReplyBody} {bytes : List Byte} :
    WellFormedReply b seq st body bytes ↔ ∃ k c n ps, bytes = replyFrame k c n ps ∧ k.toNat / 16 = kindNumber b ∧ k.toNat % 16 = seq
      ∧ n.toNat = ps.length ∧ c.toNat = st.ctorIdx ∧ replyPayload b st ps = some body := by
  constructor
  · rintro ⟨k, c, n, ps, rfl, hseq, hk, hc, hn, hb⟩
    exact ⟨k, c, n, ps, rfl, by omega, by omega, hn, hc, replyPayload_iff.mpr hb⟩
  · rintro ⟨k, c, n, ps, rfl, hk, hseq, hn, hc, hb⟩
    exact ⟨k, c, n, ps, rfl, by omega, by omega, hc, hn, replyPayload_iff.mp hb⟩

theorem judgeReply_of_wellFormed {b : Body} {seq m : Nat} {st : TileStatus} {body : ReplyBody} {bytes : List Byte}
    (h : WellFormedReply b m st body bytes) : judgeReply b seq bytes = if m = seq then .good st body else .otherSeq := by
  obtain ⟨k, c, n, ps, rfl, hk, rfl, hn, hc, hb⟩ := wellFormedReply_iff.mp h
  exact judgeReply_frame hk hn hc hb

theorem wellFormed_of_judge {b : Body} {seq : Nat} {bytes : List Byte} (h : judgeReply b seq bytes ≠ .bad) :
    ∃ m st body, WellFormedReply b m st body bytes := by
  obtain ⟨k, c, n, ps, st, body, hbytes, hk, hn, hc, hb⟩ := replyFrame_of_judge h
  exact ⟨_, st, body, wellFormedReply_iff.mpr ⟨k, c, n, ps, hbytes, hk, rfl, hn, hc, hb⟩⟩

/-- Settles O43. -/
theorem packetsAndRepliesAreLaidOut : Obligations.PacketsAndRepliesAreLaidOut := by
  unfold Obligations.PacketsAndRepliesAreLaidOut
  refine ⟨⟨rfl, rfl, fun bs b => ⟨crc16_snoc bs b, crc8_snoc bs b⟩⟩, fun t seq hseq hhop hps => ?_, fun b seq bytes _ => ⟨fun st body => ⟨fun h => ?_, fun h => ?_⟩, ⟨fun h => ?_, ?_⟩, ⟨fun h m st body hw => ?_, fun h => ?_⟩⟩⟩
  · have hk := kindNumber_lt t.body
    refine ⟨_, u8 t.dest.hopField, _, ?_, u8_toNat_of_lt (n := 16 * kindNumber t.body + seq) (by omega), ?_, u8_toNat_of_lt (n := (payloadBytes t.body).length) ?_⟩
    · simp only [Txn.packet, payload_eq, nibble_eq]
    · cases hd : t.dest with
      | directed hop => exact u8_toNat_of_lt (n := hop) (by have := hhop hop hd; omega)
      | broadcast => rfl
      | rollCall => rfl
    · rw [← payload_eq]
      exact payload_length_lt hps
  · obtain ⟨m, st', body', hw⟩ := wellFormed_of_judge (seq := seq) (by rw [h]; exact nofun)
    rw [judgeReply_of_wellFormed hw] at h
    split at h
    · next hm =>
      cases h
      exact hm ▸ hw
    · cases h
  · rw [judgeReply_of_wellFormed h, if_pos rfl]
  · obtain ⟨m, st', body', hw⟩ := wellFormed_of_judge (seq := seq) (by rw [h]; exact nofun)
    rw [judgeReply_of_wellFormed hw] at h
    split at h
    · cases h
    · next hm => exact ⟨m, st', body', hm, hw⟩
  · rintro ⟨m, st, body, hm, hw⟩
    rw [judgeReply_of_wellFormed hw, if_neg hm]
  · rw [judgeReply_of_wellFormed hw] at h
    split at h <;> cases h
  · by_contra hne
    obtain ⟨m, st, body, hw⟩ := wellFormed_of_judge hne
    exact h m st body hw

end Sys2Proof.Machine
end

section
/-! PROOFS. Retirement: grace expiry, SET_GRACE and RETIRE (O12 to O14). -/

namespace Sys2Proof.Machine

/-! ### The cascade on the directory (R17) -/

theorem retire_records (h : Nat) (s : State) :
    (retire h s).dir.records = s.dir.records.filter (fun x => x.ref.handle != h) := by
  cases hr : findRec s h with
  | none =>
    rw [HubMid.retire_of_none hr]
    refine (List.filter_eq_self.mpr fun x hx => ?_).symm
    have := List.find?_eq_none.mp hr x hx
    simpa using this
  | some r => rw [HubMid.retire_dir hr]

theorem retireAll_records (hs : List Nat) (s : State) :
    (forEach hs retire s).dir.records = s.dir.records.filter (fun x => !hs.contains x.ref.handle) := by
  unfold forEach
  induction hs generalizing s with
  | nil => simp
  | cons h hs ih =>
    rw [List.foldl_cons, ih, retire_records, List.filter_filter]
    refine List.filter_congr fun x _ => ?_
    rw [Bool.and_comm, List.contains_cons, Bool.not_or]
    rfl

theorem retire_attn {h : Nat} {s : State} {r : Record} (hr : findRec s h = some r) : (retire h s).port.attn
    = (if s.staging.any (Change.namesHandle h) then s.port.attn.raiseDevice .stagingPruned else s.port.attn).retireHandle h r.ref.gen := by
  rw [retire, hr]
  simp only [noticeId_attn, noticeHandle_attn, modPort_port, modDir_port, dropHostWaiting_attn, removeJob_attn]
  split <;> rfl

/-- Retiring leaves the keys, the boundary unit, the controller and the clock alone. -/
theorem retireAll_course (hs : List Nat) (s : State) : courseOf (forEach hs retire s) = courseOf s :=
  (Aside.forEach retire_aside s).course

/-! ### Many retirements (R15, R16) -/

/-- What the retirement of records leaves of the handles, the store, the staging list and the attention set. -/
structure Retired (hs : List Nat) (s s' : State) : Prop where
  freeList : s'.dir.freeList = s.dir.freeList ++ hs
  staleList : s'.dir.staleList = s.dir.staleList.filter (fun h => !hs.contains h)
  marks : s'.dir.marks = s.dir.marks
  store : s'.store = s.store.filter (fun e => !hs.any e.namesHandle)
  staging : s'.staging = s.staging.filter (fun c => !hs.any (fun h => c.namesHandle h))
  gens : ∀ h, 1 ≤ h → h ≤ 80 → genOf s' h = if h ∈ hs then (genOf s h + 1) % 16 else genOf s h
  raised : ∀ h ∈ hs, s'.port.attn.handles[h - 1]? = some ⟨Reason.retired.flag, some (genOf s h)⟩
  unraised : ∀ h, 1 ≤ h → h ∉ hs → s'.port.attn.handles[h - 1]? = s.port.attn.handles[h - 1]?

/-- The handles of the records are in range and of the current generation. -/
structure Numbered (s : State) : Prop where
  gens : s.dir.gens.length = 80
  attention : s.port.attn.handles.length = 80
  records : ∀ r ∈ s.dir.records, 1 ≤ r.ref.handle ∧ r.ref.handle ≤ 80 ∧ r.ref.gen = genOf s r.ref.handle

theorem genOf_set {gs : List Nat} {h k g : Nat} (hl : gs.length = 80) (h1 : 1 ≤ h) (h2 : h ≤ 80) (k1 : 1 ≤ k) :
    (gs.set (h - 1) g).getD (k - 1) 0 = if k = h then g else gs.getD (k - 1) 0 := by
  rw [List.getD_eq_getElem?_getD, List.getD_eq_getElem?_getD, List.getElem?_set]
  by_cases hk : k = h
  · rw [if_pos (by omega), if_pos (by omega), if_pos hk]
    rfl
  · rw [if_neg (by omega), if_neg hk]

/-- One retirement. -/
theorem retire_retired {s : State} (hn : Numbered s) {h : Nat} {r : Record} (hr : findRec s h = some r) : Retired [h] s (retire h s) := by
  obtain ⟨hmem, rfl⟩ := mem_of_findRec hr
  obtain ⟨h1, h2, hgen⟩ := hn.records r hmem
  have hdir := HubMid.retire_dir hr
  obtain ⟨hstore, hstaging⟩ := retire_store hr
  have hattn := retire_attn hr
  have hlen : (if s.staging.any (Change.namesHandle r.ref.handle) then s.port.attn.raiseDevice .stagingPruned
      else s.port.attn).handles = s.port.attn.handles := by
    split <;> rfl
  refine ⟨by rw [hdir], ?_, by rw [hdir], ?_, ?_, fun k k1 _ => ?_, fun k hk => ?_, fun k k1 hk => ?_⟩
  · rw [hdir]
    exact List.filter_congr fun x _ => by rw [bne, List.contains_cons, List.contains_nil, Bool.or_false]
  · rw [hstore]
    exact List.filter_congr fun x _ => by simp
  · rw [hstaging]
    exact List.filter_congr fun x _ => by simp
  · rw [genOf, hdir]
    dsimp only
    rw [genOf_set hn.gens h1 h2 k1, hgen]
    by_cases hk : k = r.ref.handle
    · simp [hk]
    · simp [hk, genOf]
  · rw [List.mem_singleton.mp hk, hattn, ← hgen]
    simp only [AttnSet.retireHandle, List.getElem?_modify, if_true, hlen]
    rw [List.getElem?_eq_getElem (by rw [hn.attention]; omega)]
    rfl
  · have : k ≠ r.ref.handle := by simpa using hk
    rw [hattn]
    simp only [AttnSet.retireHandle, List.getElem?_modify, hlen, show ¬ r.ref.handle - 1 = k - 1 by omega, if_false]
    simp

theorem Retired.cons {h : Nat} {hs : List Nat} {a b c : State} (x : Retired [h] a b) (y : Retired hs b c) (hn : h ∉ hs)
    (hr : ∀ k ∈ h :: hs, 1 ≤ k ∧ k ≤ 80) : Retired (h :: hs) a c := by
  have hgen : ∀ k ∈ hs, genOf b k = genOf a k := fun k hk => by
    obtain ⟨k1, k2⟩ := hr k (List.mem_cons_of_mem _ hk)
    rw [x.gens k k1 k2, if_neg]
    rintro hmem
    exact hn (List.mem_singleton.mp hmem ▸ hk)
  refine ⟨?_, ?_, y.marks.trans x.marks, ?_, ?_, fun k k1 k2 => ?_, fun k hk => ?_, fun k k1 hk => ?_⟩
  · rw [y.freeList, x.freeList, List.append_assoc]
    rfl
  · rw [y.staleList, x.staleList, List.filter_filter]
    exact List.filter_congr fun k _ => by simp [Bool.and_comm]
  · rw [y.store, x.store, List.filter_filter]
    exact List.filter_congr fun k _ => by simp [Bool.and_comm]
  · rw [y.staging, x.staging, List.filter_filter]
    exact List.filter_congr fun k _ => by simp [Bool.and_comm]
  · rw [y.gens k k1 k2, x.gens k k1 k2]
    by_cases h1 : k = h
    · subst h1
      simp [hn]
    · simp [h1]
  · rcases List.mem_cons.mp hk with rfl | hk
    · rw [y.unraised k (hr k (by simp)).1 hn]
      exact x.raised k (by simp)
    · rw [y.raised k hk, hgen k hk]
  · rw [List.mem_cons, not_or] at hk
    rw [y.unraised k k1 hk.2, x.unraised k k1 (by simpa using hk.1)]

/-- A retirement leaves the other records numbered. -/
theorem retire_numbered {s : State} (hn : Numbered s) (h : Nat) : Numbered (retire h s) := by
  cases hr : findRec s h with
  | none => rwa [HubMid.retire_of_none hr]
  | some r =>
    have hdir := HubMid.retire_dir hr
    have hret := retire_retired hn hr
    refine ⟨by rw [hdir]; simpa using hn.gens, ?_, fun x hx => ?_⟩
    · rw [retire_attn hr]
      split <;> simpa [AttnSet.retireHandle, AttnSet.raiseDevice] using hn.attention
    · obtain ⟨h1, h2, hg⟩ := hn.records x (HubMid.retire_records_subset hx)
      rw [retire_records, List.mem_filter] at hx
      exact ⟨h1, h2, by rw [hg, hret.gens _ h1 h2, if_neg (by simpa using hx.2)]⟩

theorem retireAll_retired {hs : List Nat} {s : State} (hn : Numbered s) (hnd : hs.Nodup)
    (hheld : ∀ h ∈ hs, ∃ r ∈ s.dir.records, r.ref.handle = h) : Retired hs s (forEach hs retire s) := by
  unfold forEach
  induction hs generalizing s with
  | nil => exact ⟨by simp, by simp, rfl, by simp, by simp, fun _ _ _ => by simp, fun _ h => by simp at h, fun _ _ _ => rfl⟩
  | cons h hs ih =>
    obtain ⟨hh, hnd⟩ := List.nodup_cons.mp hnd
    obtain ⟨r, hr⟩ : ∃ r, findRec s h = some r := by
      obtain ⟨r, hr, hrh⟩ := hheld h (by simp)
      rw [← Option.isSome_iff_exists, findRec, List.find?_isSome]
      exact ⟨r, hr, by simpa using hrh⟩
    refine (retire_retired hn hr).cons (ih (retire_numbered hn h) hnd fun k hk => ?_) hh fun k hk => ?_
    · obtain ⟨x, hx, hxk⟩ := hheld k (List.mem_cons_of_mem _ hk)
      refine ⟨x, ?_, hxk⟩
      rw [retire_records, List.mem_filter]
      refine ⟨hx, bne_iff_ne.mpr fun he => hh ?_⟩
      rw [← he, hxk]
      exact hk
    · obtain ⟨x, hx, rfl⟩ := hheld k hk
      exact ⟨(hn.records x hx).1, (hn.records x hx).2.1⟩

/-! ### Grace expiry (R14, R15) -/

theorem exec_graceExpiry {s : State} (h : s.phase = .operating) (n : Nat) : exec (.graceExpiry n) s = .next (graceExpiry n s) :=
  congrArg _ (whenOperating_of h _)

/-- The head of the stale list that has expired is the first to be retired. -/
theorem upTo_expired {s : State} {h : Nat} {rest : List Nat} {r : Record} (hl : s.dir.staleList = h :: rest) (hr : findRec s h = some r)
    (hg : graceReached s.now s.dir.grace r = true) : upTo h (expiredHandles s) = [h] := by
  rw [expiredHandles, hl, List.filter_cons, hr]
  dsimp only
  rw [if_pos hg, upTo, if_pos rfl]

/-- Settles O14. -/
theorem graceExpiryRetiresOrDefers : Obligations.GraceExpiryRetiresOrDefers := by
  unfold Obligations.GraceExpiryRetiresOrDefers
  rintro s h r i rest hop hn rfl hi hgrace hl
  have hr : findRec s r.ref.handle = some r := hn.findRec
  have htime : expiryTime s r.ref.handle = some (i.since + s.dir.grace * 100000) := by
    rw [expiryTime, hr]
    dsimp only
    rw [hi]
    exact if_neg hgrace
  rw [exec_graceExpiry hop, graceExpiry, htime]
  dsimp only
  refine ⟨fun hidle => ?_, fun hbusy => congrArg _ (if_neg hbusy)⟩
  rw [if_pos (show (advanceTo (i.since + s.dir.grace * 100000) s).commit.state = .idle from hidle),
    upTo_expired (s := advanceTo (i.since + s.dir.grace * 100000) s) hl hr ?_]
  · have hr' : findRec (advanceTo (i.since + s.dir.grace * 100000) s) r.ref.handle = some r := hr
    have hdir := HubMid.retire_dir hr'
    obtain ⟨hstore, hstaging⟩ := retire_store hr'
    have haside := retire_aside r.ref.handle (advanceTo (i.since + s.dir.grace * 100000) s)
    refine ⟨_, rfl, ?_, ?_, ?_, ?_, ?_, ?_, ?_, ?_, ?_, ?_⟩
    · rw [finishLinks_dir]
      exact congrArg Directory.records hdir
    · rw [finishLinks_dir]
      exact congrArg Directory.freeList hdir
    · rw [finishLinks_dir, ← hl]
      exact congrArg Directory.staleList hdir
    · exact (finishLinks_store ..).trans hstore
    · exact (finishLinks_staging ..).trans hstaging
    · rw [finishLinks_dir]
      exact (congrArg Directory.grace hdir :)
    · exact (finishLinks_keys ..).trans haside.keys
    · exact (finishLinks_boundary ..).trans haside.boundary
    · exact (finishLinks_commit_epoch ..).trans (congrArg CommitCtl.epoch haside.commit)
    · exact (finishLinks_now ..).trans haside.now
  · rw [graceReached, hi]
    exact decide_eq_true ⟨hgrace, le_max_right ..⟩

/-! ### SET_GRACE (R16) -/

theorem exec_setGrace {s : State} {b : Byte} {t : Tag} (h : Accepts s b t) (n : Byte) :
    exec (.setGrace b n) s = .next (setGrace n t (received 1 s)) := congrArg _ (submit_accepts h 1 (setGrace n))

/-- A SET_GRACE taken: the grace period is set and the completion made. -/
def graced (n : Byte) (t : Tag) (s : State) : State :=
  answerOk .setGrace [] t { received 1 s with dir := { s.dir with grace := n.toNat } }

/-- In a hub whose handles are the records' own, the expired handles are those of the records whose grace time has reached the period. -/
theorem mem_expiredHandles {s : State} (hs : StaleListed s) {r : Record} (hr : r ∈ s.dir.records) :
    r.ref.handle ∈ expiredHandles s ↔ graceReached s.now s.dir.grace r = true := by
  have hfind : findRec s r.ref.handle = some r := by
    have hinj := List.inj_on_of_nodup_map (f := fun x : Record => x.ref.handle) (List.pairwise_map.mpr hs.1)
    exact Names.findRec (ref := r.ref) ⟨⟨hr, rfl, fun y hy he => hinj hy hr he⟩, rfl⟩
  rw [expiredHandles, List.mem_filter, hfind]
  refine ⟨fun h => h.2, fun h => ⟨hs.2 r hr fun hnone => ?_, h⟩⟩
  rw [graceReached, hnone] at h
  cases h

/-- The records kept are those whose grace time has not reached the period. -/
theorem expireAll_records {s : State} (hs : StaleListed s) :
    (expireAll s).dir.records = s.dir.records.filter (fun r => !graceReached s.now s.dir.grace r) := by
  rw [expireAll, retireAll_records]
  refine List.filter_congr fun r hr => congrArg _ ?_
  rw [Bool.eq_iff_iff, List.contains_iff_mem, mem_expiredHandles hs hr]

theorem numbered_of_sound {s : State} (hw : WellShaped s) (hd : DirectorySound s) : Numbered s := by
  refine ⟨hw.gens.1, hw.attention, fun r hr => ?_⟩
  have hmem : r.ref.handle ∈ List.range' 1 80 :=
    hd.handles.mem_iff.mp (List.mem_append_right _ (List.mem_map_of_mem hr))
  rw [List.mem_range'_1] at hmem
  exact ⟨hmem.1, by omega, hd.gens.1 r hr⟩

theorem staleList_nodup {s : State} (hd : DirectorySound s) : s.dir.staleList.Nodup := by
  refine hd.stale.nodup_iff.mpr ?_
  refine List.pairwise_map.mpr ((hd.order.imp fun h => Nat.ne_of_lt h).sublist List.filter_sublist)

/-- The expired handles are those of the stale list whose record's grace time has reached the period. -/
theorem expiredHandles_eq {s : State} (hs : StaleListed s) : expiredHandles s = s.dir.staleList.filter (fun h =>
    s.dir.records.any (fun r => r.ref.handle == h && graceReached s.now s.dir.grace r)) := by
  refine List.filter_congr fun h hh => ?_
  cases hr : findRec s h with
  | none =>
    have hno := List.find?_eq_none.mp hr
    refine (List.any_eq_false.mpr fun r hmem => ?_).symm
    simp [hno r hmem]
  | some r =>
    obtain ⟨hmem, rfl⟩ := mem_of_findRec hr
    rw [Bool.eq_iff_iff, List.any_eq_true]
    refine ⟨fun hg => ⟨r, hmem, by simp [hg]⟩, fun ⟨y, hy, hg⟩ => ?_⟩
    rw [Bool.and_eq_true, beq_iff_eq] at hg
    have hinj := List.inj_on_of_nodup_map (f := fun x : Record => x.ref.handle) (List.pairwise_map.mpr hs.1)
    rw [← hinj hy hmem hg.1]
    exact hg.2

theorem expireAll_retired {s : State} (hn : Numbered s) (hs : StaleListed s) (hnd : s.dir.staleList.Nodup) :
    Retired (expiredHandles s) s (expireAll s) := by
  refine retireAll_retired hn (hnd.filter _) fun h hh => ?_
  rw [expiredHandles_eq hs, List.mem_filter, List.any_eq_true] at hh
  obtain ⟨-, r, hr, hg⟩ := hh
  rw [Bool.and_eq_true, beq_iff_eq] at hg
  exact ⟨r, hr, hg.1⟩

theorem setGrace_idle {s : State} (h : s.commit.state = .idle) (n : Byte) (t : Tag) :
    setGrace n t (received 1 s) = finishLinks s.port.completions.length (expireAll (graced n t s)) := if_pos h

/-- Settles O12. -/
theorem setGraceExpiresWhatHasRun : Obligations.SetGraceExpiresWhatHasRun := by
  unfold Obligations.SetGraceExpiresWhatHasRun
  refine fun s b n t hacc => ⟨fun hbusy => ?_, fun hidle hs => ⟨_, (exec_setGrace hacc n).trans (congrArg _ (setGrace_idle hidle n t)), ?_⟩⟩
  · rw [exec_setGrace hacc]
    exact congrArg _ (if_neg hbusy)
  · have haside := expireAll_aside (graced n t s)
    have hsteady : steady (expireAll (graced n t s)) = steady (graced n t s) := forEach_keeps steady fun h s => retire_steady h s
    have hdone : Completed s (graced n t s) ⟨t, .setGrace, .ok, 0, []⟩ := ⟨⟨[_], rfl, List.mem_singleton.mpr rfl⟩, Quad.get_put_self ..⟩
    refine ⟨(hdone.trans haside.ext).finish, ?_, ?_, (finishLinks_keys ..).trans haside.keys, (finishLinks_boundary ..).trans haside.boundary,
      ?_, ?_, (finishLinks_now ..).trans haside.now, ?_, fun hw hsound expired hexp => ?_⟩
    · rw [finishLinks_dir]
      exact (congrArg (fun x => x.2.2.2.2.1) hsteady :)
    · rw [finishLinks_dir]
      exact expireAll_records (s := graced n t s) hs
    · exact (finishLinks_commit_state ..).trans ((congrArg CommitCtl.state haside.commit).trans hidle)
    · exact (finishLinks_commit_epoch ..).trans (congrArg CommitCtl.epoch haside.commit)
    · rw [finishLinks_port]
      exact (congrArg (fun x => x.2.2.2.1.2.2.1) hsteady :)
    · have hn := numbered_of_sound hw hsound.directory
      have hret := expireAll_retired (s := graced n t s) ⟨hn.gens, hn.attention, hn.records⟩ hs
        (show s.dir.staleList.Nodup from staleList_nodup hsound.directory)
      rw [expiredHandles_eq (s := graced n t s) hs] at hret
      have hexp' : (graced n t s).dir.staleList.filter (fun h =>
          (graced n t s).dir.records.any (fun r => r.ref.handle == h && graceReached (graced n t s).now (graced n t s).dir.grace r)) = expired :=
        hexp.symm
      rw [hexp'] at hret
      refine ⟨?_, ?_, ?_, fun h h1 h2 => ?_, fun h hh => ?_, (finishLinks_store ..).trans hret.store,
        (finishLinks_staging ..).trans hret.staging⟩
      · rw [finishLinks_dir]
        exact hret.freeList
      · rw [finishLinks_dir]
        exact hret.staleList
      · rw [finishLinks_dir]
        exact hret.marks
      · rw [genOf, finishLinks_dir]
        exact hret.gens h h1 h2
      · rw [finishLinks_attn]
        exact hret.raised h hh

end Sys2Proof.Machine
end

section
/-! PROOFS. RETIRE (O13). -/

namespace Sys2Proof.Machine

/-! ### What waits on the link and the jobs of a retired record -/

theorem removeJob_jobs (ref : Ref) (s : State) (l : LinkId) :
    (removeJob ref s).jobs.get l = (s.jobs.get l).filter (fun j => j.ref != ref) := by
  have hjobs : (removeJob ref s).jobs = s.jobs.map (fun js => js.filter (fun j => j.ref != ref)) := rfl
  rw [hjobs, Quad.get_map]

theorem dropHostWaiting_jobs (l : LinkId) (ref : Ref) (s : State) : (dropHostWaiting l ref s).jobs = s.jobs := by
  unfold dropHostWaiting
  refine (forEach_keeps State.jobs fun t s => ?_).trans rfl
  unfold endRunning
  split <;> rfl

theorem retire_jobs {h : Nat} {s : State} {r : Record} (hr : findRec s h = some r) :
    ∀ j ∈ allJobs (retire h s), j.ref ≠ r.ref := by
  intro j hj
  obtain ⟨l, hl⟩ := (mem_allJobs _ _).mp hj
  have hjobs : (retire h s).jobs.get l = (s.jobs.get l).filter (fun j => j.ref != r.ref) := by
    rw [retire, hr]
    simp only [noticeId, noticeHandle, modLinks_jobs, modPort_jobs, modDir_jobs, dropHostWaiting_jobs, removeJob_jobs]
    split <;> rfl
  rw [hjobs] at hl
  simpa using (List.mem_filter.mp hl).2

/-- A host transaction that waits for a record completes its request when it is dropped. -/
theorem dropHostWaiting_completed {l : LinkId} {ref : Ref} {s : State} {q : Txn} {n : Tag} {x : Running} (hq : q ∈ (s.links.get l).hostQ)
    (hreq : q.req = .tag n) (ht : s.port.tags.get n = .running x) (hx : x.ref? = some ref) :
    Completed s (dropHostWaiting l ref s) ⟨n, x.kind, .notReachable, 0, x.fields⟩ := by
  unfold dropHostWaiting
  have htag : hostTagFor s ref q = some n := by simp [hostTagFor, hreq, ht, hx]
  have hmem : n ∈ (s.links.get l).hostQ.filterMap (hostTagFor s ref) := List.mem_filterMap.mpr ⟨q, hq, htag⟩
  exact (forEach_endRunning_completed (s := modLink l _ s) hmem ht).rebase rfl

theorem dropFlight_hostQ (test : Txn → Bool) (e : LinkEngine) : (e.dropFlight test).hostQ = e.hostQ := by
  unfold LinkEngine.dropFlight
  split
  · split <;> rfl
  · rfl

theorem removeJob_hostQ (ref : Ref) (s : State) (l : LinkId) : ((removeJob ref s).links.get l).hostQ = (s.links.get l).hostQ := by
  have hlinks : (removeJob ref s).links = s.links.map (LinkEngine.dropJobTxns ref) := rfl
  rw [hlinks, Quad.get_map]
  exact dropFlight_hostQ ..

theorem retire_completed {h : Nat} {s : State} {r : Record} (hr : findRec s h = some r) {q : Txn} {n : Tag} {x : Running}
    (hq : q ∈ (s.links.get r.loc.link).hostQ) (hreq : q.req = .tag n) (ht : s.port.tags.get n = .running x) (hx : x.ref? = some r.ref) :
    Completed s (retire h s) ⟨n, x.kind, .notReachable, 0, x.fields⟩ := by
  have hdrop : ∀ s₁ : State, Aside s s₁ → s₁.port.tags = s.port.tags → (s₁.links.get r.loc.link).hostQ = (s.links.get r.loc.link).hostQ →
      Completed s (dropHostWaiting r.loc.link r.ref (removeJob r.ref s₁)) ⟨n, x.kind, .notReachable, 0, x.fields⟩ := fun s₁ ha hts hqs => by
    refine (ha.ext.trans (removeJob_aside ..).ext).completed (dropHostWaiting_completed ?_ hreq (Eq.trans ?_ ht) hx)
    · rw [removeJob_hostQ, hqs]
      exact hq
    · exact congrArg (fun ts => Quad.get ts n) hts
  have hend : ∀ s₂ : State, Completed s s₂ ⟨n, x.kind, .notReachable, 0, x.fields⟩ → ∀ f : Directory → Directory,
      Completed s (noticeId r.uid (noticeHandle (modPort (fun p => { p with attn := p.attn.retireHandle h r.ref.gen }) (modDir f s₂))))
        ⟨n, x.kind, .notReachable, 0, x.fields⟩ := fun s₂ hc f =>
    hc.trans ((((Aside.modDir f s₂).trans (.retireAttn ..)).trans (noticeHandle_aside _)).trans (noticeId_aside ..)).ext
  rw [retire, hr]
  refine hend _ (hdrop _ ?_ ?_ ?_) _
  · split
    · exact ((Aside.setStore ..).trans (.setStaging ..)).trans (.raiseDevice ..)
    · exact (Aside.setStore ..).trans (.setStaging ..)
  · split <;> rfl
  · split <;> rfl

/-! ### The scan class and the arbiter -/

theorem choose_scanQ {idle : Bool} {e e' : LinkEngine} {t : Txn} (h : choose idle e = some (t, e')) :
    ∀ x ∈ e.scanQ, x ∈ e'.scanQ ∨ x = t := by
  have hlow : e.scanQ = [] → ∀ x ∈ e.scanQ, x ∈ e'.scanQ ∨ x = t := fun hq x hx => by simp [hq] at hx
  unfold choose at h
  split at h
  · split at h
    · cases h
      exact fun x hx => .inl hx
    · split at h
      · next q hq =>
        cases h
        intro x hx
        rw [hq] at hx
        exact (List.mem_cons.mp hx).symm
      · next hq => exact hlow hq
  · split at h
    · next y hfind =>
      cases h
      obtain ⟨hp, before, after, hq, hbefore⟩ := List.find?_eq_some_iff_append.mp hfind
      intro x hx
      have herase : e.scanQ.eraseP Txn.isFullScan = before ++ after := by
        rw [hq, List.eraseP_append_right _ (fun b hb => by simpa using hbefore b hb), List.eraseP_cons_of_pos hp]
      dsimp only
      rw [herase]
      rw [hq, List.mem_append, List.mem_cons] at hx
      rcases hx with hx | rfl | hx
      · exact .inl (List.mem_append_left _ hx)
      · exact .inr rfl
      · exact .inl (List.mem_append_right _ hx)
    · cases h
  · cases h

/-- A waiting transaction of the scan class waits on, or is the one that the arbiter took. -/
theorem arbitrated_scanQ {idle : Bool} {now : Nat} {e : LinkEngine} {x : Txn} (h : x ∈ e.scanQ) : x ∈ (e.arbitrated idle now).scanQ
    ∨ ∃ f, (e.arbitrated idle now).flight = some f ∧ f.txn = x := by
  unfold LinkEngine.arbitrated
  split
  · exact .inl h
  · cases hc : choose idle e with
    | none => exact .inl h
    | some y =>
      rcases choose_scanQ hc x h with hq | rfl
      · exact .inl hq
      · exact .inr ⟨_, rfl, rfl⟩

theorem finishLinks_scanQ {n : Nat} {s : State} {l : LinkId} {x : Txn} (h : x ∈ (s.links.get l).scanQ) :
    x ∈ ((finishLinks n s).links.get l).scanQ ∨ ∃ f, ((finishLinks n s).links.get l).flight = some f ∧ f.txn = x := by
  obtain ⟨ts, hts, -⟩ := finishLinks_link n s l
  rw [hts]
  exact arbitrated_scanQ (List.mem_append_left _ h)

/-! ### RETIRE (R18, R19) -/

theorem setUnlisted_eq (l : LinkId) (hop : Nat) (why : Unlisted) (s : State) : ∃ a, setUnlisted l hop why s = { s with
      links := s.links.modify l (fun e => e.setEntry hop (.unlisted why)), port := { s.port with attn := a } }
    ∧ a.handles = s.port.attn.handles ∧ a.device = s.port.attn.device := by
  unfold setUnlisted
  dsimp only
  split
  · split
    · exact ⟨s.port.attn, rfl, rfl, rfl⟩
    · exact ⟨s.port.attn.raiseLink l .unlistedFound, rfl, rfl, rfl⟩
  · exact ⟨s.port.attn.raiseLink l .unlistedFound, rfl, rfl, rfl⟩

/-- The two further steps on the link of a reachable record (R19). -/
theorem retireHop_eq (loc : Loc) (s : State) : ∃ ls a, retireHop loc s = { s with links := ls, port := { s.port with attn := a } }
    ∧ a.handles = s.port.attn.handles ∧ a.device = s.port.attn.device
    ∧ (ls.get loc.link).hops = (s.links.get loc.link).hops.set loc.hop (.unlisted .retired)
    ∧ clearTxn loc.hop ∈ (ls.get loc.link).scanQ := by
  obtain ⟨a, heq, hh, hd⟩ := setUnlisted_eq loc.link loc.hop .retired s
  unfold retireHop
  rw [heq]
  refine ⟨_, a, rfl, hh, hd, ?_, ?_⟩
  · rw [Quad.get_modify_self, Quad.get_modify_self]
    rfl
  · rw [Quad.get_modify_self]
    simp

/-- A RETIRE that has passed its checks, before the end of its event: what is said of the retirement holds of it. -/
structure RecordRetired (h : Nat) (r : Record) (s x : State) : Prop where
  dir : x.dir = (retire h s).dir
  store : x.store = (retire h s).store
  staging : x.staging = (retire h s).staging
  jobs : x.jobs = (retire h s).jobs
  handles : x.port.attn.handles = (retire h s).port.attn.handles
  device : x.port.attn.device = (retire h s).port.attn.device
  keys : x.keys = s.keys
  boundary : x.boundary = s.boundary
  commit : x.commit = s.commit
  ext : Extends (retire h s) x
  steady : steady x = Machine.steady s
  hop : r.state ≠ .stale → (x.links.get r.loc.link).hops = (s.links.get r.loc.link).hops.set r.loc.hop (.unlisted .retired)
    ∧ clearTxn r.loc.hop ∈ (x.links.get r.loc.link).scanQ

theorem retireRecord_retired {h : Nat} {r : Record} (hh : r.ref.handle = h) (s : State) : RecordRetired h r s (retireRecord r s) := by
  subst hh
  have haside := retire_aside r.ref.handle s
  unfold retireRecord
  dsimp only
  by_cases hr : r.state = .stale
  · rw [if_neg (by simp [Record.reachable, hr])]
    exact ⟨rfl, rfl, rfl, rfl, rfl, rfl, haside.keys, haside.boundary, haside.commit, .refl _, retire_steady .., fun h => absurd hr h⟩
  · have hsteady : Machine.steady (retireHop r.loc (retire r.ref.handle s)) = Machine.steady s := by simp [retireHop]
    obtain ⟨ls, a, heq, hh, hd, hhops, hq⟩ := retireHop_eq r.loc (retire r.ref.handle s)
    rw [if_pos (by simp [Record.reachable, hr])]
    rw [heq] at hsteady ⊢
    exact ⟨rfl, rfl, rfl, rfl, hh, hd, haside.keys, haside.boundary, haside.commit, .of_eq rfl rfl, hsteady, fun _ =>
      ⟨hhops.trans (congrArg (fun hs => List.set hs _ _) (calm_hops (retire_calm ..) _)), hq⟩⟩

theorem retireRequest_accepted {s : State} {ref : Ref} {r : Record} (hn : Names s ref r) {f : Byte} (hf : f = 1 ∨ (f = 0 ∧ r.state = .stale))
    (hheld : heldByCommit s r = false) (t : Tag) : retireRequest ref f t s
      = finishLinks s.port.completions.length (answerOk .retire (refBytes r.ref) t (retireRecord r s)) := by
  rw [retireRequest, flagOf_of_le (by rcases hf with rfl | ⟨rfl, -⟩ <;> decide)]
  dsimp only
  rw [hn.checkRef]
  dsimp only
  rw [if_neg, if_neg (by simp [hheld])]
  rcases hf with rfl | ⟨rfl, hst⟩
  · simp
  · simp [Record.reachable, hst]

theorem heldByCommit_eq_false {s : State} {r : Record} (h : s.commit.state = .idle
    ∨ ((∀ c ∈ s.staging, c.namesHandle r.ref.handle = false) ∧ ∀ p ∈ s.commit.participants, p.ref ≠ r.ref)) : heldByCommit s r = false := by
  unfold heldByCommit
  rcases h with h | ⟨hs, hp⟩
  · simp [h]
  · have h1 : s.staging.any (Change.namesHandle r.ref.handle) = false := List.any_eq_false.mpr fun c hc => by simp [hs c hc]
    have h2 : s.commit.participants.any (fun p => p.ref == r.ref) = false := List.any_eq_false.mpr fun p hp' => by simp [hp p hp']
    simp [h1, h2]

theorem heldByCommit_eq_true {s : State} {r : Record} (h : s.commit.state ≠ .idle)
    (hx : (∃ c ∈ s.staging, c.namesHandle r.ref.handle = true) ∨ ∃ p ∈ s.commit.participants, p.ref = r.ref) : heldByCommit s r = true := by
  unfold heldByCommit
  rcases hx with ⟨c, hc, hn⟩ | ⟨p, hp, hpr⟩
  · have h1 : s.staging.any (Change.namesHandle r.ref.handle) = true := List.any_eq_true.mpr ⟨c, hc, hn⟩
    simp [h, h1]
  · have h2 : s.commit.participants.any (fun p => p.ref == r.ref) = true := List.any_eq_true.mpr ⟨p, hp, by simp [hpr]⟩
    simp [h, h2]

/-- Settles O13. -/
theorem retireRunsTheCascadeOrIsRefused : Obligations.RetireRunsTheCascadeOrIsRefused := by
  unfold Obligations.RetireRunsTheCascadeOrIsRefused
  refine ⟨fun s b h g f t r hacc hn h1 h2 hgens hattn hf hheld => ?_, fun s b h g t r hacc => ⟨fun f hf => ?_, fun hn => ⟨fun hr => ?_,
    fun f hf hbusy hx => ?_⟩⟩⟩
  · have href : r.ref = ⟨h.toNat, g.toNat⟩ := hn.ref_eq
    have hhandle : r.ref.handle = h.toNat := by rw [href]
    have hgen : r.ref.gen = g.toNat := by rw [href]
    have hfind : findRec (received 3 s) h.toNat = some r := hn.findRec
    obtain ⟨hstore, hstaging⟩ := retire_store hfind
    have hdir := HubMid.retire_dir hfind
    have hjobs := retire_jobs hfind
    have hat := retire_attn hfind
    have hrec := retireRecord_retired hhandle (received 3 s)
    have hreq := retireRequest_accepted (s := received 3 s) (ref := refOf ⟨h, g⟩) (r := r) hn hf
      (heldByCommit_eq_false (s := received 3 s) (by rw [hhandle]; exact hheld)) t
    refine ⟨_, (exec_retire hacc ⟨h, g⟩ f).trans (congrArg _ hreq), ?_, ?_, ?_, ?_, ?_, ?_, ?_, fun hr hhop hlen => ?_, fun n x q hq hqt hx hxr => ?_,
      ?_, ?_, ?_, ?_, ?_⟩
    · have hdone : Completed (retireRecord r (received 3 s)) (answerOk .retire (refBytes r.ref) t (retireRecord r (received 3 s)))
          ⟨t, .retire, .ok, 0, [h, g]⟩ := by
        have : refBytes r.ref = [h, g] := by rw [href]; exact refBytes_refOf h g
        rw [this]
        exact complete_completed ..
      exact (((retire_aside h.toNat (received 3 s)).ext.trans hrec.ext).completed hdone).finish.rebase rfl
    · exact (finishLinks_store ..).trans (hrec.store.trans hstore)
    · exact (finishLinks_staging ..).trans (hrec.staging.trans hstaging)
    · rw [finishLinks_dir]
      refine (hrec.dir.trans hdir).trans ?_
      rw [hgen]
      rfl
    · refine finishLinks_jobs (P := fun j => j.ref ≠ r.ref) (fun _ hj => hj) (fun s j hj => ?_) _ fun j hj => hjobs j ?_
      · rw [Job.prepared_ref]
        exact hj
      · obtain ⟨l, hl⟩ := (mem_allJobs _ _).mp hj
        exact (mem_allJobs _ _).mpr ⟨l, (congrArg (fun js => Quad.get js l) hrec.jobs) ▸ hl⟩
    · rw [finishLinks_attn]
      refine (congrArg (fun es => es[h.toNat - 1]?) (hrec.handles.trans (congrArg AttnSet.handles hat))).trans ?_
      have hlen : h.toNat - 1 < s.port.attn.handles.length := by omega
      have hsome : s.port.attn.handles[h.toNat - 1]? = some s.port.attn.handles[h.toNat - 1] := List.getElem?_eq_getElem hlen
      rw [hgen]
      split <;> simp [AttnSet.retireHandle, AttnSet.raiseDevice, hsome]
    · rw [finishLinks_attn]
      refine (hrec.device.trans (congrArg AttnSet.device hat)).trans ?_
      have hany : (received 3 s).staging.any (Change.namesHandle h.toNat) = true ↔ ∃ c ∈ s.staging, c.namesHandle h.toNat = true :=
        List.any_eq_true
      simp only [hany]
      split <;> rfl
    · obtain ⟨hhops, hq⟩ := hrec.hop hr
      refine ⟨?_, finishLinks_scanQ hq⟩
      rw [finishLinks_link_hops]
      refine (congrArg (fun hs => hs[r.loc.hop]?) hhops).trans ?_
      rw [List.getElem?_set_self]
      exact hlen ▸ hhop
    · have hc := retire_completed (s := received 3 s) hfind hq hqt hx hxr
      exact ((hc.trans hrec.ext).trans (complete_extends ..)).finish.rebase rfl
    · exact (finishLinks_keys ..).trans hrec.keys
    · exact (finishLinks_boundary ..).trans hrec.boundary
    · exact (finishLinks_commit_state ..).trans (congrArg CommitCtl.state hrec.commit)
    · exact (finishLinks_commit_epoch ..).trans (congrArg CommitCtl.epoch hrec.commit)
    · rw [finishLinks_steady, answerOk_steady]
      exact hrec.steady
  · rw [exec_retire hacc, retireRequest]
    have hflag : flagOf f = none := by
      unfold flagOf
      rw [if_neg (by rintro rfl; revert hf; decide), if_neg (by rintro rfl; revert hf; decide)]
    rw [hflag]
    rfl
  · rw [exec_retire hacc, retireRequest, flagOf_of_le (by decide)]
    dsimp only
    rw [checkRef_received, hn.checkRef (ref := refOf ⟨h, g⟩)]
    dsimp only
    rw [if_pos (by simp [Record.reachable, hr])]
    rfl
  · have hhandle : r.ref.handle = h.toNat := by rw [hn.ref_eq]
    rw [exec_retire hacc, retireRequest, flagOf_of_le (by rcases hf with rfl | ⟨rfl, -⟩ <;> decide)]
    dsimp only
    rw [checkRef_received, hn.checkRef (ref := refOf ⟨h, g⟩)]
    dsimp only
    rw [if_neg, if_pos (heldByCommit_eq_true (s := received 3 s) hbusy (by rw [hhandle]; exact hx))]
    · rfl
    · rcases hf with rfl | ⟨rfl, hst⟩
      · simp
      · simp [Record.reachable, hst]

end Sys2Proof.Machine
end

section
/-! PROOFS. Attempts and broadcasts on the wire, and the roll call that falls due (O42). -/

namespace Sys2Proof.Machine

/-! ### Events at one link -/

/-- A hub with another clock and another engine at one link. -/
def withLink (l : LinkId) (now : Nat) (e : LinkEngine) (s : State) : State := { s with now := now, links := s.links.put l e }

@[simp] theorem withLink_link (l : LinkId) (now : Nat) (e : LinkEngine) (s : State) : (withLink l now e s).links.get l = e :=
  Quad.get_put_self ..

theorem modLink_withLink (l : LinkId) (f : LinkEngine → LinkEngine) (now : Nat) (e : LinkEngine) (s : State) :
    modLink l f (withLink l now e s) = withLink l now (f e) s := by
  refine congrArg (fun ls => { s with now := now, links := ls }) (Quad.ext_get fun i => ?_)
  rw [withLink, Quad.get_modify, Quad.get_put, Quad.get_put]
  split <;> simp_all

theorem modLink_eq_withLink (l : LinkId) (f : LinkEngine → LinkEngine) (s : State) :
    modLink l f s = withLink l s.now (f (s.links.get l)) s := rfl

/-- The tests of the controller call for nothing after a change of one link that ends no CANCEL. -/
theorem Rests.withLink {s : State} (h : Rests s) {l : LinkId} (now : Nat) {e : LinkEngine}
    (hc : (s.links.get l).cancelOutstanding = true → e.cancelOutstanding = true) : Rests (withLink l now e s) := by
  rcases h with h | h | h | h | ⟨h, k, hk⟩
  · exact .inl h
  · exact .inr (.inl h)
  · exact .inr (.inr (.inl h))
  · exact .inr (.inr (.inr (.inl h)))
  · refine .inr (.inr (.inr (.inr ⟨h, k, ?_⟩)))
    rw [Machine.withLink, Quad.get_put]
    split
    · next hkl => exact hc (hkl ▸ hk)
    · exact hk

theorem cancelOutstanding_of {e e' : LinkEngine} (hq : e'.commitQ = e.commitQ) (hf : e'.flight.map Flight.txn = e.flight.map Flight.txn) :
    e'.cancelOutstanding = e.cancelOutstanding := by
  unfold LinkEngine.cancelOutstanding
  rw [hq]
  cases h : e.flight <;> cases h' : e'.flight <;> simp [h, h'] at hf ⊢
  rw [hf]

/-- A port whose list has no new completion is the same at the end of the event. -/
theorem finishLinks_port_of_le {n : Nat} {s : State} (h : s.port.completions.length ≤ n) : (finishLinks n s).port = s.port := by
  rw [finishLinks_port, orderCompletions_of_le h]

theorem finishLinks_expired (n : Nat) (s : State) (l : LinkId) :
    ((finishLinks n s).links.get l).expired = (s.links.get l).expired := by
  have h := congrArg (fun x => (Quad.get x.2.2.2.2.2.2 l).2) (finishLinks_steady n s)
  simpa [steady] using h

theorem not_late_of_none {s : State} {l : LinkId} (h : (s.links.get l).expired = none) (bytes : List Byte) : ¬ Late s l bytes := by
  rintro ⟨x, st, body, hx, -⟩
  rw [h] at hx
  cases hx

theorem exec_broadcastSent {s : State} (h : s.phase = .operating) (l : LinkId) : exec (.broadcastSent l) s = .next (broadcastSent l s) :=
  congrArg _ (whenOperating_of h _)

theorem exec_rollCallDue {s : State} (h : s.phase = .operating) (l : LinkId) : exec (.rollCallDue l) s = .next (rollCallDue l s) :=
  congrArg _ (whenOperating_of h _)

theorem exec_replyTimeout {s : State} (h : s.phase = .operating) (l : LinkId) : exec (.replyTimeout l) s = .next (replyTimeout l s) :=
  congrArg _ (whenOperating_of h _)

theorem exec_linkReply {s : State} (h : s.phase = .operating) (l : LinkId) (bytes : List Byte) :
    exec (.linkReply l bytes) s = .next (linkReply l bytes s) := congrArg _ (whenOperating_of h _)

/-! ### The next attempt (R114) -/

/-- A link engine whose transaction in flight has started its next attempt. -/
def LinkEngine.retried (now : Nat) (f : Flight) (e : LinkEngine) : LinkEngine := { e with
  flight := some { f with attempt := f.attempt + 1, phase := .onWire, expires := now + e.timing.timeout }
  sent := f.txn.packet f.seq }

theorem retryAttempt_withLink (l : LinkId) (f : Flight) (now : Nat) (e : LinkEngine) (s : State) :
    retryAttempt l f (withLink l now e s) = withLink l now (e.retried now f) s := modLink_withLink ..

/-- The end of the event in which the next attempt has started: the wire is not handed out. -/
theorem finishLinks_retried (n : Nat) (l : LinkId) (f : Flight) (now : Nat) (e : LinkEngine) (s : State) :
    ((finishLinks n (withLink l now (e.retried now f) s)).links.get l).flight
        = some { f with attempt := f.attempt + 1, phase := .onWire, expires := now + e.timing.timeout }
      ∧ ((finishLinks n (withLink l now (e.retried now f) s)).links.get l).sent = f.txn.packet f.seq
      ∧ ((finishLinks n (withLink l now (e.retried now f) s)).links.get l).overtaking = e.overtaking := by
  obtain ⟨ts, hts, -⟩ := finishLinks_link n (withLink l now (e.retried now f) s) l
  rw [withLink_link] at hts
  rw [hts, arbitrated_of_flight (f := { f with attempt := f.attempt + 1, phase := .onWire, expires := now + e.timing.timeout }) rfl]
  exact ⟨rfl, rfl, rfl⟩

/-! ### BROADCAST_SENT (R111, R122) -/

/-- A link engine whose wire has become free, and the reply of whose last attempt may still come or not. -/
def LinkEngine.freed (x : Option Expiry) (e : LinkEngine) : LinkEngine := { e with expired := x, flight := none }

theorem broadcastSent_overtaking {s : State} {l : LinkId} {g f : Flight} (hg : (s.links.get l).overtaking = some g)
    (hf : (s.links.get l).flight = some f) : broadcastSent l s = finishEvent s.port.completions.length
      (withLink l s.now (LinkEngine.retried s.now f { s.links.get l with expired := none, overtaking := none }) s) := by
  have hsends : sendsBroadcast s l = true := by simp [sendsBroadcast, hg]
  have hforget : forgetExpiry l s = withLink l s.now { s.links.get l with expired := none } s := rfl
  rw [broadcastSent, if_pos hsends, broadcastDone, hforget, withLink_link]
  dsimp only
  rw [hg, hf]
  dsimp only
  rw [modLink_withLink, retryAttempt_withLink]

theorem broadcastSent_flight {s : State} {l : LinkId} {f : Flight} (hg : (s.links.get l).overtaking = none)
    (hf : (s.links.get l).flight = some f) (hb : f.txn.dest = .broadcast) : broadcastSent l s = finishEvent s.port.completions.length
      (withLink l s.now ((s.links.get l).freed none) s) := by
  have hsends : sendsBroadcast s l = true := by simp [sendsBroadcast, hg, hf, Txn.isBroadcast, hb]
  have hforget : forgetExpiry l s = withLink l s.now { s.links.get l with expired := none } s := rfl
  have hfree : freeWire l (forgetExpiry l s) = withLink l s.now ((s.links.get l).freed none) s := by
    rw [hforget, freeWire, modLink_withLink]
    rfl
  have hover : ((forgetExpiry l s).links.get l).overtaking = none := by
    rw [hforget, withLink_link]
    exact hg
  rw [broadcastSent, if_pos hsends, broadcastDone, hover, ← hfree]

/-- A freed wire whose tests call for nothing: the end of the event. -/
theorem finishEvent_freed {s : State} {l : LinkId} (hr : Rests (freed s l)) (now : Nat) (x : Option Expiry) (n : Nat) :
    finishEvent n (withLink l now ((s.links.get l).freed x) s)
      = finishLinks n (withLink l now ((s.links.get l).freed x) s) := by
  refine finishEvent_rests ?_ n
  have h := hr.withLink (l := l) now (e := (s.links.get l).freed x) (fun hc => by
    rw [freed, Quad.get_put_self] at hc
    exact hc)
  have heq : withLink l now ((s.links.get l).freed x) (freed s l)
      = withLink l now ((s.links.get l).freed x) s := by
    refine congrArg (fun ls => { s with now := now, links := ls }) (Quad.ext_get fun i => ?_)
    rw [freed, Quad.get_put, Quad.get_put, Quad.get_put]
    split <;> rfl
  rwa [heq] at h

theorem arbitrated_chosen {idle : Bool} {now : Nat} {e e' : LinkEngine} {t : Txn} (hf : e.flight = none) (ho : e.overtaking = none)
    (hc : choose idle e = some (t, e')) : e.arbitrated idle now = e'.handed now t := by
  unfold LinkEngine.arbitrated
  rw [if_neg (by simp [hf, ho]), hc]
  rfl

theorem arbitrated_none {idle : Bool} {now : Nat} {e : LinkEngine} (hf : e.flight = none) (hc : choose idle e = none) :
    (e.arbitrated idle now).flight = none := by
  unfold LinkEngine.arbitrated
  split
  · exact hf
  · rw [hc]
    exact hf

theorem choose_commit {idle : Bool} {e : LinkEngine} {t : Txn} {q : List Txn} (hs : e.state = .running) (hq : e.commitQ = t :: q) :
    choose idle e = some (t, { e with commitQ := q }) := by simp only [choose, hs, hq]

theorem choose_scanHead {idle : Bool} {e : LinkEngine} {t : Txn} {q : List Txn} (hs : e.state = .running) (hc : e.commitQ = [])
    (hq : e.scanQ = t :: q) : choose idle e = some (t, { e with scanQ := q }) := by simp only [choose, hs, hc, hq]

theorem choose_low {idle : Bool} {e : LinkEngine} (hs : e.state = .running) (hc : e.commitQ = []) (hq : e.scanQ = []) :
    choose idle e = chooseLow idle e := by simp only [choose, hs, hc, hq]

/-! ### ROLL_CALL_DUE (R121) -/

theorem rollCallDue_falls {s : State} {l : LinkId} (hs : (s.links.get l).state = .running) (hd : (s.links.get l).rollDue = false)
    (hm : (s.links.get l).rollMet = false) : rollCallDue l s = arbitrate l (withLink l (max s.now (s.links.get l).rollMoment)
      { s.links.get l with rollDue := true, rollMet := true } s) := by
  rw [rollCallDue, if_pos (by simp [LinkEngine.awaitsRoll, hs, hd, hm])]
  rfl

theorem rollCallDue_not {s : State} {l : LinkId} (h : (s.links.get l).state ≠ .running ∨ (s.links.get l).rollDue = true
    ∨ (s.links.get l).rollMet = true) : rollCallDue l s = s := by
  refine if_neg ?_
  rcases h with h | h | h <;> simp [LinkEngine.awaitsRoll, h]

/-- Settles O42. -/
theorem broadcastEndsAndRollCallFallsDue : Obligations.BroadcastEndsAndRollCallFallsDue := by
  unfold Obligations.BroadcastEndsAndRollCallFallsDue
  refine fun s l hop => ⟨fun ho hf => ?_, fun g f hg hf hr => ?_, fun f x rest hg hf hb hs hq hr => ?_, fun h => ?_,
    fun m hs hd hm hmom => ⟨fun hf => ?_, fun hf ho hc hsq hh hcq => ?_⟩⟩
  · rw [exec_broadcastSent hop]
    refine congrArg _ (if_neg ?_)
    cases hfl : (s.links.get l).flight with
    | none => simp [sendsBroadcast, ho, hfl]
    | some f => simp [sendsBroadcast, ho, hfl, Txn.isBroadcast, hf f hfl]
  · have hkeep : (s.links.get l).cancelOutstanding
        = (LinkEngine.retried s.now f { s.links.get l with expired := none, overtaking := none }).cancelOutstanding := by
      refine (cancelOutstanding_of (e := s.links.get l)
        (e' := LinkEngine.retried s.now f { s.links.get l with expired := none, overtaking := none }) rfl ?_).symm
      rw [hf]
      rfl
    have hrest := hr.withLink s.now (fun h => hkeep ▸ h)
    obtain ⟨hfl, hsent, hover⟩ := finishLinks_retried s.port.completions.length l f s.now
      { s.links.get l with expired := none, overtaking := none } s
    refine ⟨_, (exec_broadcastSent hop l).trans (congrArg _ (broadcastSent_overtaking hg hf)), ?_⟩
    rw [finishEvent_rests hrest]
    refine ⟨⟨hfl.trans ?_, hsent⟩, hover, not_late_of_none ?_, finishLinks_now .., finishLinks_dir .., finishLinks_port_of_le le_rfl⟩
    · rw [finishLinks_now]
      rfl
    · rw [finishLinks_expired, withLink_link]
      rfl
  · obtain ⟨ts, hts, -⟩ := finishLinks_link s.port.completions.length
      (withLink l s.now ((s.links.get l).freed none) s) l
    rw [withLink_link] at hts
    have hgo := hts.trans (arbitrated_chosen (e := (((s.links.get l).freed none).queueCaused).queueCatch ts) rfl hg (choose_commit hs hq))
    refine ⟨_, _, (exec_broadcastSent hop l).trans (congrArg _ ((broadcastSent_flight hg hf hb).trans (finishEvent_freed hr ..))),
      not_late_of_none ?_, congrArg LinkEngine.flight hgo, rfl, rfl, congrArg LinkEngine.commitQ hgo, finishLinks_dir ..,
      finishLinks_port_of_le le_rfl⟩
    rw [finishLinks_expired, withLink_link]
    rfl
  · rw [exec_rollCallDue hop, rollCallDue_not h]
  · obtain ⟨f, hf'⟩ := Option.ne_none_iff_exists'.mp hf
    rw [exec_rollCallDue hop, rollCallDue_falls hs hd hm, hmom]
    refine congrArg _ ((if_pos (.inl ?_)).trans rfl)
    rw [withLink_link, hf']
    rfl
  · rw [exec_rollCallDue hop, rollCallDue_falls hs hd hm, ← show (s.links.get l).rollMoment = m from hmom.symm]
    have hchoose : choose (decide ((withLink l (max s.now (s.links.get l).rollMoment) { s.links.get l with rollDue := true, rollMet := true }
        s).commit.state = .idle)) { s.links.get l with rollDue := true, rollMet := true }
        = some (rollTxn .periodic .engine, { s.links.get l with rollDue := true, rollMet := true }) := by
      rw [choose_low (e := { s.links.get l with rollDue := true, rollMet := true }) hs hc hsq]
      simp only [chooseLow, hh, hcq, if_true]
    rw [← withLink_link l (max s.now (s.links.get l).rollMoment) { s.links.get l with rollDue := true, rollMet := true } s] at hchoose
    refine ⟨LinkEngine.handed (max s.now (s.links.get l).rollMoment) (rollTxn .periodic .engine)
      { s.links.get l with rollDue := true, rollMet := true }, _, congrArg _ ((arbitrate_chosen ?_ ?_ hchoose ?_).trans ?_), rfl, rfl, rfl,
      rfl, rfl, rfl, rfl⟩
    · rw [withLink_link]
      exact hf
    · rw [withLink_link]
      exact ho
    · rintro ref ⟨⟩
    · rw [withLink_link]
      refine congrArg (fun ls => { s with now := max s.now (s.links.get l).rollMoment, links := ls }) (Quad.ext_get fun i => ?_)
      rw [withLink, Quad.get_put, Quad.get_put, Quad.get_put]
      split <;> rfl

end Sys2Proof.Machine
end

section
/-! PROOFS. To which transaction a free wire goes (O44). -/

namespace Sys2Proof.Machine

/-! ### The start of a transaction (R112 to R114) -/

/-- A transaction has started on the wire of a link that was in another engine's form. -/
structure Starts (e : LinkEngine) (now : Nat) (e' : LinkEngine) (t : Txn) (g : Flight) : Prop where
  flight : e'.flight = some g
  txn : g.txn = t
  attempt : g.attempt = 1
  phase : g.phase = .onWire
  allowed : g.allowed = if t.dest = .broadcast then 1 else e.timing.retries + 1
  expires : g.expires = now + e.timing.timeout
  seq : g.seq = (e.seqCounter + 1) % 16 ∨ g.seq = ((e.seqCounter + 1) % 16 + 1) % 16
  next : g.seq = (e.seqCounter + 1) % 16 ↔ ∀ h, t.dest = .directed h → e.lastSeq.getD h none ≠ some ((e.seqCounter + 1) % 16)
  counter : e'.seqCounter = g.seq
  sent : e'.sent = t.packet g.seq
  kept : ∀ h, t.dest = .directed h → e'.lastSeq = e.lastSeq.set h (some g.seq)
  unkept : (∀ h, t.dest ≠ .directed h) → e'.lastSeq = e.lastSeq

/-- The next sequence number, or the one after it when the hop was given the next one last (R112). -/
theorem nextSeq_iff (e : LinkEngine) (d : Dest) : (e.nextSeq d = (e.seqCounter + 1) % 16 ∨ e.nextSeq d = ((e.seqCounter + 1) % 16 + 1) % 16)
    ∧ (e.nextSeq d = (e.seqCounter + 1) % 16 ↔ ∀ h, d = .directed h → e.lastSeq.getD h none ≠ some ((e.seqCounter + 1) % 16)) := by
  have hplain : ∀ d, (∀ h, d ≠ .directed h) → e.nextSeq d = (e.seqCounter + 1) % 16 := fun d hd => by
    unfold LinkEngine.nextSeq
    split
    · exact absurd rfl (hd _)
    · rfl
  cases d with
  | directed h =>
    have hseq : e.nextSeq (.directed h) = if e.lastSeq.getD h none = some ((e.seqCounter + 1) % 16) then ((e.seqCounter + 1) % 16 + 1) % 16
      else (e.seqCounter + 1) % 16 := rfl
    rw [hseq]
    split
    · next hl => exact ⟨.inr rfl, fun he => by omega, fun hall => absurd hl (hall h rfl)⟩
    · next hl =>
      refine ⟨.inl rfl, fun _ k hk => ?_, fun _ => rfl⟩
      cases hk
      exact hl
  | broadcast =>
    have := hplain .broadcast (by rintro h ⟨⟩)
    exact ⟨.inl this, fun _ => by rintro h ⟨⟩, fun _ => this⟩
  | rollCall =>
    have := hplain .rollCall (by rintro h ⟨⟩)
    exact ⟨.inl this, fun _ => by rintro h ⟨⟩, fun _ => this⟩

theorem handed_starts {e x : LinkEngine} (hc : x.seqCounter = e.seqCounter) (hl : x.lastSeq = e.lastSeq) (ht : x.timing = e.timing) (now : Nat)
    (t : Txn) : Starts e now (x.handed now t) t (x.newFlight now t) := by
  have hseq := nextSeq_iff x t.dest
  rw [hc, hl] at hseq
  refine ⟨rfl, rfl, rfl, rfl, ?_, by rw [← ht]; rfl, hseq.1, hseq.2, rfl, rfl, fun h hd => ?_, fun hd => ?_⟩
  · have hallowed : (x.newFlight now t).allowed = if t.dest == .broadcast then 1 else x.timing.retries + 1 := rfl
    rw [hallowed, ht]
    simp
  · have hlast : (x.handed now t).lastSeq = (match t.dest with
      | .directed h => x.lastSeq.set h (some (x.newFlight now t).seq)
      | _ => x.lastSeq) := rfl
    rw [hlast, hd, hl]
  · have hlast : (x.handed now t).lastSeq = (match t.dest with
      | .directed h => x.lastSeq.set h (some (x.newFlight now t).seq)
      | _ => x.lastSeq) := rfl
    rw [hlast]
    split
    · next h heq => exact absurd heq (hd h)
    · exact hl

/-- With no job in PREPARING the turns bring nothing into the catch-up class. -/
theorem finishLinks_link_unprepared (n : Nat) {s : State} {l : LinkId} (hj : ∀ j ∈ s.jobs.get l, j.phase ≠ .preparing)
    (hc : (s.links.get l).caused = []) : (finishLinks n s).links.get l = (s.links.get l).arbitrated (s.commit.state = .idle) s.now := by
  obtain ⟨ts, hts, -, -, hreq⟩ := finishLinks_link n s l
  have hnil : ts = [] := List.eq_nil_iff_forall_not_mem.mpr fun t ht => by
    obtain ⟨j, hm, hp, -⟩ := hreq t ht
    exact hj j hm hp
  rw [hts, hnil, LinkEngine.queueCatch_nil, LinkEngine.queueCaused_nil hc]

/-! ### A broadcast APPLY that overtakes (R122) -/

/-- The reply timer expires with attempts left, and a broadcast at the head of the commit class takes the wire. -/
theorem replyTimeout_overtakes {s : State} {l : LinkId} {f : Flight} {t : Txn} {rest : List Txn} (hw : waitingFlight s l = some f)
    (hatt : f.attempt < f.allowed) (hs : (s.links.get l).state = .running) (hq : (s.links.get l).commitQ = t :: rest)
    (hd : t.dest = .broadcast) : replyTimeout l s
      = finishEvent s.port.completions.length (overtake l f t rest (timerExpired l f (advanceTo f.expires s))) := by
  have hlink : (timerExpired l f (advanceTo f.expires s)).links.get l
      = { s.links.get l with expired := some ⟨(advanceTo f.expires s).now, f.txn.body, f.seq⟩ } := Quad.get_modify_self ..
  have hmatch : attemptFailed l f (timerExpired l f (advanceTo f.expires s)) = overtake l f t rest (timerExpired l f (advanceTo f.expires s)) := by
    rw [attemptFailed, if_pos hatt, hlink]
    dsimp only
    rw [hs, hq]
    exact if_pos (by simp [Txn.isBroadcast, hd])
  rw [replyTimeout, hw]
  exact congrArg (finishEvent s.port.completions.length) hmatch

/-- A link engine on which a broadcast has taken the wire between two attempts of a transaction. -/
def LinkEngine.overtaken (now : Nat) (f : Flight) (t : Txn) (rest : List Txn) (e : LinkEngine) : LinkEngine :=
  let g := e.newFlight now t
  { e.started now g with
    expired := some ⟨now, f.txn.body, f.seq⟩, commitQ := rest, overtaking := some g, flight := some { f with phase := .between } }

theorem choose_fullScan {idle : Bool} {e : LinkEngine} {t : Txn} (hs : e.state = .scanning) (hf : e.scanQ.find? Txn.isFullScan = some t) :
    choose idle e = some (t, { e with scanQ := e.scanQ.eraseP Txn.isFullScan }) := by simp only [choose, hs, hf]

/-! ### The host class and the catch-up class (R119, R120) -/

section

variable {idle : Prop} [Decidable idle] {e : LinkEngine} {t x : Txn} {q xs : List Txn}

theorem chooseLow_host (hh : e.hostQ = t :: q) (hc : e.catchQ = [] ∨ ¬ idle) :
    chooseLow (decide idle) e = some (t, { e with hostQ := q, hostRun := 0 }) := by
  rcases hc with hc | hc
  · simp only [chooseLow, hh, hc]
  · rw [decide_eq_false hc]
    cases hx : e.catchQ with
    | nil => simp only [chooseLow, hh, hx]
    | cons x xs => simp [chooseLow, hh, hx]

theorem chooseLow_hostTurn (hh : e.hostQ = t :: q) (hx : e.catchQ = x :: xs) (hi : idle) (hrun : e.hostRun < 4) :
    chooseLow (decide idle) e = some (t, { e with hostQ := q, hostRun := e.hostRun + 1 }) := by
  rw [decide_eq_true hi]
  simp only [chooseLow, hh, hx, if_true]
  exact if_neg (Nat.not_le.mpr hrun)

theorem chooseLow_catchTurn (hh : e.hostQ = t :: q) (hx : e.catchQ = x :: xs) (hi : idle) (hrun : 4 ≤ e.hostRun) :
    chooseLow (decide idle) e = some (x, { e with catchQ := xs, hostRun := 0 }) := by
  rw [decide_eq_true hi]
  simp only [chooseLow, hh, hx, if_true]
  exact if_pos hrun

theorem chooseLow_catch (hh : e.hostQ = []) (hx : e.catchQ = x :: xs) (hi : idle) :
    chooseLow (decide idle) e = some (x, { e with catchQ := xs, hostRun := 0 }) := by
  rw [decide_eq_true hi]
  simp only [chooseLow, hh, hx, if_true]

/-- With the host class empty and no catch-up transaction to take: a due roll call. -/
theorem chooseLow_last (hh : e.hostQ = []) (hc : e.catchQ = [] ∨ ¬ idle) :
    chooseLow (decide idle) e = if e.rollDue = true then some (rollTxn .periodic .engine, e) else none := by
  rcases hc with hc | hc
  · simp only [chooseLow, hh, hc]
  · rw [decide_eq_false hc]
    cases hx : e.catchQ with
    | nil => simp only [chooseLow, hh, hx]
    | cons x xs => simp [chooseLow, hh, hx]

end

/-- Settles O44. -/
theorem theWireGoesByClassOrder : Obligations.TheWireGoesByClassOrder := by
  unfold Obligations.TheWireGoesByClassOrder
  intro s l hop e idle
  refine ⟨fun f hg hf hb hcaused hr hjobs => ?_, fun f t rest hw hatt hs hq hd hst hp => ?_⟩
  · have hend := finishLinks_link_unprepared s.port.completions.length
      (s := withLink l s.now ((s.links.get l).freed none) s) (l := l) hjobs (by rw [withLink_link]; exact hcaused)
    rw [withLink_link] at hend
    refine ⟨_, (exec_broadcastSent hop l).trans (congrArg _ ((broadcastSent_flight hg hf hb).trans (finishEvent_freed hr ..))),
      finishLinks_dir .., finishLinks_port_of_le le_rfl, finishLinks_now .., ?_⟩
    intro e' starts
    have hgo : ∀ (t : Txn) (x : LinkEngine), choose (decide (s.commit.state = .idle)) (e.freed none) = some (t, x) →
        x.seqCounter = e.seqCounter → x.lastSeq = e.lastSeq → x.timing = e.timing → starts t ∧ e' = x.handed s.now t :=
        fun t x hch hc hl ht => by
      have he' : e' = x.handed s.now t := hend.trans (arbitrated_chosen rfl hg hch)
      have hst := handed_starts hc hl ht s.now t
      rw [← he'] at hst
      exact ⟨⟨_, hst.flight, hst.txn, hst.attempt, hst.phase, hst.allowed, hst.expires, hst.seq, hst.next, hst.counter, hst.sent, hst.kept,
        hst.unkept⟩, he'⟩
    refine ⟨fun hs => ⟨fun t q hq => ?_, fun hc t q hq => ?_, fun hc hq => ⟨fun t q hh => ⟨fun hcat => ?_, fun x xs hx hi => ⟨fun hrun => ?_,
      fun hrun => ?_⟩⟩, fun hh => ⟨fun x xs hx hi => ?_, fun hcat => ⟨fun hroll => ?_, fun hroll => ?_⟩⟩⟩⟩,
      fun hs => ⟨fun before t after hq ht hbefore => ?_, fun hnone => ?_⟩⟩
    · obtain ⟨hst, he⟩ := hgo t _ (choose_commit hs hq) rfl rfl rfl
      exact ⟨hst, congrArg LinkEngine.commitQ he⟩
    · obtain ⟨hst, he⟩ := hgo t _ (choose_scanHead hs hc hq) rfl rfl rfl
      refine ⟨hst, congrArg LinkEngine.scanQ he, fun hbody => ⟨(congrArg LinkEngine.rollDue he).trans (if_pos hbody), fun hlate => ?_⟩⟩
      refine (congrArg LinkEngine.rollMet he).trans ?_
      have hmoment : ((e.freed none).rollMet || (t.body == .rollCall && decide (e.rollMoment < s.now))) = true := by
        rw [hbody, decide_eq_true (show e.rollMoment < s.now from hlate)]
        simp
      exact hmoment
    · obtain ⟨hst, he⟩ := hgo t _ ((choose_low (e := e.freed none) hs hc hq).trans (chooseLow_host (e := e.freed none) hh hcat)) rfl rfl rfl
      exact ⟨hst, congrArg LinkEngine.hostQ he, congrArg LinkEngine.hostRun he⟩
    · obtain ⟨hst, he⟩ := hgo t _ ((choose_low (e := e.freed none) hs hc hq).trans (chooseLow_hostTurn (e := e.freed none) hh hx hi hrun))
        rfl rfl rfl
      exact ⟨hst, congrArg LinkEngine.hostQ he, (congrArg LinkEngine.catchQ he :), congrArg LinkEngine.hostRun he⟩
    · obtain ⟨hst, he⟩ := hgo x _ ((choose_low (e := e.freed none) hs hc hq).trans (chooseLow_catchTurn (e := e.freed none) hh hx hi hrun))
        rfl rfl rfl
      exact ⟨hst, congrArg LinkEngine.catchQ he, (congrArg LinkEngine.hostQ he :), congrArg LinkEngine.hostRun he⟩
    · obtain ⟨hst, he⟩ := hgo x _ ((choose_low (e := e.freed none) hs hc hq).trans (chooseLow_catch (e := e.freed none) hh hx hi)) rfl rfl rfl
      exact ⟨hst, congrArg LinkEngine.catchQ he, congrArg LinkEngine.hostRun he⟩
    · have hch := (choose_low (idle := decide (s.commit.state = .idle)) (e := e.freed none) hs hc hq).trans
        (chooseLow_last (e := e.freed none) hh hcat)
      rw [if_pos (show (e.freed none).rollDue = true from hroll)] at hch
      obtain ⟨hst, he⟩ := hgo _ _ hch rfl rfl rfl
      exact ⟨hst, (congrArg LinkEngine.rollDue he).trans rfl⟩
    · have hch := (choose_low (idle := decide (s.commit.state = .idle)) (e := e.freed none) hs hc hq).trans
        (chooseLow_last (e := e.freed none) hh hcat)
      rw [show (e.freed none).rollDue = false from hroll] at hch
      exact (congrArg LinkEngine.flight hend).trans (arbitrated_none rfl hch)
    · have hfull : ∀ x : Txn, x.isFullScan = true ↔ x.req = .scanStep true := fun x => beq_iff_eq
      have hfind : e.scanQ.find? Txn.isFullScan = some t := by
        rw [List.find?_eq_some_iff_append]
        refine ⟨(hfull t).mpr ht, before, after, hq, fun x hx => ?_⟩
        simpa [Txn.isFullScan] using hbefore x hx
      have herase : e.scanQ.eraseP Txn.isFullScan = before ++ after := by
        rw [hq, List.eraseP_append_right _ (fun x hx => by simpa [Txn.isFullScan] using hbefore x hx), List.eraseP_cons_of_pos ((hfull t).mpr ht)]
      have hch : choose (decide (s.commit.state = .idle)) (e.freed none) = some (t, { e.freed none with scanQ := before ++ after }) := by
        rw [← herase]
        exact choose_fullScan (e := e.freed none) hs hfind
      obtain ⟨hst, he⟩ := hgo t _ hch rfl rfl rfl
      exact ⟨hst, congrArg LinkEngine.scanQ he⟩
    · have hfind : (e.freed none).scanQ.find? Txn.isFullScan = none :=
        List.find?_eq_none.mpr fun x hx => by simpa [Txn.isFullScan] using hnone x hx
      have hch : choose (decide (s.commit.state = .idle)) (e.freed none) = none := by
        have hs' : (e.freed none).state = .scanning := hs
        rw [choose, hs', hfind]
      exact (congrArg LinkEngine.flight hend).trans (arbitrated_none rfl hch)
  · obtain ⟨hf, -, -⟩ := HubMid.waitingFlight_some hw
    have hover : overtake l f t rest (timerExpired l f (advanceTo f.expires s)) = withLink l (max s.now f.expires)
        (e.overtaken (max s.now f.expires) f t rest) s :=
      modLink_withLink l _ (max s.now f.expires) { e with expired := some ⟨max s.now f.expires, f.txn.body, f.seq⟩ } s
    have hrest : Rests (withLink l (max s.now f.expires) (e.overtaken (max s.now f.expires) f t rest) s) :=
      .inr (.inr (.inr (.inl ⟨hst, hp⟩)))
    obtain ⟨ts, hts, -⟩ := finishLinks_link s.port.completions.length
      (withLink l (max s.now f.expires) (e.overtaken (max s.now f.expires) f t rest) s) l
    rw [withLink_link] at hts
    have hgo := hts.trans (arbitrated_of_flight (f := { f with phase := .between }) rfl)
    refine ⟨_, _, (exec_replyTimeout hop l).trans (congrArg _ ((replyTimeout_overtakes hw hatt hs hq hd).trans
      ((congrArg (finishEvent s.port.completions.length) hover).trans (finishEvent_rests hrest _)))), finishLinks_now ..,
      congrArg LinkEngine.overtaking hgo, rfl, rfl, congrArg LinkEngine.flight hgo, congrArg LinkEngine.commitQ hgo, ?_, congrArg LinkEngine.sent hgo,
      finishLinks_dir .., finishLinks_port_of_le le_rfl⟩
    exact (nextSeq_iff e t.dest).2.mpr fun h hh => by
      rw [hd] at hh
      cases hh

end Sys2Proof.Machine
end

section
/-! PROOFS. Replies that are discarded, that end an attempt, or that end a tile access (O39). -/

namespace Sys2Proof.Machine

/-! ### Late replies (R113; log 48) -/

theorem linkReply_late {s : State} {l : LinkId} {f : Flight} (hw : waitingFlight s l = some f) {bytes : List Byte} (h : Late s l bytes) :
    linkReply l bytes s = unexpired s l := by
  simp only [linkReply, hw, (lateReply_iff s l bytes).mpr h, if_true]
  rfl

section

variable {s : State} {l : LinkId} {f : Flight} {bytes : List Byte} (hw : waitingFlight s l = some f) (hn : ¬ Late s l bytes)

include hw hn

theorem linkReply_otherSeq (hj : judgeReply f.txn.body f.seq bytes = .otherSeq) : linkReply l bytes s = s := by
  have hl : lateReply s l bytes = false := Bool.eq_false_iff.mpr fun h => hn ((lateReply_iff ..).mp h)
  simp [linkReply, hw, hl, hj]

theorem linkReply_bad (hj : judgeReply f.txn.body f.seq bytes = .bad) :
    linkReply l bytes s = finishEvent s.port.completions.length (attemptFailed l f (forgetExpiry l s)) := by
  have hl : lateReply s l bytes = false := Bool.eq_false_iff.mpr fun h => hn ((lateReply_iff ..).mp h)
  simp [linkReply, hw, hl, hj]

theorem linkReply_good {st : TileStatus} {body : ReplyBody} (hj : judgeReply f.txn.body f.seq bytes = .good st body) :
    linkReply l bytes s = finishEvent s.port.completions.length (endReplied l f.txn st body s) := by
  have hl : lateReply s l bytes = false := Bool.eq_false_iff.mpr fun h => hn ((lateReply_iff ..).mp h)
  simp [linkReply, hw, hl, hj]

end

/-! ### Attempts that fail with attempts left (R114) -/

theorem attemptFailed_retries {l : LinkId} {f : Flight} (hatt : f.attempt < f.allowed) (now : Nat) {e : LinkEngine}
    (hq : ∀ x rest, e.commitQ = x :: rest → x.dest ≠ .broadcast) (s : State) :
    attemptFailed l f (withLink l now e s) = withLink l now (e.retried now f) s := by
  have hretry := retryAttempt_withLink l f now e s
  rw [attemptFailed, if_pos hatt, withLink_link, hretry]
  split
  · next t rest _ hc => exact if_neg (by simpa [Txn.isBroadcast] using hq t rest hc)
  · rfl

/-- The next attempt has started and the event has ended. -/
theorem finishEvent_retried {s : State} {l : LinkId} {f : Flight} (hf : (s.links.get l).flight = some f) (hr : Rests s) (now : Nat)
    (x : Option Expiry) : ∃ s', finishEvent s.port.completions.length
        (withLink l now (LinkEngine.retried now f { s.links.get l with expired := x }) s) = s'
      ∧ Retried s s' l f ∧ s'.now = now ∧ s'.port = s.port ∧ s'.dir = s.dir ∧ (s'.links.get l).expired = x ∧ s'.phase = s.phase := by
  have hrest : Rests (withLink l now (LinkEngine.retried now f { s.links.get l with expired := x }) s) := by
    refine hr.withLink now fun h => ?_
    rw [cancelOutstanding_of (e := s.links.get l) (e' := LinkEngine.retried now f { s.links.get l with expired := x }) rfl]
    · exact h
    · rw [hf]
      rfl
  obtain ⟨hfl, hsent, -⟩ := finishLinks_retried s.port.completions.length l f now { s.links.get l with expired := x } s
  refine ⟨_, finishEvent_rests hrest _, ⟨hfl.trans ?_, hsent⟩, finishLinks_now .., finishLinks_port_of_le le_rfl, finishLinks_dir .., ?_,
    finishLinks_phase ..⟩
  · rw [finishLinks_now]
    rfl
  · rw [finishLinks_expired, withLink_link]
    rfl

/-! ### The end of a tile access with a reply (R115, R169) -/

theorem hopRecord_listed {s : State} {l : LinkId} {hop : Nat} {r : Record} (h : ListedAt s l hop r) : hopRecord s l hop = some r := by
  obtain ⟨hentry, hn, hst⟩ := h
  rw [hopRecord, hentry]
  dsimp only
  rw [hn.findRef]
  simp [Record.reachable, hst]

theorem ListedAt.of_eq {s x : State} {l : LinkId} {hop : Nat} {r : Record} (h : ListedAt s l hop r) (hd : x.dir.records = s.dir.records)
    (hh : (x.links.get l).hops = (s.links.get l).hops) : ListedAt x l hop r := by
  obtain ⟨hentry, hn, hst⟩ := h
  refine ⟨?_, hn.of_dir hd, hst⟩
  rw [LinkEngine.entry, hh]
  exact hentry

/-- The mark of a completion whose record is reachable at its place. -/
theorem recordMark_reachable {s : State} {l : LinkId} {hop : Nat} {x : Running} {ref : Ref} {r : Record} (hx : x.ref? = some ref)
    (hn : Names s ref r) (hst : r.state ≠ .stale) (hl : r.loc = ⟨l, hop⟩) : recordMark s l hop x = 0 := by
  rw [recordMark, hx]
  dsimp only
  rw [hn.findRef]
  exact if_pos ⟨by simp [Record.reachable, hst], hl⟩

/-- The miss count of the record listed at a hop is set. -/
theorem setMiss_listed {s : State} {l : LinkId} {hop : Nat} {r : Record} (h : ListedAt s l hop r) (n : Nat) :
    setMiss l hop n s = updRec r.ref.handle (fun x => { x with miss := n }) s := by
  rw [setMiss, hopRecord_listed h]

theorem endReplied_tag {l : LinkId} {t : Txn} {hop : Nat} {n : Tag} (hd : t.dest = .directed hop) (hreq : t.req = .tag n)
    (hc : t.body.countsMisses = true) (st : TileStatus) (reply : ReplyBody) (s : State) :
    endReplied l t st reply s = hostReplied l hop n st reply (setMiss l hop 0 (freeWire l s)) := by
  simp only [endReplied, hd, hc, if_true, requesterReplied, hreq]

/-- The completion of a tile access that a reply ends (R169). -/
def hostCompletion (t : Tag) (x : Running) (mark : Byte) (st : TileStatus) (reply : ReplyBody) : Completion :=
  match st, reply with
  | .ok, .value v => ⟨t, x.kind, .ok, 0, halfBytes v ++ x.fields ++ [mark]⟩
  | .ok, _ => ⟨t, x.kind, .ok, 0, x.fields ++ [mark]⟩
  | _, _ => ⟨t, x.kind, .tileRefused, st.code, x.fields ++ [mark]⟩

theorem hostReplied_completes {l : LinkId} {hop : Nat} {t : Tag} {x : Running} {s : State} (h : s.port.tags.get t = .running x)
    (st : TileStatus) (reply : ReplyBody) : ∃ p, hostReplied l hop t st reply s = { s with port := p }
      ∧ Completed s (hostReplied l hop t st reply s) (hostCompletion t x (recordMark s l hop x) st reply) := by
  rw [hostReplied, h]
  dsimp only
  unfold hostCompletion
  cases st with
  | ok => cases reply <;> exact ⟨_, rfl, complete_completed ..⟩
  | _ => exact ⟨_, rfl, complete_completed ..⟩

/-- Settles O39. -/
theorem replyEndsTheAttemptOrTheAccess : Obligations.ReplyEndsTheAttemptOrTheAccess := by
  unfold Obligations.ReplyEndsTheAttemptOrTheAccess
  intro s l bytes hop
  rw [exec_linkReply hop]
  refine ⟨fun hw => ?_, fun hw hlate => ?_, fun f hw hn => ⟨fun hj => ?_, fun hj hatt hr hq _ => ?_,
    fun h t x st body r hj hd hreq hc ht hx hlist hloc hr => ?_⟩⟩
  · rw [linkReply, hw]
  · obtain ⟨f, hf⟩ := Option.ne_none_iff_exists'.mp hw
    rw [linkReply_late hf hlate]
  · rw [linkReply_otherSeq hw hn hj]
  · obtain ⟨s', hs', hret, hnow, hport, hdir, -⟩ := finishEvent_retried (HubMid.waitingFlight_some hw).1 hr s.now none
    refine ⟨s', congrArg _ ?_, hret, hnow, hport, hdir⟩
    rw [linkReply_bad hw hn hj, ← hs']
    exact congrArg _ (attemptFailed_retries hatt s.now (e := { s.links.get l with expired := none }) hq s)
  · have hlist' : ListedAt (freeWire l s) l h r := hlist.of_eq rfl (by rw [freeWire, modLink_links, Quad.get_modify_self])
    have hmid := setMiss_listed hlist' 0
    have hmark : recordMark (setMiss l h 0 (freeWire l s)) l h x = 0 := by
      rw [hmid]
      have hnamed := hlist'.2.1.updRec r.ref.handle (f := fun x => { x with miss := 0 }) fun _ => rfl
      rw [if_pos rfl] at hnamed
      exact recordMark_reachable hx hnamed hlist.2.2 hloc
    obtain ⟨p, hp, hdone⟩ := hostReplied_completes (l := l) (hop := h) (s := setMiss l h 0 (freeWire l s)) (x := x) (t := t)
      (by rw [hmid]; exact ht) st body
    rw [hmark] at hdone
    have heq : linkReply l bytes s = finishEvent s.port.completions.length (hostReplied l h t st body (setMiss l h 0 (freeWire l s))) := by
      rw [linkReply_good hw hn hj, endReplied_tag hd hreq hc]
    rw [heq, hp]
    rw [hp, hmid] at hdone
    rw [hmid]
    have hrest : Rests { updRec r.ref.handle (fun x => { x with miss := 0 }) (freeWire l s) with port := p } := hr
    rw [finishEvent_rests hrest]
    have hend := Completed.finish (s := s) (hdone.rebase rfl)
    refine ⟨_, rfl, ?_, ?_, fun hst => ?_, ?_, ?_, finishLinks_keys .., finishLinks_store .., finishLinks_staging .., finishLinks_boundary ..⟩
    · rintro v rfl rfl
      exact hend
    · rintro rfl hv
      cases body with
      | value v => exact absurd rfl (hv v)
      | _ => exact hend
    · cases st with
      | ok => exact absurd rfl hst
      | _ => exact hend
    · rw [finishLinks_dir]
      rfl
    · rw [finishLinks_ctl]
      rfl

end Sys2Proof.Machine
end

section
/-! PROOFS. What a running commit meets when records of its participants are claimed STALE (R73, R76, R81, R88, R89). -/

namespace Sys2Proof.Machine

/-! ### One participant lost -/

/-- The loss of a participant of a status is met in a commit state (R73, R76, R81). -/
def failsIn (c : CommitState) (st : PartStatus) : Prop :=
  (c = .preparing ∧ (st = .unprepared ∨ st = .prepared)) ∨ (c = .armed ∧ st = .prepared) ∨ (c = .applying ∧ st = .unconfirmed)

/-- The hub with the waiting commit transactions of a participant removed. -/
def withoutTraffic (ref : Ref) (p : Participant) (x : State) : State :=
  modLink p.loc.link (LinkEngine.dropCommit (fun t => t.req == .participant ref)) x

theorem participantLost_none {ref : Ref} {x : State} (h : findPart x ref = none) : participantLost ref x = x := by
  rw [participantLost, h]

section

variable {ref : Ref} {x : State} {p : Participant} (hp : findPart x ref = some p)

include hp

theorem findPart_ref : p.ref = ref := by simpa using List.find?_some hp

theorem participantLost_passes (hf : ¬ failsIn x.commit.state p.status) : participantLost ref x = withoutTraffic ref p x := by
  unfold participantLost
  rw [hp]
  dsimp only
  unfold failsIn at hf
  push Not at hf
  obtain ⟨h1, h2, h3⟩ := hf
  split
  · next h => exact if_neg fun hs => hs.elim (h1 h).1 (h1 h).2
  · next h => exact if_neg (h2 h)
  · next h => exact if_neg (h3 h)
  · rfl
  · rfl

theorem participantLost_cancels (hf : failsIn x.commit.state p.status) (hpol : x.commit.policy = some .strict) (ha : x.commit.state ≠ .applying) :
    participantLost ref x = enterCancelling (if x.commit.state = .preparing then .prepareFailed ref else .participantLost)
      (withoutTraffic ref p x) := by
  have href := findPart_ref hp
  unfold participantLost
  rw [hp]
  dsimp only
  rcases hf with ⟨hs, hf⟩ | ⟨hs, hf⟩ | ⟨hs, -⟩
  · have hs' : (modLink p.loc.link (LinkEngine.dropCommit (fun t => t.req == .participant ref)) x).commit.state = .preparing := hs
    rw [hs', if_pos hs]
    dsimp only
    rw [if_pos hf, failParticipant, href]
    exact if_pos hpol
  · have hs' : (modLink p.loc.link (LinkEngine.dropCommit (fun t => t.req == .participant ref)) x).commit.state = .armed := hs
    have hreason : (if x.commit.state = .preparing then CancelReason.prepareFailed ref else .participantLost) = .participantLost :=
      if_neg (by rw [hs]; decide)
    rw [hs', hreason]
    dsimp only
    rw [if_pos hf]
    exact if_pos hpol
  · exact absurd hs ha

theorem participantLost_excludes (hst : partReachable x p = false) (hf : failsIn x.commit.state p.status)
    (hpol : x.commit.policy ≠ some .strict ∨ x.commit.state = .applying) :
    ∃ ls, participantLost ref x = { setStatus ref .excluded x with links := ls } := by
  have href := findPart_ref hp
  unfold participantLost
  rw [hp]
  dsimp only
  rcases hf with ⟨hs, hf⟩ | ⟨hs, hf⟩ | ⟨hs, hf⟩
  · have hs' : (modLink p.loc.link (LinkEngine.dropCommit (fun t => t.req == .participant ref)) x).commit.state = .preparing := hs
    have hns : ¬ (modLink p.loc.link (LinkEngine.dropCommit (fun t => t.req == .participant ref)) x).commit.policy = some .strict :=
      hpol.resolve_right (by rw [hs]; decide)
    rw [hs']
    dsimp only
    rw [if_pos hf, failParticipant, if_neg hns, exclude]
    dsimp only
    rw [if_neg, href]
    · exact ⟨_, rfl⟩
    · have : partReachable (setStatus p.ref .excluded (dropPrepares p
        (modLink p.loc.link (LinkEngine.dropCommit (fun t => t.req == .participant ref)) x))) p = partReachable x p := rfl
      rw [this, hst]
      decide
  · have hs' : (modLink p.loc.link (LinkEngine.dropCommit (fun t => t.req == .participant ref)) x).commit.state = .armed := hs
    have hns : ¬ (modLink p.loc.link (LinkEngine.dropCommit (fun t => t.req == .participant ref)) x).commit.policy = some .strict :=
      hpol.resolve_right (by rw [hs]; decide)
    rw [hs']
    dsimp only
    rw [if_pos hf, if_neg hns]
    exact ⟨_, rfl⟩
  · have hs' : (modLink p.loc.link (LinkEngine.dropCommit (fun t => t.req == .participant ref)) x).commit.state = .applying := hs
    rw [hs']
    dsimp only
    rw [if_pos hf]
    exact ⟨_, rfl⟩

end

/-- The loss of a participant whose record is not reachable changes the controller and the commit classes. -/
theorem participantLost_eq {ref : Ref} {x : State} (hst : ∀ p, p.ref = ref → partReachable x p = false) :
    ∃ c ls, participantLost ref x = { x with commit := c, links := ls } := by
  cases hp : findPart x ref with
  | none => exact ⟨x.commit, x.links, participantLost_none hp⟩
  | some p =>
    by_cases hf : failsIn x.commit.state p.status
    · by_cases hpol : x.commit.policy ≠ some .strict ∨ x.commit.state = .applying
      · obtain ⟨ls, heq⟩ := participantLost_excludes hp (hst p (findPart_ref hp)) hf hpol
        exact ⟨_, ls, heq⟩
      · push Not at hpol
        obtain ⟨c, ls, heq, -⟩ := enterCancelling_eq (if x.commit.state = .preparing then .prepareFailed ref else .participantLost)
          (withoutTraffic ref p x)
        exact ⟨c, ls, (participantLost_cancels hp hf hpol.1 hpol.2).trans heq⟩
    · exact ⟨x.commit, _, participantLost_passes hp hf⟩

/-! ### The course of a commit whose participants are lost -/

/-- A participant that still counts: its loss is met. -/
abbrev Participant.counts (p : Participant) : Prop := p.status = .unprepared ∨ p.status = .prepared ∨ p.status = .unconfirmed

/-- The first of the references lost that is of a participant that counts. -/
def firstLost (s : State) (refs : List Ref) : Option Ref :=
  refs.find? fun ref => s.commit.participants.any fun p => p.ref == ref && decide p.counts

/-- The reason for which the controller cancels when the references are lost, if it does (R73, R76). -/
def lossReason (s : State) (refs : List Ref) : Option CancelReason :=
  if s.commit.policy = some .strict ∧ s.commit.state = .preparing then (firstLost s refs).map .prepareFailed
  else if s.commit.policy = some .strict ∧ s.commit.state = .armed then (firstLost s refs).map fun _ => .participantLost
  else none

/-- The statuses with the participants lost that count EXCLUDED. -/
def lossStatuses (s : State) (refs : List Ref) : List (Ref × PartStatus) :=
  s.commit.participants.map fun p => (p.ref, if p.ref ∈ refs ∧ p.counts then .excluded else p.status)

/-- The controller has gone on without the participants lost. -/
structure GoneOn (s : State) (refs : List Ref) (x : State) : Prop where
  apart : x.commit.apart = s.commit.apart
  statuses : statusesOf x = lossStatuses s refs
  untouched : firstLost s refs = none → x.commit = s.commit

/-- The controller has gone to CANCELLING, and no PREPARE waits. -/
structure Cancelled (s : State) (reason : CancelReason) (x : State) : Prop where
  apart : x.commit.apart = { s.commit with state := .cancelling, reason := some reason, prepareDl := none, armDl := none, participants := [] }
  queues : ∀ l, ∀ t ∈ (x.links.get l).commitQ, t.isPrepare = false

/-- Between the start of an event and a state in it the commit has met the loss of the records of the references, in their order, and
nothing else. -/
structure Met (s : State) (now : Nat) (refs : List Ref) (x : State) : Prop where
  now : x.now = now
  ext : Extends s x
  course : (lossReason s refs).elim (GoneOn s refs x) fun reason => Cancelled s reason x

theorem firstLost_append (s : State) (refs : List Ref) (ref : Ref) : firstLost s (refs ++ [ref]) = (firstLost s refs).or (firstLost s [ref]) :=
  List.find?_append

theorem lossReason_append_of_some {s : State} {refs : List Ref} {reason : CancelReason} (h : lossReason s refs = some reason) (ref : Ref) :
    lossReason s (refs ++ [ref]) = some reason := by
  unfold lossReason at h ⊢
  rw [firstLost_append]
  cases hf : firstLost s refs with
  | none => simp [hf] at h
  | some r => simpa [hf] using h

theorem lossReason_append_of_none {s : State} {refs : List Ref} (h : lossReason s refs = none) (ref : Ref) :
    lossReason s (refs ++ [ref]) = lossReason s [ref] := by
  unfold lossReason at h ⊢
  rw [firstLost_append]
  split
  · next hp =>
    rw [if_pos hp] at h
    simp [Option.map_eq_none_iff.mp h]
  · next hp =>
    rw [if_neg hp] at h
    split
    · next ha =>
      rw [if_pos ha] at h
      simp [Option.map_eq_none_iff.mp h]
    · rfl

theorem firstLost_single (s : State) (ref : Ref) :
    firstLost s [ref] = if ∃ p ∈ s.commit.participants, p.ref = ref ∧ p.counts then some ref else none := by
  have h : (s.commit.participants.any fun p => p.ref == ref && decide p.counts) = true
      ↔ ∃ p ∈ s.commit.participants, p.ref = ref ∧ p.counts := by
    simp only [List.any_eq_true, Bool.and_eq_true, beq_iff_eq, decide_eq_true_eq]
  unfold firstLost
  rw [List.find?_cons]
  split
  · next ha => rw [if_pos (h.mp ha)]
  · next ha =>
    rw [if_neg fun hx => ?_]
    · rfl
    · rw [h.mpr hx] at ha
      cases ha

/-- In the states in which losses are met, a participant's loss is met exactly while it counts. -/
theorem failsIn_iff {c : CommitCtl} (hfit : StatusesFit c) (hstate : c.state ≠ .cancelling) {p : Participant} (hp : p ∈ c.participants) :
    failsIn c.state p.status ↔ p.counts := by
  unfold StatusesFit at hfit
  unfold failsIn Participant.counts
  cases hs : c.state with
  | preparing =>
    rw [hs] at hfit
    rcases hfit.1 p hp with h | h | h <;> simp [h]
  | armed =>
    rw [hs] at hfit
    rcases hfit p hp with h | h <;> simp [h]
  | applying =>
    rw [hs] at hfit
    have := hfit.1 p hp
    simp [this]
  | idle =>
    rw [hs] at hfit
    have hnone : c.participants = [] := congrArg CommitCtl.participants hfit
    rw [hnone] at hp
    cases hp
  | cancelling => exact absurd hs hstate

theorem not_failsIn_excluded (c : CommitState) : ¬ failsIn c .excluded := by simp [failsIn]

theorem lossReason_of_firstLost {s : State} {refs : List Ref} (h : firstLost s refs = none) : lossReason s refs = none := by
  unfold lossReason
  rw [h]
  split
  · rfl
  · split <;> rfl

/-- A reference already lost, or of no participant that counts, adds nothing to the statuses. -/
theorem lossStatuses_append_same {s : State} {refs : List Ref} {ref : Ref} (h : ∀ p ∈ s.commit.participants, p.ref = ref → p.counts → ref ∈ refs) :
    lossStatuses s (refs ++ [ref]) = lossStatuses s refs := by
  refine List.map_congr_left fun p hp => ?_
  have hiff : (p.ref ∈ refs ++ [ref] ∧ p.counts) ↔ (p.ref ∈ refs ∧ p.counts) := by
    rw [List.mem_append, List.mem_singleton]
    refine ⟨fun ⟨h1, hc⟩ => ⟨h1.elim id fun he => ?_, hc⟩, fun ⟨h1, hc⟩ => ⟨.inl h1, hc⟩⟩
    rw [he]
    exact h p hp he hc
  exact congrArg (Prod.mk p.ref) (if_congr hiff rfl rfl)

theorem lossStatuses_append_mark {s : State} {refs : List Ref} {ref : Ref} (h : ∀ p ∈ s.commit.participants, p.ref = ref → p.counts) :
    lossStatuses s (refs ++ [ref]) = markStatus ref .excluded (lossStatuses s refs) := by
  rw [lossStatuses, lossStatuses, markStatus, List.map_map]
  refine List.map_congr_left fun p hp => ?_
  dsimp only [Function.comp]
  by_cases hr : p.ref = ref
  · rw [if_pos ⟨List.mem_append_right _ (List.mem_singleton.mpr hr), h p hp hr⟩, if_pos hr]
  · rw [if_neg hr]
    have hiff : (p.ref ∈ refs ++ [ref] ∧ p.counts) ↔ (p.ref ∈ refs ∧ p.counts) := by
      rw [List.mem_append, List.mem_singleton]
      simp [hr]
    exact congrArg (Prod.mk p.ref) (if_congr hiff rfl rfl)

namespace Met

variable {s x y : State} {now : Nat} {refs : List Ref}

theorem start {now : Nat} (hn : x.now = now) (hc : x.commit = s.commit) (hext : Extends s x) : Met s now [] x := by
  have hreason : lossReason s [] = none := by
    unfold lossReason
    split
    · rfl
    · split <;> rfl
  refine ⟨hn, hext, ?_⟩
  rw [hreason]
  refine ⟨by rw [hc], ?_, fun _ => hc⟩
  rw [statusesOf, hc, lossStatuses]
  exact List.map_congr_left fun p _ => by simp

/-- What stands beside the course of a commit changes nothing of what it has met. -/
theorem aside (h : Met s now refs x) (ha : Aside x y) : Met s now refs y := by
  obtain ⟨hnow, hext, hcourse⟩ := h
  refine ⟨ha.now.trans hnow, hext.trans ha.ext, ?_⟩
  cases hr : lossReason s refs with
  | none =>
    rw [hr] at hcourse
    obtain ⟨h1, h2, h3⟩ := hcourse
    exact ⟨by rw [ha.commit]; exact h1, by rw [statusesOf, ha.commit]; exact h2, fun hf => ha.commit.trans (h3 hf)⟩
  | some reason =>
    rw [hr] at hcourse
    obtain ⟨h1, h2⟩ := hcourse
    exact ⟨by rw [ha.commit]; exact h1, fun l t ht => h2 l t (ha.commitQ l ▸ ht)⟩

theorem dropCommit_subset {ref : Ref} {p : Participant} {x : State} {l : LinkId} {t : Txn}
    (h : t ∈ ((withoutTraffic ref p x).links.get l).commitQ) : t ∈ (x.links.get l).commitQ := by
  rw [withoutTraffic, modLink_links, Quad.get_modify] at h
  split at h
  · exact List.mem_of_mem_filter h
  · exact h

theorem cancelled_enter {s x : State} (ha : x.commit.apart = s.commit.apart) (reason : CancelReason) :
    Cancelled s reason (enterCancelling reason x) := by
  obtain ⟨c, ls, heq, hc, hls⟩ := enterCancelling_eq reason x
  rw [heq]
  refine ⟨hc.trans ?_, fun l t ht => ?_⟩
  · exact congrArg (fun c : CommitCtl => { c with state := .cancelling, reason := some reason, prepareDl := none, armDl := none }) ha
  · dsimp only at ht
    rw [hls, LinkEngine.queueCommit, LinkEngine.unprepared, dropFlight_commitQ] at ht
    rcases List.mem_append.mp ht with hm | hm
    · simpa using (List.mem_filter.mp hm).2
    · obtain ⟨q, -, rfl⟩ := List.mem_map.mp hm
      rfl

/-- A commit that has met losses meets one more. -/
theorem lost (hfit : StatusesFit s.commit) (hnd : (s.commit.participants.map Participant.ref).Nodup) (hstate : s.commit.state ≠ .cancelling)
    (h : Met s now refs x) {ref : Ref} (hst : ∀ p, p.ref = ref → partReachable x p = false) :
    Met s now (refs ++ [ref]) (participantLost ref x) := by
  obtain ⟨c, ls, heq⟩ := participantLost_eq hst
  refine ⟨?_, h.ext.trans (.of_eq (by rw [heq]) (by rw [heq])), ?_⟩
  · rw [heq]
    exact h.now
  have hcourse := h.course
  cases hr : lossReason s refs with
  | some reason =>
    rw [hr] at hcourse
    rw [lossReason_append_of_some hr]
    obtain ⟨hapart, hq⟩ := hcourse
    have hc : x.commit.state = .cancelling := (congrArg CommitCtl.state hapart :)
    cases hp : findPart x ref with
    | none =>
      rw [participantLost_none hp]
      exact ⟨hapart, hq⟩
    | some p =>
      rw [participantLost_passes hp (by rw [hc]; simp [failsIn])]
      exact ⟨hapart, fun l t ht => hq l t (dropCommit_subset ht)⟩
  | none =>
    rw [hr] at hcourse
    rw [lossReason_append_of_none hr]
    obtain ⟨hapart, hstat, huntouched⟩ := hcourse
    have hxs : x.commit.state = s.commit.state := (congrArg CommitCtl.state hapart :)
    have hxp : x.commit.policy = s.commit.policy := (congrArg CommitCtl.policy hapart :)
    have hpart : ∀ q ∈ s.commit.participants, ∃ p ∈ x.commit.participants, p.ref = q.ref
        ∧ p.status = if q.ref ∈ refs ∧ q.counts then .excluded else q.status := fun q hq => by
      have hm : (q.ref, if q.ref ∈ refs ∧ q.counts then PartStatus.excluded else q.status) ∈ statusesOf x :=
        hstat ▸ List.mem_map.mpr ⟨q, hq, rfl⟩
      obtain ⟨p, hp, he⟩ := List.mem_map.mp hm
      exact ⟨p, hp, congrArg Prod.fst he, congrArg Prod.snd he⟩
    cases hp : findPart x ref with
    | none =>
      have hno : ∀ q ∈ s.commit.participants, q.ref ≠ ref := fun q hq hqr => by
        obtain ⟨p, hpm, hpr, -⟩ := hpart q hq
        have := List.find?_eq_none.mp hp p hpm
        simp [hpr, hqr] at this
      have hfirst : firstLost s [ref] = none := by
        rw [firstLost_single, if_neg]
        rintro ⟨q, hq, hqr, -⟩
        exact hno q hq hqr
      rw [participantLost_none hp, lossReason_of_firstLost hfirst]
      refine ⟨hapart, hstat.trans (lossStatuses_append_same fun q hq hqr _ => absurd hqr (hno q hq)).symm, fun hf => huntouched ?_⟩
      rw [firstLost_append, hfirst, Option.or_none] at hf
      exact hf
    | some p =>
      obtain ⟨q, hq, hqe⟩ : ∃ q ∈ s.commit.participants, (q.ref, if q.ref ∈ refs ∧ q.counts then PartStatus.excluded else q.status)
          = (p.ref, p.status) :=
        List.mem_map.mp (hstat ▸ List.mem_map.mpr ⟨p, List.mem_of_find?_eq_some hp, rfl⟩ : (p.ref, p.status) ∈ lossStatuses s refs)
      have hqr : q.ref = ref := (congrArg Prod.fst hqe).trans (findPart_ref hp)
      have hqst : (if q.ref ∈ refs ∧ q.counts then PartStatus.excluded else q.status) = p.status := congrArg Prod.snd hqe
      have honly : ∀ q' ∈ s.commit.participants, q'.ref = ref → q' = q := fun q' hq' hr' =>
        List.inj_on_of_nodup_map hnd hq' hq (hr'.trans hqr.symm)
      have hfirst : firstLost s [ref] = if q.counts then some ref else none := by
        rw [firstLost_single]
        refine if_congr ⟨?_, fun hc => ⟨q, hq, hqr, hc⟩⟩ rfl rfl
        rintro ⟨q', hq', hr', hc⟩
        exact honly q' hq' hr' ▸ hc
      have hfails : ¬ (q.ref ∈ refs ∧ q.counts) → (failsIn x.commit.state p.status ↔ q.counts) := fun hgone => by
        rw [hxs, ← hqst, if_neg hgone]
        exact failsIn_iff hfit hstate hq
      have hpasses : (q.counts → ref ∈ refs) → lossReason s [ref] = none → ¬ failsIn x.commit.state p.status →
          (lossReason s [ref]).elim (GoneOn s (refs ++ [ref]) (participantLost ref x)) fun reason => Cancelled s reason (participantLost ref x) :=
          fun hc hnone hnf => by
        rw [hnone, participantLost_passes hp hnf]
        refine ⟨hapart, hstat.trans (lossStatuses_append_same fun q' hq' hr' hc' => hc (honly q' hq' hr' ▸ hc')).symm, fun hf => huntouched ?_⟩
        rw [firstLost_append, Option.or_eq_none_iff] at hf
        exact hf.1
      by_cases hgone : q.ref ∈ refs ∧ q.counts
      · have hsome : firstLost s refs ≠ none := by
          rw [firstLost, ne_eq, List.find?_eq_none]
          exact fun hno => hno q.ref hgone.1 (List.any_eq_true.mpr ⟨q, hq, by simpa using hgone.2⟩)
        have hnone : lossReason s [ref] = none := by
          unfold lossReason at hr ⊢
          split at hr
          · exact absurd (Option.map_eq_none_iff.mp hr) hsome
          · next h1 =>
            rw [if_neg h1]
            split at hr
            · exact absurd (Option.map_eq_none_iff.mp hr) hsome
            · next h2 => rw [if_neg h2]
        refine hpasses (fun _ => hqr ▸ hgone.1) hnone ?_
        rw [← hqst, if_pos hgone]
        exact not_failsIn_excluded _
      · have hiff := hfails hgone
        by_cases hc : q.counts
        · rw [if_pos hc] at hfirst
          have hmark : lossStatuses s (refs ++ [ref]) = markStatus ref .excluded (lossStatuses s refs) :=
            lossStatuses_append_mark fun q' hq' hr' => honly q' hq' hr' ▸ hc
          by_cases hpol : x.commit.policy ≠ some .strict ∨ x.commit.state = .applying
          · have hnone : lossReason s [ref] = none := by
              unfold lossReason
              rw [hxp, hxs] at hpol
              rw [if_neg (fun h => hpol.elim (fun hn => hn h.1) fun ha => by rw [h.2] at ha; cases ha),
                if_neg (fun h => hpol.elim (fun hn => hn h.1) fun ha => by rw [h.2] at ha; cases ha)]
            obtain ⟨ls', heq'⟩ := participantLost_excludes hp (hst p (findPart_ref hp)) (hiff.mpr hc) hpol
            rw [hnone, heq']
            refine ⟨hapart, ?_, fun hf => ?_⟩
            · have hset := setStatus_statuses ref .excluded x
              rw [hstat, ← hmark] at hset
              exact hset
            · rw [firstLost_append, hfirst, Option.or_eq_none_iff] at hf
              cases hf.2
          · push Not at hpol
            have hreason : lossReason s [ref] = some (if x.commit.state = .preparing then .prepareFailed ref else .participantLost) := by
              obtain ⟨hp1, hp2⟩ := hpol
              rw [hxp] at hp1
              rw [hxs] at hp2 ⊢
              unfold lossReason
              rw [hfirst]
              have hf := (failsIn_iff hfit hstate hq).mpr hc
              rcases hf with ⟨hs, -⟩ | ⟨hs, -⟩ | ⟨hs, -⟩
              · simp [hs, hp1]
              · simp [hs, hp1]
              · exact absurd hs hp2
            rw [hreason, participantLost_cancels hp (hiff.mpr hc) hpol.1 hpol.2]
            exact cancelled_enter (x := withoutTraffic ref p x) hapart _
        · rw [if_neg hc] at hfirst
          exact hpasses (fun h => absurd h hc) (lossReason_of_firstLost hfirst) fun h => hc (hiff.mp h)

end Met

end Sys2Proof.Machine
end

section
/-! PROOFS. How the controller goes on at the end of an event whose losses it has met. -/

namespace Sys2Proof.Machine

/-! ### The end of an event by the statuses -/

/-- In APPLYING the controller goes on while a participant is UNCONFIRMED, and ends the commit otherwise (R82, R83). -/
theorem appliesOn_of {s x : State} (hs : s.commit.state = .applying) (ha : x.commit.apart = s.commit.apart) (hext : Extends s x)
    {after : List (Ref × PartStatus)} (hstat : statusesOf x = after) :
    AppliesOn s (finishEvent s.port.completions.length x) after := by
  have hstate : x.commit.state = .applying := (congrArg CommitCtl.state ha :).trans hs
  have hepoch : x.commit.epoch = s.commit.epoch := (congrArg CommitCtl.epoch ha :)
  have hlengths : x.commit.lengths = s.commit.lengths := (congrArg CommitCtl.lengths ha :)
  refine ⟨fun ⟨p, hp, hu⟩ => ?_, fun hn => ?_⟩
  · have hwait : settleCommit x = x := by
      rw [← hstat] at hp
      obtain ⟨q, hq, rfl⟩ := List.mem_map.mp hp
      exact waits_settles (.inr (.inr (.inl ⟨hstate, q, hq, hu⟩)))
    rw [finishEvent, hwait]
    exact ⟨(finishLinks_commit_state ..).trans hstate, (finishLinks_statuses ..).trans hstat,
      (finishLinks_commit_applyDl ..).trans (congrArg CommitCtl.applyDl ha :)⟩
  · have hset := settle_applying_ends hstate (hstat ▸ hn)
    have hend := commitEnded true .ok 0 (commitResult x) x
    rw [← hset] at hend
    obtain ⟨h1, -, h3, -, -⟩ := hend.finish hext rfl
    refine ⟨h1.trans ?_, fun t n ht hc => ?_⟩
    · rw [hepoch, hlengths]
    · have hdone := h3 t ((congrArg CommitCtl.tag ha :).trans ht)
      rwa [commitResult_eq ((congrArg CommitCtl.applyCount ha :).trans hc), hstat,
        hepoch] at hdone

/-- In PREPARING the controller waits while a participant is UNPREPARED, and arms otherwise (R72). -/
theorem preparesOn_of {s x : State} (hs : s.commit.state = .preparing) (ha : x.commit.apart = s.commit.apart) (n : Nat)
    {after : List (Ref × PartStatus)} (hstat : statusesOf x = after) : statusesOf (finishEvent n x) = after
      ∧ ((∃ p ∈ after, p.2 = .unprepared) → (finishEvent n x).commit.state = .preparing
        ∧ (finishEvent n x).commit.prepareDl = s.commit.prepareDl)
      ∧ ((∀ p ∈ after, p.2 ≠ .unprepared) → (finishEvent n x).commit.state = .armed
        ∧ (finishEvent n x).commit.prepareDl = none
        ∧ (finishEvent n x).commit.armDl = some (x.now + s.commit.lengths.arm * 100)) := by
  have hstate : x.commit.state = .preparing := (congrArg CommitCtl.state ha :).trans hs
  have hwaits : (∃ p ∈ after, p.2 = PartStatus.unprepared) → settleCommit x = x := fun ⟨p, hp, hu⟩ => by
    rw [← hstat] at hp
    obtain ⟨q, hq, rfl⟩ := List.mem_map.mp hp
    exact waits_settles (.inr (.inl ⟨hstate, q, hq, hu⟩))
  have harms : (∀ p ∈ after, p.2 ≠ PartStatus.unprepared) → _ := fun hn => settle_preparing_arms hstate (hstat ▸ hn)
  refine ⟨?_, fun hw => ?_, fun hn => ?_⟩
  · by_cases hw : ∃ p ∈ after, p.2 = PartStatus.unprepared
    · rw [finishEvent, hwaits hw]
      exact (finishLinks_statuses ..).trans hstat
    · rw [finishEvent, harms fun p hp hu => hw ⟨p, hp, hu⟩]
      exact (finishLinks_statuses ..).trans hstat
  · rw [finishEvent, hwaits hw]
    exact ⟨(finishLinks_commit_state ..).trans hstate, (finishLinks_commit_prepareDl ..).trans (congrArg CommitCtl.prepareDl ha :)⟩
  · rw [finishEvent, harms hn]
    refine ⟨finishLinks_commit_state .., finishLinks_commit_prepareDl .., (finishLinks_commit_armDl ..).trans ?_⟩
    have : x.commit.lengths = s.commit.lengths := (congrArg CommitCtl.lengths ha :)
    exact congrArg (fun d : Deadlines => some (x.now + d.arm * 100)) this

/-- A controller that has gone to CANCELLING stays there, or the COMMIT completes ABORTED (R84, R85). -/
theorem Cancelled.aborts {s x : State} {reason : CancelReason} (h : Cancelled s reason x) (hext : Extends s x) :
    Aborts s (finishEvent s.port.completions.length x) reason := by
  obtain ⟨ha, hq⟩ := h
  have hstate : x.commit.state = .cancelling := (congrArg CommitCtl.state ha :)
  have hreason : x.commit.reason = some reason := (congrArg CommitCtl.reason ha :)
  have htag : x.commit.tag = s.commit.tag := (congrArg CommitCtl.tag ha :)
  have hepoch : x.commit.epoch = s.commit.epoch := (congrArg CommitCtl.epoch ha :)
  have hlengths : x.commit.lengths = s.commit.lengths := (congrArg CommitCtl.lengths ha :)
  by_cases ho : ∃ l, (x.links.get l).cancelOutstanding = true
  · refine .inl ?_
    rw [finishEvent, settle_cancelling_waits hstate ho]
    refine ⟨(finishLinks_commit_state ..).trans hstate, (finishLinks_commit_reason ..).trans hreason, (finishLinks_commit_tag ..).trans htag,
      (finishLinks_commit_prepareDl ..).trans (congrArg CommitCtl.prepareDl ha :),
      (finishLinks_commit_armDl ..).trans (congrArg CommitCtl.armDl ha :), fun l t ht => ?_⟩
    obtain ⟨sent, hsent, -⟩ := finishLinks_commitQ s.port.completions.length x l
    exact hq l t (hsent ▸ List.mem_append_right _ ht)
  · refine .inr ?_
    have hend := settle_cancelling_ends hstate ho hreason
    obtain ⟨h1, -, h3, -, -⟩ := hend.finish hext rfl
    rw [finishEvent]
    refine ⟨h1.trans ?_, fun t ht => ?_⟩
    · rw [hepoch, hlengths]
    · have := h3 t (htag.trans ht)
      rwa [hepoch] at this

/-! ### What the commit meets -/

/-- A commit in IDLE or CANCELLING meets no loss. -/
theorem commitMeets_of_state {s s' : State} {now : Nat} {lost : Participant → Bool} {place : Participant → Nat}
    (h : s.commit.state = .idle ∨ s.commit.state = .cancelling) : CommitMeets s s' now lost place := by
  unfold CommitMeets
  rcases h with h | h <;> simp [h]

namespace Met

variable {s x : State} {now : Nat} {refs : List Ref}

theorem goneOn (h : Met s now refs x) (hr : lossReason s refs = none) : GoneOn s refs x := by
  have := h.course
  rwa [hr] at this

theorem cancelled (h : Met s now refs x) {reason : CancelReason} (hr : lossReason s refs = some reason) : Cancelled s reason x := by
  have := h.course
  rwa [hr] at this

theorem commitMeets (hfit : StatusesFit s.commit) (h : Met s now refs x) {lost : Participant → Bool} {place : Participant → Nat}
    (hlost : ∀ p ∈ s.commit.participants, p.counts → (lost p = true ↔ p.ref ∈ refs))
    (hfirst : ∀ ref, firstLost s refs = some ref → ∀ p ∈ s.commit.participants, lost p = true → p.counts →
      (∀ q ∈ s.commit.participants, lost q = true → q.counts → place p ≤ place q) → p.ref = ref) :
    CommitMeets s (finishEvent s.port.completions.length x) now lost place := by
  have hnone : (∀ p ∈ s.commit.participants, ¬ (lost p = true ∧ p.counts)) → firstLost s refs = none := fun hno => by
    refine List.find?_eq_none.mpr fun ref hr => ?_
    rw [List.any_eq_true]
    rintro ⟨p, hp, hc⟩
    rw [Bool.and_eq_true, beq_iff_eq, decide_eq_true_eq] at hc
    exact hno p hp ⟨(hlost p hp hc.2).mpr (hc.1 ▸ hr), hc.2⟩
  have hsome : (∃ p ∈ s.commit.participants, lost p = true ∧ p.counts) → ∃ ref, firstLost s refs = some ref := fun ⟨p, hp, hl, hc⟩ => by
    rw [← Option.isSome_iff_exists, firstLost, List.find?_isSome]
    exact ⟨p.ref, (hlost p hp hc).mp hl, List.any_eq_true.mpr ⟨p, hp, by simpa using hc⟩⟩
  have hafter : lossStatuses s refs = s.commit.participants.map fun p => (p.ref, if lost p = true ∧ p.counts then .excluded else p.status) := by
    refine List.map_congr_left fun p hp => congrArg (Prod.mk p.ref) (if_congr ?_ rfl rfl)
    exact ⟨fun ⟨hr, hc⟩ => ⟨(hlost p hp hc).mpr hr, hc⟩, fun ⟨hl, hc⟩ => ⟨(hlost p hp hc).mp hl, hc⟩⟩
  refine ⟨fun hno hstate => ?_, fun hpol hstate => ?_, fun hpol hstate => ?_, fun hpol hstate hex => ?_, fun hpol hstate p hp hc hmin => ?_,
    fun hstate => ?_⟩
  · have hc := (h.goneOn (lossReason_of_firstLost (hnone hno))).untouched (hnone hno)
    have hset : settleCommit x = x := by
      refine rests_settles ?_
      rcases hstate with hstate | hstate
      · unfold StatusesFit at hfit
        rw [hstate] at hfit
        obtain ⟨-, p, hp, hu⟩ := hfit
        exact .inr (.inr (.inl ⟨by rw [hc]; exact hstate, p, by rw [hc]; exact hp, hu⟩))
      · exact .inl (by rw [hc]; exact hstate)
    rw [finishEvent, hset, finishLinks_ctl, hc]
  · have hg := h.goneOn (by unfold lossReason; simp [hpol])
    obtain ⟨h1, h2, h3⟩ := preparesOn_of hstate hg.apart s.port.completions.length (hg.statuses.trans hafter)
    refine ⟨h1, h2, fun hn => ?_⟩
    obtain ⟨h4, -, h5⟩ := h3 hn
    exact ⟨h4, h.now ▸ h5⟩
  · have hg := h.goneOn (by unfold lossReason; simp [hpol])
    have hx : x.commit.state = .armed := (congrArg CommitCtl.state hg.apart :).trans hstate
    rw [finishEvent, rests_settles (.inl hx)]
    exact ⟨(finishLinks_statuses ..).trans (hg.statuses.trans hafter), (finishLinks_commit_state ..).trans hx,
      (finishLinks_commit_armDl ..).trans (congrArg CommitCtl.armDl hg.apart :)⟩
  · obtain ⟨ref, hf⟩ := hsome hex
    exact (h.cancelled (reason := .participantLost) (by unfold lossReason; simp [hpol, hstate, hf])).aborts h.ext
  · obtain ⟨ref, hf⟩ := hsome ⟨p, hp, hc⟩
    have href := hfirst ref hf p hp hc.1 hc.2 fun q hq hl hcq => hmin q hq ⟨hl, hcq⟩
    exact (h.cancelled (reason := .prepareFailed p.ref) (by unfold lossReason; simp [hpol, hstate, hf, href])).aborts h.ext
  · have hg := h.goneOn (by unfold lossReason; simp [hstate])
    exact appliesOn_of hstate hg.apart h.ext (hg.statuses.trans hafter)

end Met

end Sys2Proof.Machine
end

section
/-! PROOFS. Claims to STALE: what they do to the directory, and that a commit meets them. -/

namespace Sys2Proof.Machine

/-! ### The directory's part of a claim (R9) -/

/-- What a claim to STALE on a reachable record does to the directory. -/
theorem claimStaleDir_dir {h : Nat} {s : State} {r : Record} (hr : findRec s h = some r) (hst : r.state ≠ .stale) (why : StaleReason) :
    (claimStaleDir h why s).dir = { s.dir with
      records := s.dir.records.map (fun x => if x.ref.handle = h then x.lost s.now why else x)
      staleList := s.dir.staleList ++ [h] } := by
  simp only [claimStaleDir, hr, if_neg hst, noticeId_dir, raiseHandle, modPort_dir, unlistHop, modLink_dir, dropHostWaiting_dir,
    removeJob_dir]
  rfl

/-- Every record of a reference is STALE. -/
def StaleRef (s : State) (ref : Ref) : Prop := ∀ r ∈ s.dir.records, r.ref = ref → r.state = .stale

theorem StaleRef.of_records {s x : State} {ref : Ref} (h : StaleRef s ref) (hr : x.dir.records = s.dir.records) : StaleRef x ref := by
  unfold StaleRef
  rw [hr]
  exact h

theorem StaleRef.unreachable {s : State} {ref : Ref} (h : StaleRef s ref) {p : Participant} (hp : p.ref = ref) : partReachable s p = false := by
  unfold partReachable
  split
  · next r hr =>
    obtain ⟨hmem, href⟩ := mem_of_findRef hr
    simp [Record.reachable, h r hmem (href.trans hp)]
  · rfl

/-- A record STALE before a claim is STALE after it. -/
theorem StaleRef.claim {s : State} {ref : Ref} (h : StaleRef s ref) (n : Nat) (why : StaleReason) : StaleRef (claimStaleDir n why s) ref := by
  by_cases hc : ∃ r, findRec s n = some r ∧ r.state ≠ .stale
  · obtain ⟨r, hr, hst⟩ := hc
    intro x hx hxr
    rw [claimStaleDir_dir hr hst] at hx
    obtain ⟨y, hy, rfl⟩ := List.mem_map.mp hx
    split at hxr
    · next he => rw [if_pos he]; rfl
    · next he => rw [if_neg he]; exact h y hy hxr
  · push Not at hc
    rwa [claimStaleDir_idle hc]

/-- A record claimed is STALE. -/
theorem staleRef_claimed {s : State} {n : Nat} {r : Record} (hr : findRec s n = some r) (hst : r.state ≠ .stale) (why : StaleReason) :
    StaleRef (claimStaleDir n why s) r.ref := by
  obtain ⟨hmem, rfl⟩ := mem_of_findRec hr
  intro x hx hxr
  rw [claimStaleDir_dir hr hst] at hx
  obtain ⟨y, hy, rfl⟩ := List.mem_map.mp hx
  split
  · rfl
  · next he =>
    rw [if_neg he] at hxr
    exact absurd (congrArg Ref.handle hxr) he

/-- A claim leaves the records of other handles alone. -/
theorem findRec_claim_other {s : State} {n m : Nat} (h : m ≠ n) (why : StaleReason) : findRec (claimStaleDir n why s) m = findRec s m := by
  by_cases hc : ∃ r, findRec s n = some r ∧ r.state ≠ .stale
  · obtain ⟨r, hr, hst⟩ := hc
    rw [findRec, claimStaleDir_dir hr hst]
    dsimp only
    rw [List.find?_map]
    have hcomp : ((fun r : Record => r.ref.handle == m) ∘ fun x => if x.ref.handle = n then x.lost s.now why else x)
        = fun r : Record => r.ref.handle == m := by
      funext x
      dsimp only [Function.comp]
      split <;> rfl
    rw [hcomp]
    cases hf : s.dir.records.find? (fun r => r.ref.handle == m) with
    | none => rw [findRec, hf]; rfl
    | some x =>
      have hx : x.ref.handle = m := by simpa using List.find?_some hf
      rw [findRec, hf]
      exact congrArg some (if_neg (by rw [hx]; exact h))
  · push Not at hc
    rw [claimStaleDir_idle hc]

/-! ### Claims of one event (R88, R89) -/

/-- The references of the reachable records that claims are on. -/
def claimedRefs (claims : List (Nat × StaleReason)) (s : State) : List Ref :=
  claims.filterMap fun c => (findRec s c.1).bind fun r => if r.reachable then some r.ref else none

/-- The hub after the directory has taken claims. -/
def claimedDirs (claims : List (Nat × StaleReason)) (s : State) : State := forEach claims (fun c => claimStaleDir c.1 c.2) s

theorem claimStaleAll_def (claims : List (Nat × StaleReason)) (s : State) :
    claimStaleAll claims s = forEach (claimedRefs claims s) participantLost (claimedDirs claims s) := by
  unfold claimStaleAll claimedRefs claimedDirs
  refine congrArg (fun refs => forEach refs participantLost _) (congrArg (fun f => claims.filterMap f) (funext fun c => ?_))
  cases findRec s c.1 <;> rfl

theorem claimedDirs_aside (claims : List (Nat × StaleReason)) (s : State) : Aside s (claimedDirs claims s) :=
  Aside.forEach (f := fun (c : Nat × StaleReason) => claimStaleDir c.1 c.2) (fun c s => claimStaleDir_aside c.1 c.2 s) s

theorem StaleRef.claims {s : State} {ref : Ref} (h : StaleRef s ref) (claims : List (Nat × StaleReason)) :
    StaleRef (claimedDirs claims s) ref := by
  unfold claimedDirs forEach
  induction claims generalizing s with
  | nil => exact h
  | cons c cs ih => exact ih (h.claim c.1 c.2)

/-- The records claimed in one event are STALE when the controller meets the claims. -/
theorem staleRef_claimedRefs {claims : List (Nat × StaleReason)} {s : State} {ref : Ref} (h : ref ∈ claimedRefs claims s) :
    StaleRef (claimedDirs claims s) ref := by
  obtain ⟨c, hc, hcr⟩ := List.mem_filterMap.mp h
  obtain ⟨r, hr, hreach⟩ := Option.bind_eq_some_iff.mp hcr
  have hst : r.state ≠ .stale ∧ r.ref = ref := by
    split at hreach
    · next hx => exact ⟨by simpa [Record.reachable] using hx, Option.some.inj hreach⟩
    · cases hreach
  clear h hcr hreach
  induction claims generalizing s with
  | nil => cases hc
  | cons d ds ih =>
    by_cases hd : d.1 = c.1
    · have hstale : StaleRef (claimStaleDir d.1 d.2 s) ref := by
        have := staleRef_claimed (n := d.1) (hd ▸ hr) hst.1 d.2
        rwa [hst.2] at this
      exact hstale.claims ds
    · refine ih (s := claimStaleDir d.1 d.2 s) ?_ ?_
      · rcases List.mem_cons.mp hc with rfl | hc
        · exact absurd rfl hd
        · exact hc
      · rw [findRec_claim_other (Ne.symm hd)]
        exact hr

/-- The losses of participants whose records are STALE change the controller and the commit classes. -/
theorem participantsLost_eq {refs : List Ref} {x : State} (h : ∀ ref ∈ refs, StaleRef x ref) :
    ∃ c ls, forEach refs participantLost x = { x with commit := c, links := ls } := by
  unfold forEach
  induction refs generalizing x with
  | nil => exact ⟨x.commit, x.links, rfl⟩
  | cons ref refs ih =>
    obtain ⟨c, ls, heq⟩ := participantLost_eq fun p hp => (h ref (by simp)).unreachable hp
    rw [List.foldl_cons, heq]
    obtain ⟨c', ls', heq'⟩ := ih (x := { x with commit := c, links := ls }) fun r hr => h r (List.mem_cons_of_mem _ hr)
    exact ⟨c', ls', heq'⟩

theorem claimStaleAll_eq (claims : List (Nat × StaleReason)) (s : State) :
    ∃ c ls, claimStaleAll claims s = { claimedDirs claims s with commit := c, links := ls } := by
  rw [claimStaleAll_def]
  exact participantsLost_eq fun ref hr => staleRef_claimedRefs hr

/-! ### The commit meets the claims -/

/-- The commit of a state may meet losses: it is not in CANCELLING, and its participants fit its state. -/
structure MeetsLosses (s : State) : Prop where
  fit : StatusesFit s.commit
  once : (s.commit.participants.map Participant.ref).Nodup
  going : s.commit.state ≠ .cancelling

namespace Met

variable {s x : State} {now : Nat} {refs : List Ref}

theorem lostAll (hm : MeetsLosses s) {more : List Ref} (h : Met s now refs x) (hst : ∀ ref ∈ more, StaleRef x ref) :
    Met s now (refs ++ more) (forEach more participantLost x) := by
  unfold forEach
  induction more generalizing x refs with
  | nil => simpa using h
  | cons ref more ih =>
    have hone := h.lost hm.fit hm.once hm.going fun p hp => (hst ref (by simp)).unreachable hp
    obtain ⟨c, ls, heq⟩ := participantLost_eq fun p hp => (hst ref (by simp)).unreachable hp
    have := ih hone fun r hr => (hst r (List.mem_cons_of_mem _ hr)).of_records (by rw [heq])
    rwa [List.append_assoc] at this

/-- A commit meets the claims of one event after what it has met before. -/
theorem claims (hm : MeetsLosses s) (h : Met s now refs x) (claims : List (Nat × StaleReason)) :
    Met s now (refs ++ claimedRefs claims x) (claimStaleAll claims x) := by
  rw [claimStaleAll_def]
  exact lostAll hm (h.aside (claimedDirs_aside claims x)) fun ref hr => staleRef_claimedRefs hr

end Met

/-- Without participants among the records claimed the controller and the commit classes stay. -/
theorem participantsLost_none {refs : List Ref} {x : State} (h : ∀ ref ∈ refs, ∀ p ∈ x.commit.participants, p.ref ≠ ref) :
    forEach refs participantLost x = x := by
  unfold forEach
  induction refs with
  | nil => rfl
  | cons ref refs ih =>
    have hnone : findPart x ref = none := List.find?_eq_none.mpr fun p hp => by simpa using h ref (by simp) p hp
    rw [List.foldl_cons, participantLost_none hnone]
    exact ih fun r hr => h r (List.mem_cons_of_mem _ hr)

theorem claimStaleAll_none {claims : List (Nat × StaleReason)} {s : State}
    (h : ∀ ref ∈ claimedRefs claims s, ∀ p ∈ s.commit.participants, p.ref ≠ ref) : claimStaleAll claims s = claimedDirs claims s := by
  rw [claimStaleAll_def]
  refine participantsLost_none fun ref hr p hp => h ref hr p ?_
  rw [← (claimedDirs_aside claims s).commit]
  exact hp

end Sys2Proof.Machine
end

section
/-! PROOFS. The reply timeout that a commit does not survive in a hub where a job asked for a CANCEL (O41). -/

namespace Sys2Proof.Machine

/-- A record one miss below every miss limit, at the first hop of the first link. -/
def missingRecord : Record :=
  { ref := ⟨1, 0⟩, uid := 0, model := 0, capacity := 0, state := .active, loc := ⟨0, 0⟩, pos := none, groups := 0, synced := 0, miss := 255,
    stale := none }

/-- Its TILE_READ under tag 0 at the last attempt. -/
def lastAttempt : Flight :=
  { txn := directTxn 0 (.paramRead 0) 0, seq := 0, attempt := 1, allowed := 1, phase := .onWire, expires := 0 }

/-- A CANCEL in flight whose requester is the catch-up job of the record. -/
def jobCancel : Flight :=
  { txn := { dest := .directed 0, body := .cancel 0, cls := .commit, req := .job ⟨1, 0⟩ }, seq := 0, attempt := 1, allowed := 1, phase := .onWire,
    expires := 0 }

/-- The hub after device reset, but for the record, the TILE_READ, and a commit in CANCELLING that waits for that CANCEL. -/
def jobCancelHub : State :=
  { State.reset with
    port := { State.reset.port with tags := State.reset.port.tags.put 0 (.running (.tileRead ⟨1, 0⟩ 0)) }
    dir := { State.reset.dir with records := [missingRecord] }
    commit := { State.reset.commit with state := .cancelling }
    links := (State.reset.links.put 0 { LinkEngine.reset with
        state := .running, hops := .listed ⟨1, 0⟩ :: List.replicate 15 .empty, flight := some lastAttempt }).put 1
      { LinkEngine.reset with state := .running, flight := some jobCancel } }

/-- The claim to STALE removes the record's job, and the CANCEL of that job has no requester any more: the commit ends. -/
theorem jobCancelHub_ends : (replyTimeout 0 jobCancelHub).commit.state = .idle := by decide

/-- Refutes O41: nothing in its hypotheses says that a CANCEL in flight is the controller's. When a CANCEL for which the controller waits in
CANCELLING has the catch-up job of the record as its requester, the miss limit's claim to STALE removes that job, the CANCEL counts no
longer, and the commit completes in the event, although the record is no participant. -/
theorem not_timeoutRetriesOrEndsInNoReply : ¬ Obligations.TimeoutRetriesOrEndsInNoReply := by
  intro h
  have hnames : Names jobCancelHub missingRecord.ref missingRecord :=
    ⟨⟨List.mem_singleton.mpr rfl, rfl, fun y hy _ => List.mem_singleton.mp hy⟩, rfl⟩
  have hends : Ends jobCancelHub 0 lastAttempt (.replyTimeout 0) none 0 :=
    ⟨rfl, rfl, by rintro bytes ⟨⟩, .inr ⟨by decide, rfl, .inr ⟨rfl, rfl⟩⟩⟩
  have hrests : Rests (freed jobCancelHub 0) := .inr (.inr (.inr (.inr ⟨rfl, 1, rfl⟩)))
  obtain ⟨s', hs', -, -, -, -, hcommit⟩ := ((h jobCancelHub 0 rfl).2 lastAttempt rfl).2 (.replyTimeout 0) 0 0 0 (.tileRead ⟨1, 0⟩ 0) missingRecord
    hends hrests rfl rfl rfl rfl rfl ⟨rfl, hnames, by decide⟩ rfl (by rintro y ⟨⟩)
  have hstate := congrArg CommitCtl.state (hcommit (.inr (.inr (by rintro r - - p ⟨⟩)))).1
  have hrun : exec (.replyTimeout 0) jobCancelHub = .next (replyTimeout 0 jobCancelHub) := exec_replyTimeout rfl 0
  rw [hrun] at hs'
  cases hs'
  have hidle : (settledCtl (replyTimeout 0 jobCancelHub).commit).state = .idle := jobCancelHub_ends
  rw [hidle] at hstate
  cases hstate

end Sys2Proof.Machine
end

section
/-! PROOFS. The scan step and the roll call that a commit does not survive in a hub where a job asked for a CANCEL (O46, O48). -/

namespace Sys2Proof.Machine

/-! ### A sound hub with one record -/

/-- A record at the first hop of the first link. -/
def heldRecord : Record := { missingRecord with uid := 7, state := .joining, miss := 0 }

/-- Its entry in the hop map. -/
def heldHops : List HopEntry := .listed ⟨1, 0⟩ :: List.replicate 15 .empty

/-- The hub after device reset, but for the record, the engines of the first two links, the commit controller and the jobs. -/
def heldHub (e d : LinkEngine) (c : CommitCtl) (js : Quad (List Job)) : State :=
  { State.reset with
    dir := { State.reset.dir with records := [heldRecord], freeList := List.range' 2 79 }
    commit := c
    jobs := js
    links := (State.reset.links.put 0 e).put 1 d }

section
variable {e d : LinkEngine} {c : CommitCtl} {js : Quad (List Job)}

theorem heldHub_link (l : LinkId) : (heldHub e d c js).links.get l = if l = 1 then d else if l = 0 then e else LinkEngine.reset := by
  show ((State.reset.links.put 0 e).put 1 d).get l = _
  rw [Quad.get_put, Quad.get_put, reset_link]

/-- What holds of every engine of such a hub. -/
theorem heldHub_links {P : LinkEngine → Prop} (he : P e) (hd : P d) (hr : P LinkEngine.reset) (l : LinkId) :
    P ((heldHub e d c js).links.get l) := by
  rw [heldHub_link]
  split
  · exact hd
  · split
    · exact he
    · exact hr

theorem wellShaped_heldHub (he : LinkShaped e) (hd : LinkShaped d) (hc : c.lengths = State.reset.commit.lengths) :
    WellShaped (heldHub e d c js) :=
  { wellShaped_reset with
    recordOrder := List.pairwise_singleton ..
    prepare := hc ▸ wellShaped_reset.prepare
    arm := hc ▸ wellShaped_reset.arm
    apply := hc ▸ wellShaped_reset.apply
    links := heldHub_links he hd linkShaped_reset }

theorem entry_heldHops (hh : e.hops = heldHops) (hop : Nat) : e.entry hop = if hop = 0 then .listed ⟨1, 0⟩ else .empty := by
  rw [LinkEngine.entry, hh, heldHops]
  cases hop with
  | zero => rfl
  | succ n =>
    rw [List.getD_cons_succ, List.getD_eq_getElem?_getD, List.getElem?_replicate, if_neg (Nat.succ_ne_zero n)]
    split <;> rfl

theorem entry_noHops (hd : d.hops = LinkEngine.reset.hops) (hop : Nat) : d.entry hop = .empty := by
  rw [LinkEngine.entry, hd]
  exact entry_reset hop

theorem heldHub_hops (he : e.hops = heldHops) (hd : d.hops = LinkEngine.reset.hops) (l : LinkId) (hop : Nat) :
    ((heldHub e d c js).links.get l).entry hop = if l = 0 ∧ hop = 0 then .listed ⟨1, 0⟩ else .empty := by
  rw [heldHub_link]
  by_cases h1 : l = 1
  · subst h1
    rw [if_pos rfl, entry_noHops hd, if_neg (by rintro ⟨⟨⟩, -⟩)]
  · rw [if_neg h1]
    by_cases h0 : l = 0
    · simp only [h0, if_true, true_and, entry_heldHops he]
    · rw [if_neg h0, entry_reset, if_neg (fun h => h0 h.1)]

theorem directorySound_heldHub (he : e.assigning = none) (hd : d.assigning = none) (hhe : e.hops = heldHops)
    (hhd : d.hops = LinkEngine.reset.hops) : DirectorySound (heldHub e d c js) where
  order := List.pairwise_singleton ..
  ids := List.pairwise_singleton ..
  handles := List.perm_append_comm (l₁ := List.range' 2 79) (l₂ := [1])
  gens := ⟨fun r hr => by rw [List.mem_singleton.mp hr]; rfl, by rintro m ⟨⟩⟩
  stale := .refl _
  staleInfo r hr := by rw [List.mem_singleton.mp hr]; decide
  marks := by
    have hnone : ∀ l, ((heldHub e d c js).links.get l).assigning = none :=
      heldHub_links (P := fun x => x.assigning = none) he hd rfl
    rw [List.filterMap_eq_nil_iff.mpr fun l _ => by rw [hnone]; rfl]
    exact .refl _
  markIds := .nil
  newIds := by rintro m ⟨⟩
  rebindIds := by rintro m ⟨⟩
  hops l hop ref := by
    rw [heldHub_hops hhe hhd]
    constructor
    · intro h
      split at h
      · next h0 =>
        obtain ⟨rfl, rfl⟩ := h0
        exact ⟨heldRecord, List.mem_singleton.mpr rfl, HopEntry.listed.inj h, by decide, rfl⟩
      · cases h
    · rintro ⟨r, hr, rfl, -, hloc⟩
      rw [List.mem_singleton.mp hr] at hloc ⊢
      obtain ⟨rfl, rfl⟩ := Loc.mk.inj hloc
      rfl
  locations r hr := by rw [List.mem_singleton.mp hr]; decide

end

/-! ### A CANCEL that has a job as its requester -/

/-- A RUNNING link with the CANCEL of a job in flight. -/
def cancelEngine : LinkEngine := { LinkEngine.reset with state := .running, flight := some jobCancel }

/-- Such a hub, in which a commit in CANCELLING waits for the CANCEL of the record's job. -/
def jobCancelWith (e : LinkEngine) : State := heldHub e cancelEngine { State.reset.commit with state := .cancelling } State.reset.jobs

theorem wellShaped_jobCancelWith {e : LinkEngine} (he : LinkShaped e) : WellShaped (jobCancelWith e) :=
  wellShaped_heldHub he ⟨by decide, by decide, by decide, by decide, rfl, by decide⟩ rfl

theorem hubSound_jobCancelWith {e : LinkEngine} (he : LinkSound e) (ha : e.assigning = none) (hh : e.hops = heldHops) :
    HubSound (jobCancelWith e) :=
  ⟨heldHub_links he (linkSound_of [] (by decide) (by decide) (by decide)) linkSound_reset, directorySound_heldHub ha rfl hh rfl⟩

/-- The controller waits for the CANCEL of the second link, whatever is done with the first. -/
theorem rests_jobCancelWith (e : LinkEngine) : Rests (jobCancelWith e) := .inr (.inr (.inr (.inr ⟨rfl, 1, rfl⟩)))

/-- No record is a participant's. -/
theorem noneLost_jobCancelWith (e : LinkEngine) (gone : Record → Prop) : NoneLost (jobCancelWith e) gone := .inr (by rintro r - - p ⟨⟩)

/-- A reply timeout that ends the commit of such a hub is no step that leaves the controller as it was. -/
theorem not_unsettled_of_ends {e : LinkEngine} (hends : (replyTimeout 0 (jobCancelWith e)).commit.state = .idle) {s' : State}
    (hrun : exec (.replyTimeout 0) (jobCancelWith e) = .next s') : settledCtl s'.commit ≠ settledCtl (jobCancelWith e).commit := by
  intro hsame
  have hrun' : exec (.replyTimeout 0) (jobCancelWith e) = .next (replyTimeout 0 (jobCancelWith e)) := exec_replyTimeout rfl 0
  rw [hrun'] at hrun
  cases hrun
  have hstate : (replyTimeout 0 (jobCancelWith e)).commit.state = (jobCancelWith e).commit.state :=
    (congrArg CommitCtl.state hsame :)
  rw [hends] at hstate
  cases hstate

/-! ### A full scan without reply -/

/-- The last attempt of a transaction. -/
def lastOf (t : Txn) : Flight := { txn := t, seq := 0, attempt := 1, allowed := 1, phase := .onWire, expires := 0 }

/-- The first hop of a full scan. -/
def firstHop : FullScan := { hop := 0, created := 0, rebound := 0, claimed := 0, rescan := none }

/-- A SCANNING link with the ENUM_QUERY of its first hop at the last attempt. -/
def scanEngine : LinkEngine :=
  { LinkEngine.reset with state := .scanning, scan := some firstHop, hops := heldHops, flight := some (lastOf (enumTxn true 0)) }

theorem linkShaped_scanEngine : LinkShaped scanEngine := ⟨by decide, by decide, by decide, by decide, rfl, by decide⟩

theorem linkSound_scanEngine : LinkSound scanEngine := linkSound_of [(true, 0)] (by decide) (by decide) (by decide)

theorem scanEngine_ends : (replyTimeout 0 (jobCancelWith scanEngine)).commit.state = .idle := by decide

/-- Refutes O46: HubSound and Rests leave open whose CANCEL a commit in CANCELLING waits for. The full scan's NO_REPLY claims the record
STALE as UNREACHED, that removes its catch-up job, the CANCEL of that job has no requester any more, and the commit completes in the
event, although the record is no participant. -/
theorem not_scanStepsGoOnOrEnd : ¬ Obligations.ScanStepsGoOnOrEnd := by
  intro h
  have hends : Ends (jobCancelWith scanEngine) 0 (lastOf (enumTxn true 0)) (.replyTimeout 0) none 0 :=
    ⟨rfl, rfl, by rintro bytes ⟨⟩, .inr ⟨by decide, rfl, .inr ⟨rfl, rfl⟩⟩⟩
  obtain ⟨s', hrun, -, -, hlost⟩ := (h (jobCancelWith scanEngine) 0 _ _ none 0 0 (wellShaped_jobCancelWith linkShaped_scanEngine)
    (hubSound_jobCancelWith linkSound_scanEngine rfl rfl) (rests_jobCancelWith _) hends).1 firstHop rfl rfl
  obtain ⟨-, -, -, hsettled, -⟩ := hlost rfl
  exact not_unsettled_of_ends scanEngine_ends hrun (hsettled (noneLost_jobCancelWith ..)).1

/-! ### A roll call without reply -/

/-- A RUNNING link with its periodic roll call at the last attempt. -/
def rollEngine : LinkEngine :=
  { LinkEngine.reset with state := .running, hops := heldHops, flight := some (lastOf (rollTxn .periodic .engine)) }

theorem linkShaped_rollEngine : LinkShaped rollEngine := ⟨by decide, by decide, by decide, by decide, rfl, by decide⟩

theorem linkSound_rollEngine : LinkSound rollEngine := linkSound_of [] (by decide) (by decide) (by decide)

theorem rollEngine_ends : (replyTimeout 0 (jobCancelWith rollEngine)).commit.state = .idle := by decide +kernel

/-- Refutes O48, for the reason of O46: the roll call without reply claims the record STALE as UNREACHED, its job is removed, and the
commit in CANCELLING, which waits for a CANCEL of that job alone, completes in the event. -/
theorem not_rollCallIsProcessedHopByHop : ¬ Obligations.RollCallIsProcessedHopByHop := by
  intro h
  have hends : Ends (jobCancelWith rollEngine) 0 (lastOf (rollTxn .periodic .engine)) (.replyTimeout 0) none 0 :=
    ⟨rfl, rfl, by rintro bytes ⟨⟩, .inr ⟨by decide, rfl, .inr ⟨rfl, rfl⟩⟩⟩
  obtain ⟨s', hrun, -, -, -, -, -, -, -, hsettled, -⟩ := h (jobCancelWith rollEngine) 0 _ _ none 0 [] (wellShaped_jobCancelWith linkShaped_rollEngine)
    (hubSound_jobCancelWith linkSound_rollEngine rfl rfl) (.inr (.inr (.inr (.inr ⟨rfl, 1, rfl⟩)))) hends rfl (by rintro ⟨⟩) (.inl ⟨rfl, rfl⟩)
  exact not_unsettled_of_ends rollEngine_ends hrun (hsettled (noneLost_jobCancelWith ..)).1

end Sys2Proof.Machine
end

section
/-! PROOFS. The refusal of a catch-up PREPARE in a hub whose record has its job twice (O49). -/

namespace Sys2Proof.Machine

/-- The job of the record, in its first round. -/
def twiceJob : Job :=
  { ref := ⟨1, 0⟩, link := 0, list := [], round := 1, roundCount := 1, phase := .preparing, acked := 0, turn := true, restarts := 0,
    reprepare := false }

/-- Its PREPARE. -/
def twicePrepare : Txn := { dest := .directed 0, body := .prepare 0 true true [], cls := .catchUp, req := .job ⟨1, 0⟩ }

/-- A RUNNING link with that PREPARE in flight. -/
def prepareEngine : LinkEngine := { LinkEngine.reset with state := .running, hops := heldHops, flight := some (lastOf twicePrepare) }

/-- The hub in which the queue of jobs holds the job twice. -/
def twiceHub : State := heldHub prepareEngine LinkEngine.reset State.reset.commit (State.reset.jobs.put 0 [twiceJob, twiceJob])

/-- The reply by which the tile refuses the PREPARE. -/
def refusalBytes : List Byte := replyFrame 0x30 0x01 0x00 []

theorem judge_refusal : judgeReply twicePrepare.body 0 refusalBytes = .good .refused .nothing :=
  judgeReply_frame (by decide) rfl (by decide) rfl

theorem linkShaped_prepareEngine : LinkShaped prepareEngine := ⟨by decide, by decide, by decide, by decide, rfl, by decide⟩

theorem linkSound_prepareEngine : LinkSound prepareEngine := linkSound_of [] (by decide) (by decide) (by decide)

theorem hubSound_twiceHub : HubSound twiceHub :=
  ⟨heldHub_links linkSound_prepareEngine linkSound_reset linkSound_reset, directorySound_heldHub rfl rfl rfl rfl⟩

/-- Both jobs go to the tail of the queue. -/
theorem twiceHub_jobs : ((linkReply 0 refusalBytes twiceHub).jobs.get 0).map Job.ref = [⟨1, 0⟩, ⟨1, 0⟩] := by decide +kernel

/-- Refutes O49: HubSound says nothing of the jobs, and "the one job of a record" is said by Sole, which two equal jobs satisfy. With
the record's job twice in the queue, a refusal of its PREPARE moves both to the tail, where MovedToTail has one. -/
theorem not_catchUpTransactionsEnd : ¬ Obligations.CatchUpTransactionsEnd := by
  intro h
  have hends : Ends twiceHub 0 (lastOf twicePrepare) (.linkReply 0 refusalBytes) (some (.refused, .nothing)) 0 :=
    ⟨rfl, rfl, by rintro bytes - ⟨x, _, _, hx, -⟩; exact Option.some_ne_none x hx.symm, .inl ⟨_, _, _, rfl, judge_refusal, rfl, rfl⟩⟩
  have hsole : Sole (fun x => x.ref = twiceJob.ref) (allJobs twiceHub) twiceJob :=
    ⟨List.mem_cons_self, rfl, fun y hy _ => by simpa using (show y ∈ [twiceJob, twiceJob] from hy)⟩
  obtain ⟨s', hrun, -, -, hrestarts, -⟩ := ((((h twiceHub 0 (lastOf twicePrepare) _ _ 0 0 twiceJob heldRecord
    (wellShaped_heldHub linkShaped_prepareEngine linkShaped_reset rfl) hubSound_twiceHub (.inr (.inl rfl)) hends rfl hsole
    List.mem_cons_self (Nat.le_refl 1) (List.mem_singleton.mpr rfl) rfl (.inl rfl) rfl).1 rfl rfl).1 0 true true [] rfl rfl).2
    .refused .nothing rfl nofun)
  have hrun' : exec (.linkReply 0 refusalBytes) twiceHub = .next (linkReply 0 refusalBytes twiceHub) := exec_linkReply rfl 0 _
  obtain rfl : linkReply 0 refusalBytes twiceHub = s' := by
    rw [hrun'] at hrun
    injection hrun
  obtain ⟨list, -, hrefs, -⟩ := hrestarts (by decide)
  rw [twiceHub_jobs] at hrefs
  exact absurd (congrArg List.length hrefs) (by decide +kernel)

end Sys2Proof.Machine
end

section
/-! PROOFS. How a PREPARE of a participant ends (O40). -/

namespace Sys2Proof.Machine

/-! ### Records in a sound hub -/

/-- In a sound directory a record is the one its reference names. -/
theorem DirectorySound.names {s : State} (h : DirectorySound s) {r : Record} (hr : r ∈ s.dir.records) : Names s r.ref r := by
  have hnd : (s.dir.records.map fun r => r.ref.handle).Nodup := List.pairwise_map.mpr (h.order.imp Nat.ne_of_lt)
  exact ⟨⟨hr, rfl, fun y hy he => List.inj_on_of_nodup_map hnd hy hr he⟩, rfl⟩

/-- A reachable record of a sound hub is listed at its location. -/
theorem DirectorySound.listedAt {s : State} (h : DirectorySound s) {r : Record} (hr : r ∈ s.dir.records) (hst : r.state ≠ .stale) :
    ListedAt s r.loc.link r.loc.hop r := ⟨(h.hops ..).mpr ⟨r, hr, rfl, hst, rfl⟩, h.names hr, hst⟩

/-- A participant's record is reachable at its place. -/
theorem partReachable_iff {s : State} {p : Participant} : partReachable s p = true ↔ ∃ r, findRef s p.ref = some r ∧ r.state ≠ .stale ∧ r.loc = p.loc := by
  unfold partReachable
  split
  · next r hr => simp [hr, Record.reachable]
  · next hn => simp [hn]

/-- The record of a participant that counts is listed at the participant's place (log 16). -/
theorem counted_listed {s : State} (hd : DirectorySound s) (hc : CommitSound s) (hstate : s.commit.state ≠ .cancelling) {p : Participant}
    (hp : p ∈ s.commit.participants) (hcounts : p.counts) {r : Record} (hr : r ∈ s.dir.records) (href : r.ref = p.ref) :
    ListedAt s p.loc.link p.loc.hop r ∧ r.loc = p.loc := by
  obtain ⟨x, hx, hst, hloc⟩ := partReachable_iff.mp (hc.counted hstate p hp hcounts)
  have hrx : x = r := by
    have := (hd.names hr).findRef
    rw [href, hx] at this
    exact Option.some.inj this
  subst hrx
  exact ⟨hloc ▸ hd.listedAt hr hst, hloc⟩

/-! ### The end of a directed transaction (R114, R115) -/

/-- A directed transaction ends on a wire that is already free: a reply with its status and body, or NO_REPLY. -/
def directedEnds (l : LinkId) (hop : Nat) (t : Txn) (out : Option (TileStatus × ReplyBody)) (s : State) : State :=
  match out with
  | some (st, reply) => requesterReplied l hop t st reply (if t.body.countsMisses then setMiss l hop 0 s else s)
  | none => if t.body.countsMisses then missNoReply l hop t s else requesterNoReply l hop t false s

/-- The hub whose wire a transaction of a link has left. -/
def vacated (l : LinkId) (now : Nat) (x : Option Expiry) (s : State) : State := withLink l now ((s.links.get l).freed x) s

theorem vacated_link (l : LinkId) (now : Nat) (x : Option Expiry) (s : State) : (vacated l now x s).links.get l = (s.links.get l).freed x :=
  withLink_link ..

theorem vacated_other {l k : LinkId} (h : k ≠ l) (now : Nat) (x : Option Expiry) (s : State) :
    (vacated l now x s).links.get k = s.links.get k := by
  rw [vacated, withLink, Quad.get_put, if_neg h]

/-- What the wire of a link does not touch of its engine. -/
theorem vacated_hops (l : LinkId) (now : Nat) (x : Option Expiry) (s : State) (k : LinkId) :
    ((vacated l now x s).links.get k).hops = (s.links.get k).hops := by
  by_cases h : k = l
  · subst h
    rw [vacated_link]
    rfl
  · rw [vacated_other h]

/-- A transaction ends on a wire that is already free (R111, R114). -/
def txnEnds (l : LinkId) (t : Txn) (out : Option (TileStatus × ReplyBody)) (s : State) : State :=
  match t.dest with
  | .directed hop => directedEnds l hop t out s
  | .rollCall =>
    match out with
    | some (_, .roll entries) => rollEnded l t entries s
    | some _ => s
    | none => rollEnded l t [] s
  | .broadcast => s

theorem endReplied_eq (l : LinkId) (t : Txn) (st : TileStatus) (reply : ReplyBody) (s : State) :
    endReplied l t st reply s = txnEnds l t (some (st, reply)) (freeWire l s) := by
  unfold endReplied txnEnds
  cases t.dest with
  | rollCall => cases reply <;> rfl
  | _ => rfl

theorem endNoReply_eq (l : LinkId) (t : Txn) (s : State) : endNoReply l t s = txnEnds l t none (freeWire l s) := by
  unfold endNoReply txnEnds
  cases t.dest <;> rfl

/-- The command that ends a transaction. -/
theorem Ends.run {s : State} {l : LinkId} {f : Flight} {c : Instr} {out : Option (TileStatus × ReplyBody)} {now : Nat}
    (h : Ends s l f c out now) :
    ∃ x, exec c s = .next (finishEvent s.port.completions.length (txnEnds l f.txn out (vacated l now x s))) := by
  obtain ⟨hop', hw, hlate, hout⟩ := h
  have hnone : ∀ {e : LinkEngine} {t : Nat}, ¬ f.attempt < f.allowed → attemptFailed l f (withLink l t e s)
      = txnEnds l f.txn none (withLink l t (e.freed e.expired) s) := fun {e t} hatt => by
    have hfree : freeWire l (withLink l t e s) = withLink l t (e.freed e.expired) s := modLink_withLink ..
    rw [attemptFailed, if_neg hatt, endNoReply_eq, hfree]
  rcases hout with ⟨bytes, st, body, rfl, hj, rfl, rfl⟩ | ⟨hatt, rfl, ⟨bytes, rfl, hj, rfl⟩ | ⟨rfl, rfl⟩⟩
  · refine ⟨(s.links.get l).expired, ?_⟩
    have hfree : freeWire l s = vacated l s.now (s.links.get l).expired s := rfl
    rw [exec_linkReply hop', linkReply_good hw (hlate bytes rfl) hj, endReplied_eq, hfree]
  · refine ⟨none, ?_⟩
    rw [exec_linkReply hop', linkReply_bad hw (hlate bytes rfl) hj]
    exact congrArg (fun x => Host.Outcome.next (finishEvent s.port.completions.length x)) (hnone (e := { s.links.get l with expired := none }) hatt)
  · refine ⟨some ⟨max s.now f.expires, f.txn.body, f.seq⟩, ?_⟩
    rw [exec_replyTimeout hop']
    have hrun : replyTimeout l s = finishEvent s.port.completions.length (attemptFailed l f (withLink l (max s.now f.expires)
        { s.links.get l with expired := some ⟨max s.now f.expires, f.txn.body, f.seq⟩ } s)) := by
      rw [replyTimeout, hw]
      rfl
    rw [hrun]
    exact congrArg (fun x => Host.Outcome.next (finishEvent s.port.completions.length x)) (hnone hatt)

/-- The command that ends a directed transaction. -/
theorem Ends.directed {s : State} {l : LinkId} {f : Flight} {c : Instr} {out : Option (TileStatus × ReplyBody)} {now hop : Nat}
    (h : Ends s l f c out now) (hd : f.txn.dest = .directed hop) : ∃ x, exec c s
      = .next (finishEvent s.port.completions.length (directedEnds l hop f.txn out (vacated l now x s))) := by
  obtain ⟨x, hx⟩ := h.run
  refine ⟨x, hx.trans ?_⟩
  simp only [txnEnds, hd]

/-- The command that ends a roll call. -/
theorem Ends.rollCall {s : State} {l : LinkId} {f : Flight} {c : Instr} {out : Option (TileStatus × ReplyBody)} {now : Nat}
    (h : Ends s l f c out now) (hd : f.txn.dest = .rollCall) {entries : List RollEntry}
    (ho : (out = none ∧ entries = []) ∨ ∃ st, out = some (st, .roll entries)) : ∃ x, exec c s
      = .next (finishEvent s.port.completions.length (rollEnded l f.txn entries (vacated l now x s))) := by
  obtain ⟨x, hx⟩ := h.run
  refine ⟨x, hx.trans ?_⟩
  rcases ho with ⟨rfl, rfl⟩ | ⟨st, rfl⟩ <;> simp only [txnEnds, hd]

/-! ### The miss count of the record at the hop -/

/-- The miss count that a transaction's end leaves below the miss limit. -/
def missOf (out : Option (TileStatus × ReplyBody)) (miss : Nat) : Nat := if out = none then miss + 1 else 0

/-- A directed transaction of a kind that counts misses, to a hop with a record, below the miss limit: the miss count is set and the
requester hears of the end. -/
theorem directedEnds_heard {l : LinkId} {hop : Nat} {t : Txn} {out : Option (TileStatus × ReplyBody)} {s : State} {r : Record}
    (hl : ListedAt s l hop r) (hc : t.body.countsMisses = true) (hm : out = none → r.miss + 1 < (s.links.get l).timing.missLimit) :
    directedEnds l hop t out s = out.elim (requesterNoReply l hop t false) (fun x => requesterReplied l hop t x.1 x.2)
      (updRec r.ref.handle (fun x => { x with miss := missOf out r.miss }) s) := by
  unfold directedEnds
  split
  · rw [if_pos hc, setMiss_listed hl]
    rfl
  · rw [if_pos hc, missNoReply, hopRecord_listed hl]
    dsimp only
    rw [setMiss_listed hl]
    exact if_pos (hm rfl)

/-- A change of the record of a handle is one of the record of its reference. -/
theorem updRec_named {s : State} {r : Record} (hn : Names s r.ref r) (f : Record → Record) :
    (updRec r.ref.handle f s).dir = { s.dir with records := s.dir.records.map fun y => if y.ref = r.ref then f y else y } := by
  have hiff : ∀ y ∈ s.dir.records, (y.ref.handle = r.ref.handle ↔ y.ref = r.ref) := fun y hy =>
    ⟨fun h => congrArg Record.ref (hn.1.only y hy h), fun h => congrArg Ref.handle h⟩
  refine congrArg (fun rs => { s.dir with records := rs }) (List.map_congr_left fun y hy => ?_)
  exact if_congr (hiff y hy) rfl rfl

end Sys2Proof.Machine
end

section
/-! PROOFS. How a PREPARE of a participant ends (O40). -/

namespace Sys2Proof.Machine

/-! ### Acknowledged packets (R72) -/

/-- The reference, acknowledged count and status of every participant. -/
def acksOf (s : State) : List (Ref × Nat × PartStatus) := s.commit.participants.map fun q => (q.ref, q.acked, q.status)

theorem finishEvent_acks (n : Nat) {s : State} (h : s.commit.state = .preparing) : acksOf (finishEvent n s) = acksOf s := by
  have hctl : ∀ x : State, acksOf (finishLinks n x) = acksOf x := fun x => by
    have h := congrArg (fun c : CommitCtl => c.participants.map fun p => (p.ref, p.acked, p.status)) (finishLinks_ctl n x)
    simpa only [settledCtl, List.map_map, Function.comp_def, acksOf] using h
  rw [finishEvent, hctl]
  unfold settleCommit
  rw [h]
  dsimp only
  split <;> rfl

/-- What the end of an event in PREPARING leaves alone. -/
theorem finishEvent_preparing {s : State} (h : s.commit.state = .preparing) {n : Nat} (hn : s.port.completions.length ≤ n) :
    (finishEvent n s).dir = s.dir ∧ (finishEvent n s).port = s.port ∧ (finishEvent n s).commit.epoch = s.commit.epoch
      ∧ (finishEvent n s).staging = s.staging ∧ (finishEvent n s).store = s.store ∧ (finishEvent n s).keys = s.keys
      ∧ (finishEvent n s).boundary = s.boundary := by
  obtain ⟨c, hc, he⟩ : ∃ c, settleCommit s = { s with commit := c } ∧ c.epoch = s.commit.epoch := by
    unfold settleCommit
    rw [h]
    dsimp only
    split
    · exact ⟨s.commit, rfl, rfl⟩
    · exact ⟨_, rfl, rfl⟩
  rw [finishEvent, hc]
  exact ⟨finishLinks_dir .., finishLinks_port_of_le hn, (finishLinks_commit_epoch ..).trans he, finishLinks_staging .., finishLinks_store ..,
    finishLinks_keys .., finishLinks_boundary ..⟩

theorem findPart_sole {s : State} {p : Participant} (h : Sole (fun q => q.ref = p.ref) s.commit.participants p) :
    findPart s p.ref = some p := by
  cases hf : findPart s p.ref with
  | none => exact absurd (List.find?_eq_none.mp hf p h.mem) (by simp)
  | some q => exact congrArg some (h.only q (List.mem_of_find?_eq_some hf) (findPart_ref hf))

theorem sole_of_nodup {s : State} (h : (s.commit.participants.map Participant.ref).Nodup) {p : Participant} (hp : p ∈ s.commit.participants) :
    Sole (fun q => q.ref = p.ref) s.commit.participants p :=
  ⟨hp, rfl, fun _ hq he => List.inj_on_of_nodup_map h hq hp he⟩

/-- A participant with one more packet acknowledged, PREPARED by the last (R72). -/
def Participant.acknowledged (q : Participant) : Participant :=
  if q.acked + 1 = (q.pairs.length + 5) / 6 then { q with acked := q.acked + 1, status := .prepared } else { q with acked := q.acked + 1 }

theorem participantReplied_prepareOk {s : State} {p : Participant} (h : findPart s p.ref = some p) (hs : s.commit.state = .preparing)
    (hu : p.status = .unprepared) (e : Half) (first final : Bool) (ps : List Pair) (reply : ReplyBody) :
    participantReplied p.ref (.prepare e first final ps) .ok reply s = updPart p.ref Participant.acknowledged s := by
  have hack : (fun p : Participant => (let q := { p with acked := p.acked + 1 }; if q.allAcked then { q with status := .prepared } else q))
      = Participant.acknowledged := funext fun q => by
    unfold Participant.acknowledged
    refine if_congr ?_ rfl rfl
    exact beq_iff_eq
  simp only [participantReplied, h, hs, hu, and_self, if_true]
  exact congrArg (fun f => updPart p.ref f s) hack

theorem participantReplied_refused {s : State} {p : Participant} (h : findPart s p.ref = some p) (hs : s.commit.state = .preparing)
    (hu : p.status = .unprepared) (e : Half) (first final : Bool) (ps : List Pair) {st : TileStatus} (hst : st ≠ .ok) (reply : ReplyBody) :
    participantReplied p.ref (.prepare e first final ps) st reply s = failParticipant p s := by
  simp only [participantReplied, h, hs, hu, and_self, if_true, hst, if_false]

theorem participantNoReply_prepare {s : State} {p : Participant} (h : findPart s p.ref = some p) (hs : s.commit.state = .preparing)
    (hu : p.status = .unprepared) (e : Half) (first final : Bool) (ps : List Pair) (limit : Bool) :
    participantNoReply p.ref (.prepare e first final ps) limit s = failParticipant p s := by
  simp only [participantNoReply, h, hs, hu, true_or, and_self, if_true]

theorem setMiss_eq (l : LinkId) (hop n : Nat) (s : State) : ∃ d, setMiss l hop n s = { s with dir := d } := by
  unfold setMiss
  split
  · exact ⟨_, rfl⟩
  · exact ⟨s.dir, rfl⟩

/-- O40, a PREPARE answered OK. -/
theorem prepareOk_settles {s : State} {l : LinkId} {bytes : List Byte} {f : Flight} {hop : Nat} {p : Participant} {e : Half} {first final : Bool}
    {ps : List Pair} {body : ReplyBody} (hw : waitingFlight s l = some f) (hn : ¬ Late s l bytes)
    (hj : judgeReply f.txn.body f.seq bytes = .good .ok body) (hd : f.txn.dest = .directed hop) (hb : f.txn.body = .prepare e first final ps)
    (hreq : f.txn.req = .participant p.ref) (hs : s.commit.state = .preparing)
    (hp : Sole (fun q => q.ref = p.ref) s.commit.participants p) (hu : p.status = .unprepared) :
    ∃ d ls, linkReply l bytes s
      = finishEvent s.port.completions.length (updPart p.ref Participant.acknowledged { s with dir := d, links := ls }) := by
  obtain ⟨d, hd'⟩ := setMiss_eq l hop 0 (freeWire l s)
  refine ⟨d, (freeWire l s).links, ?_⟩
  rw [linkReply_good hw hn hj]
  simp only [endReplied, hd, hb, Body.countsMisses, if_true, requesterReplied, hreq, hd']
  exact congrArg _ (participantReplied_prepareOk (s := { freeWire l s with dir := d }) (findPart_sole hp) hs hu e first final ps body)

/-! ### A participant that fails (R73) -/

/-- What matters of a hub to the entry to CANCELLING. -/
theorem EntersCancelling.congr {a b s' : State} {reason : CancelReason} (h : EntersCancelling a s' reason) (hdir : b.dir = a.dir)
    (hcommit : b.commit = a.commit) (hport : b.port = a.port) (hkeys : b.keys = a.keys) (hstore : b.store = a.store)
    (hstaging : b.staging = a.staging) (hboundary : b.boundary = a.boundary)
    (hlinks : ∀ l, (b.links.get l).cancelOutstanding = (a.links.get l).cancelOutstanding) : EntersCancelling b s' reason := by
  have howed : ∀ p, OwedCancel b p ↔ OwedCancel a p := fun p => by
    unfold OwedCancel partReachable findRef
    rw [hdir, hcommit]
  obtain ⟨hbusy, hfree⟩ := h
  unfold EntersCancelling
  simp only [howed, hlinks, hcommit, hdir, hkeys, hstore, hstaging, hboundary]
  refine ⟨hbusy, fun hb => ?_⟩
  obtain ⟨h1, h2, h3, h4⟩ := hfree hb
  exact ⟨h1, h2, fun t ht => (h3 t ht).rebase (by rw [hport]), h4⟩

theorem failParticipant_strict {s : State} {p : Participant} (h : s.commit.policy = some .strict) :
    failParticipant p s = enterCancelling (.prepareFailed p.ref) s := if_pos h

theorem failParticipant_lenient {s : State} {p : Participant} (h : s.commit.policy = some .lenient) : failParticipant p s = exclude p s :=
  if_neg (by rw [h]; nofun)

/-- The commit class of an excluded participant's link: none of its PREPAREs waits, and a CANCEL of it does if one had been sent. -/
theorem exclude_commitQ {p : Participant} {s : State} (h : partReachable s p = true) :
    ((exclude p s).links.get p.loc.link).commitQ
      = (s.links.get p.loc.link).commitQ.filter (fun t => !(t.isPrepare && t.req == .participant p.ref))
        ++ if p.reached then [partTxn p (.cancel (s.commit.epoch + 1))] else [] := by
  have hreach : partReachable (setStatus p.ref .excluded (dropPrepares p s)) p = true := h
  have haside := claimLagging_aside p.ref.handle (setStatus p.ref .excluded (dropPrepares p s))
  have hdrop : ((claimLagging p.ref.handle (setStatus p.ref .excluded (dropPrepares p s))).links.get p.loc.link).commitQ
      = (s.links.get p.loc.link).commitQ.filter (fun t => !(t.isPrepare && t.req == .participant p.ref)) := by
    rw [haside.commitQ]
    show ((modLink _ _ s).links.get _).commitQ = _
    rw [modLink_links, Quad.get_modify_self, dropFlight_commitQ]
    rfl
  have hepoch : (claimLagging p.ref.handle (setStatus p.ref .excluded (dropPrepares p s))).commit.epoch = s.commit.epoch :=
    (congrArg CommitCtl.epoch haside.commit :)
  unfold exclude
  dsimp only
  rw [if_pos hreach]
  split
  · show ((modLink p.loc.link _ _).links.get p.loc.link).commitQ = _
    rw [modLink_links, Quad.get_modify_self, LinkEngine.queueCommit, hdrop, hepoch]
  · rw [hdrop, List.append_nil]

theorem finishLinks_toCome {n : Nat} {s : State} {l : LinkId} {t : Txn} (h : t ∈ (s.links.get l).commitQ) :
    ToCome ((finishLinks n s).links.get l) t := by
  obtain ⟨sent, hq, hsent⟩ := finishLinks_commitQ n s l
  rw [hq] at h
  rcases List.mem_append.mp h with h | h
  · rcases hsent with rfl | ⟨f, hf, rfl⟩
    · cases h
    · exact .inl ⟨f, hf, (List.mem_singleton.mp h).symm⟩
  · exact .inr (List.mem_append_left _ (List.mem_append_left _ (List.mem_append_left _ h)))

/-- A participant that fails: what its PREPARE's end makes of the hub before the participant is failed. -/
def heardHub (l : LinkId) (now : Nat) (x : Option Expiry) (r : Record) (m : Nat) (s : State) : State :=
  updRec r.ref.handle (fun y => { y with miss := m }) (vacated l now x s)

theorem heardHub_commit (l : LinkId) (now : Nat) (x : Option Expiry) (r : Record) (m : Nat) (s : State) :
    (heardHub l now x r m s).commit = s.commit := rfl

/-- A PREPARE of an UNPREPARED participant that is refused or gets no reply below the miss limit fails the participant. -/
theorem prepareFails {s : State} {l : LinkId} {f : Flight} {c : Instr} {out : Option (TileStatus × ReplyBody)} {now : Nat} {p : Participant}
    {e : Half} {first final : Bool} {ps : List Pair} {r : Record} (hd : DirectorySound s) (hc : CommitSound s)
    (hs : s.commit.state = .preparing) (hends : Ends s l f c out now) (hp : p ∈ s.commit.participants) (hu : p.status = .unprepared)
    (hl : p.loc.link = l) (ht : f.txn = partTxn p (.prepare e first final ps)) (hr : r ∈ s.dir.records) (href : r.ref = p.ref)
    (hout : ∀ body, out ≠ some (.ok, body)) (hm : out = none → r.miss + 1 < (s.links.get l).timing.missLimit) :
    ∃ x, exec c s = .next (finishEvent s.port.completions.length (failParticipant p (heardHub l now x r (missOf out r.miss) s))) := by
  obtain ⟨x, hx⟩ := hends.directed (hop := p.loc.hop) (by rw [ht]; rfl)
  refine ⟨x, hx.trans (congrArg (fun y => Host.Outcome.next (finishEvent s.port.completions.length y)) ?_)⟩
  obtain ⟨hlist, -⟩ := counted_listed hd hc (by rw [hs]; decide) hp (.inl hu) hr href
  have hlist' : ListedAt (vacated l now x s) l p.loc.hop r := (hl ▸ hlist).of_eq rfl (vacated_hops ..)
  rw [directedEnds_heard hlist' (by rw [ht]; rfl) (by rw [vacated_link]; exact hm)]
  have hfind : findPart (heardHub l now x r (missOf out r.miss) s) p.ref = some p :=
    findPart_sole (by rw [heardHub_commit]; exact sole_of_nodup hc.participants hp)
  have hs' : (heardHub l now x r (missOf out r.miss) s).commit.state = .preparing := hs
  cases out with
  | none =>
    have hreq : requesterNoReply l p.loc.hop f.txn false (heardHub l now x r (missOf none r.miss) s)
        = participantNoReply p.ref (.prepare e first final ps) false (heardHub l now x r (missOf none r.miss) s) := by
      rw [ht]
      rfl
    exact hreq.trans (participantNoReply_prepare hfind hs' hu e first final ps false)
  | some o =>
    obtain ⟨st, reply⟩ := o
    have hreq : requesterReplied l p.loc.hop f.txn st reply (heardHub l now x r (missOf (some (st, reply)) r.miss) s)
        = participantReplied p.ref (.prepare e first final ps) st reply (heardHub l now x r (missOf (some (st, reply)) r.miss) s) := by
      rw [ht]
      rfl
    exact hreq.trans (participantReplied_refused hfind hs' hu e first final ps (by rintro rfl; exact hout reply rfl) reply)

/-- Settles O40. -/
theorem prepareAnswersSettleTheParticipant : Obligations.PrepareAnswersSettleTheParticipant := by
  unfold Obligations.PrepareAnswersSettleTheParticipant
  refine ⟨fun s l bytes f hop p e first final ps body hop' hw hn hj hd hb hreq hs hp hu => ?_,
    fun s l f c out now p e first final ps r _ hsound hc hs hends hp hu hl ht hr href hout hm => ?_⟩
  · obtain ⟨d, ls, hrun⟩ := prepareOk_settles hw hn hj hd hb hreq hs hp hu
    rw [exec_linkReply hop', hrun]
    set x : State := updPart p.ref Participant.acknowledged { s with dir := d, links := ls } with hx
    have hxs : x.commit.state = .preparing := hs
    have hacks : acksOf x = s.commit.participants.map fun q => if q.ref = p.ref
        then (q.ref, q.acked + 1, if q.acked + 1 = (q.pairs.length + 5) / 6 then .prepared else q.status)
        else (q.ref, q.acked, q.status) := by
      rw [hx, acksOf, updPart, modCommit_commit, List.map_map]
      refine List.map_congr_left fun q _ => ?_
      dsimp only [Function.comp, Participant.acknowledged]
      split
      · split <;> simp [*]
      · rfl
    have hstat : statusesOf x = s.commit.participants.map fun q => (q.ref,
        if q.ref = p.ref ∧ q.acked + 1 = (q.pairs.length + 5) / 6 then .prepared else q.status) := by
      have h := congrArg (List.map fun y : Ref × Nat × PartStatus => (y.1, y.2.2)) hacks
      rw [acksOf, List.map_map, List.map_map] at h
      refine h.trans (List.map_congr_left fun q _ => ?_)
      dsimp only [Function.comp]
      split <;> simp [*]
    obtain ⟨-, hwaits, harms⟩ := preparesOn_of (s := s) (x := x) hs rfl s.port.completions.length hstat
    obtain ⟨-, hport, hepoch, hstaging, hstore, hkeys, hboundary⟩ := finishEvent_preparing hxs (n := s.port.completions.length) (Nat.le_refl _)
    refine ⟨_, rfl, (finishEvent_acks _ hxs).trans hacks, fun hw => hwaits ?_, fun hq ha => harms ?_, hepoch, hstaging, hstore, hkeys, hport,
      hboundary⟩
    · rcases hw with ⟨q, hq, hqr, hqs⟩ | ha
      · exact ⟨_, List.mem_map.mpr ⟨q, hq, rfl⟩, by simp [hqr, hqs]⟩
      · exact ⟨_, List.mem_map.mpr ⟨p, hp.mem, rfl⟩, by simp [ha, hu]⟩
    · rintro y hy
      obtain ⟨q, hqm, rfl⟩ := List.mem_map.mp hy
      by_cases hqr : q.ref = p.ref
      · rw [hp.only q hqm hqr]
        simp [ha]
      · simpa [hqr] using hq q hqm hqr
  · obtain ⟨x, hrun⟩ := prepareFails hsound.directory hc hs hends hp hu hl ht hr href hout hm
    obtain ⟨hlist, hloc⟩ := counted_listed hsound.directory hc (by rw [hs]; decide) hp (.inl hu) hr href
    have hnames : Names s r.ref r := hlist.2.1
    set y : State := heardHub l now x r (missOf out r.miss) s with hy
    have hys : y.commit.state = .preparing := hs
    have hynames : Names y p.ref { r with miss := missOf out r.miss } := by
      have h := (hnames.of_dir (s' := vacated l now x s) rfl).updRec r.ref.handle (f := fun y => { y with miss := missOf out r.miss }) fun _ => rfl
      rw [if_pos rfl, href] at h
      rw [hy, heardHub, href]
      exact h
    have hreach : partReachable y p = true := partReachable_iff.mpr ⟨_, hynames.findRef, hlist.2.2, hloc⟩
    have hout' : outOf (exclude p y) = outOf y := exclude_outOf p y
    refine ⟨_, hrun, ?_, fun hpol s₀ hs₀ => ?_, fun hpol => ?_⟩
    · rw [finishEvent_now]
      unfold failParticipant
      split
      · obtain ⟨_, _, heq, -⟩ := enterCancelling_eq (.prepareFailed p.ref) y
        rw [heq]
        rfl
      · exact congrArg (fun z => z.1) hout'
    · rw [failParticipant_strict (s := y) hpol]
      obtain ⟨c', ls, heq, -⟩ := enterCancelling_eq (.prepareFailed p.ref) y
      have hport : (enterCancelling (.prepareFailed p.ref) y).port = s.port := by rw [heq]; rfl
      have henter : EntersCancelling y (finishEvent s.port.completions.length (enterCancelling (.prepareFailed p.ref) y)) (.prepareFailed p.ref) :=
        entersCancelling (s := y) (p := (enterCancelling (.prepareFailed p.ref) y).port) (.of_eq (by rw [hport]; rfl) (by rw [hport]; rfl))
      subst hs₀
      refine henter.congr ?_ rfl rfl rfl rfl rfl rfl fun k => ?_
      · exact (updRec_named (s := vacated l now x s) hnames fun y => { y with miss := missOf out r.miss }).symm
      · rw [hy, heardHub]
        show ((s.links.put l _).get k).cancelOutstanding = ((s.links.put l _).get k).cancelOutstanding
        rw [Quad.get_put, Quad.get_put]
        split <;> rfl
    · rw [failParticipant_lenient (s := y) hpol]
      have hapart : (exclude p y).commit.apart = s.commit.apart := congrArg (fun z => z.2.2.2.2.2.2.2) hout'
      have hes : (exclude p y).commit.state = .preparing := (congrArg CommitCtl.state hapart :).trans hs
      have hcomps : (exclude p y).port.completions = s.port.completions := congrArg (fun z => z.2.2.2.2.2.1) hout'
      have hnow : (exclude p y).now = now := congrArg (fun z => z.1) hout'
      have hstat : statusesOf (exclude p y) = (statusesOf s).map fun x => if x.1 = p.ref then (x.1, .excluded) else x := exclude_statuses p y
      obtain ⟨hend, hwaits, harms⟩ := preparesOn_of (s := s) (x := exclude p y) hs hapart s.port.completions.length hstat
      have hexcluded := exclude_names hynames p
      rw [if_pos hreach] at hexcluded
      have hq := exclude_commitQ hreach
      rw [hl] at hq
      obtain ⟨e', he'⟩ : ∃ e', finishEvent s.port.completions.length (exclude p y) = finishLinks s.port.completions.length e'
          ∧ e'.links = (exclude p y).links ∧ e'.dir = (exclude p y).dir := by
        refine ⟨_, rfl, ?_⟩
        unfold settleCommit
        rw [hes]
        dsimp only
        split <;> exact ⟨rfl, rfl⟩
      obtain ⟨hfin, hlinks, hdir⟩ := he'
      refine ⟨hend, fun ⟨q, hq', hqr, hqs⟩ => hwaits ?_, fun hno => ?_, ?_, fun t ht' hreq => ?_, fun hreached => ?_⟩
      · exact ⟨_, List.mem_map.mpr ⟨_, List.mem_map.mpr ⟨q, hq', rfl⟩, rfl⟩, by simp [hqr, hqs]⟩
      · rw [hnow] at harms
        refine (fun h : _ ∧ _ ∧ _ => ⟨h.1, h.2.2⟩) (harms fun z hz => ?_)
        obtain ⟨w, hw, rfl⟩ := List.mem_map.mp hz
        obtain ⟨q, hqm, rfl⟩ := List.mem_map.mp hw
        dsimp only
        split
        · nofun
        · next hne => exact hno q hqm hne
      · rw [hfin, finishLinks_dir, hdir]
        refine ⟨_, hexcluded.1.mem, ?_⟩
        have hhandle : r.ref.handle = p.ref.handle := congrArg Ref.handle href
        simp only [Record.lagged, hhandle, true_and, missOf]
        split <;> simp [*]
      · obtain ⟨sent, hsent, -⟩ := finishLinks_commitQ s.port.completions.length e' l
        rw [hlinks, hq] at hsent
        have hmem := hsent ▸ List.mem_append_right sent (hfin ▸ ht')
        rcases List.mem_append.mp hmem with hm | hm
        · have := (List.mem_filter.mp hm).2
          simpa [hreq] using this
        · split at hm
          · rw [List.mem_singleton.mp hm]
            rfl
          · cases hm
      · rw [hfin]
        refine finishLinks_toCome ?_
        rw [hlinks, hq, if_pos hreached]
        exact List.mem_append_right _ (List.mem_singleton.mpr rfl)

end Sys2Proof.Machine
end

section
/-! PROOFS. Participants lost to links taken down, and the end of the last CANCEL (O29). -/

namespace Sys2Proof.Machine

/-! ### What is lost with the links taken down -/

/-- The reachable records on the links of a test. -/
def reachableOn (s : State) (test : LinkId → Bool) : List Record := s.dir.records.filter fun r => r.reachable && test r.loc.link

theorem recordsOn_eq (s : State) (test : LinkId → Bool) : recordsOn s test = (reachableOn s test).map fun r => r.ref.handle := rfl

theorem mem_reachableOn {s : State} {test : LinkId → Bool} {r : Record} :
    r ∈ reachableOn s test ↔ r ∈ s.dir.records ∧ r.state ≠ .stale ∧ test r.loc.link = true := by
  simp [reachableOn, Record.reachable]

/-- The claims on the records of links taken down are of those records, in handle order. -/
theorem claimedRefs_recordsOn {s x : State} (hd : DirectorySound s) (hx : x.dir.records = s.dir.records) (test : LinkId → Bool) (why : StaleReason) :
    claimedRefs ((recordsOn s test).map fun h => (h, why)) x = (reachableOn s test).map Record.ref := by
  rw [recordsOn_eq, claimedRefs, List.map_map, List.filterMap_map, ← List.filterMap_eq_map]
  refine List.filterMap_congr fun r hr => ?_
  obtain ⟨hmem, hst, -⟩ := mem_reachableOn.mp hr
  have hfind : findRec x r.ref.handle = some r := by
    rw [findRec, hx]
    exact (hd.names hmem).findRec
  simp [hfind, Record.reachable, hst]

/-- What the taking down of an engine leaves alone of a commit's course. -/
theorem takeDownEngine_keeps (l : LinkId) (target : LinkState) (s : State) :
    (takeDownEngine l target s).now = s.now ∧ (takeDownEngine l target s).commit = s.commit ∧ Extends s (takeDownEngine l target s) := by
  have hends : Aside (modLink l (LinkEngine.down target s.now) s) (forEach (hostTags (s.links.get l) ++ rescanTag (s.links.get l))
      (endRunning .notReachable) (modLink l (LinkEngine.down target s.now) s)) := .forEach (fun t s => .endRunning _ t s) _
  have hdown : Extends s (modLink l (LinkEngine.down target s.now) s) := .of_eq rfl rfl
  unfold takeDownEngine
  dsimp only
  generalize forEach (hostTags (s.links.get l) ++ rescanTag (s.links.get l)) (endRunning .notReachable)
    (modLink l (LinkEngine.down target s.now) s) = s₁ at hends ⊢
  have haside : Aside s₁ (raiseLink l .linkDown (match (s.links.get l).assigning with
      | some a => dropAssignment l a s₁
      | none => s₁)) := by
    refine Aside.trans ?_ (.raiseLink ..)
    split
    · unfold dropAssignment
      dsimp only
      refine Aside.trans ?_ (noticeId_aside ..)
      split
      · exact ((Aside.modDir ..).trans (.ofLink _ rfl)).trans ((Aside.modDir ..).trans (noticeHandle_aside _))
      · exact (Aside.modDir ..).trans (.ofLink _ rfl)
    · exact .refl _
  have hall := hends.trans haside
  exact ⟨hall.now, hall.commit, hdown.trans hall.ext⟩

theorem clearLink_keeps (l : LinkId) (s : State) :
    (clearLink l s).now = s.now ∧ (clearLink l s).commit = s.commit ∧ Extends s (clearLink l s) := by
  unfold clearLink
  split
  · exact ⟨rfl, rfl, .refl s⟩
  · exact ⟨rfl, rfl, .of_eq rfl rfl⟩
  · exact takeDownEngine_keeps ..
  · exact takeDownEngine_keeps ..

theorem clearLinks_keeps (ls : List LinkId) (s : State) : (forEach ls clearLink s).now = s.now ∧ (forEach ls clearLink s).commit = s.commit
    ∧ Extends s (forEach ls clearLink s) ∧ (forEach ls clearLink s).dir.records = s.dir.records :=
  ⟨forEach_keeps (fun s : State => s.now) fun l s => (clearLink_keeps l s).1, forEach_keeps (fun s : State => s.commit) fun l s => (clearLink_keeps l s).2.1,
    .forEach (fun l s => (clearLink_keeps l s).2.2) s, forEach_keeps (fun s : State => s.dir.records) fun l s => HubMid.clearLink_records l s⟩

/-! ### The commit meets the losses of links -/

/-- The first participant that counts among references in handle order is the one of the lowest handle. -/
theorem firstLost_lowest {s : State} {refs : List Ref} (horder : refs.Pairwise fun a b => a.handle < b.handle) {ref : Ref}
    (h : firstLost s refs = some ref) {p : Participant} (hp : p ∈ s.commit.participants) (hc : p.counts) (hr : p.ref ∈ refs)
    (hlow : ∀ q ∈ s.commit.participants, q.ref ∈ refs → q.counts → p.ref.handle ≤ q.ref.handle) : p.ref = ref := by
  obtain ⟨hany, before, after, hsplit, hbefore⟩ := List.find?_eq_some_iff_append.mp h
  obtain ⟨q, hq, hqc⟩ := List.any_eq_true.mp hany
  simp only [Bool.and_eq_true, beq_iff_eq, decide_eq_true_eq] at hqc
  have hle := hlow q hq (by rw [hqc.1, hsplit]; simp) hqc.2
  rw [hqc.1] at hle
  have hnot : p.ref ∉ before := fun hm => by
    have := hbefore _ hm
    simp only [Bool.not_eq_true', List.any_eq_false, Bool.and_eq_true, beq_iff_eq, decide_eq_true_eq] at this
    exact this p hp ⟨rfl, hc⟩
  rw [hsplit] at hr horder
  rcases List.mem_append.mp hr with hm | hm
  · exact absurd hm hnot
  · rcases List.mem_cons.mp hm with he | hm
    · exact he
    · have := (List.pairwise_cons.mp (List.pairwise_append.mp horder).2.1).1 _ hm
      omega

/-- The records of the links of a test have been claimed STALE in an event, and nothing else of a commit's course has changed: the
commit has met the loss of the participants there. -/
theorem commitMeets_links {s x : State} (hd : DirectorySound s) (hc : CommitSound s) (hx : x.dir.records = s.dir.records)
    (hm : Met s s.now [] x) (test : LinkId → Bool) (why : StaleReason) {y : State}
    (ha : s.commit.state ≠ .cancelling → Aside (claimStaleAll ((recordsOn s test).map fun h => (h, why)) x) y) :
    CommitMeets s (finishEvent s.port.completions.length y) s.now (fun p => test p.loc.link) (fun p => p.ref.handle) := by
  by_cases hstate : s.commit.state = .cancelling
  · exact commitMeets_of_state (.inr hstate)
  have hmet := (hm.claims ⟨hc.statuses, hc.participants, hstate⟩ ((recordsOn s test).map fun h => (h, why))).aside (ha hstate)
  rw [claimedRefs_recordsOn hd hx, List.nil_append] at hmet
  have hrefs : ∀ p ∈ s.commit.participants, p.counts → (test p.loc.link = true ↔ p.ref ∈ (reachableOn s test).map Record.ref) := fun p hp hcounts => by
    obtain ⟨r, hr, href⟩ := hc.participantRecords p hp
    obtain ⟨hlist, hloc⟩ := counted_listed hd hc hstate hp hcounts hr href
    refine ⟨fun ht => List.mem_map.mpr ⟨r, mem_reachableOn.mpr ⟨hr, hlist.2.2, by rw [hloc]; exact ht⟩, href⟩, fun h => ?_⟩
    obtain ⟨q, hq, hqr⟩ := List.mem_map.mp h
    obtain ⟨hqm, -, hqt⟩ := mem_reachableOn.mp hq
    have hqe : q = r := hlist.2.1.1.only q hqm (congrArg Ref.handle (hqr.trans href.symm))
    rw [hqe, hloc] at hqt
    exact hqt
  refine hmet.commitMeets hc.statuses hrefs fun ref hfirst p hp hl hcounts hlow => ?_
  refine firstLost_lowest ?_ hfirst hp hcounts ((hrefs p hp hcounts).mp hl) fun q hq hqr hqc => hlow q hq ((hrefs q hq hqc).mpr hqr) hqc
  exact List.pairwise_map.mpr (hd.order.filter _)

theorem exec_lockLoss {s : State} (h : s.phase = .operating) (l : LinkId) : exec (.lockLoss l) s = .next (lockLoss l s) :=
  congrArg _ (whenOperating_of h _)

theorem exec_linkDisable {s : State} {b : Byte} {t : Tag} (h : Accepts s b t) (n : Byte) :
    exec (.linkDisable b n) s = .next (linkDisable n t (received 1 s)) := congrArg _ (submit_accepts h 1 (linkDisable n))

theorem exec_clearLinks {s : State} {b : Byte} {t : Tag} (h : Accepts s b t) :
    exec (.clearLinks b) s = .next (clearLinks t (received 1 s)) := congrArg _ (submit_accepts h 1 clearLinks)

theorem lockLoss_up {s : State} {l : LinkId} (h : (s.links.get l).isUp = true) :
    lockLoss l s = finishEvent s.port.completions.length (takeDown l .training s) := if_pos h

theorem linkDisable_up {s : State} {n : Byte} {l : LinkId} (hn : n.toNat = l.val) (h : (s.links.get l).isUp = true) (t : Tag) :
    linkDisable n t s = finishEvent s.port.completions.length (answerOk .linkDisable [] t (takeDown l .disabled s)) := by
  have hl : linkOf n = some l := linkOf_eq_some hn
  rcases isUp_iff.mp h with hs | hs <;> simp only [linkDisable, hl, hs]

/-- O29, the participants lost. -/
theorem takesDown_meets {s : State} (hd : DirectorySound s) (hc : CommitSound s) {c : Instr} {gone : LinkId → Bool} (h : TakesDown s c gone) :
    ∃ s', exec c s = .next s' ∧ CommitMeets s s' s.now (fun p => gone p.loc.link) (fun p => p.ref.handle) := by
  rcases h with ⟨l, rfl, hop, hup, rfl⟩ | ⟨b, n, t, l, rfl, hacc, hn, hup, rfl⟩ | ⟨b, t, rfl, hacc, -, rfl⟩
  · obtain ⟨hnow, hcommit, hext⟩ := takeDownEngine_keeps l .training s
    rw [exec_lockLoss hop, lockLoss_up hup]
    exact ⟨_, rfl, commitMeets_links hd hc (takeDownEngine_records ..) (.start hnow hcommit hext) (fun k => k == l) .linkDown fun _ => .refl _⟩
  · obtain ⟨hnow, hcommit, hext⟩ := takeDownEngine_keeps l .disabled (received 1 s)
    have hreceived : Extends s (received 1 s) := .of_eq rfl rfl
    rw [exec_linkDisable hacc, linkDisable_up (s := received 1 s) hn hup]
    exact ⟨_, rfl, commitMeets_links hd hc (takeDownEngine_records l .disabled (received 1 s)) (.start hnow hcommit (hreceived.trans hext))
      (fun k => k == l) .linkDown fun _ => ⟨rfl, complete_extends ..⟩⟩
  · obtain ⟨hnow, hcommit, hext, hrec⟩ := clearLinks_keeps fours.reverse (beginClear t (received 1 s))
    have hbegin : Extends s (beginClear t (received 1 s)) := by
      refine ⟨⟨[], (List.append_nil _).symm⟩, fun u hu => ?_⟩
      show (s.port.tags.put t _).get u = _
      rw [Quad.get_put, if_neg, hu]
      rintro rfl
      rw [hacc.tagFree] at hu
      cases hu
    rw [exec_clearLinks hacc]
    exact ⟨_, rfl, commitMeets_links hd hc hrec (.start hnow hcommit (hbegin.trans hext)) (fun k => (s.links.get k).state != .disabled) .cleared
      fun _ => ⟨rfl, .of_eq rfl rfl⟩⟩

/-! ### The end of a CANCEL (R85) -/

theorem Names.settleCommit {s : State} {ref : Ref} {r : Record} (hn : Names s ref r) (hs : r.stale = none) :
    Names (Machine.settleCommit s) ref r := by
  have hcomplete : ∀ st qual res, Names (completeCommit st qual res s) ref r := fun st qual res => hn.of_dir (by
    unfold completeCommit
    split <;> rfl)
  unfold Machine.settleCommit
  split
  · split
    · exact hn
    · exact hn.of_dir rfl
  · split
    · exact hn
    · exact (hcomplete ..).returnToIdle hs true
  · split
    · exact hn
    · exact (hcomplete ..).returnToIdle hs false
  · exact hn

/-- A named record that is not STALE is the same at the end of the event. -/
theorem Names.finishEvent {s : State} {ref : Ref} {r : Record} (hn : Names s ref r) (hs : r.stale = none) (n : Nat) :
    Names (Machine.finishEvent n s) ref r := (hn.settleCommit hs).of_dir (congrArg Directory.records (finishLinks_dir ..))

theorem claimLagging_links (h : Nat) (s : State) : (claimLagging h s).links = s.links := by
  have hjob : ∀ x, (makeJob h x).links = x.links := fun x => by
    unfold makeJob
    split
    · split <;> rfl
    · rfl
  unfold claimLagging
  split
  · split
    · rw [hjob]; rfl
    · rfl
  · rfl

theorem participantReplied_cancel (ref : Ref) (e : Half) (st : TileStatus) (reply : ReplyBody) (s : State) :
    participantReplied ref (.cancel e) st reply s = s := by
  unfold participantReplied
  split <;> rfl

theorem participantNoReply_cancel {s : State} {p : Participant} (hp : findPart s p.ref = some p) {r : Record} (hn : Names s p.ref r) (e : Half)
    (limit : Bool) : participantNoReply p.ref (.cancel e) limit s = claimLagging p.ref.handle s := by
  simp only [participantNoReply, hp, hn.findRef]
  split
  · rfl
  · next hr =>
    have hfind : findRec s p.ref.handle = some r := hn.findRec
    simp only [claimLagging, hfind, if_neg hr]

theorem heardHub_names {s : State} {r : Record} (hn : Names s r.ref r) (l : LinkId) (now : Nat) (x : Option Expiry) (m : Nat) :
    Names (heardHub l now x r m s) r.ref { r with miss := m } := by
  have h := (hn.of_dir (s' := vacated l now x s) rfl).updRec r.ref.handle (f := fun y => { y with miss := m }) fun _ => rfl
  rwa [if_pos rfl] at h

theorem heardHub_extends {l : LinkId} {now : Nat} {x : Option Expiry} {r : Record} {m : Nat} {s : State} :
    Extends s (heardHub l now x r m s) := .of_eq rfl rfl

/-- The record of a participant whose CANCEL has ended. -/
def cancelledRecord (out : Option (TileStatus × ReplyBody)) (r : Record) : Record :=
  { r with miss := missOf out r.miss, state := if out = none ∧ r.state = .active then .lagging else r.state }

/-- What the end of a CANCEL makes of the hub before the controller's tests. -/
structure CancelEnded (s : State) (l : LinkId) (now : Nat) (out : Option (TileStatus × ReplyBody)) (r : Record) (z : State) : Prop where
  now : z.now = now
  commit : z.commit = s.commit
  ext : Extends s z
  named : Names z r.ref (cancelledRecord out r)
  here : (z.links.get l).cancelOutstanding = (s.links.get l).commitQ.any Txn.isCancel
  elsewhere : ∀ k, k ≠ l → z.links.get k = s.links.get k

theorem cancelEnded {s : State} {l : LinkId} {f : Flight} {c : Instr} {out : Option (TileStatus × ReplyBody)} {now : Nat} {p : Participant}
    {r : Record} {e : Half} (hd : DirectorySound s) (hc : CommitSound s) (hends : Ends s l f c out now) (hp : p ∈ s.commit.participants)
    (ht : f.txn = partTxn p (.cancel e)) (hr : r ∈ s.dir.records) (href : r.ref = p.ref) (hst : r.state ≠ .stale)
    (hloc : r.loc = ⟨l, p.loc.hop⟩) (hm : out = none → r.miss + 1 < (s.links.get l).timing.missLimit) :
    ∃ z, exec c s = .next (finishEvent s.port.completions.length z) ∧ CancelEnded s l now out r z := by
  obtain ⟨x, hx⟩ := hends.directed (hop := p.loc.hop) (by rw [ht]; rfl)
  have hlist := hd.listedAt hr hst
  rw [hloc] at hlist
  have hlist' : ListedAt (vacated l now x s) l p.loc.hop r := hlist.of_eq rfl (vacated_hops ..)
  rw [directedEnds_heard hlist' (by rw [ht]; rfl) (by rw [vacated_link]; exact hm)] at hx
  have hnames := heardHub_names hlist.2.1 l now x (missOf out r.miss)
  have hfind : findPart (heardHub l now x r (missOf out r.miss) s) p.ref = some p :=
    findPart_sole (by rw [heardHub_commit]; exact sole_of_nodup hc.participants hp)
  have hhere : ((vacated l now x s).links.get l).cancelOutstanding = (s.links.get l).commitQ.any Txn.isCancel := by
    rw [vacated_link]
    exact Bool.or_false _
  cases out with
  | none =>
    have hreq : requesterNoReply l p.loc.hop f.txn false (heardHub l now x r (missOf none r.miss) s)
        = claimLagging p.ref.handle (heardHub l now x r (missOf none r.miss) s) := by
      rw [← participantNoReply_cancel hfind (href ▸ hnames) e false, ht]
      rfl
    have haside := claimLagging_aside p.ref.handle (heardHub l now x r (missOf none r.miss) s)
    have hlag := hnames.claimLagging p.ref.handle
    refine ⟨_, hx.trans (congrArg (fun y => Host.Outcome.next (finishEvent s.port.completions.length y)) hreq), ?_⟩
    refine ⟨haside.now, haside.commit, heardHub_extends.trans haside.ext, ?_, ?_, fun k hk => ?_⟩
    · have hhandle : r.ref.handle = p.ref.handle := congrArg Ref.handle href
      have heq : cancelledRecord none r = Record.lagged p.ref.handle { r with miss := missOf none r.miss } := by
        simp only [Record.lagged, hhandle, true_and, cancelledRecord]
        split <;> rfl
      rw [heq]
      exact hlag
    · rw [claimLagging_links]
      exact hhere
    · rw [claimLagging_links]
      exact vacated_other hk now x s
  | some o =>
    obtain ⟨st, reply⟩ := o
    have hreq : requesterReplied l p.loc.hop f.txn st reply (heardHub l now x r (missOf (some (st, reply)) r.miss) s)
        = heardHub l now x r (missOf (some (st, reply)) r.miss) s := by
      rw [ht]
      exact participantReplied_cancel p.ref e st reply _
    refine ⟨_, hx.trans (congrArg (fun y => Host.Outcome.next (finishEvent s.port.completions.length y)) hreq), ?_⟩
    have heq : cancelledRecord (some (st, reply)) r = { r with miss := missOf (some (st, reply)) r.miss } := by simp [cancelledRecord]
    exact ⟨rfl, rfl, .of_eq rfl rfl, heq ▸ hnames, hhere, fun k hk => vacated_other hk now x s⟩

/-- Settles O29. -/
theorem lostParticipantsAndCancelsEnd : Obligations.LostParticipantsAndCancelsEnd := by
  unfold Obligations.LostParticipantsAndCancelsEnd
  intro s _ hsound hc
  refine ⟨fun c gone h => takesDown_meets hsound.directory hc h, fun l f c out now p r reason hs hreason hends hp ht hr href hst hloc hm => ?_⟩
  obtain ⟨z, hrun, hnow, hcommit, hext, hnamed, hhere, helse⟩ := cancelEnded hsound.directory hc hends hp ht hr href hst hloc hm
  have hzs : z.commit.state = .cancelling := by rw [hcommit, hs]
  have hothers : ((s.links.get l).commitQ.any Txn.isCancel = true ∨ ∃ k, k ≠ l ∧ (s.links.get k).cancelOutstanding = true)
      ↔ ∃ k, (z.links.get k).cancelOutstanding = true := by
    refine ⟨fun h => ?_, fun ⟨k, hk⟩ => ?_⟩
    · rcases h with h | ⟨k, hk, h⟩
      · exact ⟨l, hhere.trans h⟩
      · exact ⟨k, by rw [helse k hk]; exact h⟩
    · by_cases hkl : k = l
      · subst hkl
        exact .inl (hhere.symm.trans hk)
      · exact .inr ⟨k, hkl, by rw [← helse k hkl]; exact hk⟩
  have hstale : r.stale = none := by
    have := hsound.directory.staleInfo r hr
    by_contra hne
    exact hst (this.mp hne)
  refine ⟨_, hrun, (finishEvent_now ..).trans hnow, fun ho => ?_, fun ho => ?_, ?_⟩
  · rw [finishEvent, settle_cancelling_waits hzs (hothers.mp ho)]
    exact ⟨(finishLinks_commit_state ..).trans hzs, (finishLinks_commit_reason ..).trans (by rw [hcommit, hreason]),
      (finishLinks_commit_tag ..).trans (by rw [hcommit])⟩
  · have hend := settle_cancelling_ends hzs (fun h => ho (hothers.mpr h)) (reason := reason) (by rw [hcommit, hreason])
    obtain ⟨h1, -, h3, -, -⟩ := hend.finish hext rfl
    rw [hcommit] at h1 h3
    exact ⟨h1, h3⟩
  · exact ⟨_, (hnamed.finishEvent hstale _).1.mem, rfl⟩

end Sys2Proof.Machine
end

section
/-! PROOFS. What the hops of a roll call leave of the records and of a running commit, hop by hop (R144). -/

namespace Sys2Proof.Machine

/-! ### A named record after a claim to STALE -/

/-- A record after a claim to STALE of the record of a handle. -/
def Record.claimed (n now : Nat) (why : StaleReason) (r : Record) : Record :=
  if r.ref.handle = n ∧ r.state ≠ .stale then r.lost now why else r

theorem Names.claimStaleDir {s : State} {ref : Ref} {r : Record} (hn : Names s ref r) (n : Nat) (why : StaleReason) :
    Names (Machine.claimStaleDir n why s) ref (r.claimed n s.now why) := by
  have hfind := hn.findRec
  by_cases hh : r.ref.handle = n
  · have href : ref.handle = n := by rw [← hn.ref_eq, hh]
    rw [href] at hfind
    by_cases hst : r.state = .stale
    · have hsame : r.claimed n s.now why = r := if_neg fun h => h.2 hst
      rw [hsame, claimStaleDir_idle fun x hx => by rw [hfind] at hx; cases hx; exact hst]
      exact hn
    · have hlost : r.claimed n s.now why = r.lost s.now why := if_pos ⟨hh, hst⟩
      rw [hlost]
      have h := hn.updRec n (f := fun x => x.lost s.now why) fun _ => rfl
      rw [if_pos href] at h
      exact h.of_dir (congrArg Directory.records (claimStaleDir_dir hfind hst why) :)
  · have hsame : r.claimed n s.now why = r := if_neg fun h => hh h.1
    rw [hsame]
    by_cases hc : ∃ x, Machine.findRec s n = some x ∧ x.state ≠ .stale
    · obtain ⟨x, hx, hst⟩ := hc
      have h := hn.updRec n (f := fun x => x.lost s.now why) fun _ => rfl
      rw [if_neg (by rw [← hn.ref_eq]; exact hh)] at h
      exact h.of_dir (congrArg Directory.records (claimStaleDir_dir hx hst why) :)
    · push Not at hc
      rw [claimStaleDir_idle hc]
      exact hn

theorem claimStale_dir (n : Nat) (why : StaleReason) (s : State) : (claimStale n why s).dir = (claimStaleDir n why s).dir := by
  obtain ⟨c, ls, heq⟩ := claimStaleAll_eq [(n, why)] s
  rw [claimStale, heq]
  rfl

theorem Names.claimStale {s : State} {ref : Ref} {r : Record} (hn : Names s ref r) (n : Nat) (why : StaleReason) :
    Names (Machine.claimStale n why s) ref (r.claimed n s.now why) :=
  (hn.claimStaleDir n why).of_dir (congrArg Directory.records (claimStale_dir ..))

theorem claimStale_entry {s : State} {ref : Ref} {r : Record} (hn : Names s ref r) (hst : r.state ≠ .stale) (why : StaleReason) {l : LinkId}
    {hop : Nat} (hne : r.loc ≠ ⟨l, hop⟩) : ((claimStale ref.handle why s).links.get l).entry hop = (s.links.get l).entry hop := by
  rw [claimStale, calm_entry (claimStaleAll_calm ..)]
  show ((claimStaleDir ref.handle why s).links.get l).entry hop = _
  rw [calm_entry (claimStaleDir_calm hn.findRec hst), unlistHop_entry, if_neg fun h => hne h.1]

theorem claimStale_assigning (n : Nat) (why : StaleReason) (s : State) (l : LinkId) :
    ((claimStale n why s).links.get l).assigning = (s.links.get l).assigning := by
  rw [claimStale, calm_assigning (claimStaleAll_calm ..)]
  show ((claimStaleDir n why s).links.get l).assigning = _
  by_cases hc : ∃ r, findRec s n = some r ∧ r.state ≠ .stale
  · obtain ⟨r, hr, hst⟩ := hc
    rw [calm_assigning (claimStaleDir_calm hr hst), unlistHop, modLink_links, Quad.get_modify]
    split
    · next h =>
      subst h
      split <;> rfl
    · rfl
  · push Not at hc
    rw [claimStaleDir_idle hc]

/-! ### The places of the participants -/

/-- The references and places of the participants. -/
def placesOf (s : State) : List (Ref × Loc) := s.commit.participants.map fun p => (p.ref, p.loc)

theorem updPart_places {f : Participant → Participant} (hf : ∀ p, ((f p).ref, (f p).loc) = (p.ref, p.loc)) (ref : Ref) (s : State) :
    placesOf (updPart ref f s) = placesOf s := by
  simp only [placesOf, updPart, modCommit_commit, List.map_map]
  refine List.map_congr_left fun p _ => ?_
  dsimp only [Function.comp]
  split
  · exact hf p
  · rfl

theorem enterCancelling_places (reason : CancelReason) (s : State) : placesOf (enterCancelling reason s) = placesOf s := by
  have hcancel : ∀ p x, placesOf (queueCancel p x) = placesOf x := fun p x =>
    updPart_places (f := fun p => { p with cancelSent := true }) (fun _ => rfl) p.ref _
  unfold enterCancelling
  exact forEach_keeps placesOf hcancel

theorem participantLost_places {ref : Ref} {x : State} (hst : ∀ p, p.ref = ref → partReachable x p = false) :
    placesOf (participantLost ref x) = placesOf x := by
  cases hp : findPart x ref with
  | none => rw [participantLost_none hp]
  | some p =>
    by_cases hf : failsIn x.commit.state p.status
    · by_cases hpol : x.commit.policy ≠ some .strict ∨ x.commit.state = .applying
      · obtain ⟨ls, heq⟩ := participantLost_excludes hp (hst p (findPart_ref hp)) hf hpol
        rw [heq]
        exact updPart_places (f := fun p => { p with status := .excluded }) (fun _ => rfl) ref x
      · push Not at hpol
        rw [participantLost_cancels hp hf hpol.1 hpol.2]
        exact enterCancelling_places ..
    · rw [participantLost_passes hp hf]
      rfl

theorem claimStale_places {s : State} {ref : Ref} {r : Record} (hn : Names s ref r) (hst : r.state ≠ .stale) (why : StaleReason) :
    placesOf (claimStale ref.handle why s) = placesOf s := by
  have hrefs : claimedRefs [(ref.handle, why)] s = [r.ref] := by
    simp [claimedRefs, hn.findRec, Record.reachable, hst]
  have hstale : StaleRef (claimStaleDir ref.handle why s) r.ref := staleRef_claimed hn.findRec hst why
  rw [claimStale, claimStaleAll_def, hrefs]
  refine (participantLost_places fun p hp => hstale.unreachable hp).trans ?_
  exact congrArg (fun c : CommitCtl => c.participants.map fun p => (p.ref, p.loc)) (claimStaleDir_aside ref.handle why s).commit

end Sys2Proof.Machine
end

section
/-! PROOFS. The course of a roll call over the hops, in a sound hub (R144). -/

namespace Sys2Proof.Machine

/-! ### One hop -/

/-- The reference that a roll call does not find at a hop. -/
def lostAt (s : State) (l : LinkId) (entries : List RollEntry) (hop : Nat) : Option Ref :=
  match (s.links.get l).entry hop with
  | .listed ref => if entries[hop]?.map RollEntry.held = some ref then none else some ref
  | _ => none

/-- What the row of a hop that lists no record leaves alone. -/
structure HopPassed (l : LinkId) (hop : Nat) (x y : State) : Prop where
  aside : Aside x y
  dir : y.dir = x.dir
  assigning : (y.links.get l).assigning = (x.links.get l).assigning
  others : ∀ h, h ≠ hop → (y.links.get l).entry h = (x.links.get l).entry h

theorem rollScan_passed (l : LinkId) (hop : Nat) (x : State) : HopPassed l hop x (rollScan l hop x) ∧ calmLinks (rollScan l hop x) = calmLinks x := by
  have hcause : ∀ e : LinkEngine, (if e.state = .running then e.cause hop else e).calm = e.calm := fun e => by
    split
    · exact cause_calm hop e
    · rfl
  have hcalm : calmLinks (rollScan l hop x) = calmLinks x := modLink_calm hcause
  refine ⟨⟨.ofLink x ?_, rfl, calm_assigning hcalm l, fun h _ => calm_entry hcalm l h⟩, hcalm⟩
  split
  · exact cause_commitQ ..
  · rfl

theorem setHop_passed (l : LinkId) (hop : Nat) (x : State) : HopPassed l hop x (setHop l hop .empty x) := by
  refine ⟨.ofLink x rfl, rfl, ?_, fun h hne => ?_⟩
  · rw [setHop, modLink_links, Quad.get_modify_self]
    rfl
  · rw [setHop, modLink_links, Quad.get_modify_self, EngineMid.entry_setEntry, if_neg fun hx => hne hx.1]

theorem HopPassed.refl (l : LinkId) (hop : Nat) (x : State) : HopPassed l hop x x := ⟨.refl x, rfl, rfl, fun _ _ => rfl⟩

theorem rollHop_vacant {l : LinkId} {hop : Nat} {x : State} (h : ∀ ref, (x.links.get l).entry hop ≠ .listed ref) (entries : List RollEntry) :
    HopPassed l hop x (rollHop l entries hop x) := by
  unfold rollHop
  split
  · exact .refl ..
  · split
    · next ref _ he _ => exact absurd he (h ref)
    · next ref he _ => exact absurd he (h ref)
    · exact (rollScan_passed l hop x).1
    · exact .refl ..
    · exact .refl ..
    · exact setHop_passed l hop x

theorem rollHop_found {l : LinkId} {hop : Nat} {x : State} {ref : Ref} {e : RollEntry} {entries : List RollEntry}
    (hp : (x.links.get l).passedOver hop = false) (hl : (x.links.get l).entry hop = .listed ref) (he : entries[hop]? = some e)
    (hh : e.held = ref) : rollHop l entries hop x = updRec ref.handle (fun r => { r with miss := 0 }) x := by
  simp only [rollHop, hp, hl, he, hh, if_true, Bool.false_eq_true, if_false]

theorem rollHop_replaced {l : LinkId} {hop : Nat} {x : State} {ref : Ref} {e : RollEntry} {entries : List RollEntry}
    (hp : (x.links.get l).passedOver hop = false) (hl : (x.links.get l).entry hop = .listed ref) (he : entries[hop]? = some e)
    (hh : e.held ≠ ref) : rollHop l entries hop x = rollScan l hop (loseHop l hop ref .replaced x) := by
  simp only [rollHop, hp, hl, he, hh, Bool.false_eq_true, if_false]

theorem rollHop_unreached {l : LinkId} {hop : Nat} {x : State} {ref : Ref} {entries : List RollEntry}
    (hp : (x.links.get l).passedOver hop = false) (hl : (x.links.get l).entry hop = .listed ref) (he : entries[hop]? = none) :
    rollHop l entries hop x = loseHop l hop ref .unreached x := by
  simp only [rollHop, hp, hl, he, Bool.false_eq_true, if_false]

/-! ### The rows of the records (R144) -/

section Rows

variable {s : State} {l : LinkId} {entries : List RollEntry} {now : Nat} {r : Record}

theorem rolledRecord_elsewhere (h : r.state = .stale ∨ r.loc.link ≠ l) : rolledRecord s l entries now r = r := if_pos h

/-- A hop that lists a record is not passed over. -/
theorem not_passedOver_of_listed (hs : LinkSound (s.links.get l)) {hop : Nat} {ref : Ref} (h : (s.links.get l).entry hop = .listed ref) :
    (s.links.get l).passedOver hop = false := by
  unfold LinkEngine.passedOver
  split
  · next a ha =>
    refine Bool.eq_false_iff.mpr fun he => ?_
    rw [beq_iff_eq] at he
    exact (hs.assigned a ha).2 ref (he ▸ h)
  · rfl

theorem rolledRecord_listed (hp : (s.links.get l).passedOver r.loc.hop = false) (hst : r.state ≠ .stale) (hl : r.loc.link = l) :
    rolledRecord s l entries now r = match entries[r.loc.hop]? with
      | none => r.lost now .unreached
      | some x => if x.held = r.ref then { r with miss := 0 } else r.lost now .replaced := by
  have hsays : rollSays s l entries r.loc.hop = some entries[r.loc.hop]? := if_neg (by rw [hp]; decide)
  rw [rolledRecord, if_neg (fun h => h.elim hst fun h => h hl), hsays]
  cases entries[r.loc.hop]? <;> rfl

end Rows

/-! ### The course over the hops -/

/-- What a roll call has made of the hub when it has taken the hops below k. -/
structure Rolled (s : State) (l : LinkId) (entries : List RollEntry) (now k : Nat) (x : State) : Prop where
  met : Met s now ((List.range k).filterMap (lostAt s l entries)) x
  places : placesOf x = placesOf s
  assigning : (x.links.get l).assigning = (s.links.get l).assigning
  ahead : ∀ hop, k ≤ hop → (x.links.get l).entry hop = (s.links.get l).entry hop
  records : ∀ r ∈ s.dir.records, Names x r.ref (if r.loc.hop < k then rolledRecord s l entries now r else r)

section Course

variable {s x : State} {l : LinkId} {entries : List RollEntry} {now k : Nat}

theorem passedOver_congr {e e' : LinkEngine} (h : e'.assigning = e.assigning) (hop : Nat) : e'.passedOver hop = e.passedOver hop := by
  unfold LinkEngine.passedOver
  rw [h]

/-- The row of the hop is taken: what is lost there, the entries ahead, and the records. -/
theorem Rolled.step (h : Rolled s l entries now k x) {y : State} (hmet : Met s now ((List.range k).filterMap (lostAt s l entries) ++ (lostAt s l entries k).toList) y)
    (hplaces : placesOf y = placesOf x) (hassigning : (y.links.get l).assigning = (x.links.get l).assigning)
    (hothers : ∀ hop, hop ≠ k → (y.links.get l).entry hop = (x.links.get l).entry hop)
    (hrecords : ∀ r ∈ s.dir.records, ∀ r', Names x r.ref r' → (r.loc.hop = k → r' = r) →
      Names y r.ref (if r.loc.hop = k then rolledRecord s l entries now r else r')) : Rolled s l entries now (k + 1) y := by
  refine ⟨?_, hplaces.trans h.places, hassigning.trans h.assigning, fun hop hh => ?_, fun r hr => ?_⟩
  · rw [List.range_succ, List.filterMap_append]
    convert hmet using 1
    cases hl : lostAt s l entries k <;> simp [hl]
  · rw [hothers hop (by omega)]
    exact h.ahead hop (by omega)
  · have hn := hrecords r hr _ (h.records r hr) fun hk => if_neg (by omega)
    by_cases hk : r.loc.hop = k
    · rw [if_pos hk] at hn
      rwa [if_pos (by omega)]
    · rw [if_neg hk] at hn
      have hiff : r.loc.hop < k + 1 ↔ r.loc.hop < k := by omega
      rwa [if_congr hiff rfl rfl]

theorem placesOf_aside {a b : State} (h : Aside a b) : placesOf b = placesOf a := by
  rw [placesOf, h.commit]
  rfl

/-- The row of a hop that lists no record. -/
theorem Rolled.vacant (hd : DirectorySound s) (h : Rolled s l entries now k x) (hv : ∀ ref, (s.links.get l).entry k ≠ .listed ref) :
    Rolled s l entries now (k + 1) (rollHop l entries k x) := by
  obtain ⟨haside, hdir, hassigning, hothers⟩ := rollHop_vacant (x := x) (l := l) (hop := k) (fun ref => by rw [h.ahead k le_rfl]; exact hv ref) entries
  have hnone : lostAt s l entries k = none := by
    unfold lostAt
    split
    · next ref hl => exact absurd hl (hv ref)
    · rfl
  refine h.step ?_ (placesOf_aside haside) hassigning hothers
    fun r hr r' hn he => ?_
  · rw [hnone, Option.toList_none, List.append_nil]
    exact h.met.aside haside
  · by_cases hk : r.loc.hop = k
    · rw [if_pos hk, rolledRecord_elsewhere]
      · exact he hk ▸ hn.of_dir (congrArg Directory.records hdir)
      · by_contra hno
        push Not at hno
        obtain ⟨hst, hlink⟩ := hno
        have hlisted := (hd.listedAt hr hst).1
        rw [hlink, hk] at hlisted
        exact hv _ hlisted
    · rw [if_neg hk]
      exact hn.of_dir (congrArg Directory.records hdir)

/-- The row of a hop that lists a record: what becomes of the records when it is the only one that changes. -/
theorem rolled_others (hd : DirectorySound s) {ref : Ref} (hl : (s.links.get l).entry k = .listed ref) {r : Record} (hr : r ∈ s.dir.records)
    (hk : r.loc.hop = k) (hne : r.ref ≠ ref) : rolledRecord s l entries now r = r := by
  refine rolledRecord_elsewhere ?_
  by_contra hno
  push Not at hno
  obtain ⟨hst, hlink⟩ := hno
  have hlisted := (hd.listedAt hr hst).1
  rw [hlink, hk, hl] at hlisted
  exact hne (HopEntry.listed.inj hlisted).symm

/-- The row of a hop whose tile is the one listed. -/
theorem Rolled.found (hs : HubSound s) (h : Rolled s l entries now k x) {ref : Ref} (hl : (s.links.get l).entry k = .listed ref)
    {e : RollEntry} (he : entries[k]? = some e) (hh : e.held = ref) : Rolled s l entries now (k + 1) (rollHop l entries k x) := by
  have hpass := not_passedOver_of_listed (hs.links l) hl
  rw [rollHop_found ((passedOver_congr h.assigning k).trans hpass) ((h.ahead k le_rfl).trans hl) he hh]
  have hnone : lostAt s l entries k = none := by simp [lostAt, hl, he, hh]
  obtain ⟨r₀, hr₀, rfl, hst₀, hloc₀⟩ := (hs.directory.hops l k ref).mp hl
  refine h.step ?_ rfl rfl (fun _ _ => rfl) fun r hr r' hn hsame => ?_
  · rw [hnone, Option.toList_none, List.append_nil]
    exact h.met.aside (.updRec ..)
  · have hupd := hn.updRec r₀.ref.handle (f := fun r => { r with miss := 0 }) fun _ => rfl
    by_cases hrr : r = r₀
    · subst hrr
      have hk : r.loc.hop = k := by rw [hloc₀]
      have hrolled : rolledRecord s l entries now r = { r with miss := 0 } := by
        rw [rolledRecord_listed (by rw [hk]; exact hpass) hst₀ (by rw [hloc₀]), hk, he]
        exact if_pos hh
      rw [if_pos rfl, hsame hk] at hupd
      rw [if_pos hk, hrolled]
      exact hupd
    · have hne : r.ref.handle ≠ r₀.ref.handle := fun hq => hrr ((hs.directory.names hr₀).1.only r hr hq)
      rw [if_neg hne] at hupd
      split
      · next hk =>
        rw [rolled_others hs.directory hl hr hk fun hq => hne (congrArg Ref.handle hq)]
        exact hsame hk ▸ hupd
      · exact hupd

/-- The row of a hop whose record is not found. -/
theorem Rolled.lost (hs : HubSound s) (hm : MeetsLosses s) (h : Rolled s l entries now k x) {ref : Ref}
    (hl : (s.links.get l).entry k = .listed ref) {why : StaleReason} (hlost : lostAt s l entries k = some ref)
    (hrow : ∀ r, r.ref = ref → r.loc = ⟨l, k⟩ → r.state ≠ .stale → rolledRecord s l entries now r = r.lost now why) {y : State}
    (hy : HopPassed l k (loseHop l k ref why x) y) : Rolled s l entries now (k + 1) y := by
  obtain ⟨r₀, hr₀, rfl, hst₀, hloc₀⟩ := (hs.directory.hops l k ref).mp hl
  have hk₀ : r₀.loc.hop = k := by rw [hloc₀]
  have hn₀ : Names x r₀.ref r₀ := by
    have := h.records r₀ hr₀
    rwa [if_neg (by omega)] at this
  have hset := setHop_passed l k (claimStale r₀.ref.handle why x)
  have hnow : x.now = now := h.met.now
  have hclaim := h.met.claims hm [(r₀.ref.handle, why)]
  have hrefs : claimedRefs [(r₀.ref.handle, why)] x = [r₀.ref] := by simp [claimedRefs, hn₀.findRec, Record.reachable, hst₀]
  rw [hrefs] at hclaim
  refine h.step ?_ ?_ ?_ (fun hop hne => ?_) fun r hr r' hn hsame => ?_
  · rw [hlost]
    exact (hclaim.aside hset.aside).aside hy.aside
  · exact (placesOf_aside hy.aside).trans (claimStale_places hn₀ hst₀ why)
  · rw [hy.assigning]
    exact hset.assigning.trans (claimStale_assigning ..)
  · rw [hy.others hop hne]
    refine (hset.others hop hne).trans (claimStale_entry hn₀ hst₀ why fun hq => hne ?_)
    rw [hloc₀] at hq
    exact (congrArg Loc.hop hq).symm
  · have hc := (hn.claimStale r₀.ref.handle why).of_dir (s' := y) (congrArg Directory.records hy.dir)
    rw [hnow] at hc
    by_cases hrr : r = r₀
    · subst hrr
      rw [hsame hk₀, Record.claimed, if_pos ⟨rfl, hst₀⟩] at hc
      rw [if_pos hk₀, hrow r rfl hloc₀ hst₀]
      exact hc
    · have hne : r.ref.handle ≠ r₀.ref.handle := fun hq => hrr ((hs.directory.names hr₀).1.only r hr hq)
      rw [Record.claimed, if_neg fun hq => hne (by rw [← hn.ref_eq]; exact hq.1)] at hc
      split
      · next hk =>
        rw [rolled_others hs.directory hl hr hk fun hq => hne (congrArg Ref.handle hq)]
        exact hsame hk ▸ hc
      · exact hc

/-- Every hop takes its row. -/
theorem Rolled.hop (hs : HubSound s) (hm : MeetsLosses s) (h : Rolled s l entries now k x) :
    Rolled s l entries now (k + 1) (rollHop l entries k x) := by
  by_cases hv : ∃ ref, (s.links.get l).entry k = .listed ref
  · obtain ⟨ref, hl⟩ := hv
    have hpass := not_passedOver_of_listed (hs.links l) hl
    have hpass' : (x.links.get l).passedOver k = false := (passedOver_congr h.assigning k).trans hpass
    have hl' := (h.ahead k le_rfl).trans hl
    cases he : entries[k]? with
    | none =>
      rw [rollHop_unreached hpass' hl' he]
      refine h.lost hs hm hl (by simp [lostAt, hl, he]) (fun r _ hloc hst => ?_) (.refl ..)
      rw [rolledRecord_listed (by rw [hloc]; exact hpass) hst (by rw [hloc]), hloc]
      simp [he]
    | some e =>
      by_cases hh : e.held = ref
      · exact h.found hs hl he hh
      · rw [rollHop_replaced hpass' hl' he hh]
        refine h.lost hs hm hl (by simp [lostAt, hl, he, hh]) (fun r href hloc hst => ?_) (rollScan_passed ..).1
        rw [rolledRecord_listed (by rw [hloc]; exact hpass) hst (by rw [hloc]), hloc]
        simp [he, href, hh]
  · exact h.vacant hs.directory fun ref hl => hv ⟨ref, hl⟩

/-- The processing of a roll call takes the hops in order. -/
theorem rolled_all (hs : HubSound s) (hm : MeetsLosses s) (h : Rolled s l entries now 0 x) :
    Rolled s l entries now 16 (processRollCall l entries x) := by
  have hstart : Rolled s l entries now 0 (modLink l (fun e => { e with reach := entries.length }) x) := by
    refine ⟨h.met.aside (.ofLink x rfl), h.places, ?_, fun hop hh => ?_, fun r hr => (h.records r hr).of_dir rfl⟩
    · rw [modLink_links, Quad.get_modify_self]
      exact h.assigning
    · rw [modLink_links, Quad.get_modify_self]
      exact h.ahead hop hh
  unfold processRollCall
  generalize modLink l (fun e => { e with reach := entries.length }) x = x₁ at hstart ⊢
  have hrange : ∀ n, Rolled s l entries now n (forEach (List.range n) (rollHop l entries) x₁) := fun n => by
    induction n with
    | zero => exact hstart
    | succ n ih =>
      rw [List.range_succ, forEach, List.foldl_append]
      exact ih.hop hs hm
  exact hrange 16

end Course

end Sys2Proof.Machine
end

section
/-! PROOFS. What a verification roll call and a directed APPLY settle (O28). -/

namespace Sys2Proof.Machine

/-! ### The verdict on a participant (R79) -/

/-- What a verification roll call finds of an UNCONFIRMED participant. -/
def verdict (entries : List RollEntry) (epoch : Half) (p : Participant) : PartStatus :=
  match entries[p.loc.hop]? with
  | some x => if x.held = p.ref then (if x.live = epoch then .confirmed else .unconfirmed) else .excluded
  | none => .excluded

theorem verdict_congr {entries : List RollEntry} {epoch : Half} {p q : Participant} (hr : q.ref = p.ref) (hl : q.loc = p.loc) :
    verdict entries epoch q = verdict entries epoch p := by
  unfold verdict
  rw [hr, hl]

theorem verdict_lost {entries : List RollEntry} {p : Participant} (h : entries[p.loc.hop]?.map RollEntry.held ≠ some p.ref) (epoch : Half) :
    verdict entries epoch p = .excluded := by
  unfold verdict
  cases he : entries[p.loc.hop]? with
  | none => rfl
  | some x =>
    rw [he] at h
    exact if_neg fun hh => h (congrArg some hh)

theorem held_of_verdict {entries : List RollEntry} {p : Participant} {epoch : Half} (h : verdict entries epoch p ≠ .excluded) :
    entries[p.loc.hop]?.map RollEntry.held = some p.ref := by
  by_contra hne
  exact h (verdict_lost hne epoch)

/-- The examination of a participant by its verdict. -/
theorem examineOne_eq (entries : List RollEntry) (p : Participant) (s : State) : examineOne entries p s =
    if verdict entries s.commit.epoch p = .confirmed then confirm p.ref s
    else if verdict entries s.commit.epoch p = .unconfirmed
      then modLink p.loc.link (LinkEngine.queueCommit [partTxn p (.apply s.commit.epoch)]) s
    else setStatus p.ref .excluded s := by
  unfold examineOne verdict
  cases entries[p.loc.hop]? with
  | none => rfl
  | some x =>
    dsimp only
    split
    · split <;> rfl
    · rfl

theorem examineOne_outOf (entries : List RollEntry) (p : Participant) (s : State) : outOf (examineOne entries p s) = outOf s := by
  rw [examineOne_eq]
  split
  · rfl
  · split <;> rfl

theorem examineOne_epoch (entries : List RollEntry) (p : Participant) (s : State) : (examineOne entries p s).commit.epoch = s.commit.epoch :=
  (congrArg (fun x => x.2.2.2.2.2.2.2.epoch) (examineOne_outOf entries p s) :)

theorem examineOne_statuses (entries : List RollEntry) (p : Participant) (s : State) :
    statusesOf (examineOne entries p s) = if verdict entries s.commit.epoch p = .unconfirmed then statusesOf s
      else markStatus p.ref (verdict entries s.commit.epoch p) (statusesOf s) := by
  have hthree : verdict entries s.commit.epoch p = .confirmed ∨ verdict entries s.commit.epoch p = .unconfirmed
      ∨ verdict entries s.commit.epoch p = .excluded := by
    unfold verdict
    (repeat' split) <;> simp
  rw [examineOne_eq]
  rcases hthree with h | h | h
  · rw [h, if_pos rfl, if_neg nofun]
    exact setStatus_statuses ..
  · rw [h, if_neg nofun, if_pos rfl, if_pos rfl]
    rfl
  · rw [h, if_neg nofun, if_neg nofun, if_neg nofun]
    exact setStatus_statuses ..

/-- The status of a participant when those of a list have been examined. -/
def examined (entries : List RollEntry) (epoch : Half) (ps : List Participant) (y : Ref × PartStatus) : PartStatus :=
  match ps.find? fun p => p.ref == y.1 with
  | some p => if verdict entries epoch p = .unconfirmed then y.2 else verdict entries epoch p
  | none => y.2

theorem examined_statuses (entries : List RollEntry) {ps : List Participant} (hn : (ps.map Participant.ref).Nodup) (s : State) :
    statusesOf (forEach ps (examineOne entries) s) = (statusesOf s).map fun y => (y.1, examined entries s.commit.epoch ps y) := by
  induction ps generalizing s with
  | nil => exact (List.map_id _).symm
  | cons p ps ih =>
    obtain ⟨hnot, hn⟩ := List.nodup_cons.mp hn
    refine (ih hn (examineOne entries p s)).trans ?_
    rw [examineOne_epoch, examineOne_statuses]
    have hnone : ∀ st, examined entries s.commit.epoch ps (p.ref, st) = st := fun st => by
      have hfind : (ps.find? fun q => q.ref == p.ref) = none :=
        List.find?_eq_none.mpr fun q hq he => hnot (List.mem_map.mpr ⟨q, hq, beq_iff_eq.mp he⟩)
      simp [examined, hfind]
    have hcons : ∀ y : Ref × PartStatus, examined entries s.commit.epoch (p :: ps) y
        = if p.ref = y.1 then (if verdict entries s.commit.epoch p = .unconfirmed then y.2 else verdict entries s.commit.epoch p)
          else examined entries s.commit.epoch ps y := fun y => by
      unfold examined
      rw [List.find?_cons]
      by_cases he : p.ref = y.1
      · simp [he]
      · rw [if_neg he, beq_eq_false_iff_ne.mpr he]
    by_cases hv : verdict entries s.commit.epoch p = .unconfirmed
    · rw [if_pos hv]
      refine List.map_congr_left fun y _ => ?_
      rw [hcons, if_pos hv]
      split
      · next he =>
        obtain ⟨ref, st⟩ := y
        cases he
        rw [hnone]
      · rfl
    · rw [if_neg hv, markStatus, List.map_map]
      refine List.map_congr_left fun y _ => ?_
      rw [hcons, if_neg hv]
      dsimp only [Function.comp]
      obtain ⟨ref, st⟩ := y
      by_cases he : p.ref = ref
      · cases he
        rw [if_pos rfl, if_pos rfl, hnone]
      · rw [if_neg fun h => he h.symm, if_neg he]

/-! ### The record and the APPLY of a participant examined -/

theorem examineOne_names {entries : List RollEntry} {p : Participant} {s : State} {ref : Ref} {r : Record} (hn : Names s ref r) :
    Names (examineOne entries p s) ref (if verdict entries s.commit.epoch p = .confirmed ∧ ref.handle = p.ref.handle
      then { r with synced := s.commit.epoch, miss := 0 } else r) := by
  rw [examineOne_eq]
  by_cases hv : verdict entries s.commit.epoch p = .confirmed
  · rw [if_pos hv]
    have h := (hn.of_dir (s' := setStatus p.ref .confirmed s) rfl).updRec p.ref.handle
      (f := fun x => { x with synced := s.commit.epoch, miss := 0 }) fun _ => rfl
    have hiff : (verdict entries s.commit.epoch p = .confirmed ∧ ref.handle = p.ref.handle) ↔ ref.handle = p.ref.handle := and_iff_right hv
    rw [if_congr hiff rfl rfl]
    exact h
  · have hnot : ¬ (verdict entries s.commit.epoch p = .confirmed ∧ ref.handle = p.ref.handle) := fun h => hv h.1
    rw [if_neg hv, if_neg hnot]
    split <;> exact hn.of_dir rfl

/-- A record with no miss, synced to the epoch if the examination of its participant has confirmed it. -/
theorem examined_record {entries : List RollEntry} {ps : List Participant} {s : State} {ref : Ref} {r : Record} (hn : Names s ref r)
    (hm : r.miss = 0) (hc : r.synced = s.commit.epoch ∨ ∃ p ∈ ps, p.ref = ref ∧ verdict entries s.commit.epoch p = .confirmed) :
    ∃ r', Names (forEach ps (examineOne entries) s) ref r' ∧ r'.synced = s.commit.epoch ∧ r'.miss = 0 ∧ r'.stale = r.stale := by
  induction ps generalizing s r with
  | nil =>
    refine ⟨r, hn, hc.resolve_right ?_, hm, rfl⟩
    rintro ⟨p, ⟨⟩, -⟩
  | cons p ps ih =>
    have h := examineOne_names (entries := entries) (p := p) hn
    have hepoch := examineOne_epoch entries p s
    obtain ⟨r', hr', hs', hm', hst'⟩ := ih h (by split <;> simp [hm]) (by
      rw [hepoch]
      rcases hc with hc | ⟨q, hq, hqr, hqv⟩
      · left
        split <;> simp [hc]
      · rcases List.mem_cons.mp hq with rfl | hq
        · left
          rw [if_pos ⟨hqv, congrArg Ref.handle hqr.symm⟩]
        · exact .inr ⟨q, hq, hqr, hqv⟩)
    refine ⟨r', hr', hs'.trans hepoch, hm', hst'.trans ?_⟩
    split <;> rfl

theorem examineOne_commitQ (entries : List RollEntry) (p : Participant) (s : State) (l : LinkId) :
    ((examineOne entries p s).links.get l).commitQ = (s.links.get l).commitQ
      ++ if verdict entries s.commit.epoch p = .unconfirmed ∧ p.loc.link = l then [partTxn p (.apply s.commit.epoch)] else [] := by
  rw [examineOne_eq]
  by_cases hv : verdict entries s.commit.epoch p = .unconfirmed
  · rw [if_neg (by rw [hv]; nofun), if_pos hv, modLink_links, Quad.get_modify]
    by_cases hl : p.loc.link = l
    · rw [if_pos hl.symm, if_pos ⟨hv, hl⟩]
      rfl
    · rw [if_neg fun h => hl h.symm, if_neg fun h => hl h.2, List.append_nil]
  · have hnot : ¬ (verdict entries s.commit.epoch p = .unconfirmed ∧ p.loc.link = l) := fun h => hv h.1
    rw [if_neg hv, if_neg hnot, List.append_nil]
    split <;> rfl

theorem examined_commitQ {entries : List RollEntry} {ps : List Participant} {s : State} {p : Participant} (hp : p ∈ ps)
    (hv : verdict entries s.commit.epoch p = .unconfirmed) :
    partTxn p (.apply s.commit.epoch) ∈ ((forEach ps (examineOne entries) s).links.get p.loc.link).commitQ := by
  have hkeep : ∀ (qs : List Participant) (x : State) (t : Txn) (l : LinkId), t ∈ (x.links.get l).commitQ →
      t ∈ ((forEach qs (examineOne entries) x).links.get l).commitQ := fun qs x t l ht => by
    induction qs generalizing x with
    | nil => exact ht
    | cons q qs ih => exact ih _ (by rw [examineOne_commitQ]; exact List.mem_append_left _ ht)
  induction ps generalizing s with
  | nil => cases hp
  | cons q qs ih =>
    rcases List.mem_cons.mp hp with rfl | hp
    · refine hkeep qs _ _ _ ?_
      rw [examineOne_commitQ, if_pos ⟨hv, rfl⟩]
      exact List.mem_append_right _ (List.mem_singleton.mpr rfl)
    · have h := ih (s := examineOne entries q s) hp (by rw [examineOne_epoch]; exact hv)
      rw [examineOne_epoch] at h
      exact h

end Sys2Proof.Machine
end

section
/-! PROOFS. The course of the apply (O28). -/

namespace Sys2Proof.Machine

/-! ### The verification roll call (R79) -/

section Verification

variable {s : State} {l : LinkId} {entries : List RollEntry} {now : Nat} {x : State}

/-- The references that a roll call of a link does not find. -/
def notFound (s : State) (l : LinkId) (entries : List RollEntry) : List Ref := (List.range 16).filterMap (lostAt s l entries)

/-- A participant that counts is not found exactly when another tile or none answers for its hop. -/
theorem mem_notFound (hd : DirectorySound s) {p : Participant} {r : Record} (hlist : ListedAt s p.loc.link p.loc.hop r) (hloc : r.loc = p.loc)
    (href : r.ref = p.ref) :
    p.ref ∈ notFound s l entries ↔ p.loc.link = l ∧ entries[p.loc.hop]?.map RollEntry.held ≠ some p.ref := by
  constructor
  · intro h
    obtain ⟨hop, -, hl⟩ := List.mem_filterMap.mp h
    unfold lostAt at hl
    split at hl
    · next ref he =>
      split at hl
      · cases hl
      · next hne =>
        cases hl
        obtain ⟨q, hq, hqr, -, hqloc⟩ := (hd.hops ..).mp he
        have hqe : q = r := hlist.2.1.1.only q hq (congrArg Ref.handle (hqr.trans href.symm))
        rw [hqe, hloc] at hqloc
        rw [hqloc]
        exact ⟨rfl, hne⟩
    · cases hl
  · rintro ⟨rfl, hne⟩
    have hlt : p.loc.hop < 16 := hloc ▸ hd.locations r hlist.2.1.1.mem
    refine List.mem_filterMap.mpr ⟨p.loc.hop, List.mem_range.mpr hlt, ?_⟩
    rw [lostAt, hlist.1, href]
    exact if_neg hne

/-- A participant as the processing of the roll call leaves it. -/
theorem rolled_participant (hc : CommitSound s) (hs : s.commit.state = .applying) (h : Rolled s l entries now 16 x) {p : Participant}
    (hp : p ∈ s.commit.participants) : ∃ q ∈ x.commit.participants, q.ref = p.ref ∧ q.loc = p.loc
      ∧ q.status = if p.ref ∈ notFound s l entries ∧ p.counts then .excluded else p.status := by
  have hgone : GoneOn s (notFound s l entries) x := h.met.goneOn (by simp [lossReason, hs])
  obtain ⟨q, hq, hqe⟩ := List.mem_map.mp (h.places ▸ List.mem_map.mpr ⟨p, hp, rfl⟩ : (p.ref, p.loc) ∈ placesOf x)
  obtain ⟨q', hq', hqe'⟩ := List.mem_map.mp (hgone.statuses ▸ List.mem_map.mpr ⟨p, hp, rfl⟩ :
    (p.ref, if p.ref ∈ notFound s l entries ∧ p.counts then PartStatus.excluded else p.status) ∈ statusesOf x)
  have hnd : (x.commit.participants.map Participant.ref).Nodup := by
    have hrefs := congrArg (List.map Prod.fst) h.places
    simp only [placesOf, List.map_map, Function.comp_def] at hrefs
    exact hrefs ▸ hc.participants
  have hsame : q = q' := List.inj_on_of_nodup_map hnd hq hq' ((congrArg Prod.fst hqe).trans (congrArg Prod.fst hqe').symm)
  exact ⟨q, hq, congrArg Prod.fst hqe, congrArg Prod.snd hqe, hsame ▸ congrArg Prod.snd hqe'⟩

/-- The participants that the controller examines. -/
def unexamined (x : State) (l : LinkId) : List Participant := x.commit.participants.filter fun p => p.status == .unconfirmed && p.loc.link == l

theorem mem_unexamined {p : Participant} : p ∈ unexamined x l ↔ p ∈ x.commit.participants ∧ p.status = .unconfirmed ∧ p.loc.link = l := by
  simp [unexamined]

theorem applying_counts (hc : CommitSound s) (hs : s.commit.state = .applying) {p : Participant} (hp : p ∈ s.commit.participants) :
    p.counts ↔ p.status = .unconfirmed := by
  have hfit := hc.statuses
  rw [StatusesFit, hs] at hfit
  obtain ⟨h1, h2⟩ := hfit.1 p hp
  simp [Participant.counts, h1, h2]

/-- The statuses after a verification roll call. -/
def verifiedStatuses (s : State) (l : LinkId) (entries : List RollEntry) : List (Ref × PartStatus) :=
  s.commit.participants.map fun p => (p.ref, if p.status = .unconfirmed ∧ p.loc.link = l then verdict entries s.commit.epoch p else p.status)

theorem verified_statuses (hsound : HubSound s) (hc : CommitSound s) (hs : s.commit.state = .applying) (h : Rolled s l entries now 16 x) :
    statusesOf (examine l entries x) = verifiedStatuses s l entries := by
  have hgone : GoneOn s (notFound s l entries) x := h.met.goneOn (by simp [lossReason, hs])
  have hepoch : x.commit.epoch = s.commit.epoch := (congrArg CommitCtl.epoch hgone.apart :)
  have hnd : (x.commit.participants.map Participant.ref).Nodup := by
    have hrefs := congrArg (List.map Prod.fst) h.places
    simp only [placesOf, List.map_map, Function.comp_def] at hrefs
    exact hrefs ▸ hc.participants
  have hps : ((unexamined x l).map Participant.ref).Nodup := hnd.sublist (List.filter_sublist.map _)
  refine (examined_statuses entries hps x).trans ?_
  rw [hgone.statuses, lossStatuses, verifiedStatuses, List.map_map, hepoch]
  refine List.map_congr_left fun p hp => congrArg (Prod.mk p.ref) ?_
  obtain ⟨q, hq, hqr, hql, hqs⟩ := rolled_participant hc hs h hp
  have hcounts := applying_counts hc hs hp
  dsimp only
  have honly : ∀ z ∈ unexamined x l, z.ref = p.ref → z = q := fun z hz hzr =>
    List.inj_on_of_nodup_map hnd (mem_unexamined.mp hz).1 hq (hzr.trans hqr.symm)
  have hskips : q ∉ unexamined x l → ∀ st, examined entries s.commit.epoch (unexamined x l) (p.ref, st) = st := fun hnot st => by
    have hnone : ((unexamined x l).find? fun z => z.ref == p.ref) = none :=
      List.find?_eq_none.mpr fun z hz he => hnot (honly z hz (beq_iff_eq.mp he) ▸ hz)
    simp [examined, hnone]
  by_cases hu : p.status = .unconfirmed ∧ p.loc.link = l
  · obtain ⟨r, hr, href⟩ := hc.participantRecords p hp
    obtain ⟨hlist, hloc⟩ := counted_listed hsound.directory hc (by rw [hs]; decide) hp (hcounts.mpr hu.1) hr href
    have hmem := mem_notFound (l := l) (entries := entries) hsound.directory hlist hloc href
    rw [if_pos hu]
    by_cases hheld : entries[p.loc.hop]?.map RollEntry.held = some p.ref
    · have hnot : ¬ (p.ref ∈ notFound s l entries ∧ p.counts) := fun hx => (hmem.mp hx.1).2 hheld
      rw [if_neg hnot] at hqs ⊢
      have hqm : q ∈ unexamined x l := mem_unexamined.mpr ⟨hq, hqs.trans hu.1, by rw [hql]; exact hu.2⟩
      have hfind : ((unexamined x l).find? fun z => z.ref == p.ref) = some q := by
        cases hf : (unexamined x l).find? fun z => z.ref == p.ref with
        | none => exact absurd (List.find?_eq_none.mp hf q hqm) (by simp [hqr])
        | some z => rw [honly z (List.mem_of_find?_eq_some hf) (by simpa using List.find?_some hf)]
      simp only [examined, hfind, verdict_congr hqr hql]
      split
      · next hv => rw [hv, hu.1]
      · rfl
    · have hlost : p.ref ∈ notFound s l entries ∧ p.counts := ⟨hmem.mpr ⟨hu.2, hheld⟩, hcounts.mpr hu.1⟩
      rw [if_pos hlost] at hqs ⊢
      rw [hskips, verdict_lost hheld]
      intro hqm
      obtain ⟨-, hqu, -⟩ := mem_unexamined.mp hqm
      rw [hqs] at hqu
      cases hqu
  · rw [if_neg hu]
    have hnot : ¬ (p.ref ∈ notFound s l entries ∧ p.counts) := fun ⟨hm, hcn⟩ => by
      obtain ⟨r, hr, href⟩ := hc.participantRecords p hp
      obtain ⟨hlist, hloc⟩ := counted_listed hsound.directory hc (by rw [hs]; decide) hp hcn hr href
      exact hu ⟨hcounts.mp hcn, ((mem_notFound hsound.directory hlist hloc href).mp hm).1⟩
    rw [if_neg hnot] at hqs ⊢
    refine hskips (fun hqm => hu ?_) _
    obtain ⟨-, h1, h2⟩ := mem_unexamined.mp hqm
    exact ⟨hqs.symm.trans h1, hql ▸ h2⟩

/-- The hub in which the verification roll call has been processed and examined, before the controller's tests. -/
structure Verified (s : State) (l : LinkId) (entries : List RollEntry) (now : Nat) (z : State) : Prop where
  now : z.now = now
  apart : z.commit.apart = s.commit.apart
  ext : Extends s z
  statuses : statusesOf z = verifiedStatuses s l entries
  confirmed : ∀ p ∈ s.commit.participants, p.status = .unconfirmed → p.loc.link = l → verdict entries s.commit.epoch p = .confirmed →
    ∃ r, Names z p.ref r ∧ r.synced = s.commit.epoch ∧ r.miss = 0 ∧ r.stale = none
  asked : ∀ p ∈ s.commit.participants, p.status = .unconfirmed → p.loc.link = l → verdict entries s.commit.epoch p = .unconfirmed →
    partTxn p (.apply s.commit.epoch) ∈ (z.links.get l).commitQ

theorem verified (hsound : HubSound s) (hc : CommitSound s) (hs : s.commit.state = .applying) (h : Rolled s l entries now 16 x) :
    Verified s l entries now (examine l entries x) := by
  have hgone : GoneOn s (notFound s l entries) x := h.met.goneOn (by simp [lossReason, hs])
  have hepoch : x.commit.epoch = s.commit.epoch := (congrArg CommitCtl.epoch hgone.apart :)
  have hout : outOf (examine l entries x) = outOf x := forEach_keeps outOf (examineOne_outOf entries)
  have hkept : ∀ p ∈ s.commit.participants, p.status = .unconfirmed → p.loc.link = l → verdict entries s.commit.epoch p ≠ .excluded →
      ∃ q ∈ unexamined x l, q.ref = p.ref ∧ q.loc = p.loc := fun p hp hu hl hv => by
    obtain ⟨q, hq, hqr, hql, hqs⟩ := rolled_participant hc hs h hp
    obtain ⟨r, hr, href⟩ := hc.participantRecords p hp
    obtain ⟨hlist, hloc⟩ := counted_listed hsound.directory hc (by rw [hs]; decide) hp ((applying_counts hc hs hp).mpr hu) hr href
    have hnot : ¬ (p.ref ∈ notFound s l entries ∧ p.counts) := fun hm =>
      ((mem_notFound hsound.directory hlist hloc href).mp hm.1).2 (held_of_verdict hv)
    rw [if_neg hnot] at hqs
    exact ⟨q, mem_unexamined.mpr ⟨hq, hqs.trans hu, hql ▸ hl⟩, hqr, hql⟩
  refine ⟨(congrArg (fun y => y.1) hout).trans h.met.now, (congrArg (fun y => y.2.2.2.2.2.2.2) hout).trans hgone.apart,
    h.met.ext.trans (.of_eq (congrArg (fun y => y.2.2.2.2.2.1) hout) (congrArg (fun y => y.2.2.2.2.2.2.1) hout)),
    verified_statuses hsound hc hs h, fun p hp hu hl hv => ?_, fun p hp hu hl hv => ?_⟩
  · obtain ⟨q, hq, hqr, hql⟩ := hkept p hp hu hl (by rw [hv]; nofun)
    obtain ⟨r, hr, href⟩ := hc.participantRecords p hp
    obtain ⟨hlist, hloc⟩ := counted_listed hsound.directory hc (by rw [hs]; decide) hp ((applying_counts hc hs hp).mpr hu) hr href
    have hheld := held_of_verdict (by rw [hv]; nofun : verdict entries s.commit.epoch p ≠ .excluded)
    have hn := h.records r hr
    rw [if_pos (hsound.directory.locations r hr)] at hn
    have hrolled : rolledRecord s l entries now r = { r with miss := 0 } := by
      have hpass : (s.links.get l).passedOver r.loc.hop = false := by
        rw [hloc, ← hl]
        exact not_passedOver_of_listed (hsound.links _) hlist.1
      rw [rolledRecord_listed hpass hlist.2.2 (by rw [hloc, hl]), hloc]
      cases he : entries[p.loc.hop]? with
      | none => simp [he] at hheld
      | some e =>
        rw [he] at hheld
        exact if_pos ((Option.some.inj hheld).trans href.symm)
    rw [hrolled, href] at hn
    obtain ⟨r', hr', hs', hm', hst'⟩ := examined_record (ps := unexamined x l) (entries := entries) hn rfl
      (.inr ⟨q, hq, hqr, by rw [hepoch, verdict_congr hqr hql]; exact hv⟩)
    have hstale : r.stale = none := by
      by_contra hne
      exact hlist.2.2 ((hsound.directory.staleInfo r hr).mp hne)
    exact ⟨r', hr', hs'.trans hepoch, hm', hst'.trans hstale⟩
  · obtain ⟨q, hq, hqr, hql⟩ := hkept p hp hu hl (by rw [hv]; nofun)
    have hm := examined_commitQ (entries := entries) (s := x) hq (by rw [hepoch, verdict_congr hqr hql]; exact hv)
    have htxn : partTxn q (.apply x.commit.epoch) = partTxn p (.apply s.commit.epoch) := by
      rw [partTxn, partTxn, hqr, hql, hepoch]
    rw [htxn, hql, hl] at hm
    exact hm

end Verification

/-- O28, the verification roll call. -/
theorem verification_settles {s : State} {l : LinkId} {f : Flight} {c : Instr} {out : Option (TileStatus × ReplyBody)} {now : Nat}
    (hsound : HubSound s) (hc : CommitSound s) (hs : s.commit.state = .applying) (hends : Ends s l f c out now) {entries : List RollEntry}
    (ht : f.txn = rollTxn .commit .controller) (ho : (out = none ∧ entries = []) ∨ ∃ st, out = some (st, .roll entries)) :
    ∃ z, exec c s = .next (finishEvent s.port.completions.length z) ∧ Verified s l entries now z := by
  obtain ⟨x, hrun⟩ := hends.rollCall (by rw [ht]; rfl) ho
  set y : State := modLink l (fun e => { e with lastRollEnd := (vacated l now x s).now, rollDue := false, rollMet := false }) (vacated l now x s) with hy
  have hend : rollEnded l f.txn entries (vacated l now x s) = examine l entries (processRollCall l entries y) := by
    rw [ht]
    rfl
  have hlink : y.links.get l = { (s.links.get l).freed x with lastRollEnd := now, rollDue := false, rollMet := false } := by
    rw [hy, modLink_links, Quad.get_modify_self, vacated_link]
    rfl
  have hstart : Rolled s l entries now 0 y := by
    refine ⟨.start rfl rfl (.of_eq rfl rfl), rfl, by rw [hlink]; rfl, fun hop _ => by rw [hlink]; rfl, fun r hr => ?_⟩
    rw [if_neg (Nat.not_lt_zero _)]
    exact (hsound.directory.names hr).of_dir rfl
  have hall := rolled_all hsound ⟨hc.statuses, hc.participants, by rw [hs]; decide⟩ hstart
  rw [hend] at hrun
  exact ⟨_, hrun, verified hsound hc hs hall⟩

end Sys2Proof.Machine
end

section
/-! PROOFS. The flags of handles at the end of an event, and the directed APPLYs of a commit (O28). -/

namespace Sys2Proof.Machine

/-! ### The flags of a handle -/

theorem flagsOf_handle_modify (a : AttnSet) {h k : Nat} (h1 : 1 ≤ h) (k1 : 1 ≤ k) (hne : h ≠ k) (f : HandleAttn → HandleAttn) :
    ({ a with handles := a.handles.modify (h - 1) f } : AttnSet).flagsOf (.handle k) = a.flagsOf (.handle k) := by
  simp only [AttnSet.flagsOf, List.getD_eq_getElem?_getD, List.getElem?_modify, show ¬ h - 1 = k - 1 by omega, if_false]
  simp

/-- A flag raised for a handle in range. -/
theorem raised_raiseHandle {s : State} (hlen : s.port.attn.handles.length = 80) {h : Nat} (h1 : 1 ≤ h) (h2 : h ≤ 80) (r : Reason) :
    Raised (raiseHandle h r s) (.handle h) r := by
  unfold Raised
  simp only [raiseHandle, modPort_port, AttnSet.raiseHandle, AttnSet.flagsOf, List.getD_eq_getElem?_getD, List.getElem?_modify, if_true]
  rw [List.getElem?_eq_getElem (by omega)]
  exact or_and_flag _ r

/-- Retirements leave the flags of the other handles. -/
theorem retire_flagsOf {s : State} {h k : Nat} (k1 : 1 ≤ k) (hr : ∀ r ∈ s.dir.records, 1 ≤ r.ref.handle) (hne : h ≠ k) :
    (retire h s).port.attn.flagsOf (.handle k) = s.port.attn.flagsOf (.handle k) := by
  cases hf : findRec s h with
  | none => rw [HubMid.retire_of_none hf]
  | some r =>
    obtain ⟨hmem, hh⟩ := mem_of_findRec hf
    rw [retire_attn hf]
    refine (flagsOf_handle_modify _ (hh ▸ hr r hmem) k1 hne _).trans ?_
    split <;> rfl

theorem retireAll_flagsOf {hs : List Nat} {s : State} {k : Nat} (k1 : 1 ≤ k) (hr : ∀ r ∈ s.dir.records, 1 ≤ r.ref.handle) (hne : k ∉ hs) :
    (forEach hs retire s).port.attn.flagsOf (.handle k) = s.port.attn.flagsOf (.handle k) := by
  unfold forEach
  induction hs generalizing s with
  | nil => rfl
  | cons h hs ih =>
    obtain ⟨h1, h2⟩ := not_or.mp (fun hx => hne (List.mem_cons.mpr hx))
    exact (ih (fun r hx => hr r (HubMid.retire_records_subset hx)) h2).trans (retire_flagsOf k1 hr (Ne.symm h1))

/-- The return to IDLE, up to the deferred expiries (R83). -/
theorem returnToIdle_eq (applied : Bool) (s : State) : ∃ y, returnToIdle applied s = noticeHandle (expireAll y) ∧ y.dir = s.dir
    ∧ y.port.attn = s.port.attn ∧ y.now = s.now := by
  have hjobs : ∀ x : State, (forEach (catchUpHandles x) makeJob x).dir = x.dir ∧ (forEach (catchUpHandles x) makeJob x).port.attn = x.port.attn
      ∧ (forEach (catchUpHandles x) makeJob x).now = x.now := fun x =>
    ⟨forEach_keeps (fun s : State => s.dir) fun h s => makeJob_dir h s, forEach_keeps (fun s : State => s.port.attn) fun h s => makeJob_attn h s,
      (Aside.forEach makeJob_aside x).now⟩
  cases applied with
  | false => exact ⟨_, rfl, hjobs (idled s)⟩
  | true =>
    obtain ⟨h1, h2, h3⟩ := hjobs (restartAllJobs (idled s))
    have hoff := restartAllJobs_offWire (idled s)
    exact ⟨_, rfl, h1.trans (congrArg (fun x => x.2.2.2.2.2.1) hoff), h2.trans (congrArg (fun x => x.2.2.2.2.1.attn) hoff),
      h3.trans (congrArg (fun x => x.2.1) hoff)⟩

/-- The end of an event leaves the flags of the handle of a record that is not STALE. -/
theorem finishEvent_flagsOf {s : State} {ref : Ref} {r : Record} (hn : Names s ref r) (hst : r.stale = none)
    (hr : ∀ x ∈ s.dir.records, 1 ≤ x.ref.handle) (n : Nat) :
    (finishEvent n s).port.attn.flagsOf (.handle ref.handle) = s.port.attn.flagsOf (.handle ref.handle) := by
  have hreturn : ∀ applied (x : State), x.dir = s.dir → x.port.attn = s.port.attn → x.now = s.now →
      (returnToIdle applied x).port.attn.flagsOf (.handle ref.handle) = s.port.attn.flagsOf (.handle ref.handle) := fun applied x hd ha ht => by
    obtain ⟨y, hy, hyd, hya, hyt⟩ := returnToIdle_eq applied x
    have hny : Names y ref r := hn.of_dir (by rw [hyd, hd])
    have hnot : ref.handle ∉ expiredHandles y := fun hm => by
      have := (List.mem_filter.mp hm).2
      rw [hny.findRec] at this
      simp [graceReached, hst] at this
    have href1 : 1 ≤ ref.handle := by
      rw [← hn.ref_eq]
      exact hr r hn.1.mem
    rw [hy, noticeHandle_attn, expireAll, retireAll_flagsOf href1 (fun z hz => hr z (by rwa [hyd, hd] at hz)) hnot, hya, ha]
  have hcomplete : ∀ st qual res, (completeCommit st qual res s).port.attn = s.port.attn := fun st qual res => by
    unfold completeCommit
    split <;> rfl
  rw [finishEvent, finishLinks_attn]
  unfold settleCommit
  split
  · split <;> rfl
  · split
    · rfl
    · obtain ⟨-, -, -, hd, -, ht⟩ := completeCommit_fields .ok 0 (commitResult s) s
      exact hreturn _ _ hd (hcomplete ..) ht
  · split
    · rfl
    · obtain ⟨-, -, -, hd, -, ht⟩ := completeCommit_fields .aborted (s.commit.reason.getD .host).code (abortResult s (s.commit.reason.getD .host)) s
      exact hreturn _ _ hd (hcomplete ..) ht
  · rfl

/-- The end of an event adds no record. -/
theorem finishEvent_records_subset {n : Nat} {s : State} {r : Record} (h : r ∈ (finishEvent n s).dir.records) : r ∈ s.dir.records := by
  have hexpired : ∀ (hs : List Nat) (x : State), r ∈ (forEach hs retire x).dir.records → r ∈ x.dir.records := fun hs x hx => by
    unfold forEach at hx
    induction hs generalizing x with
    | nil => exact hx
    | cons k ks ih => exact HubMid.retire_records_subset (ih _ hx)
  have hreturn : ∀ applied (x : State), x.dir = s.dir → r ∈ (returnToIdle applied x).dir.records → r ∈ s.dir.records := fun applied x hd hx => by
    obtain ⟨y, hy, hyd, -⟩ := returnToIdle_eq applied x
    rw [hy, noticeHandle_dir] at hx
    rw [← hd, ← hyd]
    exact hexpired _ y hx
  rw [finishEvent, finishLinks_dir] at h
  unfold settleCommit at h
  split at h
  · split at h <;> exact h
  · split at h
    · exact h
    · exact hreturn _ _ (completeCommit_fields ..).2.2.2.1 h
  · split at h
    · exact h
    · exact hreturn _ _ (completeCommit_fields ..).2.2.2.1 h
  · exact h

end Sys2Proof.Machine
end

section
/-! PROOFS. The directed APPLYs of a commit, and the course of the apply (O28). -/

namespace Sys2Proof.Machine

/-! ### The end of a directed APPLY (R80) -/

section Apply

variable {y : State} {p : Participant} (hp : findPart y p.ref = some p) (hs : y.commit.state = .applying) (hu : p.status = .unconfirmed)

include hp hs hu

theorem participantReplied_apply (e : Half) (st : TileStatus) (reply : ReplyBody) : participantReplied p.ref (.apply e) st reply y
    = if st = .ok ∧ reply = .epoch y.commit.epoch then raiseHandle p.ref.handle .lateApply (confirm p.ref y) else makeLagging p.ref y := by
  simp only [participantReplied, hp, hs, hu, and_self, if_true]

theorem participantNoReply_apply (e : Half) (limit : Bool) : participantNoReply p.ref (.apply e) limit y
    = if limit then claimLagging p.ref.handle y else makeLagging p.ref y := by
  simp only [participantNoReply, hp, hs, hu, and_self, if_true]

end Apply

/-- What has become of a participant of the apply, before the controller's tests. -/
structure Settled (s : State) (ref : Ref) (now : Nat) (st : PartStatus) (z : State) : Prop where
  now : z.now = now
  apart : z.commit.apart = s.commit.apart
  ext : Extends s z
  statuses : statusesOf z = markStatus ref st (statusesOf s)

theorem Settled.appliesOn {s z : State} {ref : Ref} {now : Nat} {st : PartStatus} (h : Settled s ref now st z) (hs : s.commit.state = .applying) :
    AppliesOn s (finishEvent s.port.completions.length z) (markStatus ref st (statusesOf s)) := appliesOn_of hs h.apart h.ext h.statuses

/-- A participant settled hears no more of its directed APPLY. -/
theorem Settled.noReply_apply {s z : State} {ref : Ref} {now : Nat} {st : PartStatus} (h : Settled s ref now st z) (hst : st ≠ .unconfirmed) (e : Half)
    (limit : Bool) : participantNoReply ref (.apply e) limit z = z := by
  unfold participantNoReply
  split
  · rfl
  · next q hq =>
    have hqs : q.status = st := by
      have hm : (q.ref, q.status) ∈ markStatus ref st (statusesOf s) :=
        h.statuses ▸ List.mem_map.mpr ⟨q, List.mem_of_find?_eq_some hq, rfl⟩
      obtain ⟨x, -, hx⟩ := List.mem_map.mp hm
      split at hx
      · exact (congrArg Prod.snd hx).symm
      · next hne => exact absurd ((congrArg Prod.fst hx).trans (findPart_ref hq)) hne
    exact if_neg fun hx => hst (hqs.symm.trans hx.2)

theorem settled_confirm {s y : State} {ref : Ref} {now : Nat} (hn : y.now = now) (hc : y.commit = s.commit) (hext : Extends s y) (r : Reason) :
    Settled s ref now .confirmed (raiseHandle ref.handle r (confirm ref y)) := by
  refine ⟨hn, ?_, hext.trans (.of_eq rfl rfl), ?_⟩
  · rw [← hc]
    rfl
  · have h := setStatus_statuses ref .confirmed y
    have hsame : statusesOf y = statusesOf s := by rw [statusesOf, hc]; rfl
    rw [hsame] at h
    exact h

theorem settled_lagging {s y : State} {ref : Ref} {now : Nat} (hn : y.now = now) (hc : y.commit = s.commit) (hext : Extends s y) :
    Settled s ref now .lagging (makeLagging ref y) := by
  have hout := makeLagging_outOf ref y
  have hsame : statusesOf y = statusesOf s := by rw [statusesOf, hc]; rfl
  refine ⟨(congrArg (fun x => x.1) hout).trans hn, (congrArg (fun x => x.2.2.2.2.2.2.2) hout).trans (congrArg CommitCtl.apart hc),
    hext.trans (.of_eq (congrArg (fun x => x.2.2.2.2.2.1) hout) (congrArg (fun x => x.2.2.2.2.2.2.1) hout)), ?_⟩
  rw [makeLagging_statuses, hsame]

/-- The claim at the miss limit of the record of an UNCONFIRMED participant excludes it (R81). -/
theorem settled_lost {s y : State} {r : Record} {p : Participant} {now : Nat} (hfit : CommitSound s) (hs : s.commit.state = .applying)
    (hp : p ∈ s.commit.participants) (hu : p.status = .unconfirmed) (hm : Met s now [] y) (hn : Names y p.ref r) (hst : r.state ≠ .stale)
    (l : LinkId) (hop : Nat) : Settled s p.ref now .excluded (claimAtLimit l hop p.ref.handle y) := by
  have hmet := hm.claims ⟨hfit.statuses, hfit.participants, by rw [hs]; decide⟩ [(p.ref.handle, .noReply)]
  have hrefs : claimedRefs [(p.ref.handle, StaleReason.noReply)] y = [p.ref] := by
    simp [claimedRefs, hn.findRec, Record.reachable, hst, hn.ref_eq]
  rw [hrefs, List.nil_append] at hmet
  have hset := setHop_passed l hop (claimStale p.ref.handle .noReply y)
  have hforce : Aside (setHop l hop .empty (claimStale p.ref.handle .noReply y)) (claimAtLimit l hop p.ref.handle y) := by
    refine .ofLink _ ?_
    unfold LinkEngine.forceRollCall
    split <;> rfl
  have hmet' := (hmet.aside hset.aside).aside hforce
  obtain ⟨hapart, hstat, -⟩ := hmet'.goneOn (by simp [lossReason, hs])
  refine ⟨hmet'.now, hapart, hmet'.ext, ?_⟩
  have hnil : lossStatuses s [] = statusesOf s := List.map_congr_left fun q _ => by simp
  have hcounts : ∀ q ∈ s.commit.participants, q.ref = p.ref → q.counts := fun q hq hqr => by
    rw [List.inj_on_of_nodup_map hfit.participants hq hp hqr]
    exact .inr (.inr hu)
  have hmark := lossStatuses_append_mark (refs := []) hcounts
  rw [List.nil_append, hnil] at hmark
  rw [hstat, hmark]

/-- A change that keeps references keeps handles in range. -/
theorem updRec_handles {s : State} {h : Nat} {f : Record → Record} (hf : ∀ x, (f x).ref = x.ref) (hr : ∀ r ∈ s.dir.records, 1 ≤ r.ref.handle) :
    ∀ r ∈ (updRec h f s).dir.records, 1 ≤ r.ref.handle := fun r hm => by
  obtain ⟨q, hq, rfl⟩ := List.mem_map.mp hm
  split
  · rw [hf]
    exact hr q hq
  · exact hr q hq

/-- A directed transaction of a participant without reply at the miss limit: the claim to STALE and the participant's handling are taken
in the order that the free value gives (R116; log 7). -/
theorem missNoReply_limit {l : LinkId} {hop : Nat} {t : Txn} {y : State} {r : Record} {ref : Ref} (hl : ListedAt y l hop r)
    (hm : (y.links.get l).timing.missLimit ≤ r.miss + 1) (ht : t.req = .participant ref) :
    ∃ z, z = { updRec r.ref.handle (fun x => { x with miss := r.miss + 1 }) y with choices := y.choices + 1 }
      ∧ (missNoReply l hop t y = participantNoReply ref t.body true (claimAtLimit l hop r.ref.handle z)
        ∨ missNoReply l hop t y = claimAtLimit l hop r.ref.handle (participantNoReply ref t.body true z)) := by
  refine ⟨_, rfl, ?_⟩
  rw [missNoReply, hopRecord_listed hl]
  dsimp only
  rw [setMiss_listed hl, if_neg (by exact Nat.not_lt.mpr hm), ht]
  dsimp only
  simp only [requesterNoReply, ht]
  split
  · exact .inl rfl
  · exact .inr rfl

/-- How a directed APPLY of an UNCONFIRMED participant ends, before the controller's tests. -/
structure Applied (s : State) (p : Participant) (r : Record) (now : Nat) (out : Option (TileStatus × ReplyBody)) (limit : Nat) (z : State) : Prop where
  confirmed : out = some (.ok, .epoch s.commit.epoch) → Settled s p.ref now .confirmed z
    ∧ Names z p.ref { r with synced := s.commit.epoch, miss := 0 } ∧ Raised z (.handle p.ref.handle) .lateApply
    ∧ ∀ x ∈ z.dir.records, 1 ≤ x.ref.handle
  died : out = none → limit ≤ r.miss + 1 → Settled s p.ref now .excluded z ∧ Names z p.ref ({ r with miss := r.miss + 1 }.lost now .noReply)
  lagged : out ≠ some (.ok, .epoch s.commit.epoch) → ¬ (out = none ∧ limit ≤ r.miss + 1) → Settled s p.ref now .lagging z
    ∧ Names z p.ref { r with miss := missOf out r.miss, state := if r.state = .active then .lagging else r.state }

section DirectedApply

variable {s : State} {l : LinkId} {f : Flight} {c : Instr} {out : Option (TileStatus × ReplyBody)} {now : Nat} {p : Participant} {e : Half}
  {r : Record}

theorem lagged_eq {r : Record} {h : Nat} (hh : r.ref.handle = h) :
    r.lagged h = { r with state := if r.state = .active then .lagging else r.state } := by
  rw [Record.lagged]
  by_cases ha : r.state = .active
  · rw [if_pos ⟨hh, ha⟩, if_pos ha]
  · rw [if_neg fun hx => ha hx.2, if_neg ha]

theorem directedApply_ends (hw : WellShaped s) (hsound : HubSound s) (hc : CommitSound s) (hs : s.commit.state = .applying)
    (hends : Ends s l f c out now) (hp : p ∈ s.commit.participants) (hu : p.status = .unconfirmed) (hl : p.loc.link = l)
    (ht : f.txn = partTxn p (.apply e)) (hr : r ∈ s.dir.records) (href : r.ref = p.ref) :
    ∃ z, exec c s = .next (finishEvent s.port.completions.length z) ∧ Applied s p r now out (s.links.get l).timing.missLimit z := by
  obtain ⟨x, hx⟩ := hends.directed (hop := p.loc.hop) (by rw [ht]; rfl)
  obtain ⟨hlist, hloc⟩ := counted_listed hsound.directory hc (by rw [hs]; decide) hp (.inr (.inr hu)) hr href
  have hlist' : ListedAt (vacated l now x s) l p.loc.hop r := (hl ▸ hlist).of_eq rfl (vacated_hops ..)
  have hhandle : r.ref.handle = p.ref.handle := congrArg Ref.handle href
  have hnames : ∀ m, Names (heardHub l now x r m s) p.ref { r with miss := m } := fun m => href ▸ heardHub_names hlist.2.1 l now x m
  have hfind : ∀ m, findPart (heardHub l now x r m s) p.ref = some p := fun m =>
    findPart_sole (by rw [heardHub_commit]; exact sole_of_nodup hc.participants hp)
  have hstate : ∀ m, (heardHub l now x r m s).commit.state = .applying := fun m => hs
  have hlag : ∀ m, Names (makeLagging p.ref (heardHub l now x r m s)) p.ref
      { r with miss := m, state := if r.state = .active then .lagging else r.state } := fun m => by
    have h := ((hnames m).of_dir (s' := setStatus p.ref .lagging (heardHub l now x r m s)) rfl).claimLagging p.ref.handle
    rw [lagged_eq (r := { r with miss := m }) hhandle] at h
    exact h
  have hlim : ((vacated l now x s).links.get l).timing.missLimit = (s.links.get l).timing.missLimit := by rw [vacated_link]; rfl
  have hmsg : f.txn.body.countsMisses = true := by rw [ht]; rfl
  cases out with
  | some o =>
    obtain ⟨st, reply⟩ := o
    rw [directedEnds_heard (out := some (st, reply)) hlist' hmsg (by rintro ⟨⟩)] at hx
    have hreq : requesterReplied l p.loc.hop f.txn st reply (heardHub l now x r 0 s)
        = participantReplied p.ref (.apply e) st reply (heardHub l now x r 0 s) := by
      rw [ht]
      rfl
    have hend := hx.trans (congrArg (fun y => Host.Outcome.next (finishEvent s.port.completions.length y))
      (hreq.trans (participantReplied_apply (hfind 0) (hstate 0) hu e st reply)))
    refine ⟨_, hend, fun h => ?_, nofun, fun h _ => ?_⟩
    · cases h
      rw [if_pos ⟨rfl, rfl⟩]
      obtain ⟨h1, h2, -⟩ := (numbered_of_sound hw hsound.directory).records r hr
      refine ⟨settled_confirm (s := s) (now := now) (y := heardHub l now x r 0 s) rfl rfl heardHub_extends _, ?_, raised_raiseHandle hw.attention (hhandle ▸ h1) (hhandle ▸ h2) _, ?_⟩
      · have h := ((hnames 0).of_dir (s' := setStatus p.ref .confirmed (heardHub l now x r 0 s)) rfl).updRec p.ref.handle
          (f := fun x => { x with synced := s.commit.epoch, miss := 0 }) fun _ => rfl
        rw [if_pos rfl] at h
        exact h
      · have hone : ∀ q ∈ s.dir.records, 1 ≤ q.ref.handle := fun q hq => ((numbered_of_sound hw hsound.directory).records q hq).1
        exact updRec_handles (s := setStatus p.ref .confirmed (heardHub l now x r 0 s)) (fun _ => rfl)
          (updRec_handles (s := vacated l now x s) (fun _ => rfl) hone)
    · rw [if_neg fun hx => h (by rw [hx.1, hx.2]; rfl)]
      exact ⟨settled_lagging (s := s) (now := now) (y := heardHub l now x r 0 s) rfl rfl heardHub_extends, hlag 0⟩
  | none =>
    by_cases hm : (s.links.get l).timing.missLimit ≤ r.miss + 1
    · obtain ⟨z, hz, hend⟩ := missNoReply_limit (t := f.txn) (ref := p.ref) hlist' (by rw [hlim]; exact hm) (by rw [ht]; rfl)
      have hnz : Names z p.ref { r with miss := r.miss + 1 } := (hnames (r.miss + 1)).of_dir (by rw [hz]; rfl)
      have hmet : Met s now [] z := .start (by rw [hz]; rfl) (by rw [hz]; rfl) (.of_eq (by rw [hz]; rfl) (by rw [hz]; rfl))
      have hfz : findPart z p.ref = some p := by
        rw [hz]
        exact hfind (r.miss + 1)
      have hzs : z.commit.state = .applying := by rw [hz]; exact hs
      have hznow : z.now = now := hmet.now
      have hbody : f.txn.body = .apply e := by rw [ht]; rfl
      have hclaimed : ∀ (y : State) (q : Record), Names y p.ref q → q.state ≠ .stale → y.now = now →
          Names (claimAtLimit l p.loc.hop p.ref.handle y) p.ref (q.lost now .noReply) := fun y q hn hst hy => by
        have h := hn.claimStale p.ref.handle .noReply
        rw [Record.claimed, if_pos ⟨by rw [hn.ref_eq], hst⟩, hy] at h
        exact h.of_dir rfl
      rw [hbody, hhandle] at hend
      have hdirected : directedEnds l p.loc.hop f.txn none (vacated l now x s) = missNoReply l p.loc.hop f.txn (vacated l now x s) := if_pos hmsg
      rw [hdirected] at hx
      rcases hend with hend | hend
      · rw [hend] at hx
        have hsettled := settled_lost hc hs hp hu hmet hnz hlist.2.2 l p.loc.hop
        have hgone : participantNoReply p.ref (.apply e) true (claimAtLimit l p.loc.hop p.ref.handle z)
            = claimAtLimit l p.loc.hop p.ref.handle z := hsettled.noReply_apply nofun e true
        rw [hgone] at hx
        exact ⟨_, hx, nofun, fun _ _ => ⟨hsettled, hclaimed z _ hnz hlist.2.2 hznow⟩, fun _ h => absurd ⟨rfl, hm⟩ h⟩
      · rw [hend, participantNoReply_apply hfz hzs hu, if_pos rfl] at hx
        have haside := claimLagging_aside p.ref.handle z
        have hlz := hnz.claimLagging p.ref.handle
        rw [lagged_eq (r := { r with miss := r.miss + 1 }) hhandle] at hlz
        have hlz' : Names (claimLagging p.ref.handle z) p.ref
            { r with miss := r.miss + 1, state := if r.state = .active then .lagging else r.state } := hlz
        have hst : (if r.state = .active then RecState.lagging else r.state) ≠ .stale := by
          split
          · decide
          · exact hlist.2.2
        exact ⟨_, hx, nofun, fun _ _ => ⟨settled_lost hc hs hp hu (hmet.aside haside) hlz' hst l p.loc.hop,
          hclaimed _ { r with miss := r.miss + 1, state := if r.state = .active then .lagging else r.state } hlz' hst (haside.now.trans hznow)⟩, fun _ h => absurd ⟨rfl, hm⟩ h⟩
    · rw [directedEnds_heard hlist' hmsg (by rw [hlim]; exact fun _ => Nat.not_le.mp hm)] at hx
      have hreq : requesterNoReply l p.loc.hop f.txn false (heardHub l now x r (r.miss + 1) s)
          = participantNoReply p.ref (.apply e) false (heardHub l now x r (r.miss + 1) s) := by
        rw [ht]
        rfl
      have hend := hx.trans (congrArg (fun y => Host.Outcome.next (finishEvent s.port.completions.length y))
        (hreq.trans (participantNoReply_apply (hfind _) (hstate _) hu e false)))
      exact ⟨_, hend, nofun, fun _ h => absurd h hm, fun _ _ => ⟨settled_lagging (s := s) (now := now) (y := heardHub l now x r (r.miss + 1) s) rfl rfl heardHub_extends, hlag _⟩⟩

end DirectedApply

/-- Settles O28. -/
theorem verificationSettlesTheParticipants : Obligations.VerificationSettlesTheParticipants := by
  unfold Obligations.VerificationSettlesTheParticipants
  intro s l f c out now hw hsound hc hs hends
  refine ⟨fun entries ht ho => ?_, fun p e r hp hu hl ht hr href => ?_⟩
  · obtain ⟨z, hrun, hnow, hapart, hext, hstat, hconf, hasked⟩ := verification_settles hsound hc hs hends ht ho
    have happlies := appliesOn_of hs hapart hext hstat
    refine ⟨_, hrun, (finishEvent_now ..).trans hnow, happlies, fun p hp hu hl => ⟨fun hv => ?_, fun hv => ?_⟩⟩
    · obtain ⟨r, hn, hsync, hmiss, hst⟩ := hconf p hp hu hl hv
      have hn' := hn.finishEvent hst s.port.completions.length
      exact ⟨r, hn'.1.mem, hn'.ref_eq, hsync, hmiss⟩
    · have hwaits : settleCommit z = z := by
        have hm : (p.ref, PartStatus.unconfirmed) ∈ statusesOf z := by
          rw [hstat]
          refine List.mem_map.mpr ⟨p, hp, congrArg (Prod.mk p.ref) ?_⟩
          rw [if_pos ⟨hu, hl⟩]
          exact hv
        obtain ⟨q, hq, hqe⟩ := List.mem_map.mp hm
        exact waits_settles (.inr (.inr (.inl ⟨(congrArg CommitCtl.state hapart :).trans hs, q, hq, congrArg Prod.snd hqe⟩)))
      rw [finishEvent, hwaits]
      exact finishLinks_toCome (hasked p hp hu hl hv)
  · obtain ⟨z, hrun, hconf, hdied, hlag⟩ := directedApply_ends hw hsound hc hs hends hp hu hl ht hr href
    have hstale : r.state ≠ .stale → r.stale = none := fun hst => by
      by_contra hne
      exact hst ((hsound.directory.staleInfo r hr).mp hne)
    obtain ⟨hlist, -⟩ := counted_listed hsound.directory hc (by rw [hs]; decide) hp (.inr (.inr hu)) hr href
    have hnow : z.now = now := by
      by_cases h1 : out = some (.ok, .epoch s.commit.epoch)
      · exact (hconf h1).1.now
      · by_cases h2 : out = none ∧ (s.links.get l).timing.missLimit ≤ r.miss + 1
        · exact (hdied h2.1 h2.2).1.now
        · exact (hlag h1 h2).1.now
    refine ⟨_, hrun, (finishEvent_now ..).trans hnow, fun h => ?_, fun h => ?_, fun h1 h2 => ?_⟩
    · obtain ⟨hset, hn, hraised, hone⟩ := hconf h
      have hn' := hn.finishEvent (hstale hlist.2.2) s.port.completions.length
      refine ⟨hset.appliesOn hs, ⟨_, hn'.1.mem, rfl⟩, ?_⟩
      unfold Raised
      rw [congrArg Ref.handle href, finishEvent_flagsOf hn (hstale hlist.2.2) hone]
      exact hraised
    · obtain ⟨hset, hn⟩ := hdied h.1 h.2
      refine ⟨hset.appliesOn hs, fun y hy hyr => ?_⟩
      exact hn.1.only y (finishEvent_records_subset hy) (congrArg Ref.handle (hyr.trans href))
    · obtain ⟨hset, hn⟩ := hlag h1 h2
      have hn' := hn.finishEvent (hstale hlist.2.2) s.port.completions.length
      exact ⟨hset.appliesOn hs, _, hn'.1.mem, rfl⟩

end Sys2Proof.Machine
end

section
/-! PROOFS. What a scan step does at its link, and the step that follows it (R136). -/

namespace Sys2Proof.Machine

/-! ### Scan steps at one link -/

/-- What a scan step at a link leaves of the hub: the course of a commit, the other links, and the flight of its own. -/
structure AtLink (l : LinkId) (a b : State) : Prop where
  aside : Aside a b
  others : ∀ k, k ≠ l → b.links.get k = a.links.get k
  flight : (b.links.get l).flight = (a.links.get l).flight

namespace AtLink

variable {l : LinkId} {a b c : State}

theorem refl (l : LinkId) (s : State) : AtLink l s s := ⟨.refl s, fun _ _ => rfl, rfl⟩

theorem trans (h : AtLink l a b) (k : AtLink l b c) : AtLink l a c :=
  ⟨h.aside.trans k.aside, fun i hi => (k.others i hi).trans (h.others i hi), k.flight.trans h.flight⟩

theorem ofLinks (h : Aside a b) (hl : b.links = a.links) : AtLink l a b := by
  refine ⟨h, fun k _ => ?_, ?_⟩ <;> rw [hl]

theorem ofLink {f : LinkEngine → LinkEngine} (hq : (f (a.links.get l)).commitQ = (a.links.get l).commitQ)
    (hf : (f (a.links.get l)).flight = (a.links.get l).flight) : AtLink l a (modLink l f a) := by
  refine ⟨.ofLink a hq, fun k hk => ?_, ?_⟩
  · rw [modLink_links, Quad.get_modify, if_neg hk]
  · rw [modLink_links, Quad.get_modify_self, hf]

/-- A scan step calls for no test of the controller. -/
theorem rests (h : AtLink l a b) (hr : Rests a) : Rests b := by
  have hout : ∀ k, (a.links.get k).cancelOutstanding = true → (b.links.get k).cancelOutstanding = true := fun k hk => by
    by_cases hkl : k = l
    · subst hkl
      rwa [cancelOutstanding_of (h.aside.commitQ k) (by rw [h.flight])]
    · rwa [h.others k hkl]
  unfold Rests Waits at hr ⊢
  rw [h.aside.commit]
  rcases hr with hr | hr | hr | hr | ⟨hs, k, hk⟩
  · exact .inl hr
  · exact .inr (.inl hr)
  · exact .inr (.inr (.inl hr))
  · exact .inr (.inr (.inr (.inl hr)))
  · exact .inr (.inr (.inr (.inr ⟨hs, k, hout k hk⟩)))

end AtLink

/-- The wire left by a transaction that is no CANCEL calls for no test of the controller. -/
theorem vacated_rests {s : State} (hr : Rests s) {l : LinkId} {f : Flight} (hf : (s.links.get l).flight = some f)
    (hc : f.txn.isCancel = false) (now : Nat) (x : Option Expiry) : Rests (vacated l now x s) := by
  refine hr.withLink now fun h => ?_
  unfold LinkEngine.cancelOutstanding at h ⊢
  rw [hf] at h
  simpa [hc, LinkEngine.freed] using h

/-! ### Hop scans that notices cause (R134, R142) -/

/-- An entry that a notice may have scanned again. -/
def HopEntry.Noticeable (x : HopEntry) : Prop := x = .unlisted .directoryFull ∨ ∃ u, x = .unlisted (.duplicateId u)

theorem isDirectoryFull_noticeable {x : HopEntry} (h : isDirectoryFull x = true) : x.Noticeable := .inl (by simpa [isDirectoryFull] using h)

theorem isDuplicateOf_noticeable {u : Uid} {x : HopEntry} (h : isDuplicateOf u x = true) : x.Noticeable :=
  .inr ⟨u, by simpa [isDuplicateOf] using h⟩

theorem followUpHop_noticeable {s : State} {x : HopEntry} (h : followUpHop s x = true) : x.Noticeable := by
  unfold followUpHop at h
  split at h
  · exact .inl rfl
  · exact .inr ⟨_, rfl⟩
  · cases h

theorem cause_caused {e : LinkEngine} {hop k : Nat} (h : k ∈ (e.cause hop).caused) : k ∈ e.caused ∨ k = hop := by
  unfold LinkEngine.cause at h
  split at h
  · exact .inl h
  · simpa using h

/-- A notice causes scans of the hops that it is for. -/
theorem notice_causes {test : HopEntry → Bool} {e : LinkEngine} {k : Nat} (h : k ∈ (e.notice test).caused) :
    k ∈ e.caused ∨ test (e.entry k) = true := by
  have hfold : ∀ (hops : List Nat) (x : LinkEngine), k ∈ (hops.foldl LinkEngine.cause x).caused → k ∈ x.caused ∨ k ∈ hops := by
    intro hops
    induction hops with
    | nil => exact fun x h => .inl h
    | cons hop hops ih =>
      intro x h
      rcases ih _ h with h | h
      · rcases cause_caused h with h | rfl
        · exact .inl h
        · exact .inr (by simp)
      · exact .inr (List.mem_cons_of_mem _ h)
  unfold LinkEngine.notice at h
  split at h
  · exact (hfold _ _ h).imp id fun hm => (List.mem_filter (p := fun h => test (e.entry h)).mp hm).2
  · exact .inl h
  · exact .inl h

/-! ### The step that follows -/

/-- From one step of the full scan to the next nothing changes but the scan, its queue and the marks of its end: what stays the
same. -/
structure StepOver (l : LinkId) (a b : State) : Prop where
  atLink : AtLink l a b
  dir : b.dir = a.dir
  store : b.store = a.store
  hops : (b.links.get l).hops = (a.links.get l).hops
  assigning : (b.links.get l).assigning = (a.links.get l).assigning
  found : Raised b (.link l) .unlistedFound ↔ Raised a (.link l) .unlistedFound
  handles : b.port.attn.handles = a.port.attn.handles
  jobs : b.jobs = a.jobs
  scanQ : ∃ more, (b.links.get l).scanQ = (a.links.get l).scanQ ++ more ∧ ∀ t ∈ more, t.isFullScan = true
  caused : ∀ k ∈ (b.links.get l).caused, k ∈ (a.links.get l).caused ∨ ((a.links.get l).entry k).Noticeable

theorem entry_of_hops {e e' : LinkEngine} (h : e'.hops = e.hops) (hop : Nat) : e'.entry hop = e.entry hop := by
  rw [LinkEngine.entry, LinkEngine.entry, h]

namespace StepOver

variable {l : LinkId} {a b c : State}

theorem ofPort (h : AtLink l a b) (hd : b.dir = a.dir) (hs : b.store = a.store) (hl : b.links = a.links) (hj : b.jobs = a.jobs)
    (hf : Raised b (.link l) .unlistedFound ↔ Raised a (.link l) .unlistedFound) (hh : b.port.attn.handles = a.port.attn.handles) :
    StepOver l a b := by
  refine ⟨h, hd, hs, ?_, ?_, hf, hh, hj, ⟨[], ?_, nofun⟩, fun k hk => .inl ?_⟩
  · rw [hl]
  · rw [hl]
  · rw [hl, List.append_nil]
  · rwa [hl] at hk

theorem refl (l : LinkId) (s : State) : StepOver l s s := ofPort (.refl l s) rfl rfl rfl rfl .rfl rfl

theorem trans (h : StepOver l a b) (k : StepOver l b c) : StepOver l a c := by
  obtain ⟨xs, hx, hxs⟩ := h.scanQ
  obtain ⟨ys, hy, hys⟩ := k.scanQ
  refine ⟨h.atLink.trans k.atLink, k.dir.trans h.dir, k.store.trans h.store, k.hops.trans h.hops, k.assigning.trans h.assigning,
    k.found.trans h.found, k.handles.trans h.handles, k.jobs.trans h.jobs, ⟨xs ++ ys, by rw [hy, hx, List.append_assoc], fun t ht => ?_⟩,
    fun i hi => ?_⟩
  · exact (List.mem_append.mp ht).elim (hxs t) (hys t)
  · rcases k.caused i hi with hi | hi
    · exact h.caused i hi
    · exact .inr (entry_of_hops h.hops i ▸ hi)

theorem ofLink {f : LinkEngine → LinkEngine} (hq : (f (a.links.get l)).commitQ = (a.links.get l).commitQ)
    (hf : (f (a.links.get l)).flight = (a.links.get l).flight) (hh : (f (a.links.get l)).hops = (a.links.get l).hops)
    (ha : (f (a.links.get l)).assigning = (a.links.get l).assigning)
    (hs : ∃ more, (f (a.links.get l)).scanQ = (a.links.get l).scanQ ++ more ∧ ∀ t ∈ more, t.isFullScan = true)
    (hc : ∀ k ∈ (f (a.links.get l)).caused, k ∈ (a.links.get l).caused ∨ ((a.links.get l).entry k).Noticeable) :
    StepOver l a (modLink l f a) := by
  refine ⟨.ofLink hq hf, rfl, rfl, ?_, ?_, .rfl, rfl, rfl, ?_, ?_⟩ <;> rw [modLink_links, Quad.get_modify_self]
  · exact hh
  · exact ha
  · exact hs
  · exact hc

/-- A flag of a link raised beside another. -/
theorem raised_beside {s : State} {q r : Reason} (h : q.flag &&& r.flag = 0) :
    Raised (raiseLink l q s) (.link l) r ↔ Raised s (.link l) r := by
  have hflags : (raiseLink l q s).port.attn.flagsOf (.link l) = s.port.attn.flagsOf (.link l) ||| q.flag :=
    Quad.get_modify_self ..
  unfold Raised
  rw [hflags]
  have hand : (s.port.attn.flagsOf (.link l) ||| q.flag) &&& r.flag = s.port.attn.flagsOf (.link l) &&& r.flag := by
    rw [BitVec.and_comm, BitVec.and_or_distrib_left, BitVec.and_comm r.flag q.flag, h, show (0 : Flags) = 0#_ from rfl, BitVec.or_zero, BitVec.and_comm]
  rw [hand]

theorem raise {q : Reason} (h : q.flag &&& Reason.unlistedFound.flag = 0) : StepOver l a (raiseLink l q a) :=
  ofPort (.ofLinks (.raiseLink ..) rfl) rfl rfl rfl rfl (raised_beside h) rfl

end StepOver

theorem completeRescan_over (l k : LinkId) (sc : FullScan) (n : Nat) (s : State) : StepOver l s (completeRescan k sc n s) := by
  unfold completeRescan
  split
  · exact .ofPort (.ofLinks ⟨rfl, complete_extends ..⟩ rfl) rfl rfl rfl rfl .rfl rfl
  · exact .refl l s

theorem endScan_over {l : LinkId} {s : State} (hlen : (s.links.get l).hops.length = 16) : StepOver l s (endScan l 16 s) := by
  unfold endScan
  split
  · exact .refl l s
  · next sc _ =>
    have hlost : handlesFrom (s.links.get l) 16 = [] := by
      rw [handlesFrom, List.drop_eq_nil_of_le hlen.le]
      rfl
    have hbelow : hopsBelow (s.links.get l).hops 16 = (s.links.get l).hops := by
      rw [hopsBelow, List.take_of_length_le hlen.le]
      exact List.append_nil _
    have hclaims : claimStaleAll [] s = s := rfl
    dsimp only
    rw [hlost, List.map_nil, hclaims]
    refine .trans ?_ (completeRescan_over ..)
    have hmarks : ∀ x : State, StepOver l x (raiseLink l .scanDone (raiseLink l .linkUp x)) := fun x =>
      (StepOver.raise (by decide)).trans (.raise (by decide))
    have hend : ∀ now, StepOver l s (modLink l (fun e => { e with
        reach := 16, hops := hopsBelow e.hops 16, state := .running, lastRollEnd := now, rollMet := false, scan := none,
        followUp := false }) s) := fun now =>
      .ofLink rfl rfl hbelow rfl ⟨[], (List.append_nil _).symm, nofun⟩ fun k hk => .inl hk
    split
    · refine ((hend _).trans (hmarks _)).trans (.ofLink ?_ ?_ ?_ ?_ ⟨[], ?_, nofun⟩ fun k hk => ?_)
      · exact notice_commitQ ..
      · exact (congrArg LinkEngine.flight (notice_unnoticed _ _) :)
      · exact (HubMid.notice_charts ..).1
      · exact notice_assigning ..
      · rw [List.append_nil]
        exact (congrArg LinkEngine.scanQ (notice_unnoticed _ _) :)
      · exact (notice_causes hk).imp id followUpHop_noticeable
    · exact (hend _).trans (hmarks _)

theorem nextStep_over {l : LinkId} {s : State} (hlen : (s.links.get l).hops.length = 16) : StepOver l s (nextStep l s) := by
  unfold nextStep
  split
  · exact .refl l s
  · split
    · exact .ofLink rfl rfl rfl rfl ⟨[_], rfl, by simp [enumTxn, Txn.isFullScan]⟩ fun k hk => .inl hk
    · exact endScan_over hlen

theorem stepMatched_over {l : LinkId} {s : State} (hlen : (s.links.get l).hops.length = 16) (full : Bool) :
    StepOver l s (stepMatched l full s) := by
  unfold stepMatched
  split
  · exact nextStep_over hlen
  · exact .refl l s

theorem stepMatched_assigning {l : LinkId} {s : State} (h : (s.links.get l).assigning.isSome = true) (full : Bool) :
    stepMatched l full s = s := if_neg fun hx => by simp [Option.isNone_iff_eq_none.mp hx.2] at h

/-! ### The end of a scan step's event -/

theorem finishLinks_assigning (n : Nat) (s : State) (l : LinkId) :
    ((finishLinks n s).links.get l).assigning = (s.links.get l).assigning := by
  obtain ⟨ts, hts, -⟩ := finishLinks_link n s l
  rw [hts]
  exact arbitrated_keeps LinkEngine.assigning (fun t e' h => (choose_charts h).2) (fun _ _ _ => rfl) _

theorem finishLinks_raised (n : Nat) (s : State) (x : Subject) (r : Reason) : Raised (finishLinks n s) x r ↔ Raised s x r := by
  unfold Raised
  rw [finishLinks_attn]

/-- The hub whose hop a scan step has made UNLISTED. -/
structure HopUnlisted (s y : State) (l : LinkId) (hop : Nat) (why : Unlisted) : Prop where
  atLink : AtLink l s y
  dir : y.dir = s.dir
  entry : (y.links.get l).entry hop = .unlisted why
  length : (y.links.get l).hops.length = (s.links.get l).hops.length
  assigning : (y.links.get l).assigning = (s.links.get l).assigning
  found : Raised y (.link l) .unlistedFound ↔ Raised s (.link l) .unlistedFound
    ∨ ∀ w, (s.links.get l).entry hop = .unlisted w → sameReason w why = false

theorem setUnlisted_unlists {l : LinkId} {hop : Nat} {s : State} (h : hop < (s.links.get l).hops.length) (why : Unlisted) :
    HopUnlisted s (setUnlisted l hop why s) l hop why := by
  have hlink : (setHop l hop (.unlisted why) s).links.get l = (s.links.get l).setEntry hop (.unlisted why) := Quad.get_modify_self ..
  have hat : AtLink l s (setHop l hop (.unlisted why) s) := .ofLink rfl rfl
  have hentry : ((setHop l hop (.unlisted why) s).links.get l).entry hop = .unlisted why := by
    rw [hlink, LinkEngine.entry, LinkEngine.setEntry]
    simp [List.getD_eq_getElem?_getD, h]
  have hlen : ((setHop l hop (.unlisted why) s).links.get l).hops.length = (s.links.get l).hops.length := by
    rw [hlink]
    exact List.length_set
  have hass : ((setHop l hop (.unlisted why) s).links.get l).assigning = (s.links.get l).assigning := by rw [hlink]; rfl
  have hraise : (∀ w, (s.links.get l).entry hop = .unlisted w → sameReason w why = false) →
      HopUnlisted s (raiseLink l .unlistedFound (setHop l hop (.unlisted why) s)) l hop why := fun hno => by
    refine ⟨hat.trans (.ofLinks (.raiseLink ..) rfl), rfl, hentry, hlen, hass, fun _ => .inr hno, fun _ => ?_⟩
    have hflags : (raiseLink l .unlistedFound (setHop l hop (.unlisted why) s)).port.attn.flagsOf (.link l)
        = s.port.attn.flagsOf (.link l) ||| Reason.unlistedFound.flag := Quad.get_modify_self ..
    rw [Raised, hflags]
    exact or_and_flag _ _
  unfold setUnlisted
  cases hx : (s.links.get l).entry hop with
  | unlisted w =>
    dsimp only
    by_cases hsame : sameReason w why = true
    · rw [if_pos hsame]
      refine ⟨hat, rfl, hentry, hlen, hass, .inl, fun hf => hf.resolve_right fun hno => ?_⟩
      rw [hno w hx] at hsame
      cases hsame
    · rw [if_neg hsame]
      refine hraise fun v hv => ?_
      cases hx.symm.trans hv
      simpa using hsame
  | listed ref => exact hraise fun w hw => by simp [hx] at hw
  | empty => exact hraise fun w hw => by simp [hx] at hw

end Sys2Proof.Machine
end

section
/-! PROOFS. How the answer of an ENUM_QUERY is matched (O45). -/

namespace Sys2Proof.Machine

/-! ### The matching of an answer (R131, R132) -/

section Matching

variable {l : LinkId} {hop : Nat} {s : State} {info : EnumInfo}

theorem matchReply_bad (full : Bool) (h : info.uid = 0 ∨ info.uid = BitVec.allOnes 64 ∨ info.capacity = 0) :
    matchReply l hop full (some info) s = setUnlisted l hop .badId s := by
  refine if_pos ?_
  unfold badInfo
  rcases h with h | h | h <;> rw [h] <;> simp

variable (h0 : info.uid ≠ 0) (h1 : info.uid ≠ BitVec.allOnes 64) (hc : info.capacity ≠ 0)

include h0 h1 hc

theorem badInfo_false : badInfo info = false := by
  simp only [badInfo, h0, h1, hc, decide_false, Bool.or_false]

/-- The ID is marked elsewhere. -/
theorem matchReply_marked (full : Bool) (hx : askIndex s info.uid ⟨l, hop⟩ = .markedElsewhere) :
    matchReply l hop full (some info) s = setUnlisted l hop (.duplicateId info.uid) s := by
  simp only [matchReply, badInfo_false h0 h1 hc, hx]
  rfl

/-- A reachable record holds the ID. -/
theorem matchReply_held (full : Bool) {r : Record} (hx : askIndex s info.uid ⟨l, hop⟩ = .record r) (hst : r.state ≠ .stale)
    (hl : r.loc ≠ ⟨l, hop⟩) : matchReply l hop full (some info) s
      = raiseHandle r.ref.handle .duplicate (setUnlisted l hop (.duplicateId info.uid) s) := by
  have hreach : r.reachable = true := by simp [Record.reachable, hst]
  simp only [matchReply, badInfo_false h0 h1 hc, hx, hreach, hl]
  rfl

/-- A STALE record holds the ID. -/
theorem matchReply_stale (full : Bool) {r : Record} (hx : askIndex s info.uid ⟨l, hop⟩ = .record r) (hst : r.state = .stale) :
    matchReply l hop full (some info) s
      = startAssign l { hop := hop, kind := .assigningRebind, ref := r.ref, info := info, full := full } s := by
  have hreach : r.reachable = false := by simp [Record.reachable, hst]
  simp only [matchReply, badInfo_false h0 h1 hc, hx, hreach]
  rfl

/-- No record holds the ID, and a handle is available. -/
theorem matchReply_new (full : Bool) {h : Nat} {s' : State} (hx : askIndex s info.uid ⟨l, hop⟩ = .unknown) (ht : takeHandle s = some (h, s')) :
    matchReply l hop full (some info) s
      = startAssign l { hop := hop, kind := .assigningNew, ref := ⟨h, genOf s' h⟩, info := info, full := full } s' := by
  simp only [matchReply, badInfo_false h0 h1 hc, hx, ht]
  rfl

/-- No record holds the ID, and no handle is available. -/
theorem matchReply_noHandle (full : Bool) (hx : askIndex s info.uid ⟨l, hop⟩ = .unknown) (ht : takeHandle s = none) :
    matchReply l hop full (some info) s = setUnlisted l hop .directoryFull s := by
  simp only [matchReply, badInfo_false h0 h1 hc, hx, ht]
  rfl

omit h0 h1 hc

theorem unmarked_any (hm : ∀ m ∈ s.dir.marks, m.uid ≠ info.uid) (loc : Loc) :
    ¬ s.dir.marks.any (fun m => m.uid == info.uid && m.loc != loc) = true := fun h => by
  obtain ⟨m, hmem, hu⟩ := List.any_eq_true.mp h
  exact hm m hmem (by simpa using (Bool.and_eq_true_iff.mp hu).1)

theorem askIndex_record (hm : ∀ m ∈ s.dir.marks, m.uid ≠ info.uid) (hd : DirectorySound s) {r : Record} (hr : r ∈ s.dir.records)
    (hu : r.uid = info.uid) (loc : Loc) : askIndex s info.uid loc = .record r := by
  have hfind : findUid s info.uid = some r := by
    cases hf : findUid s info.uid with
    | none => exact absurd hu (ne_of_findUid hf hr)
    | some x =>
      obtain ⟨hx, hxu⟩ := mem_of_findUid hf
      by_contra hne
      have hnd : (s.dir.records.map Record.uid).Nodup := List.pairwise_map.mpr hd.ids
      exact hne (congrArg some (List.inj_on_of_nodup_map hnd hx hr (hxu.trans hu.symm)))
  rw [askIndex, if_neg (unmarked_any hm loc), hfind]

theorem askIndex_unknown (hm : ∀ m ∈ s.dir.marks, m.uid ≠ info.uid) (hr : ∀ r ∈ s.dir.records, r.uid ≠ info.uid) (loc : Loc) :
    askIndex s info.uid loc = .unknown := by
  have hfind : findUid s info.uid = none := by
    cases hf : findUid s info.uid with
    | none => rfl
    | some x => exact absurd (mem_of_findUid hf).2 (hr x (mem_of_findUid hf).1)
  rw [askIndex, if_neg (unmarked_any hm loc), hfind]

end Matching

/-! ### Handles for new tiles (R5, R20) -/

theorem takeHandle_free {s : State} {h : Nat} {rest : List Nat} (hf : s.dir.freeList = h :: rest) :
    takeHandle s = some (h, modDir (fun d => { d with freeList := rest }) s) := by
  unfold takeHandle
  rw [hf]

theorem takeHandle_none {s : State} (hf : s.dir.freeList = []) (h : s.commit.state ≠ .idle ∨ s.dir.staleList = []) : takeHandle s = none := by
  unfold takeHandle
  rw [hf]
  dsimp only
  split
  · next hi hs =>
    rcases h with h | h
    · exact absurd hi h
    · cases hs.symm.trans h
  · rfl

/-- With the free-handle list empty the head of the stale list is evicted (R20). -/
theorem takeHandle_evicts {s : State} {r : Record} {rest : List Nat} (hf : s.dir.freeList = []) (hi : s.commit.state = .idle)
    (hs : s.dir.staleList = r.ref.handle :: rest) (hr : findRec s r.ref.handle = some r) :
    takeHandle s = some (r.ref.handle, modDir (fun d => { d with freeList := [] }) (retire r.ref.handle s)) := by
  have hfree : (retire r.ref.handle s).dir.freeList = [r.ref.handle] := by
    rw [HubMid.retire_dir hr]
    exact congrArg (· ++ [r.ref.handle]) hf
  unfold takeHandle
  rw [hf, hi, hs]
  dsimp only
  rw [hfree]

/-- Only an eviction reaches beyond the link, and only in IDLE. -/
theorem takeHandle_aside {s s' : State} {h : Nat} (ht : takeHandle s = some (h, s')) :
    Aside s s' ∧ (s'.links = s.links ∨ s.commit.state = .idle) := by
  unfold takeHandle at ht
  split at ht
  · cases ht
    exact ⟨.modDir .., .inl rfl⟩
  · split at ht
    · next old rest hi hs =>
      dsimp only at ht
      split at ht
      · cases ht
        exact ⟨(retire_aside ..).trans (.modDir ..), .inr hi⟩
      · cases ht
    · cases ht

/-! ### An assignment is put in progress -/

/-- A transaction at the head of the scan class takes a free wire, or stays there. -/
theorem arbitrated_scanHead {idle : Bool} {now : Nat} {e : LinkEngine} {t : Txn} {q : List Txn} (hq : e.scanQ = t :: q) :
    (∃ g, (e.arbitrated idle now).flight = some g ∧ g.txn = t) ∨ (e.arbitrated idle now).scanQ.head? = some t := by
  have hhead : e.scanQ.head? = some t := by rw [hq]; rfl
  unfold LinkEngine.arbitrated
  split
  · exact .inr hhead
  · unfold choose
    cases hs : e.state with
    | running =>
      dsimp only
      cases hc : e.commitQ with
      | cons x xs => exact .inr hhead
      | nil =>
        dsimp only
        rw [hq]
        exact .inl ⟨_, rfl, rfl⟩
    | scanning =>
      dsimp only
      rw [hq]
      by_cases ht : t.isFullScan = true
      · rw [List.find?_cons_of_pos ht]
        exact .inl ⟨_, rfl, rfl⟩
      · rw [List.find?_cons_of_neg ht]
        cases hf : q.find? Txn.isFullScan with
        | none => exact .inr hhead
        | some x =>
          refine .inr ?_
          show ((t :: q).eraseP Txn.isFullScan).head? = some t
          rw [List.eraseP_cons_of_neg ht]
          rfl
    | training => exact .inr hhead
    | disabled => exact .inr hhead

theorem startAssign_link (l : LinkId) (a : Assignment) (s : State) : (startAssign l a s).links.get l
    = { s.links.get l with assigning := some a, scanQ := a.txn :: (s.links.get l).scanQ } := Quad.get_modify_self ..

/-- In a sound hub the ASSIGN in progress is the first of the scan steps, and no ENUM_QUERY of its hop waits. -/
theorem LinkSound.assignAlone {e : LinkEngine} (h : LinkSound e) {a : Assignment} (ha : e.assigning = some a)
    (hs : e.state = HubMid.scanState a.full) : ∀ t ∈ e.scanQ, t.body = .enumQuery → t.dest ≠ .directed a.hop := by
  intro t ht hb hd
  obtain ⟨qs, hq, -, hnd⟩ := h.steps
  rw [ha] at hq hnd
  have hstep : t.isStep = true := by
    rcases h.scanClass t ht with hx | ⟨k, rfl⟩ | rfl
    · exact hx
    · cases hb
    · cases hb
  have hmem : t ∈ e.stepTraffic := List.mem_filter.mpr ⟨List.mem_append_right _ ht, hstep⟩
  rw [hq] at hmem
  rcases List.mem_append.mp hmem with hx | hx
  · rw [show t = a.txn by simpa using hx] at hb
    cases hb
  · obtain ⟨⟨full, k⟩, hk, rfl⟩ := List.mem_map.mp hx
    have hkhop : k = a.hop := by simpa [enumTxn] using hd
    subst hkhop
    cases full with
    | false =>
      have hin : a.hop ∈ (qs.filter (fun q => !q.1)).map Prod.snd := List.mem_map.mpr ⟨(false, a.hop), List.mem_filter.mpr ⟨hk, rfl⟩, rfl⟩
      exact (List.nodup_append.mp hnd).2.2 a.hop (by simp) a.hop hin rfl
    | true =>
      cases hfull : a.full with
      | false =>
        have hno := h.fullStep (by rw [hs, hfull]; nofun) _ (hq ▸ hmem)
        cases hno
      | true =>
        have hscan : e.state = .scanning := by rw [hs, hfull]; rfl
        obtain ⟨sc, hsc⟩ := Option.isSome_iff_exists.mp (h.scanning.mpr hscan)
        obtain ⟨-, x, hx1, -⟩ := h.oneFullStep sc hsc
        have hafull : a.txn.isFullScan = true := by simp [Assignment.txn, Txn.isFullScan, hfull]
        have htail : enumTxn true a.hop ∈ (qs.map fun q => enumTxn q.1 q.2).filter Txn.isFullScan :=
          List.mem_filter.mpr ⟨hx, rfl⟩
        rw [hq] at hx1
        have hcons : ([a].map Assignment.txn ++ qs.map fun q => enumTxn q.1 q.2).filter Txn.isFullScan
            = a.txn :: (qs.map fun q => enumTxn q.1 q.2).filter Txn.isFullScan := by simp [hafull]
        have hnil := (List.cons.inj (hcons.symm.trans hx1)).2
        rw [hnil] at htail
        cases htail

theorem assigns_finish {l : LinkId} {a : Assignment} {w : State} {n : Nat} (hsound : HubSound (finishLinks n (startAssign l a w)))
    (hs : (w.links.get l).state = HubMid.scanState a.full) : Assigns (finishLinks n (startAssign l a w)) l a := by
  have hlink := startAssign_link l a w
  have hass : ((finishLinks n (startAssign l a w)).links.get l).assigning = some a := by rw [finishLinks_assigning, hlink]
  refine ⟨hass, ?_, (hsound.links l).assignAlone hass ?_⟩
  · obtain ⟨ts, hts, -⟩ := finishLinks_link n (startAssign l a w) l
    rw [hts]
    refine arbitrated_scanHead (t := a.txn)
      (q := (w.links.get l).scanQ ++ ((startAssign l a w).links.get l).scansCaused.map (enumTxn false)) ?_
    have hqueue : (((startAssign l a w).links.get l).queueCaused.queueCatch ts).scanQ = ((startAssign l a w).links.get l).scanQ
        ++ ((startAssign l a w).links.get l).scansCaused.map (enumTxn false) := rfl
    rw [hqueue, hlink]
    rfl
  · rw [finishLinks_link_state, hlink]
    exact hs

end Sys2Proof.Machine
end

section
/-! PROOFS. The end of an ENUM_QUERY with a reply (O45). -/

namespace Sys2Proof.Machine

/-! ### The wire left by a scan step -/

theorem vacated_mid {s : State} (h : HubMid allPaid .none s) {l : LinkId} {f : Flight} (hf : (s.links.get l).flight = some f)
    (hp : f.phase = .onWire) (now : Nat) (x : Option Expiry) :
    HubMid (owing l (EngineMid.debtOf f.txn (some (s.links.get l).state))) .none (vacated l now x s) := by
  have hmod : HubMid (owing l (EngineMid.debtOf f.txn (some (s.links.get l).state))) .none (modLink l (LinkEngine.freed x) s) :=
    h.modLinkOwed fun k => { k.freeWire hf hp with }
  exact hmod.of_eq

theorem sound_of_exec {s s' : State} {c : Instr} (hw : WellShaped s) (hs : HubSound s) (h : exec c s = .next s') : HubSound s' :=
  HubMid.sound (Does.hub (does_of_exec h) (hs.mid hw) fun l => (hw.links l).caused)

/-- What holds where the answer of an ENUM_QUERY is taken. -/
structure AnsweredAt (s y : State) (l : LinkId) (hop : Nat) (full : Bool) : Prop where
  mid : HubMid (HubMid.owingEnum l full hop) .none y
  rests : Rests y
  aside : Aside s y
  dir : y.dir = s.dir
  store : y.store = s.store
  port : y.port = s.port
  hops : (y.links.get l).hops = (s.links.get l).hops
  assigning : (y.links.get l).assigning = none
  flight : (y.links.get l).flight = none
  within : hop < 16

theorem AnsweredAt.length {s y : State} {l : LinkId} {hop : Nat} {full : Bool} (h : AnsweredAt s y l hop full) :
    (y.links.get l).hops.length = 16 := h.mid.dir.lengths l

theorem AnsweredAt.state {s y : State} {l : LinkId} {hop : Nat} {full : Bool} (h : AnsweredAt s y l hop full) :
    (y.links.get l).state = HubMid.scanState full := (h.mid.owed.known _ rfl).1

theorem AnsweredAt.entry {s y : State} {l : LinkId} {hop : Nat} {full : Bool} (h : AnsweredAt s y l hop full) :
    (y.links.get l).entry hop = (s.links.get l).entry hop := entry_of_hops h.hops hop

/-- An ENUM_QUERY ends with a reply: the event. -/
theorem enumAnswered {s : State} {l : LinkId} {f : Flight} {c : Instr} {st : TileStatus} {reply : ReplyBody} {full : Bool} {hop : Nat}
    (hw : WellShaped s) (hs : HubSound s) (hr : Rests s) (h : Ends s l f c (some (st, reply)) s.now) (ht : f.txn = enumTxn full hop) :
    ∃ y, AnsweredAt s y l hop full ∧ y.now = s.now
      ∧ exec c s = .next (finishEvent s.port.completions.length (enumReplied l hop full st reply y)) := by
  obtain ⟨x, hx⟩ := h.directed (hop := hop) (by rw [ht]; rfl)
  obtain ⟨hf, hphase, -⟩ := HubMid.waitingFlight_some h.2.1
  have hmid := vacated_mid (hs.mid hw) hf hphase s.now x
  have hstate : (s.links.get l).state = HubMid.scanState full := by
    rcases HubMid.step_in_flight (hs.mid hw) hf (by rw [ht]; rfl) with ⟨a, -, ha⟩ | ⟨full', hop', he, hst⟩
    · cases congrArg Txn.body (ht.symm.trans ha)
    · cases congrArg Txn.req (ht.symm.trans he)
      exact hst
  rw [ht, hstate] at hmid
  have hlink := vacated_link l s.now x s
  refine ⟨vacated l s.now x s, ⟨hmid, vacated_rests hr hf (by rw [ht]; rfl) .., ?_, rfl, rfl, rfl, vacated_hops .., hmid.owed.assigning_none,
    ?_, hmid.owed.owed_hop⟩, rfl, hx.trans ?_⟩
  · exact (Aside.ofLink s (l := l) (f := LinkEngine.freed x) rfl).trans ⟨rfl, .of_eq rfl rfl⟩
  · rw [hlink]
    rfl
  · rw [ht]
    rfl

section Course

variable {s y z : State} {l : LinkId} {hop : Nat} {full : Bool} {why : Unlisted} {n : Nat}

/-- The matching has made the hop UNLISTED: the end of the event. -/
theorem HopUnlisted.ends (ha : AnsweredAt s y l hop full) (h : HopUnlisted y z l hop why) :
    FoundUnlisted s (finishEvent n (stepMatched l full z)) l hop why := by
  have hover := stepMatched_over (h.length.trans ha.length) full
  rw [finishEvent_rests ((h.atLink.trans hover.atLink).rests ha.rests)]
  refine ⟨?_, ?_, ?_, ?_⟩
  · rw [entry_of_hops (finishLinks_link_hops ..), entry_of_hops hover.hops]
    exact h.entry
  · rw [finishLinks_dir, hover.dir, h.dir, ha.dir]
  · rw [finishLinks_assigning, hover.assigning, h.assigning, ha.assigning]
  · rw [finishLinks_raised, hover.found, h.found, ha.entry, Raised, ha.port]
    rfl

/-- What the matching of an answer may do. -/
structure Matched (l : LinkId) (y z : State) : Prop where
  aside : Aside y z
  atLink : AtLink l y z ∨ y.commit.state = .idle
  records : ∀ r ∈ z.dir.records, r ∈ y.dir.records

theorem Matched.settled (h : Matched l y z) (hr : Rests y) : settledCtl (finishEvent n z).commit = settledCtl y.commit := by
  have hrest : Rests z := h.atLink.elim (fun k => k.rests hr) fun hi => .inr (.inl (by rw [h.aside.commit]; exact hi))
  rw [finishEvent_rests hrest, finishLinks_ctl, h.aside.commit]

theorem StepOver.matched (h : AtLink l y z) (hd : ∀ r ∈ z.dir.records, r ∈ y.dir.records) (hlen : (z.links.get l).hops.length = 16) :
    Matched l y (stepMatched l full z) := by
  have hover := stepMatched_over hlen full
  refine ⟨h.aside.trans hover.atLink.aside, .inl (h.trans hover.atLink), fun _ hr => hd _ ?_⟩
  rwa [hover.dir] at hr

theorem HopUnlisted.matched (h : HopUnlisted y z l hop why) (hlen : (y.links.get l).hops.length = 16) :
    Matched l y (stepMatched l full z) :=
  StepOver.matched h.atLink (fun _ hr => h.dir ▸ hr) (h.length.trans hlen)

theorem startAssign_atLink (l : LinkId) (a : Assignment) (s : State) : AtLink l s (startAssign l a s) :=
  (AtLink.ofLinks (.modDir ..) rfl).trans (.ofLink rfl rfl)

theorem startAssign_step (l : LinkId) (a : Assignment) (full : Bool) (s : State) :
    stepMatched l full (startAssign l a s) = startAssign l a s :=
  stepMatched_assigning (by rw [startAssign_link]; rfl) full

theorem HopUnlisted.raiseHandle (h : HopUnlisted y z l hop why) (m : Nat) (r : Reason) :
    HopUnlisted y (Machine.raiseHandle m r z) l hop why :=
  ⟨h.atLink.trans (.ofLinks (.raiseHandle ..) rfl), h.dir, h.entry, h.length, h.assigning, h.found⟩

theorem matchReply_matched (hlen : (y.links.get l).hops.length = 16) (hhop : hop < 16) (reply : Option EnumInfo) :
    Matched l y (stepMatched l full (matchReply l hop full reply y)) := by
  have hun : ∀ why, HopUnlisted y (setUnlisted l hop why y) l hop why := fun why => setUnlisted_unlists (by omega) why
  unfold matchReply
  split
  · exact (hun _).matched hlen
  · split
    · exact (hun _).matched hlen
    · split
      · exact (hun _).matched hlen
      · split
        · split
          · exact StepOver.matched (.refl l y) (fun r hr => hr) hlen
          · exact ((hun _).raiseHandle ..).matched hlen
        · rw [startAssign_step]
          exact ⟨(startAssign_atLink ..).aside, .inl (startAssign_atLink ..), fun r hr => hr⟩
      · split
        · next h s' ht =>
          obtain ⟨haside, hlinks⟩ := takeHandle_aside ht
          have hat := fun a => startAssign_atLink l a s'
          rw [startAssign_step]
          exact ⟨haside.trans (hat _).aside, hlinks.imp (fun hl => (AtLink.ofLinks haside hl).trans (hat _)) id,
            (HubMid.takeHandle_subset ht).1⟩
        · exact (hun _).matched hlen

end Course

end Sys2Proof.Machine
end

section
/-! PROOFS. O45: the hops that list no record, and those that list one. -/

namespace Sys2Proof.Machine

section Vacant

variable {s y : State} {l : LinkId} {hop : Nat} {full : Bool} {n : Nat}

theorem AnsweredAt.unlists (ha : AnsweredAt s y l hop full) (why : Unlisted) : HopUnlisted y (setUnlisted l hop why y) l hop why :=
  setUnlisted_unlists (by rw [ha.length]; exact ha.within) why

/-- Where the hop lists no record the answer is matched. -/
theorem enumReplied_vacant (ha : AnsweredAt s y l hop full) (hent : ∀ ref, (s.links.get l).entry hop ≠ .listed ref) (st : TileStatus)
    (reply : ReplyBody) : enumReplied l hop full st reply y = stepMatched l full (matchReply l hop full (enumInfoOf st reply) y) := by
  unfold enumReplied
  dsimp only
  split
  · next ref he => exact absurd (ha.entry.symm.trans he) (hent ref)
  · rfl

/-- An assignment put in progress on a hub that differs from the answered one at the directory alone, or by an eviction. -/
theorem AnsweredAt.assigns (ha : AnsweredAt s y l hop full) {w : State} {a : Assignment} (hw : Aside y w)
    (hlinks : w.links = y.links ∨ y.commit.state = .idle) (hstate : (w.links.get l).state = (y.links.get l).state) (hfull : a.full = full)
    (hsound : HubSound (finishEvent n (stepMatched l full (startAssign l a w)))) :
    finishEvent n (stepMatched l full (startAssign l a w)) = finishLinks n (startAssign l a w)
      ∧ Assigns (finishEvent n (stepMatched l full (startAssign l a w))) l a := by
  have hrest : Rests (startAssign l a w) := by
    rcases hlinks with hl | hi
    · exact ((AtLink.ofLinks hw hl).trans (startAssign_atLink l a w)).rests ha.rests
    · exact .inr (.inl ((congrArg CommitCtl.state hw.commit).trans hi))
  have heq : finishEvent n (stepMatched l full (startAssign l a w)) = finishLinks n (startAssign l a w) := by
    rw [startAssign_step, finishEvent_rests hrest]
  rw [heq] at hsound ⊢
  exact ⟨rfl, assigns_finish hsound (by rw [hstate, ha.state, hfull])⟩

theorem startAssign_dir (l : LinkId) (a : Assignment) (s : State) :
    (startAssign l a s).dir = { s.dir with marks := s.dir.marks ++ [a.mark l] } := rfl

theorem raised_duplicate (ha : AnsweredAt s y l hop full) (hw : WellShaped s) (hd : DirectorySound s) {r : Record} (hr : r ∈ s.dir.records) :
    Raised (finishEvent n (stepMatched l full (raiseHandle r.ref.handle .duplicate (setUnlisted l hop (.duplicateId r.uid) y))))
      (.handle r.ref.handle) .duplicate := by
  obtain ⟨-, hlen, hrange⟩ := numbered_of_sound hw hd
  obtain ⟨h1, h2, -⟩ := hrange r hr
  have hun := ha.unlists (.duplicateId r.uid)
  have hz := hun.raiseHandle r.ref.handle .duplicate
  have hover := stepMatched_over (hz.length.trans ha.length) full
  have hattn : (setUnlisted l hop (.duplicateId r.uid) y).port.attn.handles.length = 80 := by
    obtain ⟨a, heq, hh, -⟩ := setUnlisted_eq l hop (.duplicateId r.uid) y
    rw [heq]
    exact (congrArg List.length (hh.trans (by rw [ha.port]))).trans hlen
  rw [finishEvent_rests ((hz.atLink.trans hover.atLink).rests ha.rests), finishLinks_raised]
  have hraised := raised_raiseHandle hattn h1 h2 .duplicate
  unfold Raised at hraised ⊢
  have hflags : ∀ a b : AttnSet, a.handles = b.handles → a.flagsOf (.handle r.ref.handle) = b.flagsOf (.handle r.ref.handle) := fun a b h => by
    unfold AttnSet.flagsOf
    dsimp only
    rw [h]
  rwa [hflags _ _ hover.handles]

/-- The head of the stale list is evicted for a new tile (R20). -/
theorem evict_dir (ha : AnsweredAt s y l hop full) (hw : WellShaped s) (hd : DirectorySound s) {r : Record} {rest : List Nat}
    (hr : r ∈ s.dir.records) (hfree : s.dir.freeList = []) (hs : s.dir.staleList = r.ref.handle :: rest) :
    (modDir (fun d => { d with freeList := [] }) (retire r.ref.handle y)).dir = { s.dir with
        gens := s.dir.gens.set (r.ref.handle - 1) ((genOf s r.ref.handle + 1) % 16)
        records := s.dir.records.filter (fun x => x.ref.handle != r.ref.handle)
        staleList := rest }
      ∧ genOf (modDir (fun d => { d with freeList := [] }) (retire r.ref.handle y)) r.ref.handle = (genOf s r.ref.handle + 1) % 16 := by
  obtain ⟨hgens, -, hrange⟩ := numbered_of_sound hw hd
  obtain ⟨h1, h2, hgen⟩ := hrange r hr
  have hfind : findRec y r.ref.handle = some r := by
    have := (hd.names hr).findRec
    rwa [findRec, ← ha.dir] at this
  have hdir : (retire r.ref.handle y).dir = _ := HubMid.retire_dir hfind
  have hnodup := staleList_nodup hd
  rw [hs, List.nodup_cons] at hnodup
  have hrest : s.dir.staleList.filter (fun x => x != r.ref.handle) = rest := by
    rw [hs, List.filter_cons_of_neg (by simp)]
    refine List.filter_eq_self.mpr fun x hx => ?_
    have hne : x ≠ r.ref.handle := fun h => hnodup.1 (h ▸ hx)
    simpa using hne
  rw [ha.dir] at hdir
  refine ⟨?_, ?_⟩
  · rw [modDir_dir, hdir, hrest, hgen]
    dsimp only
    rw [hfree]
  · rw [genOf, modDir_dir, hdir, genOf_set hgens h1 h2 h1, if_pos rfl, hgen]

/-- An ID marked is marked for another hop. -/
theorem AnsweredAt.marked (ha : AnsweredAt s y l hop full) {u : Uid} (h : ∃ m ∈ s.dir.marks, m.uid = u) :
    askIndex y u ⟨l, hop⟩ = .markedElsewhere := by
  obtain ⟨m, hm, hu⟩ := h
  exact if_pos (by_contra fun hn => ha.mid.unmarked ha.assigning hn m (by rw [ha.dir]; exact hm) hu)

end Vacant

/-! ### A hop that lists a record (R136) -/

section Listed

variable {s y : State} {l : LinkId} {hop : Nat} {full : Bool} {n : Nat} {r : Record}

/-- The hub whose record listed at the hop has been claimed REPLACED. -/
def claimedHop (l : LinkId) (hop : Nat) (full : Bool) (ref : Ref) (s : State) : State :=
  if full then countScan l (fun sc => { sc with claimed := sc.claimed + 1 }) (setHop l hop .empty (claimStale ref.handle .replaced s))
  else setHop l hop .empty (claimStale ref.handle .replaced s)

theorem AnsweredAt.names (ha : AnsweredAt s y l hop full) (hd : DirectorySound s) (hr : r ∈ s.dir.records) : Names y r.ref r :=
  (hd.names hr).of_dir (congrArg Directory.records ha.dir)

theorem enumReplied_own (ha : AnsweredAt s y l hop full) (hd : DirectorySound s) (hr : r ∈ s.dir.records)
    (hl : (s.links.get l).entry hop = .listed r.ref) {info : EnumInfo} (hu : info.uid = r.uid) :
    enumReplied l hop full .ok (.enumInfo info) y
      = stepMatched l full (if info.held = r.ref then updRec r.ref.handle (fun x => { x with miss := 0 }) y else y) := by
  simp only [enumReplied, enumInfoOf, ha.entry.trans hl, (ha.names hd hr).findRef, hu, if_true]

theorem enumReplied_other (ha : AnsweredAt s y l hop full) (hd : DirectorySound s) (hr : r ∈ s.dir.records)
    (hl : (s.links.get l).entry hop = .listed r.ref) {st : TileStatus} {reply : ReplyBody}
    (hu : ∀ info, st = .ok → reply = .enumInfo info → info.uid ≠ r.uid) : enumReplied l hop full st reply y
      = stepMatched l full (matchReply l hop full (enumInfoOf st reply) (claimedHop l hop full r.ref y)) := by
  have hinfo : ∀ i, enumInfoOf st reply = some i → i.uid ≠ r.uid := fun i hi => by
    unfold enumInfoOf at hi
    split at hi
    · cases hi
      exact hu i rfl rfl
    · cases hi
  cases hi : enumInfoOf st reply with
  | none => simp only [enumReplied, hi, ha.entry.trans hl, (ha.names hd hr).findRef, claimedHop]
  | some i => simp only [enumReplied, hi, ha.entry.trans hl, (ha.names hd hr).findRef, hinfo i hi, if_false, claimedHop]

theorem own_ends (ha : AnsweredAt s y l hop full) (hd : DirectorySound s) (hr : r ∈ s.dir.records)
    (hl : (s.links.get l).entry hop = .listed r.ref) (held : Ref) :
    let s' := finishEvent n (stepMatched l full (if held = r.ref then updRec r.ref.handle (fun x => { x with miss := 0 }) y else y))
    (s'.links.get l).entry hop = .listed r.ref ∧ settledCtl s'.commit = settledCtl s.commit
      ∧ s'.dir = { s.dir with records := s.dir.records.map (fun y => if y.ref = r.ref ∧ held = r.ref then { y with miss := 0 } else y) } := by
  intro s'
  have hz : ∃ z, z = (if held = r.ref then updRec r.ref.handle (fun x => { x with miss := 0 }) y else y) ∧ AtLink l y z ∧ z.links = y.links
      ∧ z.dir = { s.dir with records := s.dir.records.map (fun y => if y.ref = r.ref ∧ held = r.ref then { y with miss := 0 } else y) } := by
    refine ⟨_, rfl, ?_⟩
    by_cases hh : held = r.ref
    · simp only [hh, and_true]
      refine ⟨.ofLinks (.updRec ..) rfl, rfl, (updRec_named (ha.names hd hr) _).trans ?_⟩
      rw [ha.dir]
    · simp only [hh, and_false, if_false, List.map_id']
      exact ⟨.refl l y, trivial, ha.dir⟩
  obtain ⟨z, heq, hat, hlinks, hdir⟩ := hz
  have hs' : s' = finishEvent n (stepMatched l full z) := by rw [heq]
  have hover := stepMatched_over (s := z) (by rw [hlinks]; exact ha.length) full
  rw [hs', finishEvent_rests ((hat.trans hover.atLink).rests ha.rests)]
  refine ⟨?_, ?_, ?_⟩
  · rw [entry_of_hops (finishLinks_link_hops ..), entry_of_hops hover.hops, hlinks, ha.entry, hl]
  · rw [finishLinks_ctl, (hat.trans hover.atLink).aside.commit, ha.aside.commit]
  · rw [finishLinks_dir, hover.dir, hdir]

theorem claimedHop_aside (l : LinkId) (hop : Nat) (full : Bool) (ref : Ref) (s : State) :
    Aside (claimStale ref.handle .replaced s) (claimedHop l hop full ref s) := by
  have hset : Aside (claimStale ref.handle .replaced s) (setHop l hop .empty (claimStale ref.handle .replaced s)) := .ofLink _ rfl
  unfold claimedHop
  split
  · exact hset.trans (.ofLink _ rfl)
  · exact hset

theorem claimedHop_dir (l : LinkId) (hop : Nat) (full : Bool) (ref : Ref) (s : State) :
    (claimedHop l hop full ref s).dir = (claimStale ref.handle .replaced s).dir := by
  unfold claimedHop
  split <;> rfl

theorem claimedHop_length (ha : AnsweredAt s y l hop full) (hl : (s.links.get l).entry hop = .listed r.ref) :
    ((claimedHop l hop full r.ref y).links.get l).hops.length = 16 := by
  have k := ha.mid.claimHop (why := .replaced) (ha.entry.trans hl)
  have hmid : HubMid (HubMid.owingEnum l full hop) .none (claimedHop l hop full r.ref y) := by
    unfold claimedHop
    split
    · exact k.countScan fun _ => rfl
    · exact k
  exact hmid.dir.lengths l

theorem claimed_matched (ha : AnsweredAt s y l hop full) (hl : (s.links.get l).entry hop = .listed r.ref) (info : Option EnumInfo) :
    Matched l (claimedHop l hop full r.ref y) (stepMatched l full (matchReply l hop full info (claimedHop l hop full r.ref y))) :=
  matchReply_matched (claimedHop_length ha hl) ha.within info

theorem claimed_records (ha : AnsweredAt s y l hop full) (hd : DirectorySound s) (hr : r ∈ s.dir.records)
    (hl : (s.links.get l).entry hop = .listed r.ref) (hst : r.state ≠ .stale) (info : Option EnumInfo) :
    ∀ x ∈ (finishEvent n (stepMatched l full (matchReply l hop full info (claimedHop l hop full r.ref y)))).dir.records,
      x.ref = r.ref → x = r.lost y.now .replaced := by
  intro x hx href
  have hnames := (ha.names hd hr).claimStale r.ref.handle .replaced
  rw [show r.claimed r.ref.handle y.now .replaced = r.lost y.now .replaced from if_pos ⟨rfl, hst⟩] at hnames
  have hmem := (claimed_matched ha hl info).records x (finishEvent_records_subset hx)
  rw [claimedHop_dir] at hmem
  exact hnames.1.only x hmem (congrArg Ref.handle href)

theorem claimedRefs_single {ref : Ref} (hn : Names s ref r) (hst : r.state ≠ .stale) (why : StaleReason) :
    claimedRefs [(ref.handle, why)] s = [r.ref] := by
  simp [claimedRefs, hn.findRec, Record.reachable, hst]

theorem claimed_meets (ha : AnsweredAt s y l hop full) (hnow : y.now = s.now) (hd : DirectorySound s) (hc : CommitSound s)
    (hr : r ∈ s.dir.records) (hl : (s.links.get l).entry hop = .listed r.ref) (hst : r.state ≠ .stale) (info : Option EnumInfo) :
    CommitMeets s (finishEvent s.port.completions.length
        (stepMatched l full (matchReply l hop full info (claimedHop l hop full r.ref y)))) s.now
      (fun p => p.ref == r.ref) (fun p => p.ref.handle) := by
  by_cases hstate : s.commit.state = .cancelling
  · exact commitMeets_of_state (.inr hstate)
  · have hm : MeetsLosses s := ⟨hc.statuses, hc.participants, hstate⟩
    have hmet := ((Met.start hnow ha.aside.commit ha.aside.ext).claims hm [(r.ref.handle, .replaced)]).aside
      ((claimedHop_aside l hop full r.ref y).trans (claimed_matched ha hl info).aside)
    rw [claimedRefs_single (ha.names hd hr) hst, List.nil_append] at hmet
    refine hmet.commitMeets hm.fit (fun p _ _ => by simp) fun ref hf p _ hp _ _ => ?_
    have href : ref ∈ [r.ref] := List.mem_of_find?_eq_some hf
    rw [List.mem_singleton.mp href]
    simpa using hp

end Listed

end Sys2Proof.Machine
end

section
/-! PROOFS. O45 from the cases of the matching. -/

namespace Sys2Proof.Machine

section Vacant

variable {s y : State} {l : LinkId} {hop : Nat} {full : Bool} {n : Nat} {info : EnumInfo}

/-- An ENUM_QUERY is answered OK with an ID and a capacity that a record may have, at a hop that lists none. -/
structure Matching (s y : State) (l : LinkId) (hop : Nat) (full : Bool) (info : EnumInfo) (n : Nat) : Prop where
  answered : AnsweredAt s y l hop full
  shaped : WellShaped s
  sound : HubSound s
  vacant : ∀ ref, (s.links.get l).entry hop ≠ .listed ref
  uid : info.uid ≠ 0
  uidOnes : info.uid ≠ BitVec.allOnes 64
  capacity : info.capacity ≠ 0
  after : HubSound (finishEvent n (stepMatched l full (matchReply l hop full (some info) y)))

theorem Matching.marked (h : Matching s y l hop full info n) (hm : ∃ m ∈ s.dir.marks, m.uid = info.uid) :
    FoundUnlisted s (finishEvent n (stepMatched l full (matchReply l hop full (some info) y))) l hop (.duplicateId info.uid) := by
  rw [matchReply_marked h.uid h.uidOnes h.capacity full (h.answered.marked hm)]
  exact (h.answered.unlists _).ends h.answered

theorem Matching.unmarked (h : Matching s y l hop full info n) (hm : ∀ m ∈ s.dir.marks, m.uid ≠ info.uid) :
    ∀ m ∈ y.dir.marks, m.uid ≠ info.uid := by
  rwa [h.answered.dir]

theorem Matching.record (h : Matching s y l hop full info n) (hm : ∀ m ∈ s.dir.marks, m.uid ≠ info.uid) {r : Record}
    (hr : r ∈ s.dir.records) (hu : r.uid = info.uid) : askIndex y info.uid ⟨l, hop⟩ = .record r := by
  have hrecord := askIndex_record hm h.sound.directory hr hu ⟨l, hop⟩
  rwa [askIndex, findUid, ← h.answered.dir] at hrecord

/-- A reachable record holds the ID (R131). -/
theorem Matching.held (h : Matching s y l hop full info n) (hm : ∀ m ∈ s.dir.marks, m.uid ≠ info.uid) {r : Record}
    (hr : r ∈ s.dir.records) (hu : r.uid = info.uid) (hst : r.state ≠ .stale) :
    FoundUnlisted s (finishEvent n (stepMatched l full (matchReply l hop full (some info) y))) l hop (.duplicateId info.uid)
      ∧ Raised (finishEvent n (stepMatched l full (matchReply l hop full (some info) y))) (.handle r.ref.handle) .duplicate := by
  have hloc : r.loc ≠ ⟨l, hop⟩ := fun he => by
    have hlisted := (h.sound.directory.listedAt hr hst).1
    rw [he] at hlisted
    exact h.vacant _ hlisted
  rw [matchReply_held h.uid h.uidOnes h.capacity full (h.record hm hr hu) hst hloc]
  refine ⟨((h.answered.unlists _).raiseHandle ..).ends h.answered, ?_⟩
  rw [← hu]
  exact raised_duplicate h.answered h.shaped h.sound.directory hr

/-- The STALE record that holds the ID is to be re-bound (R132). -/
theorem Matching.stale (h : Matching s y l hop full info n) (hm : ∀ m ∈ s.dir.marks, m.uid ≠ info.uid) {r : Record}
    (hr : r ∈ s.dir.records) (hu : r.uid = info.uid) (hst : r.state = .stale) :
    let s' := finishEvent n (stepMatched l full (matchReply l hop full (some info) y))
    Assigns s' l ⟨hop, .assigningRebind, r.ref, info, full⟩
      ∧ s'.dir = { s.dir with marks := s.dir.marks ++ [⟨info.uid, .assigningRebind, r.ref, ⟨l, hop⟩⟩] } := by
  intro s'
  have hmatch := matchReply_stale h.uid h.uidOnes h.capacity full (h.record hm hr hu) hst
  have hs' : s' = finishEvent n (stepMatched l full (startAssign l ⟨hop, .assigningRebind, r.ref, info, full⟩ y)) := by rw [← hmatch]
  have hafter := h.after
  rw [hmatch] at hafter
  obtain ⟨heq, hassigns⟩ := h.answered.assigns (.refl y) (.inl rfl) rfl rfl hafter
  rw [hs']
  refine ⟨hassigns, ?_⟩
  rw [heq, finishLinks_dir, startAssign_dir, h.answered.dir]
  rfl

section New

variable (h : Matching s y l hop full info n) (hm : ∀ m ∈ s.dir.marks, m.uid ≠ info.uid) (hr : ∀ r ∈ s.dir.records, r.uid ≠ info.uid)

include h hm hr

theorem Matching.unknown : askIndex y info.uid ⟨l, hop⟩ = .unknown :=
  askIndex_unknown (h.unmarked hm) (by rw [h.answered.dir]; exact hr) _

/-- A new tile takes a handle: the event. -/
theorem Matching.new {m : Nat} {w : State} (ht : takeHandle y = some (m, w)) (hstate : (w.links.get l).state = (y.links.get l).state) :
    let s' := finishEvent n (stepMatched l full (matchReply l hop full (some info) y))
    s' = finishLinks n (startAssign l ⟨hop, .assigningNew, ⟨m, genOf w m⟩, info, full⟩ w)
      ∧ Assigns s' l ⟨hop, .assigningNew, ⟨m, genOf w m⟩, info, full⟩ := by
  intro s'
  have hmatch := matchReply_new h.uid h.uidOnes h.capacity full (h.unknown hm hr) ht
  have hs' : s' = finishEvent n (stepMatched l full (startAssign l ⟨hop, .assigningNew, ⟨m, genOf w m⟩, info, full⟩ w)) := by rw [← hmatch]
  have hafter := h.after
  rw [hmatch] at hafter
  obtain ⟨haside, hlinks⟩ := takeHandle_aside ht
  rw [hs']
  exact h.answered.assigns haside hlinks hstate rfl hafter

/-- The free handle at the head of the list is taken (R5). -/
theorem Matching.free {m : Nat} {rest : List Nat} (hfree : s.dir.freeList = m :: rest) :
    let s' := finishEvent n (stepMatched l full (matchReply l hop full (some info) y))
    Assigns s' l ⟨hop, .assigningNew, ⟨m, genOf s m⟩, info, full⟩
      ∧ s'.dir = { s.dir with
          freeList := rest
          marks := s.dir.marks ++ [⟨info.uid, .assigningNew, ⟨m, genOf s m⟩, ⟨l, hop⟩⟩] } := by
  intro s'
  obtain ⟨heq, hassigns⟩ := h.new hm hr (takeHandle_free (s := y) (rest := rest) (by rw [h.answered.dir]; exact hfree)) rfl
  have hgen : genOf (modDir (fun d => { d with freeList := rest }) y) m = genOf s m := by
    rw [genOf, modDir_dir, h.answered.dir]
    rfl
  rw [hgen] at heq hassigns
  refine ⟨hassigns, (congrArg State.dir heq).trans ?_⟩
  rw [finishLinks_dir, startAssign_dir, modDir_dir, h.answered.dir]
  rfl

/-- No handle is available (R132). -/
theorem Matching.noHandle (hfree : s.dir.freeList = []) (hstale : s.commit.state ≠ .idle ∨ s.dir.staleList = []) :
    FoundUnlisted s (finishEvent n (stepMatched l full (matchReply l hop full (some info) y))) l hop .directoryFull := by
  have hnone : takeHandle y = none := takeHandle_none (by rw [h.answered.dir]; exact hfree) (by
    rw [h.answered.aside.commit, h.answered.dir]
    exact hstale)
  rw [matchReply_noHandle h.uid h.uidOnes h.capacity full (h.unknown hm hr) hnone]
  exact (h.answered.unlists _).ends h.answered

/-- The head of the stale list is evicted (R20). -/
theorem Matching.evicts {m : Nat} {rest : List Nat} (hfree : s.dir.freeList = []) (hidle : s.commit.state = .idle)
    (hstale : s.dir.staleList = m :: rest) :
    let s' := finishEvent n (stepMatched l full (matchReply l hop full (some info) y))
    Assigns s' l ⟨hop, .assigningNew, ⟨m, (genOf s m + 1) % 16⟩, info, full⟩
      ∧ s'.port.attn.handles[m - 1]? = some ⟨Reason.retired.flag, some (genOf s m)⟩
      ∧ s'.store = s.store.filter (fun e => !e.namesHandle m)
      ∧ s'.dir = { s.dir with
          gens := s.dir.gens.set (m - 1) ((genOf s m + 1) % 16)
          records := s.dir.records.filter (fun r => r.ref.handle != m)
          staleList := rest
          marks := s.dir.marks ++ [⟨info.uid, .assigningNew, ⟨m, (genOf s m + 1) % 16⟩, ⟨l, hop⟩⟩] } := by
  intro s'
  have hmem : m ∈ (s.dir.records.filter (fun r => r.state == .stale)).map (fun r => r.ref.handle) :=
    h.sound.directory.stale.mem_iff.mp (by rw [hstale]; simp)
  obtain ⟨r, hrs, rfl⟩ := List.mem_map.mp hmem
  have hrec : r ∈ s.dir.records := (List.mem_filter.mp hrs).1
  have hfind : findRec y r.ref.handle = some r := (h.answered.names h.sound.directory hrec).findRec
  have htake := takeHandle_evicts (s := y) (by rw [h.answered.dir]; exact hfree) ((congrArg CommitCtl.state h.answered.aside.commit).trans hidle)
    (by rw [h.answered.dir]; exact hstale) hfind
  obtain ⟨hdir, hgen⟩ := evict_dir h.answered h.shaped h.sound.directory hrec hfree hstale
  obtain ⟨heq, hassigns⟩ := h.new hm hr htake (calm_state (retire_calm r.ref.handle y) l)
  rw [hgen] at heq hassigns
  have hs' : s' = _ := heq
  have hnum : Numbered y := by
    obtain ⟨hg, ha, hn⟩ := numbered_of_sound h.shaped h.sound.directory
    refine ⟨by rw [h.answered.dir]; exact hg, by rw [h.answered.port]; exact ha, ?_⟩
    rw [h.answered.dir]
    intro x hx
    rw [genOf, h.answered.dir]
    exact hn x hx
  have hretired := retire_retired hnum hfind
  refine ⟨hassigns, ?_, ?_, (congrArg State.dir heq).trans ?_⟩
  · rw [hs', finishLinks_attn]
    refine (hretired.raised _ (by simp)).trans ?_
    rw [genOf, h.answered.dir]
    rfl
  · rw [hs', finishLinks_store]
    exact (retire_store hfind).1.trans (by rw [h.answered.store])
  · rw [finishLinks_dir, startAssign_dir, hdir]
    rfl

end New

end Vacant

/-- Settles O45. -/
theorem enumReplyIsMatched : Obligations.EnumReplyIsMatched := by
  unfold Obligations.EnumReplyIsMatched
  intro s l f c st reply full hop hw hs hr hends ht
  obtain ⟨y, ha, hnow, hrun⟩ := enumAnswered hw hs hr hends ht
  have hafter := sound_of_exec hw hs hrun
  refine ⟨_, hrun, fun hvac => ?_, fun r hrec hl => ?_⟩
  · have heq := enumReplied_vacant ha hvac st reply
    rw [heq] at hafter ⊢
    refine ⟨((matchReply_matched ha.length ha.within _).settled ha.rests).trans (by rw [ha.aside.commit]), fun hst => ?_,
      fun info hst hreply => ?_⟩
    · have hnone : enumInfoOf st reply = none := by
        unfold enumInfoOf
        split
        · exact absurd rfl hst
        · rfl
      rw [hnone]
      exact (ha.unlists _).ends ha
    · subst hst hreply
      refine ⟨fun hbad => ?_, fun h0 h1 hc => ?_⟩
      · have hmatch : matchReply l hop full (enumInfoOf .ok (.enumInfo info)) y = setUnlisted l hop .badId y := matchReply_bad full hbad
        rw [hmatch]
        exact (ha.unlists _).ends ha
      · have hm : Matching s y l hop full info s.port.completions.length := ⟨ha, hw, hs, hvac, h0, h1, hc, hafter⟩
        exact ⟨hm.marked, fun hun => ⟨fun r hr hu => ⟨hm.held hun hr hu, hm.stale hun hr hu⟩,
          fun hno => ⟨fun h rest => hm.free hun hno, hm.noHandle hun hno, fun h rest => hm.evicts hun hno⟩⟩⟩
  · have hst : r.state ≠ .stale := by
      obtain ⟨x, hx, href, hst, -⟩ := (hs.directory.hops l hop r.ref).mp hl
      rwa [← (hs.directory.names hrec).1.only x hx (congrArg Ref.handle href)]
    refine ⟨fun info hst' hreply hu => ?_, fun hu => ?_⟩
    · subst hst' hreply
      rw [enumReplied_own ha hs.directory hrec hl hu]
      exact own_ends ha hs.directory hrec hl info.held
    · have heq := enumReplied_other ha hs.directory hrec hl hu
      rw [heq] at hafter ⊢
      have hlost := claimed_records (n := s.port.completions.length) ha hs.directory hrec hl hst (enumInfoOf st reply)
      rw [hnow] at hlost
      refine ⟨fun hlisted => ?_, hlost, fun hc => claimed_meets ha hnow hs.directory hc hrec hl hst _⟩
      obtain ⟨x, hx, href, hxs, -⟩ := (hafter.directory.hops l hop r.ref).mp hlisted
      exact hxs (by rw [hlost x hx href]; rfl)

end Sys2Proof.Machine
end

section
/-! PROOFS. The end of an ASSIGN of a scan step: its event, and how a full scan goes on behind it (R133, R136). -/

namespace Sys2Proof.Machine

/-- What stands beside the course of a commit and drops no flight calls for no test of the controller. -/
theorem Aside.rests {a b : State} (h : Aside a b) (hf : ∀ k, (b.links.get k).flight = (a.links.get k).flight) (hr : Rests a) : Rests b := by
  have hout : ∀ k, (b.links.get k).cancelOutstanding = (a.links.get k).cancelOutstanding := fun k =>
    cancelOutstanding_of (h.commitQ k) (by rw [hf])
  unfold Rests Waits at hr ⊢
  simpa only [h.commit, hout] using hr

/-! ### The full scan behind an ASSIGN -/

/-- The link on which an ASSIGN of the full scan has ended: the scan stands at its hop, with none of its transactions waiting. -/
structure ScanAt (e : LinkEngine) (hop : Nat) (sc : FullScan) : Prop where
  state : e.state = .scanning
  scan : e.scan = some sc
  hop : sc.hop = hop
  queue : e.scanQ.find? Txn.isFullScan = none
  flight : e.flight = none
  overtaking : e.overtaking = none
  caused : e.caused = []

theorem scanAt_of_owed {e : LinkEngine} {a : Assignment} {x : LinkState} (h : EngineMid ⟨[], [a.txn], some x, true⟩ e) (ha : a.full = true) :
    ∃ sc, ScanAt e a.hop sc := by
  have hfull : a.txn.isFullScan = true := by simp [Assignment.txn, Txn.isFullScan, ha]
  obtain ⟨hs, sc, hsc⟩ := h.scan_of_owed hfull
  have hflight : e.flight = none := (h.known _ rfl).2
  obtain ⟨-, t, ht, hdest⟩ := h.oneFullStep sc hsc
  have hcons : ([a.txn] ++ e.stepTraffic).filter Txn.isFullScan = a.txn :: e.stepTraffic.filter Txn.isFullScan := by simp [hfull]
  obtain ⟨rfl, hnone⟩ := List.cons.inj (hcons.symm.trans ht)
  refine ⟨sc, hs, hsc, ?_, List.find?_eq_none.mpr fun q hq hqf => ?_, hflight, ?_, ?_⟩
  · exact (Dest.directed.inj hdest).symm
  · have hstep : q.isStep = true := by
      have hreq : q.req = .scanStep true := by simpa [Txn.isFullScan] using hqf
      rw [Txn.isStep, hreq]
    have hmem : q ∈ e.stepTraffic.filter Txn.isFullScan :=
      List.mem_filter.mpr ⟨List.mem_filter.mpr ⟨List.mem_append_right _ hq, hstep⟩, hqf⟩
    rw [hnone] at hmem
    cases hmem
  · by_contra ho
    obtain ⟨f, hf, -⟩ := h.between.mp ho
    rw [hflight] at hf
    cases hf
  · by_contra hc
    cases hs.symm.trans (h.causing hc)

/-- The full scan goes on with the ENUM_QUERY of the next hop. -/
theorem scan_goesOn {l : LinkId} {s : State} {hop : Nat} {sc : FullScan} (h : ScanAt (s.links.get l) hop sc) (hlt : hop < 15) (n : Nat) :
    ((finishLinks n (nextStep l s)).links.get l).scan = some { sc with hop := hop + 1 }
      ∧ ∃ g, ((finishLinks n (nextStep l s)).links.get l).flight = some g ∧ g.txn = enumTxn true (hop + 1) := by
  have hnext : nextStep l s = modLink l (fun e => { e with
      scan := some { sc with hop := hop + 1 }, scanQ := e.scanQ ++ [enumTxn true (hop + 1)] }) s := by
    simp only [nextStep, h.scan, h.hop]
    exact if_pos (by simp [Config.hopCount]; omega)
  have hlink : (nextStep l s).links.get l = { s.links.get l with
      scan := some { sc with hop := hop + 1 }, scanQ := (s.links.get l).scanQ ++ [enumTxn true (hop + 1)] } := by
    rw [hnext]
    exact Quad.get_modify_self ..
  have hstate : ((nextStep l s).links.get l).state = .scanning := by rw [hlink]; exact h.state
  have hfind : ((nextStep l s).links.get l).scanQ.find? Txn.isFullScan = some (enumTxn true (hop + 1)) := by
    rw [hlink, List.find?_append, h.queue]
    rfl
  have hend := finishLinks_link_of_calm n (s := nextStep l s) (l := l) (by rw [hstate]; nofun) (by rw [hlink]; exact h.caused)
  rw [arbitrated_chosen (by rw [hlink]; exact h.flight) (by rw [hlink]; exact h.overtaking) (choose_fullScan hstate hfind)] at hend
  rw [hend]
  exact ⟨(congrArg LinkEngine.scan hlink :), _, rfl, rfl⟩

/-- The full scan ends with a reach of 16. -/
theorem endScan_link {l : LinkId} {s : State} {sc : FullScan} (hsc : (s.links.get l).scan = some sc)
    (hlen : (s.links.get l).hops.length = 16) :
    ((endScan l 16 s).links.get l).state = .running ∧ ((endScan l 16 s).links.get l).reach = 16 := by
  have hlost : handlesFrom (s.links.get l) 16 = [] := by
    rw [handlesFrom, List.drop_eq_nil_of_le hlen.le]
    rfl
  have hclaims : claimStaleAll [] s = s := rfl
  have hrescan : ∀ k x, (completeRescan l sc k x).links = x.links := fun k x => by
    unfold completeRescan
    split <;> rfl
  unfold endScan
  rw [hsc]
  dsimp only
  rw [hlost, List.map_nil, hclaims, hrescan]
  split
  · rw [modLink_links, Quad.get_modify_self]
    refine ⟨(notice_state ..).trans ?_, (congrArg LinkEngine.reach (notice_unnoticed ..) :).trans ?_⟩
    · exact congrArg LinkEngine.state (Quad.get_modify_self ..)
    · exact congrArg LinkEngine.reach (Quad.get_modify_self ..)
  · exact ⟨congrArg LinkEngine.state (Quad.get_modify_self ..), congrArg LinkEngine.reach (Quad.get_modify_self ..)⟩

theorem scan_ends {l : LinkId} {s : State} {sc : FullScan} (h : ScanAt (s.links.get l) 15 sc) (hlen : (s.links.get l).hops.length = 16)
    (n : Nat) : ((finishLinks n (nextStep l s)).links.get l).state = .running ∧ ((finishLinks n (nextStep l s)).links.get l).reach = 16 := by
  have hnext : nextStep l s = endScan l 16 s := by
    simp only [nextStep, h.scan, h.hop]
    exact if_neg (by simp [Config.hopCount])
  rw [hnext, finishLinks_link_state, finishLinks_link_reach]
  exact endScan_link h.scan hlen

/-! ### The event -/

/-- What holds where the end of an ASSIGN is taken. -/
structure AssignedAt (s y : State) (l : LinkId) (a : Assignment) (now : Nat) : Prop where
  mid : ∃ x, HubMid (HubMid.owingAssign l a x) .none y
  rests : Rests y
  now : y.now = now
  commit : y.commit = s.commit
  dir : y.dir = s.dir
  port : y.port = s.port
  jobs : y.jobs = s.jobs
  assigning : (y.links.get l).assigning = some a
  clear : enumTxn false a.hop ∉ (y.links.get l).scanQ ∧ (y.links.get l).caused = []

theorem assignAnswered {s : State} {l : LinkId} {f : Flight} {c : Instr} {out : Option (TileStatus × ReplyBody)} {now : Nat} {a : Assignment}
    (hw : WellShaped s) (hs : HubSound s) (hr : Rests s) (h : Ends s l f c out now) (ha : (s.links.get l).assigning = some a)
    (ht : f.txn = a.txn) : ∃ y, AssignedAt s y l a now ∧ ∀ ok : Bool, (ok = true ↔ ∃ body, out = some (.ok, body)) →
      exec c s = .next (finishEvent s.port.completions.length (assignEnded l ok y)) := by
  obtain ⟨x, hx⟩ := h.directed (hop := a.hop) (by rw [ht]; rfl)
  obtain ⟨hf, hphase, -⟩ := HubMid.waitingFlight_some h.2.1
  have hmid := vacated_mid (hs.mid hw) hf hphase now x
  rw [ht] at hmid
  have hlink := vacated_link l now x s
  have hclear : enumTxn false a.hop ∉ (s.links.get l).scanQ := fun hq => by
    obtain ⟨qs, hqs, -, hnd⟩ := (hs.links l).steps
    rw [ha] at hqs hnd
    have hflight : (s.links.get l).stepTraffic = a.txn :: (s.links.get l).scanQ.filter Txn.isStep := by
      rw [LinkEngine.stepTraffic, hf]
      exact congrArg (List.filter Txn.isStep) (congrArg (· :: (s.links.get l).scanQ) ht)
    have htail : (s.links.get l).scanQ.filter Txn.isStep = qs.map fun q => enumTxn q.1 q.2 := (List.cons.inj (hflight.symm.trans hqs)).2
    have hmem : enumTxn false a.hop ∈ qs.map fun q => enumTxn q.1 q.2 := by
      rw [← htail]
      exact List.mem_filter.mpr ⟨hq, rfl⟩
    obtain ⟨⟨full, k⟩, hk, he⟩ := List.mem_map.mp hmem
    have hkey : k = a.hop ∧ full = false := by simpa [enumTxn] using he
    obtain ⟨rfl, rfl⟩ := hkey
    have hin : a.hop ∈ (qs.filter (fun q => !q.1)).map Prod.snd := List.mem_map.mpr ⟨(false, a.hop), List.mem_filter.mpr ⟨hk, rfl⟩, rfl⟩
    exact (List.nodup_append.mp hnd).2.2 a.hop (by simp) a.hop hin rfl
  refine ⟨vacated l now x s, ⟨⟨_, hmid⟩, vacated_rests hr hf (by rw [ht]; rfl) .., rfl, rfl, rfl, rfl, rfl, ?_, ?_, ?_⟩, fun ok hok => hx.trans ?_⟩
  · rw [hlink]
    exact ha
  · rw [hlink]
    exact hclear
  · rw [hlink]
    exact (hw.links l).caused
  · rw [ht]
    refine congrArg (fun z => Host.Outcome.next (finishEvent s.port.completions.length z)) ?_
    cases out with
    | none =>
      have hno : ok = false := by simpa using hok
      rw [hno]
      rfl
    | some o =>
      obtain ⟨st, body⟩ := o
      have hst : ok = decide (st = .ok) := by
        rw [Bool.eq_iff_iff, hok, decide_eq_true_iff]
        exact ⟨fun ⟨b, hb⟩ => by cases hb; rfl, fun he => ⟨body, by rw [he]⟩⟩
      rw [hst]
      rfl

end Sys2Proof.Machine
end

section
/-! PROOFS. The end of the event in which an ASSIGN of a scan step has ended (R133). -/

namespace Sys2Proof.Machine

/-! ### What comes of the scan class -/

/-- The arbiter takes no scan-class transaction that did not wait. -/
theorem choose_scanStep {e e' : LinkEngine} {idle : Bool} {t : Txn} (hm : EngineMid .none e) (h : choose idle e = some (t, e')) :
    (t.isStep = true → t ∈ e.scanQ) ∧ ∀ x ∈ e'.scanQ, x ∈ e.scanQ := by
  have hcommit : ∀ {x}, x ∈ e.commitQ → x.isStep = true → x ∈ e.scanQ := fun hx hs => by
    rw [(hm.others _ (by simp [hx])).1] at hs
    cases hs
  have hcatch : ∀ {x}, x ∈ e.catchQ → x.isStep = true → x ∈ e.scanQ := fun hx hs => by
    rw [(hm.others _ (by simp [hx])).1] at hs
    cases hs
  have hhost : ∀ {x}, x ∈ e.hostQ → x.isStep = true → x ∈ e.scanQ := fun hx hs => by
    obtain ⟨hop, body, tag, rfl⟩ := hm.host _ hx
    cases hs
  unfold choose at h
  split at h
  · split at h
    · next t q hq =>
      cases h
      exact ⟨hcommit (by simp [hq]), fun x hx => hx⟩
    · split at h
      · next t q hq =>
        cases h
        rw [hq]
        exact ⟨fun _ => by simp, fun x hx => by simp [hx]⟩
      · unfold chooseLow at h
        split at h
        · next t q x xs hh hc =>
          split at h
          · split at h <;> cases h
            · exact ⟨hcatch (by simp [hc]), fun x hx => hx⟩
            · exact ⟨hhost (by simp [hh]), fun x hx => hx⟩
          · cases h
            exact ⟨hhost (by simp [hh]), fun x hx => hx⟩
        · next t q hh hc =>
          cases h
          exact ⟨hhost (by simp [hh]), fun x hx => hx⟩
        · next x xs hh hc =>
          split at h
          · cases h
            exact ⟨hcatch (by simp [hc]), fun x hx => hx⟩
          · split at h <;> cases h
            exact ⟨nofun, fun x hx => hx⟩
        · split at h <;> cases h
          exact ⟨nofun, fun x hx => hx⟩
  · split at h
    · next t hf =>
      cases h
      exact ⟨fun _ => List.mem_of_find?_eq_some hf, fun x hx => List.mem_of_mem_eraseP hx⟩
    · cases h
  · cases h

/-- A scan step to come behind the arbiter waited before it, on a link with nothing in flight. -/
theorem toCome_step {e : LinkEngine} (hm : EngineMid .none e) (hf : e.flight = none) {idle : Bool} {now : Nat} {t : Txn} (ht : t.isStep = true)
    (hreq : ∀ n, t.req ≠ .tag n) (hs : EngineMid .none (e.arbitrated idle now)) (h : ToCome (e.arbitrated idle now) t) : t ∈ e.scanQ := by
  have hqueues : ∀ {x : LinkEngine}, EngineMid .none x → t ∈ x.commitQ ++ x.scanQ ++ x.hostQ ++ x.catchQ → t ∈ x.scanQ := fun {x} hx hq => by
    simp only [List.mem_append] at hq
    rcases hq with ((hq | hq) | hq) | hq
    · rw [(hx.others t (by simp [hq])).1] at ht
      cases ht
    · exact hq
    · obtain ⟨hop, body, tag, rfl⟩ := hx.host t hq
      exact absurd rfl (hreq tag)
    · rw [(hx.others t (by simp [hq])).1] at ht
      cases ht
  have hcome : (∃ g, (e.arbitrated idle now).flight = some g ∧ g.txn = t) ∨ t ∈ (e.arbitrated idle now).scanQ := h.imp id (hqueues hs)
  unfold LinkEngine.arbitrated at hcome
  split at hcome
  · rcases hcome with ⟨g, hg, -⟩ | hq
    · rw [hf] at hg
      cases hg
    · exact hq
  · cases hc : choose idle e with
    | none =>
      rw [hc] at hcome
      rcases hcome with ⟨g, hg, -⟩ | hq
      · cases hf.symm.trans hg
      · exact hq
    | some y =>
      obtain ⟨x, e'⟩ := y
      obtain ⟨hstep, hsub⟩ := choose_scanStep hm hc
      rw [hc] at hcome
      rcases hcome with ⟨g, hg, hgt⟩ | hq
      · cases hg
        exact hgt ▸ hstep (by rw [show x = t from hgt]; exact ht)
      · exact hsub t hq

/-- No scan step comes at the end of an event but those that waited or were caused. -/
theorem finishLinks_unscanned {w : State} (hm : HubMid allPaid .none w) {l : LinkId} (hf : (w.links.get l).flight = none) {hop n : Nat}
    (hq : enumTxn false hop ∉ (w.links.get l).scanQ) (hc : hop ∉ (w.links.get l).caused) :
    ¬ ToCome ((finishLinks n w).links.get l) (enumTxn false hop) := by
  intro h
  have hv : HubMid allPaid .none (settleTurns (queueHopScans w)) := hm.queueHopScans.settleTurns
  have hlink : (finishLinks n w).links.get l = ((settleTurns (queueHopScans w)).links.get l).arbitrated
      ((settleTurns (queueHopScans w)).commit.state = .idle) (settleTurns (queueHopScans w)).now := by
    rw [finishLinks_links, arbitrateAll_link]
  have hafter : EngineMid .none ((finishLinks n w).links.get l) := hm.finishLinks.links l
  rw [hlink] at h hafter
  obtain ⟨ts, hts, -⟩ := settleTurns_link (queueHopScans w) l
  have hqueue : (queueHopScans w).links.get l = (w.links.get l).queueCaused := Quad.get_map ..
  rw [hqueue] at hts
  have hmem := toCome_step (hv.links l) (by rw [hts]; exact hf) rfl (by rintro n ⟨⟩) hafter h
  rw [hts] at hmem
  rcases List.mem_append.mp hmem with hx | hx
  · exact hq hx
  · obtain ⟨k, hk, he⟩ := List.mem_map.mp hx
    have hkey : k = hop := by simpa [enumTxn] using he
    rw [hkey, LinkEngine.scansCaused, List.mem_filter] at hk
    exact hc ((EngineMid.sortNat_perm _).mem_iff.mp hk.1)

end Sys2Proof.Machine
end

section
/-! PROOFS. What the end of an ASSIGN leaves behind (R3, R8, R133). -/

namespace Sys2Proof.Machine

/-! ### The step behind an ASSIGN -/

/-- A hub in which the end of an ASSIGN has been taken. -/
structure AssignTaken (s z : State) (l : LinkId) (a : Assignment) (now : Nat) : Prop where
  mid : ∃ x, HubMid (owing l ⟨[], [a.txn], some x, true⟩) .none z
  rests : Rests z
  now : z.now = now
  commit : z.commit = s.commit
  assigning : (z.links.get l).assigning = none

/-- How the event goes on from there. -/
structure AssignEnds (s z s' : State) (l : LinkId) (a : Assignment) (now : Nat) : Prop where
  now : s'.now = now
  commit : settledCtl s'.commit = settledCtl s.commit
  assigning : (s'.links.get l).assigning = none
  dir : s'.dir = z.dir
  entry : (s'.links.get l).entry a.hop = (z.links.get l).entry a.hop
  handles : s'.port.attn.handles = z.port.attn.handles
  jobs : ∀ ref, (∃ j ∈ allJobs z, j.ref = ref) → ∃ j ∈ allJobs s', j.ref = ref
  queued : ∀ t ∈ (z.links.get l).scanQ, ToCome (s'.links.get l) t
  unscanned : enumTxn false a.hop ∉ (z.links.get l).scanQ → a.hop ∉ (z.links.get l).caused → ¬ ((z.links.get l).entry a.hop).Noticeable →
    ¬ ToCome (s'.links.get l) (enumTxn false a.hop)
  next : a.full = true → a.hop < 15 → (∃ sc, (s'.links.get l).scan = some sc ∧ sc.hop = a.hop + 1)
    ∧ ∃ g, (s'.links.get l).flight = some g ∧ g.txn = enumTxn true (a.hop + 1)
  last : a.full = true → a.hop = 15 → (s'.links.get l).state = .running ∧ (s'.links.get l).reach = 16

theorem finishLinks_jobRefs (n : Nat) (s : State) (ref : Ref) (h : ∃ j ∈ allJobs s, j.ref = ref) :
    ∃ j ∈ allJobs (finishLinks n s), j.ref = ref := by
  obtain ⟨j, hj, rfl⟩ := h
  obtain ⟨l, hl⟩ := (mem_allJobs _ _).mp hj
  have hmem : j.ref ∈ ((finishLinks n s).jobs.get l).map Job.ref := by
    rw [(finishLinks_turnSettled n s l).1.refs]
    exact List.mem_map_of_mem hl
  obtain ⟨i, hi, he⟩ := List.mem_map.mp hmem
  exact ⟨i, (mem_allJobs _ _).mpr ⟨l, hi⟩, he⟩

theorem AssignTaken.stepped {s z : State} {l : LinkId} {a : Assignment} {now : Nat} (h : AssignTaken s z l a now) :
    HubMid allPaid .none (stepMatched l a.full z) := by
  obtain ⟨x, k⟩ := h.mid
  cases hf : a.full with
  | true =>
    have hnext : stepMatched l true z = nextStep l z := if_pos ⟨rfl, by rw [h.assigning]; rfl⟩
    rw [hnext]
    exact k.nextStep (by simp [Assignment.txn, Txn.isFullScan, hf])
  | false =>
    have hsame : stepMatched l false z = z := if_neg fun hx => by cases hx.1
    rw [hsame]
    exact k.paid fun m => (m.payFull (by simp [Assignment.txn, Txn.isFullScan, hf])).forget

theorem AssignTaken.ends {s z : State} {l : LinkId} {a : Assignment} {now : Nat} (h : AssignTaken s z l a now) (n : Nat) :
    AssignEnds s z (finishEvent n (stepMatched l a.full z)) l a now := by
  obtain ⟨x, k⟩ := h.mid
  have hlen : (z.links.get l).hops.length = 16 := k.dir.lengths l
  have hover := stepMatched_over hlen a.full
  have hflight : (z.links.get l).flight = none := (k.owed.known _ rfl).2
  have hnext : a.full = true → stepMatched l a.full z = nextStep l z := fun hf => if_pos ⟨hf, by rw [h.assigning]; rfl⟩
  rw [finishEvent_rests (hover.atLink.rests h.rests)]
  obtain ⟨more, hmore, hfull⟩ := hover.scanQ
  refine ⟨?_, ?_, ?_, ?_, ?_, ?_, fun ref hr => ?_, fun t ht => ?_, fun hq hc hn => ?_, fun hf hlt => ?_, fun hf he => ?_⟩
  · rw [finishLinks_now, hover.atLink.aside.now, h.now]
  · rw [finishLinks_ctl, hover.atLink.aside.commit, h.commit]
  · rw [finishLinks_assigning, hover.assigning, h.assigning]
  · rw [finishLinks_dir, hover.dir]
  · rw [entry_of_hops (finishLinks_link_hops ..), entry_of_hops hover.hops]
  · rw [finishLinks_attn, hover.handles]
  · refine finishLinks_jobRefs _ _ _ ?_
    rwa [allJobs, hover.jobs]
  · refine (finishLinks_scanQ (by rw [hmore]; exact List.mem_append_left _ ht)).elim (fun hq => .inr ?_) .inl
    simp [hq]
  · refine finishLinks_unscanned h.stepped (hover.atLink.flight.trans hflight) ?_ fun hx => ?_
    · rw [hmore]
      rintro hx
      rcases List.mem_append.mp hx with hx | hx
      · exact hq hx
      · cases hfull _ hx
    · exact (hover.caused _ hx).elim hc hn
  · obtain ⟨sc, hsc⟩ := scanAt_of_owed k.owed hf
    rw [hnext hf]
    obtain ⟨h1, h2⟩ := scan_goesOn hsc hlt n
    exact ⟨⟨_, h1, rfl⟩, h2⟩
  · obtain ⟨sc, hsc⟩ := scanAt_of_owed k.owed hf
    rw [hnext hf]
    rw [he] at hsc
    exact scan_ends hsc hlen n

/-! ### Records created and re-bound -/

theorem makeJob_eq (h : Nat) (s : State) : ∃ js, makeJob h s = { s with jobs := js } := by
  unfold makeJob
  split
  · split
    · exact ⟨_, rfl⟩
    · exact ⟨s.jobs, rfl⟩
  · exact ⟨s.jobs, rfl⟩

/-- A JOINING record has a job once one has been made for it. -/
theorem makeJob_job {s : State} {h : Nat} {r : Record} (hr : findRec s h = some r) (hs : r.state = .joining) :
    ∃ j ∈ allJobs (makeJob h s), j.ref = r.ref := by
  unfold makeJob
  rw [hr]
  dsimp only
  split
  · refine ⟨newJob s r, (mem_allJobs _ _).mpr ⟨r.loc.link, ?_⟩, rfl⟩
    rw [modJobs_jobs, Quad.get_modify_self]
    simp
  · next hno =>
    have hsome : (findJob s r.ref).isSome = true := by
      by_contra hx
      exact hno ⟨.inl hs, by simpa using hx⟩
    obtain ⟨j, hj⟩ := Option.isSome_iff_exists.mp hsome
    exact ⟨j, List.mem_of_find?_eq_some hj, by simpa using List.find?_some hj⟩

theorem insertRec_split (r : Record) (rs : List Record) : ∃ before after, rs = before ++ after ∧ insertRec r rs = before ++ r :: after := by
  induction rs with
  | nil => exact ⟨[], [], rfl, rfl⟩
  | cons x xs ih =>
    unfold insertRec
    split
    · exact ⟨[], x :: xs, rfl, rfl⟩
    · obtain ⟨before, after, h1, h2⟩ := ih
      exact ⟨x :: before, after, by rw [h1]; rfl, by rw [h2]; rfl⟩

theorem setHop_entry_self {l : LinkId} {hop : Nat} {s : State} (h : hop < (s.links.get l).hops.length) (x : HopEntry) :
    ((setHop l hop x s).links.get l).entry hop = x := by
  rw [setHop, modLink_links, Quad.get_modify_self, LinkEngine.entry, LinkEngine.setEntry]
  simp [List.getD_eq_getElem?_getD, h]

/-- What the creation of a record or a re-bind leaves: at the hop its entry, behind it a job. -/
structure Listing (z : State) (l : LinkId) (hop : Nat) (ref : Ref) : Prop where
  entry : (z.links.get l).entry hop = .listed ref
  job : ∃ j ∈ allJobs z, j.ref = ref

theorem createRecord_lists {ref : Ref} {info : EnumInfo} {loc : Loc} {s : State} (hlen : loc.hop < (s.links.get loc.link).hops.length)
    (hrs : ∀ r ∈ s.dir.records, r.ref.handle ≠ ref.handle) : Listing (createRecord ref info loc s) loc.link loc.hop ref
      ∧ (createRecord ref info loc s).dir = { s.dir with records := insertRec (newRecord ref info loc) s.dir.records }
      ∧ (createRecord ref info loc s).port.attn = s.port.attn.raiseHandle ref.handle .joined ∧ AtLink loc.link s (createRecord ref info loc s) := by
  set m : State := raiseHandle ref.handle .joined
    (setHop loc.link loc.hop (.listed ref) (modDir (fun d => { d with records := insertRec (newRecord ref info loc) d.records }) s)) with hm
  have hcreate : createRecord ref info loc s = makeJob ref.handle m := rfl
  have hat : AtLink loc.link s m := (AtLink.ofLinks (.modDir ..) rfl).trans ((AtLink.ofLink rfl rfl).trans (.ofLinks (.raiseHandle ..) rfl))
  have hentry : (m.links.get loc.link).entry loc.hop = .listed ref := setHop_entry_self (by exact hlen) _
  have hfind : findRec m ref.handle = some (newRecord ref info loc) := by
    obtain ⟨before, after, h1, h2⟩ := insertRec_split (newRecord ref info loc) s.dir.records
    have hrecs : m.dir.records = before ++ newRecord ref info loc :: after := h2
    rw [findRec, hrecs, List.find?_append, List.find?_eq_none.mpr fun r hr => ?_]
    · simp [newRecord]
    · simpa using hrs r (by rw [h1]; exact List.mem_append_left _ hr)
  have hjob := makeJob_job hfind rfl
  obtain ⟨js, hjs⟩ := makeJob_eq ref.handle m
  rw [hcreate]
  refine ⟨⟨?_, hjob⟩, ?_, ?_, ?_⟩
  · rw [hjs]
    exact hentry
  · rw [hjs]
    rfl
  · rw [hjs]
    rfl
  · refine hat.trans ?_
    rw [hjs]
    exact .ofLinks ⟨rfl, .of_eq rfl rfl⟩ rfl

end Sys2Proof.Machine
end

section
/-! PROOFS. O47: the ends of an ASSIGN. -/

namespace Sys2Proof.Machine

/-! ### A re-bind (R8) -/

/-- A STALE record as a re-bind leaves it. -/
def Record.reborn (info : EnumInfo) (loc : Loc) (r : Record) : Record :=
  { r with state := .joining, stale := none, loc := loc, model := info.model, capacity := info.capacity, miss := 0 }

theorem rebind_lists {r : Record} {info : EnumInfo} {loc : Loc} {s : State} (hlen : loc.hop < (s.links.get loc.link).hops.length)
    (hn : Names s r.ref r) : Listing (rebind r info loc s) loc.link loc.hop r.ref
      ∧ (rebind r info loc s).dir = { s.dir with
          records := s.dir.records.map (fun y => if y.ref = r.ref then y.reborn info loc else y)
          staleList := s.dir.staleList.filter (fun x => x != r.ref.handle) }
      ∧ (rebind r info loc s).port.attn = (if r.loc = loc then s.port.attn.raiseHandle r.ref.handle .rejoined
          else (s.port.attn.raiseHandle r.ref.handle .rejoined).raiseHandle r.ref.handle .moved)
      ∧ AtLink loc.link s (rebind r info loc s) := by
  set p : State := raiseHandle r.ref.handle .rejoined (modDir (fun d => { d with staleList := d.staleList.filter (fun x => x != r.ref.handle) })
    (updRec r.ref.handle (Record.reborn info loc) s)) with hp
  set m : State := setHop loc.link loc.hop (.listed r.ref) (if r.loc = loc then p else raiseHandle r.ref.handle .moved p) with hm
  have hrebind : rebind r info loc s = makeJob r.ref.handle m := rfl
  have hbase : AtLink loc.link s p :=
    (AtLink.ofLinks (.updRec ..) rfl).trans ((AtLink.ofLinks (.modDir ..) rfl).trans (.ofLinks (.raiseHandle ..) rfl))
  have hpdir : p.dir = { s.dir with
      records := s.dir.records.map (fun y => if y.ref = r.ref then y.reborn info loc else y)
      staleList := s.dir.staleList.filter (fun x => x != r.ref.handle) } := by
    have h := updRec_named hn (Record.reborn info loc)
    exact congrArg (fun d : Directory => { d with staleList := d.staleList.filter (fun x => x != r.ref.handle) }) h
  have hat : AtLink loc.link s m := by
    refine hbase.trans (.trans ?_ (.ofLink rfl rfl))
    split
    · exact .refl ..
    · exact .ofLinks (.raiseHandle ..) rfl
  have hmdir : m.dir = p.dir := by
    rw [hm, setHop, modLink_dir]
    split <;> rfl
  have hlen' : loc.hop < ((if r.loc = loc then p else raiseHandle r.ref.handle .moved p).links.get loc.link).hops.length := by
    split <;> exact hlen
  have hentry : (m.links.get loc.link).entry loc.hop = .listed r.ref := setHop_entry_self hlen' _
  have hattn : m.port.attn = (if r.loc = loc then s.port.attn.raiseHandle r.ref.handle .rejoined
      else (s.port.attn.raiseHandle r.ref.handle .rejoined).raiseHandle r.ref.handle .moved) := by
    rw [hm]
    split <;> rfl
  have hnames : Names m r.ref (r.reborn info loc) := by
    have h := hn.updRec r.ref.handle (f := Record.reborn info loc) fun _ => rfl
    rw [if_pos rfl] at h
    exact h.of_dir ((congrArg Directory.records hmdir).trans rfl)
  have hjob := makeJob_job hnames.findRec rfl
  obtain ⟨js, hjs⟩ := makeJob_eq r.ref.handle m
  rw [hrebind]
  refine ⟨⟨?_, hjob⟩, ?_, ?_, ?_⟩
  · rw [hjs]
    exact hentry
  · rw [hjs]
    exact hmdir.trans hpdir
  · rw [hjs]
    exact hattn
  · refine hat.trans ?_
    rw [hjs]
    exact .ofLinks ⟨rfl, .of_eq rfl rfl⟩ rfl

/-! ### An ASSIGN that ends OK -/

theorem countScan_over (l : LinkId) (b : Bool) (f : FullScan → FullScan) (s : State) :
    StepOver l s (if b then countScan l f s else s) := by
  split
  · exact .ofLink rfl rfl rfl rfl ⟨[], (List.append_nil _).symm, nofun⟩ fun k hk => .inl hk
  · exact .refl l s

theorem Listing.over {z w : State} {l : LinkId} {hop : Nat} {ref : Ref} (h : Listing z l hop ref) (k : StepOver l z w) : Listing w l hop ref := by
  refine ⟨?_, ?_⟩
  · rw [entry_of_hops k.hops]
    exact h.entry
  · rw [allJobs, k.jobs]
    exact h.job

theorem raised_of_handles {a b : State} (h : a.port.attn.handles = b.port.attn.handles) (k : Nat) (r : Reason) :
    Raised a (.handle k) r ↔ Raised b (.handle k) r := by
  unfold Raised AttnSet.flagsOf
  dsimp only
  rw [h]

section Ok

variable {s y : State} {l : LinkId} {a : Assignment} {now : Nat}

/-- The hub in which the assignment is over and its mark removed (R4). -/
def unassigned (l : LinkId) (a : Assignment) (s : State) : State :=
  modLink l (fun e => { e with assigning := none, scanQ := e.scanQ.filter (fun t => t != clearTxn a.hop) }) (removeMark ⟨l, a.hop⟩ s)

theorem unassigned_link (l : LinkId) (a : Assignment) (s : State) : (unassigned l a s).links.get l = { s.links.get l with
    assigning := none, scanQ := (s.links.get l).scanQ.filter (fun t => t != clearTxn a.hop) } := Quad.get_modify_self ..

theorem unassigned_atLink (l : LinkId) (a : Assignment) (s : State) : AtLink l s (unassigned l a s) :=
  (AtLink.ofLinks (.modDir ..) rfl).trans (.ofLink rfl rfl)

theorem AssignedAt.within (h : AssignedAt s y l a now) : a.hop < ((unassigned l a y).links.get l).hops.length := by
  obtain ⟨x, k⟩ := h.mid
  rw [unassigned_link]
  exact (k.owed.assigned a h.assigning).1.trans_eq (k.dir.lengths l).symm

theorem AssignedAt.taken (h : AssignedAt s y l a now) {z : State} (hz : z = assignOk l a y) (hat : AtLink l y z) : AssignTaken s z l a now := by
  obtain ⟨x, k⟩ := h.mid
  refine ⟨⟨x, hz ▸ k.assignOk h.assigning⟩, hat.rests h.rests, hat.aside.now.trans h.now, hat.aside.commit.trans h.commit, ?_⟩
  rw [hz]
  exact assignOk_assigning ..

theorem AssignedAt.ends (h : AssignedAt s y l a now) {z : State} {ok : Bool} (hz : (if ok then assignOk l a y else assignFailed l a y) = z)
    (ht : AssignTaken s z l a now) (n : Nat) : AssignEnds s z (finishEvent n (assignEnded l ok y)) l a now := by
  have heq : assignEnded l ok y = stepMatched l a.full z := by
    rw [← hz]
    simp only [assignEnded, h.assigning]
  rw [heq]
  exact ht.ends n

/-- The handle that an assignment holds for a new tile is in range, and no record's (R5). -/
theorem held_handle (hd : DirectorySound s) (hs : (s.links.get l).assigning = some a) (hk : a.kind = .assigningNew) :
    1 ≤ a.ref.handle ∧ a.ref.handle ≤ 80 ∧ ∀ r ∈ s.dir.records, r.ref.handle ≠ a.ref.handle := by
  have hmark : a.mark l ∈ s.dir.marks := hd.marks.mem_iff.mpr (List.mem_filterMap.mpr ⟨l, mem_fours l, by rw [hs]; rfl⟩)
  have hheld : a.ref.handle ∈ heldHandles s :=
    List.mem_map.mpr ⟨a.mark l, List.mem_filter.mpr ⟨hmark, by simp [Assignment.mark, hk]⟩, rfl⟩
  have hmem : a.ref.handle ∈ List.range' 1 80 := hd.handles.mem_iff.mp (List.mem_append_left _ (List.mem_append_right _ hheld))
  have hnd := hd.handles.nodup_iff.mpr List.nodup_range'
  rw [List.mem_range'_1] at hmem
  refine ⟨hmem.1, by omega, fun r hr he => ?_⟩
  exact (List.nodup_append.mp hnd).2.2 _ (List.mem_append_right _ hheld) _ (List.mem_map_of_mem hr) he.symm

/-- The ASSIGN of a new tile ends OK: its record is created (R3). -/
theorem AssignedAt.creates (h : AssignedAt s y l a now) (hw : WellShaped s) (hd : DirectorySound s) (hs : (s.links.get l).assigning = some a)
    (hk : a.kind = .assigningNew) : ∃ z, assignOk l a y = z ∧ AssignTaken s z l a now ∧ Listing z l a.hop a.ref
      ∧ z.dir = { s.dir with
          marks := s.dir.marks.filter (fun m => m.loc != ⟨l, a.hop⟩)
          records := insertRec (newRecord a.ref a.info ⟨l, a.hop⟩) s.dir.records }
      ∧ Raised z (.handle a.ref.handle) .joined := by
  obtain ⟨h1, h2, hfree⟩ := held_handle hd hs hk
  have hdir : (unassigned l a y).dir = { s.dir with marks := s.dir.marks.filter (fun m => m.loc != ⟨l, a.hop⟩) } := by
    show (removeMark ⟨l, a.hop⟩ y).dir = _
    rw [removeMark, modDir_dir, h.dir]
  obtain ⟨hlist, hcdir, hattn, hat⟩ := createRecord_lists (ref := a.ref) (info := a.info) (loc := ⟨l, a.hop⟩) h.within (by rw [hdir]; exact hfree)
  have hover := countScan_over l a.full (fun sc => { sc with created := sc.created + 1 }) (createRecord a.ref a.info ⟨l, a.hop⟩ (unassigned l a y))
  have hz : assignOk l a y = if a.full then countScan l (fun sc => { sc with created := sc.created + 1 })
      (createRecord a.ref a.info ⟨l, a.hop⟩ (unassigned l a y)) else createRecord a.ref a.info ⟨l, a.hop⟩ (unassigned l a y) := by
    simp only [assignOk, hk]
    rfl
  refine ⟨_, rfl, h.taken rfl ?_, ?_, ?_, ?_⟩
  · rw [hz]
    exact ((unassigned_atLink l a y).trans hat).trans hover.atLink
  · rw [hz]
    exact hlist.over hover
  · rw [hz, hover.dir, hcdir, hdir]
  · rw [hz, raised_of_handles hover.handles, Raised, hattn]
    have hport : (unassigned l a y).port = y.port := rfl
    have hlen : (unassigned l a y).port.attn.handles.length = 80 := by
      rw [hport, h.port]
      exact hw.attention
    exact raised_raiseHandle hlen h1 h2 .joined

end Ok

end Sys2Proof.Machine
end

section
/-! PROOFS. O47: re-binds, records retired meanwhile, failures. -/

namespace Sys2Proof.Machine

section Ends

variable {s y : State} {l : LinkId} {a : Assignment} {now : Nat}

theorem unassigned_dir (h : AssignedAt s y l a now) :
    (unassigned l a y).dir = { s.dir with marks := s.dir.marks.filter (fun m => m.loc != ⟨l, a.hop⟩) } := by
  show (removeMark ⟨l, a.hop⟩ y).dir = _
  rw [removeMark, modDir_dir, h.dir]

theorem flagsOf_raiseHandle {x : AttnSet} (hlen : x.handles.length = 80) {h : Nat} (h1 : 1 ≤ h) (h2 : h ≤ 80) (r : Reason) :
    (x.raiseHandle h r).flagsOf (.handle h) = x.flagsOf (.handle h) ||| r.flag := by
  simp only [AttnSet.raiseHandle, AttnSet.flagsOf, List.getD_eq_getElem?_getD, List.getElem?_modify, if_true]
  rw [List.getElem?_eq_getElem (by omega)]
  rfl

/-- The ASSIGN of a re-bind ends OK with the record still there: it is re-bound (R8, R21). -/
theorem AssignedAt.rebinds (h : AssignedAt s y l a now) (hw : WellShaped s) (hd : DirectorySound s) (hk : a.kind = .assigningRebind)
    {r : Record} (hr : r ∈ s.dir.records) (href : r.ref = a.ref) (hu : r.uid = a.info.uid) :
    ∃ z, assignOk l a y = z ∧ AssignTaken s z l a now ∧ Listing z l a.hop a.ref
      ∧ z.dir = { s.dir with
          marks := s.dir.marks.filter (fun m => m.loc != ⟨l, a.hop⟩)
          staleList := s.dir.staleList.filter (fun h => h != a.ref.handle)
          records := s.dir.records.map (fun y => if y.ref = a.ref then y.reborn a.info ⟨l, a.hop⟩ else y) }
      ∧ Raised z (.handle a.ref.handle) .rejoined
      ∧ (Raised z (.handle a.ref.handle) .moved ↔ Raised s (.handle a.ref.handle) .moved ∨ r.loc ≠ ⟨l, a.hop⟩) := by
  obtain ⟨-, hlen, hrange⟩ := numbered_of_sound hw hd
  obtain ⟨h1, h2, -⟩ := hrange r hr
  have hdir := unassigned_dir h
  have hrecs : (unassigned l a y).dir.records = s.dir.records := by rw [hdir]
  have hnames : Names (unassigned l a y) r.ref r := (hd.names hr).of_dir hrecs
  have hfind : rebindRecord (unassigned l a y) a = some r := by
    rw [rebindRecord, hrecs]
    cases hf : s.dir.records.find? (fun r => r.ref == a.ref && r.uid == a.info.uid) with
    | none => exact absurd (List.find?_eq_none.mp hf r hr) (by simp [href, hu])
    | some x =>
      have hx := List.find?_some hf
      simp only [Bool.and_eq_true, beq_iff_eq] at hx
      rw [(hd.names hr).1.only x (List.mem_of_find?_eq_some hf) (by rw [hx.1, href])]
  obtain ⟨hlist, hrdir, hattn, hat⟩ := rebind_lists (info := a.info) (loc := ⟨l, a.hop⟩) h.within hnames
  have hover := countScan_over l a.full (fun sc => { sc with rebound := sc.rebound + 1 }) (rebind r a.info ⟨l, a.hop⟩ (unassigned l a y))
  have hz : assignOk l a y = if a.full then countScan l (fun sc => { sc with rebound := sc.rebound + 1 })
      (rebind r a.info ⟨l, a.hop⟩ (unassigned l a y)) else rebind r a.info ⟨l, a.hop⟩ (unassigned l a y) := by
    have hfind' : rebindRecord (modLink l (fun e => { e with assigning := none, scanQ := e.scanQ.filter (fun t => t != clearTxn a.hop) })
        (removeMark ⟨l, a.hop⟩ y)) a = some r := hfind
    simp only [assignOk, hk, hfind']
    rfl
  have hport : (unassigned l a y).port = s.port := h.port
  have hflags : ∀ q : Reason, Raised (assignOk l a y) (.handle a.ref.handle) q ↔ (if r.loc = ⟨l, a.hop⟩
      then s.port.attn.flagsOf (.handle r.ref.handle) ||| Reason.rejoined.flag
      else s.port.attn.flagsOf (.handle r.ref.handle) ||| Reason.rejoined.flag ||| Reason.moved.flag) &&& q.flag ≠ 0 := fun q => by
    have h80 : (s.port.attn.raiseHandle r.ref.handle .rejoined).handles.length = 80 := (List.length_modify ..).trans hlen
    rw [hz, raised_of_handles hover.handles, Raised, hattn, hport, ← href]
    split
    · rw [flagsOf_raiseHandle hlen h1 h2]
    · rw [flagsOf_raiseHandle h80 h1 h2, flagsOf_raiseHandle hlen h1 h2]
  refine ⟨_, rfl, h.taken rfl ?_, ?_, ?_, ?_, ?_⟩
  · rw [hz]
    exact ((unassigned_atLink l a y).trans hat).trans hover.atLink
  · rw [hz, ← href]
    exact hlist.over hover
  · rw [hz, hover.dir, hrdir, hdir, href]
  · rw [hflags]
    split
    · exact or_and_flag _ _
    · exact or_and_flag_of_left (or_and_flag _ _)
  · rw [hflags, Raised, ← href]
    split
    · next hl =>
      rw [BitVec.and_or_distrib_right]
      have hz : Reason.rejoined.flag &&& Reason.moved.flag = 0#_ := by decide
      rw [hz, BitVec.or_zero]
      simp [hl]
    · next hl => exact ⟨fun _ => .inr hl, fun _ => or_and_flag _ _⟩

/-- The ASSIGN of a re-bind ends OK with the record retired meanwhile (R21; log 43). -/
theorem AssignedAt.retired (h : AssignedAt s y l a now) (hk : a.kind = .assigningRebind)
    (hr : ∀ r ∈ s.dir.records, r.ref = a.ref → r.uid ≠ a.info.uid) :
    ∃ z, assignOk l a y = z ∧ AssignTaken s z l a now ∧ z.dir = { s.dir with marks := s.dir.marks.filter (fun m => m.loc != ⟨l, a.hop⟩) }
      ∧ (z.links.get l).entry a.hop = .unlisted .retired ∧ clearTxn a.hop ∈ (z.links.get l).scanQ := by
  have hdir := unassigned_dir h
  have hfind : rebindRecord (unassigned l a y) a = none := by
    rw [rebindRecord, hdir]
    refine List.find?_eq_none.mpr fun r hm => ?_
    simpa using hr r hm
  have hun := setUnlisted_unlists h.within .retired
  have hz : assignOk l a y = modLink l (fun e => { e with scanQ := e.scanQ ++ [clearTxn a.hop] }) (setUnlisted l a.hop .retired (unassigned l a y)) := by
    have hfind' : rebindRecord (modLink l (fun e => { e with assigning := none, scanQ := e.scanQ.filter (fun t => t != clearTxn a.hop) })
        (removeMark ⟨l, a.hop⟩ y)) a = none := hfind
    simp only [assignOk, hk, hfind']
    rfl
  refine ⟨_, rfl, h.taken rfl ?_, ?_, ?_, ?_⟩
  · rw [hz]
    exact ((unassigned_atLink l a y).trans hun.atLink).trans (.ofLink rfl rfl)
  · rw [hz, modLink_dir, hun.dir, hdir]
  · rw [hz, modLink_links, Quad.get_modify_self]
    exact hun.entry
  · rw [hz, modLink_links, Quad.get_modify_self]
    simp

/-! ### An ASSIGN that fails -/

theorem dropAssignment_aside (l : LinkId) (a : Assignment) (s : State) : Aside s (dropAssignment l a s) := by
  have hmark : Aside s (modLink l (fun e => { e with assigning := none }) (removeMark ⟨l, a.hop⟩ s)) :=
    (Aside.modDir ..).trans (.ofLink _ rfl)
  unfold dropAssignment
  dsimp only
  split
  · exact hmark.trans ((Aside.modDir ..).trans ((noticeHandle_aside _).trans (noticeId_aside ..)))
  · exact hmark.trans (noticeId_aside ..)

theorem dropAssignment_link (l : LinkId) (a : Assignment) (s : State) (k : LinkId) : (dropAssignment l a s).links.get k
    = (if k = l then { s.links.get k with assigning := none } else s.links.get k).noticed a := by
  rw [dropAssignment_eq]
  dsimp only
  rw [Quad.get_map, Quad.get_modify]

theorem noticed_causes {a : Assignment} {e : LinkEngine} {k : Nat} (h : k ∈ (e.noticed a).caused) : k ∈ e.caused ∨ (e.entry k).Noticeable := by
  unfold LinkEngine.noticed at h
  split at h
  · rcases notice_causes h with h | h
    · exact (notice_causes h).imp id isDirectoryFull_noticeable
    · rw [entry_of_hops (HubMid.notice_charts _ _).1] at h
      exact .inr (isDuplicateOf_noticeable h)
  · exact (notice_causes h).imp id isDuplicateOf_noticeable

/-- The ASSIGN ends with another status or NO_REPLY (R133). -/
theorem AssignedAt.fails (h : AssignedAt s y l a now) : ∃ z, assignFailed l a y = z ∧ AssignTaken s z l a now
    ∧ z.dir = { s.dir with
        marks := s.dir.marks.filter (fun m => m.loc != ⟨l, a.hop⟩)
        freeList := if a.kind = .assigningNew then a.ref.handle :: s.dir.freeList else s.dir.freeList }
    ∧ (z.links.get l).entry a.hop = .unlisted .assignFailed ∧ enumTxn false a.hop ∉ (z.links.get l).scanQ ∧ a.hop ∉ (z.links.get l).caused := by
  obtain ⟨x, k⟩ := h.mid
  have hlt : a.hop < (y.links.get l).hops.length := (k.owed.assigned a h.assigning).1.trans_eq (k.dir.lengths l).symm
  have hun := setUnlisted_unlists hlt .assignFailed
  have hlink : (setUnlisted l a.hop .assignFailed y).links.get l = (y.links.get l).setEntry a.hop (.unlisted .assignFailed) := by
    rw [setUnlisted_links]
    exact Quad.get_modify_self ..
  have hz : (assignFailed l a y).links.get l
      = LinkEngine.noticed a { (setUnlisted l a.hop .assignFailed y).links.get l with assigning := none } := by
    rw [assignFailed, dropAssignment_link, if_pos rfl]
  have hflight : ∀ e : LinkEngine, (e.noticed a).flight = e.flight := fun e => (congrArg LinkEngine.flight (noticed_unnoticed a e) :)
  have hhops : ((assignFailed l a y).links.get l).hops = ((setUnlisted l a.hop .assignFailed y).links.get l).hops := by
    rw [hz]
    exact (congrArg LinkEngine.hops (noticed_unnoticed a _) :)
  have hqueue : ((assignFailed l a y).links.get l).scanQ = ((setUnlisted l a.hop .assignFailed y).links.get l).scanQ := by
    rw [hz]
    exact (congrArg LinkEngine.scanQ (noticed_unnoticed a _) :)
  have hflights : ∀ i, ((assignFailed l a y).links.get i).flight = (y.links.get i).flight := fun i => by
    have hi : ((assignFailed l a y).links.get i).flight = ((setUnlisted l a.hop .assignFailed y).links.get i).flight := by
      rw [assignFailed, dropAssignment_link, hflight]
      split <;> rfl
    rw [hi]
    by_cases hil : i = l
    · rw [hil, hun.atLink.flight]
    · rw [hun.atLink.others i hil]
  have haside : Aside y (assignFailed l a y) := hun.atLink.aside.trans (dropAssignment_aside ..)
  have hentry : ((assignFailed l a y).links.get l).entry a.hop = .unlisted .assignFailed := by
    rw [entry_of_hops hhops]
    exact hun.entry
  refine ⟨_, rfl, ⟨⟨x, k.assignFailed h.assigning⟩, haside.rests hflights h.rests, haside.now.trans h.now, haside.commit.trans h.commit,
    dropAssignment_assigning ..⟩, ?_, hentry, ?_, fun hc => ?_⟩
  · rw [assignFailed, dropAssignment_eq]
    dsimp only
    rw [hun.dir, h.dir]
  · rw [hqueue, hlink]
    exact h.clear.1
  · rw [hz] at hc
    rcases noticed_causes hc with hx | hx
    · rw [hlink] at hx
      rw [show ((y.links.get l).setEntry a.hop (.unlisted .assignFailed)).caused = (y.links.get l).caused from rfl, h.clear.2] at hx
      cases hx
    · have he : LinkEngine.entry { (setUnlisted l a.hop .assignFailed y).links.get l with assigning := none } a.hop
          = .unlisted .assignFailed := hun.entry
      rw [he] at hx
      rcases hx with hx | ⟨u, hx⟩ <;> cases hx

end Ends

/-- Settles O47. -/
theorem assignCreatesOrRebinds : Obligations.AssignCreatesOrRebinds := by
  unfold Obligations.AssignCreatesOrRebinds
  intro s l f c out now a hw hs hr hends ha ht marks
  obtain ⟨y, hy, hrun⟩ := assignAnswered hw hs hr hends ha ht
  by_cases hok : ∃ body, out = some (.ok, body)
  · have hexec := hrun true (iff_of_true rfl hok)
    have hgo : ∀ z, assignOk l a y = z → AssignTaken s z l a now →
        AssignEnds s z (finishEvent s.port.completions.length (assignEnded l true y)) l a now := fun z hz ht =>
      hy.ends (ok := true) hz ht _
    have hsound := sound_of_exec hw hs hexec
    refine ⟨_, hexec, ?_⟩
    generalize finishEvent s.port.completions.length (assignEnded l true y) = s' at hgo hsound
    cases hk : a.kind with
    | assigningNew =>
      obtain ⟨z, hz, htaken, hlist, hdir, hraised⟩ := hy.creates hw hs.directory ha hk
      have hend := hgo z hz htaken
      refine ⟨hend.now, hend.assigning, hend.commit, fun _ => ⟨fun _ => ?_, nofun⟩, fun hno => ?_, hend.next, hend.last⟩
      · obtain ⟨before, after, h1, h2⟩ := insertRec_split (newRecord a.ref a.info ⟨l, a.hop⟩) s.dir.records
        refine ⟨before, after, h1, ?_, hsound.directory.order, hend.entry.trans hlist.entry, ?_, hend.jobs _ hlist.job⟩
        · rw [hend.dir, hdir, h2]
          rfl
        · exact (raised_of_handles hend.handles ..).mpr hraised
      · obtain ⟨body, hb⟩ := hok
        exact absurd hb (hno body)
    | assigningRebind =>
      by_cases hfound : ∃ r ∈ s.dir.records, r.ref = a.ref ∧ r.uid = a.info.uid
      · obtain ⟨r, hr, href, hu⟩ := hfound
        obtain ⟨z, hz, htaken, hlist, hdir, hrejoined, hmoved⟩ := hy.rebinds hw hs.directory hk hr href hu
        have hend := hgo z hz htaken
        refine ⟨hend.now, hend.assigning, hend.commit, fun _ => ⟨nofun, fun _ => ⟨fun r' hr' href' _ => ?_, fun hno => ?_⟩⟩, fun hno => ?_,
          hend.next, hend.last⟩
        · have hsame : r' = r := (hs.directory.names hr).1.only r' hr' (by rw [href', href])
          rw [hsame]
          refine ⟨hend.dir.trans (hdir.trans rfl), hend.entry.trans hlist.entry, (raised_of_handles hend.handles ..).mpr hrejoined,
            (raised_of_handles hend.handles ..).trans hmoved, hend.jobs _ hlist.job⟩
        · exact absurd hu (hno r hr href)
        · obtain ⟨body, hb⟩ := hok
          exact absurd hb (hno body)
      · have hnone : ∀ r ∈ s.dir.records, r.ref = a.ref → r.uid ≠ a.info.uid := fun r hr href hu => hfound ⟨r, hr, href, hu⟩
        obtain ⟨z, hz, htaken, hdir, hentry, hclear⟩ := hy.retired hk hnone
        have hend := hgo z hz htaken
        refine ⟨hend.now, hend.assigning, hend.commit, fun _ => ⟨nofun, fun _ => ⟨fun r hr href hu => absurd hu (hnone r hr href), fun _ => ?_⟩⟩,
          fun hno => ?_, hend.next, hend.last⟩
        · exact ⟨hend.dir.trans hdir, hend.entry.trans hentry, hend.queued _ hclear⟩
        · obtain ⟨body, hb⟩ := hok
          exact absurd hb (hno body)
  · have hexec := hrun false (iff_of_false nofun hok)
    obtain ⟨z, hz, htaken, hdir, hentry, hqueue, hcaused⟩ := hy.fails
    have hend := hy.ends (ok := false) hz htaken s.port.completions.length
    refine ⟨_, hexec, hend.now, hend.assigning, hend.commit, fun h => absurd h hok, fun _ => ⟨hend.dir.trans hdir, hend.entry.trans hentry, ?_⟩,
      hend.next, hend.last⟩
    refine hend.unscanned hqueue hcaused fun hx => ?_
    rw [hentry] at hx
    rcases hx with hx | ⟨u, hx⟩ <;> cases hx

end Sys2Proof.Machine
end

section
/-! PROOFS. What the rest of an event leaves of a link that was taken down in it: a link engine with nothing in flight and nothing
waiting takes note of nothing, but for what the commit controller queues in its commit class (R107, R108, R134, R142). -/

namespace Sys2Proof.Machine

/-- A link engine on which nothing goes on: not up, nothing in flight, waiting or caused, no hop listed. -/
structure LinkEngine.Still (d : LinkEngine) : Prop where
  down : d.isUp = false
  flight : d.flight = none
  hostQ : d.hostQ = []
  catchQ : d.catchQ = []
  caused : d.caused = []
  hops : ∀ hop ref, d.entry hop ≠ .listed ref

/-- A link engine but for its commit class. -/
def LinkEngine.uncommitted (e : LinkEngine) : LinkEngine := { e with commitQ := [] }

theorem LinkEngine.still_down {target : LinkState} (ht : target = .training ∨ target = .disabled) (now : Nat) (e : LinkEngine) :
    (LinkEngine.down target now e).Still where
  down := by rcases ht with rfl | rfl <;> rfl
  flight := rfl
  hostQ := rfl
  catchQ := rfl
  caused := rfl
  hops hop ref := by
    have : (LinkEngine.down target now e).entry hop = .empty := replicate_empty_getD hop
    rw [this]; nofun

/-! ### Engines -/

namespace LinkEngine.Still

variable {e : LinkEngine}

theorem of_uncommitted (h : e.uncommitted.Still) : e.Still := ⟨h.down, h.flight, h.hostQ, h.catchQ, h.caused, h.hops⟩
theorem uncommitted (h : e.Still) : e.uncommitted.Still := ⟨h.down, h.flight, h.hostQ, h.catchQ, h.caused, h.hops⟩

theorem dropFlight (h : e.Still) (test : Txn → Bool) : e.dropFlight test = e := by
  rw [LinkEngine.dropFlight, h.flight]

theorem dropJobTxns (h : e.Still) (ref : Ref) : e.dropJobTxns ref = e := by
  have hq : { e with catchQ := e.catchQ.filter fun t => !t.isJobOf ref } = e := by
    rw [h.catchQ, List.filter_nil, ← h.catchQ]
  rw [LinkEngine.dropJobTxns, hq, h.dropFlight]

theorem notice (h : e.Still) (test : HopEntry → Bool) : e.notice test = e := by
  have hd := h.down
  unfold LinkEngine.notice
  split
  next hs => rw [LinkEngine.isUp, hs] at hd; cases hd
  next hs => rw [LinkEngine.isUp, hs] at hd; cases hd
  next => rfl

theorem filterHost (h : e.Still) (test : Txn → Bool) : { e with hostQ := e.hostQ.filter test } = e := by
  rw [h.hostQ, List.filter_nil, ← h.hostQ]

theorem choose (h : e.Still) (idle : Bool) : Machine.choose idle e = none := by
  have hd := h.down
  unfold Machine.choose
  split
  next hs => rw [LinkEngine.isUp, hs] at hd; cases hd
  next hs => rw [LinkEngine.isUp, hs] at hd; cases hd
  next => rfl

theorem arbitrated (h : e.Still) (idle : Bool) (now : Nat) : e.arbitrated idle now = e := by
  unfold LinkEngine.arbitrated
  rw [h.choose]
  split <;> rfl

theorem not_running (h : e.Still) : e.state ≠ .running := fun hs => by
  have hd := h.down
  rw [LinkEngine.isUp, hs] at hd; cases hd

end LinkEngine.Still

/-! ### Operations -/

/-- A link is, but for its commit class, as an engine on which nothing goes on. -/
structure StillAs (d : LinkEngine) (l : LinkId) (s : State) : Prop where
  still : d.Still
  link : (s.links.get l).uncommitted = d

namespace StillAs

variable {d : LinkEngine} {l : LinkId} {s s' : State}

theorem engine (h : StillAs d l s) : (s.links.get l).Still := .of_uncommitted (h.link ▸ h.still)

theorem of_links (h : StillAs d l s) (hl : s'.links = s.links) : StillAs d l s' := ⟨h.still, by rw [hl]; exact h.link⟩

theorem modDir (h : StillAs d l s) {f : Directory → Directory} : StillAs d l (modDir f s) := h.of_links rfl
theorem modPort (h : StillAs d l s) {f : HostPort → HostPort} : StillAs d l (modPort f s) := h.of_links rfl
theorem raiseHandle (h : StillAs d l s) {n : Nat} {r : Reason} : StillAs d l (raiseHandle n r s) := h.modPort

theorem forEach {α : Type} {xs : List α} {f : α → State → State} (h : StillAs d l s) (hf : ∀ x s, StillAs d l s → StillAs d l (f x s)) :
    StillAs d l (forEach xs f s) := by
  unfold Machine.forEach
  induction xs generalizing s with
  | nil => exact h
  | cons x xs ih => exact ih (hf x s h)

theorem modLink (h : StillAs d l s) {k : LinkId} {f : LinkEngine → LinkEngine} (hf : ∀ e, e.Still → (f e).uncommitted = e.uncommitted) :
    StillAs d l (modLink k f s) := ⟨h.still, by
  rw [modLink_links, Quad.get_modify]
  split
  next hk => subst hk; rw [hf _ h.engine, h.link]
  next => exact h.link⟩

theorem modLinks (h : StillAs d l s) {f : LinkEngine → LinkEngine} (hf : ∀ e, e.Still → (f e).uncommitted = e.uncommitted) :
    StillAs d l (modLinks f s) := ⟨h.still, by
  rw [modLinks_links, Quad.get_map, hf _ h.engine, h.link]⟩

theorem noticeId (h : StillAs d l s) {u : Uid} : StillAs d l (noticeId u s) := h.modLinks fun _ he => by rw [he.notice]
theorem noticeHandle (h : StillAs d l s) : StillAs d l (noticeHandle s) := h.modLinks fun _ he => by rw [he.notice]

theorem dropJobTxns (h : StillAs d l s) {ref : Ref} : StillAs d l (Machine.modLinks (LinkEngine.dropJobTxns ref) s) :=
  h.modLinks fun _ he => by rw [he.dropJobTxns]

theorem removeJob (h : StillAs d l s) {ref : Ref} : StillAs d l (removeJob ref s) :=
  (h.forEach (f := fun l => modJobs l fun js => js.filter fun j => j.ref != ref) fun _ _ k => k.of_links rfl).dropJobTxns

theorem endRunnings (h : StillAs d l s) {st : Status} {ts : List Tag} : StillAs d l (Machine.forEach ts (endRunning st) s) :=
  h.of_links (endRunnings_hub ..).2

theorem dropHostWaiting (h : StillAs d l s) {k : LinkId} {ref : Ref} : StillAs d l (dropHostWaiting k ref s) :=
  (h.modLink (k := k) fun _ he => by rw [he.filterHost]).endRunnings

theorem unlistHop (h : StillAs d l s) {loc : Loc} {ref : Ref} : StillAs d l (unlistHop loc ref s) :=
  h.modLink fun e he => by rw [if_neg (he.hops _ _)]

theorem claimStaleDir (h : StillAs d l s) {n : Nat} {why : StaleReason} : StillAs d l (claimStaleDir n why s) := by
  unfold Machine.claimStaleDir
  split
  · split
    · exact h
    · have h1 : StillAs d l (updRec n (fun x => { x with state := .stale, stale := some ⟨s.now, why⟩ }) s) := h.of_links rfl
      exact h1.modDir.removeJob.dropHostWaiting.unlistHop.raiseHandle.noticeId
  · exact h

theorem claimedDirs (h : StillAs d l s) {claims : List (Nat × StaleReason)} : StillAs d l (claimedDirs claims s) :=
  h.forEach fun _ _ k => k.claimStaleDir

theorem retire (h : StillAs d l s) {n : Nat} : StillAs d l (retire n s) := by
  unfold Machine.retire
  split
  next r _ =>
    have h1 : StillAs d l (if s.staging.any (Change.namesHandle n) then
        raiseDevice .stagingPruned (setStaging (s.staging.filter fun c => !c.namesHandle n) (setStore (s.store.filter fun e => !e.namesHandle n) s))
      else setStaging (s.staging.filter fun c => !c.namesHandle n) (setStore (s.store.filter fun e => !e.namesHandle n) s)) := by
      split <;> exact h.of_links rfl
    exact h1.removeJob.dropHostWaiting.modDir.modPort.noticeHandle.noticeId
  next => exact h

theorem expireAll (h : StillAs d l s) : StillAs d l (expireAll s) := h.forEach fun _ _ k => k.retire

theorem makeJob (h : StillAs d l s) {n : Nat} : StillAs d l (makeJob n s) := by
  unfold Machine.makeJob
  (repeat' split) <;> exact h.of_links rfl

theorem claimLagging (h : StillAs d l s) {n : Nat} : StillAs d l (claimLagging n s) := h.of_links (claimLagging_links ..)

theorem restartAllJobs (h : StillAs d l s) : StillAs d l (restartAllJobs s) := by
  rw [restartAllJobs_eq]
  exact StillAs.forEach (h.of_links rfl) fun _ _ k => k.dropJobTxns

/-! ### The commit controller -/

theorem queueCancel (h : StillAs d l s) {p : Participant} : StillAs d l (queueCancel p s) :=
  (h.modLink (k := p.loc.link) (f := LinkEngine.queueCommit [partTxn p (.cancel (s.commit.epoch + 1))]) fun _ _ => rfl).of_links rfl

theorem exclude (h : StillAs d l s) {p : Participant} : StillAs d l (exclude p s) := by
  have hd : StillAs d l (dropPrepares p s) := h.modLink fun e he => by
    have hq : (e.dropCommit fun t => t.isPrepare && t.req == .participant p.ref).Still :=
      ⟨he.down, he.flight, he.hostQ, he.catchQ, he.caused, he.hops⟩
    rw [hq.dropFlight]; rfl
  have h1 : StillAs d l (setStatus p.ref .excluded (dropPrepares p s)) := hd.of_links rfl
  unfold Machine.exclude
  dsimp only
  split
  · split
    · exact h1.claimLagging.queueCancel
    · exact h1.claimLagging
  · exact h1

theorem enterCancelling (h : StillAs d l s) {reason : CancelReason} : StillAs d l (enterCancelling reason s) := by
  have h0 : StillAs d l (modCommit (fun c => { c with state := .cancelling, reason := some reason, prepareDl := none, armDl := none }) s) :=
    h.of_links rfl
  have h1 := h0.modLinks (f := fun e => LinkEngine.dropFlight (fun t => t.isPrepare && t.isCommit) (e.dropCommit Txn.isPrepare))
    fun e he => by
      have hq : (e.dropCommit Txn.isPrepare).Still := ⟨he.down, he.flight, he.hostQ, he.catchQ, he.caused, he.hops⟩
      rw [hq.dropFlight]; rfl
  exact h1.forEach fun _ _ k => k.queueCancel

theorem participantLost (h : StillAs d l s) {ref : Ref} : StillAs d l (participantLost ref s) := by
  cases hp : findPart s ref with
  | none => rw [participantLost_none hp]; exact h
  | some p =>
    have h1 : StillAs d l (withoutTraffic ref p s) := h.modLink fun _ _ => rfl
    by_cases hf : failsIn s.commit.state p.status
    · unfold Machine.participantLost
      rw [hp]
      dsimp only
      split
      · split
        · unfold failParticipant
          split
          · exact h1.enterCancelling
          · exact h1.exclude
        · exact h1
      · split
        · split
          · exact h1.enterCancelling
          · exact h1.of_links rfl
        · exact h1
      · split
        · exact h1.of_links rfl
        · exact h1
      · exact h1
      · exact h1
    · rw [participantLost_passes hp hf]; exact h1

theorem claimStaleAll (h : StillAs d l s) {claims : List (Nat × StaleReason)} : StillAs d l (claimStaleAll claims s) := by
  rw [claimStaleAll_def]
  exact h.claimedDirs.forEach fun _ _ k => k.participantLost

theorem returnToIdle (h : StillAs d l s) {applied : Bool} : StillAs d l (returnToIdle applied s) := by
  have h1 : StillAs d l (Machine.modLinks (fun e => LinkEngine.dropFlight Txn.isCommit { e with commitQ := [] })
      (modCommit (fun c => CommitCtl.idle c.epoch c.lengths) s)) :=
    (h.of_links (s' := modCommit (fun c => CommitCtl.idle c.epoch c.lengths) s) rfl).modLinks fun e he => by
      rw [LinkEngine.Still.dropFlight (e := { e with commitQ := [] }) he.uncommitted]; rfl
  have h2 : StillAs d l (if applied then Machine.restartAllJobs (Machine.modLinks (fun e => LinkEngine.dropFlight Txn.isCommit { e with commitQ := [] })
      (modCommit (fun c => CommitCtl.idle c.epoch c.lengths) s)) else Machine.modLinks (fun e => LinkEngine.dropFlight Txn.isCommit { e with commitQ := [] })
      (modCommit (fun c => CommitCtl.idle c.epoch c.lengths) s)) := by
    split
    · exact h1.restartAllJobs
    · exact h1
  exact (h2.forEach fun _ _ k => k.makeJob).expireAll.noticeHandle

theorem completeCommit (h : StillAs d l s) {st : Status} {qual : Byte} {res : List Byte} : StillAs d l (completeCommit st qual res s) :=
  h.of_links (completeCommit_fields ..).2.2.2.2.1

theorem settleCommit (h : StillAs d l s) : StillAs d l (settleCommit s) := by
  unfold Machine.settleCommit
  split
  · split
    · exact h
    · exact h.of_links rfl
  · split
    · exact h
    · exact h.completeCommit.returnToIdle
  · split
    · exact h
    · exact h.completeCommit.returnToIdle
  · exact h

/-! ### The end of the event -/

theorem finishLinks (h : StillAs d l s) (n : Nat) : (finishLinks n s).links.get l = s.links.get l := by
  rw [finishLinks_link_of_calm n h.engine.not_running h.engine.caused, h.engine.arbitrated]

theorem finishEvent (h : StillAs d l s) (n : Nat) : StillAs d l (finishEvent n s) :=
  ⟨h.still, by rw [Machine.finishEvent, h.settleCommit.finishLinks]; exact h.settleCommit.link⟩

end StillAs

end Sys2Proof.Machine
end

section
/-! PROOFS. The claims to STALE of one event, exactly: the records and the stale list, the jobs, the attention set, the links that held
none of the records (R9, R107, R159, R182). -/

namespace Sys2Proof.Machine

/-- A record after the claims on the records of some handles. -/
def Record.lostIn (hs : List Nat) (now : Nat) (why : StaleReason) (r : Record) : Record :=
  if r.ref.handle ∈ hs then r.lost now why else r

/-- What claims to STALE leave alone of the settings, the port and the attention set. -/
def besideClaims (s : State) :=
  (s.store, s.staging, s.port.state, s.port.mask, s.port.clear, s.port.attn.device, s.port.attn.links, s.port.attn.handles.length)

/-- A flag raised stays raised when another is. -/
theorem raised_raiseHandle_of {s : State} {x : Subject} {q : Reason} (h : Raised s x q) (n : Nat) (r : Reason) :
    Raised (raiseHandle n r s) x q := by
  cases x with
  | device => exact h
  | link l => exact h
  | handle k =>
    unfold Raised at h ⊢
    simp only [raiseHandle, modPort_port, AttnSet.raiseHandle, AttnSet.flagsOf, List.getD_eq_getElem?_getD, List.getElem?_modify] at h ⊢
    split
    · cases hk : s.port.attn.handles[k - 1]? with
      | none => rw [hk] at h; simp at h
      | some e =>
        rw [hk] at h
        exact or_and_flag_of_left h
    · simpa using h

/-! ### One claim -/

section OneClaim

variable {n : Nat} {s : State} {r : Record} (hr : findRec s n = some r) (hst : r.state ≠ .stale) (why : StaleReason)
include hr hst

theorem claimStaleDir_attn : (claimStaleDir n why s).port.attn = s.port.attn.raiseHandle n .stale := by
  simp only [claimStaleDir, hr, if_neg hst, noticeId_attn, raiseHandle, modPort_port, unlistHop, modLink_port, dropHostWaiting_attn,
    removeJob_attn]
  rfl

theorem claimStaleDir_jobs (l : LinkId) : (claimStaleDir n why s).jobs.get l = (s.jobs.get l).filter fun j => j.ref != r.ref := by
  simp only [claimStaleDir, hr, if_neg hst, noticeId, raiseHandle, modPort_jobs, unlistHop, modLink_jobs, modLinks_jobs,
    dropHostWaiting_jobs, removeJob_jobs]
  rfl

theorem claimStaleDir_besides : besideClaims (claimStaleDir n why s) = besideClaims s := by
  have hport : ∀ x : State, ((dropHostWaiting r.loc.link r.ref (removeJob r.ref x)).port.state,
      (dropHostWaiting r.loc.link r.ref (removeJob r.ref x)).port.mask, (dropHostWaiting r.loc.link r.ref (removeJob r.ref x)).port.clear)
      = (x.port.state, x.port.mask, x.port.clear) := fun x => by
    have h := congrArg (fun x => x.2.2.2.2.1) ((dropHostWaiting_offTraffic r.loc.link r.ref (removeJob r.ref x)).trans (removeJob_offTraffic r.ref x))
    simp only [offTraffic, Prod.mk.injEq] at h
    obtain ⟨h1, -, -, h2, h3, -⟩ := h
    rw [h1, h2, h3]
  have hattn := claimStaleDir_attn hr hst why
  have hrest : (claimStaleDir n why s).store = s.store ∧ (claimStaleDir n why s).staging = s.staging := by
    simp only [claimStaleDir, hr, if_neg hst, noticeId_store, noticeId_staging, raiseHandle, modPort_store, modPort_staging, unlistHop,
      modLink_store, modLink_staging, dropHostWaiting_store, dropHostWaiting_staging, removeJob_store, removeJob_staging]
    exact ⟨rfl, rfl⟩
  have hst' : ((claimStaleDir n why s).port.state, (claimStaleDir n why s).port.mask, (claimStaleDir n why s).port.clear)
      = (s.port.state, s.port.mask, s.port.clear) := by
    simp only [claimStaleDir, hr, if_neg hst, noticeId, modLinks_port, raiseHandle, modPort_port, unlistHop, modLink_port]
    exact hport _
  simp only [Prod.mk.injEq] at hst'
  obtain ⟨h1, h2, h3⟩ := hst'
  simp only [besideClaims, hrest, h1, h2, h3, hattn, AttnSet.raiseHandle, List.length_modify]

end OneClaim

/-! ### The claims of an event -/

/-- Claims to STALE on reachable records of different handles. -/
structure ClaimsTaken (rs : List Record) (why : StaleReason) (x y : State) : Prop where
  dir : y.dir = { x.dir with
    records := x.dir.records.map (Record.lostIn (rs.map fun r => r.ref.handle) x.now why)
    staleList := x.dir.staleList ++ rs.map fun r => r.ref.handle }
  besides : besideClaims y = besideClaims x
  aside : Aside x y
  jobs : ∀ l, ∀ j ∈ y.jobs.get l, j ∈ x.jobs.get l ∧ ∀ r ∈ rs, j.ref ≠ r.ref
  away : ∀ k, (∀ r ∈ rs, r.loc.link ≠ k) → (y.links.get k).calm = (x.links.get k).calm
  stays : ∀ z q, Raised x z q → Raised y z q
  raised : x.port.attn.handles.length = 80 → (∀ r ∈ rs, 1 ≤ r.ref.handle ∧ r.ref.handle ≤ 80) →
    ∀ r ∈ rs, Raised y (.handle r.ref.handle) .stale

theorem Record.lostIn_nil (now : Nat) (why : StaleReason) (r : Record) : r.lostIn [] now why = r := if_neg (by simp)

theorem Record.lostIn_single (h now : Nat) (why : StaleReason) (r : Record) :
    r.lostIn [h] now why = if r.ref.handle = h then r.lost now why else r := if_congr List.mem_singleton rfl rfl

theorem Record.lostIn_ref (hs : List Nat) (now : Nat) (why : StaleReason) (r : Record) : (r.lostIn hs now why).ref = r.ref := by
  unfold Record.lostIn
  split <;> rfl

theorem Record.lostIn_cons (h : Nat) (hs : List Nat) (now : Nat) (why : StaleReason) (r : Record) :
    (if r.ref.handle = h then r.lost now why else r).lostIn hs now why = r.lostIn (h :: hs) now why := by
  unfold Record.lostIn
  by_cases h1 : r.ref.handle = h
  · rw [if_pos h1, if_pos (List.mem_cons.mpr (.inl h1))]
    split <;> rfl
  · rw [if_neg h1]
    exact if_congr (by simp [h1]) rfl rfl

namespace ClaimsTaken

theorem nil (why : StaleReason) (x : State) : ClaimsTaken [] why x x where
  dir := by
    have : Record.lostIn [] x.now why = id := funext fun r => r.lostIn_nil x.now why
    simp [this]
  besides := rfl
  aside := .refl x
  jobs := fun _ j hj => ⟨hj, fun _ h => nomatch h⟩
  away := fun _ _ => rfl
  stays := fun _ _ h => h
  raised := fun _ _ _ h => nomatch h

theorem single {x : State} {r : Record} (hr : findRec x r.ref.handle = some r) (hst : r.state ≠ .stale) (why : StaleReason) :
    ClaimsTaken [r] why x (claimStaleDir r.ref.handle why x) where
  dir := by
    rw [claimStaleDir_dir hr hst]
    have : Record.lostIn [r.ref.handle] x.now why = fun z => if z.ref.handle = r.ref.handle then z.lost x.now why else z :=
      funext fun z => z.lostIn_single ..
    simp [this]
  besides := claimStaleDir_besides hr hst why
  aside := claimStaleDir_aside ..
  jobs := fun l j hj => by
    rw [claimStaleDir_jobs hr hst, List.mem_filter] at hj
    exact ⟨hj.1, fun q hq => by rw [List.mem_singleton.mp hq]; simpa using hj.2⟩
  away := fun k hk => by
    have hk' : k ≠ r.loc.link := Ne.symm (hk r (List.mem_singleton_self r))
    rw [calm_of_links (claimStaleDir_calm hr hst) k, unlistHop, modLink_links, Quad.get_modify, if_neg hk']
  stays := fun z q h => by
    have hraise := raised_raiseHandle_of h r.ref.handle .stale
    unfold Raised at hraise ⊢
    rwa [claimStaleDir_attn hr hst]
  raised := fun hlen hrange q hq => by
    rw [List.mem_singleton.mp hq]
    obtain ⟨h1, h2⟩ := hrange r (List.mem_singleton_self r)
    have hraise := raised_raiseHandle hlen h1 h2 .stale
    unfold Raised at hraise ⊢
    rwa [claimStaleDir_attn hr hst]

theorem cons {r : Record} {rs : List Record} {why : StaleReason} {x y z : State} (h : ClaimsTaken [r] why x y) (k : ClaimsTaken rs why y z) :
    ClaimsTaken (r :: rs) why x z where
  dir := by
    have hmap : ∀ q : Record, Record.lostIn (rs.map fun r => r.ref.handle) y.now why (Record.lostIn [r.ref.handle] x.now why q)
        = Record.lostIn (r.ref.handle :: rs.map fun r => r.ref.handle) x.now why q := fun q => by
      rw [h.aside.now, Record.lostIn_single, Record.lostIn_cons]
    rw [k.dir, h.dir]
    simp [List.map_map, Function.comp_def, hmap]
  besides := k.besides.trans h.besides
  aside := h.aside.trans k.aside
  jobs := fun l j hj => by
    obtain ⟨hy, hrs⟩ := k.jobs l j hj
    obtain ⟨hx, hr⟩ := h.jobs l j hy
    refine ⟨hx, fun q hq => ?_⟩
    rcases List.mem_cons.mp hq with rfl | hq
    · exact hr q (List.mem_singleton_self q)
    · exact hrs q hq
  away := fun l hl => (k.away l fun q hq => hl q (List.mem_cons_of_mem _ hq)).trans
    (h.away l fun q hq => by rw [List.mem_singleton.mp hq]; exact hl r List.mem_cons_self)
  stays := fun a q hq => k.stays a q (h.stays a q hq)
  raised := fun hlen hrange q hq => by
    rcases List.mem_cons.mp hq with rfl | hq
    · exact k.stays _ _ (h.raised hlen (fun p hp => by rw [List.mem_singleton.mp hp]; exact hrange q List.mem_cons_self) q
        (List.mem_singleton_self q))
    · have hlen' : y.port.attn.handles.length = 80 := (congrArg (fun t => t.2.2.2.2.2.2.2) h.besides).trans hlen
      exact k.raised hlen' (fun p hp => hrange p (List.mem_cons_of_mem _ hp)) q hq

end ClaimsTaken

theorem claimedDirs_taken (why : StaleReason) {rs : List Record} {x : State} (hnd : rs.Pairwise fun a b => a.ref.handle ≠ b.ref.handle)
    (hfind : ∀ r ∈ rs, findRec x r.ref.handle = some r) (hst : ∀ r ∈ rs, r.state ≠ .stale) :
    ClaimsTaken rs why x (claimedDirs (rs.map fun r => (r.ref.handle, why)) x) := by
  unfold claimedDirs forEach
  induction rs generalizing x with
  | nil => exact .nil why x
  | cons r rs ih =>
    obtain ⟨hne, hnd⟩ := List.pairwise_cons.mp hnd
    refine (ClaimsTaken.single (hfind r List.mem_cons_self) (hst r List.mem_cons_self) why).cons
      (ih hnd (fun q hq => ?_) fun q hq => hst q (List.mem_cons_of_mem _ hq))
    rw [findRec_claim_other (Ne.symm (hne q hq))]
    exact hfind q (List.mem_cons_of_mem _ hq)

/-! ### The claims on the records of links taken down (R9, R26, R107) -/

/-- The hub in which no handle is held twice. -/
def HandlesDiffer (s : State) : Prop := s.dir.records.Pairwise fun a b => a.ref.handle ≠ b.ref.handle

theorem HandlesDiffer.findRec {s : State} (h : HandlesDiffer s) {r : Record} (hr : r ∈ s.dir.records) : findRec s r.ref.handle = some r := by
  unfold HandlesDiffer at h
  unfold Machine.findRec
  generalize s.dir.records = rs at h hr ⊢
  induction rs with
  | nil => cases hr
  | cons q qs ih =>
    obtain ⟨hne, h⟩ := List.pairwise_cons.mp h
    rcases List.mem_cons.mp hr with rfl | hr
    · exact List.find?_cons_of_pos (by simp)
    · rw [List.find?_cons_of_neg (by simpa using hne r hr)]
      exact ih h hr

/-- The reachable records on the links of a test are those the claims take, and no others. -/
theorem lostIn_reachableOn {s : State} (h : HandlesDiffer s) (test : LinkId → Bool) (now : Nat) (why : StaleReason) {r : Record}
    (hr : r ∈ s.dir.records) : Record.lostIn ((reachableOn s test).map fun r => r.ref.handle) now why r
      = if r.state ≠ .stale ∧ test r.loc.link = true then r.lost now why else r := by
  refine if_congr ⟨fun hm => ?_, fun hm => List.mem_map_of_mem (mem_reachableOn.mpr ⟨hr, hm⟩)⟩ rfl rfl
  obtain ⟨q, hq, hqr⟩ := List.mem_map.mp hm
  obtain ⟨hmem, hst, ht⟩ := mem_reachableOn.mp hq
  have : q = r := Option.some.inj ((h.findRec hmem).symm.trans (hqr ▸ h.findRec hr))
  exact this ▸ ⟨hst, ht⟩

theorem claims_reachableOn {s x : State} (h : HandlesDiffer s) (hx : x.dir.records = s.dir.records) (test : LinkId → Bool) (why : StaleReason) :
    ClaimsTaken (reachableOn s test) why x (claimedDirs ((recordsOn s test).map fun h => (h, why)) x) := by
  rw [recordsOn_eq, List.map_map]
  refine claimedDirs_taken why (List.Pairwise.filter _ h) (fun r hr => ?_) fun r hr => (mem_reachableOn.mp hr).2.1
  rw [findRec, hx]
  exact h.findRec (mem_reachableOn.mp hr).1

end Sys2Proof.Machine
end

section
/-! PROOFS. The taking down of a link engine exactly, what no claim queues on a link without reachable records, and the attention set at
the end of the event (R88, R107, R108, R182). -/

namespace Sys2Proof.Machine

/-! ### Links without reachable records -/

/-- A link with nothing in its commit class, on which no reachable record stands. -/
structure Deserted (l : LinkId) (s : State) : Prop where
  commitQ : (s.links.get l).commitQ = []
  records : ∀ r ∈ s.dir.records, r.state ≠ .stale → r.loc.link ≠ l

namespace Deserted

variable {l : LinkId} {s s' : State}

theorem of_eq (h : Deserted l s) (hl : s'.links = s.links) (hd : s'.dir = s.dir) : Deserted l s' :=
  ⟨by rw [hl]; exact h.commitQ, by rw [hd]; exact h.records⟩

theorem modLink (h : Deserted l s) {k : LinkId} {f : LinkEngine → LinkEngine} (hf : k = l → ∀ e, e.commitQ = [] → (f e).commitQ = []) :
    Deserted l (modLink k f s) := ⟨by
  rw [modLink_links, Quad.get_modify]
  split
  next hk => exact hf hk.symm _ h.commitQ
  next => exact h.commitQ, h.records⟩

theorem place (h : Deserted l s) {p : Participant} (hp : partReachable s p = true) : p.loc.link ≠ l := by
  unfold partReachable at hp
  split at hp
  · next r hr =>
    obtain ⟨hreach, hloc⟩ := Bool.and_eq_true_iff.mp hp
    rw [← beq_iff_eq.mp hloc]
    exact h.records r (mem_of_findRef hr).1 (by simpa [Record.reachable] using hreach)
  · cases hp

theorem withoutTraffic (h : Deserted l s) {ref : Ref} {p : Participant} : Deserted l (withoutTraffic ref p s) :=
  h.modLink fun _ _ he => by simp [LinkEngine.dropCommit, he]

theorem dropPrepares (h : Deserted l s) {p : Participant} : Deserted l (dropPrepares p s) :=
  h.modLink fun _ _ he => by rw [dropFlight_commitQ]; simp [LinkEngine.dropCommit, he]

theorem enterCancelling (h : Deserted l s) {reason : CancelReason} : Deserted l (enterCancelling reason s) := by
  obtain ⟨c, ls, heq, -, hls⟩ := enterCancelling_eq reason s
  have hnone : linkCancels s.commit.epoch (owedCancels s) l = [] := by
    unfold linkCancels owedCancels
    rw [List.map_eq_nil_iff, List.filter_eq_nil_iff]
    intro p hp hloc
    obtain ⟨hreach, -⟩ := Bool.and_eq_true_iff.mp (List.mem_filter.mp hp).2
    obtain ⟨hreach, -⟩ := Bool.and_eq_true_iff.mp hreach
    exact h.place hreach (by simpa using hloc)
  rw [heq]
  refine ⟨?_, h.records⟩
  dsimp only
  rw [hls, hnone]
  simp [LinkEngine.queueCommit, LinkEngine.unprepared, dropFlight_commitQ, LinkEngine.dropCommit, h.commitQ]

theorem failParticipant (h : Deserted l s) {p : Participant} (hp : partReachable s p = false) : Deserted l (failParticipant p s) := by
  unfold Machine.failParticipant
  split
  · exact h.enterCancelling
  · have hd : Deserted l (setStatus p.ref .excluded (Machine.dropPrepares p s)) := h.dropPrepares.of_eq rfl rfl
    unfold exclude
    dsimp only
    rw [if_neg]
    · exact hd
    · have : partReachable (setStatus p.ref .excluded (Machine.dropPrepares p s)) p = partReachable s p := rfl
      rw [this, hp]
      decide

theorem participantLost (h : Deserted l s) {ref : Ref} (hst : ∀ p, p.ref = ref → partReachable s p = false) :
    Deserted l (participantLost ref s) := by
  cases hp : findPart s ref with
  | none => rw [participantLost_none hp]; exact h
  | some p =>
    have h1 := h.withoutTraffic (ref := ref) (p := p)
    have hfail := h1.failParticipant (p := p) (hst p (findPart_ref hp))
    by_cases hf : failsIn s.commit.state p.status
    · unfold Machine.participantLost
      rw [hp]
      dsimp only
      split
      · split
        · exact hfail
        · exact h1
      · split
        · split
          · exact h1.enterCancelling
          · exact h1.of_eq rfl rfl
        · exact h1
      · split
        · exact h1.of_eq rfl rfl
        · exact h1
      · exact h1
      · exact h1
    · rw [participantLost_passes hp hf]; exact h1

theorem participantsLost (h : Deserted l s) {refs : List Ref} (hst : ∀ ref ∈ refs, StaleRef s ref) :
    Deserted l (forEach refs Machine.participantLost s) := by
  unfold forEach
  induction refs generalizing s with
  | nil => exact h
  | cons ref refs ih =>
    have hun : ∀ p : Participant, p.ref = ref → partReachable s p = false := fun p hp => (hst ref List.mem_cons_self).unreachable hp
    obtain ⟨c, ls, heq⟩ := participantLost_eq hun
    exact ih (h.participantLost hun) fun r hr => (hst r (List.mem_cons_of_mem _ hr)).of_records (by dsimp only; rw [heq])

theorem settleCommit (h : Deserted l s) : ((settleCommit s).links.get l).commitQ = [] := by
  have hreturn : ∀ applied x, ((returnToIdle applied x).links.get l).commitQ = [] := fun applied x => by
    rw [(returnToIdle_aside applied x).commitQ, idled_commitQ]
  unfold Machine.settleCommit
  split
  · split <;> exact h.commitQ
  · split
    · exact h.commitQ
    · exact hreturn ..
  · split
    · exact h.commitQ
    · exact hreturn ..
  · exact h.commitQ

theorem finishEvent (h : Deserted l s) (n : Nat) : ((finishEvent n s).links.get l).commitQ = [] := by
  obtain ⟨sent, hq, -⟩ := finishLinks_commitQ n (Machine.settleCommit s) l
  rw [h.settleCommit] at hq
  exact (List.append_eq_nil_iff.mp hq.symm).2

end Deserted

/-! ### The attention set at the end of an event -/

theorem retire_attnLinks (n : Nat) (s : State) : (retire n s).port.attn.links = s.port.attn.links := by
  cases hf : findRec s n with
  | none => rw [HubMid.retire_of_none hf]
  | some r =>
    rw [retire_attn hf]
    split <;> rfl

theorem settleCommit_attnLinks (s : State) : (settleCommit s).port.attn.links = s.port.attn.links := by
  have hreturn : ∀ applied x, (returnToIdle applied x).port.attn.links = x.port.attn.links := fun applied x => by
    obtain ⟨y, hy, -, hya, -⟩ := returnToIdle_eq applied x
    have hexp : (expireAll y).port.attn.links = y.port.attn.links := forEach_keeps (fun s : State => s.port.attn.links) retire_attnLinks
    rw [hy, noticeHandle_attn, hexp, hya]
  have hcomplete : ∀ st qual res, (completeCommit st qual res s).port.attn = s.port.attn := fun st qual res => by
    unfold completeCommit
    split <;> rfl
  unfold settleCommit
  split
  · split <;> rfl
  · split
    · rfl
    · exact (hreturn ..).trans (by rw [hcomplete])
  · split
    · rfl
    · exact (hreturn ..).trans (by rw [hcomplete])
  · rfl

/-- The end of an event leaves the flags of the handle of a record whose grace time has not run out. -/
theorem finishEvent_flagsKept {s : State} {r : Record} (hf : findRec s r.ref.handle = some r) (hg : graceReached s.now s.dir.grace r = false)
    (hr : ∀ x ∈ s.dir.records, 1 ≤ x.ref.handle) (n : Nat) :
    (finishEvent n s).port.attn.flagsOf (.handle r.ref.handle) = s.port.attn.flagsOf (.handle r.ref.handle) := by
  have hreturn : ∀ applied (x : State), x.dir = s.dir → x.port.attn = s.port.attn → x.now = s.now →
      (returnToIdle applied x).port.attn.flagsOf (.handle r.ref.handle) = s.port.attn.flagsOf (.handle r.ref.handle) := fun applied x hd ha ht => by
    obtain ⟨y, hy, hyd, hya, hyt⟩ := returnToIdle_eq applied x
    have hfy : findRec y r.ref.handle = some r := by rw [findRec, hyd, hd]; exact hf
    have hnot : r.ref.handle ∉ expiredHandles y := fun hm => by
      have hexpired := (List.mem_filter.mp hm).2
      rw [hfy] at hexpired
      dsimp only at hexpired
      rw [hyt, ht, hyd, hd, hg] at hexpired
      cases hexpired
    rw [hy, noticeHandle_attn, expireAll, retireAll_flagsOf (hr r (mem_of_findRec hf).1) (fun z hz => hr z (by rwa [hyd, hd] at hz)) hnot,
      hya, ha]
  have hcomplete : ∀ st qual res, (completeCommit st qual res s).port.attn = s.port.attn := fun st qual res => by
    unfold completeCommit
    split <;> rfl
  rw [finishEvent, finishLinks_attn]
  unfold settleCommit
  split
  · split <;> rfl
  · split
    · rfl
    · obtain ⟨-, -, -, hd, -, ht⟩ := completeCommit_fields .ok 0 (commitResult s) s
      exact hreturn _ _ hd (hcomplete ..) ht
  · split
    · rfl
    · obtain ⟨-, -, -, hd, -, ht⟩ := completeCommit_fields .aborted (s.commit.reason.getD .host).code (abortResult s (s.commit.reason.getD .host)) s
      exact hreturn _ _ hd (hcomplete ..) ht
  · rfl

/-! ### The taking down of an engine -/

/-- The directory after the assignment in progress on a link is abandoned (R5, R133). -/
def Directory.abandon (l : LinkId) (o : Option Assignment) (d : Directory) : Directory :=
  { d with
    freeList := match o with
      | some a => if a.kind = .assigningNew then a.ref.handle :: d.freeList else d.freeList
      | none => d.freeList
    marks := match o with
      | some a => d.marks.filter (fun m => m.loc != ⟨l, a.hop⟩)
      | none => d.marks }

theorem endRunnings_eq (st : Status) (ts : List Tag) (s : State) : ∃ cs tg,
    forEach ts (endRunning st) s = { s with port := { s.port with completions := cs, tags := tg } } := by
  unfold forEach
  induction ts generalizing s with
  | nil => exact ⟨_, _, rfl⟩
  | cons t ts ih =>
    obtain ⟨cs, tg, h⟩ := ih (endRunning st t s)
    refine ⟨cs, tg, h.trans ?_⟩
    unfold endRunning
    split <;> rfl

/-- A link engine but for its follow-up mark and the hop scans caused. -/
def LinkEngine.unmarked (e : LinkEngine) : LinkEngine := { e with followUp := false, caused := [] }

theorem notice_unmarked (test : HopEntry → Bool) (e : LinkEngine) : (e.notice test).unmarked = e.unmarked := by
  have hcause : ∀ hop (e : LinkEngine), (e.cause hop).unmarked = e.unmarked := fun hop e => by
    unfold LinkEngine.cause
    split <;> rfl
  have hall : ∀ (hops : List Nat) (e : LinkEngine), (hops.foldl LinkEngine.cause e).unmarked = e.unmarked := fun hops => by
    induction hops with
    | nil => exact fun _ => rfl
    | cons h hs ih => exact fun e => (ih _).trans (hcause h e)
  unfold LinkEngine.notice
  split
  · exact hall ..
  · rfl
  · rfl

theorem noticed_unmarked (a : Assignment) (e : LinkEngine) : (e.noticed a).unmarked = e.unmarked := by
  unfold LinkEngine.noticed
  split
  · rw [notice_unmarked, notice_unmarked]
  · rw [notice_unmarked]

theorem takeDownEngine_eq (l : LinkId) (target : LinkState) (s : State) : ∃ ls cs tg,
    takeDownEngine l target s = { s with
      dir := s.dir.abandon l (s.links.get l).assigning
      links := ls
      port := { s.port with completions := cs, tags := tg, attn := s.port.attn.raiseLink l .linkDown } }
    ∧ ∀ k, k ≠ l → (ls.get k).unmarked = (s.links.get k).unmarked := by
  obtain ⟨cs, tg, hends⟩ := endRunnings_eq .notReachable (hostTags (s.links.get l) ++ rescanTag (s.links.get l))
    (modLink l (LinkEngine.down target s.now) s)
  unfold takeDownEngine
  dsimp only
  rw [hends]
  cases ha : (s.links.get l).assigning with
  | none =>
    refine ⟨_, cs, tg, rfl, fun k hk => ?_⟩
    rw [modLink_links, Quad.get_modify, if_neg hk]
  | some a =>
    dsimp only
    rw [dropAssignment_eq]
    refine ⟨_, cs, tg, rfl, fun k hk => ?_⟩
    dsimp only
    rw [Quad.get_map, noticed_unmarked, Quad.get_modify, if_neg hk, modLink_links, Quad.get_modify, if_neg hk]

theorem takeDownEngine_still {l : LinkId} {target : LinkState} (ht : target = .training ∨ target = .disabled) (s : State) :
    (takeDownEngine l target s).links.get l = LinkEngine.down target s.now (s.links.get l) := by
  obtain ⟨cs, tg, hends⟩ := endRunnings_eq .notReachable (hostTags (s.links.get l) ++ rescanTag (s.links.get l))
    (modLink l (LinkEngine.down target s.now) s)
  have hstill := LinkEngine.still_down ht s.now (s.links.get l)
  unfold takeDownEngine
  dsimp only
  rw [hends]
  cases ha : (s.links.get l).assigning with
  | none =>
    dsimp only [raiseLink, modPort_links, modLink_links]
    exact Quad.get_modify_self ..
  | some a =>
    dsimp only [raiseLink, modPort_links]
    rw [dropAssignment_link, if_pos rfl]
    dsimp only [modLink_links]
    rw [Quad.get_modify_self]
    unfold LinkEngine.noticed
    split
    · rw [show { LinkEngine.down target s.now (s.links.get l) with assigning := none } = LinkEngine.down target s.now (s.links.get l) from rfl,
        hstill.notice, hstill.notice]
    · rw [show { LinkEngine.down target s.now (s.links.get l) with assigning := none } = LinkEngine.down target s.now (s.links.get l) from rfl,
        hstill.notice]

/-- The tags of the requests that end with a link. -/
theorem mem_endingTags {e : LinkEngine} {t : Tag} : t ∈ hostTags e ++ rescanTag e ↔ EndsWithLink e t := by
  have htag : ∀ q : Txn, (match q.req with
      | .tag n => some n
      | _ => none) = some t ↔ q.req = .tag t := fun q => by
    cases q.req <;> simp
  constructor
  · intro h
    rcases List.mem_append.mp h with hm | hm
    · obtain ⟨q, hq, hreq⟩ := List.mem_filterMap.mp hm
      rcases List.mem_append.mp hq with hq | hq
      · exact .inl ⟨q, hq, (htag q).mp hreq⟩
      · cases hf : e.flight with
        | none => rw [hf] at hq; cases hq
        | some f =>
          rw [hf] at hq
          rw [List.mem_singleton.mp hq] at hreq
          exact .inr (.inl ⟨f, hf, (htag f.txn).mp hreq⟩)
    · cases hs : e.scan with
      | none => rw [rescanTag, hs] at hm; cases hm
      | some sc =>
        rw [rescanTag, hs] at hm
        exact .inr (.inr ⟨sc, hs, Option.mem_toList.mp hm⟩)
  · rintro (⟨q, hq, hreq⟩ | ⟨f, hf, hreq⟩ | ⟨sc, hsc, hreq⟩)
    · exact List.mem_append_left _ (List.mem_filterMap.mpr ⟨q, List.mem_append_left _ hq, (htag q).mpr hreq⟩)
    · exact List.mem_append_left _ (List.mem_filterMap.mpr ⟨f.txn, List.mem_append_right _ (by rw [hf]; exact List.mem_singleton_self _),
        (htag f.txn).mpr hreq⟩)
    · exact List.mem_append_right _ (by rw [rescanTag, hsc]; exact Option.mem_toList.mpr hreq)

/-- The requests that end with a link complete NOT_REACHABLE. -/
theorem takeDownEngine_completed {l : LinkId} {s : State} {t : Tag} {x : Running} (he : EndsWithLink (s.links.get l) t)
    (ht : s.port.tags.get t = .running x) (target : LinkState) :
    Completed s (takeDownEngine l target s) ⟨t, x.kind, .notReachable, 0, x.fields⟩ := by
  have hends := forEach_endRunning_completed (st := .notReachable) (s := modLink l (LinkEngine.down target s.now) s) (mem_endingTags.mpr he) ht
  have hdown : Extends s (modLink l (LinkEngine.down target s.now) s) := .of_eq rfl rfl
  unfold takeDownEngine
  dsimp only
  refine (hdown.completed hends).trans (Aside.trans ?_ (.raiseLink ..)).ext
  split
  · exact dropAssignment_aside ..
  · exact .refl _

/-- Every other tag is left as it is. -/
theorem takeDownEngine_tag {l : LinkId} {s : State} {t : Tag} (he : ¬ EndsWithLink (s.links.get l) t) (target : LinkState) :
    (takeDownEngine l target s).port.tags.get t = s.port.tags.get t := by
  have hends : ∀ ts, t ∉ ts → ∀ x : State, (forEach ts (endRunning .notReachable) x).port.tags.get t = x.port.tags.get t := fun ts ht => by
    unfold forEach
    induction ts with
    | nil => exact fun _ => rfl
    | cons k ks ih =>
      obtain ⟨hk, hks⟩ := not_or.mp fun h => ht (List.mem_cons.mpr h)
      exact fun x => (ih hks _).trans (endRunning_other x hk)
  have hthis := hends _ (fun h => he (mem_endingTags.mp h)) (modLink l (LinkEngine.down target s.now) s)
  unfold takeDownEngine
  dsimp only [raiseLink, modPort_port]
  split
  · rw [dropAssignment_eq]; exact hthis
  · exact hthis

end Sys2Proof.Machine
end

section
/-! PROOFS. Lock loss and LINK_DISABLE (O35): the link, its requests, the records it held and the rest of the hub at the end of the event. -/

namespace Sys2Proof.Machine

/-! ### Claims in any state -/

theorem claimedDirs_besides (claims : List (Nat × StaleReason)) (s : State) : besideClaims (claimedDirs claims s) = besideClaims s := by
  refine forEach_keeps besideClaims fun c x => ?_
  by_cases hc : ∃ r, findRec x c.1 = some r ∧ r.state ≠ .stale
  · obtain ⟨r, hr, hst⟩ := hc
    exact claimStaleDir_besides hr hst c.2
  · push Not at hc
    rw [claimStaleDir_idle hc]

theorem claimStaleAll_extends (claims : List (Nat × StaleReason)) (s : State) : Extends s (claimStaleAll claims s) := by
  obtain ⟨c, ls, h⟩ := claimStaleAll_eq claims s
  rw [h]
  exact (claimedDirs_aside claims s).ext.trans (.of_eq rfl rfl)

theorem enterCancelling_epoch (reason : CancelReason) (s : State) : (enterCancelling reason s).commit.epoch = s.commit.epoch := by
  obtain ⟨c, ls, heq, hc, -⟩ := enterCancelling_eq reason s
  rw [heq]
  exact (congrArg CommitCtl.epoch hc :)

theorem participantLost_epoch (ref : Ref) (s : State) : (participantLost ref s).commit.epoch = s.commit.epoch := by
  have hfail : ∀ p x, (failParticipant p x).commit.epoch = x.commit.epoch := fun p x => by
    unfold failParticipant
    split
    · exact enterCancelling_epoch ..
    · exact (congrArg (fun t => t.2.2.2.2.2.2.2.epoch) (exclude_outOf p x) :)
  unfold participantLost
  split
  · rfl
  · dsimp only
    split
    · split
      · exact hfail ..
      · rfl
    · split
      · split
        · exact enterCancelling_epoch ..
        · rfl
      · rfl
    · split <;> rfl
    · rfl
    · rfl

/-- In IDLE the claims on participants change the commit classes at most. -/
theorem participantsLost_idle (refs : List Ref) {x : State} (h : x.commit.state = .idle) :
    ∃ ls, forEach refs participantLost x = { x with links := ls } := by
  unfold forEach
  induction refs generalizing x with
  | nil => exact ⟨x.links, rfl⟩
  | cons ref refs ih =>
    have hone : ∃ ls, participantLost ref x = { x with links := ls } := by
      cases hp : findPart x ref with
      | none => exact ⟨x.links, participantLost_none hp⟩
      | some p =>
        have hf : ¬ failsIn x.commit.state p.status := by rw [h]; simp [failsIn]
        exact ⟨_, participantLost_passes hp hf⟩
    obtain ⟨ls, hls⟩ := hone
    rw [List.foldl_cons, hls]
    obtain ⟨ls', h'⟩ := ih (x := { x with links := ls }) h
    exact ⟨ls', h'⟩

theorem claimStaleAll_idle (claims : List (Nat × StaleReason)) {x : State} (h : x.commit.state = .idle) :
    ∃ ls, claimStaleAll claims x = { claimedDirs claims x with links := ls } := by
  rw [claimStaleAll_def]
  exact participantsLost_idle _ (by rw [(claimedDirs_aside claims x).commit]; exact h)

theorem settleCommit_settings (s : State) : (settleCommit s).keys = s.keys ∧ (settleCommit s).commit.epoch = s.commit.epoch := by
  unfold settleCommit
  split
  · split <;> exact ⟨rfl, rfl⟩
  · split
    · exact ⟨rfl, rfl⟩
    · have h := commitEnded true .ok 0 (commitResult s) s
      exact ⟨h.keys, by rw [h.commit]; rfl⟩
  · split
    · exact ⟨rfl, rfl⟩
    · have h := commitEnded false .aborted (s.commit.reason.getD .host).code (abortResult s (s.commit.reason.getD .host)) s
      exact ⟨h.keys, by rw [h.commit]; rfl⟩
  · exact ⟨rfl, rfl⟩

theorem finishEvent_idle {s : State} (h : s.commit.state = .idle) (n : Nat) : finishEvent n s = finishLinks n s := by
  rw [finishEvent, settleCommit, h]

theorem finishLinks_ofJob {n : Nat} {s : State} {j : Job} (hj : j ∈ allJobs (finishLinks n s)) : ∃ i ∈ allJobs s, i.ref = j.ref := by
  obtain ⟨l, hl⟩ := (mem_allJobs _ _).mp hj
  have hmem : j.ref ∈ ((finishLinks n s).jobs.get l).map Job.ref := List.mem_map_of_mem hl
  rw [(finishLinks_turnSettled n s l).1.refs] at hmem
  obtain ⟨i, hi, hr⟩ := List.mem_map.mp hmem
  exact ⟨i, (mem_allJobs _ _).mpr ⟨l, hi⟩, hr⟩

/-! ### A link taken down -/

/-- A hub in which a link has been taken down, up to completions made since. -/
structure TakenTo (l : LinkId) (target : LinkState) (m z : State) : Prop where
  eq : ∃ cs tg, z = { takeDown l target m with port := { (takeDown l target m).port with completions := cs, tags := tg } }
  ext : Extends (takeDown l target m) z

theorem TakenTo.refl (l : LinkId) (target : LinkState) (m : State) : TakenTo l target m (takeDown l target m) := ⟨⟨_, _, rfl⟩, .refl _⟩

theorem TakenTo.answer {l : LinkId} {target : LinkState} {m z : State} (h : TakenTo l target m z) (kind : ReqKind) (res : List Byte) (t : Tag) :
    TakenTo l target m (answerOk kind res t z) := by
  obtain ⟨cs, tg, rfl⟩ := h.eq
  exact ⟨⟨_, _, rfl⟩, h.ext.trans (complete_extends ..)⟩

namespace TakenTo

variable {l : LinkId} {target : LinkState} {m z : State} (h : TakenTo l target m z)
include h

theorem links : z.links = (takeDown l target m).links := by obtain ⟨cs, tg, rfl⟩ := h.eq; rfl
theorem dir : z.dir = (takeDown l target m).dir := by obtain ⟨cs, tg, rfl⟩ := h.eq; rfl
theorem attn : z.port.attn = (takeDown l target m).port.attn := by obtain ⟨cs, tg, rfl⟩ := h.eq; rfl

/-- The link is as the taking down leaves it, but for its commit class, at the end of the event (R107, R108). -/
theorem still (ht : target = .training ∨ target = .disabled) : StillAs (LinkEngine.down target m.now (m.links.get l)) l z := by
  have hstill := LinkEngine.still_down ht m.now (m.links.get l)
  have hdown : StillAs (LinkEngine.down target m.now (m.links.get l)) l (takeDownEngine l target m) :=
    ⟨hstill, by rw [takeDownEngine_still ht]; rfl⟩
  exact (hdown.claimStaleAll (claims := (recordsOn m fun x => x == l).map fun h => (h, .linkDown))).of_links h.links

theorem now : z.now = m.now := by
  obtain ⟨cs, tg, rfl⟩ := h.eq
  obtain ⟨c, ls, heq⟩ := claimStaleAll_eq ((recordsOn m fun x => x == l).map fun h => (h, .linkDown)) (takeDownEngine l target m)
  rw [takeDown, heq]
  exact (claimedDirs_aside ..).now.trans (takeDownEngine_keeps l target m).1

theorem settings : z.keys = m.keys ∧ z.boundary = m.boundary ∧ z.commit.epoch = m.commit.epoch := by
  obtain ⟨cs, tg, rfl⟩ := h.eq
  obtain ⟨ls, cs', tg', heq, -⟩ := takeDownEngine_eq l target m
  have hclaims := claimedDirs_aside ((recordsOn m fun x => x == l).map fun h => (h, .linkDown)) (takeDownEngine l target m)
  have hepoch : (takeDown l target m).commit.epoch = m.commit.epoch := by
    rw [takeDown, claimStaleAll_def]
    refine (forEach_keeps (fun s : State => s.commit.epoch) fun ref s => ?_).trans ((congrArg CommitCtl.epoch hclaims.commit).trans (by rw [heq]))
    exact participantLost_epoch ref s
  obtain ⟨c, ls, heq'⟩ := claimStaleAll_eq ((recordsOn m fun x => x == l).map fun h => (h, .linkDown)) (takeDownEngine l target m)
  refine ⟨?_, ?_, hepoch⟩
  · rw [takeDown, heq']
    exact hclaims.keys.trans (by rw [heq])
  · rw [takeDown, heq']
    exact hclaims.boundary.trans (by rw [heq])

theorem attnLinks : z.port.attn.links.get l = m.port.attn.links.get l ||| Reason.linkDown.flag := by
  obtain ⟨ls, cs, tg, heq, -⟩ := takeDownEngine_eq l target m
  obtain ⟨c, ls', heq'⟩ := claimStaleAll_eq ((recordsOn m fun x => x == l).map fun h => (h, .linkDown)) (takeDownEngine l target m)
  have hbeside := congrArg (fun t => t.2.2.2.2.2.2.1)
    (claimedDirs_besides ((recordsOn m fun x => x == l).map fun h => (h, .linkDown)) (takeDownEngine l target m))
  dsimp only [besideClaims] at hbeside
  rw [h.attn, takeDown, heq']
  dsimp only
  rw [hbeside, heq]
  exact Quad.get_modify_self ..

/-- The requests of the link complete NOT_REACHABLE (R107, R138). -/
theorem completed {t : Tag} {x : Running} (he : EndsWithLink (m.links.get l) t) (ht : m.port.tags.get t = .running x) :
    Completed m (finishEvent m.port.completions.length z) ⟨t, x.kind, .notReachable, 0, x.fields⟩ :=
  (((takeDownEngine_completed he ht target).trans (claimStaleAll_extends ..)).trans h.ext).finishEvent

/-! ### In a sound hub -/

theorem deserted (hd : HandlesDiffer m) (ht : target = .training ∨ target = .disabled) : Deserted l z := by
  have htaken := claims_reachableOn hd (takeDownEngine_records l target m) (fun x => x == l) .linkDown
  have hclaimed : Deserted l (claimedDirs ((recordsOn m fun x => x == l).map fun h => (h, .linkDown)) (takeDownEngine l target m)) := by
    refine ⟨by rw [htaken.aside.commitQ, takeDownEngine_still ht]; rfl, fun r hr hst hloc => ?_⟩
    rw [htaken.dir, takeDownEngine_records] at hr
    obtain ⟨q, hq, rfl⟩ := List.mem_map.mp hr
    rw [lostIn_reachableOn hd _ _ _ hq] at hst hloc
    split at hst
    next => exact hst rfl
    next hn =>
      rw [if_neg hn] at hloc
      exact hn ⟨hst, by simpa using hloc⟩
  refine (?_ : Deserted l (takeDown l target m)).of_eq h.links h.dir
  rw [takeDown, claimStaleAll_def]
  exact hclaimed.participantsLost fun ref hr => staleRef_claimedRefs hr

/-- STALE is raised for every record claimed (R9, R182). -/
theorem raised (hd : HandlesDiffer m) (hlen : m.port.attn.handles.length = 80)
    (hrange : ∀ r ∈ m.dir.records, 1 ≤ r.ref.handle ∧ r.ref.handle ≤ 80) {r : Record} (hr : r ∈ m.dir.records) (hst : r.state ≠ .stale)
    (hloc : r.loc.link = l) (n : Nat) : Raised (finishEvent n z) (.handle r.ref.handle) .stale := by
  have htaken := claims_reachableOn hd (takeDownEngine_records l target m) (fun x => x == l) .linkDown
  obtain ⟨ls, cs, tg, heq, -⟩ := takeDownEngine_eq l target m
  obtain ⟨c, ls', heq'⟩ := claimStaleAll_eq ((recordsOn m fun x => x == l).map fun h => (h, .linkDown)) (takeDownEngine l target m)
  have hmem : r ∈ reachableOn m fun x => x == l := mem_reachableOn.mpr ⟨hr, hst, by simpa using hloc⟩
  have hraised := htaken.raised (by rw [heq]; exact hlen) (fun q hq => hrange q (mem_reachableOn.mp hq).1) r hmem
  have hdir : z.dir = (claimedDirs ((recordsOn m fun x => x == l).map fun h => (h, .linkDown)) (takeDownEngine l target m)).dir := by
    rw [h.dir, takeDown, heq']
  have hattn : z.port.attn = (claimedDirs ((recordsOn m fun x => x == l).map fun h => (h, .linkDown)) (takeDownEngine l target m)).port.attn := by
    rw [h.attn, takeDown, heq']
  have hrecords : z.dir.records = m.dir.records.map (Record.lostIn ((reachableOn m fun x => x == l).map fun r => r.ref.handle)
      (takeDownEngine l target m).now .linkDown) := by rw [hdir, htaken.dir, takeDownEngine_records]
  have hlost : Record.lostIn ((reachableOn m fun x => x == l).map fun r => r.ref.handle) (takeDownEngine l target m).now .linkDown r
      = r.lost m.now .linkDown := by
    rw [lostIn_reachableOn hd _ _ _ hr, if_pos ⟨hst, by simpa using hloc⟩, (takeDownEngine_keeps l target m).1]
  have hdiffer : HandlesDiffer z := by
    unfold HandlesDiffer
    rw [hrecords, List.pairwise_map]
    simp only [Record.lostIn_ref]
    exact hd
  have hz : r.lost m.now .linkDown ∈ z.dir.records := by
    rw [hrecords, ← hlost]
    exact List.mem_map_of_mem hr
  have hgrace : graceReached z.now z.dir.grace (r.lost m.now .linkDown) = false := by
    rw [h.now]
    refine decide_eq_false fun hx => ?_
    simp only [Config.ticksPerSecond] at hx
    omega
  have hflags := finishEvent_flagsKept (hdiffer.findRec hz) hgrace (fun x hx => by
    rw [hrecords] at hx
    obtain ⟨q, hq, rfl⟩ := List.mem_map.mp hx
    rw [Record.lostIn_ref]
    exact (hrange q hq).1) n
  unfold Raised at hraised ⊢
  rw [show (r.ref.handle) = (r.lost m.now .linkDown).ref.handle from rfl, hflags, hattn]
  exact hraised

end TakenTo

end Sys2Proof.Machine
end

section
/-! PROOFS. Lock loss and LINK_DISABLE with the commit controller IDLE, and O35. -/

namespace Sys2Proof.Machine

namespace TakenTo

variable {l : LinkId} {target : LinkState} {m z : State} (h : TakenTo l target m z)
include h

/-- In IDLE a hub in which a link was taken down is the one after the claims, but for completions and what waits on the links. -/
theorem claims (hidle : m.commit.state = .idle) : ∃ ls p, z = { claimedDirs ((recordsOn m fun x => x == l).map fun h => (h, .linkDown))
    (takeDownEngine l target m) with links := ls, port := p } := by
  obtain ⟨cs, tg, rfl⟩ := h.eq
  have hc : (takeDownEngine l target m).commit.state = .idle := by rw [(takeDownEngine_keeps l target m).2.1]; exact hidle
  obtain ⟨ls, heq⟩ := claimStaleAll_idle ((recordsOn m fun x => x == l).map fun h => (h, .linkDown)) hc
  rw [takeDown, heq]
  exact ⟨_, _, rfl⟩

theorem state_idle (hidle : m.commit.state = .idle) : z.commit.state = .idle := by
  obtain ⟨ls, p, heq⟩ := h.claims hidle
  rw [heq]
  show (claimedDirs _ (takeDownEngine l target m)).commit.state = .idle
  rw [(claimedDirs_aside ..).commit, (takeDownEngine_keeps l target m).2.1]
  exact hidle

/-- The directory changes by the claims and the abandoned assignment (R5, R9, R107). -/
theorem directory (hidle : m.commit.state = .idle) (hd : HandlesDiffer m) : z.dir = { m.dir.abandon l (m.links.get l).assigning with
    records := m.dir.records.map (downRecord l m.now)
    staleList := m.dir.staleList ++ (m.dir.records.filter (fun r => decide (r.state ≠ .stale ∧ r.loc.link = l))).map fun r => r.ref.handle } := by
  obtain ⟨ls, p, heq⟩ := h.claims hidle
  have htaken := claims_reachableOn hd (takeDownEngine_records l target m) (fun x => x == l) .linkDown
  obtain ⟨ls', cs, tg, heng, -⟩ := takeDownEngine_eq l target m
  have hreach : reachableOn m (fun x => x == l) = m.dir.records.filter fun r => decide (r.state ≠ .stale ∧ r.loc.link = l) :=
    List.filter_congr fun r _ => by
      simp only [Record.reachable, Bool.decide_and, decide_not]
      rfl
  have hrecords : m.dir.records.map (Record.lostIn ((reachableOn m fun x => x == l).map fun r => r.ref.handle) m.now .linkDown)
      = m.dir.records.map (downRecord l m.now) := List.map_congr_left fun r hr => by
    rw [lostIn_reachableOn hd _ _ _ hr]
    exact if_congr (by simp) rfl rfl
  rw [heq]
  dsimp only
  rw [htaken.dir, heng]
  dsimp only [Directory.abandon]
  rw [hrecords, hreach]

theorem stores (hidle : m.commit.state = .idle) : z.store = m.store ∧ z.staging = m.staging := by
  obtain ⟨ls, p, heq⟩ := h.claims hidle
  obtain ⟨ls', cs, tg, heng, -⟩ := takeDownEngine_eq l target m
  have hbeside := claimedDirs_besides ((recordsOn m fun x => x == l).map fun h => (h, .linkDown)) (takeDownEngine l target m)
  simp only [besideClaims, Prod.mk.injEq] at hbeside
  obtain ⟨hstore, hstaging, -⟩ := hbeside
  rw [heq]
  dsimp only
  rw [hstore, hstaging, heng]
  exact ⟨rfl, rfl⟩

/-- No record claimed keeps a job (R159). -/
theorem jobless (hidle : m.commit.state = .idle) (hd : HandlesDiffer m) {r : Record} (hr : r ∈ m.dir.records) (hst : r.state ≠ .stale)
    (hloc : r.loc.link = l) (n : Nat) {j : Job} (hj : j ∈ allJobs (finishLinks n z)) : j.ref ≠ r.ref := by
  obtain ⟨ls, p, heq⟩ := h.claims hidle
  have htaken := claims_reachableOn hd (takeDownEngine_records l target m) (fun x => x == l) .linkDown
  obtain ⟨i, hi, hij⟩ := finishLinks_ofJob hj
  obtain ⟨k, hk⟩ := (mem_allJobs _ _).mp hi
  rw [heq] at hk
  rw [← hij]
  exact (htaken.jobs k i hk).2 r (mem_reachableOn.mpr ⟨hr, hst, by simpa using hloc⟩)

/-- The other links keep their state and their hop map. -/
theorem others (hd : HandlesDiffer m) {k : LinkId} (hk : k ≠ l) :
    (z.links.get k).state = (m.links.get k).state ∧ (z.links.get k).hops = (m.links.get k).hops := by
  have htaken := claims_reachableOn hd (takeDownEngine_records l target m) (fun x => x == l) .linkDown
  obtain ⟨ls', cs, tg, heng, hcalm⟩ := takeDownEngine_eq l target m
  have hz : (z.links.get k).calm = (m.links.get k).calm := by
    rw [h.links, takeDown, calm_of_links (claimStaleAll_calm ..) k]
    refine (htaken.away k fun r hr hloc => hk ?_).trans ((congrArg (fun x => (x.links.get k).calm) heng).trans (congrArg LinkEngine.calm (hcalm k hk) :))
    rw [← hloc]
    simpa using (mem_reachableOn.mp hr).2.2
  exact ⟨(congrArg LinkEngine.state hz :), (congrArg LinkEngine.hops hz :)⟩

end TakenTo

/-- Every effect of the taking down of a link (R107, R108), when the event began with the acceptance of a request or not. -/
theorem takenDown {s : State} {l : LinkId} {target : LinkState} {p : HostPort} {z : State} (ht : target = .training ∨ target = .disabled)
    (hp : p.attn = s.port.attn ∧ p.tags = s.port.tags ∧ p.completions = s.port.completions)
    (h : TakenTo l target { s with port := p } z) : TakenDown s (finishEvent p.completions.length z) l target := by
  obtain ⟨hattn, htags, hcomps⟩ := hp
  have hlink := ((h.still ht).finishEvent p.completions.length).link
  have hkeeps := settleCommit_settings z
  obtain ⟨hkeys, hboundary, hepoch⟩ := h.settings
  refine ⟨(congrArg LinkEngine.state hlink :), (congrArg LinkEngine.reach hlink :), (congrArg LinkEngine.hops hlink :),
    (congrArg LinkEngine.flight hlink :), (congrArg LinkEngine.overtaking hlink :), (congrArg LinkEngine.assigning hlink :),
    (congrArg LinkEngine.followUp hlink :), (congrArg LinkEngine.lastSeq hlink :), (congrArg LinkEngine.rollDue hlink :),
    (congrArg LinkEngine.rollMet hlink :), (congrArg LinkEngine.hostRun hlink :), (congrArg LinkEngine.scan hlink :),
    (congrArg LinkEngine.noLockTimer hlink :), (congrArg LinkEngine.noLockMark hlink :), (congrArg LinkEngine.seqCounter hlink :),
    (congrArg LinkEngine.timing hlink :), ?_, fun t x he hx => ?_, ?_, ?_, ?_, ?_, fun hw hs => ?_, fun hidle hd => ?_⟩
  · rw [finishEvent, finishLinks_attn, settleCommit_attnLinks, h.attnLinks]
    exact congrArg (fun a : AttnSet => a.links.get l ||| Reason.linkDown.flag) hattn
  · exact (h.completed he (by dsimp only; rw [htags]; exact hx)).rebase hcomps.symm
  · exact (finishLinks_keys ..).trans (hkeeps.1.trans hkeys)
  · exact (finishEvent_boundary ..).trans hboundary
  · exact (finishLinks_commit_epoch ..).trans (hkeeps.2.trans hepoch)
  · exact (finishEvent_now ..).trans h.now
  · have hd : HandlesDiffer { s with port := p } := hs.directory.order.imp fun hab => Nat.ne_of_lt hab
    have hrange : ∀ r ∈ s.dir.records, 1 ≤ r.ref.handle ∧ r.ref.handle ≤ 80 := fun r hr => by
      obtain ⟨h1, h2, -⟩ := (numbered_of_sound hw hs.directory).records r hr
      exact ⟨h1, h2⟩
    exact ⟨(h.deserted hd ht).finishEvent _, (congrArg LinkEngine.scanQ hlink :).trans rfl, (congrArg LinkEngine.hostQ hlink :),
      (congrArg LinkEngine.catchQ hlink :), fun r hr hst hloc => h.raised hd (by dsimp only; rw [hattn]; exact hw.attention) hrange hr hst hloc _⟩
  · have hz := h.state_idle hidle
    obtain ⟨hstore, hstaging⟩ := h.stores hidle
    rw [finishEvent_idle hz]
    refine ⟨(finishLinks_dir ..).trans ((h.directory hidle hd).trans ?_), (finishLinks_store ..).trans hstore,
      (finishLinks_staging ..).trans hstaging, (finishLinks_commit_state ..).trans hz,
      fun r hr hst hloc j hj => h.jobless hidle hd hr hst hloc _ hj, fun k hk => ?_⟩
    · cases (s.links.get l).assigning <;> rfl
    · obtain ⟨hstate, hhops⟩ := h.others hd hk
      exact ⟨(finishLinks_link_state ..).trans hstate, (finishLinks_link_hops ..).trans hhops⟩

/-- Settles O35: a link that is up is taken down, by its lock loss or LINK_DISABLE; the other cases are those of the two events. -/
theorem lostOrDisabledLinkIsTakenDown : Obligations.LostOrDisabledLinkIsTakenDown := by
  unfold Obligations.LostOrDisabledLinkIsTakenDown
  refine fun s l => ⟨fun hop => ⟨fun hup => ?_, fun hdown => ?_⟩, fun b n t hacc => ⟨fun hn => ?_, fun hn => ⟨fun hs => ?_, fun hs => ?_,
    fun hup => ?_⟩⟩⟩
  · rw [exec_lockLoss hop, lockLoss_up (isUp_iff.mpr hup)]
    exact ⟨_, rfl, takenDown (p := s.port) (.inl rfl) ⟨rfl, rfl, rfl⟩ (.refl ..)⟩
  · rw [exec_lockLoss hop, lockLoss]
    have hnot : (s.links.get l).isUp = false := by rcases hdown with hs | hs <;> rw [LinkEngine.isUp, hs] <;> rfl
    rw [hnot]
    rfl
  · rw [exec_linkDisable hacc, linkDisable, linkOf_eq_none hn]
    rfl
  · rw [exec_linkDisable hacc]
    simp only [linkDisable, linkOf_eq_some hn, received_links, hs]
    rfl
  · rw [exec_linkDisable hacc]
    simp only [linkDisable, linkOf_eq_some hn, received_links, hs]
    exact ⟨LinkEngine.down .disabled s.now (s.links.get l), rfl, rfl, rfl, rfl, rfl, rfl⟩
  · rw [exec_linkDisable hacc, linkDisable_up (s := received 1 s) hn (isUp_iff.mpr hup)]
    refine ⟨_, rfl, takenDown (p := (received 1 s).port) (.inr rfl) ⟨rfl, rfl, rfl⟩ ((TakenTo.refl ..).answer ..), ?_⟩
    have hext : Extends (received 1 s) (takeDown l .disabled (received 1 s)) :=
      (takeDownEngine_keeps ..).2.2.trans (claimStaleAll_extends ..)
    exact (hext.completed (complete_completed ..)).finishEvent.rebase rfl

end Sys2Proof.Machine
end

section
/-! PROOFS. CLEAR LINKS link by link: what each link taken down or trained anew leaves of the others, of the port and of the directory
(R26, R126, R188). -/

namespace Sys2Proof.Machine

/-! ### Completions in tag order -/

theorem sortByTag_perm (cs : List Completion) : (sortByTag cs).Perm cs := by
  have hinsert : ∀ (c : Completion) (xs : List Completion), (insertByTag c xs).Perm (c :: xs) := fun c xs => by
    induction xs with
    | nil => exact .refl _
    | cons x xs ih =>
      unfold insertByTag
      split
      · exact .refl _
      · exact (ih.cons x).trans (.swap ..)
  induction cs with
  | nil => exact .nil
  | cons c cs ih => exact (hinsert ..).trans (ih.cons c)

/-! ### A link beside the one taken down -/

theorem takeDownEngine_stillAs {d : LinkEngine} {l k : LinkId} {s : State} (h : StillAs d l s) (hk : k ≠ l) (target : LinkState) :
    StillAs d l (takeDownEngine k target s) := by
  have hdown : StillAs d l (modLink k (LinkEngine.down target s.now) s) :=
    ⟨h.still, by rw [modLink_links, Quad.get_modify, if_neg hk.symm]; exact h.link⟩
  have hends := hdown.endRunnings (st := .notReachable) (ts := hostTags (s.links.get k) ++ rescanTag (s.links.get k))
  unfold takeDownEngine
  dsimp only
  refine StillAs.modPort ?_
  split
  next a _ =>
    refine ⟨h.still, ?_⟩
    rw [dropAssignment_link, if_neg hk.symm]
    have hnoticed : ∀ e : LinkEngine, e.Still → e.noticed a = e := fun e he => by
      unfold LinkEngine.noticed
      split
      · rw [he.notice, he.notice]
      · rw [he.notice]
    rw [hnoticed _ hends.engine]
    exact hends.link
  next => exact hends

/-! ### The links of a list cleared -/

/-- The directory after a link is cleared: the assignment of one that is up is abandoned (R26). -/
def abandonOn (m : State) (k : LinkId) (d : Directory) : Directory :=
  if (m.links.get k).isUp then d.abandon k (m.links.get k).assigning else d

/-- CLEAR LINKS has come through the links of a list (R126). -/
structure LinksCleared (m : State) (ks : List LinkId) (x : State) : Prop where
  rest : ∃ ls cs tg la, x = { m with
    dir := ks.foldr (abandonOn m) m.dir
    links := ls
    port := { m.port with completions := cs, tags := tg, attn := { m.port.attn with links := la } } }
  kept : ∀ k, k ∉ ks ∨ (m.links.get k).state = .disabled → (x.links.get k).unmarked = (m.links.get k).unmarked
  downed : ∀ k ∈ ks, (m.links.get k).state ≠ .disabled → StillAs (LinkEngine.down .training m.now (m.links.get k)) k x
  attnLinks : ∀ k, x.port.attn.links.get k
    = if k ∈ ks ∧ (m.links.get k).isUp = true then m.port.attn.links.get k ||| Reason.linkDown.flag else m.port.attn.links.get k
  ended : ∀ k ∈ ks, (m.links.get k).isUp = true → ∀ n r, EndsWithLink (m.links.get k) n → m.port.tags.get n = .running r →
    Completed m x ⟨n, r.kind, .notReachable, 0, r.fields⟩
  running : ∀ n r, m.port.tags.get n = .running r → x.port.tags.get n = .running r ∨ Completed m x ⟨n, r.kind, .notReachable, 0, r.fields⟩
  spared : ∀ n, (∀ k, ¬ EndsWithLink (m.links.get k) n) → x.port.tags.get n = m.port.tags.get n
  ext : Extends m x

namespace LinksCleared

variable {m x : State} {ks : List LinkId} {k : LinkId}

theorem nil (m : State) : LinksCleared m [] m where
  rest := ⟨_, _, _, _, rfl⟩
  kept _ _ := rfl
  downed _ h := nomatch h
  attnLinks k := by rw [if_neg (by simp)]
  ended _ h := nomatch h
  running _ _ h := .inl h
  spared _ _ := rfl
  ext := .refl m

section Next

variable (h : LinksCleared m ks x) (hk : k ∉ ks)
include h hk

theorem next_disabled (hs : (m.links.get k).state = .disabled) : LinksCleared m (k :: ks) x where
  rest := by
    have hup : (m.links.get k).isUp = false := by rw [LinkEngine.isUp, hs]; rfl
    rw [List.foldr_cons, abandonOn, hup]
    exact h.rest
  kept i hi := h.kept i <| hi.imp_left fun hn hm => hn (List.mem_cons_of_mem _ hm)
  downed i hi hd := by
    rcases List.mem_cons.mp hi with rfl | hi
    · exact absurd hs hd
    · exact h.downed i hi hd
  attnLinks i := by
    rw [h.attnLinks]
    refine if_congr ⟨fun hi => ⟨List.mem_cons_of_mem _ hi.1, hi.2⟩, fun hi => ⟨?_, hi.2⟩⟩ rfl rfl
    rcases List.mem_cons.mp hi.1 with rfl | hm
    · rw [LinkEngine.isUp, hs] at hi
      cases hi.2
    · exact hm
  ended i hi hup := by
    rcases List.mem_cons.mp hi with rfl | hi
    · rw [LinkEngine.isUp, hs] at hup; cases hup
    · exact h.ended i hi hup
  running := h.running
  spared := h.spared
  ext := h.ext

theorem next_training (hs : (m.links.get k).state = .training) :
    LinksCleared m (k :: ks) (modLink k (LinkEngine.down .training x.now) x) := by
  have hkx := h.kept k (.inl hk)
  have hnow : x.now = m.now := by obtain ⟨ls, cs, tg, la, rfl⟩ := h.rest; rfl
  have hup : (m.links.get k).isUp = false := by rw [LinkEngine.isUp, hs]; rfl
  refine ⟨?_, fun i hi => ?_, fun i hi hd => ?_, fun i => ?_, fun i hi hu n r he hn => ?_,
    fun n r hn => (h.running n r hn).imp_right fun hx => hx.trans (.of_eq rfl rfl), h.spared, h.ext.trans (.of_eq rfl rfl)⟩
  · rw [List.foldr_cons, abandonOn, hup]
    obtain ⟨ls, cs, tg, la, rfl⟩ := h.rest
    exact ⟨_, _, _, _, rfl⟩
  · have hik : i ≠ k := by
      rintro rfl
      rcases hi with hi | hi
      · exact hi List.mem_cons_self
      · rw [hs] at hi; cases hi
    rw [modLink_links, Quad.get_modify, if_neg hik]
    exact h.kept i (hi.imp_left fun hn hm => hn (List.mem_cons_of_mem _ hm))
  · by_cases hik : i = k
    · subst hik
      refine ⟨LinkEngine.still_down (.inl rfl) .., ?_⟩
      rw [modLink_links, Quad.get_modify_self, hnow]
      exact (congrArg (LinkEngine.down .training m.now) hkx :)
    · have hi' := h.downed i ((List.mem_cons.mp hi).resolve_left hik) hd
      exact ⟨hi'.still, by rw [modLink_links, Quad.get_modify, if_neg hik]; exact hi'.link⟩
  · refine (h.attnLinks i).trans (if_congr ⟨fun hi => ⟨List.mem_cons_of_mem _ hi.1, hi.2⟩, fun hi => ⟨?_, hi.2⟩⟩ rfl rfl)
    rcases List.mem_cons.mp hi.1 with rfl | hm
    · rw [hup] at hi; cases hi.2
    · exact hm
  · rcases List.mem_cons.mp hi with rfl | hi
    · rw [hup] at hu; cases hu
    · exact (h.ended i hi hu n r he hn).trans (.of_eq rfl rfl)

theorem next_up (hup : (m.links.get k).isUp = true) : LinksCleared m (k :: ks) (takeDownEngine k .training x) := by
  have hkx := h.kept k (.inl hk)
  have hnow : x.now = m.now := by obtain ⟨ls, cs, tg, la, rfl⟩ := h.rest; rfl
  have hassign : (x.links.get k).assigning = (m.links.get k).assigning := (congrArg LinkEngine.assigning hkx :)
  have hends : ∀ n, EndsWithLink (x.links.get k) n ↔ EndsWithLink (m.links.get k) n := fun n =>
    Iff.of_eq (congrArg (EndsWithLink · n) hkx :)
  have hne : (m.links.get k).state ≠ .disabled := fun hs => by rw [LinkEngine.isUp, hs] at hup; cases hup
  obtain ⟨ls, cs, tg, heq, hothers⟩ := takeDownEngine_eq k .training x
  have hext : Extends x (takeDownEngine k .training x) := (takeDownEngine_keeps ..).2.2
  have hrunning : ∀ n r, m.port.tags.get n = .running r → EndsWithLink (m.links.get k) n →
      Completed m (takeDownEngine k .training x) ⟨n, r.kind, .notReachable, 0, r.fields⟩ := fun n r hn he => by
    rcases h.running n r hn with hx | hx
    · exact h.ext.completed (takeDownEngine_completed ((hends n).mpr he) hx .training)
    · exact hx.trans hext
  refine ⟨?_, fun i hi => ?_, fun i hi hd => ?_, fun i => ?_, fun i hi hu n r he hn => ?_, fun n r hn => ?_, fun n hn => ?_, h.ext.trans hext⟩
  · rw [heq, List.foldr_cons, abandonOn, hup, hassign]
    obtain ⟨ls, cs, tg, la, rfl⟩ := h.rest
    exact ⟨_, _, _, _, rfl⟩
  · have hik : i ≠ k := by
      rintro rfl
      rcases hi with hi | hi
      · exact hi List.mem_cons_self
      · exact hne hi
    rw [heq]
    exact (hothers i hik).trans (h.kept i (hi.imp_left fun hn hm => hn (List.mem_cons_of_mem _ hm)))
  · by_cases hik : i = k
    · subst hik
      refine ⟨LinkEngine.still_down (.inl rfl) .., ?_⟩
      rw [takeDownEngine_still (.inl rfl), hnow]
      exact (congrArg (LinkEngine.down .training m.now) hkx :)
    · exact takeDownEngine_stillAs (h.downed i ((List.mem_cons.mp hi).resolve_left hik) hd) (Ne.symm hik) _
  · rw [heq]
    show (x.port.attn.links.modify k _).get i = _
    rw [Quad.get_modify, h.attnLinks]
    by_cases hik : i = k
    · subst hik
      rw [if_pos rfl, if_neg (fun hx => hk hx.1), if_pos ⟨List.mem_cons_self, hup⟩]
    · rw [if_neg hik]
      exact if_congr (by simp [hik]) rfl rfl
  · rcases List.mem_cons.mp hi with rfl | hi
    · exact hrunning n r hn he
    · exact (h.ended i hi hu n r he hn).trans hext
  · by_cases he : EndsWithLink (m.links.get k) n
    · exact .inr (hrunning n r hn he)
    · rw [takeDownEngine_tag (fun hx => he ((hends n).mp hx))]
      exact (h.running n r hn).imp_right fun hx => hx.trans hext
  · rw [takeDownEngine_tag (fun hx => hn k ((hends n).mp hx))]
    exact h.spared n hn

theorem next : LinksCleared m (k :: ks) (clearLink k x) := by
  have hstate : (x.links.get k).state = (m.links.get k).state := (congrArg LinkEngine.state (h.kept k (.inl hk)) :)
  unfold clearLink
  split
  next hs => exact h.next_disabled hk (hstate ▸ hs)
  next hs => exact h.next_training hk (hstate ▸ hs)
  next hs => exact h.next_up hk (isUp_iff.mpr (.inl (hstate ▸ hs)))
  next hs => exact h.next_up hk (isUp_iff.mpr (.inr (hstate ▸ hs)))

end Next

/-- All four links, in descending order. -/
theorem all (m : State) : LinksCleared m fours (forEach fours.reverse clearLink m) :=
  ((((LinksCleared.nil m).next (k := 3) (by decide)).next (k := 2) (by decide)).next (k := 1) (by decide)).next (k := 0) (by decide)

end LinksCleared

end Sys2Proof.Machine
end

section
/-! PROOFS. CLEAR LINKS in IDLE (O51). -/

namespace Sys2Proof.Machine

/-! ### A request that names no record runs on -/

theorem dropHostWaiting_tag {l : LinkId} {ref : Ref} {s : State} {t : Tag} {x : Running} (ht : s.port.tags.get t = .running x)
    (hx : x.ref? = none) : (dropHostWaiting l ref s).port.tags.get t = .running x := by
  have hnot : t ∉ (s.links.get l).hostQ.filterMap (hostTagFor s ref) := fun hm => by
    obtain ⟨q, -, hq⟩ := List.mem_filterMap.mp hm
    unfold hostTagFor at hq
    split at hq
    · split at hq
      · next r hr =>
        split at hq
        · next href =>
          rw [Option.some.inj hq, ht] at hr
          cases hr
          rw [hx] at href
          cases href
        · cases hq
      · cases hq
    · cases hq
  unfold dropHostWaiting
  dsimp only
  generalize (s.links.get l).hostQ.filterMap (hostTagFor s ref) = ts at hnot ⊢
  have hends : ∀ y : State, (forEach ts (endRunning .notReachable) y).port.tags.get t = y.port.tags.get t := by
    unfold forEach
    induction ts with
    | nil => exact fun _ => rfl
    | cons k ks ih =>
      obtain ⟨hk, hks⟩ := not_or.mp fun h => hnot (List.mem_cons.mpr h)
      exact fun y => (ih hks _).trans (endRunning_other y hk)
  exact (hends _).trans ht

theorem claimStaleDir_tag {n : Nat} {why : StaleReason} {s : State} {t : Tag} {x : Running} (ht : s.port.tags.get t = .running x)
    (hx : x.ref? = none) : (claimStaleDir n why s).port.tags.get t = .running x := by
  unfold claimStaleDir
  split
  next r _ =>
    split
    · exact ht
    · refine dropHostWaiting_tag ?_ hx
      have hport : ∀ y : State, (removeJob r.ref y).port = y.port := fun y =>
        (modLinks_port ..).trans (forEach_keeps (fun s : State => s.port) fun _ _ => rfl)
      rw [hport]
      exact ht
  next => exact ht

theorem claimedDirs_tag {claims : List (Nat × StaleReason)} {s : State} {t : Tag} {x : Running} (ht : s.port.tags.get t = .running x)
    (hx : x.ref? = none) : (claimedDirs claims s).port.tags.get t = .running x := by
  unfold claimedDirs forEach
  induction claims generalizing s with
  | nil => exact ht
  | cons c cs ih => exact ih (claimStaleDir_tag ht hx)

/-! ### The set of enabled links -/

theorem enabledSet_bits (s : State) : (∀ l : LinkId, (enabledSet s).getLsbD l.val = isEnabled s l) ∧ (enabledSet s).toNat < 16 := by
  have hall : ∀ a b c d : Bool, ∀ x, x = u8 ((if a then 1 else 0) + (if b then 2 else 0) + (if c then 4 else 0) + (if d then 8 else 0)) →
      (x.getLsbD 0 = a ∧ x.getLsbD 1 = b ∧ x.getLsbD 2 = c ∧ x.getLsbD 3 = d) ∧ x.toNat < 16 := fun a b c d x hx => by
    subst hx
    revert a b c d
    decide
  obtain ⟨⟨h0, h1, h2, h3⟩, hlt⟩ := hall (isEnabled s 0) (isEnabled s 1) (isEnabled s 2) (isEnabled s 3) (enabledSet s) rfl
  refine ⟨fun l => ?_, hlt⟩
  fin_cases l
  · exact h0
  · exact h1
  · exact h2
  · exact h3

/-! ### The directory -/

theorem abandonOn_keeps (m : State) (ks : List LinkId) (d : Directory) : (ks.foldr (abandonOn m) d).records = d.records
    ∧ (ks.foldr (abandonOn m) d).staleList = d.staleList ∧ (ks.foldr (abandonOn m) d).gens = d.gens
    ∧ (ks.foldr (abandonOn m) d).grace = d.grace := by
  induction ks with
  | nil => exact ⟨rfl, rfl, rfl, rfl⟩
  | cons k ks ih =>
    rw [List.foldr_cons, abandonOn]
    split <;> exact ih

/-- In a sound hub only a link that is up has an assignment in progress (R107). -/
theorem abandonOn_of_sound {m : State} (hs : ∀ l, LinkSound (m.links.get l)) (k : LinkId) (d : Directory) :
    abandonOn m k d = d.abandon k (m.links.get k).assigning := by
  unfold abandonOn
  split
  · rfl
  · next hup =>
    obtain ⟨-, -, -, -, hnone, -⟩ := (hs k).down (by simpa using hup)
    rw [hnone]
    rfl

/-- The handle held for a new tile by an assignment. -/
def heldFor (o : Option Assignment) : Option Nat :=
  match o with
  | some a => if a.kind = .assigningNew then some a.ref.handle else none
  | none => none

theorem abandon_freeList (l : LinkId) (o : Option Assignment) (d : Directory) : (d.abandon l o).freeList = (heldFor o).toList ++ d.freeList := by
  cases o with
  | none => rfl
  | some a =>
    dsimp only [Directory.abandon, heldFor]
    split <;> rfl

theorem abandonAll_freeList {m : State} (hs : ∀ l, LinkSound (m.links.get l)) (ks : List LinkId) (d : Directory) :
    (ks.foldr (abandonOn m) d).freeList = ks.filterMap (fun l => heldFor (m.links.get l).assigning) ++ d.freeList := by
  induction ks with
  | nil => rfl
  | cons k ks ih =>
    rw [List.foldr_cons, abandonOn_of_sound hs, abandon_freeList, ih, List.filterMap_cons]
    cases heldFor (m.links.get k).assigning <;> rfl

theorem abandonAll_marks {m : State} (hs : ∀ l, LinkSound (m.links.get l)) {ks : List LinkId} {d : Directory} {x : Mark}
    (hx : x ∈ (ks.foldr (abandonOn m) d).marks) : x ∈ d.marks ∧ ∀ k ∈ ks, ∀ a, (m.links.get k).assigning = some a → x.loc ≠ ⟨k, a.hop⟩ := by
  induction ks with
  | nil => exact ⟨hx, nofun⟩
  | cons k ks ih =>
    rw [List.foldr_cons, abandonOn_of_sound hs] at hx
    cases ha : (m.links.get k).assigning with
    | none =>
      rw [ha] at hx
      obtain ⟨hd, hks⟩ := ih hx
      refine ⟨hd, fun i hi a hia => ?_⟩
      rcases List.mem_cons.mp hi with rfl | hi
      · rw [ha] at hia; cases hia
      · exact hks i hi a hia
    | some a =>
      rw [ha] at hx
      obtain ⟨hx, hne⟩ := List.mem_filter.mp hx
      obtain ⟨hd, hks⟩ := ih hx
      refine ⟨hd, fun i hi b hib => ?_⟩
      rcases List.mem_cons.mp hi with rfl | hi
      · rw [ha] at hib
        cases hib
        simpa using hne
      · exact hks i hi b hib

theorem abandonAll_noMarks {m : State} (hs : HubSound m) : (fours.foldr (abandonOn m) m.dir).marks = [] := by
  refine List.eq_nil_iff_forall_not_mem.mpr fun x hx => ?_
  obtain ⟨hmem, hnone⟩ := abandonAll_marks hs.links hx
  obtain ⟨l, hl, hmark⟩ := List.mem_filterMap.mp (hs.directory.marks.mem_iff.mp hmem)
  obtain ⟨a, ha, rfl⟩ := Option.map_eq_some_iff.mp hmark
  exact hnone l hl a ha rfl

/-! ### The request -/

/-- The hub as CLEAR LINKS leaves it in IDLE, before the results are recorded (R188). -/
def linksClaimed (t : Tag) (s : State) : State :=
  claimStaleAll ((clearedHandles s).map fun h => (h, .cleared)) (forEach fours.reverse clearLink (beginClear t s))

/-- The results a CLEAR LINKS records (R188). -/
def linksResults (t : Tag) (s : State) : RunningClear where
  tag := t
  scope := .links
  links := enabledSet s
  stale := (clearedHandles s).length
  ended := unreachableSince s.port.completions.length (linksClaimed t s)

theorem clearLinks_eq (t : Tag) (s : State) :
    clearLinks t s = finishEvent s.port.completions.length (recordClear (linksResults t s) (linksClaimed t s)) := rfl

section Claimed

variable {t : Tag} {s : State} (hidle : s.commit.state = .idle) (hd : HandlesDiffer s)

/-- The links as CLEAR LINKS leaves them. -/
theorem linksClaimed_still {l : LinkId} (hs : (s.links.get l).state ≠ .disabled) :
    StillAs (LinkEngine.down .training s.now (s.links.get l)) l (linksClaimed t s) :=
  ((LinksCleared.all (beginClear t s)).downed l (mem_fours l) hs).claimStaleAll

theorem linksClaimed_state (l : LinkId) (hs : (s.links.get l).state = .disabled) : ((linksClaimed t s).links.get l).state = .disabled := by
  have hkept := (LinksCleared.all (beginClear t s)).kept l (.inr hs)
  rw [linksClaimed, claimStaleAll_state]
  exact (congrArg LinkEngine.state hkept :).trans hs

theorem linksClaimed_extends : Extends (beginClear t s) (linksClaimed t s) :=
  (LinksCleared.all (beginClear t s)).ext.trans (claimStaleAll_extends ..)

theorem linksClaimed_completed {l : LinkId} {n : Tag} {x : Running} (hup : (s.links.get l).isUp = true) (he : EndsWithLink (s.links.get l) n)
    (hn : s.port.tags.get n = .running x) (hne : n ≠ t) :
    Completed (beginClear t s) (linksClaimed t s) ⟨n, x.kind, .notReachable, 0, x.fields⟩ :=
  ((LinksCleared.all (beginClear t s)).ended l (mem_fours l) hup n x he ((Quad.get_put_ne _ _ hne).trans hn)).trans (claimStaleAll_extends ..)

theorem linksClaimed_attnLinks {l : LinkId} : (linksClaimed t s).port.attn.links.get l
    = if (s.links.get l).isUp = true then s.port.attn.links.get l ||| Reason.linkDown.flag else s.port.attn.links.get l := by
  obtain ⟨c, ls, heq⟩ := claimStaleAll_eq ((clearedHandles s).map fun h => (h, .cleared)) (forEach fours.reverse clearLink (beginClear t s))
  have hbeside := claimedDirs_besides ((clearedHandles s).map fun h => (h, .cleared)) (forEach fours.reverse clearLink (beginClear t s))
  simp only [besideClaims, Prod.mk.injEq] at hbeside
  obtain ⟨-, -, -, -, -, -, hlinks, -⟩ := hbeside
  rw [linksClaimed, heq]
  dsimp only
  rw [hlinks, (LinksCleared.all (beginClear t s)).attnLinks]
  exact if_congr (by simp [mem_fours, beginClear, holdTag]) rfl rfl

include hidle

/-- In IDLE the hub after the claims, but for what waits on the links. -/
theorem linksClaimed_idle : ∃ ls, linksClaimed t s = { claimedDirs ((clearedHandles s).map fun h => (h, .cleared))
    (forEach fours.reverse clearLink (beginClear t s)) with links := ls } :=
  claimStaleAll_idle _ (by rw [(clearLinks_keeps ..).2.1]; exact hidle)

theorem linksClaimed_tag (hfree : ∀ l, ¬ EndsWithLink (s.links.get l) t) : (linksClaimed t s).port.tags.get t = .running .clear := by
  obtain ⟨ls, heq⟩ := linksClaimed_idle (t := t) hidle
  rw [heq]
  refine claimedDirs_tag ?_ rfl
  rw [(LinksCleared.all (beginClear t s)).spared t hfree]
  exact Quad.get_put_self ..

/-- What CLEAR LINKS keeps (R47, R62, R90, R99, R188). -/
theorem linksClaimed_keeps : (linksClaimed t s).keys = s.keys ∧ (linksClaimed t s).store = s.store ∧ (linksClaimed t s).staging = s.staging
    ∧ (linksClaimed t s).boundary = s.boundary ∧ (linksClaimed t s).commit = s.commit ∧ (linksClaimed t s).port.state = .resetting
    ∧ (linksClaimed t s).port.mask = s.port.mask ∧ (linksClaimed t s).port.attn.device = s.port.attn.device := by
  obtain ⟨ls, heq⟩ := linksClaimed_idle (t := t) hidle
  have haside := claimedDirs_aside ((clearedHandles s).map fun h => (h, .cleared)) (forEach fours.reverse clearLink (beginClear t s))
  have hbeside := claimedDirs_besides ((clearedHandles s).map fun h => (h, .cleared)) (forEach fours.reverse clearLink (beginClear t s))
  simp only [besideClaims, Prod.mk.injEq] at hbeside
  obtain ⟨hstore, hstaging, hstate, hmask, -, hdevice, -⟩ := hbeside
  obtain ⟨ls', cs, tg, la, hx⟩ := (LinksCleared.all (beginClear t s)).rest
  rw [heq]
  dsimp only
  rw [haside.keys, haside.boundary, haside.commit, hstore, hstaging, hstate, hmask, hdevice, hx]
  exact ⟨rfl, rfl, rfl, rfl, rfl, rfl, rfl, rfl⟩

include hd

theorem linksClaimed_dir : (linksClaimed t s).dir = { fours.foldr (abandonOn s) s.dir with
    records := s.dir.records.map fun r => if r.state ≠ .stale ∧ isEnabled s r.loc.link = true then r.lost s.now .cleared else r
    staleList := s.dir.staleList ++ (reachableOn s (isEnabled s)).map fun r => r.ref.handle } := by
  obtain ⟨ls, heq⟩ := linksClaimed_idle (t := t) hidle
  obtain ⟨ls', cs, tg, la, hx⟩ := (LinksCleared.all (beginClear t s)).rest
  obtain ⟨hrecords, hstale, -⟩ := abandonOn_keeps (beginClear t s) fours (beginClear t s).dir
  have htaken := claims_reachableOn (s := s) (x := forEach fours.reverse clearLink (beginClear t s)) hd (by rw [hx]; exact hrecords)
    (isEnabled s) .cleared
  have hmap : ∀ now, s.dir.records.map (Record.lostIn ((reachableOn s (isEnabled s)).map fun r => r.ref.handle) now .cleared)
      = s.dir.records.map fun r => if r.state ≠ .stale ∧ isEnabled s r.loc.link = true then r.lost now .cleared else r := fun now =>
    List.map_congr_left fun r hr => lostIn_reachableOn hd _ _ _ hr
  rw [heq]
  show (claimedDirs ((recordsOn s (isEnabled s)).map fun h => (h, .cleared)) (forEach fours.reverse clearLink (beginClear t s))).dir = _
  rw [htaken.dir, hx]
  dsimp only
  rw [hrecords, hstale, ← hmap]
  rfl

end Claimed

/-- Settles O51: each link in turn, then the claims, of which IDLE leaves the commit controller nothing to do. -/
theorem clearLinksTrainsEveryEnabledLink : Obligations.ClearLinksTrainsEveryEnabledLink := by
  unfold Obligations.ClearLinksTrainsEveryEnabledLink
  intro s b t hacc hfree hidle hd lost
  obtain ⟨z, hz⟩ : ∃ z, z = linksClaimed t (received 1 s) := ⟨_, rfl⟩
  obtain ⟨y, hy⟩ : ∃ y, y = recordClear (linksResults t (received 1 s)) z := ⟨_, rfl⟩
  have hidle' : (received 1 s).commit.state = .idle := hidle
  obtain ⟨hkeys, hstore, hstaging, hboundary, hcommit, hstate, hmask, hdevice⟩ := linksClaimed_keeps (t := t) hidle'
  have htag := linksClaimed_tag (t := t) hidle' hfree
  have hdir := linksClaimed_dir (t := t) hidle' hd
  have hext : Extends (beginClear t (received 1 s)) z := hz ▸ linksClaimed_extends
  rw [← hz] at hkeys hstore hstaging hboundary hcommit hstate hmask hdevice htag hdir
  obtain ⟨⟨add, hadd⟩, -⟩ := id hext
  replace hadd : z.port.completions = s.port.completions ++ add := hadd
  have hlost : lost = reachableOn (received 1 s) (isEnabled (received 1 s)) :=
    List.filter_congr fun r _ => by
      simp only [Record.reachable, isEnabled, received_links, Bool.decide_and, decide_not, bne]
      rfl
  have hyidle : y.commit.state = .idle := by rw [hy]; exact hcommit ▸ hidle
  have hexec : exec (.clearLinks b) s = .next (finishLinks s.port.completions.length y) := by
    rw [exec_clearLinks hacc, clearLinks_eq, ← hz, ← hy]
    exact congrArg _ (finishEvent_idle hyidle _)
  have hport := finishLinks_port s.port.completions.length y
  have hnew : s.port.completions = y.port.completions.take s.port.completions.length
      ∧ y.port.completions.drop s.port.completions.length = add := by
    rw [hy]
    dsimp only [recordClear, modPort_port]
    rw [hadd]
    exact ⟨(List.take_left ..).symm, List.drop_left ..⟩
  have hended : unreachableSince s.port.completions.length z = ((sortByTag add).filter fun c => c.status == .notReachable).length := by
    rw [unreachableSince, hadd, List.drop_left]
    exact ((sortByTag_perm add).filter _).length_eq.symm
  have hydir : (finishLinks s.port.completions.length y).dir = z.dir := (finishLinks_dir ..).trans (by rw [hy]; rfl)
  have hlinks : y.links = z.links := by rw [hy]; rfl
  have hyattn : y.port.attn = z.port.attn := by rw [hy]; rfl
  obtain ⟨hbits, hlt⟩ := enabledSet_bits (received 1 s)
  obtain ⟨-, -, hgens, hgrace⟩ := abandonOn_keeps (received 1 s) fours (received 1 s).dir
  refine ⟨_, sortByTag add, enabledSet (received 1 s), hexec, ?_, ?_, ?_, ?_, fun l => ?_, hlt, fun l n x hup he hn => ?_, fun l => ?_, ?_, ?_,
    fun hs => ⟨?_, ?_⟩, ?_, ?_, ?_, ?_, ?_, ?_, ?_, ?_, ?_, ?_⟩
  · exact (finishLinks_state ..).trans (by rw [hy]; exact hstate)
  · exact (congrArg (fun ts : Quad TagState => ts.get t) (finishLinks_tags ..)).trans (by rw [hy]; exact htag)
  · rw [hport]
    exact congrArg₂ (· ++ ·) hnew.1.symm (congrArg sortByTag hnew.2)
  · rw [hport, hy, hlost, ← hended, hz]
    dsimp only [recordClear, modPort_port, linksResults]
    rw [clearedHandles, recordsOn_eq, List.length_map]
    rfl
  · rw [hbits]
    simp [isEnabled]
  · have hne : n ≠ t := by rintro rfl; exact hfree l he
    have hz' : Completed (beginClear t (received 1 s)) z ⟨n, x.kind, .notReachable, 0, x.fields⟩ :=
      hz ▸ linksClaimed_completed (s := received 1 s) hup he hn hne
    have hy' : Extends z y := by rw [hy]; exact .of_eq rfl rfl
    exact (hz'.trans hy').finish.rebase rfl
  · split
    next hs => exact (finishLinks_link_state ..).trans (by rw [hlinks, hz]; exact linksClaimed_state l hs)
    next hs =>
      have hstill : StillAs _ l y := ((linksClaimed_still (t := t) (s := received 1 s) hs).of_links (by rw [hlinks, hz]) : StillAs _ l y)
      have hlink : ((finishLinks s.port.completions.length y).links.get l).uncommitted = _ :=
        (congrArg LinkEngine.uncommitted (hstill.finishLinks _)).trans hstill.link
      refine ⟨(congrArg LinkEngine.state hlink :), (congrArg LinkEngine.noLockTimer hlink :), (congrArg LinkEngine.hops hlink :),
        (congrArg LinkEngine.reach hlink :), (congrArg LinkEngine.flight hlink :), (congrArg LinkEngine.timing hlink :),
        (congrArg LinkEngine.seqCounter hlink :), ?_⟩
      rw [finishLinks_attn, hyattn, hz]
      exact linksClaimed_attnLinks
  · rw [hydir, hdir]
    refine List.map_congr_left fun r _ => if_congr ?_ rfl rfl
    simp [isEnabled]
  · rw [hydir, hdir, hlost]
    rfl
  · rw [hydir, hdir]
    exact abandonAll_noMarks (m := received 1 s) ⟨hs.links, ⟨hs.directory.order, hs.directory.ids, hs.directory.handles, hs.directory.gens,
      hs.directory.stale, hs.directory.staleInfo, hs.directory.marks, hs.directory.markIds, hs.directory.newIds, hs.directory.rebindIds,
      hs.directory.hops, hs.directory.locations⟩⟩
  · rw [hydir, hdir]
    exact abandonAll_freeList (m := received 1 s) hs.links fours _
  · rw [hydir, hdir]; exact hgens
  · rw [hydir, hdir]; exact hgrace
  · rw [finishLinks_attn, hyattn]; exact hdevice
  · exact (finishLinks_mask ..).trans (by rw [hy]; exact hmask)
  · exact (finishLinks_keys ..).trans (by rw [hy]; exact hkeys)
  · exact (finishLinks_store ..).trans (by rw [hy]; exact hstore)
  · exact (finishLinks_staging ..).trans (by rw [hy]; exact hstaging)
  · exact (finishLinks_boundary ..).trans (by rw [hy]; exact hboundary)
  · exact (finishLinks_commit_state ..).trans hyidle
  · exact (finishLinks_commit_epoch ..).trans (by rw [hy]; exact congrArg CommitCtl.epoch hcommit)

end Sys2Proof.Machine
end

section
/-! PROOFS. The ledger of a hub: what CommitSound speaks of, and no more — for each record its reference, committed position,
whether it is reachable and where; the store, the keys and the staged changes; the commit controller with, for each participant, its
reference, place and status (O57). An operation keeps the commit sound when it leaves the ledger as it is. -/

namespace Sys2Proof.Machine

/-! ### The ledger -/

/-- What the commit has to do with a record. -/
structure Seat where
  ref : Ref
  pos : Option Cell
  reachable : Bool
  loc : Loc

/-- What the commit's invariants have to do with a participant. -/
structure Stake where
  ref : Ref
  loc : Loc
  status : PartStatus

/-- The ledger. -/
structure Ledger where
  seats : List Seat
  store : List Entry
  keys : List KeyRec
  staging : List Change
  ctl : CommitCtl
  stakes : List Stake

def Record.seat (r : Record) : Seat := ⟨r.ref, r.pos, r.reachable, r.loc⟩
def Participant.stake (p : Participant) : Stake := ⟨p.ref, p.loc, p.status⟩

def State.ledger (s : State) : Ledger where
  seats := s.dir.records.map Record.seat
  store := s.store
  keys := s.keys
  staging := s.staging
  ctl := s.commit.apart
  stakes := s.commit.participants.map Participant.stake

/-- A seat's position after staged changes and displacements (R68). -/
def Seat.after (cs : List Change) (displaced : List Ref) (x : Seat) : Option Cell :=
  match stagedPosition cs x.ref.handle with
  | some p => p
  | none => if displaced.contains x.ref then none else x.pos

theorem Record.seat_after (cs : List Change) (displaced : List Ref) (r : Record) : r.seat.after cs displaced = positionAfter cs displaced r := rfl

/-- A status with which a participant counts (R73, R76; log 16). -/
def PartStatus.Counts (st : PartStatus) : Prop := st = .unprepared ∨ st = .prepared ∨ st = .unconfirmed

namespace Ledger

/-- A record of a reference is in the directory. -/
def Names (L : Ledger) (ref : Ref) : Prop := ∃ x ∈ L.seats, x.ref = ref

/-- The record of a stake is reachable at the stake's place. -/
def Present (L : Ledger) (k : Stake) : Prop := ∃ x ∈ L.seats, x.ref = k.ref ∧ x.reachable = true ∧ x.loc = k.loc

def ScopeIn (L : Ledger) : Scope → Prop
  | .wall => True
  | .group g => g ≤ 15
  | .tile ref => L.Names ref

def ChangeIn (L : Ledger) : Change → Prop
  | .setVal sc n _ => L.ScopeIn sc ∧ n ≤ 63 ∧ ∃ k ∈ L.keys, k.number = n
  | .clearVal sc n => L.ScopeIn sc ∧ n ≤ 63 ∧ ∃ k ∈ L.keys, k.number = n
  | .place ref c _ => L.Names ref ∧ c.col ≤ 31 ∧ c.row ≤ 31
  | .unplace ref => L.Names ref
  | .groups ref _ => L.Names ref

/-- A participant is still waited for, where the commit state has one be (R72, R82). -/
structure Waits (L : Ledger) : Prop where
  preparing : L.ctl.state = .preparing → ∃ k ∈ L.stakes, k.status = .unprepared
  applying : L.ctl.state = .applying → ∃ k ∈ L.stakes, k.status = .unconfirmed

/-- What of CommitSound holds in the midst of an event: the controller has still to learn that some participants' records went STALE
(R9), and that nobody is waited for any more (R72, R82). -/
structure Mid (lost : List Ref) (L : Ledger) : Prop where
  differ : L.seats.Pairwise fun a b => a.ref.handle ≠ b.ref.handle
  positions : L.seats.Pairwise fun a b => a.pos ≠ none → a.pos ≠ b.pos
  storeOrder : L.store.Pairwise fun a b => a.rank < b.rank
  storeSize : L.store.length ≤ 512
  entries : ∀ e ∈ L.store, L.ScopeIn e.scope ∧ e.key ≤ 63 ∧ ∃ k ∈ L.keys, k.number = e.key
  staged : ∀ c ∈ L.staging, L.ChangeIn c
  post : L.ctl.state = .preparing ∨ L.ctl.state = .armed → (storeAfter L.store L.staging).length ≤ 512
    ∧ L.seats.Pairwise fun a b => a.after L.staging L.ctl.displaced ≠ none →
        a.after L.staging L.ctl.displaced ≠ b.after L.staging L.ctl.displaced
  stakes : (L.stakes.map Stake.ref).Nodup
  held : ∀ k ∈ L.stakes, L.Names k.ref
  counted : L.ctl.state ≠ .cancelling → ∀ k ∈ L.stakes, k.status.Counts → k.ref ∈ lost ∨ L.Present k
  preparing : L.ctl.state = .preparing → ∀ k ∈ L.stakes, k.status = .unprepared ∨ k.status = .prepared ∨ k.status = .excluded
  armed : L.ctl.state = .armed → ∀ k ∈ L.stakes, k.status = .prepared ∨ k.status = .excluded
  applying : L.ctl.state = .applying → ∀ k ∈ L.stakes, k.status ≠ .unprepared ∧ k.status ≠ .prepared
  idle : L.ctl.state = .idle → L.ctl = CommitCtl.idle L.ctl.epoch L.ctl.lengths ∧ L.stakes = []
  prepareDl : L.ctl.prepareDl ≠ none ↔ L.ctl.state = .preparing
  armDl : L.ctl.armDl ≠ none ↔ L.ctl.state = .armed
  applyDl : L.ctl.applyDl ≠ none → L.ctl.state = .applying
  applyRuns : L.ctl.state = .applying → (∃ k ∈ L.stakes, k.status = .unconfirmed) → L.ctl.applyDl ≠ none

end Ledger

/-! ### The ledger and CommitSound -/

section Sound

variable {s : State}

theorem names_ledger (ref : Ref) : s.ledger.Names ref ↔ ∃ r ∈ s.dir.records, r.ref = ref := by
  simp [Ledger.Names, State.ledger, Record.seat]

theorem scopeIn_ledger (sc : Scope) : s.ledger.ScopeIn sc ↔ ScopeSound s sc := by
  cases sc with
  | tile ref => exact names_ledger ref
  | _ => exact Iff.rfl

theorem changeIn_ledger (c : Change) : s.ledger.ChangeIn c ↔ ChangeSound s c := by
  cases c with
  | setVal sc n v => exact and_congr_left' (scopeIn_ledger sc)
  | clearVal sc n => exact and_congr_left' (scopeIn_ledger sc)
  | place ref c d => exact and_congr_left' (names_ledger ref)
  | unplace ref => exact names_ledger ref
  | groups ref g => exact names_ledger ref

theorem present_ledger (hd : HandlesDiffer s) (p : Participant) : s.ledger.Present p.stake ↔ partReachable s p = true := by
  unfold partReachable
  constructor
  · rintro ⟨x, hx, href, hreach, hloc⟩
    obtain ⟨r, hr, rfl⟩ := List.mem_map.mp hx
    replace href : r.ref = p.ref := href
    cases hf : findRef s p.ref with
    | none =>
      have := List.find?_eq_none.mp hf r hr
      exact absurd href (by simpa using this)
    | some q =>
      obtain ⟨hq, hqr⟩ := mem_of_findRef hf
      have : q = r := Option.some.inj ((hd.findRec hq).symm.trans (by rw [hqr, ← href]; exact hd.findRec hr))
      subst this
      exact Bool.and_eq_true_iff.mpr ⟨hreach, beq_iff_eq.mpr hloc⟩
  · intro h
    split at h
    · next r hr =>
      obtain ⟨hreach, hloc⟩ := Bool.and_eq_true_iff.mp h
      obtain ⟨hmem, href⟩ := mem_of_findRef hr
      exact ⟨r.seat, List.mem_map_of_mem hmem, href, hreach, beq_iff_eq.mp hloc⟩
    · cases h

theorem apart_idle (c : CommitCtl) : c = CommitCtl.idle c.epoch c.lengths
    ↔ c.apart = CommitCtl.idle c.epoch c.lengths ∧ c.participants.map Participant.stake = [] := by
  constructor
  · intro h
    rw [h]
    exact ⟨rfl, rfl⟩
  · rintro ⟨h, hp⟩
    have hc : c = { c.apart with participants := c.participants } := rfl
    rw [hc, h, List.map_eq_nil_iff.mp hp]
    rfl

/-- A sound commit is a sound ledger in which the controller waits for somebody. -/
theorem commitSound_iff (hd : HandlesDiffer s) : CommitSound s ↔ s.ledger.Mid [] ∧ s.ledger.Waits := by
  have hstakes : ∀ P : PartStatus → Prop, (∀ k ∈ s.ledger.stakes, P k.status) ↔ ∀ p ∈ s.commit.participants, P p.status := fun P => by
    simp [State.ledger, Participant.stake]
  have hsome : ∀ st, (∃ k ∈ s.ledger.stakes, k.status = st) ↔ ∃ p ∈ s.commit.participants, p.status = st := fun st => by
    simp [State.ledger, Participant.stake]
  have hrefs : s.ledger.stakes.map Stake.ref = s.commit.participants.map Participant.ref := by
    simp [State.ledger, Participant.stake, Function.comp_def]
  have hpair : ∀ P : Seat → Seat → Prop, s.ledger.seats.Pairwise P ↔ s.dir.records.Pairwise fun a b => P a.seat b.seat := fun P =>
    List.pairwise_map
  constructor
  · intro h
    have hfit := h.statuses
    unfold StatusesFit at hfit
    obtain ⟨hprep, harm, happly⟩ := h.deadlines
    refine ⟨⟨(hpair _).mpr hd, (hpair _).mpr h.positions, h.storeOrder, h.storeSize, fun e he => ?_, fun c hc => ?_, fun hst => ?_, ?_,
      fun k hk => ?_, fun hst k hk hc => ?_, fun hst => ?_, fun hst => ?_, fun hst => ?_, fun hst => ?_, hprep, harm, happly.mp,
      fun hst _ => happly.mpr hst⟩, ⟨fun hst => ?_, fun hst => ?_⟩⟩
    · exact (and_congr_left' (scopeIn_ledger _)).mpr (h.entries e he)
    · exact (changeIn_ledger c).mpr (h.staged c hc)
    · exact ⟨(h.post hst).1, (hpair _).mpr (h.post hst).2⟩
    · rw [hrefs]; exact h.participants
    · obtain ⟨p, hp, rfl⟩ := List.mem_map.mp hk
      exact (names_ledger p.ref).mpr (h.participantRecords p hp)
    · obtain ⟨p, hp, rfl⟩ := List.mem_map.mp hk
      exact .inr ((present_ledger hd p).mpr (h.counted hst p hp hc))
    · rw [show s.commit.state = .preparing from hst] at hfit
      exact (hstakes fun st => st = .unprepared ∨ st = .prepared ∨ st = .excluded).mpr hfit.1
    · rw [show s.commit.state = .armed from hst] at hfit
      exact (hstakes fun st => st = .prepared ∨ st = .excluded).mpr hfit
    · rw [show s.commit.state = .applying from hst] at hfit
      exact (hstakes fun st => st ≠ .unprepared ∧ st ≠ .prepared).mpr hfit.1
    · rw [show s.commit.state = .idle from hst] at hfit
      exact (apart_idle _).mp hfit
    · rw [show s.commit.state = .preparing from hst] at hfit
      exact (hsome _).mpr hfit.2
    · rw [show s.commit.state = .applying from hst] at hfit
      exact (hsome _).mpr hfit.2
  · rintro ⟨h, hw⟩
    refine ⟨(hpair _).mp h.positions, h.storeOrder, h.storeSize, fun e he => ?_, fun c hc => ?_, fun hst => ?_, ?_, fun p hp => ?_,
      fun hst p hp hc => ?_, ?_, ⟨h.prepareDl, h.armDl, h.applyDl, fun hst => h.applyRuns hst (hw.applying hst)⟩⟩
    · exact (and_congr_left' (scopeIn_ledger _)).mp (h.entries e he)
    · exact (changeIn_ledger c).mp (h.staged c hc)
    · exact ⟨(h.post hst).1, (hpair _).mp (h.post hst).2⟩
    · rw [← hrefs]; exact h.stakes
    · exact (names_ledger p.ref).mp (h.held p.stake (List.mem_map_of_mem hp))
    · exact (present_ledger hd p).mp ((h.counted hst p.stake (List.mem_map_of_mem hp) hc).resolve_left (List.not_mem_nil))
    · unfold StatusesFit
      split
      next hst => exact ⟨(hstakes fun st => st = .unprepared ∨ st = .prepared ∨ st = .excluded).mp (h.preparing hst), (hsome _).mp (hw.preparing hst)⟩
      next hst => exact (hstakes fun st => st = .prepared ∨ st = .excluded).mp (h.armed hst)
      next hst => exact ⟨(hstakes fun st => st ≠ .unprepared ∧ st ≠ .prepared).mp (h.applying hst), (hsome _).mp (hw.applying hst)⟩
      next hst => exact (apart_idle _).mpr (h.idle hst)
      next => trivial

end Sound

end Sys2Proof.Machine
end

section
/-! PROOFS. What the operations of the model do to the ledger, and that the ledger stays sound (O57). -/

namespace Sys2Proof.Machine

/-! ### The store (R37, R38) -/

/-- Two places of one rank are one place, when scopes and keys are in range (R40). -/
theorem samePlace_of_rank {a b : Entry} (ha : ∀ g, a.scope = .group g → g ≤ 15) (hb : ∀ g, b.scope = .group g → g ≤ 15)
    (ha' : ∀ ref, a.scope = .tile ref → 1 ≤ ref.handle) (hb' : ∀ ref, b.scope = .tile ref → 1 ≤ ref.handle) (hka : a.key ≤ 63) (hkb : b.key ≤ 63)
    (h : a.rank = b.rank) : a.isAt b.scope b.key = true := by
  unfold Entry.rank placeRank at h
  have hkey : a.key = b.key := by omega
  have hrank : scopeRank a.scope = scopeRank b.scope := by omega
  rw [isAt_eq_samePlace, samePlace_iff]
  refine ⟨?_, hkey⟩
  cases hsa : a.scope with
  | wall =>
    cases hsb : b.scope with
    | wall => rfl
    | group g => rw [hsa, hsb] at hrank; simp only [scopeRank] at hrank; omega
    | tile r => rw [hsa, hsb] at hrank; simp only [scopeRank] at hrank; omega
  | group g =>
    have hg := ha g hsa
    cases hsb : b.scope with
    | wall => rw [hsa, hsb] at hrank; simp only [scopeRank] at hrank; omega
    | group k =>
      rw [hsa, hsb] at hrank
      simp only [scopeRank] at hrank
      exact beq_iff_eq.mpr (by omega)
    | tile r =>
      have hr := hb' r hsb
      rw [hsa, hsb] at hrank
      simp only [scopeRank] at hrank
      omega
  | tile r =>
    have hr := ha' r hsa
    cases hsb : b.scope with
    | wall => rw [hsa, hsb] at hrank; simp only [scopeRank] at hrank; omega
    | group g =>
      have hg := hb g hsb
      rw [hsa, hsb] at hrank
      simp only [scopeRank] at hrank
      omega
    | tile q =>
      rw [hsa, hsb] at hrank
      simp only [scopeRank] at hrank
      exact beq_iff_eq.mpr (by omega)

/-- What stands in the store after changes stood there, or is the value of a staged SET. -/
theorem mem_storeAfter {es : List Entry} {cs : List Change} {e : Entry} (h : e ∈ storeAfter es cs) :
    e ∈ es ∨ ∃ sc k v, Change.setVal sc k v ∈ cs ∧ e = ⟨sc, k, v⟩ := by
  unfold storeAfter at h
  induction cs generalizing es with
  | nil => exact .inl h
  | cons c cs ih =>
    rcases ih h with hx | ⟨sc, k, v, hc, he⟩
    · cases c with
      | setVal sc k v =>
        rcases mem_putEntry hx with rfl | hx
        · exact .inr ⟨sc, k, v, List.mem_cons_self, rfl⟩
        · exact .inl hx
      | clearVal sc k => exact .inl (List.mem_filter.mp hx).1
      | _ => exact .inl hx
    · exact .inr ⟨sc, k, v, List.mem_cons_of_mem _ hc, he⟩

/-- Entries that no staged change touches count alike before and after the changes (R38, R60). -/
theorem storeAfter_length_filter {es : List Entry} (h : es.Pairwise fun a b => a.rank < b.rank) {cs : List Change}
    (hcs : cs.Pairwise fun a b => sameTarget a.target b.target = false) {n : Nat} (hn : ∀ c ∈ cs, c.namesHandle n = false) :
    (storeAfter (es.filter fun e => !e.namesHandle n) cs).length ≤ (storeAfter es cs).length := by
  have hfind : ∀ sc k, sameScope sc (.tile ⟨n, 0⟩) = false → findEntry (es.filter fun e => !e.namesHandle n) sc k = findEntry es sc k :=
    fun sc k hsc => by
      unfold findEntry
      rw [List.find?_filter]
      refine congrArg (fun p => es.find? p) (funext fun e => ?_)
      cases hat : e.isAt sc k with
      | false => simp
      | true =>
        rw [isAt_eq_samePlace, samePlace_iff] at hat
        have : e.namesHandle n = false := by
          rw [Entry.namesHandle, sameScope_symm, sameScope_right hat.1, sameScope_symm]
          exact hsc
        simp [this]
  have hadds : cs.filter (addsTo (es.filter fun e => !e.namesHandle n)) = cs.filter (addsTo es) := List.filter_congr fun c hc => by
    cases c with
    | setVal sc k v => exact congrArg Option.isNone (hfind sc k (hn _ hc))
    | _ => rfl
  have htakes : cs.filter (takesFrom (es.filter fun e => !e.namesHandle n)) = cs.filter (takesFrom es) := List.filter_congr fun c hc => by
    cases c with
    | clearVal sc k => exact congrArg Option.isSome (hfind sc k (hn _ hc))
    | _ => rfl
  have h1 := (storeAfter_placed (placed_of_strict h) hcs).2
  have h2 := (storeAfter_placed (placed_of_strict (h.filter fun e => !e.namesHandle n)) hcs).2
  have hlen : (es.filter fun e => !e.namesHandle n).length ≤ es.length := List.length_filter_le ..
  rw [hadds, htakes] at h2
  omega

/-- The ledger after the record of a handle has gone (R17, R60). -/
def Ledger.without (n : Nat) (L : Ledger) : Ledger :=
  { L with
    seats := L.seats.filter fun x => x.ref.handle != n
    store := L.store.filter fun e => !e.namesHandle n
    staging := L.staging.filter fun c => !c.namesHandle n }

namespace Ledger.Mid

variable {L : Ledger} {lost lost' : List Ref}

/-! ### Seats -/

/-- Two positions, if given, differ: the relation holds either way. -/
theorem positions_symm {α β : Type} {f : α → Option β} {a b : α} (h : f a ≠ none → f a ≠ f b) : f b ≠ none → f b ≠ f a :=
  fun hb he => h (fun ha => hb (he.trans ha)) he.symm

/-- Records are changed in place: their references and positions stay, and one that was reachable stays as it is unless the controller
is still to hear of it. -/
theorem reseat (h : L.Mid lost) {g : Seat → Seat} (href : ∀ x, (g x).ref = x.ref) (hpos : ∀ x, (g x).pos = x.pos)
    (hpres : ∀ x ∈ L.seats, x.reachable = true → g x = x ∨ x.ref ∈ lost') (hlost : ∀ ref ∈ lost, ref ∈ lost') :
    ({ L with seats := L.seats.map g } : Ledger).Mid lost' := by
  have hnames : ∀ ref, L.Names ref → ({ L with seats := L.seats.map g } : Ledger).Names ref := fun ref ⟨x, hx, hr⟩ =>
    ⟨g x, List.mem_map_of_mem hx, (href x).trans hr⟩
  have hscope : ∀ sc, L.ScopeIn sc → ({ L with seats := L.seats.map g } : Ledger).ScopeIn sc := fun sc hsc => by
    cases sc with
    | tile ref => exact hnames ref hsc
    | _ => exact hsc
  have hafter : ∀ cs d x, (g x).after cs d = x.after cs d := fun cs d x => by
    unfold Seat.after
    rw [href, hpos]
  refine ⟨List.pairwise_map.mpr (h.differ.imp fun hab => by rw [href, href]; exact hab),
    List.pairwise_map.mpr (h.positions.imp fun hab => by rw [hpos, hpos]; exact hab), h.storeOrder, h.storeSize,
    fun e he => (h.entries e he).imp_left (hscope _), fun c hc => ?_,
    fun hst => (h.post hst).imp_right fun hp => List.pairwise_map.mpr (hp.imp fun hab => by rw [hafter, hafter]; exact hab),
    h.stakes, fun k hk => hnames _ (h.held k hk), fun hst k hk hc => ?_, h.preparing, h.armed, h.applying, h.idle, h.prepareDl, h.armDl,
    h.applyDl, h.applyRuns⟩
  · have hcin := h.staged c hc
    cases c with
    | setVal sc n v => exact hcin.imp_left (hscope sc)
    | clearVal sc n => exact hcin.imp_left (hscope sc)
    | place ref cell d => exact hcin.imp_left (hnames ref)
    | unplace ref => exact hnames ref hcin
    | groups ref gs => exact hnames ref hcin
  · rcases h.counted hst k hk hc with hl | ⟨x, hx, hr, hreach, hloc⟩
    · exact .inl (hlost _ hl)
    · rcases hpres x hx hreach with hg | hl
      · exact .inr ⟨x, List.mem_map.mpr ⟨x, hx, hg⟩, hr, hreach, hloc⟩
      · exact .inl (hr ▸ hl)

/-- A record joins that holds no position and that nothing names. -/
theorem enroll (h : L.Mid lost) {x : Seat} {seats : List Seat} (hp : seats.Perm (x :: L.seats)) (hfresh : ∀ y ∈ L.seats, y.ref.handle ≠ x.ref.handle)
    (hpos : x.pos = none) : ({ L with seats := seats } : Ledger).Mid lost := by
  have hmem : ∀ y ∈ L.seats, y ∈ seats := fun y hy => hp.mem_iff.mpr (List.mem_cons_of_mem _ hy)
  have hnames : ∀ ref, L.Names ref → ({ L with seats := seats } : Ledger).Names ref := fun ref ⟨y, hy, hr⟩ => ⟨y, hmem y hy, hr⟩
  have hscope : ∀ sc, L.ScopeIn sc → ({ L with seats := seats } : Ledger).ScopeIn sc := fun sc hsc => by
    cases sc with
    | tile ref => exact hnames ref hsc
    | _ => exact hsc
  have hafter : ∀ d, x.after L.staging d = none := fun d => by
    have hstaged : stagedPosition L.staging x.ref.handle = none := by
      rw [← Option.isNone_iff_eq_none, stagedPosition_isNone]
      intro c hc
      have hcin := h.staged c hc
      cases c with
      | place ref cell d =>
        obtain ⟨⟨y, hy, hr⟩, -⟩ := hcin
        exact beq_eq_false_iff_ne.mpr fun he => hfresh y hy (by rw [hr]; exact he)
      | unplace ref =>
        obtain ⟨y, hy, hr⟩ := hcin
        exact beq_eq_false_iff_ne.mpr fun he => hfresh y hy (by rw [hr]; exact he)
      | _ => rfl
    unfold Seat.after
    rw [hstaged]
    dsimp only
    split
    · rfl
    · exact hpos
  refine ⟨(hp.pairwise_iff fun hab => hab.symm).mpr (List.pairwise_cons.mpr ⟨fun y hy => (hfresh y hy).symm, h.differ⟩),
    (hp.pairwise_iff positions_symm).mpr (List.pairwise_cons.mpr ⟨fun y _ hn => absurd hpos hn, h.positions⟩), h.storeOrder, h.storeSize,
    fun e he => (h.entries e he).imp_left (hscope _), fun c hc => ?_,
    fun hst => (h.post hst).imp_right fun hq => (hp.pairwise_iff positions_symm).mpr
      (List.pairwise_cons.mpr ⟨fun y _ hn => absurd (hafter _) hn, hq⟩),
    h.stakes, fun k hk => hnames _ (h.held k hk), fun hst k hk hc => (h.counted hst k hk hc).imp_right fun ⟨y, hy, hr⟩ => ⟨y, hmem y hy, hr⟩,
    h.preparing, h.armed, h.applying, h.idle, h.prepareDl, h.armDl, h.applyDl, h.applyRuns⟩
  have hcin := h.staged c hc
  cases c with
  | setVal sc n v => exact hcin.imp_left (hscope sc)
  | clearVal sc n => exact hcin.imp_left (hscope sc)
  | place ref cell d => exact hcin.imp_left (hnames ref)
  | unplace ref => exact hnames ref hcin
  | groups ref gs => exact hnames ref hcin

/-- A record leaves with all that names it, when the controller is IDLE or no staged change and no participant names it (R17, R18). -/
theorem retire (h : L.Mid lost) {n : Nat} (hfree : L.ctl.state = .idle
      ∨ ((∀ c ∈ L.staging, c.namesHandle n = false) ∧ (∀ k ∈ L.stakes, k.ref.handle ≠ n)
        ∧ L.staging.Pairwise fun a b => sameTarget a.target b.target = false)) : (L.without n).Mid lost := by
  have hnames : ∀ ref : Ref, ref.handle ≠ n → L.Names ref → (L.without n).Names ref := fun ref hne ⟨x, hx, hr⟩ =>
    ⟨x, List.mem_filter.mpr ⟨hx, bne_iff_ne.mpr (hr ▸ hne)⟩, hr⟩
  have hscope : ∀ sc, sameScope sc (.tile ⟨n, 0⟩) = false → L.ScopeIn sc → (L.without n).ScopeIn sc := fun sc hn hsc => by
    cases sc with
    | tile ref => exact hnames ref (beq_eq_false_iff_ne.mp hn) hsc
    | _ => exact hsc
  have hstakes : ∀ k ∈ L.stakes, k.ref.handle ≠ n := fun k hk => by
    rcases hfree with hidle | ⟨-, hk', -⟩
    · rw [(h.idle hidle).2] at hk; cases hk
    · exact hk' k hk
  refine ⟨h.differ.filter _, h.positions.filter _, h.storeOrder.filter _, (List.length_filter_le ..).trans h.storeSize, fun e he => ?_,
    fun c hc => ?_, fun hst => ?_, h.stakes, fun k hk => hnames _ (hstakes k hk) (h.held k hk), fun hst k hk hc => ?_, h.preparing, h.armed,
    h.applying, h.idle, h.prepareDl, h.armDl, h.applyDl, h.applyRuns⟩
  · obtain ⟨he, hn⟩ := List.mem_filter.mp he
    exact (h.entries e he).imp_left (hscope _ (by simpa [Entry.namesHandle] using hn))
  · obtain ⟨hc, hn⟩ := List.mem_filter.mp hc
    have hcin := h.staged c hc
    have hn' : c.namesHandle n = false := by simpa using hn
    cases c with
    | setVal sc k v => exact hcin.imp_left (hscope sc hn')
    | clearVal sc k => exact hcin.imp_left (hscope sc hn')
    | place ref cell d => exact hcin.imp_left (hnames ref (beq_eq_false_iff_ne.mp hn'))
    | unplace ref => exact hnames ref (beq_eq_false_iff_ne.mp hn') hcin
    | groups ref gs => exact hnames ref (beq_eq_false_iff_ne.mp hn') hcin
  · rcases hfree with hidle | ⟨hstaged, -, htargets⟩
    · have hst' : L.ctl.state = .preparing ∨ L.ctl.state = .armed := hst
      rw [hidle] at hst'
      rcases hst' with hx | hx <;> cases hx
    · have hkept : (L.without n).staging = L.staging := List.filter_eq_self.mpr fun c hc => by rw [hstaged c hc]; rfl
      obtain ⟨hlen, hpos⟩ := h.post hst
      rw [hkept]
      exact ⟨(storeAfter_length_filter h.storeOrder htargets hstaged).trans hlen, hpos.filter _⟩
  · refine (h.counted hst k hk hc).imp_right fun ⟨x, hx, hr, hrest⟩ => ⟨x, List.mem_filter.mpr ⟨hx, ?_⟩, hr, hrest⟩
    exact bne_iff_ne.mpr (hr ▸ hstakes k hk)

/-! ### The settings -/

/-- Staged changes are taken, dropped or replaced while the controller is IDLE (R54 to R58). -/
theorem stage (h : L.Mid lost) (hidle : L.ctl.state = .idle) {cs : List Change} (hcs : ∀ c ∈ cs, c ∈ L.staging ∨ L.ChangeIn c) :
    ({ L with staging := cs } : Ledger).Mid lost := by
  refine ⟨h.differ, h.positions, h.storeOrder, h.storeSize, h.entries, fun c hc => ?_, fun hst => ?_, h.stakes, h.held, h.counted,
    h.preparing, h.armed, h.applying, h.idle, h.prepareDl, h.armDl, h.applyDl, h.applyRuns⟩
  · rcases hcs c hc with hx | hx
    · exact h.staged c hx
    · exact hx
  · rw [show L.ctl.state = .idle from hidle] at hst
    rcases hst with hx | hx <;> cases hx

/-- The Key Table changes, but for the keys in use (R30, R32). -/
theorem rekey (h : L.Mid lost) {ks : List KeyRec} (hstore : ∀ e ∈ L.store, ∃ k ∈ ks, k.number = e.key)
    (hstaged : ∀ c ∈ L.staging, ∀ sc n, c.target = .entry sc n → ∃ k ∈ ks, k.number = n) : ({ L with keys := ks } : Ledger).Mid lost := by
  refine ⟨h.differ, h.positions, h.storeOrder, h.storeSize, fun e he => ⟨(h.entries e he).1, (h.entries e he).2.1, hstore e he⟩,
    fun c hc => ?_, h.post, h.stakes, h.held, h.counted, h.preparing, h.armed, h.applying, h.idle, h.prepareDl, h.armDl, h.applyDl, h.applyRuns⟩
  have hcin := h.staged c hc
  cases c with
  | setVal sc n v => exact ⟨hcin.1, hcin.2.1, hstaged _ hc sc n rfl⟩
  | clearVal sc n => exact ⟨hcin.1, hcin.2.1, hstaged _ hc sc n rfl⟩
  | _ => exact hcin

/-! ### The commit controller -/

/-- Participants are given statuses: none that did not count comes to count, but for those the controller is still to hear of. -/
theorem restatus (h : L.Mid lost) {g : Stake → Stake} (href : ∀ k, (g k).ref = k.ref) (hloc : ∀ k, (g k).loc = k.loc)
    (hcount : ∀ k ∈ L.stakes, (g k).status.Counts → k.status.Counts ∧ (k.ref ∈ lost → k.ref ∈ lost'))
    (hprep : L.ctl.state = .preparing → ∀ k ∈ L.stakes, (g k).status = .unprepared ∨ (g k).status = .prepared ∨ (g k).status = .excluded)
    (harm : L.ctl.state = .armed → ∀ k ∈ L.stakes, (g k).status = .prepared ∨ (g k).status = .excluded)
    (happ : L.ctl.state = .applying → ∀ k ∈ L.stakes, (g k).status ≠ .unprepared ∧ (g k).status ≠ .prepared) :
    ({ L with stakes := L.stakes.map g } : Ledger).Mid lost' := by
  have hall : ∀ P : Stake → Prop, (∀ k ∈ L.stakes, P (g k)) → ∀ k ∈ L.stakes.map g, P k := fun P hP k hk => by
    obtain ⟨j, hj, rfl⟩ := List.mem_map.mp hk
    exact hP j hj
  refine ⟨h.differ, h.positions, h.storeOrder, h.storeSize, h.entries, h.staged, h.post, ?_, hall _ fun k hk => ?_,
    fun hst => hall _ fun k hk hc => ?_, fun hst => hall _ (hprep hst), fun hst => hall _ (harm hst), fun hst => hall _ (happ hst),
    fun hst => ⟨(h.idle hst).1, by rw [(h.idle hst).2]; rfl⟩, h.prepareDl, h.armDl, h.applyDl, fun hst hx => ?_⟩
  · rw [List.map_map, show Stake.ref ∘ g = Stake.ref from funext href]
    exact h.stakes
  · rw [href]; exact h.held k hk
  · obtain ⟨hk', hl⟩ := hcount k hk hc
    rw [href]
    refine (h.counted hst k hk hk').imp hl fun ⟨x, hx, hr⟩ => ⟨x, hx, ?_⟩
    rw [href, hloc]
    exact hr
  · obtain ⟨k, hk, hun⟩ := hx
    obtain ⟨j, hj, rfl⟩ := List.mem_map.mp hk
    refine h.applyRuns hst ⟨j, hj, ?_⟩
    rcases (hcount j hj (.inr (.inr hun))).1 with hx | hx | hx
    · exact absurd hx (h.applying hst j hj).1
    · exact absurd hx (h.applying hst j hj).2
    · exact hx

/-- The controller enters CANCELLING (R84). -/
theorem cancel (h : L.Mid lost) {c : CommitCtl} (hst : L.ctl.state = .preparing ∨ L.ctl.state = .armed) (hc : c.state = .cancelling)
    (hp : c.prepareDl = none) (ha : c.armDl = none) (happ : c.applyDl = L.ctl.applyDl) : ({ L with ctl := c } : Ledger).Mid lost' := by
  have hnone : c.applyDl = none := by
    rw [happ]
    by_contra hne
    have := h.applyDl hne
    rcases hst with hx | hx <;> rw [this] at hx <;> cases hx
  refine ⟨h.differ, h.positions, h.storeOrder, h.storeSize, h.entries, h.staged, fun hx => ?_, h.stakes, h.held, fun hx => ?_,
    fun hx => ?_, fun hx => ?_, fun hx => ?_, fun hx => ?_, ?_, ?_, fun hx => absurd hnone hx, fun hx => ?_⟩
  all_goals dsimp only at *
  · rw [hc] at hx; rcases hx with hx | hx <;> cases hx
  · exact absurd hc hx
  · rw [hc] at hx; cases hx
  · rw [hc] at hx; cases hx
  · rw [hc] at hx; cases hx
  · rw [hc] at hx; cases hx
  · rw [hp, hc]; simp
  · rw [ha, hc]; simp
  · rw [hc] at hx; cases hx

/-- The return to IDLE (R83). -/
theorem toIdle (h : L.Mid lost) (epoch : Half) (lengths : Deadlines) :
    ({ L with ctl := CommitCtl.idle epoch lengths, stakes := [] } : Ledger).Mid lost' := by
  refine ⟨h.differ, h.positions, h.storeOrder, h.storeSize, h.entries, h.staged, fun hx => ?_, .nil, nofun, fun _ => nofun, nofun, nofun, nofun,
    fun _ => ⟨rfl, rfl⟩, ?_, ?_, fun hx => absurd rfl hx, nofun⟩
  · rcases hx with hx | hx <;> cases hx
  · exact ⟨fun hx => absurd rfl hx, nofun⟩
  · exact ⟨fun hx => absurd rfl hx, nofun⟩

/-- With nobody UNPREPARED the controller arms (R72). -/
theorem arm (h : L.Mid lost) (hst : L.ctl.state = .preparing) (hnone : ∀ k ∈ L.stakes, k.status ≠ .unprepared) (t : Nat) :
    ({ L with ctl := { L.ctl with state := .armed, prepareDl := none, armDl := some t } } : Ledger).Mid lost := by
  refine ⟨h.differ, h.positions, h.storeOrder, h.storeSize, h.entries, h.staged, fun _ => h.post (.inl hst), h.stakes, h.held,
    fun _ => h.counted (by rw [hst]; nofun), nofun, fun _ k hk => ?_, nofun, nofun, ?_, ?_, fun hx => ?_, nofun⟩
  · exact (h.preparing hst k hk).resolve_left (hnone k hk)
  · exact ⟨fun hx => absurd rfl hx, nofun⟩
  · exact ⟨fun _ => rfl, fun _ => nofun⟩
  · have := h.applyDl hx
    rw [hst] at this; cases this

/-- The lengths of the deadlines change (R124). -/
theorem relength (h : L.Mid lost) (d : Deadlines) : ({ L with ctl := { L.ctl with lengths := d } } : Ledger).Mid lost :=
  ⟨h.differ, h.positions, h.storeOrder, h.storeSize, h.entries, h.staged, h.post, h.stakes, h.held, h.counted, h.preparing, h.armed, h.applying,
    fun hx => ⟨by
      obtain ⟨hi, -⟩ := h.idle hx
      dsimp only
      rw [hi]
      rfl, (h.idle hx).2⟩, h.prepareDl, h.armDl, h.applyDl, h.applyRuns⟩

end Ledger.Mid

end Sys2Proof.Machine
end

section
/-! PROOFS. The apply and the acceptance of a COMMIT on the ledger: what the check of the staged PLACEs is good for (O57; R68, R70, R77). -/

namespace Sys2Proof.Machine

/-! ### The check of the staged PLACEs (R68) -/

/-- A staged PLACE stands, or displaces an occupant of the displaced set. -/
def PlacePasses (records : List Record) (cs : List Change) (displaced : List Ref) (ref : Ref) (cell : Cell) : Prop :=
  otherPlace cs ref cell = none ∧ ∀ r, records.find? (fun r => r.pos == some cell && r.ref.handle != ref.handle
    && (stagedPosition cs r.ref.handle).isNone) = some r → r.ref ∈ displaced

theorem checkPlacesFrom_passes {records : List Record} {cs : List Change} {acc displaced : List Ref} {more : List Change}
    (h : checkPlacesFrom records cs acc more = .ok displaced) : (∀ ref ∈ acc, ref ∈ displaced)
      ∧ ∀ ref cell d, Change.place ref cell d ∈ more → PlacePasses records cs displaced ref cell := by
  induction more generalizing acc with
  | nil =>
    cases h
    exact ⟨fun _ h => h, fun _ _ _ h => nomatch h⟩
  | cons c more ih =>
    have hother : (∀ ref cell d, c ≠ .place ref cell d) → checkPlacesFrom records cs acc more = .ok displaced →
        (∀ ref ∈ acc, ref ∈ displaced) ∧ ∀ ref cell d, Change.place ref cell d ∈ c :: more → PlacePasses records cs displaced ref cell :=
      fun hc hx => (ih hx).imp_right fun hmore ref cell d hm => (List.mem_cons.mp hm).elim (fun he => absurd he.symm (hc ref cell d))
        (hmore ref cell d)
    cases c with
    | place ref cell d =>
      rw [checkPlacesFrom] at h
      have hcons : ∀ {acc' : List Ref}, (∀ r ∈ acc, r ∈ acc') → checkPlacesFrom records cs acc' more = .ok displaced →
          ((∀ r ∈ acc', r ∈ displaced) → PlacePasses records cs displaced ref cell) → (∀ ref ∈ acc, ref ∈ displaced)
          ∧ ∀ ref' cell' d', Change.place ref' cell' d' ∈ .place ref cell d :: more → PlacePasses records cs displaced ref' cell' :=
        fun hsub hx hp => by
          obtain ⟨hacc, hmore⟩ := ih hx
          refine ⟨fun r hr => hacc r (hsub r hr), fun ref' cell' d' hm => ?_⟩
          rcases List.mem_cons.mp hm with he | hm
          · cases he; exact hp hacc
          · exact hmore ref' cell' d' hm
      cases hc : checkPlace records cs ref cell d with
      | stands =>
        rw [hc] at h
        refine hcons (fun _ h => h) h fun _ => ?_
        unfold checkPlace at hc
        split at hc
        · cases hc
        · next hnone =>
          refine ⟨hnone, fun r hr => ?_⟩
          rw [hr] at hc
          dsimp only at hc
          split at hc <;> cases hc
      | displaces o =>
        rw [hc] at h
        refine hcons (fun r hr => List.mem_append_left _ hr) h fun hacc => ?_
        unfold checkPlace at hc
        split at hc
        · cases hc
        · next hnone =>
          refine ⟨hnone, fun r hr => ?_⟩
          rw [hr] at hc
          dsimp only at hc
          split at hc
          · cases hc
            exact hacc _ (List.mem_append_right _ (List.mem_singleton_self _))
          · cases hc
      | collides o => rw [hc] at h; cases h
    | _ => exact hother (fun _ _ _ => nofun) h

/-- A position that the staged changes give a handle is that of a staged PLACE. -/
theorem place_of_stagedPosition {cs : List Change} {n : Nat} {cell : Cell} (h : stagedPosition cs n = some (some cell)) :
    ∃ ref d, Change.place ref cell d ∈ cs ∧ ref.handle = n := by
  rw [stagedPosition_eq] at h
  obtain ⟨c, hc, hp⟩ := List.exists_of_findSome?_eq_some h
  cases c with
  | place ref x d =>
    replace hp : (if ref.handle = n then some (some x) else none) = some (some cell) := hp
    split at hp
    · next hn =>
      cases hp
      exact ⟨ref, d, hc, hn⟩
    · cases hp
  | unplace ref =>
    replace hp : (if ref.handle = n then some none else none) = some (some cell) := hp
    split at hp <;> cases hp
  | _ =>
    replace hp : (none : Option (Option Cell)) = some (some cell) := hp
    cases hp

/-- After staged changes whose PLACEs pass their check no cell is held twice (R7, R68). -/
theorem positionsAfter_differ {records : List Record} {cs : List Change} {displaced : List Ref}
    (hd : records.Pairwise fun a b => a.ref.handle ≠ b.ref.handle) (hpos : records.Pairwise fun a b => a.pos ≠ none → a.pos ≠ b.pos)
    (h : checkPlaces records cs = .ok displaced) :
    records.Pairwise fun a b => positionAfter cs displaced a ≠ none → positionAfter cs displaced a ≠ positionAfter cs displaced b := by
  have hsame : ∀ {a b : Record} {cell : Cell}, a ∈ records → b ∈ records → a.pos = some cell → b.pos = some cell → a = b :=
    fun {a b cell} ha hb hac hbc => by
      by_contra hne
      have hsymm : Std.Symm fun a b : Record => a.pos ≠ none → a.pos ≠ b.pos := ⟨fun _ _ h => Ledger.Mid.positions_symm h⟩
      exact hpos.forall ha hb hne (by rw [hac]; nofun) (hac.trans hbc.symm)
  have hpass : ∀ {ref cell d}, Change.place ref cell d ∈ cs → PlacePasses records cs displaced ref cell := fun hm =>
    (checkPlacesFrom_passes h).2 _ _ _ hm
  have hone : ∀ {a b : Record} {cell : Cell}, b ∈ records → a.ref.handle ≠ b.ref.handle →
      stagedPosition cs a.ref.handle = some (some cell) → positionAfter cs displaced b ≠ some cell := fun {a b cell} hb hne ha hbc => by
    obtain ⟨ref, d, hm, hr⟩ := place_of_stagedPosition ha
    obtain ⟨hother, hfound⟩ := hpass hm
    unfold positionAfter at hbc
    split at hbc
    · next p hp =>
      rw [hbc] at hp
      obtain ⟨ref', d', hm', hr'⟩ := place_of_stagedPosition hp
      have := List.findSome?_eq_none_iff.mp hother _ hm'
      dsimp only at this
      rw [if_pos ⟨by rw [hr, hr']; exact hne.symm, rfl⟩] at this
      cases this
    · next hnone =>
      split at hbc
      · cases hbc
      · next hnot =>
        cases hf : records.find? (fun r => r.pos == some cell && r.ref.handle != ref.handle && (stagedPosition cs r.ref.handle).isNone) with
        | none =>
          have := List.find?_eq_none.mp hf b hb
          simp [hbc, hr, hne.symm, hnone] at this
        | some r =>
          have hrb : r = b := by
            have hr' := List.find?_some hf
            simp only [Bool.and_eq_true, beq_iff_eq] at hr'
            exact hsame (List.mem_of_find?_eq_some hf) hb hr'.1.1 hbc
          exact hnot (List.contains_iff_mem.mpr (hrb ▸ hfound r hf))
  refine hd.imp_of_mem fun {a b} ha hb hne hsome heq => ?_
  obtain ⟨cell, hcell⟩ := Option.ne_none_iff_exists'.mp hsome
  cases hsa : stagedPosition cs a.ref.handle with
  | some p =>
    have hp : p = some cell := by rw [positionAfter, hsa] at hcell; exact hcell
    exact hone hb hne (hp ▸ hsa) (heq.symm.trans hcell)
  | none =>
    cases hsb : stagedPosition cs b.ref.handle with
    | some p =>
      have hp : p = some cell := by
        rw [heq, positionAfter, hsb] at hcell
        exact hcell
      exact hone ha hne.symm (hp ▸ hsb) hcell
    | none =>
      have hheld : ∀ {r : Record}, stagedPosition cs r.ref.handle = none → positionAfter cs displaced r = some cell → r.pos = some cell :=
        fun {r} hr hx => by
          rw [positionAfter, hr] at hx
          dsimp only at hx
          split at hx
          · cases hx
          · exact hx
      exact hne (congrArg (fun r : Record => r.ref.handle) (hsame ha hb (hheld hsa hcell) (hheld hsb (heq.symm.trans hcell))))

/-! ### The ledger -/

namespace Ledger

/-- The ledger after the apply, the controller aside (R37, R77). -/
def applied (c : CommitCtl) (L : Ledger) : Ledger where
  seats := L.seats.map fun x => { x with pos := x.after L.staging L.ctl.displaced }
  store := storeAfter L.store L.staging
  keys := L.keys.map fun k => { k with introduced := false }
  staging := []
  ctl := c
  stakes := L.stakes.map fun k => if k.status = .prepared then { k with status := .unconfirmed } else k

namespace Mid

variable {L : Ledger}

/-- The apply keeps the ledger sound (R7, R35, R40, R77). -/
theorem apply (h : L.Mid []) (hst : L.ctl.state = .armed) (hrange : ∀ x ∈ L.seats, 1 ≤ x.ref.handle)
    (htargets : L.staging.Pairwise fun a b => sameTarget a.target b.target = false) {c : CommitCtl} (hc : c.state = .applying)
    (hp : c.prepareDl = L.ctl.prepareDl) (ha : c.armDl = none) (happ : (∃ k ∈ L.stakes, k.status = .prepared) → c.applyDl ≠ none) :
    (L.applied c).Mid [] := by
  obtain ⟨hlen, hpos⟩ := h.post (.inr hst)
  have hnames : ∀ ref, L.Names ref → (L.applied c).Names ref := fun ref ⟨x, hx, hr⟩ => ⟨_, List.mem_map_of_mem hx, hr⟩
  have hscope : ∀ sc, L.ScopeIn sc → (L.applied c).ScopeIn sc := fun sc hsc => by
    cases sc with
    | tile ref => exact hnames ref hsc
    | _ => exact hsc
  have hkeys : ∀ n, (∃ k ∈ L.keys, k.number = n) → ∃ k ∈ (L.applied c).keys, k.number = n := fun n ⟨k, hk, hn⟩ =>
    ⟨_, List.mem_map_of_mem hk, hn⟩
  have hin : ∀ e ∈ storeAfter L.store L.staging, L.ScopeIn e.scope ∧ e.key ≤ 63 ∧ ∃ k ∈ L.keys, k.number = e.key := fun e he => by
    rcases mem_storeAfter he with hx | ⟨sc, k, v, hx, rfl⟩
    · exact h.entries e hx
    · exact h.staged _ hx
  have hgroup : ∀ e ∈ storeAfter L.store L.staging, ∀ g, e.scope = .group g → g ≤ 15 := fun e he g hg => by
    have := (hin e he).1
    rwa [hg] at this
  have htile : ∀ e ∈ storeAfter L.store L.staging, ∀ ref, e.scope = .tile ref → 1 ≤ ref.handle := fun e he ref hr => by
    have := (hin e he).1
    rw [hr] at this
    obtain ⟨x, hx, hxr⟩ := this
    exact hxr ▸ hrange x hx
  have hstatus : ∀ k ∈ L.stakes, (if k.status = .prepared then { k with status := .unconfirmed } else k : Stake).status = .unconfirmed
      ∧ k.status = .prepared ∨ (if k.status = .prepared then { k with status := .unconfirmed } else k : Stake).status = .excluded := fun k hk => by
    rcases h.armed hst k hk with hx | hx
    · exact .inl ⟨by rw [if_pos hx], hx⟩
    · exact .inr (by rw [if_neg (by rw [hx]; nofun)]; exact hx)
  have hall : ∀ P : Stake → Prop, (∀ k ∈ L.stakes, P (if k.status = .prepared then { k with status := .unconfirmed } else k)) →
      ∀ k ∈ (L.applied c).stakes, P k := fun P hP k hk => by
    obtain ⟨j, hj, rfl⟩ := List.mem_map.mp hk
    exact hP j hj
  refine ⟨List.pairwise_map.mpr h.differ, List.pairwise_map.mpr hpos, ?_, hlen,
    fun e he => ⟨hscope _ (hin e he).1, (hin e he).2.1, hkeys _ (hin e he).2.2⟩, nofun, fun hx => ?_, ?_, hall _ fun k hk => ?_,
    fun _ => hall _ fun k hk hcount => ?_, fun hx => ?_, fun hx => ?_, fun _ => hall _ fun k hk => ?_, fun hx => ?_, ?_, ?_, fun _ => hc,
    fun _ hx => ?_⟩
  · exact (storeAfter_placed (placed_of_strict h.storeOrder) htargets).1.imp_of_mem fun {a b} ha hb hab =>
      lt_of_le_of_ne hab.1 fun he => by
        have hat := samePlace_of_rank (hgroup a ha) (hgroup b hb) (htile a ha) (htile b hb) (hin a ha).2.1 (hin b hb).2.1 he
        rw [hab.2] at hat
        cases hat
  · rw [show (L.applied c).ctl = c from rfl, hc] at hx
    rcases hx with hx | hx <;> cases hx
  · have hrefs : (L.applied c).stakes.map Stake.ref = L.stakes.map Stake.ref := by
      show (L.stakes.map _).map Stake.ref = _
      rw [List.map_map]
      refine List.map_congr_left fun k _ => ?_
      dsimp only [Function.comp]
      split <;> rfl
    rw [hrefs]
    exact h.stakes
  · have hk' := h.held k hk
    split <;> exact hnames _ hk'
  · have hcount' : k.status.Counts := by
      rcases hstatus k hk with ⟨-, hx⟩ | hx
      · exact .inr (.inl hx)
      · rw [hx] at hcount
        rcases hcount with hx | hx | hx <;> cases hx
    obtain ⟨x, hx, hr⟩ := (h.counted (by rw [hst]; nofun) k hk hcount').resolve_left List.not_mem_nil
    refine .inr ⟨_, List.mem_map_of_mem hx, ?_⟩
    split <;> exact hr
  · rw [show (L.applied c).ctl = c from rfl, hc] at hx; cases hx
  · rw [show (L.applied c).ctl = c from rfl, hc] at hx; cases hx
  · rcases hstatus k hk with ⟨hx, -⟩ | hx <;> rw [hx] <;> exact ⟨nofun, nofun⟩
  · rw [show (L.applied c).ctl = c from rfl, hc] at hx; cases hx
  · have hnone : c.prepareDl = none := by
      rw [hp]
      by_contra hne
      rw [h.prepareDl.mp hne] at hst
      cases hst
    exact ⟨fun hx => absurd hnone hx, fun hx => by rw [show (L.applied c).ctl = c from rfl, hc] at hx; cases hx⟩
  · exact ⟨fun hx => absurd ha hx, fun hx => by rw [show (L.applied c).ctl = c from rfl, hc] at hx; cases hx⟩
  · obtain ⟨k, hk, hun⟩ := hx
    obtain ⟨j, hj, rfl⟩ := List.mem_map.mp hk
    rcases hstatus j hj with ⟨-, hx⟩ | hx
    · exact happ ⟨j, hj, hx⟩
    · rw [hx] at hun; cases hun

/-- The acceptance of a COMMIT whose checks passed (R65, R70). -/
theorem accept (h : L.Mid []) {c : CommitCtl} {ks : List Stake} (hstakes : (ks.map Stake.ref).Nodup)
    (hks : ∀ k ∈ ks, k.status = .unprepared ∧ L.Present k) (hc : c.state = if ks = [] then .armed else .preparing)
    (hp : c.prepareDl ≠ none ↔ ks ≠ []) (ha : c.armDl ≠ none ↔ ks = []) (happ : c.applyDl = none)
    (hlen : (storeAfter L.store L.staging).length ≤ 512)
    (hpos : L.seats.Pairwise fun a b => a.after L.staging c.displaced ≠ none → a.after L.staging c.displaced ≠ b.after L.staging c.displaced) :
    ({ L with ctl := c, stakes := ks } : Ledger).Mid [] ∧ ({ L with ctl := c, stakes := ks } : Ledger).Waits := by
  have hcases : (ks = [] ∧ c.state = .armed) ∨ (ks ≠ [] ∧ c.state = .preparing) := by
    rw [hc]
    by_cases hk : ks = []
    · exact .inl ⟨hk, if_pos hk⟩
    · exact .inr ⟨hk, if_neg hk⟩
  have hnot : c.state ≠ .applying ∧ c.state ≠ .idle := by
    rcases hcases with ⟨-, hx⟩ | ⟨-, hx⟩ <;> rw [hx] <;> exact ⟨nofun, nofun⟩
  refine ⟨⟨h.differ, h.positions, h.storeOrder, h.storeSize, h.entries, h.staged, fun _ => ⟨hlen, hpos⟩, hstakes, fun k hk => ?_,
    fun _ k hk _ => .inr (hks k hk).2, fun _ k hk => .inl (hks k hk).1, fun hx k hk => ?_, fun hx => absurd hx hnot.1,
    fun hx => absurd hx hnot.2, ?_, ?_, fun hx => absurd happ hx, fun hx => absurd hx hnot.1⟩,
    ⟨fun hx => ?_, fun hx => absurd hx hnot.1⟩⟩
  · obtain ⟨x, hx, hr, -⟩ := (hks k hk).2
    exact ⟨x, hx, hr⟩
  · rcases hcases with ⟨hnil, -⟩ | ⟨-, hprep⟩
    · rw [hnil] at hk; cases hk
    · rw [show c.state = .armed from hx] at hprep; cases hprep
  · refine hp.trans ⟨fun hk => ?_, fun hx hk => ?_⟩
    · exact hcases.resolve_left (fun hx => hk hx.1) |>.2
    · rcases hcases with ⟨-, hs⟩ | ⟨hk', -⟩
      · rw [show c.state = .preparing from hx] at hs; cases hs
      · exact hk' hk
  · refine ha.trans ⟨fun hk => ?_, fun hx => ?_⟩
    · exact hcases.resolve_right (fun hx => hx.1 hk) |>.2
    · rcases hcases with ⟨hk, -⟩ | ⟨-, hs⟩
      · exact hk
      · rw [show c.state = .armed from hx] at hs; cases hs
  · rcases hcases with ⟨-, hs⟩ | ⟨hk, -⟩
    · rw [show c.state = .preparing from hx] at hs; cases hs
    · obtain ⟨k, hk⟩ := List.exists_mem_of_ne_nil _ hk
      exact ⟨k, hk, (hks k hk).1⟩

end Mid

end Ledger

end Sys2Proof.Machine
end

section
/-! PROOFS. What leaves the ledger as it is: completions, notices, jobs, the hop maps, the wires and the ends of events on the links
(O57). -/

namespace Sys2Proof.Machine

/-! ### Parts of the state -/

section Parts

variable (s : State)

theorem modPort_ledger (f : HostPort → HostPort) : (modPort f s).ledger = s.ledger := rfl
theorem modLink_ledger (l : LinkId) (f : LinkEngine → LinkEngine) : (modLink l f s).ledger = s.ledger := rfl
theorem modLinks_ledger (f : LinkEngine → LinkEngine) : (modLinks f s).ledger = s.ledger := rfl
theorem modJobs_ledger (l : LinkId) (f : List Job → List Job) : (modJobs l f s).ledger = s.ledger := rfl
theorem modBoundary_ledger (f : BoundaryUnit → BoundaryUnit) : (modBoundary f s).ledger = s.ledger := rfl
theorem advanceTo_ledger (m : Nat) : (advanceTo m s).ledger = s.ledger := rfl
theorem setChoices_ledger (n : Nat) : { s with choices := n }.ledger = s.ledger := rfl
theorem raiseLink_ledger (l : LinkId) (r : Reason) : (raiseLink l r s).ledger = s.ledger := rfl
theorem raiseHandle_ledger (h : Nat) (r : Reason) : (raiseHandle h r s).ledger = s.ledger := rfl
theorem complete_ledger (t : Tag) (k : ReqKind) (st : Status) (q : Byte) (res : List Byte) : (complete t k st q res s).ledger = s.ledger := rfl
theorem removeMark_ledger (loc : Loc) : (removeMark loc s).ledger = s.ledger := rfl
theorem setHop_ledger (l : LinkId) (hop : Nat) (x : HopEntry) : (setHop l hop x s).ledger = s.ledger := rfl
theorem startAssign_ledger (l : LinkId) (a : Assignment) : (startAssign l a s).ledger = s.ledger := rfl
theorem countScan_ledger (l : LinkId) (f : FullScan → FullScan) : (countScan l f s).ledger = s.ledger := rfl
theorem beginScan_ledger (l : LinkId) (t : Option Tag) : (beginScan l t s).ledger = s.ledger := rfl
theorem noticeHandle_ledger : (noticeHandle s).ledger = s.ledger := rfl
theorem noticeId_ledger (u : Uid) : (noticeId u s).ledger = s.ledger := rfl
theorem rollScan_ledger (l : LinkId) (hop : Nat) : (rollScan l hop s).ledger = s.ledger := rfl
theorem freeWire_ledger (l : LinkId) : (freeWire l s).ledger = s.ledger := rfl
theorem forgetExpiry_ledger (l : LinkId) : (forgetExpiry l s).ledger = s.ledger := rfl
theorem timerExpired_ledger (l : LinkId) (f : Flight) : (timerExpired l f s).ledger = s.ledger := rfl
theorem unlistHop_ledger (loc : Loc) (ref : Ref) : (unlistHop loc ref s).ledger = s.ledger := rfl
theorem retryAttempt_ledger (l : LinkId) (f : Flight) : (retryAttempt l f s).ledger = s.ledger := rfl
theorem overtake_ledger (l : LinkId) (f : Flight) (t : Txn) (rest : List Txn) : (overtake l f t rest s).ledger = s.ledger := rfl
theorem received_ledger (n : Nat) : (received n s).ledger = s.ledger := rfl

end Parts

theorem forEach_ledger {α : Type} {xs : List α} {f : α → State → State}
    (hf : ∀ x s, (f x s).ledger = s.ledger := by intro _ _; rfl) (s : State) :
    (forEach xs f s).ledger = s.ledger := forEach_keeps State.ledger hf

/-- Records change in what the ledger does not speak of. -/
theorem mapRecords_ledger {f : Record → Record} (hf : ∀ r, (f r).seat = r.seat) (s : State) :
    (modDir (fun d => { d with records := d.records.map f }) s).ledger = s.ledger := by
  have : (s.dir.records.map f).map Record.seat = s.dir.records.map Record.seat := by
    rw [List.map_map]
    exact List.map_congr_left fun r _ => hf r
  exact congrArg (fun x => ({ s.ledger with seats := x } : Ledger)) this

theorem updRec_ledger {f : Record → Record} (hf : ∀ r, (f r).seat = r.seat := by intro _; rfl) (n : Nat) (s : State) : (updRec n f s).ledger = s.ledger :=
  mapRecords_ledger (fun r => by split; exacts [hf r, rfl]) s

/-- Participants change in what the ledger does not speak of. -/
theorem updPart_ledger {f : Participant → Participant} (hf : ∀ p, (f p).stake = p.stake := by intro _; rfl) (ref : Ref) (s : State) :
    (updPart ref f s).ledger = s.ledger := by
  have : (s.commit.participants.map fun p => if p.ref = ref then f p else p).map Participant.stake = s.commit.participants.map Participant.stake := by
    rw [List.map_map]
    refine List.map_congr_left fun p _ => ?_
    dsimp only [Function.comp]
    split
    exacts [hf p, rfl]
  exact congrArg (fun x => ({ s.ledger with stakes := x } : Ledger)) this

/-! ### Completions, hops and jobs -/

theorem endRunning_ledger (st : Status) (t : Tag) (s : State) : (endRunning st t s).ledger = s.ledger := by
  unfold endRunning; split <;> rfl

theorem setUnlisted_ledger (l : LinkId) (hop : Nat) (why : Unlisted) (s : State) : (setUnlisted l hop why s).ledger = s.ledger := by
  unfold setUnlisted
  dsimp only
  split
  · split <;> rfl
  · rfl

theorem dropAssignment_ledger (l : LinkId) (a : Assignment) (s : State) : (dropAssignment l a s).ledger = s.ledger := by
  unfold dropAssignment
  dsimp only
  split <;> rfl

theorem makeJob_ledger (n : Nat) (s : State) : (makeJob n s).ledger = s.ledger := by
  unfold makeJob
  split
  · split <;> rfl
  · rfl

theorem removeJob_ledger (ref : Ref) (s : State) : (removeJob ref s).ledger = s.ledger :=
  (modLinks_ledger ..).trans (forEach_ledger (s := s))

theorem dropHostWaiting_ledger (l : LinkId) (ref : Ref) (s : State) : (dropHostWaiting l ref s).ledger = s.ledger :=
  (forEach_ledger (fun t s => endRunning_ledger _ t s) _).trans (modLink_ledger ..)

theorem restartAllJobs_ledger (s : State) : (restartAllJobs s).ledger = s.ledger :=
  (forEach_ledger (s := _)).trans rfl

theorem settleTurn_ledger (l : LinkId) (s : State) : (settleTurn l s).ledger = s.ledger := by
  unfold settleTurn
  split
  · dsimp only
    split
    · split <;> rfl
    · rfl
  · rfl

theorem jobsTakeBoundary_ledger (s : State) : (jobsTakeBoundary s).ledger = s.ledger := by
  refine forEach_ledger (fun l s => ?_) s
  dsimp only
  split
  · exact (modJobs_ledger ..).trans (forEach_ledger (s := s))
  · rfl

/-! ### The wires -/

theorem markReached_ledger (t : Txn) (s : State) : (markReached t s).ledger = s.ledger := by
  unfold markReached
  split
  · split
    · exact updPart_ledger (s := s) ..
    · rfl
  · rfl

theorem arbitrate_ledger (l : LinkId) (s : State) : (arbitrate l s).ledger = s.ledger := by
  unfold arbitrate
  dsimp only
  split
  · rfl
  · split
    · exact (markReached_ledger ..).trans rfl
    · rfl

theorem finishLinks_ledger (n : Nat) (s : State) : (finishLinks n s).ledger = s.ledger := by
  calc (finishLinks n s).ledger = (arbitrateAll (settleTurns (queueHopScans s))).ledger := rfl
    _ = (settleTurns (queueHopScans s)).ledger := forEach_ledger arbitrate_ledger _
    _ = (queueHopScans s).ledger := forEach_ledger settleTurn_ledger _

theorem broadcastDone_ledger (l : LinkId) (s : State) : (broadcastDone l s).ledger = s.ledger := by
  unfold broadcastDone
  split <;> rfl

theorem takeDownEngine_ledger (l : LinkId) (target : LinkState) (s : State) : (takeDownEngine l target s).ledger = s.ledger := by
  have hdown : (forEach (hostTags (s.links.get l) ++ rescanTag (s.links.get l)) (endRunning .notReachable)
      (modLink l (LinkEngine.down target s.now) s)).ledger = s.ledger :=
    (forEach_ledger (fun t s => endRunning_ledger _ t s) _).trans (modLink_ledger ..)
  unfold takeDownEngine
  dsimp only
  split
  · exact (raiseLink_ledger ..).trans ((dropAssignment_ledger ..).trans hdown)
  · exact (raiseLink_ledger ..).trans hdown

theorem clearLink_ledger (l : LinkId) (s : State) : (clearLink l s).ledger = s.ledger := by
  unfold clearLink
  split
  · rfl
  · rfl
  · exact takeDownEngine_ledger ..
  · exact takeDownEngine_ledger ..

theorem acceptRescan_ledger (l : LinkId) (t : Tag) (s : State) : (acceptRescan l t s).ledger = s.ledger := by
  unfold acceptRescan
  dsimp only
  rw [beginScan_ledger]
  split
  · split
    · exact (dropAssignment_ledger ..).trans rfl
    · rfl
  · rfl

theorem setMiss_ledger (l : LinkId) (hop n : Nat) (s : State) : (setMiss l hop n s).ledger = s.ledger := by
  unfold setMiss
  split
  · exact updRec_ledger ..
  · rfl

theorem newTiming_ledger (l : LinkId) (t : Timing) (s : State) : (newTiming l t s).ledger = s.ledger := by
  refine (modLink_ledger ..).trans (mapRecords_ledger (fun r => ?_) s)
  unfold missUnder
  split
  · split
    · split <;> rfl
    · split <;> rfl
  · rfl

/-! ### Requesters -/

theorem hostReplied_ledger (l : LinkId) (hop : Nat) (t : Tag) (st : TileStatus) (reply : ReplyBody) (s : State) :
    (hostReplied l hop t st reply s).ledger = s.ledger := by
  unfold hostReplied
  split
  · dsimp only
    split <;> rfl
  · rfl

theorem hostNoReply_ledger (l : LinkId) (hop : Nat) (t : Tag) (s : State) : (hostNoReply l hop t s).ledger = s.ledger := by
  unfold hostNoReply
  split <;> rfl

theorem jobRefused_ledger (l : LinkId) (j : Job) (s : State) : (jobRefused l j s).ledger = s.ledger := by
  unfold jobRefused
  split
  · rfl
  · exact (raiseHandle_ledger ..).trans (removeJob_ledger ..)

theorem jobPrepareOk_ledger (l : LinkId) (j : Job) (s : State) : (jobPrepareOk l j s).ledger = s.ledger := by
  unfold jobPrepareOk
  split <;> rfl

theorem jobNoReply_ledger (l : LinkId) (ref : Ref) (t : Txn) (s : State) : (jobNoReply l ref t s).ledger = s.ledger := by
  unfold jobNoReply
  split <;> rfl

theorem discardJobResult_ledger (l : LinkId) (ref : Ref) (s : State) : (discardJobResult l ref s).ledger = s.ledger := rfl

theorem completeRescan_ledger (l : LinkId) (sc : FullScan) (n : Nat) (s : State) : (completeRescan l sc n s).ledger = s.ledger := by
  unfold completeRescan
  split <;> rfl

theorem completeCommit_ledger (st : Status) (q : Byte) (res : List Byte) (s : State) : (completeCommit st q res s).ledger = s.ledger := by
  unfold completeCommit
  split <;> rfl

theorem completePending_ledger (src : BoundarySource) (seen : CommitState) (s : State) : (completePending src seen s).ledger = s.ledger := by
  unfold completePending
  split <;> rfl

theorem watchEdge_ledger (s : State) : (watchEdge s).ledger = s.ledger := by
  unfold watchEdge
  dsimp only
  split <;> rfl

theorem queueCancel_ledger (p : Participant) (s : State) : (queueCancel p s).ledger = s.ledger :=
  (updPart_ledger ..).trans (modLink_ledger ..)

end Sys2Proof.Machine
end

section
/-! PROOFS. The ledger within an event (`CommitMid`): claims, retirement and the course of a commit (O57; R9 to R11, R17, R72 to R85). -/

namespace Sys2Proof.Machine

/-! ### A participant takes a status -/

/-- The stakes of a reference take a status. -/
def Ledger.mark (ref : Ref) (st : PartStatus) (L : Ledger) : Ledger :=
  { L with stakes := L.stakes.map fun k => if k.ref = ref then { k with status := st } else k }

namespace Ledger.Mid

variable {L : Ledger} {lost lost' : List Ref}

/-- More records may be said to be lost. -/
theorem weaken (h : L.Mid lost) (hl : ∀ ref ∈ lost, ref ∈ lost') : L.Mid lost' :=
  { h with counted := fun hst k hk hc => (h.counted hst k hk hc).imp_left (hl _) }

/-- The controller hears of a record that no participant counts on. -/
theorem heard {ref : Ref} (h : L.Mid (ref :: lost)) (hno : L.ctl.state ≠ .cancelling → ∀ k ∈ L.stakes, k.status.Counts → k.ref ≠ ref) :
    L.Mid lost :=
  { h with counted := fun hst k hk hc => (h.counted hst k hk hc).imp_left fun hl =>
      (List.mem_cons.mp hl).resolve_left (hno hst k hk hc) }

/-- The stakes of a reference take a status that fits the commit state: one that counts only where they counted. -/
theorem mark (h : L.Mid lost) {ref : Ref} {st : PartStatus} (hcount : st.Counts → ∀ k ∈ L.stakes, k.ref = ref → k.status.Counts ∧ ref ∉ lost)
    (hlost : ∀ x ∈ lost, x ≠ ref → x ∈ lost') (hprep : L.ctl.state = .preparing → st = .unprepared ∨ st = .prepared ∨ st = .excluded)
    (harm : L.ctl.state = .armed → st = .prepared ∨ st = .excluded) (happ : L.ctl.state = .applying → st ≠ .unprepared ∧ st ≠ .prepared) :
    (L.mark ref st).Mid lost' := by
  refine h.restatus (fun k => ?_) (fun k => ?_) (fun k hk hc => ?_) (fun hs k hk => ?_) (fun hs k hk => ?_) fun hs k hk => ?_
  · split <;> rfl
  · split <;> rfl
  · split at hc
    · next hr =>
      obtain ⟨hc', hn⟩ := hcount hc k hk hr
      exact ⟨hc', fun hl => absurd (hr ▸ hl) hn⟩
    · next hr => exact ⟨hc, fun hl => hlost _ hl hr⟩
  · split
    · exact hprep hs
    · exact h.preparing hs k hk
  · split
    · exact harm hs
    · exact h.armed hs k hk
  · split
    · exact happ hs
    · exact h.applying hs k hk

/-- A participant is EXCLUDED: its record is not missed any more (R73, R76, R79, R81). -/
theorem exclude (h : L.Mid lost) {ref : Ref} (hlost : ∀ x ∈ lost, x ≠ ref → x ∈ lost') : (L.mark ref .excluded).Mid lost' :=
  h.mark (fun hc => by rcases hc with hc | hc | hc <;> cases hc) hlost (fun _ => .inr (.inr rfl)) (fun _ => .inr rfl) fun _ => ⟨nofun, nofun⟩

end Ledger.Mid

/-! ### What operations write into the ledger -/

theorem setStatus_ledger (ref : Ref) (st : PartStatus) (s : State) : (setStatus ref st s).ledger = s.ledger.mark ref st := by
  have : (s.commit.participants.map fun p => if p.ref = ref then { p with status := st } else p).map Participant.stake
      = (s.commit.participants.map Participant.stake).map fun k => if k.ref = ref then { k with status := st } else k := by
    rw [List.map_map, List.map_map]
    refine List.map_congr_left fun p _ => ?_
    dsimp only [Function.comp]
    by_cases hr : p.ref = ref
    · rw [if_pos hr, if_pos (c := p.stake.ref = ref) hr]
      rfl
    · rw [if_neg hr, if_neg (c := p.stake.ref = ref) hr]
  exact congrArg (fun x => ({ s.ledger with stakes := x } : Ledger)) this

/-- A participant found by its reference is the only one of it. -/
theorem updPart_found_ledger {s : State} (hn : (s.ledger.stakes.map Stake.ref).Nodup) {ref : Ref} {p : Participant} (hp : findPart s ref = some p)
    {f : Participant → Participant} (href : (f p).ref = p.ref) (hloc : (f p).loc = p.loc) :
    (updPart ref f s).ledger = s.ledger.mark ref (f p).status := by
  have hmem : p ∈ s.commit.participants := List.mem_of_find?_eq_some hp
  have hpr : p.ref = ref := findPart_ref hp
  have hn' : (s.commit.participants.map Participant.ref).Nodup := by
    have : s.ledger.stakes.map Stake.ref = s.commit.participants.map Participant.ref := List.map_map
    rwa [this] at hn
  have : (s.commit.participants.map fun p => if p.ref = ref then f p else p).map Participant.stake
      = (s.commit.participants.map Participant.stake).map fun k => if k.ref = ref then { k with status := (f p).status } else k := by
    rw [List.map_map, List.map_map]
    refine List.map_congr_left fun q hq => ?_
    dsimp only [Function.comp]
    by_cases hqr : q.ref = ref
    · have hqp : q = p := List.inj_on_of_nodup_map hn' hq hmem (hqr.trans hpr.symm)
      rw [if_pos hqr, if_pos (c := q.stake.ref = ref) hqr, hqp]
      show (⟨(f p).ref, (f p).loc, (f p).status⟩ : Stake) = ⟨p.ref, p.loc, (f p).status⟩
      rw [href, hloc]
    · rw [if_neg hqr, if_neg (c := q.stake.ref = ref) hqr]
  exact congrArg (fun x => ({ s.ledger with stakes := x } : Ledger)) this

/-- A change of the records of a handle that leaves the seat of the one record of that handle as it is. -/
theorem updRec_found_ledger {s : State} (hd : HandlesDiffer s) {n : Nat} {r : Record} (hr : findRec s n = some r) {f : Record → Record}
    (hf : (f r).seat = r.seat) : (updRec n f s).ledger = s.ledger := by
  obtain ⟨-, hn⟩ := mem_of_findRec hr
  have : (s.dir.records.map fun x => if x.ref.handle = n then f x else x).map Record.seat = s.dir.records.map Record.seat := by
    rw [List.map_map]
    refine List.map_congr_left fun x hx => ?_
    dsimp only [Function.comp]
    split
    · next hxn =>
      have : x = r := Option.some.inj ((hd.findRec hx).symm.trans (hxn ▸ hr))
      rw [this, hf]
    · rfl
  exact congrArg (fun x => ({ s.ledger with seats := x } : Ledger)) this

theorem claimActive_ledger {s : State} (hd : HandlesDiffer s) (n : Nat) : (claimActive n s).ledger = s.ledger := by
  unfold claimActive
  split
  · next r hr =>
    split
    · next hst =>
      refine (removeJob_ledger ..).trans ((raiseHandle_ledger ..).trans (updRec_found_ledger hd hr ?_))
      rcases hst with hst | hst <;> simp [Record.seat, Record.reachable, hst]
    · rfl
  · rfl

theorem claimLagging_ledger {s : State} (hd : HandlesDiffer s) (n : Nat) : (claimLagging n s).ledger = s.ledger := by
  unfold claimLagging
  split
  · next r hr =>
    split
    · next hst =>
      refine (makeJob_ledger ..).trans ((raiseHandle_ledger ..).trans (updRec_found_ledger hd hr ?_))
      simp [Record.seat, Record.reachable, hst]
    · rfl
  · rfl

theorem exclude_ledger {s : State} (hd : HandlesDiffer s) (p : Participant) : (exclude p s).ledger = s.ledger.mark p.ref .excluded := by
  have hmark : (setStatus p.ref .excluded (dropPrepares p s)).ledger = s.ledger.mark p.ref .excluded := setStatus_ledger ..
  have hlag : (claimLagging p.ref.handle (setStatus p.ref .excluded (dropPrepares p s))).ledger = s.ledger.mark p.ref .excluded :=
    (claimLagging_ledger (s := setStatus p.ref .excluded (dropPrepares p s)) hd _).trans hmark
  unfold exclude
  dsimp only
  split
  · split
    · exact (queueCancel_ledger ..).trans hlag
    · exact hlag
  · exact hmark

theorem enterCancelling_ledger (reason : CancelReason) (s : State) : (enterCancelling reason s).ledger
    = { s.ledger with ctl := { s.ledger.ctl with state := .cancelling, reason := some reason, prepareDl := none, armDl := none } } :=
  (forEach_ledger queueCancel_ledger _).trans rfl

theorem retire_ledger {s : State} {n : Nat} {r : Record} (hr : findRec s n = some r) : (retire n s).ledger = s.ledger.without n := by
  have hseats : (retire n s).dir.records.map Record.seat = (s.dir.records.map Record.seat).filter fun x => x.ref.handle != n := by
    rw [retire_records, List.filter_map]
    rfl
  have hkept : (retire n s).ledger = { s.ledger with
      seats := (retire n s).dir.records.map Record.seat, store := (retire n s).store, staging := (retire n s).staging } := by
    have hcommit := (retire_aside n s).commit
    have hkeys := (retire_aside n s).keys
    unfold State.ledger
    rw [hcommit, hkeys]
  rw [hkept, hseats, (retire_store hr).1, (retire_store hr).2]
  rfl

/-! ### The ledger within an event -/

/-- The ledger is sound but for the records whose loss the commit controller has still to hear of. -/
structure CommitMid (lost : List Ref) (s : State) : Prop where
  mid : s.ledger.Mid lost

namespace CommitMid

variable {lost lost' : List Ref} {s s' : State}

theorem same (h : CommitMid lost s) (hl : s'.ledger = s.ledger) : CommitMid lost s' := ⟨hl ▸ h.mid⟩

theorem differ (h : CommitMid lost s) : HandlesDiffer s :=
  (List.pairwise_map (R := fun a b : Seat => a.ref.handle ≠ b.ref.handle)).mp h.mid.differ

theorem forEach {α : Type} {xs : List α} {f : α → State → State} (h : CommitMid lost s) (hf : ∀ x s, CommitMid lost s → CommitMid lost (f x s)) :
    CommitMid lost (Machine.forEach xs f s) := by
  unfold Machine.forEach
  induction xs generalizing s with
  | nil => exact h
  | cons x xs ih => exact ih (hf x s h)

/-! ### Claims -/

theorem claimActive (h : CommitMid lost s) {n : Nat} : CommitMid lost (Machine.claimActive n s) := h.same (claimActive_ledger h.differ n)
theorem claimLagging (h : CommitMid lost s) {n : Nat} : CommitMid lost (Machine.claimLagging n s) := h.same (claimLagging_ledger h.differ n)

/-- The records of a handle change: their references and positions stay, and one that was reachable is among the lost. -/
theorem reseat (h : CommitMid lost s) {n : Nat} {f : Record → Record} {g : Seat → Seat} (hf : ∀ r, (f r).seat = g r.seat)
    (href : ∀ x, (g x).ref = x.ref) (hpos : ∀ x, (g x).pos = x.pos)
    (hlost : ∀ r ∈ s.dir.records, r.ref.handle = n → r.state ≠ .stale → r.ref ∈ lost) : CommitMid lost (Machine.updRec n f s) := by
  have hseats : (s.dir.records.map fun r => if r.ref.handle = n then f r else r).map Record.seat
      = (s.dir.records.map Record.seat).map fun x => if x.ref.handle = n then g x else x := by
    rw [List.map_map, List.map_map]
    refine List.map_congr_left fun r _ => ?_
    dsimp only [Function.comp]
    by_cases hr : r.ref.handle = n
    · rw [if_pos hr, if_pos (c := r.seat.ref.handle = n) hr, hf]
    · rw [if_neg hr, if_neg (c := r.seat.ref.handle = n) hr]
  have hl : (Machine.updRec n f s).ledger = { s.ledger with seats := s.ledger.seats.map fun x => if x.ref.handle = n then g x else x } :=
    congrArg (fun x => ({ s.ledger with seats := x } : Ledger)) hseats
  refine ⟨hl ▸ h.mid.reseat (fun x => ?_) (fun x => ?_) (fun x hx hreach => ?_) fun _ hr => hr⟩
  · split
    exacts [href x, rfl]
  · split
    exacts [hpos x, rfl]
  · split
    · next hn =>
      obtain ⟨r, hr, rfl⟩ := List.mem_map.mp hx
      exact .inr (hlost r hr hn (by simpa [Record.seat, Record.reachable] using hreach))
    · exact .inl rfl

theorem claimStaleDir (h : CommitMid lost s) {n : Nat} {why : StaleReason}
    (hlost : ∀ r ∈ s.dir.records, r.ref.handle = n → r.state ≠ .stale → r.ref ∈ lost) : CommitMid lost (Machine.claimStaleDir n why s) := by
  unfold Machine.claimStaleDir
  split
  · next r hr =>
    split
    · exact h
    · have k := h.reseat (n := n) (f := fun x => { x with state := .stale, stale := some ⟨s.now, why⟩ })
        (g := fun x => { x with reachable := false }) (fun _ => rfl) (fun _ => rfl) (fun _ => rfl) hlost
      refine k.same ?_
      rw [noticeId_ledger, raiseHandle_ledger, unlistHop_ledger, dropHostWaiting_ledger, removeJob_ledger]
      rfl
  · exact h

end CommitMid

end Sys2Proof.Machine
end

section
/-! PROOFS. The ledger through claims on several records, retirement and the phases of a commit (O57; R9, R17, R20, R72 to R85). -/

namespace Sys2Proof.Machine

/-- The reachable records of a handle stay so through claims only from before them. -/
theorem unclaimed_of_claimStaleDir {n : Nat} {why : StaleReason} {s : State} {r : Record} (hr : r ∈ (claimStaleDir n why s).dir.records)
    (hst : r.state ≠ .stale) : r ∈ s.dir.records := by
  by_cases hc : ∃ r, findRec s n = some r ∧ r.state ≠ .stale
  · obtain ⟨x, hx, hxs⟩ := hc
    rw [claimStaleDir_dir hx hxs] at hr
    obtain ⟨y, hy, rfl⟩ := List.mem_map.mp hr
    split at hst
    · exact absurd rfl hst
    · next hn => rwa [if_neg hn]
  · push Not at hc
    rwa [claimStaleDir_idle hc] at hr

namespace CommitMid

variable {lost lost' : List Ref} {s s' : State}

/-! ### Participants that fail (R73, R76, R81) -/

theorem nobody {ref : Ref} (hp : findPart s ref = none) : ∀ k ∈ s.ledger.stakes, k.ref ≠ ref := fun k hk => by
  obtain ⟨p, hp', rfl⟩ := List.mem_map.mp hk
  have hne : ¬ p.ref = ref := by simpa using List.find?_eq_none.mp hp p hp'
  exact hne

/-- The stake of a participant found is the only one of its reference. -/
theorem status_of_found (h : CommitMid lost s) {ref : Ref} {p : Participant} (hp : findPart s ref = some p) {k : Stake} (hk : k ∈ s.ledger.stakes)
    (hr : k.ref = ref) : k.status = p.status := by
  have hk' : p.stake ∈ s.ledger.stakes := List.mem_map_of_mem (List.mem_of_find?_eq_some hp)
  rw [List.inj_on_of_nodup_map h.mid.stakes hk hk' (hr.trans (findPart_ref hp).symm)]
  rfl

theorem exclude (h : CommitMid lost s) {p : Participant} (hlost : ∀ x ∈ lost, x ≠ p.ref → x ∈ lost') : CommitMid lost' (Machine.exclude p s) :=
  ⟨exclude_ledger h.differ p ▸ h.mid.exclude hlost⟩

theorem enterCancelling (h : CommitMid lost s) {reason : CancelReason} (hst : s.commit.state = .preparing ∨ s.commit.state = .armed) :
    CommitMid lost' (Machine.enterCancelling reason s) :=
  ⟨enterCancelling_ledger reason s ▸ h.mid.cancel hst rfl rfl rfl rfl⟩

theorem failParticipant (h : CommitMid lost s) {p : Participant} (hst : s.commit.state = .preparing)
    (hlost : ∀ x ∈ lost, x ≠ p.ref → x ∈ lost') : CommitMid lost' (Machine.failParticipant p s) := by
  unfold Machine.failParticipant
  split
  · exact h.enterCancelling (.inl hst)
  · exact h.exclude hlost

theorem setExcluded (h : CommitMid lost s) {ref : Ref} (hlost : ∀ x ∈ lost, x ≠ ref → x ∈ lost') :
    CommitMid lost' (setStatus ref .excluded s) :=
  ⟨setStatus_ledger ref .excluded s ▸ h.mid.exclude hlost⟩

/-- The controller hears that a record went STALE (R73, R76, R81, R85). -/
theorem participantLost {ref : Ref} (h : CommitMid (ref :: lost) s) : CommitMid lost (Machine.participantLost ref s) := by
  unfold Machine.participantLost
  split
  · next hp => exact ⟨h.mid.heard fun _ k hk _ => nobody hp k hk⟩
  · next p hp =>
    have hpr : p.ref = ref := findPart_ref hp
    have hlost : ∀ x ∈ ref :: lost, x ≠ ref → x ∈ lost := fun x hx hne => (List.mem_cons.mp hx).resolve_left hne
    have k : CommitMid (ref :: lost) (modLink p.loc.link (LinkEngine.dropCommit (fun t => t.req == .participant ref)) s) :=
      h.same (modLink_ledger ..)
    have hidle : (s.commit.state ≠ .cancelling → ¬ p.status.Counts) →
        CommitMid lost (modLink p.loc.link (LinkEngine.dropCommit (fun t => t.req == .participant ref)) s) := fun hno =>
      ⟨k.mid.heard fun hst j hj hc hjr => hno hst (h.status_of_found hp hj hjr ▸ hc)⟩
    have hstatus : ∀ P : PartStatus → Prop, (∀ j ∈ s.ledger.stakes, P j.status) → P p.status := fun P hP =>
      hP p.stake (List.mem_map_of_mem (List.mem_of_find?_eq_some hp))
    dsimp only
    split
    · next hst =>
      split
      · exact k.failParticipant hst (hpr ▸ hlost)
      · next hno =>
        refine hidle fun _ hc => hno ?_
        rcases hstatus (fun st => st = .unprepared ∨ st = .prepared ∨ st = .excluded) (h.mid.preparing hst) with hx | hx | hx
        · exact .inl hx
        · exact .inr hx
        · rw [hx] at hc
          rcases hc with hc | hc | hc <;> cases hc
    · next hst =>
      split
      · split
        · exact k.enterCancelling (.inr hst)
        · exact k.setExcluded hlost
      · next hno =>
        refine hidle fun _ hc => hno ?_
        rcases hstatus (fun st => st = .prepared ∨ st = .excluded) (h.mid.armed hst) with hx | hx
        · exact hx
        · rw [hx] at hc
          rcases hc with hc | hc | hc <;> cases hc
    · next hst =>
      split
      · exact k.setExcluded hlost
      · next hno =>
        refine hidle fun _ hc => hno ?_
        obtain ⟨hu, hpd⟩ := hstatus (fun st => st ≠ .unprepared ∧ st ≠ .prepared) (h.mid.applying hst)
        rcases hc with hc | hc | hc
        exacts [absurd hc hu, absurd hc hpd, hc]
    · next hst => exact hidle fun hx => absurd hst hx
    · next hst =>
      have : p.stake ∈ s.ledger.stakes := List.mem_map_of_mem (List.mem_of_find?_eq_some hp)
      rw [(h.mid.idle hst).2] at this
      cases this

/-! ### Claims to STALE (R9, R88) -/

theorem participantsLost {refs : List Ref} (h : CommitMid refs s) : CommitMid [] (Machine.forEach refs Machine.participantLost s) := by
  unfold Machine.forEach
  induction refs generalizing s with
  | nil => exact h
  | cons ref refs ih => exact ih h.participantLost

theorem claimedDirs (h : CommitMid lost s) {claims : List (Nat × StaleReason)}
    (hlost : ∀ c ∈ claims, ∀ r ∈ s.dir.records, r.ref.handle = c.1 → r.state ≠ .stale → r.ref ∈ lost) :
    CommitMid lost (Machine.claimedDirs claims s) := by
  unfold Machine.claimedDirs Machine.forEach
  induction claims generalizing s with
  | nil => exact h
  | cons c cs ih =>
    refine ih (h.claimStaleDir (hlost c (List.mem_cons_self ..))) fun d hd r hr hn hst => ?_
    exact hlost d (List.mem_cons_of_mem _ hd) r (unclaimed_of_claimStaleDir hr hst) hn hst

theorem claimStaleAll (h : CommitMid [] s) {claims : List (Nat × StaleReason)} : CommitMid [] (Machine.claimStaleAll claims s) := by
  rw [claimStaleAll_def]
  have k : CommitMid (claimedRefs claims s) s := ⟨h.mid.weaken nofun⟩
  refine (k.claimedDirs fun c hc r hr hn hst => ?_).participantsLost
  refine List.mem_filterMap.mpr ⟨c, hc, ?_⟩
  rw [← hn, h.differ.findRec hr, Option.bind_some, if_pos (by simpa [Record.reachable] using hst)]

theorem claimStale (h : CommitMid [] s) {n : Nat} {why : StaleReason} : CommitMid [] (Machine.claimStale n why s) := h.claimStaleAll

/-! ### Retirement (R15 to R20) -/

/-- A record that nothing of a running commit names is retired. -/
theorem retire (h : CommitMid lost s) {n : Nat} (hfree : s.commit.state = .idle
      ∨ ((∀ c ∈ s.staging, c.namesHandle n = false) ∧ (∀ k ∈ s.ledger.stakes, k.ref.handle ≠ n)
        ∧ s.staging.Pairwise fun a b => sameTarget a.target b.target = false)) : CommitMid lost (Machine.retire n s) := by
  cases hr : findRec s n with
  | none =>
    unfold Machine.retire
    rw [hr]
    exact h
  | some r => exact ⟨retire_ledger hr ▸ h.mid.retire hfree⟩

theorem retireAll (h : CommitMid lost s) (hidle : s.commit.state = .idle) {ns : List Nat} :
    CommitMid lost (Machine.forEach ns Machine.retire s) := by
  unfold Machine.forEach
  induction ns generalizing s with
  | nil => exact h
  | cons n ns ih => exact ih (h.retire (.inl hidle)) (by rw [(retire_aside n s).commit]; exact hidle)

theorem expireAll (h : CommitMid lost s) (hidle : s.commit.state = .idle) : CommitMid lost (Machine.expireAll s) := h.retireAll hidle

theorem takeHandle (h : CommitMid lost s) {n : Nat} (ht : Machine.takeHandle s = some (n, s')) : CommitMid lost s' := by
  unfold Machine.takeHandle at ht
  split at ht
  · cases ht
    exact h.same rfl
  · split at ht
    · next hidle _ =>
      dsimp only at ht
      split at ht
      · cases ht
        exact (h.retire (.inl hidle)).same rfl
      · cases ht
    · cases ht

/-! ### The end of a commit (R82, R83) -/

theorem returnToIdle (h : CommitMid lost s) {applied : Bool} : CommitMid lost' (Machine.returnToIdle applied s) := by
  have hmade : ∀ x : State, (Machine.forEach (catchUpHandles x) makeJob x).ledger = x.ledger := fun x => forEach_ledger makeJob_ledger x
  have k : CommitMid lost' (Machine.modLinks (fun e => LinkEngine.dropFlight Txn.isCommit { e with commitQ := [] })
      (modCommit (fun c => CommitCtl.idle c.epoch c.lengths) s)) := ⟨h.mid.toIdle s.commit.epoch s.commit.lengths⟩
  unfold Machine.returnToIdle
  dsimp only
  refine CommitMid.same (CommitMid.expireAll ?_ ?_) (noticeHandle_ledger _)
  · cases applied with
    | true => exact k.same ((hmade _).trans (restartAllJobs_ledger _))
    | false => exact k.same (hmade _)
  · cases applied with
    | true => rw [(Aside.forEach makeJob_aside _).commit, if_pos rfl, (restartAllJobs_aside _).commit]; rfl
    | false => rw [(Aside.forEach makeJob_aside _).commit]; rfl

/-- The controller's own tests: behind them it waits for somebody, where its state has one be waited for (R72, R82). -/
theorem settleCommit (h : CommitMid [] s) : CommitMid [] (Machine.settleCommit s) ∧ (Machine.settleCommit s).ledger.Waits := by
  have hany : ∀ st, anyStatus s st = true ↔ ∃ k ∈ s.ledger.stakes, k.status = st := fun st => by
    simp [anyStatus, State.ledger, Participant.stake]
  have hidle : ∀ (x : State) (applied : Bool), (Machine.returnToIdle applied x).ledger.Waits := fun x applied => by
    have hx : (Machine.returnToIdle applied x).ledger.ctl.state = .idle :=
      (congrArg CommitCtl.state (returnToIdle_aside applied x).commit).trans rfl
    exact ⟨fun hst => (by rw [hx] at hst; cases hst), fun hst => (by rw [hx] at hst; cases hst)⟩
  have hended : ∀ (st : Status) (q : Byte) (res : List Byte) (applied : Bool),
      CommitMid [] (Machine.returnToIdle applied (completeCommit st q res s))
        ∧ (Machine.returnToIdle applied (completeCommit st q res s)).ledger.Waits := fun st q res applied =>
    ⟨(h.same (completeCommit_ledger st q res s)).returnToIdle, hidle ..⟩
  unfold Machine.settleCommit
  split
  · next hst =>
    split
    · next hsome =>
      refine ⟨h, fun _ => (hany _).mp hsome, fun hx => ?_⟩
      rw [show s.ledger.ctl.state = .preparing from hst] at hx
      cases hx
    · next hnone =>
      refine ⟨⟨h.mid.arm hst (fun k hk hu => hnone ((hany _).mpr ⟨k, hk, hu⟩)) _⟩, fun hx => ?_, fun hx => ?_⟩
      · cases hx
      · cases hx
  · next hst =>
    split
    · next hsome =>
      refine ⟨h, fun hx => ?_, fun _ => (hany _).mp hsome⟩
      rw [show s.ledger.ctl.state = .applying from hst] at hx
      cases hx
    · exact hended ..
  · next hst =>
    split
    · refine ⟨h, fun hx => ?_, fun hx => ?_⟩
      · rw [show s.ledger.ctl.state = .cancelling from hst] at hx
        cases hx
      · rw [show s.ledger.ctl.state = .cancelling from hst] at hx
        cases hx
    · exact hended ..
  · next hp ha hc => exact ⟨h, fun hx => absurd hx hp, fun hx => absurd hx ha⟩

end CommitMid

end Sys2Proof.Machine
end

section
/-! PROOFS. The ledger through the answers of participants, the verification, scans and roll calls (O57; R3, R8, R72 to R80, R131 to R144). -/

namespace Sys2Proof.Machine

/-- What an assignment in progress may count on: the handle of a new tile is no record's, and the record to re-bind is STALE (R5, R131). -/
structure AssignSound (s : State) : Prop where
  fresh : ∀ l a, (s.links.get l).assigning = some a → a.kind = .assigningNew → ∀ r ∈ s.dir.records, r.ref.handle ≠ a.ref.handle
  stale : ∀ l a, (s.links.get l).assigning = some a → a.kind = .assigningRebind → ∀ r ∈ s.dir.records, r.uid = a.info.uid → r.state = .stale

namespace AssignSound

variable {s s' : State}

theorem of_sound (h : HubSound s) : AssignSound s where
  fresh _ _ ha hk := (held_handle h.directory ha hk).2.2
  stale l a ha hk r hr hu :=
    have hmark : a.mark l ∈ s.dir.marks := h.directory.marks.mem_iff.mpr (List.mem_filterMap.mpr ⟨l, mem_fours l, by rw [ha]; rfl⟩)
    (h.directory.rebindIds _ hmark hk r hr hu).2

theorem modLink (h : AssignSound s) {l : LinkId} {f : LinkEngine → LinkEngine} (hf : ∀ e, (f e).assigning = e.assigning := by intro _; rfl) :
    AssignSound (Machine.modLink l f s) := by
  have hget : ∀ i, ((Machine.modLink l f s).links.get i).assigning = (s.links.get i).assigning := fun i => by
    rw [modLink_links, Quad.get_modify]
    split
    · next hi => rw [hf, hi]
    · rfl
  exact ⟨fun i a ha => h.fresh i a (hget i ▸ ha), fun i a ha => h.stale i a (hget i ▸ ha)⟩

theorem setMiss (h : AssignSound s) {l : LinkId} {hop n : Nat} : AssignSound (Machine.setMiss l hop n s) := by
  have hmap : ∀ k, AssignSound (updRec k (fun x => { x with miss := n }) s) := fun k => by
    have hmem : ∀ x ∈ (updRec k (fun x => { x with miss := n }) s).dir.records, ∃ r ∈ s.dir.records, r.ref = x.ref ∧ r.uid = x.uid ∧ r.state = x.state :=
      fun x hx => by
        obtain ⟨r, hr, rfl⟩ := List.mem_map.mp hx
        exact ⟨r, hr, by split <;> exact ⟨rfl, rfl, rfl⟩⟩
    refine ⟨fun i a ha hk x hx => ?_, fun i a ha hk x hx hu => ?_⟩
    · obtain ⟨r, hr, href, -, -⟩ := hmem x hx
      exact href ▸ h.fresh i a ha hk r hr
    · obtain ⟨r, hr, -, huid, hst⟩ := hmem x hx
      exact hst ▸ h.stale i a ha hk r hr (huid.trans hu)
  unfold Machine.setMiss
  split
  · exact hmap _
  · exact h

end AssignSound

namespace CommitMid

variable {lost lost' : List Ref} {s s' : State}

/-! ### Participants answer (R72, R73, R79, R80) -/

/-- A participant is settled by the verification (R79 to R81). -/
theorem setSettled (h : CommitMid lost s) {ref : Ref} {st : PartStatus} (hst : s.commit.state ≠ .preparing ∧ s.commit.state ≠ .armed)
    (hs : ¬ st.Counts) : CommitMid lost (setStatus ref st s) :=
  ⟨setStatus_ledger ref st s ▸ h.mid.mark (fun hc => absurd hc hs) (fun _ hx _ => hx) (fun hx => absurd hx hst.1) (fun hx => absurd hx hst.2)
    fun _ => ⟨fun hx => hs (.inl hx), fun hx => hs (.inr (.inl hx))⟩⟩

theorem confirm (h : CommitMid lost s) {ref : Ref} (hst : s.commit.state ≠ .preparing ∧ s.commit.state ≠ .armed) :
    CommitMid lost (Machine.confirm ref s) :=
  (h.setSettled hst (fun hc => by rcases hc with hc | hc | hc <;> cases hc)).same (updRec_ledger ..)

theorem makeLagging (h : CommitMid lost s) {ref : Ref} (hst : s.commit.state ≠ .preparing ∧ s.commit.state ≠ .armed) :
    CommitMid lost (Machine.makeLagging ref s) :=
  (h.setSettled hst (fun hc => by rcases hc with hc | hc | hc <;> cases hc)).claimLagging

/-- A participant is UNCONFIRMED only behind the apply. -/
theorem unconfirmed (h : CommitMid lost s) {p : Participant} (hp : p ∈ s.commit.participants) (hu : p.status = .unconfirmed) :
    s.commit.state ≠ .preparing ∧ s.commit.state ≠ .armed := by
  have hk : p.stake ∈ s.ledger.stakes := List.mem_map_of_mem hp
  have hku : p.stake.status = .unconfirmed := hu
  refine ⟨fun hst => ?_, fun hst => ?_⟩
  · rcases h.mid.preparing hst _ hk with hx | hx | hx <;> rw [hku] at hx <;> cases hx
  · rcases h.mid.armed hst _ hk with hx | hx <;> rw [hku] at hx <;> cases hx

theorem examineOne (h : CommitMid lost s) {entries : List RollEntry} {p : Participant}
    (hst : s.commit.state ≠ .preparing ∧ s.commit.state ≠ .armed) : CommitMid lost (Machine.examineOne entries p s) := by
  have hexcluded : CommitMid lost (setStatus p.ref .excluded s) := h.setExcluded fun _ hx _ => hx
  unfold Machine.examineOne
  split
  · split
    · split
      · exact h.confirm hst
      · exact h.same (modLink_ledger ..)
    · exact hexcluded
  · exact hexcluded

theorem examineOne_state (entries : List RollEntry) (p : Participant) (s : State) :
    (Machine.examineOne entries p s).commit.state = s.commit.state := by
  unfold Machine.examineOne
  split
  · split
    · split <;> rfl
    · rfl
  · rfl

theorem examine (h : CommitMid lost s) {l : LinkId} {entries : List RollEntry} : CommitMid lost (Machine.examine l entries s) := by
  have hall : ∀ {ps : List Participant} {x : State}, CommitMid lost x → x.commit.state ≠ .preparing ∧ x.commit.state ≠ .armed →
      CommitMid lost (Machine.forEach ps (Machine.examineOne entries) x) := @fun ps x k hst => by
    unfold Machine.forEach
    induction ps generalizing x with
    | nil => exact k
    | cons p ps ih => exact ih _ (k.examineOne hst) (by rw [examineOne_state]; exact hst)
  unfold Machine.examine
  cases hps : s.commit.participants.filter (fun p => p.status == .unconfirmed && p.loc.link == l) with
  | nil => exact h
  | cons p ps =>
    obtain ⟨hp, ht⟩ := List.mem_filter.mp (hps ▸ List.mem_cons_self (a := p) (l := ps))
    exact hall h (h.unconfirmed hp (by simp at ht; exact ht.1))

/-- A PREPARE acknowledged: its participant is PREPARED with the last one (R72). -/
theorem acknowledged (h : CommitMid lost s) {ref : Ref} {p : Participant} (hp : findPart s ref = some p) (hu : p.status = .unprepared)
    (hst : s.commit.state = .preparing) (hl : ref ∉ lost) : CommitMid lost (updPart ref (fun p =>
      let q := { p with acked := p.acked + 1 }
      if q.allAcked then { q with status := .prepared } else q) s) := by
  have hfit : ∀ st : PartStatus, st = .unprepared ∨ st = .prepared → (s.ledger.mark ref st).Mid lost := fun st hst' =>
    h.mid.mark (fun _ k hk hr => ⟨.inl ((h.status_of_found hp hk hr).trans hu), hl⟩) (fun _ hx _ => hx)
      (fun _ => by rcases hst' with hx | hx; exacts [.inl hx, .inr (.inl hx)])
      (fun hx => by rw [show s.ledger.ctl.state = .preparing from hst] at hx; cases hx)
      fun hx => by rw [show s.ledger.ctl.state = .preparing from hst] at hx; cases hx
  refine ⟨updPart_found_ledger h.mid.stakes hp ?_ ?_ ▸ hfit _ ?_⟩
  · dsimp only
    split <;> rfl
  · dsimp only
    split <;> rfl
  · dsimp only
    split
    · exact .inr rfl
    · exact .inl hu

theorem participantReplied (h : CommitMid [] s) {ref : Ref} {b : Body} {st : TileStatus} {reply : ReplyBody} :
    CommitMid [] (Machine.participantReplied ref b st reply s) := by
  unfold Machine.participantReplied
  split
  · exact h
  · next p hp =>
    have hmem : p ∈ s.commit.participants := List.mem_of_find?_eq_some hp
    split
    · split
      · next hst =>
        split
        · exact h.acknowledged hp hst.2 hst.1 nofun
        · exact h.failParticipant hst.1 fun _ hx _ => hx
      · exact h
    · split
      · next hst =>
        split
        · exact (h.confirm (h.unconfirmed hmem hst.2)).same (raiseHandle_ledger ..)
        · exact h.makeLagging (h.unconfirmed hmem hst.2)
      · exact h
    · exact h

theorem participantNoReply (h : CommitMid [] s) {ref : Ref} {b : Body} {limit : Bool} :
    CommitMid [] (Machine.participantNoReply ref b limit s) := by
  unfold Machine.participantNoReply
  split
  · exact h
  · next p hp =>
    have hmem : p ∈ s.commit.participants := List.mem_of_find?_eq_some hp
    split
    · split
      · next hst => exact h.failParticipant hst.1 fun _ hx _ => hx
      · exact h
    · split
      · next hst =>
        split
        · exact h.claimLagging
        · exact h.makeLagging (h.unconfirmed hmem hst.2)
      · exact h
    · split
      · split
        · exact h.claimLagging
        · exact h
      · exact h
    · exact h

/-! ### Records come (R3, R8) -/

theorem createRecord (h : CommitMid lost s) {ref : Ref} {info : EnumInfo} {loc : Loc} (hfresh : ∀ r ∈ s.dir.records, r.ref.handle ≠ ref.handle) :
    CommitMid lost (Machine.createRecord ref info loc s) := by
  have hl : (Machine.createRecord ref info loc s).ledger
      = { s.ledger with seats := (insertRec (newRecord ref info loc) s.dir.records).map Record.seat } :=
    (makeJob_ledger ..).trans rfl
  refine ⟨hl ▸ h.mid.enroll (x := (newRecord ref info loc).seat) ((DirMid.insertRec_perm _ _).map Record.seat) (fun y hy => ?_) rfl⟩
  obtain ⟨r, hr, rfl⟩ := List.mem_map.mp hy
  exact hfresh r hr

theorem rebind (h : CommitMid lost s) {r : Record} {info : EnumInfo} {loc : Loc}
    (hstale : ∀ x ∈ s.dir.records, x.ref.handle = r.ref.handle → x.state = .stale) : CommitMid lost (Machine.rebind r info loc s) := by
  have k := h.reseat (n := r.ref.handle) (f := fun x => { x with
      state := .joining, stale := none, loc := loc, model := info.model, capacity := info.capacity, miss := 0 })
    (g := fun x => { x with reachable := true, loc := loc }) (fun _ => rfl) (fun _ => rfl) (fun _ => rfl)
    fun x hx hn hst => absurd (hstale x hx hn) hst
  refine k.same ?_
  unfold Machine.rebind
  dsimp only
  rw [makeJob_ledger, setHop_ledger]
  split <;> rfl

/-! ### Scans (R131 to R141) -/

theorem matchReply (h : CommitMid lost s) {l : LinkId} {hop : Nat} {full : Bool} {reply : Option EnumInfo} :
    CommitMid lost (Machine.matchReply l hop full reply s) := by
  have hunlisted : ∀ why, CommitMid lost (setUnlisted l hop why s) := fun why => h.same (setUnlisted_ledger ..)
  unfold Machine.matchReply
  split
  · exact hunlisted _
  · split
    · exact hunlisted _
    · split
      · exact hunlisted _
      · split
        · split
          · exact h
          · exact (hunlisted _).same (raiseHandle_ledger ..)
        · exact h.same (startAssign_ledger ..)
      · split
        · next ht => exact (h.takeHandle ht).same (startAssign_ledger ..)
        · exact hunlisted _

theorem endScan (h : CommitMid [] s) {l : LinkId} {r : Nat} : CommitMid [] (Machine.endScan l r s) := by
  unfold Machine.endScan
  split
  · exact h
  · dsimp only
    refine (h.claimStaleAll (claims := (handlesFrom (s.links.get l) r).map fun h => (h, .unreached))).same ?_
    rw [completeRescan_ledger]
    split <;> rfl

theorem nextStep (h : CommitMid [] s) {l : LinkId} : CommitMid [] (Machine.nextStep l s) := by
  unfold Machine.nextStep
  split
  · exact h
  · split
    · exact h.same (modLink_ledger ..)
    · exact h.endScan

theorem stepMatched (h : CommitMid [] s) {l : LinkId} {full : Bool} : CommitMid [] (Machine.stepMatched l full s) := by
  unfold Machine.stepMatched
  split
  · exact h.nextStep
  · exact h

theorem enumReplied (h : CommitMid [] s) {l : LinkId} {hop : Nat} {full : Bool} {st : TileStatus} {reply : ReplyBody} :
    CommitMid [] (Machine.enumReplied l hop full st reply s) := by
  have hclaimed : ∀ (n : Nat) (f : FullScan → FullScan) (x : Option EnumInfo), CommitMid [] (Machine.stepMatched l full
      (Machine.matchReply l hop full x (if full then countScan l f (setHop l hop .empty (Machine.claimStale n .replaced s))
        else setHop l hop .empty (Machine.claimStale n .replaced s)))) := fun n f x => by
    refine CommitMid.stepMatched (CommitMid.matchReply ((h.claimStale (n := n) (why := .replaced)).same ?_))
    split
    · exact (countScan_ledger ..).trans (setHop_ledger ..)
    · exact setHop_ledger ..
  unfold Machine.enumReplied
  dsimp only
  split
  · split
    · split
      · split
        · exact (h.same (updRec_ledger ..)).stepMatched
        · exact h.stepMatched
      · exact hclaimed ..
    · exact hclaimed ..
  · exact h.matchReply.stepMatched

theorem enumNoReply (h : CommitMid [] s) {l : LinkId} {hop : Nat} {full : Bool} : CommitMid [] (Machine.enumNoReply l hop full s) := by
  unfold Machine.enumNoReply
  split
  · exact h.endScan
  · exact h.same (modLink_ledger ..)

theorem assignFailed (h : CommitMid lost s) {l : LinkId} {a : Assignment} : CommitMid lost (Machine.assignFailed l a s) :=
  h.same ((dropAssignment_ledger ..).trans (setUnlisted_ledger ..))

theorem assignOk (h : CommitMid lost s) (hs : AssignSound s) {l : LinkId} {a : Assignment} (ha : (s.links.get l).assigning = some a) :
    CommitMid lost (Machine.assignOk l a s) := by
  have k : CommitMid lost (modLink l (fun e => { e with assigning := none, scanQ := e.scanQ.filter (fun t => t != clearTxn a.hop) })
      (removeMark ⟨l, a.hop⟩ s)) := h.same ((modLink_ledger ..).trans (removeMark_ledger ..))
  unfold Machine.assignOk
  dsimp only
  split
  · next hk =>
    have hnew := k.createRecord (info := a.info) (loc := ⟨l, a.hop⟩) (hs.fresh l a ha hk)
    split
    · exact hnew.same (countScan_ledger ..)
    · exact hnew
  · next hk =>
    split
    · next r hr =>
      obtain ⟨hmem, hru⟩ : r ∈ s.dir.records ∧ r.uid = a.info.uid := by
        have hp := List.find?_some hr
        simp only [Bool.and_eq_true, beq_iff_eq] at hp
        exact ⟨List.mem_of_find?_eq_some hr, hp.2⟩
      have hold := k.rebind (r := r) (info := a.info) (loc := ⟨l, a.hop⟩) fun x hx hn => by
        have hxr : x = r := Option.some.inj ((h.differ.findRec hx).symm.trans (by rw [hn]; exact h.differ.findRec hmem))
        exact hxr ▸ hs.stale l a ha hk r hmem hru
      split
      · exact hold.same (countScan_ledger ..)
      · exact hold
    · exact k.same ((modLink_ledger ..).trans (setUnlisted_ledger ..))

theorem assignEnded (h : CommitMid [] s) {l : LinkId} {ok : Bool} (hs : ok = true → AssignSound s) :
    CommitMid [] (Machine.assignEnded l ok s) := by
  unfold Machine.assignEnded
  split
  · exact h
  · next a ha =>
    split
    · next hok => exact (h.assignOk (hs hok) ha).stepMatched
    · exact h.assignFailed.stepMatched

/-! ### Roll calls (R143 to R147) -/

theorem loseHop (h : CommitMid [] s) {l : LinkId} {hop : Nat} {ref : Ref} {why : StaleReason} :
    CommitMid [] (Machine.loseHop l hop ref why s) := (h.claimStale (n := ref.handle) (why := why)).same (setHop_ledger ..)

theorem rollHop (h : CommitMid [] s) {l : LinkId} {entries : List RollEntry} {hop : Nat} : CommitMid [] (Machine.rollHop l entries hop s) := by
  unfold Machine.rollHop
  split
  · exact h
  · split
    · split
      · exact h.same (updRec_ledger ..)
      · exact h.loseHop.same (rollScan_ledger ..)
    · exact h.loseHop
    · exact h.same (rollScan_ledger ..)
    · exact h
    · exact h
    · exact h.same (setHop_ledger ..)

theorem processRollCall (h : CommitMid [] s) {l : LinkId} {entries : List RollEntry} : CommitMid [] (Machine.processRollCall l entries s) :=
  CommitMid.forEach (h.same (modLink_ledger ..)) fun _ _ k => k.rollHop

theorem rollEnded (h : CommitMid [] s) {l : LinkId} {t : Txn} {entries : List RollEntry} : CommitMid [] (Machine.rollEnded l t entries s) := by
  have k : CommitMid [] (Machine.processRollCall l entries
      (modLink l (fun e => { e with lastRollEnd := s.now, rollDue := false, rollMet := false }) s)) :=
    CommitMid.processRollCall (h.same (modLink_ledger ..))
  unfold Machine.rollEnded
  dsimp only
  split
  · exact k.examine
  · exact k

end CommitMid

end Sys2Proof.Machine
end

section
/-! PROOFS. The ledger through the ends of transactions, boundary events, requests and clears, and EveryStepKeepsTheCommitSound (O57). -/

namespace Sys2Proof.Machine

/-! ### What the ledger takes from the rest of the hub -/

/-- Handles are 1 and up, staged changes have targets of their own, and assignments find what they count on (R1, R49, R131). -/
structure Grounds (s : State) : Prop where
  handles : ∀ r ∈ s.dir.records, 1 ≤ r.ref.handle
  targets : s.staging.Pairwise fun a b => sameTarget a.target b.target = false
  assigns : AssignSound s

theorem Grounds.of_sound {s : State} (hw : WellShaped s) (h : HubSound s) : Grounds s where
  handles r hr := ((numbered_of_sound hw h.directory).records r hr).1
  targets := hw.targets
  assigns := .of_sound h

theorem Grounds.of_eq {s s' : State} (h : Grounds s) (hd : s'.dir = s.dir := by rfl) (hs : s'.staging = s.staging := by rfl)
    (hl : s'.links = s.links := by rfl) : Grounds s' where
  handles := hd ▸ h.handles
  targets := hs ▸ h.targets
  assigns := ⟨by rw [hd, hl]; exact h.assigns.fresh, by rw [hd, hl]; exact h.assigns.stale⟩

namespace CommitMid

variable {lost lost' : List Ref} {s s' : State}

/-! ### Transactions end (R111 to R116) -/

theorem jobReplied (h : CommitMid lost s) {l : LinkId} {ref : Ref} {b : Body} {st : TileStatus} {reply : ReplyBody} :
    CommitMid lost (Machine.jobReplied l ref b st reply s) := by
  unfold Machine.jobReplied
  split
  · exact h
  · split
    · split
      · exact h.same (jobPrepareOk_ledger ..)
      · exact h.same (jobRefused_ledger ..)
    · split
      · unfold Machine.jobRoundDone
        split
        · exact h.same (modJobs_ledger ..)
        · exact h.claimActive
      · exact h.same (jobRefused_ledger ..)
    · exact h

theorem claimAtLimit (h : CommitMid [] s) {l : LinkId} {hop n : Nat} : CommitMid [] (Machine.claimAtLimit l hop n s) :=
  (h.claimStale (n := n) (why := .noReply)).same ((modLink_ledger ..).trans (setHop_ledger ..))

theorem requesterReplied (h : CommitMid [] s) (hs : AssignSound s) {l : LinkId} {hop : Nat} {t : Txn} {st : TileStatus} {reply : ReplyBody} :
    CommitMid [] (Machine.requesterReplied l hop t st reply s) := by
  unfold Machine.requesterReplied
  split
  · exact h.participantReplied
  · split
    · exact h.enumReplied
    · exact h.assignEnded fun _ => hs
  · exact h.same (hostReplied_ledger ..)
  · exact h.jobReplied
  · exact h.same (discardJobResult_ledger ..)
  · exact h
  · exact h
  · exact h

theorem requesterNoReply (h : CommitMid [] s) {l : LinkId} {hop : Nat} {t : Txn} {limit : Bool} :
    CommitMid [] (Machine.requesterNoReply l hop t limit s) := by
  unfold Machine.requesterNoReply
  split
  · exact h.participantNoReply
  · split
    · exact h.enumNoReply
    · exact h.assignEnded nofun
  · exact h.same (hostNoReply_ledger ..)
  · exact h.same (jobNoReply_ledger ..)
  · exact h.same (discardJobResult_ledger ..)
  · exact h
  · exact h
  · exact h

theorem endReplied (h : CommitMid [] s) (hs : AssignSound s) {l : LinkId} {t : Txn} {st : TileStatus} {reply : ReplyBody} :
    CommitMid [] (Machine.endReplied l t st reply s) := by
  have k : CommitMid [] (freeWire l s) := h.same (freeWire_ledger ..)
  have hfree : AssignSound (freeWire l s) := hs.modLink
  unfold Machine.endReplied
  dsimp only
  split
  · split
    · exact (k.same (setMiss_ledger ..)).requesterReplied hfree.setMiss
    · exact k.requesterReplied hfree
  · split
    · exact k.rollEnded
    · exact k
  · exact k

theorem missNoReply (h : CommitMid [] s) {l : LinkId} {hop : Nat} {t : Txn} : CommitMid [] (Machine.missNoReply l hop t s) := by
  unfold Machine.missNoReply
  split
  · exact h.requesterNoReply
  · next r hr =>
    have k : CommitMid [] (setMiss l hop (r.miss + 1) s) := h.same (setMiss_ledger ..)
    dsimp only
    split
    · exact k.requesterNoReply
    · split
      · split
        · exact (k.same (setChoices_ledger ..)).claimAtLimit.requesterNoReply
        · exact (k.same (setChoices_ledger ..)).requesterNoReply.claimAtLimit
      · exact k.claimAtLimit.requesterNoReply

theorem endNoReply (h : CommitMid [] s) {l : LinkId} {t : Txn} : CommitMid [] (Machine.endNoReply l t s) := by
  have k : CommitMid [] (freeWire l s) := h.same (freeWire_ledger ..)
  unfold Machine.endNoReply
  dsimp only
  split
  · split
    · exact k.missNoReply
    · exact k.requesterNoReply
  · exact k.rollEnded
  · exact k

theorem attemptFailed (h : CommitMid [] s) {l : LinkId} {f : Flight} : CommitMid [] (Machine.attemptFailed l f s) := by
  unfold Machine.attemptFailed
  split
  · split
    · split
      · exact h.same (overtake_ledger ..)
      · exact h.same (retryAttempt_ledger ..)
    · exact h.same (retryAttempt_ledger ..)
  · exact h.endNoReply

theorem takeDown (h : CommitMid [] s) {l : LinkId} {target : LinkState} : CommitMid [] (Machine.takeDown l target s) :=
  (h.same (takeDownEngine_ledger ..)).claimStaleAll

/-! ### Deadlines and boundary events (R74, R77, R81) -/

theorem excludeUnprepared (h : CommitMid [] s) : CommitMid [] (Machine.excludeUnprepared s) :=
  h.forEach fun _ _ k => k.exclude fun _ hx _ => hx

theorem makeLagging_state (ref : Ref) (s : State) : (Machine.makeLagging ref s).commit.state = s.commit.state :=
  (congrArg CommitCtl.state (claimLagging_commit ref.handle (setStatus ref .lagging s)) :)

theorem lagAll (h : CommitMid [] s) (hst : s.commit.state = .applying) {refs : List Ref} :
    CommitMid [] (Machine.forEach refs Machine.makeLagging s) := by
  unfold Machine.forEach
  induction refs generalizing s with
  | nil => exact h
  | cons ref refs ih =>
    exact ih (h.makeLagging (by rw [hst]; exact ⟨nofun, nofun⟩)) ((makeLagging_state ref s).trans hst)

theorem applied_ledger (s : State) : (applied s).ledger = s.ledger.applied (applied s).commit.apart := by
  have hseats : (s.dir.records.map (recordAfter s)).map Record.seat
      = (s.dir.records.map Record.seat).map fun x => { x with pos := x.after s.staging s.commit.displaced } := by
    rw [List.map_map, List.map_map]
    rfl
  have hstakes : (s.commit.participants.map partAfter).map Participant.stake
      = (s.commit.participants.map Participant.stake).map fun k => if k.status = .prepared then { k with status := .unconfirmed } else k := by
    rw [List.map_map, List.map_map]
    refine List.map_congr_left fun p _ => ?_
    dsimp only [Function.comp, partAfter]
    by_cases hp : p.status = .prepared
    · rw [if_pos hp, if_pos (c := p.stake.status = .prepared) hp]
      rfl
    · rw [if_neg hp, if_neg (c := p.stake.status = .prepared) hp]
  show Ledger.mk _ _ _ _ _ _ = Ledger.mk _ _ _ _ _ _
  exact congrArg₂ (fun x y => Ledger.mk x (storeAfter s.store s.staging) (s.keys.map fun k => { k with introduced := false }) []
    (applied s).commit.apart y) hseats hstakes

theorem applyCommit (h : CommitMid [] s) (hg : Grounds s) (hst : s.commit.state = .armed) : CommitMid [] (Machine.applyCommit s) := by
  obtain ⟨ls, heq, -⟩ := applyCommit_at s
  rw [heq]
  refine ⟨(applied_ledger s ▸ h.mid.apply hst (fun x hx => ?_) hg.targets rfl rfl rfl ?_ : (applied s).ledger.Mid [])⟩
  · obtain ⟨r, hr, rfl⟩ := List.mem_map.mp hx
    exact hg.handles r hr
  · rintro ⟨k, hk, hp⟩
    obtain ⟨p, hp', rfl⟩ := List.mem_map.mp hk
    have hany : ((s.commit.participants.map partAfter).any fun p => p.status == .unconfirmed) = true := by
      refine List.any_eq_true.mpr ⟨_, List.mem_map_of_mem hp', ?_⟩
      rw [partAfter, if_pos (show p.status = .prepared from hp)]
      rfl
    show (if _ then _ else _ : Option Nat) ≠ none
    rw [if_pos hany]
    nofun

theorem boundaryEvent (h : CommitMid [] s) (hg : Grounds s) : CommitMid [] (Machine.boundaryEvent s) := by
  have k : CommitMid [] (countBoundary s) := h.same (modBoundary_ledger ..)
  unfold Machine.boundaryEvent
  split
  · next hst => exact k.applyCommit hg.of_eq hst
  · exact k.same (jobsTakeBoundary_ledger _)
  · exact k

end CommitMid

/-! ### The commit sound behind an event -/

/-- The ledger is sound and the controller waits for somebody where its state has one be waited for. -/
structure CommitKept (s : State) : Prop extends CommitMid [] s where
  waits : s.ledger.Waits

theorem CommitMid.finishEvent {s : State} (h : CommitMid [] s) {n : Nat} : CommitKept (Machine.finishEvent n s) := by
  obtain ⟨hmid, hwaits⟩ := h.settleCommit
  have hl := finishLinks_ledger n (Machine.settleCommit s)
  exact ⟨hmid.same hl, show (finishLinks n (Machine.settleCommit s)).ledger.Waits from hl ▸ hwaits⟩

namespace CommitKept

variable {s s' : State}

theorem same (h : CommitKept s) (hl : s'.ledger = s.ledger) : CommitKept s' := ⟨h.toCommitMid.same hl, hl ▸ h.waits⟩

/-- In IDLE nobody is waited for. -/
theorem ofIdle (h : CommitMid [] s) (hidle : s.commit.state = .idle) : CommitKept s :=
  ⟨h, ⟨fun hx => absurd (hidle.symm.trans hx) nofun, fun hx => absurd (hidle.symm.trans hx) nofun⟩⟩

theorem setGrace (h : CommitKept s) {n : Byte} {t : Tag} : CommitKept (Machine.setGrace n t s) := by
  have k : CommitKept (answerOk .setGrace [] t (modDir (fun d => { d with grace := n.toNat }) s)) := h.same rfl
  unfold Machine.setGrace
  dsimp only
  split
  · next hidle =>
    exact (ofIdle (k.toCommitMid.expireAll hidle) (by rw [(expireAll_aside _).commit]; exact hidle)).same (finishLinks_ledger ..)
  · exact k

/-- A record that no commit holds is retired (R18, R19). -/
theorem retireRecord (h : CommitKept s) (hg : Grounds s) {r : Record} (hr : r ∈ s.dir.records) (hfree : heldByCommit s r = false) :
    CommitKept (Machine.retireRecord r s) := by
  have hfound : findRec s r.ref.handle = some r := h.differ.findRec hr
  have k : CommitMid [] (Machine.retire r.ref.handle s) := by
    refine h.toCommitMid.retire ?_
    by_cases hidle : s.commit.state = .idle
    · exact .inl hidle
    · have hnone : s.staging.any (Change.namesHandle r.ref.handle) = false ∧ s.commit.participants.any (fun p => p.ref == r.ref) = false := by
        simpa [heldByCommit, hidle, -List.any_eq_false] using hfree
      refine .inr ⟨fun c hc => by simpa using List.any_eq_false.mp hnone.1 c hc, fun j hj hn => ?_, hg.targets⟩
      obtain ⟨x, hx, hxr⟩ := h.mid.held j hj
      obtain ⟨y, hy, rfl⟩ := List.mem_map.mp hx
      have hyr : y = r := Option.some.inj ((h.differ.findRec hy).symm.trans (by
        rw [show y.ref.handle = r.ref.handle from (congrArg Ref.handle hxr).trans hn]; exact hfound))
      obtain ⟨p, hp, rfl⟩ := List.mem_map.mp hj
      have hpr : p.ref = r.ref := hxr.symm.trans (congrArg Record.ref hyr)
      simpa [hpr] using List.any_eq_false.mp hnone.2 p hp
  have hl := retire_ledger hfound
  have hkept : CommitKept (Machine.retire r.ref.handle s) := ⟨k, by rw [hl]; exact ⟨h.waits.preparing, h.waits.applying⟩⟩
  unfold Machine.retireRecord
  dsimp only
  split
  · exact hkept.same ((modLink_ledger ..).trans (setUnlisted_ledger ..))
  · exact hkept

/-! ### Keys and staged changes (R30, R32, R54) -/

/-- A staged change of an entry has a defined key. -/
theorem stagedKey (h : CommitKept s) {c : Change} (hc : c ∈ s.staging) {sc : Scope} {n : Nat} (ht : c.target = .entry sc n) :
    ∃ k ∈ s.keys, k.number = n := by
  have hin := h.mid.staged c hc
  cases c with
  | setVal sc' n' v => cases ht; exact hin.2.2
  | clearVal sc' n' => cases ht; exact hin.2.2
  | _ => cases ht

theorem defineKey (h : CommitKept s) {k : KeyRec} : CommitKept (setKeys (insertKey k s.keys) s) := by
  have hmore : ∀ n, (∃ x ∈ s.keys, x.number = n) → ∃ x ∈ insertKey k s.keys, x.number = n := fun n ⟨x, hx, hn⟩ =>
    ⟨x, (mem_insertKey k x s.keys).mpr (.inr hx), hn⟩
  exact ⟨⟨h.mid.rekey (fun e he => hmore _ (h.mid.entries e he).2.2) fun c hc sc n ht => hmore _ (h.stagedKey hc ht)⟩,
    ⟨h.waits.preparing, h.waits.applying⟩⟩

theorem removeKey (h : CommitKept s) {k : KeyRec} (hstore : ∀ e ∈ s.store, e.key ≠ k.number)
    (hstaged : ∀ c ∈ s.staging, c.namesKey k.number = false) : CommitKept (Machine.removeKey k s) := by
  have hkept : ∀ n, n ≠ k.number → (∃ x ∈ s.keys, x.number = n) → ∃ x ∈ s.keys.filter (fun x => x.number != k.number), x.number = n :=
    fun n hne ⟨x, hx, hn⟩ => ⟨x, List.mem_filter.mpr ⟨hx, bne_iff_ne.mpr (hn ▸ hne)⟩, hn⟩
  have hset : CommitKept (setKeys (s.keys.filter (fun x => x.number != k.number)) s) := by
    refine ⟨⟨h.mid.rekey (fun e he => hkept _ (hstore e he) (h.mid.entries e he).2.2) fun c hc sc n ht => hkept _ ?_ (h.stagedKey hc ht)⟩,
      ⟨h.waits.preparing, h.waits.applying⟩⟩
    have hn := hstaged c hc
    cases c with
    | setVal sc' n' v => cases ht; exact beq_eq_false_iff_ne.mp hn
    | clearVal sc' n' => cases ht; exact beq_eq_false_iff_ne.mp hn
    | _ => cases ht
  unfold Machine.removeKey
  dsimp only
  split
  · exact hset
  · exact hset.same (restartAllJobs_ledger _)

/-- Changes are taken into the staging list, or leave it, while the controller is IDLE. -/
theorem setStaging (h : CommitKept s) (hidle : s.commit.state = .idle) {cs : List Change} (hcs : ∀ c ∈ cs, c ∈ s.staging ∨ ChangeSound s c) :
    CommitKept (Machine.setStaging cs s) :=
  ofIdle ⟨h.mid.stage hidle fun c hc => (hcs c hc).imp_right (changeIn_ledger c).mpr⟩ hidle

/-! ### COMMIT accepted (R65, R68, R70) -/

theorem acceptCommit_ledger (p : Policy) (t : Tag) (post : View) (displaced : List Ref) (ps : List Participant) (s : State) :
    (acceptCommit p t post displaced ps s).ledger
      = { s.ledger with ctl := (acceptedCommit s p t post displaced ps).apart, stakes := ps.map Participant.stake } :=
  (forEach_ledger (s := modCommit (fun _ => acceptedCommit s p t post displaced ps) (holdTag t .commit s))).trans rfl

theorem acceptCommit (h : CommitKept s) (hg : Grounds s) (hsize : postSize s.store s.staging ≤ 512) {displaced : List Ref}
    (hplaces : checkPlaces s.dir.records s.staging = .ok displaced) {p : Policy} {t : Tag} {post : View} :
    CommitKept (Machine.acceptCommit p t post displaced (participantsOf s post) s) := by
  have hpart : ∀ q ∈ participantsOf s post, ∃ r ∈ s.dir.records, participantOf s post r = some q := fun q hq => List.mem_filterMap.mp hq
  have hnil : (participantsOf s post).map Participant.stake = [] ↔ participantsOf s post = [] := List.map_eq_nil_iff
  have hrefs : (((participantsOf s post).map Participant.stake).map Stake.ref).Nodup := by
    have hsub : ((participantsOf s post).map Participant.ref).Sublist (s.dir.records.map Record.ref) := by
      unfold participantsOf
      induction s.dir.records with
      | nil => exact .slnil
      | cons r rs ih =>
        rw [List.filterMap_cons]
        split
        · exact ih.cons _
        · next q hq =>
          rw [List.map_cons, participantOf_ref hq]
          exact ih.cons_cons _
    rw [List.map_map]
    exact (List.pairwise_map.mpr (h.differ.imp fun hab he => hab (congrArg Ref.handle he))).sublist hsub
  have hstakes : ∀ k ∈ (participantsOf s post).map Participant.stake, k.status = .unprepared ∧ s.ledger.Present k := fun k hk => by
    obtain ⟨q, hq, rfl⟩ := List.mem_map.mp hk
    obtain ⟨r, hr, hqr⟩ := hpart q hq
    obtain ⟨hact, -, rfl⟩ := participantOf_some.mp hqr
    exact ⟨rfl, r.seat, List.mem_map_of_mem hr, rfl, by simp [Record.seat, Record.reachable, hact], rfl⟩
  have hpos : s.ledger.seats.Pairwise fun a b => a.after s.staging displaced ≠ none → a.after s.staging displaced ≠ b.after s.staging displaced :=
    List.pairwise_map.mpr (positionsAfter_differ h.differ ((List.pairwise_map (R := fun a b : Seat => a.pos ≠ none → a.pos ≠ b.pos)).mp
      h.mid.positions) hplaces)
  rw [postSize_storeAfter (es := s.store) (placed_of_strict h.mid.storeOrder) hg.targets] at hsize
  have hl := acceptCommit_ledger p t post displaced (participantsOf s post) s
  obtain ⟨hmid, hwaits⟩ := h.mid.accept (c := (acceptedCommit s p t post displaced (participantsOf s post)).apart) hrefs hstakes
    (if_congr hnil.symm rfl rfl)
    (by
      show (if participantsOf s post = [] then none else some _ : Option Nat) ≠ none ↔ _
      rw [ne_eq ((participantsOf s post).map _), hnil]
      split <;> simp [*])
    (by
      show (if participantsOf s post = [] then some _ else none : Option Nat) ≠ none ↔ _
      rw [hnil]
      split <;> simp [*])
    rfl hsize hpos
  exact ⟨⟨hl ▸ hmid⟩, hl ▸ hwaits⟩

/-! ### CLEAR and device reset (R188 to R190) -/

theorem clearLinks (h : CommitKept s) {t : Tag} : CommitKept (Machine.clearLinks t s) := by
  have k : CommitMid [] (forEach fours.reverse clearLink (beginClear t s)) :=
    h.toCommitMid.same ((forEach_ledger clearLink_ledger _).trans rfl)
  exact ((k.claimStaleAll (claims := (clearedHandles s).map fun n => (n, .cleared))).same (modPort_ledger ..)).finishEvent

/-- A hub without records, settings and commit is sound. -/
theorem ofEmpty {epoch : Half} {lengths : Deadlines} (hl : s.ledger = ⟨[], [], [], [], CommitCtl.idle epoch lengths, []⟩) : CommitKept s := by
  have hmid : (⟨[], [], [], [], CommitCtl.idle epoch lengths, []⟩ : Ledger).Mid [] :=
    ⟨.nil, .nil, .nil, Nat.zero_le _, nofun, nofun, fun hx => (by rcases hx with hx | hx <;> cases hx), .nil, nofun, fun _ => nofun,
      nofun, nofun, nofun, fun _ => ⟨rfl, rfl⟩, ⟨fun hx => absurd rfl hx, nofun⟩, ⟨fun hx => absurd rfl hx, nofun⟩, fun hx => absurd rfl hx, nofun⟩
  exact ⟨⟨hl ▸ hmid⟩, hl ▸ ⟨nofun, nofun⟩⟩

theorem endCleared_ledger (t : Tag) (s : State) : (endCleared t s).ledger = s.ledger := by
  unfold endCleared
  split <;> rfl

theorem clearAll {t : Tag} : CommitKept (Machine.clearAll t s) := by
  have hl : (Machine.clearAll t s).ledger = (clearBlocks s).ledger :=
    Eq.trans rfl (forEach_ledger (xs := runningTags s) endCleared_ledger (clearBlocks s))
  exact ofEmpty (hl.trans rfl)

end CommitKept

/-! ### Requests, events and commands -/

/-- What an accepted request does to the settings and the commit. -/
theorem Takes.kept {i : Instr} {t : Tag} {s s' : State} (h : Takes i t s s') (hs : CommitKept s) (hg : Grounds s) : CommitKept s' := by
  cases h with
  | answers => exact hs.same (complete_ledger ..)
  | setsGrace n => exact hs.setGrace
  | retires ref r res hr hfree =>
    exact (hs.retireRecord hg (checkRef_names hr).1 hfree).same ((finishLinks_ledger ..).trans (complete_ledger ..))
  | definesKey => exact hs.defineKey.same (complete_ledger ..)
  | undefinesKey k res hidle hk hstore hstaged =>
    exact (hs.removeKey hstore hstaged).same ((finishLinks_ledger ..).trans (complete_ledger ..))
  | replaces kind c n res hidle hc =>
    refine (hs.setStaging hidle fun x hx => ?_).same (complete_ledger ..)
    rcases List.mem_or_eq_of_mem_set hx with hx | rfl
    exacts [.inl hx, .inr hc]
  | adds kind c res hidle hc =>
    refine (hs.setStaging hidle fun x hx => ?_).same (complete_ledger ..)
    rcases List.mem_append.mp hx with hx | hx
    exacts [.inl hx, .inr (List.mem_singleton.mp hx ▸ hc)]
  | discards cs res hidle hcs => exact (hs.setStaging hidle fun x hx => .inl (hcs.subset hx)).same (complete_ledger ..)
  | commits p displaced hidle hsize hplaces => exact (hs.acceptCommit hg hsize hplaces).same (finishLinks_ledger ..)
  | aborts hst => exact ((hs.toCommitMid.enterCancelling (lost' := []) hst).same (complete_ledger ..)).finishEvent
  | setsFrame => exact hs.same ((complete_ledger ..).trans (modBoundary_ledger ..))
  | makesBoundary => exact ((hs.toCommitMid.boundaryEvent hg).same (complete_ledger ..)).finishEvent
  | awaitsBoundary => exact hs.same rfl
  | enables => exact hs.same ((complete_ledger ..).trans (modLink_ledger ..))
  | stopsTraining => exact hs.same ((complete_ledger ..).trans (modLink_ledger ..))
  | disables => exact (hs.toCommitMid.takeDown.same (complete_ledger ..)).finishEvent
  | setsTiming => exact hs.same ((arbitrate_ledger ..).trans ((complete_ledger ..).trans (newTiming_ledger ..)))
  | setsDeadlines d => exact ⟨⟨hs.mid.relength d⟩, ⟨hs.waits.preparing, hs.waits.applying⟩⟩
  | rescans => exact hs.same ((finishLinks_ledger ..).trans (acceptRescan_ledger ..))
  | accesses => exact hs.same ((arbitrate_ledger ..).trans rfl)
  | attends => exact hs.same ((complete_ledger ..).trans (modPort_ledger ..))
  | masks => exact hs.same ((complete_ledger ..).trans (modPort_ledger ..))
  | clearsLinks => exact hs.clearLinks
  | clearsAll => exact .clearAll

/-- What an event does to the settings and the commit. -/
theorem Occurs.kept {i : Instr} {s s' : State} (h : Occurs i s s') (hs : CommitKept s) (hg : Grounds s) : CommitKept s' := by
  have hm := hs.toCommitMid
  cases h with
  | counts => exact hs.same (watchEdge_ledger s)
  | makesBoundary =>
    have hw : Grounds (watchEdge s) := by
      unfold watchEdge
      dsimp only
      split <;> exact hg.of_eq
    exact (((hm.same (watchEdge_ledger s)).boundaryEvent hw).same (completePending_ledger ..)).finishEvent
  | watchEnds => exact hs.same rfl
  | falls => exact (((hm.same (advanceTo_ledger ..)).boundaryEvent hg.of_eq).same (completePending_ledger ..)).finishEvent
  | locks => exact hs.same ((arbitrate_ledger ..).trans rfl)
  | loses => exact hm.takeDown.finishEvent
  | lockFails => exact hs.same rfl
  | forgets => exact hs.same (forgetExpiry_ledger ..)
  | hears => exact (hm.endReplied hg.assigns).finishEvent
  | garbles => exact (hm.same (forgetExpiry_ledger ..)).attemptFailed.finishEvent
  | expires l f =>
    exact (hm.same ((timerExpired_ledger (advanceTo f.expires s) l f).trans (advanceTo_ledger ..))).attemptFailed.finishEvent
  | broadcasts => exact (hm.same ((broadcastDone_ledger ..).trans (forgetExpiry_ledger ..))).finishEvent
  | rolls => exact hs.same ((arbitrate_ledger ..).trans rfl)
  | expiresGrace n d hidle =>
    refine CommitKept.same (CommitKept.ofIdle ((hm.same (advanceTo_ledger s d)).retireAll hidle) ?_) (finishLinks_ledger ..)
    rw [(Aside.forEach retire_aside _).commit]
    exact hidle
  | defersGrace => exact hs.same (advanceTo_ledger ..)
  | cancels d reason hst => exact ((hm.same (advanceTo_ledger s d)).enterCancelling hst).finishEvent
  | excludes d => exact (hm.same (advanceTo_ledger s d)).excludeUnprepared.finishEvent
  | lags d hst => exact ((hm.same (advanceTo_ledger s d)).lagAll hst).finishEvent

/-- What a command does to the settings and the commit. -/
theorem Does.kept {c : Instr} {s s' : State} (h : Does c s s') (hs : CommitKept s) (hg : Grounds s) : CommitKept s' := by
  cases h with
  | shows => exact hs.same rfl
  | collects => exact hs.same rfl
  | takes n b t s' hacc h => exact h.kept (hs.same (received_ledger ..)) hg.of_eq
  | occurs s' hop h => exact h.kept hs hg
  | clears => exact hs.same ((complete_ledger ..).trans (modPort_ledger ..))
  | resets => exact .ofEmpty rfl
  | starts => exact hs.same rfl

/-- Settles O57: the ledger is sound but for the records whose loss the controller has still to hear of, and behind every event it has. -/
theorem everyStepKeepsTheCommitSound : Obligations.EveryStepKeepsTheCommitSound := by
  intro s s' hw hs hc h
  have hd : HandlesDiffer s := hs.directory.order.imp fun hab => Nat.ne_of_lt hab
  obtain ⟨hmid, hwaits⟩ := (commitSound_iff hd).mp hc
  have k : CommitKept s := ⟨⟨hmid⟩, hwaits⟩
  have k' : CommitKept s' := by
    rcases step_cases h with ⟨c, rest, -, hx⟩ | rfl
    · exact (does_of_exec hx).kept (k.same rfl) (Grounds.of_sound hw hs).of_eq
    · exact k.same rfl
  exact (commitSound_iff k'.differ).mpr ⟨k'.mid, k'.waits⟩

end Sys2Proof.Machine
end

end
